-- ==== Sys2Proof/Word.lean ====
section
/-! DEFINITION. The machine word and byte (01 R13: every register is 32 bits wide), and the two small name types
that events carry. The fixed bases of spec/00_scope.md R2: little-endian, bit 0 least significant. -/

namespace Sys2Proof

/-- A register (01 R13). -/
abbrev Word := BitVec 32

/-- A byte of memory (00 R2). -/
abbrev Byte := BitVec 8

/-- A 64-bit value, as a register pair, an address or a mask holds it (01 R13). -/
abbrev DWord := BitVec 64

/-- The monitor-level device registers that the spec gives the Hearth to set (12 R254, 14 R276, 15 R299, 18 R342,
09 R212, 20 R380, 12 R253). -/
inductive DeviceRegister where
  /-- sidecar table base of memory unit u: tower memory 0-3, HBM stack s as 4 + s (12 R254). -/
  | sct (u : Nat)
  /-- emergency area of a core (14 R276). -/
  | emerg (core : Nat)
  /-- heat-token refill in 1/64 tokens a cycle (15 R299). -/
  | tokenRefill
  /-- Carousel lease maximum in ns (18 R342). -/
  | leaseMax
  /-- Turnstile period in ns (09 R212). -/
  | turnstilePeriod
  /-- event ring of a compute die: base, size, tail, count threshold, age threshold (20 R380). -/
  | ringBase (die : Nat)
  | ringSize (die : Nat)
  | ringTail (die : Nat)
  | ringCount (die : Nat)
  | ringAge (die : Nat)
  /-- a context's flags word (14 Table 14.6, CTXFLAGS). -/
  | ctxFlags (ctx : Nat)
  /-- a context's handler address (14 Table 14.6, TRAPVEC). -/
  | trapVec (ctx : Nat)
  /-- a context's root table (14 Table 14.6, ROOT). -/
  | root (ctx : Nat)
  /-- a context's save area (14 Table 14.6, CTXSAVE). -/
  | ctxSave (ctx : Nat)
  /-- the Hearth takes a fabric port down (22 Table 22.5, state UP). -/
  | portDown (port : Nat)
  deriving DecidableEq, Repr

/-- What a UALink request of another package asks for (22 R400, 09 R184). -/
inductive FabricOp where
  | read (bytes : Nat)
  | write
  /-- an atomic or a reduction, by its opcode 0x80 to 0x8C and its type code. -/
  | atomic (op : BitVec 8) (ty : Nat)
  deriving DecidableEq, Repr

end Sys2Proof
end

