-- ==== Sys2Proof/Machine/Bits.lean ====
section
/-! DEFINITION. Bit fields, byte order, thread sets and list updates that every meaning uses (00 R2, R4). -/

namespace Sys2Proof.Machine

/-- Bits [lo+len-1:lo] of a number. -/
def bits (n lo len : Nat) : Nat := n / 2 ^ lo % 2 ^ len

/-- Bit i of a number. -/
def bitAt (n i : Nat) : Bool := n / 2 ^ i % 2 == 1

/-- The number whose bits [lo+len-1:lo] are v, and whose other bits are those of n. -/
def putBits (n lo len v : Nat) : Nat :=
  n - bits n lo len * 2 ^ lo + v % 2 ^ len * 2 ^ lo

/-- A two's-complement reading of the low w bits of n. -/
def signedOf (n w : Nat) : Int :=
  let m := n % 2 ^ w
  if m < 2 ^ (w - 1) then (m : Int) else (m : Int) - (2 ^ w : Nat)

/-- The low w bits of an exact integer. -/
def wrap (x : Int) (w : Nat) : Nat := (x % (2 ^ w : Nat)).toNat

/-- A 32-bit word of a number. -/
def wordOf (n : Nat) : Word := BitVec.ofNat 32 n

/-- A 64-bit value of a number. -/
def dwordOf (n : Nat) : DWord := BitVec.ofNat 64 n

/-- The 64-bit value of a register pair, even register first (01 R13). -/
def pairOf (lo hi : Word) : Nat := lo.toNat + hi.toNat * 2 ^ 32

/-- The register pair that holds a value. -/
def pairWords (n : Nat) : List Word := [wordOf n, wordOf (n / 2 ^ 32)]

/-- The n low bytes of a value, lowest address first (00 R2). -/
def bytesOf : Nat → Nat → List Byte
  | 0, _ => []
  | n + 1, v => BitVec.ofNat 8 v :: bytesOf n (v / 256)

/-- The value of bytes, lowest address first (00 R2). -/
def ofBytes : List Byte → Nat
  | [] => 0
  | b :: bs => b.toNat + 256 * ofBytes bs

/-- The bytes at offset off, n of them; 0x00 beyond the end. -/
def sliceOf (bs : List Byte) (off n : Nat) : List Byte :=
  (bs.drop off).take n

/-- A little-endian field of n bytes at an offset. -/
def fieldOf (bs : List Byte) (off n : Nat) : Nat := ofBytes (sliceOf bs off n)

/-- n bytes of 0x00. -/
def zeroBytes (n : Nat) : List Byte := List.replicate n 0

/-- bs with the bytes new written from an offset on; the length stays. -/
def patch (bs : List Byte) (off : Nat) (new : List Byte) : List Byte :=
  (bs.take off ++ new ++ bs.drop (off + new.length)).take bs.length

/-- The list with element n replaced. A list stands for its elements and for the default d beyond its end: where it is
shorter, it is extended with d. DESIGN CHOICE (log 93, safe). -/
def putAt {α : Type} (l : List α) (n : Nat) (d x : α) : List α :=
  if n < l.length then l.set n x else l ++ (List.replicate (n - l.length) d ++ [x])

/-- Thread i belongs to a mask (02 R38). -/
def inMask (m : DWord) (i : Nat) : Bool := m.getLsbD i

/-- The threads of a mask, ascending. -/
def threadsOf (m : DWord) : List Nat := (List.range 64).filter (inMask m)

/-- The mask of the threads of 0 to w - 1 for which p holds. -/
def maskOf (w : Nat) (p : Nat → Bool) : DWord :=
  dwordOf ((List.range w).foldl (fun acc i => if p i then acc + 2 ^ i else acc) 0)

/-- Every thread of x is a thread of y. -/
def subMask (x y : DWord) : Bool := x &&& ~~~ y == 0

/-- The masks share a thread. -/
def meets (x y : DWord) : Bool := x &&& y != 0

/-- Number of threads of a mask. -/
def countMask (m : DWord) : Nat := (threadsOf m).length

/-- The least of a number and a bound. -/
def sat (n bound : Nat) : Nat := if n ≤ bound then n else bound

/-- n rounded up to a multiple of k. -/
def roundUp (n k : Nat) : Nat := (n + k - 1) / k * k

/-- Replace the elements for which p holds. -/
def updateWhere {α : Type} (p : α → Bool) (f : α → α) (l : List α) : List α :=
  l.map fun x => if p x then f x else x

/-- All distinct elements, first occurrences kept. -/
def distinct {α : Type} [BEq α] (l : List α) : List α :=
  l.foldl (fun acc x => if acc.contains x then acc else acc ++ [x]) []

/-- The element with the least key, earliest first among equals. -/
def leastBy {α : Type} (key : α → Nat) : List α → Option α
  | [] => none
  | x :: xs =>
    match leastBy key xs with
    | none => some x
    | some y => if key x ≤ key y then some x else some y

/-- Insert into a list that rises by key, after equal keys. -/
def insertBy {α : Type} (key : α → Nat) (x : α) : List α → List α
  | [] => [x]
  | y :: ys => if key y ≤ key x then y :: insertBy key x ys else x :: y :: ys

/-- The list in rising order of key, stable. -/
def sortBy {α : Type} (key : α → Nat) (l : List α) : List α := l.foldl (fun acc x => insertBy key x acc) []

end Sys2Proof.Machine
end

