-- ==== Sys2Proof/Machine/Flags.lean ====
section
/-! DEFINITION. The sticky flags (06 Table 6.2), floating rounding with the flags that it sets (06
R117, R118), and integer types (05 R95). -/

namespace Sys2Proof.Machine

/-! ## Types -/

/-- Width in bits of an ITYPE code (03 Table 3.5). -/
def itypeWidth (code : Nat) : Nat :=
  match code with
  | 0 | 4 => 8
  | 1 | 5 => 16
  | 2 | 6 | 8 => 32
  | _ => 64

/-- `i8` to `i64` are signed (05 R95). -/
def itypeSigned (code : Nat) : Bool := decide (code < 4)

/-- Width in bits of an FTYPE code (03 Table 3.4). -/
def ftypeWidth (code : Nat) : Nat := if code = 0 then 32 else 16

/-- An integer type: width and signedness. -/
structure IType where
  w : Nat
  signed : Bool
  deriving DecidableEq, Repr

def itypeOf (code : Nat) : IType := ⟨itypeWidth code, itypeSigned code⟩

/-- The value of raw bits under a type. -/
def IType.value (t : IType) (n : Nat) : Int := if t.signed then signedOf n t.w else (n : Int)

def minTyped (t : IType) (a b : Nat) : Nat := if t.value a ≤ t.value b then a else b

def maxTyped (t : IType) (a b : Nat) : Nat := if t.value a ≤ t.value b then b else a

/-! ## Sticky flags -/

/-- Integer divide by zero, inexact, underflow, overflow, floating divide by zero, invalid (06 Table 6.2). -/
def flagIdz : BitVec 6 := 0x20#6
def flagNx : BitVec 6 := 0x10#6
def flagUf : BitVec 6 := 0x08#6
def flagOf : BitVec 6 := 0x04#6
def flagDz : BitVec 6 := 0x02#6
def flagNv : BitVec 6 := 0x01#6

/-! ## Formats (06 Table 6.1) -/

/-- A binary floating format: width in bits and precision p. -/
structure FFormat where
  width : Nat
  p : Nat
  deriving DecidableEq, Repr

def FFormat.f32 : FFormat := ⟨32, 24⟩
def FFormat.f16 : FFormat := ⟨16, 11⟩
def FFormat.bf16 : FFormat := ⟨16, 8⟩

/-- The format of an FTYPE code (03 Table 3.4). -/
def FFormat.ofCode (code : Nat) : FFormat := if code = 0 then .f32 else if code = 1 then .f16 else .bf16

/-- Bits of the exponent field. -/
def FFormat.ebits (f : FFormat) : Nat := f.width - f.p

/-- The bias, which is also emax. -/
def FFormat.bias (f : FFormat) : Nat := 2 ^ (f.ebits - 1) - 1

/-- The exponent of the last bit of a subnormal: emin - p + 1. -/
def FFormat.tiny (f : FFormat) : Int := 2 - (f.bias : Int) - (f.p : Int)

def FFormat.expMax (f : FFormat) : Nat := 2 ^ f.ebits - 1

def FFormat.signBit (f : FFormat) (neg : Bool) : Nat := if neg then 2 ^ (f.width - 1) else 0

def FFormat.inf (f : FFormat) (neg : Bool) : Nat := f.signBit neg + f.expMax * 2 ^ (f.p - 1)

def FFormat.largest (f : FFormat) (neg : Bool) : Nat := f.inf neg - 1

/-- Table 6.1, default NaN and legacy NaN. -/
def FFormat.defaultNan (f : FFormat) : Nat := f.inf false + 2 ^ (f.p - 2)

def FFormat.legacyNan (f : FFormat) : Nat := f.inf false + 2 ^ (f.p - 1) - 1

/-! ## The floating mode -/

/-- What an instruction takes from the mode register (06 R117, R119, R121): RND, DEN, LEG. -/
structure FMode where
  rnd : Nat
  den : Nat
  leg : Bool
  deriving DecidableEq, Repr

/-- `fin` or `fboth`: subnormal sources are flushed. -/
def FMode.flushIn (m : FMode) : Bool := m.den % 2 == 1

/-- `fout` or `fboth`: tiny results are flushed. -/
def FMode.flushOut (m : FMode) : Bool := decide (2 ≤ m.den)

/-! ## Rounding (06 R117) -/

/-- A non-zero exact magnitude: m × 2^e when `more` is false, else a real strictly between m × 2^e and (m + 1) × 2^e,
where m has at least 30 bits. -/
structure Exact where
  neg : Bool
  m : Nat
  e : Int
  more : Bool
  deriving DecidableEq, Repr

/-- Round to a multiple of 2^q: the multiple, and whether it is exact. Modes: 0 rne, 1 rtz, 2 rup, 3 rdn, 4 rna. -/
def Exact.roundAt (y : Exact) (q : Int) (rnd : Nat) : Nat × Bool :=
  if q ≤ y.e then (y.m * 2 ^ (y.e - q).toNat, !y.more)
  else
    let k := (q - y.e).toNat
    let low := y.m / 2 ^ k
    let rest := y.m % 2 ^ k
    let half := 2 ^ (k - 1)
    let inexact := rest != 0 || y.more
    let up :=
      match rnd with
      | 0 => decide (half < rest) || (rest == half && (y.more || low % 2 == 1))
      | 1 => false
      | 2 => inexact && !y.neg
      | 3 => inexact && y.neg
      | _ => decide (half ≤ rest)
    (if up then low + 1 else low, !inexact)

/-- Bits in a number: 0 for 0. -/
def bitLength (n : Nat) : Nat := if n = 0 then 0 else Nat.log2 n + 1

/-- Overflowed(y) (06 R118). -/
def FFormat.overflowed (f : FFormat) (neg : Bool) (rnd : Nat) : Nat :=
  match rnd with
  | 1 => f.largest neg
  | 2 => if neg then f.largest true else f.inf false
  | 3 => if neg then f.inf true else f.largest false
  | _ => f.inf neg

/-- Round(y) for a non-zero y: the bit pattern and the flags set. -/
def FFormat.round (f : FFormat) (m : FMode) (y : Exact) : Nat × BitVec 6 :=
  let lead := y.e + (bitLength y.m : Int) - 1
  let q := lead - ((f.p : Int) - 1)
  let wide := (y.roundAt q m.rnd).1
  let top := if wide = 2 ^ f.p then lead + 1 else lead
  if (f.bias : Int) < top then (f.overflowed y.neg m.rnd, flagOf ||| flagNx)
  else
    let tiny := decide (top < 1 - (f.bias : Int))
    let grid := max q f.tiny
    let z := y.roundAt grid m.rnd
    let bits := f.signBit y.neg + (grid - f.tiny).toNat * 2 ^ (f.p - 1) + z.1
    if tiny && m.flushOut then (f.signBit y.neg, flagUf ||| flagNx)
    else if z.2 then (bits, 0)
    else (bits, if tiny then flagNx ||| flagUf else flagNx)

end Sys2Proof.Machine
end

