-- ==== Sys2Proof/Machine/Float.lean ====
section
/-! DEFINITION. Floating values and operations on bit patterns (06 R115 to R134), for the floating class and for every
unit that adds or multiplies floating numbers. -/

namespace Sys2Proof.Machine

/-! ## Values (06 R115) -/

/-- A decoded floating value. -/
inductive FVal where
  | nan (neg : Bool) (frac : Nat) (quiet : Bool)
  | inf (neg : Bool)
  /-- (-1)^neg × m × 2^e, m = 0 for a zero. -/
  | fin (neg : Bool) (m : Nat) (e : Int)
  deriving DecidableEq, Repr

/-- The fields of a pattern: sign, exponent, fraction. -/
def FFormat.fields (f : FFormat) (n : Nat) : Bool × Nat × Nat :=
  (bitAt n (f.width - 1), bits n (f.p - 1) f.ebits, bits n 0 (f.p - 1))

def FFormat.decode (f : FFormat) (n : Nat) : FVal :=
  let x := f.fields n
  if x.2.1 = f.expMax then
    if x.2.2 = 0 then .inf x.1 else .nan x.1 x.2.2 (bitAt x.2.2 (f.p - 2))
  else if x.2.1 = 0 then .fin x.1 x.2.2 f.tiny
  else .fin x.1 (2 ^ (f.p - 1) + x.2.2) (f.tiny + (x.2.1 : Int) - 1)

/-- Exponent field 0 and a fraction that is not 0. -/
def FFormat.subnormal (f : FFormat) (n : Nat) : Bool := (f.fields n).2.1 == 0 && (f.fields n).2.2 != 0

/-- A floating source after the flush of `fin` (06 R119). -/
def FFormat.source (f : FFormat) (m : FMode) (n : Nat) : Nat :=
  if m.flushIn && f.subnormal n then f.signBit (bitAt n (f.width - 1)) else n % 2 ^ f.width

def FVal.isNan (v : FVal) : Bool :=
  match v with
  | .nan _ _ _ => true
  | _ => false

def FVal.isSignalling (v : FVal) : Bool :=
  match v with
  | .nan _ _ q => !q
  | _ => false

/-! ## NaN results (06 R120, R121) -/

/-- A NaN of format `src` carried into format `dst` with its quiet bit set. -/
def carryNan (src dst : FFormat) (neg : Bool) (frac : Nat) : Nat :=
  let cut :=
    if dst.p ≤ src.p then frac / 2 ^ (src.p - dst.p) else frac * 2 ^ (dst.p - src.p)
  dst.inf neg + (if bitAt cut (dst.p - 2) then cut else cut + 2 ^ (dst.p - 2))

/-- The result and flags when some source of format `src` is a NaN; none otherwise. -/
def nanResult (src dst : FFormat) (m : FMode) (l : List FVal) : Option (Nat × BitVec 6) :=
  match l.find? FVal.isNan with
  | some (.nan neg frac _) =>
    some (if m.leg then carryNan src dst neg frac else dst.defaultNan, if l.any FVal.isSignalling then flagNv else 0)
  | _ => none

/-- An invalid operation on operands that are not NaN. -/
def FFormat.invalid (f : FFormat) (m : FMode) : Nat × BitVec 6 := (if m.leg then f.legacyNan else f.defaultNan, flagNv)

/-! ## Exact values -/

/-- A finite value as an integer at a common exponent. -/
def alignTo (neg : Bool) (m : Nat) (e low : Int) : Int :=
  let v : Int := m * 2 ^ (e - low).toNat
  if neg then -v else v

/-- Round an exact dyadic: its sign when it is zero is given. -/
def FFormat.roundDyadic (f : FFormat) (m : FMode) (v : Int) (e : Int) (zeroNeg : Bool) : Nat × BitVec 6 :=
  if v = 0 then (f.signBit zeroNeg, 0) else f.round m ⟨decide (v < 0), v.natAbs, e, false⟩

/-- The sum of two values that are not NaN (06 R127). -/
def FFormat.sum (f : FFormat) (m : FMode) (x y : FVal) : Nat × BitVec 6 :=
  match x, y with
  | .inf a, .inf b => if a == b then (f.inf a, 0) else f.invalid m
  | .inf a, _ => (f.inf a, 0)
  | _, .inf b => (f.inf b, 0)
  | .fin a ma ea, .fin b mb eb =>
    let low := min ea eb
    let zero := if ma = 0 ∧ mb = 0 ∧ a = b then a else m.rnd == 3
    f.roundDyadic m (alignTo a ma ea low + alignTo b mb eb low) low zero
  | _, _ => f.invalid m

/-- The exact product of two values that are not NaN; none for 0 × Inf. A zero product has the product of the signs, of
which R127 says nothing. PRESUMED (log 114, unsafe). -/
def FVal.product (x y : FVal) : Option FVal :=
  match x, y with
  | .inf a, .inf b => some (.inf (a != b))
  | .inf a, .fin b mb _ => if mb = 0 then none else some (.inf (a != b))
  | .fin a ma _, .inf b => if ma = 0 then none else some (.inf (a != b))
  | .fin a ma ea, .fin b mb eb => some (.fin (a != b) (ma * mb) (ea + eb))
  | _, _ => none

/-- Round a value that is not NaN. -/
def FFormat.roundVal (f : FFormat) (m : FMode) (v : FVal) : Nat × BitVec 6 :=
  match v with
  | .inf a => (f.inf a, 0)
  | .fin a n e => f.roundDyadic m (alignTo a n e e) e a
  | .nan _ _ _ => f.invalid m

def FVal.negate (v : FVal) : FVal :=
  match v with
  | .inf a => .inf !a
  | .fin a m e => .fin (!a) m e
  | .nan a x q => .nan a x q

/-! ## Arithmetic (06 R126, R127) -/

/-- An operation on patterns: result pattern and flags. -/
abbrev FOp := FFormat → FMode → List Nat → Nat × BitVec 6

/-- Decode the sources, after `fin`. -/
def FFormat.sources (f : FFormat) (m : FMode) (l : List Nat) : List FVal := l.map fun n => f.decode (f.source m n)

def fadd (f : FFormat) (m : FMode) (a b : Nat) : Nat × BitVec 6 :=
  let x := f.decode (f.source m a)
  let y := f.decode (f.source m b)
  (nanResult f f m [x, y]).getD (f.sum m x y)

def fsub (f : FFormat) (m : FMode) (a b : Nat) : Nat × BitVec 6 :=
  let x := f.decode (f.source m a)
  let y := f.decode (f.source m b)
  (nanResult f f m [x, y]).getD (f.sum m x y.negate)

def fmul (f : FFormat) (m : FMode) (a b : Nat) : Nat × BitVec 6 :=
  let x := f.decode (f.source m a)
  let y := f.decode (f.source m b)
  (nanResult f f m [x, y]).getD
    (match x.product y with
      | none => f.invalid m
      | some v => f.roundVal m v)

/-- A × B + D with one rounding, or A × B - D when `sub`. 0 × Inf sets NV even when D is a quiet NaN. -/
def fma (sub : Bool) (f : FFormat) (m : FMode) (a b d : Nat) : Nat × BitVec 6 :=
  let x := f.decode (f.source m a)
  let y := f.decode (f.source m b)
  let z := f.decode (f.source m d)
  match nanResult f f m [x, y, z] with
  | some r => if !x.isNan && !y.isNan && (x.product y).isNone then (r.1, r.2 ||| flagNv) else r
  | none =>
    match x.product y with
    | none => f.invalid m
    | some v => f.sum m v (if sub then z.negate else z)

/-- The quotient of two non-zero finite magnitudes. -/
def quotient (neg : Bool) (ma : Nat) (ea : Int) (mb : Nat) (eb : Int) : Exact :=
  let n := ma * 2 ^ 64
  ⟨neg, n / mb, ea - eb - 64, n % mb != 0⟩

/-- A quotient; a zero one has the product of the signs, of which R127 says nothing. PRESUMED (log 114, unsafe). -/
def divide (f : FFormat) (m : FMode) (x y : FVal) : Nat × BitVec 6 :=
  match x, y with
  | .inf _, .inf _ => f.invalid m
  | .inf a, .fin b _ _ => (f.inf (a != b), 0)
  | .fin a _ _, .inf b => (f.signBit (a != b), 0)
  | .fin a ma ea, .fin b mb eb =>
    if mb = 0 then (if ma = 0 then f.invalid m else (f.inf (a != b), flagDz))
    else if ma = 0 then (f.signBit (a != b), 0)
    else f.round m (quotient (a != b) ma ea mb eb)
  | _, _ => f.invalid m

def fdiv (f : FFormat) (m : FMode) (a b : Nat) : Nat × BitVec 6 :=
  let x := f.decode (f.source m a)
  let y := f.decode (f.source m b)
  (nanResult f f m [x, y]).getD (divide f m x y)

/-- 1 ÷ A. -/
def frcp (f : FFormat) (m : FMode) (a : Nat) : Nat × BitVec 6 :=
  let x := f.decode (f.source m a)
  (nanResult f f m [x]).getD (divide f m (.fin false 1 0) x)

/-- The integer square root, built from bit k - 1 down. -/
def rootFrom (n : Nat) : Nat → Nat → Nat
  | 0, r => r
  | k + 1, r => rootFrom n k (if (r + 2 ^ k) * (r + 2 ^ k) ≤ n then r + 2 ^ k else r)

/-- The integer square root of a number below 2^192. -/
def isqrt (n : Nat) : Nat := rootFrom n 96 0

/-- A magnitude with an even exponent. -/
def evenExp (m : Nat) (e : Int) : Nat × Int := if e % 2 = 0 then (m, e) else (2 * m, e - 1)

def fsqrt (f : FFormat) (m : FMode) (a : Nat) : Nat × BitVec 6 :=
  let x := f.decode (f.source m a)
  (nanResult f f m [x]).getD
    (match x with
      | .inf neg => if neg then f.invalid m else (f.inf false, 0)
      | .fin neg n e =>
        if n = 0 then (f.signBit neg, 0)
        else if neg then f.invalid m
        else
          let v := evenExp n e
          let big := v.1 * 2 ^ 64
          let r := isqrt big
          f.round m ⟨false, r, v.2 / 2 - 32, r * r != big⟩
      | .nan _ _ _ => f.invalid m)

/-- 1 ÷ √A. -/
def frsq (f : FFormat) (m : FMode) (a : Nat) : Nat × BitVec 6 :=
  let x := f.decode (f.source m a)
  (nanResult f f m [x]).getD
    (match x with
      | .inf neg => if neg then f.invalid m else (0, 0)
      | .fin neg n e =>
        if n = 0 then (f.inf neg, flagDz)
        else if neg then f.invalid m
        else
          let v := evenExp n e
          let r := isqrt (2 ^ 128 / v.1)
          f.round m ⟨false, r, -(v.2 / 2) - 64, r * r * v.1 != 2 ^ 128⟩
      | .nan _ _ _ => f.invalid m)

/-! ## Comparison (06 R128, R130) -/

/-- x < y for values that are not NaN, with -0 = +0. -/
def FVal.lt (x y : FVal) : Bool :=
  match x, y with
  | .inf a, .inf b => a && !b
  | .inf a, _ => a
  | _, .inf b => !b
  | .fin a ma ea, .fin b mb eb =>
    let low := min ea eb
    decide (alignTo a ma ea low < alignTo b mb eb low)
  | _, _ => false

def FVal.eq (x y : FVal) : Bool := !x.isNan && !y.isNan && !x.lt y && !y.lt x

/-- The sign of a value. -/
def FVal.neg (x : FVal) : Bool :=
  match x with
  | .inf a | .fin a _ _ => a
  | .nan a _ _ => a

/-- FMIN, or FMAX when `greatest` (06 R128). -/
def fminmax (greatest : Bool) (f : FFormat) (m : FMode) (a b : Nat) : Nat × BitVec 6 :=
  let pa := f.source m a
  let pb := f.source m b
  let x := f.decode pa
  let y := f.decode pb
  let nv : BitVec 6 := if x.isSignalling || y.isSignalling then flagNv else 0
  if m.leg then
    match nanResult f f m [x, y] with
    | some r => r
    | none => (if (if greatest then x.lt y else y.lt x) then pb else pa, 0)
  else if x.isNan && y.isNan then (f.defaultNan, nv)
  else if x.isNan then (pb, nv)
  else if y.isNan then (pa, nv)
  else
    let less := x.lt y || (x.eq y && x.neg && !y.neg)
    (if less == greatest then pb else pa, 0)

/-- A floating compare: 0 =, 1 <, 2 ≤, 3 unordered (06 R130). -/
def fcompare (kind : Nat) (f : FFormat) (m : FMode) (a b : Nat) : Bool × BitVec 6 :=
  let x := f.decode (f.source m a)
  let y := f.decode (f.source m b)
  let un := x.isNan || y.isNan
  let sn := x.isSignalling || y.isSignalling
  let nv : BitVec 6 := if (if kind = 1 ∨ kind = 2 then un else sn) then flagNv else 0
  (match kind with
    | 0 => x.eq y
    | 1 => !un && x.lt y
    | 2 => !un && !y.lt x
    | _ => un, nv)

/-! ## Classes and conversions (06 R131 to R134) -/

/-- FCLASS. -/
def fclass (f : FFormat) (a : Nat) : Nat :=
  let n := a % 2 ^ f.width
  match f.decode n with
  | .inf neg => if neg then 2 ^ 0 else 2 ^ 7
  | .nan _ _ q => if q then 2 ^ 9 else 2 ^ 8
  | .fin neg m _ =>
    if m = 0 then (if neg then 2 ^ 3 else 2 ^ 4)
    else if f.subnormal n then (if neg then 2 ^ 2 else 2 ^ 5)
    else (if neg then 2 ^ 1 else 2 ^ 6)

/-- Convert to an integer of width w: its low w bits, and flags (06 R132). -/
def toInteger (f : FFormat) (m : FMode) (w : Nat) (signed : Bool) (a : Nat) : Nat × BitVec 6 :=
  let hi : Int := if signed then 2 ^ (w - 1) - 1 else 2 ^ w - 1
  let lo : Int := if signed then -(2 ^ (w - 1) : Int) else 0
  let edge := fun (neg : Bool) => wrap (if neg then lo else hi) w
  match f.decode (f.source m a) with
  | .nan _ _ _ => (0, flagNv)
  | .inf neg => (edge neg, flagNv)
  | .fin neg n e =>
    let r := (Exact.mk neg n e false).roundAt 0 m.rnd
    let v : Int := if neg then -(r.1 : Int) else r.1
    if v < lo ∨ hi < v then (edge neg, flagNv) else (wrap v w, if r.2 then 0 else flagNx)

/-- Round an integer (06 R133); zero gives +0. -/
def FFormat.ofInt (f : FFormat) (m : FMode) (v : Int) : Nat × BitVec 6 := f.roundDyadic m v 0 false

/-- Convert between formats (06 R134). -/
def fconvert (src dst : FFormat) (m : FMode) (a : Nat) : Nat × BitVec 6 :=
  let x := src.decode (src.source m a)
  (nanResult src dst m [x]).getD (dst.roundVal m x)

/-! ## Block scales (06 R140) -/

/-- A positive finite value divided by n, rounded toward +∞ to bf16, with the flags of that rounding. -/
def scaleOf (v : FVal) (n : Nat) : Nat × BitVec 6 :=
  match v with
  | .fin _ m e => if m = 0 then (0, 0) else FFormat.bf16.round ⟨2, 0, false⟩ (quotient false m e n 0)
  | _ => (0, 0)

/-- The nearest integer to x / s, ties to even, for finite x and positive finite s. -/
def nearestRatio (x s : FVal) : Int :=
  match x, s with
  | .fin neg mx ex, .fin _ ms es =>
    let up := ex - es
    let num := if 0 ≤ up then mx * 2 ^ up.toNat else mx
    let den := if 0 ≤ up then ms else ms * 2 ^ (-up).toNat
    let q := num / den
    let r := num % den
    let n := if den < 2 * r ∨ (den = 2 * r ∧ q % 2 = 1) then q + 1 else q
    if neg then -(n : Int) else n
  | _, _ => 0

/-- The scale, the codes and the flags of a block of elements with n-bit codes. -/
def quantBlock (xs : List FVal) (n : Nat) : Nat × List Int × BitVec 6 :=
  let top : Int := 2 ^ (n - 1) - 1
  let low : Int := -(2 ^ (n - 1) : Int)
  let finite := xs.filter fun x => match x with | .fin _ _ _ => true | _ => false
  let extreme := fun (x : FVal) => if x.neg then low else top
  if xs.any FVal.isNan then (0x7FC0, xs.map fun _ => 0, flagNv)
  else if finite.isEmpty then (0x7F80, xs.map extreme, flagOf)
  else
    let best := fun (neg : Bool) => finite.foldl (fun (acc : FVal) x =>
      if x.neg == neg && (if neg then x.lt acc else acc.lt x) then x else acc) (.fin neg 0 0)
    let sp := scaleOf (best false) top.toNat
    let sn := scaleOf (best true) (2 ^ (n - 1))
    let up := max sp.1 sn.1
    let s := if up = 0x7F80 then 0x7F7F else up
    let of : BitVec 6 := if up = 0x7F80 || xs.any (fun x => match x with | .inf _ => true | _ => false) then flagOf else 0
    let sv := FFormat.bf16.decode s
    let code := fun (x : FVal) =>
      match x with
      | .fin _ _ _ => if s = 0 then 0 else max low (min top (nearestRatio x sv))
      | _ => extreme x
    (s, xs.map code, of)

/-- An exact multiplier times a bf16 scale, rounded (06 R142). A zero result has the product of the signs.
DESIGN CHOICE (log 113, unsafe). -/
def scaled (f : FFormat) (m : FMode) (v : Int) (scale : Nat) : Nat × BitVec 6 :=
  let s := FFormat.bf16.decode (FFormat.bf16.source m scale)
  (nanResult .bf16 f m [s]).getD
    (match (FVal.fin (decide (v < 0)) v.natAbs 0).product s with
      | none => f.invalid m
      | some x => f.roundVal m x)

end Sys2Proof.Machine
end

