-- ==== Sys2Proof/Config.lean ====
section
/-! DEFINITION. The free values of the model: what the spec leaves open, as constants without a body, so that nothing
can be proved of their values. A first argument `n` is a value of State.draw (log 3): two draws are unrelated. -/

namespace Sys2Proof.Config

/-- Which of several enabled moves comes next, or which of several allowed outcomes occurs (01 R9, 10 R215): draw,
number of candidates; the model takes it modulo that number. -/
opaque pick : Nat → Nat → Nat

/-- ns that pass in a step (01 R14). -/
opaque elapsed : Nat → Nat

/-- Whether an allowed but not required thing happens: a spurious CAS failure (09 R186), a stale translation or fetch
(07 R153, R154), a quantum-stale atomic (09 R182). -/
opaque chance : Nat → Bool

/-- A 32-bit value that the spec leaves open. -/
opaque word : Nat → Word

/-- An address that the Hearth service or the Ringmaster chooses (14 R273, 22 R397, R398). -/
opaque place : Nat → Nat

/-- The virtual address at which the Hearth's supervisor mapping shows a core's emergency area (14 R276). -/
opaque emergVa : Nat → Nat

/-- SHA-384 (22 R403). The spec names the function and does not define it. -/
opaque sha384 : List Byte → BitVec 384

/-- Whether an ECDSA P-384 signature holds: signed bytes, signature, key (22 R403). -/
opaque ecdsaHolds : List Byte → List Byte → List Byte → Bool

/-- Whether an LMS signature holds: signed bytes, signature, key (22 R403). -/
opaque lmsHolds : List Byte → List Byte → List Byte → Bool

/-- Whether both signatures of the vendor on the bytes of a certificate hold; where they stand in it is open (22 R407).
DESIGN CHOICE (log 86, safe). -/
opaque certificateHolds : List Byte → Bool

/-- The bytes of the boot ROM, and the vendor's public keys in it: 0 ECDSA, 1 LMS (22 R403). -/
opaque bootRom : List Byte
opaque romKey : Nat → List Byte

/-- The items of a configuration image (22 Table 22.6, whose layout the spec does not give): number items by index (0
package number, 1 Turnstile period, 2 heat-token refill, 3 lease maximum, 4 time port, 5 version), routes (destination
package, channel, port, alternate) and credits (port, channel, credits). -/
opaque imageNumber : List Byte → Nat → Nat
opaque imageRoutes : List Byte → List (Nat × Nat × Nat × Option Nat)
opaque imageCredits : List Byte → List (Nat × Nat × Nat)

/-- Whether a channel's routes form a cycle, with alternates in place of some subset of ports (22 R406); it depends on
the routes of other packages. -/
opaque routesCyclic : List (Nat × Nat × Nat × Option Nat) → Bool

/-- The ECDSA P-384 signature that the device identity makes (22 R407); the first argument is a draw. -/
opaque ecdsaSign : Nat → List Byte → List Byte

/-- The LMS signature that the device identity makes with a leaf index (22 R407). -/
opaque lmsSign : Nat → List Byte → List Byte

/-- A device key derived from the physical unclonable function: 0 the ECDSA public key, 1 the LMS public key
(22 R407). -/
opaque deviceKey : Nat → List Byte

/-- What the translator makes of a UDX module: native code, or none when it refuses (21 R392). -/
opaque udxCode : List Byte → Option (List Byte)

/-- A field that the translator fills in a launch record of a module: module, index of the LAUNCH section, number of the
record, and field 0 ENTRY as an offset in the code, 1 TREGS, 2 GREGS, 3 MREGS, 4 TMEM, 5 RDEPTH (21 R392). -/
opaque udxField : List Byte → Nat → Nat → Nat → Nat

end Sys2Proof.Config
end

