-- ==== Sys2Proof/Syntax.lean ====
section
/-! DEFINITION. The instructions and events of the TS-L4812 as terms: one constructor for every row of
spec/opcode_table.json. The first 211 are instruction words (03 R39, R55, R57); operands are the raw fields of
the word, as the formats of Table 3.1 place them. The other 65 are the steps of the device's other agents (rows
without a word): engines, the Ringmaster, the Hearth, the outside. Their arguments say which object the step is
about; the row of a message from outside takes it from the head of State.inputs. Constructors without arguments stand
last. -/

namespace Sys2Proof

/-- The instructions and events of the device, one constructor for each row of spec/opcode_table.json. -/
inductive Instr where
  /-- MODE (R47). -/
  | mode (d : BitVec 8) (i : BitVec 16)
  /-- RANK (R84). -/
  | rank (d : BitVec 8) (a : BitVec 8)
  /-- MERGE (R75). -/
  | merge (d : BitVec 8) (i : BitVec 15)
  /-- BR (R87). -/
  | br (i : BitVec 16)
  /-- BZ (R87). -/
  | bz (c : BitVec 8) (i : BitVec 16)
  /-- BNZ (R87). -/
  | bnz (c : BitVec 8) (i : BitVec 16)
  /-- BRD (R91). -/
  | brd (c : BitVec 4) (i : BitVec 16)
  /-- CALL (R88). -/
  | call (c : BitVec 8) (i : BitVec 16)
  /-- RET (R89). -/
  | ret (a : BitVec 8)
  /-- PSET (R86). -/
  | pset (d : BitVec 3) (a : BitVec 8)
  /-- PAND (R86). -/
  | pand (d : BitVec 3) (a : BitVec 4) (b : BitVec 4)
  /-- POR (R86). -/
  | por (d : BitVec 3) (a : BitVec 4) (b : BitVec 4)
  /-- SETIX (R49). -/
  | setix (d : BitVec 2) (a : BitVec 8)
  /-- ADD (R99). -/
  | add (d : BitVec 8) (a : BitVec 8) (b : BitVec 8)
  /-- SUB (R99). -/
  | sub (d : BitVec 8) (a : BitVec 8) (b : BitVec 8)
  /-- MUL (R99). -/
  | mul (d : BitVec 8) (a : BitVec 8) (b : BitVec 8)
  /-- MULH (R99). -/
  | mulh (d : BitVec 8) (a : BitVec 8) (b : BitVec 8)
  /-- DIV (R100). -/
  | div (d : BitVec 8) (a : BitVec 8) (b : BitVec 8)
  /-- REM (R100). -/
  | rem (d : BitVec 8) (a : BitVec 8) (b : BitVec 8)
  /-- MIN (R99). -/
  | min (d : BitVec 8) (a : BitVec 8) (b : BitVec 8)
  /-- MAX (R99). -/
  | max (d : BitVec 8) (a : BitVec 8) (b : BitVec 8)
  /-- ABS (R99). -/
  | abs (d : BitVec 8) (a : BitVec 8)
  /-- NEG (R99). -/
  | neg (d : BitVec 8) (a : BitVec 8)
  /-- AND (R99). -/
  | and (d : BitVec 8) (a : BitVec 8) (b : BitVec 8)
  /-- OR (R99). -/
  | or (d : BitVec 8) (a : BitVec 8) (b : BitVec 8)
  /-- XOR (R99). -/
  | xor (d : BitVec 8) (a : BitVec 8) (b : BitVec 8)
  /-- NOT (R99). -/
  | not (d : BitVec 8) (a : BitVec 8)
  /-- SHL (R101). -/
  | shl (d : BitVec 8) (a : BitVec 8) (b : BitVec 8)
  /-- SHR (R101). -/
  | shr (d : BitVec 8) (a : BitVec 8) (b : BitVec 8)
  /-- SAR (R101). -/
  | sar (d : BitVec 8) (a : BitVec 8) (b : BitVec 8)
  /-- ROT (R101). -/
  | rot (d : BitVec 8) (a : BitVec 8) (b : BitVec 8)
  /-- POPC (R99). -/
  | popc (d : BitVec 8) (a : BitVec 8)
  /-- CLZ (R99). -/
  | clz (d : BitVec 8) (a : BitVec 8)
  /-- BFX (R102). -/
  | bfx (d : BitVec 8) (a : BitVec 8) (b : BitVec 8)
  /-- BFI (R102). -/
  | bfi (d : BitVec 8) (a : BitVec 8) (b : BitVec 8)
  /-- CMPEQ (R103). -/
  | cmpeq (d : BitVec 3) (a : BitVec 8) (b : BitVec 8)
  /-- CMPNE (R103). -/
  | cmpne (d : BitVec 3) (a : BitVec 8) (b : BitVec 8)
  /-- CMPLT (R103). -/
  | cmplt (d : BitVec 3) (a : BitVec 8) (b : BitVec 8)
  /-- CMPLE (R103). -/
  | cmple (d : BitVec 3) (a : BitVec 8) (b : BitVec 8)
  /-- SEL (R104). -/
  | sel (d : BitVec 8) (a : BitVec 8) (b : BitVec 8)
  /-- LI (R105). -/
  | li (d : BitVec 8) (i : BitVec 16)
  /-- LIH (R105). -/
  | lih (d : BitVec 8) (i : BitVec 16)
  /-- MOV (R106). -/
  | mov (d : BitVec 8) (a : BitVec 8)
  /-- ADDA (R107). -/
  | adda (d : BitVec 8) (a : BitVec 8) (b : BitVec 8)
  /-- SUBA (R107). -/
  | suba (d : BitVec 8) (a : BitVec 8) (b : BitVec 8)
  /-- SHFL (R109). -/
  | shfl (d : BitVec 8) (a : BitVec 8) (b : BitVec 8)
  /-- SHFL_UP (R109). -/
  | shflUp (d : BitVec 8) (a : BitVec 8) (b : BitVec 8)
  /-- SHFL_DN (R109). -/
  | shflDn (d : BitVec 8) (a : BitVec 8) (b : BitVec 8)
  /-- SHFL_XOR (R109). -/
  | shflXor (d : BitVec 8) (a : BitVec 8) (b : BitVec 8)
  /-- BCAST (R110). -/
  | bcast (d : BitVec 8) (a : BitVec 8) (b : BitVec 8)
  /-- VOTE_ANY (R111). -/
  | voteAny (d : BitVec 8) (a : BitVec 8)
  /-- VOTE_ALL (R111). -/
  | voteAll (d : BitVec 8) (a : BitVec 8)
  /-- VOTE_BAL (R111). -/
  | voteBal (d : BitVec 8) (a : BitVec 8)
  /-- SCAN_ADD (R113). -/
  | scanAdd (d : BitVec 8) (a : BitVec 8) (b : BitVec 8)
  /-- SCAN_MAX (R113). -/
  | scanMax (d : BitVec 8) (a : BitVec 8) (b : BitVec 8)
  /-- REDUCE_ADD (R112). -/
  | reduceAdd (d : BitVec 8) (a : BitVec 8)
  /-- REDUCE_MIN (R112). -/
  | reduceMin (d : BitVec 8) (a : BitVec 8)
  /-- REDUCE_MAX (R112). -/
  | reduceMax (d : BitVec 8) (a : BitVec 8)
  /-- FADD (R126). -/
  | fadd (d : BitVec 8) (a : BitVec 8) (b : BitVec 8)
  /-- FSUB (R126). -/
  | fsub (d : BitVec 8) (a : BitVec 8) (b : BitVec 8)
  /-- FMUL (R126). -/
  | fmul (d : BitVec 8) (a : BitVec 8) (b : BitVec 8)
  /-- FMA (R126). -/
  | fma (d : BitVec 8) (a : BitVec 8) (b : BitVec 8)
  /-- FMS (R126). -/
  | fms (d : BitVec 8) (a : BitVec 8) (b : BitVec 8)
  /-- FDIV (R126). -/
  | fdiv (d : BitVec 8) (a : BitVec 8) (b : BitVec 8)
  /-- FSQRT (R126). -/
  | fsqrt (d : BitVec 8) (a : BitVec 8)
  /-- FRCP (R126). -/
  | frcp (d : BitVec 8) (a : BitVec 8)
  /-- FRSQ (R126). -/
  | frsq (d : BitVec 8) (a : BitVec 8)
  /-- FMIN (R128). -/
  | fmin (d : BitVec 8) (a : BitVec 8) (b : BitVec 8)
  /-- FMAX (R128). -/
  | fmax (d : BitVec 8) (a : BitVec 8) (b : BitVec 8)
  /-- FABS (R129). -/
  | fabs (d : BitVec 8) (a : BitVec 8)
  /-- FNEG (R129). -/
  | fneg (d : BitVec 8) (a : BitVec 8)
  /-- FCMPEQ (R130). -/
  | fcmpeq (d : BitVec 3) (a : BitVec 8) (b : BitVec 8)
  /-- FCMPLT (R130). -/
  | fcmplt (d : BitVec 3) (a : BitVec 8) (b : BitVec 8)
  /-- FCMPLE (R130). -/
  | fcmple (d : BitVec 3) (a : BitVec 8) (b : BitVec 8)
  /-- FCMPUN (R130). -/
  | fcmpun (d : BitVec 3) (a : BitVec 8) (b : BitVec 8)
  /-- CVTFI (R132). -/
  | cvtfi (d : BitVec 8) (a : BitVec 8)
  /-- CVTIF (R133). -/
  | cvtif (d : BitVec 8) (a : BitVec 8)
  /-- FWIDEN (R134). -/
  | fwiden (d : BitVec 8) (a : BitVec 8)
  /-- FNARROW (R134). -/
  | fnarrow (d : BitVec 8) (a : BitVec 8)
  /-- FCLASS (R131). -/
  | fclass (d : BitVec 8) (a : BitVec 8)
  /-- QUANT (R141). -/
  | quant (d : BitVec 8) (a : BitVec 8) (b : BitVec 8)
  /-- DEQ (R142). -/
  | deq (d : BitVec 8) (a : BitVec 8) (b : BitVec 8)
  /-- FFLAGS (R124). -/
  | fflags (d : BitVec 8) (a : BitVec 8)
  /-- DADD (R58). -/
  | dadd (d : BitVec 8) (a : BitVec 8) (b : BitVec 8)
  /-- DSUB (R58). -/
  | dsub (d : BitVec 8) (a : BitVec 8) (b : BitVec 8)
  /-- DMUL (R58). -/
  | dmul (d : BitVec 8) (a : BitVec 8) (b : BitVec 8)
  /-- DFMA (R58). -/
  | dfma (d : BitVec 8) (a : BitVec 8) (b : BitVec 8)
  /-- DDIV (R58). -/
  | ddiv (d : BitVec 8) (a : BitVec 8) (b : BitVec 8)
  /-- DCVT (R58). -/
  | dcvt (d : BitVec 8) (a : BitVec 8) (b : BitVec 8)
  /-- LD_ITYPE (R165). -/
  | ldItype (d : BitVec 8) (x : BitVec 3) (o : BitVec 8)
  /-- LD_FTYPE (R165). -/
  | ldFtype (d : BitVec 8) (x : BitVec 3) (o : BitVec 8)
  /-- ST_ITYPE (R178). -/
  | stItype (d : BitVec 8) (x : BitVec 3) (o : BitVec 8)
  /-- ST_FTYPE (R178). -/
  | stFtype (d : BitVec 8) (x : BitVec 3) (o : BitVec 8)
  /-- LDS_ITYPE (R165). -/
  | ldsItype (d : BitVec 8) (x : BitVec 8) (o : BitVec 8)
  /-- LDS_FTYPE (R165). -/
  | ldsFtype (d : BitVec 8) (x : BitVec 8) (o : BitVec 8)
  /-- STS_ITYPE (R165). -/
  | stsItype (d : BitVec 8) (x : BitVec 8) (o : BitVec 8)
  /-- STS_FTYPE (R165). -/
  | stsFtype (d : BitVec 8) (x : BitVec 8) (o : BitVec 8)
  /-- LDT (R167). -/
  | ldt (d : BitVec 8) (x : BitVec 3) (o : BitVec 8)
  /-- LDT_TR8 (R167). -/
  | ldtTr8 (d : BitVec 8) (x : BitVec 3) (o : BitVec 8)
  /-- LDT_TR16 (R167). -/
  | ldtTr16 (d : BitVec 8) (x : BitVec 3) (o : BitVec 8)
  /-- STT (R167). -/
  | stt (d : BitVec 8) (x : BitVec 3) (o : BitVec 8)
  /-- XLT (R156). -/
  | xlt (d : BitVec 3) (a : BitVec 8)
  /-- XLINV (R157). -/
  | xlinv (d : BitVec 3)
  /-- PREF (R170). -/
  | pref (x : BitVec 3) (o : BitVec 8)
  /-- WAITMEM (R171). -/
  | waitmem (d : BitVec 8) (x : BitVec 3) (o : BitVec 8)
  /-- DISCARD (R173). -/
  | discard (x : BitVec 3) (o : BitVec 8)
  /-- CLEAN (R170). -/
  | clean (x : BitVec 3) (o : BitVec 8)
  /-- INVL1 (R170). -/
  | invl1 (x : BitVec 3) (o : BitVec 8)
  /-- ATOM_ADD (R182). -/
  | atomAdd (d : BitVec 8) (x : BitVec 3) (o : BitVec 8)
  /-- ATOM_MIN (R182). -/
  | atomMin (d : BitVec 8) (x : BitVec 3) (o : BitVec 8)
  /-- ATOM_MAX (R182). -/
  | atomMax (d : BitVec 8) (x : BitVec 3) (o : BitVec 8)
  /-- ATOM_AND (R182). -/
  | atomAnd (d : BitVec 8) (x : BitVec 3) (o : BitVec 8)
  /-- ATOM_OR (R182). -/
  | atomOr (d : BitVec 8) (x : BitVec 3) (o : BitVec 8)
  /-- ATOM_XOR (R182). -/
  | atomXor (d : BitVec 8) (x : BitVec 3) (o : BitVec 8)
  /-- ATOM_EXCH (R182). -/
  | atomExch (d : BitVec 8) (x : BitVec 3) (o : BitVec 8)
  /-- ATOM_CAS (R181). -/
  | atomCas (d : BitVec 8) (x : BitVec 3) (o : BitVec 8)
  /-- ATOM_FADD (R183). -/
  | atomFadd (d : BitVec 8) (x : BitVec 3) (o : BitVec 8)
  /-- RED_ADD (R187). -/
  | redAdd (d : BitVec 8) (x : BitVec 3) (o : BitVec 8)
  /-- RED_MIN (R187). -/
  | redMin (d : BitVec 8) (x : BitVec 3) (o : BitVec 8)
  /-- RED_MAX (R187). -/
  | redMax (d : BitVec 8) (x : BitVec 3) (o : BitVec 8)
  /-- RED_FADD (R187). -/
  | redFadd (d : BitVec 8) (x : BitVec 3) (o : BitVec 8)
  /-- BAR_INIT (R203). -/
  | barInit (a : BitVec 8) (b : BitVec 8)
  /-- BAR_ARRIVE (R204). -/
  | barArrive (d : BitVec 8) (a : BitVec 8)
  /-- BAR_WAIT (R204). -/
  | barWait (d : BitVec 8) (a : BitVec 8) (b : BitVec 8)
  /-- BAR_INVAL (R207). -/
  | barInval (a : BitVec 8)
  /-- BAR_EXPECT (R205). -/
  | barExpect (a : BitVec 8) (b : BitVec 8)
  /-- CLOSE (R196). -/
  | close (d : BitVec 8)
  /-- WAITB (R197). -/
  | waitb (d : BitVec 8) (a : BitVec 8) (b : BitVec 8)
  /-- FENCE (R198). -/
  | fence (d : BitVec 8) (a : BitVec 8) (b : BitVec 8)
  /-- ACQ_REM (R200). -/
  | acqRem (d : BitVec 8) (a : BitVec 8) (b : BitVec 8)
  /-- QSEND (R209). -/
  | qsend (d : BitVec 8) (a : BitVec 8) (b : BitVec 8)
  /-- QRECV (R210). -/
  | qrecv (d : BitVec 8) (a : BitVec 8) (b : BitVec 8)
  /-- QCREDIT (R211). -/
  | qcredit (d : BitVec 8) (a : BitVec 8) (b : BitVec 8)
  /-- WAITF (R204). -/
  | waitf (d : BitVec 8) (a : BitVec 8) (b : BitVec 8)
  /-- SPAWN (R372). -/
  | spawn (d : BitVec 8) (a : BitVec 8) (b : BitVec 8)
  /-- FORK (R376). -/
  | fork (d : BitVec 8) (a : BitVec 8) (b : BitVec 8)
  /-- JOIN (R377). -/
  | join (d : BitVec 8) (b : BitVec 8)
  /-- TCB_NEW (R375). -/
  | tcbNew (d : BitVec 8) (a : BitVec 8) (b : BitVec 8)
  /-- TCB_SUCC (R375). -/
  | tcbSucc (d : BitVec 8) (a : BitVec 8) (b : BitVec 8)
  /-- TCB_SUBMIT (R375). -/
  | tcbSubmit (d : BitVec 8) (a : BitVec 8)
  /-- TCB_DONE (R375). -/
  | tcbDone (d : BitVec 8) (a : BitVec 8)
  /-- BINTIME (R373). -/
  | bintime (d : BitVec 8) (a : BitVec 8) (b : BitVec 8)
  /-- YIELD (R378). -/
  | yield (d : BitVec 8)
  /-- EXIT (R284). -/
  | exit (a : BitVec 8)
  /-- TRAP (R285). -/
  | trap (a : BitVec 8)
  /-- TRET (R286). -/
  | tret (a : BitVec 8)
  /-- PIDX (R287). -/
  | pidx (d : BitVec 8) (a : BitVec 8)
  /-- MODE_RD (R289). -/
  | modeRd (d : BitVec 8)
  /-- MODE_WR (R289). -/
  | modeWr (a : BitVec 8)
  /-- WINRD (R288). -/
  | winrd (d : BitVec 8) (a : BitVec 8) (b : BitVec 8)
  /-- WINWR (R288). -/
  | winwr (d : BitVec 8) (a : BitVec 8) (b : BitVec 8)
  /-- SREG_RD (R290). -/
  | sregRd (d : BitVec 8) (a : BitVec 8)
  /-- SREG_WR (R290). -/
  | sregWr (a : BitVec 8) (b : BitVec 8)
  /-- SHOOT (R291). -/
  | shoot (d : BitVec 8) (a : BitVec 8) (b : BitVec 8)
  /-- SNET (R292). -/
  | snet (a : BitVec 8) (b : BitVec 8)
  /-- CLOCK (R293). -/
  | clock (d : BitVec 8) (a : BitVec 8)
  /-- HALT (R294). -/
  | halt (a : BitVec 8)
  /-- COPY_VV (R240). -/
  | copyVv (a : BitVec 8) (b : BitVec 8) (r : BitVec 7)
  /-- COPY_VT (R240). -/
  | copyVt (a : BitVec 8) (b : BitVec 8) (r : BitVec 7)
  /-- COPY_TV (R240). -/
  | copyTv (a : BitVec 8) (b : BitVec 8) (r : BitVec 7)
  /-- COPY_TT (R240). -/
  | copyTt (a : BitVec 8) (b : BitVec 8) (r : BitVec 7)
  /-- COPY_MC (R243). -/
  | copyMc (a : BitVec 8) (b : BitVec 8) (r : BitVec 7)
  /-- COPY_2D (R241). -/
  | copy2d (a : BitVec 8) (b : BitVec 8) (r : BitVec 7)
  /-- COPY_GATH (R242). -/
  | copyGath (a : BitVec 8) (b : BitVec 8) (r : BitVec 7)
  /-- COPY_FILL (R240). -/
  | copyFill (a : BitVec 8) (b : BitVec 8) (r : BitVec 7)
  /-- COPY_OV (R244). -/
  | copyOv (a : BitVec 8) (b : BitVec 8) (r : BitVec 7)
  /-- XF_TR (R245). -/
  | xfTr (a : BitVec 8) (b : BitVec 8) (r : BitVec 7)
  /-- XF_PLANE (R246). -/
  | xfPlane (a : BitVec 8) (b : BitVec 8) (r : BitVec 7)
  /-- XF_DEQ (R247). -/
  | xfDeq (a : BitVec 8) (b : BitVec 8) (r : BitVec 7)
  /-- DCMP (R259). -/
  | dcmp (a : BitVec 8) (b : BitVec 8) (r : BitVec 7)
  /-- COPY_STAT (R252). -/
  | copyStat (a : BitVec 8) (r : BitVec 7)
  /-- OV_FMT (R305). -/
  | ovFmt (a : BitVec 8) (r : BitVec 7)
  /-- OV_A (R314). -/
  | ovA (a : BitVec 8) (r : BitVec 7)
  /-- OV_B (R314). -/
  | ovB (a : BitVec 8) (r : BitVec 7)
  /-- OV_IDX (R306). -/
  | ovIdx (a : BitVec 8) (r : BitVec 7)
  /-- OV_TILE (R315). -/
  | ovTile (a : BitVec 8) (b : BitVec 8) (r : BitVec 7)
  /-- OV_CHAIN (R315). -/
  | ovChain (a : BitVec 8) (b : BitVec 8) (r : BitVec 7)
  /-- OV_STAT (R318). -/
  | ovStat (a : BitVec 8) (r : BitVec 7)
  /-- OV_TOKEN (R319). -/
  | ovToken (a : BitVec 8) (r : BitVec 7)
  /-- ACC_ALLOC (R320). -/
  | accAlloc (a : BitVec 8) (b : BitVec 8) (r : BitVec 7)
  /-- ACC_FREE (R320). -/
  | accFree (a : BitVec 8) (r : BitVec 7)
  /-- ACC_ZERO (R317). -/
  | accZero (a : BitVec 8) (r : BitVec 7)
  /-- ACC_RD (R317). -/
  | accRd (a : BitVec 8) (r : BitVec 7)
  /-- ACC_WR (R317). -/
  | accWr (a : BitVec 8) (b : BitVec 8) (r : BitVec 7)
  /-- ACC_ST (R317). -/
  | accSt (a : BitVec 8) (b : BitVec 8) (r : BitVec 7)
  /-- ACC_DRAIN (R321). -/
  | accDrain (a : BitVec 8) (b : BitVec 8) (r : BitVec 7)
  /-- ACC_MAP (R320). -/
  | accMap (a : BitVec 8) (r : BitVec 7)
  /-- TM_ADD (R331). -/
  | tmAdd (a : BitVec 8) (b : BitVec 8) (r : BitVec 7)
  /-- TM_MIN (R331). -/
  | tmMin (a : BitVec 8) (b : BitVec 8) (r : BitVec 7)
  /-- TM_MAX (R331). -/
  | tmMax (a : BitVec 8) (b : BitVec 8) (r : BitVec 7)
  /-- TM_CAS (R334). -/
  | tmCas (a : BitVec 8) (b : BitVec 8) (r : BitVec 7)
  /-- TM_SACC (R331). -/
  | tmSacc (a : BitVec 8) (b : BitVec 8) (r : BitVec 7)
  /-- CAR_ACQ (R342). -/
  | carAcq (a : BitVec 8) (b : BitVec 8) (r : BitVec 7)
  /-- CAR_REL (R344). -/
  | carRel (r : BitVec 7)
  /-- CAR_CLR (R350). -/
  | carClr (a : BitVec 8) (r : BitVec 7)
  /-- CAR_CELL (R347). -/
  | carCell (a : BitVec 8) (r : BitVec 7)
  /-- CAR_COL (R348). -/
  | carCol (a : BitVec 8) (b : BitVec 8) (r : BitVec 7)
  /-- CAR_DECIDE (R352). -/
  | carDecide (a : BitVec 8) (r : BitVec 7)
  /-- CAR_PROP (R353). -/
  | carProp (a : BitVec 8) (b : BitVec 8) (r : BitVec 7)
  /-- CAR_BACK (R354). -/
  | carBack (a : BitVec 8) (r : BitVec 7)
  /-- CAR_LEARN (R349). -/
  | carLearn (a : BitVec 8) (b : BitVec 8) (r : BitVec 7)
  /-- CAR_TRAIL (R355). -/
  | carTrail (a : BitVec 8) (r : BitVec 7)
  /-- CAR_VAR (R355). -/
  | carVar (a : BitVec 8) (r : BitVec 7)
  /-- CAR_STAT (R355). -/
  | carStat (r : BitVec 7)
  /-- PRODUCER_DELIVERS (R51): A long-latency producer writes its value into a copy and sets it full, waking blocked reads. -/
  | producerDelivers (k : Nat)
  /-- REGISTER_WAIT_EXPIRED (R52): The RWAIT limit of a blocking read passes with the copy still empty and the register-wait-expired trap is taken. -/
  | registerWaitExpired (g : Nat)
  /-- WAIT_TIMEOUT (R192): A wait's deadline is reached with its object unsatisfied; it withdraws and writes TIMEOUT. -/
  | waitTimeout (g : Nat)
  /-- COMMAND_ACCEPTED (R236): The copy engine takes a command from its queue, reads its descriptors and checks its limits. -/
  | commandAccepted (c : Nat)
  /-- ENGINE_UNIT_MOVED (R249): The copy engine moves one unit of a stream; landing team-memory bytes decrement a named barrier's PEND. -/
  | engineUnitMoved (c : Nat)
  /-- COMMAND_COMPLETE (R250): An engine command completes with its status, writing its reply and completing its batch. -/
  | commandComplete (c : Nat)
  /-- OVEN_TURN (R298): The Oven serves the head command of the next queue that can start. -/
  | ovenTurn (cluster queue : Nat)
  /-- TM_LINE_OPERATION (R327): A bank-side unit performs one line operation whole as it arrives at its bank. -/
  | tmLineOperation (c : Nat)
  /-- LEASE_EXPIRED (R343): A Carousel lease runs out: the array clears, the hold passes and the team is marked lapsed. -/
  | leaseExpired (cluster : Nat)
  /-- BIN_TIMER_EXPIRED (R372): A spawn bin's timer expires and the bin launches its waiting threads. -/
  | binTimerExpired (die bin : Nat)
  /-- WATCHDOG_EXPIRED (R279): A team's watchdog count reaches its window; snapshots are written and the team stopped. -/
  | watchdogExpired (team : Nat)
  /-- WATCHDOG_TRAP (R279): The lowest live group of a re-placed team takes cause 0x0D before its next instruction. -/
  | watchdogTrap (team : Nat)
  /-- LOST_PERMIT_TRAP (R280): The lost-permit trap is taken asynchronously by the lowest live group of the owning team. -/
  | lostPermitTrap (team : Nat)
  /-- PLACEMENT (R369): The Ringmaster places the head team of the placement queue on a fitting core. -/
  | placement (die : Nat)
  /-- TEAM_START (R370): The team's groups start once the Proofer's work has all ended DONE. -/
  | teamStart (team : Nat)
  /-- RETIREMENT (R231): A team retires once its groups have ended and every engine command has completed. -/
  | retirement (team : Nat)
  /-- EVENT_RING_AGE_INTERRUPT (R380): The oldest unsignalled event record reaches the age threshold and the Hearth is interrupted. -/
  | eventRingAgeInterrupt (die : Nat)
  /-- PREEMPTION (R277): The Ringmaster, watchdog or Hearth stops a group and writes its image. -/
  | preemption (g : Nat)
  /-- GROUP_RESTORE (R273): A stopped group's image is restored on a core and it resumes. -/
  | groupRestore (g : Nat)
  /-- BACKING_STORE_PAGE_IN (R410): The Hearth service brings in a page held in its backing store and the instruction replays. -/
  | backingStorePageIn (ctx : Nat) (va : BitVec 64)
  /-- SHOOTDOWN_COMPLETE (R153): A shootdown completes on every core of the package. -/
  | shootdownComplete (k : Nat)
  /-- PROMOTION_COMPLETE (R225): An ACQ.rem promotion completes and the wait returns DONE. -/
  | promotionComplete (k : Nat)
  /-- PERMIT_LANDS (R211): A returned permit lands in a send entry's PERMITS and waiting QSENDs check again. -/
  | permitLands (k : Nat)
  /-- APPEND_LANDS (R209): A QSEND append lands in the target queue. -/
  | appendLands (k : Nat)
  /-- RLFREE (R275): Writing j to RLFREE frees reduction log entry j. -/
  | rlfree (ctx j : Nat)
  /-- GANG_START (R383): At START a gang is placed, reported LATE, or aborted under STRICT. -/
  | gangStart (k : Nat)
  /-- GANG_SLICE_EXPIRED (R383): A gang's SLICE elapses and its teams are stopped. -/
  | gangSliceExpired (k : Nat)
  /-- UNASSIGNED_OPCODE (R59): A word with an unassigned opcode byte (0x00 included) or unassigned coprocessor function issues and takes the unimplemented-instruction trap at decode. -/
  | unassignedOpcode (w : BitVec 32)
  /-- STORE_PERFORMED (R222): A global or team-memory store of a group becomes performed at its scope's point, some time after its issue. -/
  | storePerformed (k : Nat)
  /-- REDUCTION_REQUEST_ENDS (R189): A reduction request in flight is performed at its address or written to the log, releasing or filling its reserved entry. -/
  | reductionRequestEnds (k : Nat)
  /-- SPURIOUS_FIRING (R172): The core's monitor fires for no write at all, and a waiting WAITMEM repeats its loop. -/
  | spuriousFiring (g : Nat)
  /-- CAROUSEL_COMMAND_PERFORMED (R356): The Carousel performs the command at the head of its order, whole, and writes its reply block. -/
  | carouselCommandPerformed (cluster : Nat)
  /-- RANGE_BROUGHT_IN (R366): The Hearth service makes a ready task's range resident, after which its teams join the placement queue. -/
  | rangeBroughtIn (k : Nat)
  /-- NOP (R85). -/
  | nop
  /-- RECONV (R92). -/
  | reconv
  /-- TFENCE (R125). -/
  | tfence
  /-- ACQ (R199). -/
  | acq
  /-- REL (R199). -/
  | rel
  /-- BEAT (R279). -/
  | beat
  /-- BRK (R285). -/
  | brk
  /-- TURNSTILE_AUDIT (R212): Once per period the Turnstile checks permit and credit sums of every queue and link. -/
  | turnstileAudit
  /-- EVICTION (R176): The Hearth service evicts a range chosen by next use. -/
  | eviction
  /-- CONTEXT_REMOVAL (R253): The Hearth service removes a context, stopping its engine commands and saving their progress. -/
  | contextRemoval
  /-- CONTEXT_RETURN (R303): A removed context returns and its saved engine and Oven state resumes. -/
  | contextReturn
  /-- SOFT_ERROR_CORRECTED (R21): ECC corrects an SRAM soft error; SERR counts it and a Safety Net entry is written. -/
  | softErrorCorrected
  /-- UNCORRECTABLE_ERROR (R281): An uncorrectable error is recorded and affected contexts are halted. -/
  | uncorrectableError
  /-- OVER_TEMPERATURE (R281): A die reaches 110 degC: a fatal entry is written and power is cut. -/
  | overTemperature
  /-- HEAT_REFILL_HALVED (R299): At 100 degC the Hearth halves the heat-token refill, never below the floor. -/
  | heatRefillHalved
  /-- SAFETY_NET_UNFREEZE (R282): The Hearth unfreezes the Safety Net ring through its device registers. -/
  | safetyNetUnfreeze
  /-- DEVICE_REGISTER_WRITE (R267): A monitor-level write to a device register that has no row of its own. -/
  | deviceRegisterWrite
  /-- DEBUG_RESUME (R285): The Hearth resumes a group held by BRK under DEBUG. -/
  | debugResume
  /-- COLD_RESET (R403): Cold reset runs the boot ROM measurement and verification steps. -/
  | coldReset
  /-- WARM_RESET (R403): Warm reset runs the boot ROM steps, keeping the Safety Net. -/
  | warmReset
  /-- STANDBY_SUPPLY_LOSS (R409): Loss of the 3.3 V standby supply loses the Safety Net contents. -/
  | standbySupplyLoss
  /-- FLASH_RECOVERY_WRITE (R405): In recovery a write with CTX 0xFFFE erases or programs the recovery window. -/
  | flashRecoveryWrite
  /-- FLASH_RECOVERY_COMMIT (R405): A commit writes the window's SEQ, checks its items and warm-resets on success. -/
  | flashRecoveryCommit
  /-- LOAD_OBJECT (R389): The Hearth checks, chooses an image, translates, relocates and loads an OZO object. -/
  | loadObject
  /-- ALLOCATE (R398): Allocates memory in a context, or creates a context. -/
  | allocate
  /-- WRITE (R397): Writes bytes into a context's memory. -/
  | write
  /-- LAUNCH (R399): Builds and submits a task for a launch record, replying at once or at retirement. -/
  | launch
  /-- READ (R397): Reads bytes from a context's memory. -/
  | read
  /-- ATTEST (R407): Returns a doubly signed attestation report for a nonce. -/
  | attest
  /-- PACKET_DROPPED (R395): A packet asking for an unsupported mode or service is dropped and counted. -/
  | packetDropped
  /-- TIME_SYNC (R396): An IEEE 1588 exchange corrects the wall clock's rate. -/
  | timeSync
  /-- LAUNCH_PACKET (R382): A launch packet from the fabric submits a prebuilt TCB. -/
  | launchPacket
  /-- PORT_ENABLE (R401): The Hearth enables a fabric port, which leaves OFF. -/
  | portEnable
  /-- PORT_STATE_ADVANCE (R401): A fabric port meets its state's condition and advances toward UP. -/
  | portStateAdvance
  /-- PORT_STATE_LIMIT (R401): A port misses its state's limit and returns to OFF with a Safety Net entry. -/
  | portStateLimit
  /-- FLIT_REPLAY (R402): A flit with a bad CRC is replayed by the data-link layer. -/
  | flitReplay
  /-- LANE_LOST (R400): A lane's status falls to 0 and flits are striped over the remaining lanes, or the port goes down below 16. -/
  | laneLost
  /-- FABRIC_REQUEST (R400): A UALink request from another package arrives on virtual channel 0 and is performed at this package's point for the frame. -/
  | fabricRequest
  /-- CONNECTION_CLOSED (R395): A connection that fails the Ultra Ethernet transport's own checks is closed. -/
  | connectionClosed
  deriving DecidableEq

end Sys2Proof
end

