-- ==== Sys2Proof/WellFormed.lean ====
section
/-! DEFINITION. Which terms of Instr are instruction words of the device: every word row is, with its fields at every
value (a code that the instruction refuses is still a word of it, and traps when it issues, 03 R60); an unassigned word
is one only if its opcode byte or function code is unassigned (03 Tables 3.7 and 3.8); an event is none. -/

namespace Sys2Proof

/-- The opcode byte is marked "—" in 03 Table 3.7, below 0xC0. -/
def unassignedByte (op : Nat) : Bool :=
  op == 0x00 || (decide (0x3D ≤ op) && decide (op ≤ 0x3F)) || (decide (0x73 ≤ op) && decide (op ≤ 0x7F)) ||
  (decide (0x8D ≤ op) && decide (op ≤ 0x8F)) || op == 0x9F || (decide (0xA9 ≤ op) && decide (op ≤ 0xAF))

/-- The coprocessor function is marked "—" in 03 Table 3.8, or is 0x60 or above. -/
def unassignedFunction (func : Nat) : Bool :=
  (decide (0x0E ≤ func) && decide (func ≤ 0x1F)) || (decide (0x30 ≤ func) && decide (func ≤ 0x3F)) ||
  (decide (0x45 ≤ func) && decide (func ≤ 0x4F)) || decide (0x5C ≤ func)

/-- A word that is no instruction by its opcode byte or function code (03 R59). -/
def unassignedWord (w : BitVec 32) : Bool :=
  let n := w.toNat
  if n / 2 ^ 30 = 3 then unassignedFunction (n / 2 ^ 23 % 128) else unassignedByte (n / 2 ^ 24)

/-- The term is an instruction word. -/
def Instr.wellFormed (i : Instr) : Bool :=
  match i with
  | .nop => true
  | .mode _ _ => true
  | .rank _ _ => true
  | .merge _ _ => true
  | .br _ => true
  | .bz _ _ => true
  | .bnz _ _ => true
  | .brd _ _ => true
  | .reconv => true
  | .call _ _ => true
  | .ret _ => true
  | .pset _ _ => true
  | .pand _ _ _ => true
  | .por _ _ _ => true
  | .setix _ _ => true
  | .add _ _ _ => true
  | .sub _ _ _ => true
  | .mul _ _ _ => true
  | .mulh _ _ _ => true
  | .div _ _ _ => true
  | .rem _ _ _ => true
  | .min _ _ _ => true
  | .max _ _ _ => true
  | .abs _ _ => true
  | .neg _ _ => true
  | .and _ _ _ => true
  | .or _ _ _ => true
  | .xor _ _ _ => true
  | .not _ _ => true
  | .shl _ _ _ => true
  | .shr _ _ _ => true
  | .sar _ _ _ => true
  | .rot _ _ _ => true
  | .popc _ _ => true
  | .clz _ _ => true
  | .bfx _ _ _ => true
  | .bfi _ _ _ => true
  | .cmpeq _ _ _ => true
  | .cmpne _ _ _ => true
  | .cmplt _ _ _ => true
  | .cmple _ _ _ => true
  | .sel _ _ _ => true
  | .li _ _ => true
  | .lih _ _ => true
  | .mov _ _ => true
  | .adda _ _ _ => true
  | .suba _ _ _ => true
  | .shfl _ _ _ => true
  | .shflUp _ _ _ => true
  | .shflDn _ _ _ => true
  | .shflXor _ _ _ => true
  | .bcast _ _ _ => true
  | .voteAny _ _ => true
  | .voteAll _ _ => true
  | .voteBal _ _ => true
  | .scanAdd _ _ _ => true
  | .scanMax _ _ _ => true
  | .reduceAdd _ _ => true
  | .reduceMin _ _ => true
  | .reduceMax _ _ => true
  | .fadd _ _ _ => true
  | .fsub _ _ _ => true
  | .fmul _ _ _ => true
  | .fma _ _ _ => true
  | .fms _ _ _ => true
  | .fdiv _ _ _ => true
  | .fsqrt _ _ => true
  | .frcp _ _ => true
  | .frsq _ _ => true
  | .fmin _ _ _ => true
  | .fmax _ _ _ => true
  | .fabs _ _ => true
  | .fneg _ _ => true
  | .fcmpeq _ _ _ => true
  | .fcmplt _ _ _ => true
  | .fcmple _ _ _ => true
  | .fcmpun _ _ _ => true
  | .cvtfi _ _ => true
  | .cvtif _ _ => true
  | .fwiden _ _ => true
  | .fnarrow _ _ => true
  | .fclass _ _ => true
  | .quant _ _ _ => true
  | .deq _ _ _ => true
  | .tfence => true
  | .fflags _ _ => true
  | .dadd _ _ _ => true
  | .dsub _ _ _ => true
  | .dmul _ _ _ => true
  | .dfma _ _ _ => true
  | .ddiv _ _ _ => true
  | .dcvt _ _ _ => true
  | .ldItype _ _ _ => true
  | .ldFtype _ _ _ => true
  | .stItype _ _ _ => true
  | .stFtype _ _ _ => true
  | .ldsItype _ _ _ => true
  | .ldsFtype _ _ _ => true
  | .stsItype _ _ _ => true
  | .stsFtype _ _ _ => true
  | .ldt _ _ _ => true
  | .ldtTr8 _ _ _ => true
  | .ldtTr16 _ _ _ => true
  | .stt _ _ _ => true
  | .xlt _ _ => true
  | .xlinv _ => true
  | .pref _ _ => true
  | .waitmem _ _ _ => true
  | .discard _ _ => true
  | .clean _ _ => true
  | .invl1 _ _ => true
  | .atomAdd _ _ _ => true
  | .atomMin _ _ _ => true
  | .atomMax _ _ _ => true
  | .atomAnd _ _ _ => true
  | .atomOr _ _ _ => true
  | .atomXor _ _ _ => true
  | .atomExch _ _ _ => true
  | .atomCas _ _ _ => true
  | .atomFadd _ _ _ => true
  | .redAdd _ _ _ => true
  | .redMin _ _ _ => true
  | .redMax _ _ _ => true
  | .redFadd _ _ _ => true
  | .barInit _ _ => true
  | .barArrive _ _ => true
  | .barWait _ _ _ => true
  | .barInval _ => true
  | .barExpect _ _ => true
  | .close _ => true
  | .waitb _ _ _ => true
  | .fence _ _ _ => true
  | .acq => true
  | .rel => true
  | .acqRem _ _ _ => true
  | .qsend _ _ _ => true
  | .qrecv _ _ _ => true
  | .qcredit _ _ _ => true
  | .waitf _ _ _ => true
  | .spawn _ _ _ => true
  | .fork _ _ _ => true
  | .join _ _ => true
  | .tcbNew _ _ _ => true
  | .tcbSucc _ _ _ => true
  | .tcbSubmit _ _ => true
  | .tcbDone _ _ => true
  | .bintime _ _ _ => true
  | .yield _ => true
  | .exit _ => true
  | .trap _ => true
  | .tret _ => true
  | .beat => true
  | .pidx _ _ => true
  | .modeRd _ => true
  | .modeWr _ => true
  | .winrd _ _ _ => true
  | .winwr _ _ _ => true
  | .sregRd _ _ => true
  | .sregWr _ _ => true
  | .shoot _ _ _ => true
  | .snet _ _ => true
  | .clock _ _ => true
  | .brk => true
  | .halt _ => true
  | .copyVv _ _ _ => true
  | .copyVt _ _ _ => true
  | .copyTv _ _ _ => true
  | .copyTt _ _ _ => true
  | .copyMc _ _ _ => true
  | .copy2d _ _ _ => true
  | .copyGath _ _ _ => true
  | .copyFill _ _ _ => true
  | .copyOv _ _ _ => true
  | .xfTr _ _ _ => true
  | .xfPlane _ _ _ => true
  | .xfDeq _ _ _ => true
  | .dcmp _ _ _ => true
  | .copyStat _ _ => true
  | .ovFmt _ _ => true
  | .ovA _ _ => true
  | .ovB _ _ => true
  | .ovIdx _ _ => true
  | .ovTile _ _ _ => true
  | .ovChain _ _ _ => true
  | .ovStat _ _ => true
  | .ovToken _ _ => true
  | .accAlloc _ _ _ => true
  | .accFree _ _ => true
  | .accZero _ _ => true
  | .accRd _ _ => true
  | .accWr _ _ _ => true
  | .accSt _ _ _ => true
  | .accDrain _ _ _ => true
  | .accMap _ _ => true
  | .tmAdd _ _ _ => true
  | .tmMin _ _ _ => true
  | .tmMax _ _ _ => true
  | .tmCas _ _ _ => true
  | .tmSacc _ _ _ => true
  | .carAcq _ _ _ => true
  | .carRel _ => true
  | .carClr _ _ => true
  | .carCell _ _ => true
  | .carCol _ _ _ => true
  | .carDecide _ _ => true
  | .carProp _ _ _ => true
  | .carBack _ _ => true
  | .carLearn _ _ _ => true
  | .carTrail _ _ => true
  | .carVar _ _ => true
  | .carStat _ => true
  | .producerDelivers _ => false
  | .registerWaitExpired _ => false
  | .waitTimeout _ => false
  | .commandAccepted _ => false
  | .engineUnitMoved _ => false
  | .commandComplete _ => false
  | .ovenTurn _ _ => false
  | .tmLineOperation _ => false
  | .leaseExpired _ => false
  | .binTimerExpired _ _ => false
  | .watchdogExpired _ => false
  | .watchdogTrap _ => false
  | .turnstileAudit => false
  | .lostPermitTrap _ => false
  | .placement _ => false
  | .teamStart _ => false
  | .retirement _ => false
  | .eventRingAgeInterrupt _ => false
  | .preemption _ => false
  | .groupRestore _ => false
  | .backingStorePageIn _ _ => false
  | .eviction => false
  | .contextRemoval => false
  | .contextReturn => false
  | .shootdownComplete _ => false
  | .promotionComplete _ => false
  | .permitLands _ => false
  | .appendLands _ => false
  | .softErrorCorrected => false
  | .uncorrectableError => false
  | .overTemperature => false
  | .heatRefillHalved => false
  | .safetyNetUnfreeze => false
  | .rlfree _ _ => false
  | .deviceRegisterWrite => false
  | .debugResume => false
  | .coldReset => false
  | .warmReset => false
  | .standbySupplyLoss => false
  | .flashRecoveryWrite => false
  | .flashRecoveryCommit => false
  | .loadObject => false
  | .allocate => false
  | .write => false
  | .launch => false
  | .read => false
  | .attest => false
  | .packetDropped => false
  | .timeSync => false
  | .launchPacket => false
  | .gangStart _ => false
  | .gangSliceExpired _ => false
  | .portEnable => false
  | .portStateAdvance => false
  | .portStateLimit => false
  | .flitReplay => false
  | .laneLost => false
  | .unassignedOpcode w => unassignedWord w
  | .storePerformed _ => false
  | .reductionRequestEnds _ => false
  | .spuriousFiring _ => false
  | .carouselCommandPerformed _ => false
  | .rangeBroughtIn _ => false
  | .fabricRequest => false
  | .connectionClosed => false

end Sys2Proof
end

