-- ==== Sys2Proof/Decode.lean ====
section
/-! DEFINITION. The decoder and the encoder, both from the encoding tables of the spec (03 R39, R43, R55, R57, R59 and
the encoding tables of the instruction chapters). Decoding is total on words: an instruction, or the sub-cause of 03
Table 3.10 with which the word is refused. A field that a word names as a code is taken as it stands; the codes that an
instruction refuses are checked when it issues (03 R60). -/

namespace Sys2Proof

/-- Why a word of an assigned opcode is no instruction (03 Table 3.10). -/
inductive Unimplemented where
  /-- a field or bits that the instruction does not use are not zero: sub-cause 0x02. -/
  | reservedBits
  /-- a code outside 03 Table 3.3 in a position that names no register: sub-cause 0x03. -/
  | badCode
  deriving DecidableEq, Repr

/-- Bits [lo+len-1:lo] of a word. -/
def field (w lo len : Nat) : Nat := w / 2 ^ lo % 2 ^ len

/-- A field as a bit vector. -/
def fieldBv (w lo len : Nat) : BitVec len := BitVec.ofNat len (w / 2 ^ lo)

/-- An instruction whose reserved ranges (low bit, length) are zero and whose narrow codes fit. -/
def accept (w : Nat) (reserved narrow : List (Nat × Nat)) (i : Instr) : Except Unimplemented Instr :=
  if reserved.any (fun r => field w r.1 r.2 != 0) then .error .reservedBits
  else if narrow.any (fun r => field w r.1 r.2 != 0) then .error .badCode
  else .ok i

/-- A word whose opcode byte or function code is unassigned (03 R59). -/
def unassigned (w : Nat) : Except Unimplemented Instr := .ok (.unassignedOpcode (BitVec.ofNat 32 w))

/-- Opcodes 0x00 to 0x0F: the low digit of the opcode selects (03 Table 3.7). -/
def decodeControl (w op : Nat) : Except Unimplemented Instr :=
  match op with
  | 1 => accept w [(16, 8), (8, 8), (0, 8)] [] .nop
  | 2 => accept w [] [] (.mode (fieldBv w 16 8) (fieldBv w 0 16))
  | 3 => accept w [(0, 8)] [] (.rank (fieldBv w 16 8) (fieldBv w 8 8))
  | 4 => accept w [(0, 1)] [] (.merge (fieldBv w 16 8) (fieldBv w 1 15))
  | 5 => accept w [(16, 8)] [] (.br (fieldBv w 0 16))
  | 6 => accept w [] [] (.bz (fieldBv w 16 8) (fieldBv w 0 16))
  | 7 => accept w [] [] (.bnz (fieldBv w 16 8) (fieldBv w 0 16))
  | 8 => accept w [] [(20, 4)] (.brd (fieldBv w 16 4) (fieldBv w 0 16))
  | 9 => accept w [(16, 8), (8, 8), (0, 8)] [] .reconv
  | 10 => accept w [] [] (.call (fieldBv w 16 8) (fieldBv w 0 16))
  | 11 => accept w [(16, 8), (0, 8)] [] (.ret (fieldBv w 8 8))
  | 12 => accept w [(0, 8)] [(19, 5)] (.pset (fieldBv w 16 3) (fieldBv w 8 8))
  | 13 => accept w [] [(19, 5), (12, 4), (4, 4)] (.pand (fieldBv w 16 3) (fieldBv w 8 4) (fieldBv w 0 4))
  | 14 => accept w [] [(19, 5), (12, 4), (4, 4)] (.por (fieldBv w 16 3) (fieldBv w 8 4) (fieldBv w 0 4))
  | 15 => accept w [(0, 8)] [(18, 6)] (.setix (fieldBv w 16 2) (fieldBv w 8 8))
  | _ => unassigned w

/-- Opcodes 0x10 to 0x1F: the low digit of the opcode selects (03 Table 3.7). -/
def decodeIntegerLow (w op : Nat) : Except Unimplemented Instr :=
  match op with
  | 0 => accept w [] [] (.add (fieldBv w 16 8) (fieldBv w 8 8) (fieldBv w 0 8))
  | 1 => accept w [] [] (.sub (fieldBv w 16 8) (fieldBv w 8 8) (fieldBv w 0 8))
  | 2 => accept w [] [] (.mul (fieldBv w 16 8) (fieldBv w 8 8) (fieldBv w 0 8))
  | 3 => accept w [] [] (.mulh (fieldBv w 16 8) (fieldBv w 8 8) (fieldBv w 0 8))
  | 4 => accept w [] [] (.div (fieldBv w 16 8) (fieldBv w 8 8) (fieldBv w 0 8))
  | 5 => accept w [] [] (.rem (fieldBv w 16 8) (fieldBv w 8 8) (fieldBv w 0 8))
  | 6 => accept w [] [] (.min (fieldBv w 16 8) (fieldBv w 8 8) (fieldBv w 0 8))
  | 7 => accept w [] [] (.max (fieldBv w 16 8) (fieldBv w 8 8) (fieldBv w 0 8))
  | 8 => accept w [(0, 8)] [] (.abs (fieldBv w 16 8) (fieldBv w 8 8))
  | 9 => accept w [(0, 8)] [] (.neg (fieldBv w 16 8) (fieldBv w 8 8))
  | 10 => accept w [] [] (.and (fieldBv w 16 8) (fieldBv w 8 8) (fieldBv w 0 8))
  | 11 => accept w [] [] (.or (fieldBv w 16 8) (fieldBv w 8 8) (fieldBv w 0 8))
  | 12 => accept w [] [] (.xor (fieldBv w 16 8) (fieldBv w 8 8) (fieldBv w 0 8))
  | 13 => accept w [(0, 8)] [] (.not (fieldBv w 16 8) (fieldBv w 8 8))
  | 14 => accept w [] [] (.shl (fieldBv w 16 8) (fieldBv w 8 8) (fieldBv w 0 8))
  | _ => accept w [] [] (.shr (fieldBv w 16 8) (fieldBv w 8 8) (fieldBv w 0 8))

/-- Opcodes 0x20 to 0x2F: the low digit of the opcode selects (03 Table 3.7). -/
def decodeIntegerHigh (w op : Nat) : Except Unimplemented Instr :=
  match op with
  | 0 => accept w [] [] (.sar (fieldBv w 16 8) (fieldBv w 8 8) (fieldBv w 0 8))
  | 1 => accept w [] [] (.rot (fieldBv w 16 8) (fieldBv w 8 8) (fieldBv w 0 8))
  | 2 => accept w [(0, 8)] [] (.popc (fieldBv w 16 8) (fieldBv w 8 8))
  | 3 => accept w [(0, 8)] [] (.clz (fieldBv w 16 8) (fieldBv w 8 8))
  | 4 => accept w [] [] (.bfx (fieldBv w 16 8) (fieldBv w 8 8) (fieldBv w 0 8))
  | 5 => accept w [] [] (.bfi (fieldBv w 16 8) (fieldBv w 8 8) (fieldBv w 0 8))
  | 6 => accept w [] [(19, 5)] (.cmpeq (fieldBv w 16 3) (fieldBv w 8 8) (fieldBv w 0 8))
  | 7 => accept w [] [(19, 5)] (.cmpne (fieldBv w 16 3) (fieldBv w 8 8) (fieldBv w 0 8))
  | 8 => accept w [] [(19, 5)] (.cmplt (fieldBv w 16 3) (fieldBv w 8 8) (fieldBv w 0 8))
  | 9 => accept w [] [(19, 5)] (.cmple (fieldBv w 16 3) (fieldBv w 8 8) (fieldBv w 0 8))
  | 10 => accept w [] [] (.sel (fieldBv w 16 8) (fieldBv w 8 8) (fieldBv w 0 8))
  | 11 => accept w [] [] (.li (fieldBv w 16 8) (fieldBv w 0 16))
  | 12 => accept w [] [] (.lih (fieldBv w 16 8) (fieldBv w 0 16))
  | 13 => accept w [(0, 8)] [] (.mov (fieldBv w 16 8) (fieldBv w 8 8))
  | 14 => accept w [] [] (.adda (fieldBv w 16 8) (fieldBv w 8 8) (fieldBv w 0 8))
  | _ => accept w [] [] (.suba (fieldBv w 16 8) (fieldBv w 8 8) (fieldBv w 0 8))

/-- Opcodes 0x30 to 0x3F: the low digit of the opcode selects (03 Table 3.7). -/
def decodeLane (w op : Nat) : Except Unimplemented Instr :=
  match op with
  | 0 => accept w [] [] (.shfl (fieldBv w 16 8) (fieldBv w 8 8) (fieldBv w 0 8))
  | 1 => accept w [] [] (.shflUp (fieldBv w 16 8) (fieldBv w 8 8) (fieldBv w 0 8))
  | 2 => accept w [] [] (.shflDn (fieldBv w 16 8) (fieldBv w 8 8) (fieldBv w 0 8))
  | 3 => accept w [] [] (.shflXor (fieldBv w 16 8) (fieldBv w 8 8) (fieldBv w 0 8))
  | 4 => accept w [] [] (.bcast (fieldBv w 16 8) (fieldBv w 8 8) (fieldBv w 0 8))
  | 5 => accept w [(0, 8)] [] (.voteAny (fieldBv w 16 8) (fieldBv w 8 8))
  | 6 => accept w [(0, 8)] [] (.voteAll (fieldBv w 16 8) (fieldBv w 8 8))
  | 7 => accept w [(0, 8)] [] (.voteBal (fieldBv w 16 8) (fieldBv w 8 8))
  | 8 => accept w [] [] (.scanAdd (fieldBv w 16 8) (fieldBv w 8 8) (fieldBv w 0 8))
  | 9 => accept w [] [] (.scanMax (fieldBv w 16 8) (fieldBv w 8 8) (fieldBv w 0 8))
  | 10 => accept w [(0, 8)] [] (.reduceAdd (fieldBv w 16 8) (fieldBv w 8 8))
  | 11 => accept w [(0, 8)] [] (.reduceMin (fieldBv w 16 8) (fieldBv w 8 8))
  | 12 => accept w [(0, 8)] [] (.reduceMax (fieldBv w 16 8) (fieldBv w 8 8))
  | _ => unassigned w

/-- Opcodes 0x40 to 0x4F: the low digit of the opcode selects (03 Table 3.7). -/
def decodeFloatLow (w op : Nat) : Except Unimplemented Instr :=
  match op with
  | 0 => accept w [] [] (.fadd (fieldBv w 16 8) (fieldBv w 8 8) (fieldBv w 0 8))
  | 1 => accept w [] [] (.fsub (fieldBv w 16 8) (fieldBv w 8 8) (fieldBv w 0 8))
  | 2 => accept w [] [] (.fmul (fieldBv w 16 8) (fieldBv w 8 8) (fieldBv w 0 8))
  | 3 => accept w [] [] (.fma (fieldBv w 16 8) (fieldBv w 8 8) (fieldBv w 0 8))
  | 4 => accept w [] [] (.fms (fieldBv w 16 8) (fieldBv w 8 8) (fieldBv w 0 8))
  | 5 => accept w [] [] (.fdiv (fieldBv w 16 8) (fieldBv w 8 8) (fieldBv w 0 8))
  | 6 => accept w [(0, 8)] [] (.fsqrt (fieldBv w 16 8) (fieldBv w 8 8))
  | 7 => accept w [(0, 8)] [] (.frcp (fieldBv w 16 8) (fieldBv w 8 8))
  | 8 => accept w [(0, 8)] [] (.frsq (fieldBv w 16 8) (fieldBv w 8 8))
  | 9 => accept w [] [] (.fmin (fieldBv w 16 8) (fieldBv w 8 8) (fieldBv w 0 8))
  | 10 => accept w [] [] (.fmax (fieldBv w 16 8) (fieldBv w 8 8) (fieldBv w 0 8))
  | 11 => accept w [(0, 8)] [] (.fabs (fieldBv w 16 8) (fieldBv w 8 8))
  | 12 => accept w [(0, 8)] [] (.fneg (fieldBv w 16 8) (fieldBv w 8 8))
  | 13 => accept w [] [(19, 5)] (.fcmpeq (fieldBv w 16 3) (fieldBv w 8 8) (fieldBv w 0 8))
  | 14 => accept w [] [(19, 5)] (.fcmplt (fieldBv w 16 3) (fieldBv w 8 8) (fieldBv w 0 8))
  | _ => accept w [] [(19, 5)] (.fcmple (fieldBv w 16 3) (fieldBv w 8 8) (fieldBv w 0 8))

/-- Opcodes 0x50 to 0x5F: the low digit of the opcode selects (03 Table 3.7). -/
def decodeFloatHigh (w op : Nat) : Except Unimplemented Instr :=
  match op with
  | 0 => accept w [] [(19, 5)] (.fcmpun (fieldBv w 16 3) (fieldBv w 8 8) (fieldBv w 0 8))
  | 1 => accept w [(0, 8)] [] (.cvtfi (fieldBv w 16 8) (fieldBv w 8 8))
  | 2 => accept w [(0, 8)] [] (.cvtif (fieldBv w 16 8) (fieldBv w 8 8))
  | 3 => accept w [(0, 8)] [] (.fwiden (fieldBv w 16 8) (fieldBv w 8 8))
  | 4 => accept w [(0, 8)] [] (.fnarrow (fieldBv w 16 8) (fieldBv w 8 8))
  | 5 => accept w [(0, 8)] [] (.fclass (fieldBv w 16 8) (fieldBv w 8 8))
  | 6 => accept w [] [] (.quant (fieldBv w 16 8) (fieldBv w 8 8) (fieldBv w 0 8))
  | 7 => accept w [] [] (.deq (fieldBv w 16 8) (fieldBv w 8 8) (fieldBv w 0 8))
  | 8 => accept w [(16, 8), (8, 8), (0, 8)] [] .tfence
  | 9 => accept w [(0, 8)] [] (.fflags (fieldBv w 16 8) (fieldBv w 8 8))
  | 10 => accept w [] [] (.dadd (fieldBv w 16 8) (fieldBv w 8 8) (fieldBv w 0 8))
  | 11 => accept w [] [] (.dsub (fieldBv w 16 8) (fieldBv w 8 8) (fieldBv w 0 8))
  | 12 => accept w [] [] (.dmul (fieldBv w 16 8) (fieldBv w 8 8) (fieldBv w 0 8))
  | 13 => accept w [] [] (.dfma (fieldBv w 16 8) (fieldBv w 8 8) (fieldBv w 0 8))
  | 14 => accept w [] [] (.ddiv (fieldBv w 16 8) (fieldBv w 8 8) (fieldBv w 0 8))
  | _ => accept w [] [] (.dcvt (fieldBv w 16 8) (fieldBv w 8 8) (fieldBv w 0 8))

/-- Opcodes 0x60 to 0x6F: the low digit of the opcode selects (03 Table 3.7). -/
def decodeMemoryLow (w op : Nat) : Except Unimplemented Instr :=
  match op with
  | 0 => accept w [] [(11, 5)] (.ldItype (fieldBv w 16 8) (fieldBv w 8 3) (fieldBv w 0 8))
  | 1 => accept w [] [(11, 5)] (.ldFtype (fieldBv w 16 8) (fieldBv w 8 3) (fieldBv w 0 8))
  | 2 => accept w [] [(11, 5)] (.stItype (fieldBv w 16 8) (fieldBv w 8 3) (fieldBv w 0 8))
  | 3 => accept w [] [(11, 5)] (.stFtype (fieldBv w 16 8) (fieldBv w 8 3) (fieldBv w 0 8))
  | 4 => accept w [] [] (.ldsItype (fieldBv w 16 8) (fieldBv w 8 8) (fieldBv w 0 8))
  | 5 => accept w [] [] (.ldsFtype (fieldBv w 16 8) (fieldBv w 8 8) (fieldBv w 0 8))
  | 6 => accept w [] [] (.stsItype (fieldBv w 16 8) (fieldBv w 8 8) (fieldBv w 0 8))
  | 7 => accept w [] [] (.stsFtype (fieldBv w 16 8) (fieldBv w 8 8) (fieldBv w 0 8))
  | 8 => accept w [] [(11, 5)] (.ldt (fieldBv w 16 8) (fieldBv w 8 3) (fieldBv w 0 8))
  | 9 => accept w [] [(11, 5)] (.ldtTr8 (fieldBv w 16 8) (fieldBv w 8 3) (fieldBv w 0 8))
  | 10 => accept w [] [(11, 5)] (.ldtTr16 (fieldBv w 16 8) (fieldBv w 8 3) (fieldBv w 0 8))
  | 11 => accept w [] [(11, 5)] (.stt (fieldBv w 16 8) (fieldBv w 8 3) (fieldBv w 0 8))
  | 12 => accept w [(0, 8)] [(19, 5)] (.xlt (fieldBv w 16 3) (fieldBv w 8 8))
  | 13 => accept w [(8, 8), (0, 8)] [(19, 5)] (.xlinv (fieldBv w 16 3))
  | 14 => accept w [(16, 8)] [(11, 5)] (.pref (fieldBv w 8 3) (fieldBv w 0 8))
  | _ => accept w [] [(11, 5)] (.waitmem (fieldBv w 16 8) (fieldBv w 8 3) (fieldBv w 0 8))

/-- Opcodes 0x70 to 0x7F: the low digit of the opcode selects (03 Table 3.7). -/
def decodeMemoryHigh (w op : Nat) : Except Unimplemented Instr :=
  match op with
  | 0 => accept w [(16, 8)] [(11, 5)] (.discard (fieldBv w 8 3) (fieldBv w 0 8))
  | 1 => accept w [(16, 8)] [(11, 5)] (.clean (fieldBv w 8 3) (fieldBv w 0 8))
  | 2 => accept w [(16, 8)] [(11, 5)] (.invl1 (fieldBv w 8 3) (fieldBv w 0 8))
  | _ => unassigned w

/-- Opcodes 0x80 to 0x8F: the low digit of the opcode selects (03 Table 3.7). -/
def decodeAtomic (w op : Nat) : Except Unimplemented Instr :=
  match op with
  | 0 => accept w [] [(11, 5)] (.atomAdd (fieldBv w 16 8) (fieldBv w 8 3) (fieldBv w 0 8))
  | 1 => accept w [] [(11, 5)] (.atomMin (fieldBv w 16 8) (fieldBv w 8 3) (fieldBv w 0 8))
  | 2 => accept w [] [(11, 5)] (.atomMax (fieldBv w 16 8) (fieldBv w 8 3) (fieldBv w 0 8))
  | 3 => accept w [] [(11, 5)] (.atomAnd (fieldBv w 16 8) (fieldBv w 8 3) (fieldBv w 0 8))
  | 4 => accept w [] [(11, 5)] (.atomOr (fieldBv w 16 8) (fieldBv w 8 3) (fieldBv w 0 8))
  | 5 => accept w [] [(11, 5)] (.atomXor (fieldBv w 16 8) (fieldBv w 8 3) (fieldBv w 0 8))
  | 6 => accept w [] [(11, 5)] (.atomExch (fieldBv w 16 8) (fieldBv w 8 3) (fieldBv w 0 8))
  | 7 => accept w [] [(11, 5)] (.atomCas (fieldBv w 16 8) (fieldBv w 8 3) (fieldBv w 0 8))
  | 8 => accept w [] [(11, 5)] (.atomFadd (fieldBv w 16 8) (fieldBv w 8 3) (fieldBv w 0 8))
  | 9 => accept w [] [(11, 5)] (.redAdd (fieldBv w 16 8) (fieldBv w 8 3) (fieldBv w 0 8))
  | 10 => accept w [] [(11, 5)] (.redMin (fieldBv w 16 8) (fieldBv w 8 3) (fieldBv w 0 8))
  | 11 => accept w [] [(11, 5)] (.redMax (fieldBv w 16 8) (fieldBv w 8 3) (fieldBv w 0 8))
  | 12 => accept w [] [(11, 5)] (.redFadd (fieldBv w 16 8) (fieldBv w 8 3) (fieldBv w 0 8))
  | _ => unassigned w

/-- Opcodes 0x90 to 0x9F: the low digit of the opcode selects (03 Table 3.7). -/
def decodeSync (w op : Nat) : Except Unimplemented Instr :=
  match op with
  | 0 => accept w [(16, 8)] [] (.barInit (fieldBv w 8 8) (fieldBv w 0 8))
  | 1 => accept w [(0, 8)] [] (.barArrive (fieldBv w 16 8) (fieldBv w 8 8))
  | 2 => accept w [] [] (.barWait (fieldBv w 16 8) (fieldBv w 8 8) (fieldBv w 0 8))
  | 3 => accept w [(16, 8), (0, 8)] [] (.barInval (fieldBv w 8 8))
  | 4 => accept w [(16, 8)] [] (.barExpect (fieldBv w 8 8) (fieldBv w 0 8))
  | 5 => accept w [(8, 8), (0, 8)] [] (.close (fieldBv w 16 8))
  | 6 => accept w [] [] (.waitb (fieldBv w 16 8) (fieldBv w 8 8) (fieldBv w 0 8))
  | 7 => accept w [] [] (.fence (fieldBv w 16 8) (fieldBv w 8 8) (fieldBv w 0 8))
  | 8 => accept w [(16, 8), (8, 8), (0, 8)] [] .acq
  | 9 => accept w [(16, 8), (8, 8), (0, 8)] [] .rel
  | 10 => accept w [] [] (.acqRem (fieldBv w 16 8) (fieldBv w 8 8) (fieldBv w 0 8))
  | 11 => accept w [] [] (.qsend (fieldBv w 16 8) (fieldBv w 8 8) (fieldBv w 0 8))
  | 12 => accept w [] [] (.qrecv (fieldBv w 16 8) (fieldBv w 8 8) (fieldBv w 0 8))
  | 13 => accept w [] [] (.qcredit (fieldBv w 16 8) (fieldBv w 8 8) (fieldBv w 0 8))
  | 14 => accept w [] [] (.waitf (fieldBv w 16 8) (fieldBv w 8 8) (fieldBv w 0 8))
  | _ => unassigned w

/-- Opcodes 0xA0 to 0xAF: the low digit of the opcode selects (03 Table 3.7). -/
def decodeTask (w op : Nat) : Except Unimplemented Instr :=
  match op with
  | 0 => accept w [] [] (.spawn (fieldBv w 16 8) (fieldBv w 8 8) (fieldBv w 0 8))
  | 1 => accept w [] [] (.fork (fieldBv w 16 8) (fieldBv w 8 8) (fieldBv w 0 8))
  | 2 => accept w [(8, 8)] [] (.join (fieldBv w 16 8) (fieldBv w 0 8))
  | 3 => accept w [] [] (.tcbNew (fieldBv w 16 8) (fieldBv w 8 8) (fieldBv w 0 8))
  | 4 => accept w [] [] (.tcbSucc (fieldBv w 16 8) (fieldBv w 8 8) (fieldBv w 0 8))
  | 5 => accept w [(0, 8)] [] (.tcbSubmit (fieldBv w 16 8) (fieldBv w 8 8))
  | 6 => accept w [(0, 8)] [] (.tcbDone (fieldBv w 16 8) (fieldBv w 8 8))
  | 7 => accept w [] [] (.bintime (fieldBv w 16 8) (fieldBv w 8 8) (fieldBv w 0 8))
  | 8 => accept w [(8, 8), (0, 8)] [] (.yield (fieldBv w 16 8))
  | _ => unassigned w

/-- Opcodes 0xB0 to 0xBF: the low digit of the opcode selects (03 Table 3.7). -/
def decodeSystem (w op : Nat) : Except Unimplemented Instr :=
  match op with
  | 0 => accept w [(16, 8), (0, 8)] [] (.exit (fieldBv w 8 8))
  | 1 => accept w [(16, 8), (0, 8)] [] (.trap (fieldBv w 8 8))
  | 2 => accept w [(16, 8), (0, 8)] [] (.tret (fieldBv w 8 8))
  | 3 => accept w [(16, 8), (8, 8), (0, 8)] [] .beat
  | 4 => accept w [(0, 8)] [] (.pidx (fieldBv w 16 8) (fieldBv w 8 8))
  | 5 => accept w [(8, 8), (0, 8)] [] (.modeRd (fieldBv w 16 8))
  | 6 => accept w [(16, 8), (0, 8)] [] (.modeWr (fieldBv w 8 8))
  | 7 => accept w [] [] (.winrd (fieldBv w 16 8) (fieldBv w 8 8) (fieldBv w 0 8))
  | 8 => accept w [] [] (.winwr (fieldBv w 16 8) (fieldBv w 8 8) (fieldBv w 0 8))
  | 9 => accept w [(0, 8)] [] (.sregRd (fieldBv w 16 8) (fieldBv w 8 8))
  | 10 => accept w [(16, 8)] [] (.sregWr (fieldBv w 8 8) (fieldBv w 0 8))
  | 11 => accept w [] [] (.shoot (fieldBv w 16 8) (fieldBv w 8 8) (fieldBv w 0 8))
  | 12 => accept w [(16, 8)] [] (.snet (fieldBv w 8 8) (fieldBv w 0 8))
  | 13 => accept w [(0, 8)] [] (.clock (fieldBv w 16 8) (fieldBv w 8 8))
  | 14 => accept w [(16, 8), (8, 8), (0, 8)] [] .brk
  | _ => accept w [(16, 8), (0, 8)] [] (.halt (fieldBv w 8 8))

/-- Coprocessor functions 0x00 to 0x0F (03 Table 3.8). -/
def decodeCopy (w func : Nat) : Except Unimplemented Instr :=
  match func with
  | 0 => accept w [] [] (.copyVv (fieldBv w 15 8) (fieldBv w 7 8) (fieldBv w 0 7))
  | 1 => accept w [] [] (.copyVt (fieldBv w 15 8) (fieldBv w 7 8) (fieldBv w 0 7))
  | 2 => accept w [] [] (.copyTv (fieldBv w 15 8) (fieldBv w 7 8) (fieldBv w 0 7))
  | 3 => accept w [] [] (.copyTt (fieldBv w 15 8) (fieldBv w 7 8) (fieldBv w 0 7))
  | 4 => accept w [] [] (.copyMc (fieldBv w 15 8) (fieldBv w 7 8) (fieldBv w 0 7))
  | 5 => accept w [] [] (.copy2d (fieldBv w 15 8) (fieldBv w 7 8) (fieldBv w 0 7))
  | 6 => accept w [] [] (.copyGath (fieldBv w 15 8) (fieldBv w 7 8) (fieldBv w 0 7))
  | 7 => accept w [] [] (.copyFill (fieldBv w 15 8) (fieldBv w 7 8) (fieldBv w 0 7))
  | 8 => accept w [] [] (.copyOv (fieldBv w 15 8) (fieldBv w 7 8) (fieldBv w 0 7))
  | 9 => accept w [] [] (.xfTr (fieldBv w 15 8) (fieldBv w 7 8) (fieldBv w 0 7))
  | 10 => accept w [] [] (.xfPlane (fieldBv w 15 8) (fieldBv w 7 8) (fieldBv w 0 7))
  | 11 => accept w [] [] (.xfDeq (fieldBv w 15 8) (fieldBv w 7 8) (fieldBv w 0 7))
  | 12 => accept w [] [] (.dcmp (fieldBv w 15 8) (fieldBv w 7 8) (fieldBv w 0 7))
  | 13 => accept w [(7, 8)] [] (.copyStat (fieldBv w 15 8) (fieldBv w 0 7))
  | _ => unassigned w

/-- Coprocessor functions 0x20 to 0x2F (03 Table 3.8). -/
def decodeOven (w func : Nat) : Except Unimplemented Instr :=
  match func with
  | 0 => accept w [(7, 8)] [] (.ovFmt (fieldBv w 15 8) (fieldBv w 0 7))
  | 1 => accept w [(7, 8)] [] (.ovA (fieldBv w 15 8) (fieldBv w 0 7))
  | 2 => accept w [(7, 8)] [] (.ovB (fieldBv w 15 8) (fieldBv w 0 7))
  | 3 => accept w [(7, 8)] [] (.ovIdx (fieldBv w 15 8) (fieldBv w 0 7))
  | 4 => accept w [] [] (.ovTile (fieldBv w 15 8) (fieldBv w 7 8) (fieldBv w 0 7))
  | 5 => accept w [] [] (.ovChain (fieldBv w 15 8) (fieldBv w 7 8) (fieldBv w 0 7))
  | 6 => accept w [(7, 8)] [] (.ovStat (fieldBv w 15 8) (fieldBv w 0 7))
  | 7 => accept w [(7, 8)] [] (.ovToken (fieldBv w 15 8) (fieldBv w 0 7))
  | 8 => accept w [] [] (.accAlloc (fieldBv w 15 8) (fieldBv w 7 8) (fieldBv w 0 7))
  | 9 => accept w [(7, 8)] [] (.accFree (fieldBv w 15 8) (fieldBv w 0 7))
  | 10 => accept w [(7, 8)] [] (.accZero (fieldBv w 15 8) (fieldBv w 0 7))
  | 11 => accept w [(7, 8)] [] (.accRd (fieldBv w 15 8) (fieldBv w 0 7))
  | 12 => accept w [] [] (.accWr (fieldBv w 15 8) (fieldBv w 7 8) (fieldBv w 0 7))
  | 13 => accept w [] [] (.accSt (fieldBv w 15 8) (fieldBv w 7 8) (fieldBv w 0 7))
  | 14 => accept w [] [] (.accDrain (fieldBv w 15 8) (fieldBv w 7 8) (fieldBv w 0 7))
  | _ => accept w [(7, 8)] [] (.accMap (fieldBv w 15 8) (fieldBv w 0 7))

/-- Coprocessor functions 0x40 to 0x4F (03 Table 3.8). -/
def decodeTower (w func : Nat) : Except Unimplemented Instr :=
  match func with
  | 0 => accept w [] [] (.tmAdd (fieldBv w 15 8) (fieldBv w 7 8) (fieldBv w 0 7))
  | 1 => accept w [] [] (.tmMin (fieldBv w 15 8) (fieldBv w 7 8) (fieldBv w 0 7))
  | 2 => accept w [] [] (.tmMax (fieldBv w 15 8) (fieldBv w 7 8) (fieldBv w 0 7))
  | 3 => accept w [] [] (.tmCas (fieldBv w 15 8) (fieldBv w 7 8) (fieldBv w 0 7))
  | 4 => accept w [] [] (.tmSacc (fieldBv w 15 8) (fieldBv w 7 8) (fieldBv w 0 7))
  | _ => unassigned w

/-- Coprocessor functions 0x50 to 0x5F (03 Table 3.8). -/
def decodeCarousel (w func : Nat) : Except Unimplemented Instr :=
  match func with
  | 0 => accept w [] [] (.carAcq (fieldBv w 15 8) (fieldBv w 7 8) (fieldBv w 0 7))
  | 1 => accept w [(15, 8), (7, 8)] [] (.carRel (fieldBv w 0 7))
  | 2 => accept w [(7, 8)] [] (.carClr (fieldBv w 15 8) (fieldBv w 0 7))
  | 3 => accept w [(7, 8)] [] (.carCell (fieldBv w 15 8) (fieldBv w 0 7))
  | 4 => accept w [] [] (.carCol (fieldBv w 15 8) (fieldBv w 7 8) (fieldBv w 0 7))
  | 5 => accept w [(7, 8)] [] (.carDecide (fieldBv w 15 8) (fieldBv w 0 7))
  | 6 => accept w [] [] (.carProp (fieldBv w 15 8) (fieldBv w 7 8) (fieldBv w 0 7))
  | 7 => accept w [(7, 8)] [] (.carBack (fieldBv w 15 8) (fieldBv w 0 7))
  | 8 => accept w [] [] (.carLearn (fieldBv w 15 8) (fieldBv w 7 8) (fieldBv w 0 7))
  | 9 => accept w [(7, 8)] [] (.carTrail (fieldBv w 15 8) (fieldBv w 0 7))
  | 10 => accept w [(7, 8)] [] (.carVar (fieldBv w 15 8) (fieldBv w 0 7))
  | 11 => accept w [(15, 8), (7, 8)] [] (.carStat (fieldBv w 0 7))
  | _ => unassigned w

/-- The coprocessor functions (03 Table 3.8): the three high bits of the function select the class. -/
def decodeCoprocessor (w func : Nat) : Except Unimplemented Instr :=
  match func / 16 with
  | 0 => decodeCopy w (func % 16)
  | 2 => decodeOven w (func % 16)
  | 4 => decodeTower w (func % 16)
  | 5 => decodeCarousel w (func % 16)
  | _ => unassigned w

/-- The general opcodes (03 Table 3.7), by the high digit of the opcode byte; 0xC0 and above are coprocessor words. -/
def decodeNat (w : Nat) : Except Unimplemented Instr :=
  match w / 2 ^ 28 with
  | 0 => decodeControl w (w / 2 ^ 24 % 16)
  | 1 => decodeIntegerLow w (w / 2 ^ 24 % 16)
  | 2 => decodeIntegerHigh w (w / 2 ^ 24 % 16)
  | 3 => decodeLane w (w / 2 ^ 24 % 16)
  | 4 => decodeFloatLow w (w / 2 ^ 24 % 16)
  | 5 => decodeFloatHigh w (w / 2 ^ 24 % 16)
  | 6 => decodeMemoryLow w (w / 2 ^ 24 % 16)
  | 7 => decodeMemoryHigh w (w / 2 ^ 24 % 16)
  | 8 => decodeAtomic w (w / 2 ^ 24 % 16)
  | 9 => decodeSync w (w / 2 ^ 24 % 16)
  | 10 => decodeTask w (w / 2 ^ 24 % 16)
  | 11 => decodeSystem w (w / 2 ^ 24 % 16)
  | _ => decodeCoprocessor w (w / 2 ^ 23 % 128)

/-- The decoder. -/
def decode (w : BitVec 32) : Except Unimplemented Instr := decodeNat w.toNat

/-- The decoder on the four bytes of a word, lowest address first (03 R40). -/
def decodeBytes (bs : List (BitVec 8)) : Except Unimplemented Instr :=
  decode (BitVec.ofNat 32 (bs.foldr (fun b n => b.toNat + 256 * n) 0))

/-- The instruction that the decoder reads from a word whose bits are w (03 R39: every instruction is one word). -/
def decodeTableWord (nbits w : Nat) : Option Instr :=
  match decodeBytes ((List.range 4).map fun k => BitVec.ofNat 8 (w % 2 ^ nbits / 2 ^ (8 * k))) with
  | .ok i => some i
  | .error _ => none

/-! ## The encoder -/

/-- A word of the three-register, M or B format: op, and the fields at [23:16], [15:8], [7:0] (03 Table 3.1). -/
def word3 (op d a b : Nat) : BitVec 32 := BitVec.ofNat 32 (op * 2 ^ 24 + d * 2 ^ 16 + a * 2 ^ 8 + b)

/-- A word of the RI16 or B format: op, the field at [23:16], and a 16-bit immediate. -/
def wordI (op d imm : Nat) : BitVec 32 := BitVec.ofNat 32 (op * 2 ^ 24 + d * 2 ^ 16 + imm)

/-- A coprocessor word (12 R237). -/
def wordC (func a b rd : Nat) : BitVec 32 :=
  BitVec.ofNat 32 (3 * 2 ^ 30 + func * 2 ^ 23 + a * 2 ^ 15 + b * 2 ^ 7 + rd)

/-- The word of an instruction; an event has none. -/
def encode (i : Instr) : Option (BitVec 32) :=
  match i with
  | .nop => some (word3 0x01 0 0 0)
  | .mode d i => some (wordI 0x02 d.toNat i.toNat)
  | .rank d a => some (word3 0x03 d.toNat a.toNat 0)
  | .merge d i => some (wordI 0x04 d.toNat (i.toNat * 2))
  | .br i => some (wordI 0x05 0 i.toNat)
  | .bz c i => some (wordI 0x06 c.toNat i.toNat)
  | .bnz c i => some (wordI 0x07 c.toNat i.toNat)
  | .brd c i => some (wordI 0x08 c.toNat i.toNat)
  | .reconv => some (word3 0x09 0 0 0)
  | .call c i => some (wordI 0x0A c.toNat i.toNat)
  | .ret a => some (word3 0x0B 0 a.toNat 0)
  | .pset d a => some (word3 0x0C d.toNat a.toNat 0)
  | .pand d a b => some (word3 0x0D d.toNat a.toNat b.toNat)
  | .por d a b => some (word3 0x0E d.toNat a.toNat b.toNat)
  | .setix d a => some (word3 0x0F d.toNat a.toNat 0)
  | .add d a b => some (word3 0x10 d.toNat a.toNat b.toNat)
  | .sub d a b => some (word3 0x11 d.toNat a.toNat b.toNat)
  | .mul d a b => some (word3 0x12 d.toNat a.toNat b.toNat)
  | .mulh d a b => some (word3 0x13 d.toNat a.toNat b.toNat)
  | .div d a b => some (word3 0x14 d.toNat a.toNat b.toNat)
  | .rem d a b => some (word3 0x15 d.toNat a.toNat b.toNat)
  | .min d a b => some (word3 0x16 d.toNat a.toNat b.toNat)
  | .max d a b => some (word3 0x17 d.toNat a.toNat b.toNat)
  | .abs d a => some (word3 0x18 d.toNat a.toNat 0)
  | .neg d a => some (word3 0x19 d.toNat a.toNat 0)
  | .and d a b => some (word3 0x1A d.toNat a.toNat b.toNat)
  | .or d a b => some (word3 0x1B d.toNat a.toNat b.toNat)
  | .xor d a b => some (word3 0x1C d.toNat a.toNat b.toNat)
  | .not d a => some (word3 0x1D d.toNat a.toNat 0)
  | .shl d a b => some (word3 0x1E d.toNat a.toNat b.toNat)
  | .shr d a b => some (word3 0x1F d.toNat a.toNat b.toNat)
  | .sar d a b => some (word3 0x20 d.toNat a.toNat b.toNat)
  | .rot d a b => some (word3 0x21 d.toNat a.toNat b.toNat)
  | .popc d a => some (word3 0x22 d.toNat a.toNat 0)
  | .clz d a => some (word3 0x23 d.toNat a.toNat 0)
  | .bfx d a b => some (word3 0x24 d.toNat a.toNat b.toNat)
  | .bfi d a b => some (word3 0x25 d.toNat a.toNat b.toNat)
  | .cmpeq d a b => some (word3 0x26 d.toNat a.toNat b.toNat)
  | .cmpne d a b => some (word3 0x27 d.toNat a.toNat b.toNat)
  | .cmplt d a b => some (word3 0x28 d.toNat a.toNat b.toNat)
  | .cmple d a b => some (word3 0x29 d.toNat a.toNat b.toNat)
  | .sel d a b => some (word3 0x2A d.toNat a.toNat b.toNat)
  | .li d i => some (wordI 0x2B d.toNat i.toNat)
  | .lih d i => some (wordI 0x2C d.toNat i.toNat)
  | .mov d a => some (word3 0x2D d.toNat a.toNat 0)
  | .adda d a b => some (word3 0x2E d.toNat a.toNat b.toNat)
  | .suba d a b => some (word3 0x2F d.toNat a.toNat b.toNat)
  | .shfl d a b => some (word3 0x30 d.toNat a.toNat b.toNat)
  | .shflUp d a b => some (word3 0x31 d.toNat a.toNat b.toNat)
  | .shflDn d a b => some (word3 0x32 d.toNat a.toNat b.toNat)
  | .shflXor d a b => some (word3 0x33 d.toNat a.toNat b.toNat)
  | .bcast d a b => some (word3 0x34 d.toNat a.toNat b.toNat)
  | .voteAny d a => some (word3 0x35 d.toNat a.toNat 0)
  | .voteAll d a => some (word3 0x36 d.toNat a.toNat 0)
  | .voteBal d a => some (word3 0x37 d.toNat a.toNat 0)
  | .scanAdd d a b => some (word3 0x38 d.toNat a.toNat b.toNat)
  | .scanMax d a b => some (word3 0x39 d.toNat a.toNat b.toNat)
  | .reduceAdd d a => some (word3 0x3A d.toNat a.toNat 0)
  | .reduceMin d a => some (word3 0x3B d.toNat a.toNat 0)
  | .reduceMax d a => some (word3 0x3C d.toNat a.toNat 0)
  | .fadd d a b => some (word3 0x40 d.toNat a.toNat b.toNat)
  | .fsub d a b => some (word3 0x41 d.toNat a.toNat b.toNat)
  | .fmul d a b => some (word3 0x42 d.toNat a.toNat b.toNat)
  | .fma d a b => some (word3 0x43 d.toNat a.toNat b.toNat)
  | .fms d a b => some (word3 0x44 d.toNat a.toNat b.toNat)
  | .fdiv d a b => some (word3 0x45 d.toNat a.toNat b.toNat)
  | .fsqrt d a => some (word3 0x46 d.toNat a.toNat 0)
  | .frcp d a => some (word3 0x47 d.toNat a.toNat 0)
  | .frsq d a => some (word3 0x48 d.toNat a.toNat 0)
  | .fmin d a b => some (word3 0x49 d.toNat a.toNat b.toNat)
  | .fmax d a b => some (word3 0x4A d.toNat a.toNat b.toNat)
  | .fabs d a => some (word3 0x4B d.toNat a.toNat 0)
  | .fneg d a => some (word3 0x4C d.toNat a.toNat 0)
  | .fcmpeq d a b => some (word3 0x4D d.toNat a.toNat b.toNat)
  | .fcmplt d a b => some (word3 0x4E d.toNat a.toNat b.toNat)
  | .fcmple d a b => some (word3 0x4F d.toNat a.toNat b.toNat)
  | .fcmpun d a b => some (word3 0x50 d.toNat a.toNat b.toNat)
  | .cvtfi d a => some (word3 0x51 d.toNat a.toNat 0)
  | .cvtif d a => some (word3 0x52 d.toNat a.toNat 0)
  | .fwiden d a => some (word3 0x53 d.toNat a.toNat 0)
  | .fnarrow d a => some (word3 0x54 d.toNat a.toNat 0)
  | .fclass d a => some (word3 0x55 d.toNat a.toNat 0)
  | .quant d a b => some (word3 0x56 d.toNat a.toNat b.toNat)
  | .deq d a b => some (word3 0x57 d.toNat a.toNat b.toNat)
  | .tfence => some (word3 0x58 0 0 0)
  | .fflags d a => some (word3 0x59 d.toNat a.toNat 0)
  | .dadd d a b => some (word3 0x5A d.toNat a.toNat b.toNat)
  | .dsub d a b => some (word3 0x5B d.toNat a.toNat b.toNat)
  | .dmul d a b => some (word3 0x5C d.toNat a.toNat b.toNat)
  | .dfma d a b => some (word3 0x5D d.toNat a.toNat b.toNat)
  | .ddiv d a b => some (word3 0x5E d.toNat a.toNat b.toNat)
  | .dcvt d a b => some (word3 0x5F d.toNat a.toNat b.toNat)
  | .ldItype d x o => some (word3 0x60 d.toNat x.toNat o.toNat)
  | .ldFtype d x o => some (word3 0x61 d.toNat x.toNat o.toNat)
  | .stItype d x o => some (word3 0x62 d.toNat x.toNat o.toNat)
  | .stFtype d x o => some (word3 0x63 d.toNat x.toNat o.toNat)
  | .ldsItype d x o => some (word3 0x64 d.toNat x.toNat o.toNat)
  | .ldsFtype d x o => some (word3 0x65 d.toNat x.toNat o.toNat)
  | .stsItype d x o => some (word3 0x66 d.toNat x.toNat o.toNat)
  | .stsFtype d x o => some (word3 0x67 d.toNat x.toNat o.toNat)
  | .ldt d x o => some (word3 0x68 d.toNat x.toNat o.toNat)
  | .ldtTr8 d x o => some (word3 0x69 d.toNat x.toNat o.toNat)
  | .ldtTr16 d x o => some (word3 0x6A d.toNat x.toNat o.toNat)
  | .stt d x o => some (word3 0x6B d.toNat x.toNat o.toNat)
  | .xlt d a => some (word3 0x6C d.toNat a.toNat 0)
  | .xlinv d => some (word3 0x6D d.toNat 0 0)
  | .pref x o => some (word3 0x6E 0 x.toNat o.toNat)
  | .waitmem d x o => some (word3 0x6F d.toNat x.toNat o.toNat)
  | .discard x o => some (word3 0x70 0 x.toNat o.toNat)
  | .clean x o => some (word3 0x71 0 x.toNat o.toNat)
  | .invl1 x o => some (word3 0x72 0 x.toNat o.toNat)
  | .atomAdd d x o => some (word3 0x80 d.toNat x.toNat o.toNat)
  | .atomMin d x o => some (word3 0x81 d.toNat x.toNat o.toNat)
  | .atomMax d x o => some (word3 0x82 d.toNat x.toNat o.toNat)
  | .atomAnd d x o => some (word3 0x83 d.toNat x.toNat o.toNat)
  | .atomOr d x o => some (word3 0x84 d.toNat x.toNat o.toNat)
  | .atomXor d x o => some (word3 0x85 d.toNat x.toNat o.toNat)
  | .atomExch d x o => some (word3 0x86 d.toNat x.toNat o.toNat)
  | .atomCas d x o => some (word3 0x87 d.toNat x.toNat o.toNat)
  | .atomFadd d x o => some (word3 0x88 d.toNat x.toNat o.toNat)
  | .redAdd d x o => some (word3 0x89 d.toNat x.toNat o.toNat)
  | .redMin d x o => some (word3 0x8A d.toNat x.toNat o.toNat)
  | .redMax d x o => some (word3 0x8B d.toNat x.toNat o.toNat)
  | .redFadd d x o => some (word3 0x8C d.toNat x.toNat o.toNat)
  | .barInit a b => some (word3 0x90 0 a.toNat b.toNat)
  | .barArrive d a => some (word3 0x91 d.toNat a.toNat 0)
  | .barWait d a b => some (word3 0x92 d.toNat a.toNat b.toNat)
  | .barInval a => some (word3 0x93 0 a.toNat 0)
  | .barExpect a b => some (word3 0x94 0 a.toNat b.toNat)
  | .close d => some (word3 0x95 d.toNat 0 0)
  | .waitb d a b => some (word3 0x96 d.toNat a.toNat b.toNat)
  | .fence d a b => some (word3 0x97 d.toNat a.toNat b.toNat)
  | .acq => some (word3 0x98 0 0 0)
  | .rel => some (word3 0x99 0 0 0)
  | .acqRem d a b => some (word3 0x9A d.toNat a.toNat b.toNat)
  | .qsend d a b => some (word3 0x9B d.toNat a.toNat b.toNat)
  | .qrecv d a b => some (word3 0x9C d.toNat a.toNat b.toNat)
  | .qcredit d a b => some (word3 0x9D d.toNat a.toNat b.toNat)
  | .waitf d a b => some (word3 0x9E d.toNat a.toNat b.toNat)
  | .spawn d a b => some (word3 0xA0 d.toNat a.toNat b.toNat)
  | .fork d a b => some (word3 0xA1 d.toNat a.toNat b.toNat)
  | .join d b => some (word3 0xA2 d.toNat 0 b.toNat)
  | .tcbNew d a b => some (word3 0xA3 d.toNat a.toNat b.toNat)
  | .tcbSucc d a b => some (word3 0xA4 d.toNat a.toNat b.toNat)
  | .tcbSubmit d a => some (word3 0xA5 d.toNat a.toNat 0)
  | .tcbDone d a => some (word3 0xA6 d.toNat a.toNat 0)
  | .bintime d a b => some (word3 0xA7 d.toNat a.toNat b.toNat)
  | .yield d => some (word3 0xA8 d.toNat 0 0)
  | .exit a => some (word3 0xB0 0 a.toNat 0)
  | .trap a => some (word3 0xB1 0 a.toNat 0)
  | .tret a => some (word3 0xB2 0 a.toNat 0)
  | .beat => some (word3 0xB3 0 0 0)
  | .pidx d a => some (word3 0xB4 d.toNat a.toNat 0)
  | .modeRd d => some (word3 0xB5 d.toNat 0 0)
  | .modeWr a => some (word3 0xB6 0 a.toNat 0)
  | .winrd d a b => some (word3 0xB7 d.toNat a.toNat b.toNat)
  | .winwr d a b => some (word3 0xB8 d.toNat a.toNat b.toNat)
  | .sregRd d a => some (word3 0xB9 d.toNat a.toNat 0)
  | .sregWr a b => some (word3 0xBA 0 a.toNat b.toNat)
  | .shoot d a b => some (word3 0xBB d.toNat a.toNat b.toNat)
  | .snet a b => some (word3 0xBC 0 a.toNat b.toNat)
  | .clock d a => some (word3 0xBD d.toNat a.toNat 0)
  | .brk => some (word3 0xBE 0 0 0)
  | .halt a => some (word3 0xBF 0 a.toNat 0)
  | .copyVv a b r => some (wordC 0x00 a.toNat b.toNat r.toNat)
  | .copyVt a b r => some (wordC 0x01 a.toNat b.toNat r.toNat)
  | .copyTv a b r => some (wordC 0x02 a.toNat b.toNat r.toNat)
  | .copyTt a b r => some (wordC 0x03 a.toNat b.toNat r.toNat)
  | .copyMc a b r => some (wordC 0x04 a.toNat b.toNat r.toNat)
  | .copy2d a b r => some (wordC 0x05 a.toNat b.toNat r.toNat)
  | .copyGath a b r => some (wordC 0x06 a.toNat b.toNat r.toNat)
  | .copyFill a b r => some (wordC 0x07 a.toNat b.toNat r.toNat)
  | .copyOv a b r => some (wordC 0x08 a.toNat b.toNat r.toNat)
  | .xfTr a b r => some (wordC 0x09 a.toNat b.toNat r.toNat)
  | .xfPlane a b r => some (wordC 0x0A a.toNat b.toNat r.toNat)
  | .xfDeq a b r => some (wordC 0x0B a.toNat b.toNat r.toNat)
  | .dcmp a b r => some (wordC 0x0C a.toNat b.toNat r.toNat)
  | .copyStat a r => some (wordC 0x0D a.toNat 0 r.toNat)
  | .ovFmt a r => some (wordC 0x20 a.toNat 0 r.toNat)
  | .ovA a r => some (wordC 0x21 a.toNat 0 r.toNat)
  | .ovB a r => some (wordC 0x22 a.toNat 0 r.toNat)
  | .ovIdx a r => some (wordC 0x23 a.toNat 0 r.toNat)
  | .ovTile a b r => some (wordC 0x24 a.toNat b.toNat r.toNat)
  | .ovChain a b r => some (wordC 0x25 a.toNat b.toNat r.toNat)
  | .ovStat a r => some (wordC 0x26 a.toNat 0 r.toNat)
  | .ovToken a r => some (wordC 0x27 a.toNat 0 r.toNat)
  | .accAlloc a b r => some (wordC 0x28 a.toNat b.toNat r.toNat)
  | .accFree a r => some (wordC 0x29 a.toNat 0 r.toNat)
  | .accZero a r => some (wordC 0x2A a.toNat 0 r.toNat)
  | .accRd a r => some (wordC 0x2B a.toNat 0 r.toNat)
  | .accWr a b r => some (wordC 0x2C a.toNat b.toNat r.toNat)
  | .accSt a b r => some (wordC 0x2D a.toNat b.toNat r.toNat)
  | .accDrain a b r => some (wordC 0x2E a.toNat b.toNat r.toNat)
  | .accMap a r => some (wordC 0x2F a.toNat 0 r.toNat)
  | .tmAdd a b r => some (wordC 0x40 a.toNat b.toNat r.toNat)
  | .tmMin a b r => some (wordC 0x41 a.toNat b.toNat r.toNat)
  | .tmMax a b r => some (wordC 0x42 a.toNat b.toNat r.toNat)
  | .tmCas a b r => some (wordC 0x43 a.toNat b.toNat r.toNat)
  | .tmSacc a b r => some (wordC 0x44 a.toNat b.toNat r.toNat)
  | .carAcq a b r => some (wordC 0x50 a.toNat b.toNat r.toNat)
  | .carRel r => some (wordC 0x51 0 0 r.toNat)
  | .carClr a r => some (wordC 0x52 a.toNat 0 r.toNat)
  | .carCell a r => some (wordC 0x53 a.toNat 0 r.toNat)
  | .carCol a b r => some (wordC 0x54 a.toNat b.toNat r.toNat)
  | .carDecide a r => some (wordC 0x55 a.toNat 0 r.toNat)
  | .carProp a b r => some (wordC 0x56 a.toNat b.toNat r.toNat)
  | .carBack a r => some (wordC 0x57 a.toNat 0 r.toNat)
  | .carLearn a b r => some (wordC 0x58 a.toNat b.toNat r.toNat)
  | .carTrail a r => some (wordC 0x59 a.toNat 0 r.toNat)
  | .carVar a r => some (wordC 0x5A a.toNat 0 r.toNat)
  | .carStat r => some (wordC 0x5B 0 0 r.toNat)
  | .producerDelivers _ => none
  | .registerWaitExpired _ => none
  | .waitTimeout _ => none
  | .commandAccepted _ => none
  | .engineUnitMoved _ => none
  | .commandComplete _ => none
  | .ovenTurn _ _ => none
  | .tmLineOperation _ => none
  | .leaseExpired _ => none
  | .binTimerExpired _ _ => none
  | .watchdogExpired _ => none
  | .watchdogTrap _ => none
  | .turnstileAudit => none
  | .lostPermitTrap _ => none
  | .placement _ => none
  | .teamStart _ => none
  | .retirement _ => none
  | .eventRingAgeInterrupt _ => none
  | .preemption _ => none
  | .groupRestore _ => none
  | .backingStorePageIn _ _ => none
  | .eviction => none
  | .contextRemoval => none
  | .contextReturn => none
  | .shootdownComplete _ => none
  | .promotionComplete _ => none
  | .permitLands _ => none
  | .appendLands _ => none
  | .softErrorCorrected => none
  | .uncorrectableError => none
  | .overTemperature => none
  | .heatRefillHalved => none
  | .safetyNetUnfreeze => none
  | .rlfree _ _ => none
  | .deviceRegisterWrite => none
  | .debugResume => none
  | .coldReset => none
  | .warmReset => none
  | .standbySupplyLoss => none
  | .flashRecoveryWrite => none
  | .flashRecoveryCommit => none
  | .loadObject => none
  | .allocate => none
  | .write => none
  | .launch => none
  | .read => none
  | .attest => none
  | .packetDropped => none
  | .timeSync => none
  | .launchPacket => none
  | .gangStart _ => none
  | .gangSliceExpired _ => none
  | .portEnable => none
  | .portStateAdvance => none
  | .portStateLimit => none
  | .flitReplay => none
  | .laneLost => none
  | .unassignedOpcode w => some w
  | .storePerformed _ => none
  | .reductionRequestEnds _ => none
  | .spuriousFiring _ => none
  | .carouselCommandPerformed _ => none
  | .rangeBroughtIn _ => none
  | .fabricRequest => none
  | .connectionClosed => none

/-- The word of an instruction, or 0 for an event. -/
def wordOf? (i : Instr) : BitVec 32 := (encode i).getD 0

end Sys2Proof
end

