-- ==== Sys2Proof/Machine/State.lean ====
section
/-! DEFINITION. The state of the TS-L4812 as plain data: every register, memory, queue and mark that the spec names
(INVENTORY.md, State), the reasons a step can stop, and the state right after reset. -/

namespace Sys2Proof.Machine

/-- Bytes by address: addresses strictly rising, no entry 0x00, which is what an unlisted byte reads as (log 1). -/
abbrev Memory := List Host.Cell

/-! ## Register storage -/

/-- A thread crumb of a widened thread-rank name (04 R66, R72). Parents are given by the masks: masks of one name
are nested or disjoint, and the parent of a crumb is the smallest crumb that holds its mask, or the group copy. -/
structure Crumb where
  mask : DWord
  val : Word
  full : Bool
  /-- its entry in the team's crumb overflow area (R72); none: it lies in a lane slot. -/
  spill : Option Nat
  deriving DecidableEq, Repr

/-- The copies of one thread-rank name (04 R66): per-thread form, or widened form with crumbs. A predicate is held
as the word 0 or 1 and is always full (03 R51). -/
inductive Ranked where
  | perThread (vals : List (Word × Bool))
  | widened (val : Word) (full : Bool) (crumbs : List Crumb)
  deriving DecidableEq, Repr

/-- A group-rank copy with its full/empty bit (03 R51). -/
structure GCopy where
  val : Word
  full : Bool
  deriving DecidableEq, Repr

/-- A reconvergence entry (04 Table 4.5). -/
structure Recon where
  origin : DWord
  phase : Bool
  dpc : DWord
  dmask : DWord
  full : DWord
  deriving DecidableEq, Repr

/-- A translation register (07 Table 7.4). -/
structure XReg where
  vbase : BitVec 52
  frame : BitVec 48
  pgsz : BitVec 2
  v : Bool
  wok : Bool
  /-- The model's own: the leaf entry that XLT used, whose CP, DOM, CK and Z an access through the frame path has
  (07 R158). It is no part of the register's 128 bits. -/
  pte : DWord
  deriving DecidableEq, Repr

/-- What a group save image holds of a program (14 Table 14.3). -/
structure Arch where
  pc : DWord
  /-- The mode register (03 Table 3.4). -/
  mode : DWord
  /-- Threads not masked off (04 R90). -/
  mask : DWord
  /-- Sticky flags (06 Table 6.2). -/
  sticky : BitVec 6
  /-- ix1, ix2, ix3 (03 R49). -/
  ix : List Word
  /-- Progress index (14 R277). -/
  pidx : Word
  /-- EB, the escalation bit, and the consecutive timeouts of one object (09 R194). -/
  esc : Bool
  timeouts : Nat
  lastObj : DWord
  /-- Reconvergence stack, top first (04 R90). -/
  stack : List Recon
  xl : List XReg
  g : List GCopy
  t : List Ranked
  p : List Ranked
  /-- Lane snapshot of a lane instruction in progress (05 R108): what the values that it read give, word k of thread i's
  result at 64k + i and the sticky flags that it sets at 128 + i; empty when none is in progress. DESIGN CHOICE (log 46, safe). -/
  snap : List Word
  deriving DecidableEq, Repr

/-! ## Waits, traps and groups -/

/-- The object of a wait (09 Table 9.4, Table 9.9) with the values read at its first issue. -/
inductive WaitObj where
  /-- BAR.WAIT (arrived) or WAITF on the barrier word at an offset, until PHASE differs from the token (R204). -/
  | barrier (off : Nat) (token : Word) (arrived : Bool)
  /-- WAITB on the batch number n (R197). -/
  | batches (n : Word)
  /-- FENCE on classes of the group's work with identifiers below upTo (R198). -/
  | fence (classes : BitVec 8) (upTo : Nat)
  /-- ACQ.rem of a core, or of every core (R200), started as promotion k. -/
  | promote (core : Option Nat) (k : Nat)
  /-- QSEND of a message through a send entry (R209). -/
  | send (entry : Word) (msg : List Word)
  /-- QRECV from a queue (R210). -/
  | receive (queue : Word)
  /-- WAITMEM on a word, until it differs from the expected value (07 R171). -/
  | word (va : DWord) (xl : Nat) (off : Word) (expect : Word)
  /-- team MERGE of an m name (04 R79). -/
  | merge (m : Nat)
  /-- SHOOT of a page, as shootdown k (14 R291). -/
  | shoot (page : DWord) (k : Nat)
  /-- DISCARD of a page, until its shootdown k is complete (07 R173); it has no deadline and no result. -/
  | discard (page : DWord) (k : Nat)
  /-- JOIN, or FORK with STAY = 0 (20 R376, R377). -/
  | join
  | swap
  /-- ACC.DRAIN of a name over the commands that had entered the Oven when it issued (15 R321). -/
  | drain (name : Nat) (cmds : List Nat)
  /-- CAR.ACQ as Carousel command c (18 R342). -/
  | carAcq (c : Nat)
  /-- CAR.PROP as Carousel command c (18 R353). -/
  | carProp (c : Nat)
  /-- YIELD that stopped its team, until it is placed again (20 R378). -/
  | yielded
  deriving DecidableEq, Repr

/-- A pending wait (09 R191, R192). -/
structure Wait where
  obj : WaitObj
  /-- g registers that a timeout writes, with their values. -/
  onTimeout : List (Nat × Word)
  /-- first destination g register. -/
  dst : Nat
  /-- armed limit, and true for the wall clock. -/
  limit : Nat
  wall : Bool
  /-- a relative pair with TICKS = 0 (R194). -/
  poll : Bool
  /-- order in which waits began. -/
  began : Nat
  /-- the result, once the object is satisfied: what the g registers receive. -/
  result : Option (List (Nat × Word))
  deriving DecidableEq, Repr

/-- What a group does (14 Table 14.3, STATE; 04 R64). -/
inductive Phase where
  /-- placed, and its team's Proofer is at work (20 R370). -/
  | starting
  | ready
  | blocked
  | waiting
  /-- parked on a memory fault whose handling goes on outside the group (14 R410). -/
  | parked
  /-- a trap is pending and not yet delivered (14 R278). -/
  | trapPending
  /-- held by BRK under DEBUG (14 R285). -/
  | held
  | ended
  deriving DecidableEq, Repr

/-- Where a resident group is (01 R11, 04 R64). -/
structure Place where
  core : Nat
  lane : Nat
  slot : Nat
  deriving DecidableEq, Repr

/-- The unfinished accesses of an instruction that parked (07 R162, R163; 09 R185). -/
structure Replay where
  /-- threads still to do. -/
  unfin : DWord
  /-- the mode register and index registers at first issue. -/
  mode : DWord
  ix : List Word
  /-- each thread's virtual address, or team-memory offset. -/
  addrs : List (Nat × DWord)
  /-- operands read at first issue that are not read again (a tile descriptor under thread 0, atomic operands). -/
  held : List (Nat × List Word)
  deriving DecidableEq, Repr

/-- A write collected by the operand window (14 R288). -/
structure WindowWrite where
  /-- the register code after index registers, or 0x100 + n for predicate n. -/
  reg : Nat
  thread : Nat
  val : Word
  deriving DecidableEq, Repr

/-- Why a group's image lies in its core's emergency area (14 R276). -/
inductive SaveCause where
  /-- a trap was being taken. -/
  | trap
  /-- the group was being stopped, in a phase. -/
  | stop (was : Phase)
  /-- BRK under DEBUG held it (14 R285). -/
  | hold
  deriving DecidableEq, Repr

/-- A closed batch (09 R196). -/
structure Batch where
  num : Word
  cmds : List Nat
  reported : Bool
  deriving DecidableEq, Repr

/-- What the device keeps of a trap while its handler runs (14 R269, R286, R288). -/
structure Trapped where
  pc : DWord
  cause : Nat
  /-- context clock when the trap was taken. -/
  clk : Nat
  /-- slots d, a, b of the trapped instruction: the register code after index registers, or 0x100 + n for predicate n,
  and whether it is a pair; none for a slot without a register. -/
  slots : List (Option (Nat × Bool))
  deriving DecidableEq, Repr

structure Group where
  id : Nat
  team : Nat
  gix : Nat
  arch : Arch
  phase : Phase
  /-- none: its team is not placed. An ended group keeps the lane bytes of its place until its team retires. -/
  place : Option Place
  /-- its image has been written by a stop and not restored (14 R277). -/
  saved : Bool
  /-- context clock (09 R191). -/
  cclk : Nat
  /-- true: a handler runs, at supervisor level (14 R267, R269, STATE 5). -/
  super : Bool
  /-- armed limit of the blocking read in progress (03 R52). -/
  rwLimit : Option Nat
  /-- context clock and wall clock at the first issue of the instruction that blocks, from which a relative deadline
  counts (02 R36). -/
  firstIssue : Option (Nat × Nat)
  wait : Option Wait
  replay : Option Replay
  /-- the record of a trap that is pending and not delivered (14 R278), or of the fault on which the group is parked. -/
  pend : Option (List Byte)
  /-- the trap whose handler runs. -/
  trapped : Option Trapped
  /-- the wait of the trapped program (14 R271), the armed limit of its blocked read, its first issue, and the accesses that
  it has yet to replay (07 R163). -/
  keptWait : Option Wait
  keptLimit : Option Nat
  keptIssue : Option (Nat × Nat)
  keptReplay : Option Replay
  /-- the image lies in the core's emergency area (14 R276), and why. -/
  emergency : Option SaveCause
  /-- the write of its image faulted while the emergency area was in use: it waits for it (14 R276). -/
  stalled : Bool
  /-- The model's own: a stop of the group falls after its next issue, between the beats below this number and the others
  (of threads, of results or of rows), where that instruction has beats of both (14 R277). -/
  stopAt : Option Nat
  winWrites : List WindowWrite
  /-- the handler's own state while it is pre-empted (14 Table 14.3, HIMAGE). -/
  himage : Option Arch
  /-- crumbs of the saved image that stay in the team's crumb overflow area: t code, or 0x80 + n for predicate n
  (14 Table 14.3, CRUMBS). -/
  overflow : List (Nat × Crumb)
  /-- engine commands issued and not closed, in issue order (09 R196). -/
  opens : List Nat
  batches : List Batch
  nextBatch : Word
  /-- group crumbs of m0 to m31 (04 R73). -/
  mcrumbs : List (Option Word)
  /-- reported exit status and its record DETAIL (14 R284, R410). -/
  status : Word
  detail : Word
  /-- traps taken (20 Table 20.6). -/
  traps : Nat
  /-- identifiers below these are ordered before the group's later accesses: its loads by ACQ, its stores by REL
  (09 R199). -/
  acqFloor : Nat
  relFloor : Nat
  deriving DecidableEq, Repr

/-! ## Launch records, teams, tasks and contexts -/

/-- The fields of a launch record that outlive its check (20 Table 20.1). -/
structure LaunchRecord where
  entry : DWord
  teams : Nat
  groups : Nat
  width : Nat
  pair : Bool
  spawn : Bool
  event : Bool
  kargs : Nat
  rdepth : Nat
  tregs : Nat
  gregs : Nat
  mregs : Nat
  tmem : Nat
  image : DWord
  imlen : Nat
  bars : List (Nat × Nat)
  xforms : List (List Byte)
  ranges : List (DWord × DWord)
  queues : List (Nat × Nat × Nat × Nat)
  sends : List (Int × Nat × Nat)
  wdog : Nat
  binns : Nat
  core0 : Nat
  ncores : Nat
  kval : List Word
  deriving DecidableEq, Repr

/-- Tag state of a 16-byte team-memory line that is not untagged (09 R201, R208). -/
inductive Tag where
  | barrier
  | queue
  deriving DecidableEq, Repr

/-- A send entry (09 R208): target queue of the team with the given mix, and permits. -/
structure SendEntry where
  declared : Bool
  mix : Nat
  queue : Nat
  permits : Nat
  deriving DecidableEq, Repr

/-- A queue of the team: number, header offset, slots (09 R208). -/
structure QueueDecl where
  num : Nat
  hdr : Nat
  slots : Nat
  deriving DecidableEq, Repr

/-- An arrival at a team MERGE (04 R79). -/
structure Arrival where
  gid : Nat
  m : Nat
  pol : Nat
  f : Bool
  w : Bool
  /-- the holder's value: one word, or two for a pair. -/
  val : List Word
  mode : DWord
  stat : Nat
  deriving DecidableEq, Repr

/-- A child of a join set (20 R376): its TCB and its status once retired, or a failed submission. -/
structure Child where
  tcb : DWord
  done : Option Word
  /-- its submission failed, with this status: it is no member, and counts in the join result (20 R377). -/
  failed : Bool
  deriving DecidableEq, Repr

inductive TeamLife where
  /-- in a placement queue, never placed. -/
  | queued
  /-- placed; the Proofer writes its memory (12 R262). -/
  | proofing
  | running
  /-- being stopped: groups are saved one after another (14 R277). -/
  | stopping
  /-- away, in a placement queue. -/
  | stopped
  /-- swapped out by FORK until its children retire or the deadline passes (20 R376). -/
  | swapped
  /-- every group has ended; engine commands may still run (12 R253). -/
  | ended
  /-- gone, but for its send entries, which stay bound until its task retires (09 R208, R212). -/
  | retired
  deriving DecidableEq, Repr

structure Team where
  id : Nat
  ctx : Nat
  /-- address of the TCB; 0 for a spawned team. -/
  tcb : DWord
  tag : DWord
  mix : Nat
  launch : LaunchRecord
  life : TeamLife
  /-- after its stop the team goes to the tail of the new tier (20 R378, YIELD). -/
  yielding : Bool
  /-- after its stop the team waits for its join set or this deadline (20 R376). -/
  swapLimit : Option (Nat × Bool)
  /-- first package core it is or was placed on. -/
  core : Option Nat
  /-- the cores it has been placed on, newest first. -/
  homes : List Nat
  /-- the order in which teams were last placed (20 R383); 0 before the first placement. -/
  placed : Nat
  /-- virtual address of the team save area, from its placement on (14 R275). -/
  save : DWord
  mem : Memory
  /-- tagged lines by line number (offset / 16). -/
  tags : List (Nat × Tag)
  mcopies : List Word
  arrivals : List Arrival
  queues : List QueueDecl
  sends : List SendEntry
  joinSet : List Child
  wdog : Nat
  /-- a watchdog trap, and lost-permit traps, to take at the next boundary (14 R271): the DETAIL of each of the latter,
  oldest first. -/
  wdogTrap : Bool
  permitTraps : List DWord
  lapsed : Bool
  /-- arguments of a spawned team's threads (20 R372). -/
  spawnArgs : List Word
  /-- the Proofer's failure, if any: status and DETAIL (12 R262). -/
  proof : Option (Word × Word)
  tstart : Option Nat
  deriving DecidableEq, Repr

/-- A submitted task until it retires (20 R366). -/
structure Task where
  id : Nat
  ctx : Nat
  tcb : DWord
  tag : DWord
  launch : LaunchRecord
  /-- false: submitted, with predecessors that have not retired (20 R366). -/
  ready : Bool
  /-- ranges not yet resident (20 R366). -/
  pendingRanges : List (DWord × DWord)
  queued : Bool
  teamsLeft : Nat
  tstart : Option Nat
  /-- status source so far: mix, status, who, detail of the lowest failing team. -/
  worst : Option (Nat × Word × Word × Word)
  nfail : Nat
  traps : Nat
  deriving DecidableEq, Repr

structure Context where
  num : Nat
  root : DWord
  trapVec : DWord
  ctxSave : DWord
  /-- [0] DISCARD enable, [1] DEBUG (14 Table 14.6). -/
  flags : Word
  /-- occupied entries of the reduction fault log (09 R188, RLMAP). -/
  rlog : List Nat
  halted : Option Word
  removed : Bool
  /-- pages kept in the backing store: page address, page size code, leaf entry, bytes (07 R175). -/
  backing : List (DWord × Nat × DWord × Memory)
  deriving DecidableEq, Repr

/-! ## Engines -/

/-- Where a command's reply goes (03 Table 3.3). -/
inductive Reply where
  | none
  | t (n : Nat)
  | g (n : Nat)
  deriving DecidableEq, Repr

inductive CmdPhase where
  /-- waits for a COPY.OV to finish (12 R244). -/
  | dormant
  | issued
  | accepted
  /-- its last byte has landed or its check failed: it is about to complete (12 R250). -/
  | finishing
  | done
  deriving DecidableEq, Repr

/-- A destination of engine bytes. -/
inductive Dest where
  | va (a : DWord)
  | team (off : Nat)
  deriving DecidableEq, Repr

/-- One unit of a stream (12 R249): at most 64 bytes, with the bits of each byte that are written. -/
structure CopyUnit where
  stream : Nat
  off : Nat
  dest : Dest
  bytes : List Byte
  bits : List Byte
  deriving DecidableEq, Repr

/-- An engine command (12 R235, 15 R312, 16 R330, 18 R345). -/
structure Cmd where
  id : Nat
  gid : Nat
  team : Nat
  ctx : Nat
  cluster : Nat
  priv : Nat
  func : Nat
  a : DWord
  b : List Word
  reply : Reply
  scope : Nat
  use : Nat
  /-- Active at issue, for a thread-rank ACC.RD reply (15 R317). -/
  active : DWord
  phase : CmdPhase
  /-- the stream has been read and units made. -/
  started : Bool
  units : List CopyUnit
  /-- the status, sub-cause and progress that stand once the units are moved. -/
  status : Word
  sub : Word
  progress : Word
  /-- failed targets of COPY.MC (12 R243). -/
  failed : BitVec 16
  /-- captured accumulator banks (15 R302). -/
  banks : List Nat
  /-- next tile or line, and conditions so far (15 R308, R311). -/
  next : Nat
  cond : BitVec 6
  /-- values of the reply copies before the command (15 R296, 16 R334): thread or 0, value. -/
  held : List (Nat × Word)
  /-- the Oven command that follows a COPY.OV (12 R244). -/
  follow : Option Nat
  /-- setup read at issue by OV.FMT and OV.IDX (15 R305, R306), or the descriptor or job card that a copy-engine command
  read at acceptance (12 R236). -/
  block : List Byte
  /-- words of its job card that the acceptance of a DCMP has read: index, value (13 R264). -/
  card : List (Nat × Word)
  /-- the stream that a DCMP has read. -/
  source : List Byte
  /-- history window of a DCMP: its last output bytes, at most 65,536 (13 R266). -/
  window : List Byte
  /-- the reply has been written. -/
  replied : Bool
  deriving DecidableEq, Repr

/-- An operand format (15 Table 15.2). -/
structure OvenFormat where
  kind : Nat
  n : Nat
  k : Nat
  flags : Nat
  lb : Nat
  off : Nat
  scale : DWord
  spitch : Nat
  pitch : Nat
  pstride : Nat
  deriving DecidableEq, Repr

structure OvenQueue where
  num : Nat
  gid : Nat
  cmds : List Nat
  fmt : Option (OvenFormat × OvenFormat)
  aBase : Option DWord
  bBase : Option DWord
  idx : Option (List (BitVec 16))
  cond : BitVec 6
  /-- tiles that have waited on each stripe since binding (15 R319), and the stripes on which the head tile is counted. -/
  waited : List Nat
  counted : List Nat
  deriving DecidableEq, Repr

structure NameMap where
  team : Nat
  names : List (List Nat)
  deriving DecidableEq, Repr

structure Oven where
  queues : List OvenQueue
  last : Nat
  maps : List NameMap
  /-- draining banks: team, name, bank (15 R301). -/
  draining : List (Nat × Nat × Nat)
  /-- accumulator elements by bank * 1024 + row * 64 + column; an unlisted element is +0. -/
  acc : List (Nat × Word)
  /-- heat tokens of each stripe, in 1/64 tokens (15 R299). -/
  tokens : List Nat
  deriving DecidableEq, Repr

structure TrailEntry where
  var : Nat
  val : Bool
  level : Nat
  dec : Bool
  reason : Nat
  deriving DecidableEq, Repr

/-- A CAR.ACQ that waits (18 R342). -/
structure CarRequest where
  gid : Nat
  team : Nat
  lease : Nat
  began : Nat
  deriving DecidableEq, Repr

structure Carousel where
  holder : Option Nat
  /-- present cells: column, variable, positive. -/
  cells : List (Nat × Nat × Bool)
  used : List Nat
  trail : List TrailEntry
  level : Nat
  requests : List CarRequest
  lease : Nat
  /-- wall clock at which a running lease ends (18 R343). -/
  leaseEnd : Option Nat
  /-- commands not yet performed, in the Carousel's order (18 R356). -/
  order : List Nat
  deriving DecidableEq, Repr

structure Cluster where
  num : Nat
  /-- the group that the copy engine serves, and the bytes that it has moved in this turn (12 Table 12.1). -/
  turn : Nat × Nat
  oven : Oven
  car : Carousel
  deriving DecidableEq, Repr

/-- The part of a cluster's Oven that belongs to a removed context (15 R303): its queues, maps, draining banks and
accumulator elements. -/
structure SavedOven where
  ctx : Nat
  cluster : Nat
  oven : Oven
  deriving DecidableEq, Repr

/-! ## The Ringmaster, the Hearth and the package -/

structure Bin where
  ctx : Nat
  entry : DWord
  record : DWord
  launch : LaunchRecord
  args : List Word
  time : Nat
  timer : Option Nat
  counter : Nat
  /-- its first SPAWN has read its record (20 R361). -/
  read : Bool
  deriving DecidableEq, Repr

structure EventRing where
  base : Nat
  size : Nat
  head : Nat
  tail : Nat
  count : Nat
  age : Nat
  lost : Nat
  /-- times of the records not yet signalled. -/
  fresh : List Nat
  interrupts : Nat
  deriving DecidableEq, Repr

/-- A cached leaf translation (07 R152). -/
structure TlbEntry where
  ctx : Nat
  page : Nat
  pgsz : Nat
  pte : DWord
  deriving DecidableEq, Repr

structure Die where
  num : Nat
  resumed : List Nat
  fresh : List Nat
  /-- cores freed by a retirement since the queue was last served (20 R369). -/
  freed : List Nat
  bins : List Bin
  ring : EventRing
  tlb : List TlbEntry
  deriving DecidableEq, Repr

structure Core where
  num : Nat
  tlb : List TlbEntry
  /-- instruction words that the instruction cache may still hold: physical address, word (07 R154). -/
  icache : List (Nat × Word)
  /-- armed WAITMEM monitors: group, physical line (07 R172). -/
  monitors : List (Nat × Nat)
  emerg : DWord
  /-- the group whose image lies in the emergency area. -/
  emergUse : Option Nat
  deriving DecidableEq, Repr

/-- A byte address: physical, or an offset of a team's memory. -/
inductive Loc where
  | phys (a : Nat)
  | team (id off : Nat)
  deriving DecidableEq, Repr

/-- A store that has issued (10 R222). scope: 0 grp to 4 sys, the scope at which it must become performed. -/
structure PendingStore where
  id : Nat
  gid : Nat
  team : Nat
  core : Nat
  scope : Nat
  /-- CP and DOM of its page (07 Table 7.3); 0 for team memory. -/
  cp : Nat
  dom : Nat
  loc : Loc
  bytes : List Byte
  /-- the scope at which it is performed, when it is performed and not yet in memory for every agent. -/
  seenAt : Option Nat
  /-- held until the group's stores with identifiers below this are performed (09 R199, REL). -/
  relFloor : Nat
  /-- held until the group's loads with identifiers below this have delivered (09 R199, ACQ). -/
  acqFloor : Nat
  deriving DecidableEq, Repr

/-- A copy that a long-latency producer will write (03 R51). -/
inductive Target where
  | t (n thread : Nat)
  | g (n : Nat)
  deriving DecidableEq, Repr

/-- Where the bytes of a load come from: n bytes at a place, or bytes fixed at issue. -/
inductive Src where
  | at (loc : Loc) (n : Nat)
  | lit (bytes : List Byte)
  deriving DecidableEq, Repr

/-- What a producer will write (03 R51). -/
inductive Product where
  /-- values that are known. -/
  | values (writes : List (Target × Word))
  /-- a load: its targets (two for a pair), its source, and whether a short value is extended with its sign. -/
  | load (targets : List Target) (src : Src) (signed : Bool)
  /-- a tile load (07 R167): descriptor register, team-memory offset, pitch, element size, transposed, memory rows. -/
  | tile (reg soff spitch e : Nat) (tr : Bool) (rows : List (List Src))
  /-- a register that becomes full with its value unchanged (07 R169). -/
  | full (reg : Nat)
  deriving DecidableEq, Repr

/-- A load, atomic result or tile completion on its way to a group (03 R51, R54). -/
structure Delivery where
  id : Nat
  gid : Nat
  /-- true: the copies are the handler's own (14 R269). -/
  super : Bool
  /-- true: FENCE class 0 and ACQ wait for it; false for an atomic of use nonord (10 R223). -/
  fenced : Bool
  /-- held until the group's loads with identifiers below this have delivered (09 R199). -/
  acqFloor : Nat
  product : Product
  deriving DecidableEq, Repr

/-- A reduction request that has left the aggregator (09 R187, R189). -/
structure Reduction where
  id : Nat
  gid : Nat
  ctx : Nat
  va : DWord
  /-- the outcome of its checks from the walk onward: a fault's sub-cause, or its place with CP and DOM of the page. -/
  fault : Option Nat
  loc : Loc
  cp : Nat
  dom : Nat
  operand : DWord
  pc : DWord
  op : Nat
  ty : Nat
  /-- bytes of the location. -/
  width : Nat
  scope : Nat
  use : Nat
  who : Word
  deriving DecidableEq, Repr

/-- A shootdown in progress (07 R153). -/
structure Shootdown where
  id : Nat
  ctx : Nat
  va : DWord
  gid : Nat
  deriving DecidableEq, Repr

/-- A promotion in progress (09 R200). -/
structure Promotion where
  id : Nat
  gid : Nat
  /-- the stores that it performs at `dev`: those of the named cores that were performed at `grp` or `team`, or that a
  release at `team` or wider covered, when the ACQ.rem issued (10 R225). -/
  stores : List Nat
  deriving DecidableEq, Repr

/-- A message or a permit on its way (09 R211, R212). -/
structure Append where
  id : Nat
  gid : Nat
  team : Nat
  queue : Nat
  msg : List Word
  sender : Word
  /-- the sending team and its send entry, whose appends land in issue order (09 R209). -/
  fromTeam : Nat
  entry : Nat
  deriving DecidableEq, Repr

structure Permit where
  id : Nat
  team : Nat
  entry : Nat
  deriving DecidableEq, Repr

/-- A Safety Net entry (14 Table 14.4). -/
structure NetEntry where
  time : Nat
  seq : Nat
  kind : Nat
  src : Nat
  data : List Byte
  deriving DecidableEq, Repr

structure SafetyNet where
  ring : List NetEntry
  seq : Nat
  frozen : Bool
  lost : Nat
  deriving DecidableEq, Repr

inductive PortState where
  | off
  | light
  | lock
  | align
  | credit
  | up
  deriving DecidableEq, Repr

/-- A port of the scale-up fabric (22 R400 to R402). -/
structure FabricPort where
  state : PortState
  /-- wall clock at which the state was entered. -/
  since : Nat
  /-- lanes whose status bit is 1. -/
  lanes : BitVec 32
  /-- times of the replays in the last 1 ms. -/
  replays : List Nat
  deriving DecidableEq, Repr

inductive Boot where
  | reset
  | running
  | recovery
  deriving DecidableEq, Repr

/-- An on-package link or a virtual channel of the fabric with its flow-control credits (09 R212): port and channel, the
credits that the Hearth configured, and those that are free at the sender; the others are moving or held. -/
structure Link where
  port : Nat
  channel : Nat
  credits : Nat
  free : Nat
  moving : Nat
  deriving DecidableEq, Repr

/-- The configuration image's items (22 Table 22.6). -/
structure Config where
  package : Nat
  /-- destination package, channel, port, alternate (none: no alternate). -/
  routes : List (Nat × Nat × Nat × Option Nat)
  credits : List (Nat × Nat × Nat)
  period : Nat
  /-- heat-token refill in 1/64 tokens a cycle. -/
  refill : Nat
  leaseMax : Nat
  timePort : Nat
  version : Word
  deriving DecidableEq, Repr

/-- A reply of the Hearth service (22 Table 22.9). -/
structure HearthReply where
  /-- the port and connection of the request (22, Requests to the Hearth service). -/
  conn : Nat × Nat
  op : Nat
  ctx : Nat
  tag : DWord
  status : Word
  detail : Word
  body : List Byte
  deriving DecidableEq, Repr

/-- A launch whose reply waits for the task's retirement (22 R399). -/
structure LaunchWait where
  conn : Nat × Nat
  ctx : Nat
  tag : DWord
  tcb : DWord
  /-- replies to requests of the context that were performed later, and leave after this one (22 R398). -/
  after : List HearthReply
  deriving DecidableEq, Repr

/-- A rack launch packet whose task lives, with its gang state (20 R382, R383). -/
structure Gang where
  id : Nat
  pkt : DWord
  ctx : Nat
  tcb : DWord
  gang : Bool
  strict : Bool
  start : Nat
  slice : Nat
  /-- START has passed; all teams placed at this wall clock. -/
  placedAt : Option Nat
  late : Bool
  reported : Bool
  /-- SLICE has elapsed: the gang's teams that were placed before this (in the order of Team.placed) are stopped. -/
  sliced : Option Nat
  deriving DecidableEq, Repr

/-- A residency report (20 R382). -/
structure Report where
  pkt : DWord
  status : Word
  teams : Word
  time : DWord
  deriving DecidableEq, Repr

/-- What has arrived from outside the machine's own agents; each is performed by the row it names (INVENTORY.md,
Host interface). DESIGN CHOICE (log 98, safe). -/
inductive Input where
  | preemption (g : Nat)
  | groupRestore (g : Nat)
  | backingStorePageIn (ctx : Nat) (va : DWord)
  | eviction (ctx : Nat)
  | contextRemoval (ctx : Nat)
  | contextReturn (ctx : Nat)
  | softErrorCorrected (pa : DWord) (syndrome : BitVec 16) (store : Byte)
  | uncorrectableError (pa : DWord) (syndrome : BitVec 16) (store : Byte) (hit : List Nat)
  | overTemperature (sensor decidegrees : Word)
  | heatRefillHalved
  | safetyNetUnfreeze
  | deviceRegisterWrite (r : DeviceRegister) (v : DWord)
  | debugResume (g : Nat) (code : Word)
  | coldReset
  | warmReset
  | standbySupplyLoss
  | flashRecoveryWrite (conn : Nat × Nat) (tag va : DWord) (data : List Byte)
  | flashRecoveryCommit (conn : Nat × Nat) (tag : DWord) (data : List Byte)
  /-- a request of Table 22.3: OP 1 to 6. -/
  | request (conn : Nat × Nat) (op : Nat) (ctx : BitVec 16) (len : Word) (tag : DWord) (body : List Byte)
  | packetDropped (port : Nat)
  | timeSync (port : Nat) (ppm : Int) (step : Nat)
  | launchPacket (packet : List Byte)
  | portEnable (port : Nat)
  | portStateAdvance (port : Nat)
  | portStateLimit (port : Nat)
  | flitReplay (port : Nat)
  | laneLost (port lane : Nat)
  | spuriousFiring (g : Nat)
  | rangeBroughtIn (k : Nat)
  | fabricRequest (op : FabricOp) (pa : BitVec 48) (data : List Byte)
  | connectionClosed (conn : Nat × Nat)
  deriving DecidableEq, Repr

/-- A value that a write replaced (09 R186): the wall clock, the cluster in whose L2 it was performed (none: in memory), the
first byte, and the bytes that stood there. -/
structure Past where
  time : Nat
  cluster : Option Nat
  addr : Nat
  bytes : List Byte
  deriving DecidableEq, Repr

/-- The machine. -/
structure State where
  /-- The model's own: the group whose instruction a step executes. -/
  cur : Nat
  /-- The model's own: what has arrived from outside, oldest first. -/
  inputs : List Input
  /-- The model's own: the counter to which the free values of Sys2Proof.Config are applied. -/
  draw : Nat
  /-- The model's own: the next identifier; identifiers rise in issue order. -/
  nextId : Nat
  powered : Bool
  boot : Boot
  /-- wall clock in ns (09 R191), its rate correction in ppm and whether the first step is spent (22 R396). -/
  wall : Nat
  ppm : Int
  /-- the part of a ns that the rate correction has gained, in 1/1,000,000 ns. -/
  ppmRest : Nat
  stepped : Bool
  mem : Memory
  /-- What writes replaced in the last 1,000 ns, newest first (09 R186). -/
  past : List Past
  /-- Pages in the order of their last use, newest first: context, first address, size (07 R176). -/
  recent : List (Nat × Nat × Nat)
  /-- Translations that accesses have used since the page's last shootdown: context, page address, size, frame (07 R153). -/
  pageUses : List (Nat × Nat × Nat × Nat)
  /-- Sidecar lines that the Risers keep: frame, line (12 R254). -/
  risers : List (Nat × List Byte)
  /-- The model's own: shootdowns whose changes of saved images are still to be made in this step: context, address. -/
  shots : List (Nat × Nat)
  groups : List Group
  teams : List Team
  tasks : List Task
  contexts : List Context
  clusters : List Cluster
  savedOvens : List SavedOven
  dies : List Die
  cores : List Core
  cmds : List Cmd
  stores : List PendingStore
  deliveries : List Delivery
  reductions : List Reduction
  shootdowns : List Shootdown
  promotions : List Promotion
  appends : List Append
  permits : List Permit
  safety : SafetyNet
  serr : Word
  meas : List (BitVec 384)
  /-- package flash, each byte kept as its complement: an unlisted byte is erased, 0xFF (22 R405). -/
  flash : Memory
  /-- the recovery window has been erased since recovery began (22 R405). -/
  erased : Bool
  config : Config
  /-- the next leaf of the identity LMS key, and the end of the reserved leaves, which flash keeps (22 R407). -/
  leafNext : Nat
  leafEnd : Nat
  /-- physical memory that the Hearth service has given out: first byte, length. -/
  frames : List (Nat × Nat)
  /-- sidecar table bases of the 12 memory units (12 R254). -/
  sct : List Nat
  ports : List FabricPort
  /-- links and virtual channels with their credits (09 R212). -/
  links : List Link
  /-- drop counts of the Ultra Ethernet ports, and the open connections: port, number (22 R395). -/
  drops : List Nat
  connections : List (Nat × Nat)
  replies : List HearthReply
  launchWaits : List LaunchWait
  gangs : List Gang
  reports : List Report
  /-- responses sent on virtual channel 1 of the fabric (22 R400): the bytes read, or the old value. -/
  responses : List (List Byte)
  /-- interrupts and events raised to the Hearth (20 R380, 14 R285, R294). -/
  hearthEvents : Nat
  deriving DecidableEq, Repr

/-! ## Why a step can stop -/

/-- A fault of the model. -/
inductive Fault where
  /-- Raised by every instruction meaning when the current group does not exist: an instruction without a group that
  issues it. Safe: the device has no such step (01 R20). -/
  | noGroup
  /-- Raised by step when the package has cut its power (22 Table 22.8). Safe: nothing runs without power. -/
  | powerOff
  deriving DecidableEq, Repr

/-- A refusal of the model. -/
inductive Refusal where
  /-- Raised by exec for an instruction without a meaning. Safe. -/
  | notModelled (mnemonic : String)
  deriving DecidableEq, Repr

/-! ## Launch and reset values -/

/-- A thread-rank name at team start: widened, zero, full, no crumbs (04 R67). -/
def Ranked.zero : Ranked := .widened 0 true []

/-- A translation register at launch (07 Table 7.4). -/
def XReg.zero : XReg := ⟨0, 0, 0, false, false, 0⟩

/-- The launch value of the mode register (03 R44). -/
def launchMode : DWord := 0x00007FFF80012000#64

/-- The mask of the lowest n threads. -/
def lowMask (n : Nat) : DWord := BitVec.ofNat 64 (2 ^ n - 1)

/-- A program's state at team start (04 R67, 20 R370): pc at the entry, every name zero, every thread of the width. -/
def Arch.launch (entry : DWord) (width : Nat) : Arch where
  pc := entry
  mode := launchMode
  mask := lowMask width
  sticky := 0
  ix := [0, 0, 0]
  pidx := 0
  esc := false
  timeouts := 0
  lastObj := 0
  stack := []
  xl := List.replicate 8 XReg.zero
  g := List.replicate 64 ⟨0, true⟩
  t := List.replicate 128 Ranked.zero
  p := List.replicate 8 Ranked.zero
  snap := []

/-- The configuration before boot (09 R212, 15 Table 15.1, 18 Table 18.1 defaults; else log 13). -/
def Config.initial : Config where
  package := 0
  routes := []
  credits := []
  period := 50000
  refill := 64
  leaseMax := 1000000
  timePort := 0
  version := 0

/-- A fabric port at cold reset (22 R401). -/
def FabricPort.initial : FabricPort := ⟨.off, 0, BitVec.allOnes 32, []⟩

/-- The machine right after cold reset, before the boot ROM has run: no context, no team, nothing in memory.
DESIGN CHOICE (log 13, unsafe). -/
def State.reset : State where
  cur := 0
  inputs := []
  draw := 0
  nextId := 1
  powered := true
  boot := .reset
  wall := 0
  ppm := 0
  ppmRest := 0
  stepped := false
  mem := []
  past := []
  recent := []
  pageUses := []
  risers := []
  shots := []
  groups := []
  teams := []
  tasks := []
  contexts := []
  clusters := []
  savedOvens := []
  dies := []
  cores := []
  cmds := []
  stores := []
  deliveries := []
  reductions := []
  shootdowns := []
  promotions := []
  appends := []
  permits := []
  safety := ⟨[], 0, false, 0⟩
  serr := 0
  meas := List.replicate 8 0
  flash := []
  erased := false
  config := Config.initial
  leafNext := 0
  leafEnd := 0
  frames := []
  sct := List.replicate 12 0
  ports := List.replicate 16 FabricPort.initial
  links := []
  drops := [0, 0, 0, 0]
  connections := []
  replies := []
  launchWaits := []
  gangs := []
  reports := []
  responses := []
  hearthEvents := 0

end Sys2Proof.Machine
end

