-- ==== Sys2Proof/Machine/Look.lean ====
section
/-! DEFINITION. Finding and replacing the groups, teams and other objects of a state, and the draws of free values. -/

namespace Sys2Proof.Machine

def State.group? (s : State) (id : Nat) : Option Group := s.groups.find? (·.id == id)

def State.team? (s : State) (id : Nat) : Option Team := s.teams.find? (·.id == id)

def State.task? (s : State) (id : Nat) : Option Task := s.tasks.find? (·.id == id)

def State.context? (s : State) (num : Nat) : Option Context := s.contexts.find? (·.num == num)

def State.cmd? (s : State) (id : Nat) : Option Cmd := s.cmds.find? (·.id == id)

/-- Put a group in the place of the one with its identifier. -/
def State.putGroup (s : State) (g : Group) : State :=
  { s with groups := updateWhere (·.id == g.id) (fun _ => g) s.groups }

def State.putTeam (s : State) (t : Team) : State :=
  { s with teams := updateWhere (·.id == t.id) (fun _ => t) s.teams }

def State.putTask (s : State) (t : Task) : State :=
  { s with tasks := updateWhere (·.id == t.id) (fun _ => t) s.tasks }

def State.putContext (s : State) (c : Context) : State :=
  { s with contexts := updateWhere (·.num == c.num) (fun _ => c) s.contexts }

def State.putCmd (s : State) (c : Cmd) : State :=
  { s with cmds := updateWhere (·.id == c.id) (fun _ => c) s.cmds }

def State.onGroup (s : State) (id : Nat) (f : Group → Group) : State :=
  { s with groups := updateWhere (·.id == id) f s.groups }

def State.onTeam (s : State) (id : Nat) (f : Team → Team) : State :=
  { s with teams := updateWhere (·.id == id) f s.teams }

def State.onContext (s : State) (num : Nat) (f : Context → Context) : State :=
  { s with contexts := updateWhere (·.num == num) f s.contexts }

def State.onCmd (s : State) (id : Nat) (f : Cmd → Cmd) : State :=
  { s with cmds := updateWhere (·.id == id) f s.cmds }

/-- A team that is nowhere: what a lookup without a result stands for. -/
def LaunchRecord.none : LaunchRecord where
  entry := 0
  teams := 0
  groups := 0
  width := 16
  pair := false
  spawn := false
  event := false
  kargs := 0
  rdepth := 16
  tregs := 0
  gregs := 0
  mregs := 0
  tmem := 0
  image := 0
  imlen := 0
  bars := []
  xforms := []
  ranges := []
  queues := []
  sends := []
  wdog := 0
  binns := 0
  core0 := 0
  ncores := 0
  kval := []

def Team.none : Team where
  id := 0
  ctx := 0
  tcb := 0
  tag := 0
  mix := 0
  launch := LaunchRecord.none
  life := .queued
  yielding := false
  swapLimit := .none
  core := .none
  homes := []
  placed := 0
  save := 0
  mem := []
  tags := []
  mcopies := []
  arrivals := []
  queues := []
  sends := []
  joinSet := []
  wdog := 0
  wdogTrap := false
  permitTraps := []
  lapsed := false
  spawnArgs := []
  proof := .none
  tstart := .none

def Context.none : Context where
  num := 0
  root := 0
  trapVec := 0
  ctxSave := 0
  flags := 0
  rlog := []
  halted := .none
  removed := false
  backing := []

/-- A group that is nowhere. -/
def Group.nowhere : Group where
  id := 0
  team := 0
  gix := 0
  arch := Arch.launch 0 0
  phase := .ended
  place := .none
  saved := false
  cclk := 0
  super := false
  rwLimit := .none
  firstIssue := .none
  wait := .none
  replay := .none
  pend := .none
  trapped := .none
  keptWait := .none
  keptLimit := .none
  keptIssue := .none
  keptReplay := .none
  emergency := .none
  stalled := false
  stopAt := .none
  winWrites := []
  himage := .none
  overflow := []
  opens := []
  batches := []
  nextBatch := 1
  mcrumbs := []
  status := 0
  detail := 0
  traps := 0
  acqFloor := 0
  relFloor := 0

/-- The team of a group. -/
def State.teamOf (s : State) (g : Group) : Team := (s.team? g.team).getD Team.none

/-- The context of a team. -/
def State.contextOf (s : State) (t : Team) : Context := (s.context? t.ctx).getD Context.none

/-- A removed context: nothing of it runs (12 R253). -/
def State.stoppedCtx (s : State) (ctx : Nat) : Bool := (s.context? ctx).any (·.removed)

/-- The groups of a team, in gix order. -/
def State.groupsOf (s : State) (team : Nat) : List Group :=
  sortBy (·.gix) (s.groups.filter (·.team == team))

/-- Not ended (04 R79). -/
def Group.live (g : Group) : Bool := g.phase != .ended

/-- Resident, with its state in the core (04 R64). -/
def Group.here (g : Group) : Bool := g.place.isSome && !g.saved && g.live

/-- A queue of the Oven is bound until its group has ended and its commands have completed (15 R296). -/
def State.bound (s : State) (q : OvenQueue) : Bool := !q.cmds.isEmpty || (s.group? q.gid).any (·.live)

/-- The package core number of a group, or of the core its team was last on (01 R11). -/
def State.coreOf (s : State) (g : Group) : Nat :=
  match g.place with
  | some p => p.core
  | none => (s.teamOf g).core.getD 0

/-- Cluster and compute die of a core (01 R11). -/
def clusterOfCore (core : Nat) : Nat := core / 8

def dieOfCore (core : Nat) : Nat := core / 128

/-- The current level: user, or supervisor while the handler runs (14 R267). -/
def Group.priv (g : Group) : Nat := if g.super then 1 else 0

/-- A fresh identifier and the state after. DESIGN CHOICE (log 3, safe). -/
def State.fresh (s : State) : Nat × State := (s.nextId, { s with nextId := s.nextId + 1 })

/-- The next draw number and the state after (log 3). -/
def State.drawn (s : State) : Nat × State := (s.draw, { s with draw := s.draw + 1 })

/-- The core with a number; one that has not been used is empty (01 R11). -/
def State.coreRec (s : State) (n : Nat) : Core :=
  (s.cores.find? (·.num == n)).getD ⟨n, [], [], [], 0, none⟩

def State.putCore (s : State) (c : Core) : State :=
  if s.cores.any (·.num == c.num) then { s with cores := updateWhere (·.num == c.num) (fun _ => c) s.cores }
  else { s with cores := s.cores ++ [c] }

def EventRing.none : EventRing := ⟨0, 0, 0, 0, 0, 0, 0, [], 0⟩

def State.dieRec (s : State) (n : Nat) : Die :=
  (s.dies.find? (·.num == n)).getD ⟨n, [], [], [], [], EventRing.none, []⟩

def State.putDie (s : State) (d : Die) : State :=
  if s.dies.any (·.num == d.num) then { s with dies := updateWhere (·.num == d.num) (fun _ => d) s.dies }
  else { s with dies := s.dies ++ [d] }

/-- An Oven that nothing has used: full heat tokens, no queue, no bank held (15 Table 15.1, log 13). -/
def Oven.free : Oven := ⟨[], 0, [], [], [], List.replicate 4 262144⟩

/-- A Carousel that nobody holds (18 R339). -/
def Carousel.free : Carousel := ⟨none, [], [], [], 0, [], 0, none, []⟩

def State.clusterRec (s : State) (n : Nat) : Cluster :=
  (s.clusters.find? (·.num == n)).getD ⟨n, (0, 0), Oven.free, Carousel.free⟩

def State.putCluster (s : State) (c : Cluster) : State :=
  if s.clusters.any (·.num == c.num) then { s with clusters := updateWhere (·.num == c.num) (fun _ => c) s.clusters }
  else { s with clusters := s.clusters ++ [c] }

end Sys2Proof.Machine
end

