-- ==== Sys2Proof/Machine/Mem.lean ====
section
/-! DEFINITION. The byte store behind physical memory, team memory and the flash, in its canonical form (log 1). -/

namespace Sys2Proof.Machine

/-- Every address is at least lo, addresses rise, no entry is 0x00. -/
def Memory.wfFrom (lo : Nat) : Memory → Bool
  | [] => true
  | (a, b) :: rest => decide (lo ≤ a) && b != 0 && Memory.wfFrom (a + 1) rest

/-- The canonical form: addresses strictly rising, no entry equal to what an unlisted byte reads as. -/
def Memory.wf (m : Memory) : Bool := Memory.wfFrom 0 m

/-- The byte at an address; an unlisted byte reads 0x00 (log 1). DESIGN CHOICE (log 1, unsafe). -/
def Memory.get : Memory → Nat → Byte
  | [], _ => 0
  | (a, b) :: rest, k => if a = k then b else if k < a then 0 else Memory.get rest k

/-- Write one byte. Writing 0x00 removes the entry. -/
def Memory.set : Memory → Nat → Byte → Memory
  | [], k, v => if v = 0 then [] else [(k, v)]
  | (a, b) :: rest, k, v =>
    if k < a then (if v = 0 then (a, b) :: rest else (k, v) :: (a, b) :: rest)
    else if k = a then (if v = 0 then rest else (k, v) :: rest)
    else (a, b) :: Memory.set rest k v

/-- The n bytes from an address on. -/
def Memory.read (m : Memory) (a n : Nat) : List Byte :=
  let part := m.filter fun c => decide (a ≤ c.1) && decide (c.1 < a + n)
  (List.range n).map fun i => Memory.get part (a + i)

/-- Write bytes from an address on. -/
def Memory.write (m : Memory) (a : Nat) : List Byte → Memory
  | [] => m
  | b :: bs => Memory.write (m.set a b) (a + 1) bs

/-- Zero the n bytes from an address on. -/
def Memory.clear (m : Memory) (a n : Nat) : Memory :=
  m.filter fun c => decide (c.1 < a) || decide (a + n ≤ c.1)

/-- A little-endian value of n bytes. -/
def Memory.value (m : Memory) (a n : Nat) : Nat := ofBytes (m.read a n)

/-- The bytes written where the mask byte is not 0, bit by bit. -/
def mergeByte (old new mask : Byte) : Byte := (old &&& ~~~ mask) ||| (new &&& mask)

end Sys2Proof.Machine
end

