-- ==== Sys2Proof/Machine/Regs.lean ====
section
/-! DEFINITION. Ranked registers: which copy a thread reads (01 R17), full/empty bits (03 R51), and what each kind of
write does to the copies of a name (04 R69 to R73). -/

namespace Sys2Proof.Machine

/-- What a register field names once its index register has been applied (02 R29, 03 R43, R50). -/
inductive Operand where
  | t (n : Nat)
  | g (n : Nat)
  | m (n : Nat)
  | k (n : Nat)
  | zero
  | tix
  | gix
  | mix
  | lid
  | wid
  /-- a predicate, and whether it is inverted. -/
  | pred (n : Nat) (inv : Bool)
  /-- a slot that is unused, or holds a code of another kind. -/
  | none
  deriving DecidableEq, Repr

/-! ## Copies of a thread-rank name -/

/-- The smallest crumb that holds a thread. -/
def crumbAt (crumbs : List Crumb) (i : Nat) : Option Crumb :=
  leastBy (fun c => countMask c.mask) (crumbs.filter (inMask ·.mask i))

/-- The value and full bit of the copy that a thread reads (01 R17). -/
def Ranked.at (r : Ranked) (i : Nat) : Word × Bool :=
  match r with
  | .perThread vals => vals.getD i (0, true)
  | .widened v full crumbs =>
    match crumbAt crumbs i with
    | none => (v, full)
    | some c => (c.val, c.full)

/-- The depth of a crumb: its crumb ancestors, plus one (04 R72). -/
def depthOf (crumbs : List Crumb) (mask : DWord) : Nat :=
  (crumbs.filter fun c => subMask mask c.mask && c.mask != mask).length + 1

/-- Turn a name into per-thread form, each thread keeping what it resolves to (04 R71). -/
def Ranked.narrow (width : Nat) (r : Ranked) : Ranked :=
  .perThread ((List.range width).map r.at)

/-- Store values for the threads of W in per-thread form, each full. -/
def Ranked.store (width : Nat) (r : Ranked) (W : DWord) (val : Nat → Word) : Ranked :=
  .perThread ((List.range width).map fun i => if inMask W i then (val i, true) else r.at i)

/-- Free places for crumbs: how many lane slots, and which overflow entries (04 R72). -/
structure Room where
  lane : Nat
  area : List Nat
  deriving DecidableEq, Repr

/-- SplitWrite (04 R70, R72): a crumb for W under the deepest copy that contains it; in the overflow area it takes the
lowest free entry. DEDUCED (log 27, unsafe). DESIGN CHOICE (log 96, unsafe). -/
def Ranked.split (width : Nat) (room : Room) (W : DWord) (v : Word) (r : Ranked) : Ranked :=
  match r with
  | .perThread _ => r.store width W (fun _ => v)
  | .widened gv gf crumbs =>
    if crumbs.any (fun c => c.mask == W) then
      .widened gv gf (updateWhere (fun c => c.mask == W) (fun c => { c with val := v, full := true }) crumbs)
    else if crumbs.any (fun c => meets c.mask W && !subMask c.mask W && !subMask W c.mask) then
      r.store width W (fun _ => v)
    else
      let kept := crumbs.filter fun c => !subMask c.mask W
      let freed := crumbs.filter fun c => subMask c.mask W
      let lane := room.lane + (freed.filter (·.spill.isNone)).length
      if depthOf kept W < 5 && 0 < lane then .widened gv gf (kept ++ [⟨W, v, true, none⟩])
      else
        match leastBy id (freed.filterMap (·.spill) ++ room.area) with
        | some k => .widened gv gf (kept ++ [⟨W, v, true, some k⟩])
        | none => (Ranked.widened gv gf kept).store width W (fun _ => v)

/-- A write to a thread-rank name by the threads of W (04 R69 to R71). `uni`: every source resolves to a wider copy. -/
def Ranked.write (width : Nat) (room : Room) (uni : Bool) (W : DWord) (val : Nat → Word) (r : Ranked) : Ranked :=
  if W == 0 then r
  else if uni then
    if W == lowMask width then .widened (val 0) true []
    else r.split width room W (val ((threadsOf W).headD 0))
  else r.store width W val

/-- A long-latency producer marks the copies of the threads of W empty (03 R51, 04 R71). -/
def Ranked.markEmpty (width : Nat) (W : DWord) (r : Ranked) : Ranked :=
  if W == 0 then r
  else .perThread ((List.range width).map fun i => if inMask W i then ((r.at i).1, false) else r.at i)

/-- A producer's value lands in a thread's own copy. -/
def Ranked.land (i : Nat) (v : Word) (r : Ranked) : Ranked :=
  match r with
  | .perThread vals => .perThread (putAt vals i (0, true) (v, true))
  | .widened gv gf crumbs => .widened gv gf crumbs

/-- The name resolves, for every thread, to its group copy (04 R69). -/
def Ranked.uniform (r : Ranked) : Bool :=
  match r with
  | .perThread _ => false
  | .widened _ _ crumbs => crumbs.isEmpty

def Ranked.crumbs (r : Ranked) : List Crumb :=
  match r with
  | .perThread _ => []
  | .widened _ _ cs => cs

/-! ## Room for crumbs -/

/-- Every thread-rank name of a program's state. -/
def Arch.names (a : Arch) : List Ranked := a.t ++ a.p

/-- Lane slots that a program's crumbs take. -/
def Arch.laneCrumbs (a : Arch) : Nat := a.names.foldl (fun n r => n + (r.crumbs.filter (·.spill.isNone)).length) 0

/-- Overflow entries that a program's crumbs take. -/
def Arch.areaCrumbs (a : Arch) : List Nat := a.names.flatMap fun r => r.crumbs.filterMap (·.spill)

/-- Free lane slots and overflow entries for a group (04 R72). -/
def State.roomFor (s : State) (g : Group) : Room :=
  let here := s.groups.filter fun h =>
    match h.place, g.place with
    | some x, some y => x.core == y.core && x.lane == y.lane
    | _, _ => h.id == g.id
  let mates := s.groups.filter (·.team == g.team)
  let used := mates.flatMap fun h =>
    h.arch.areaCrumbs ++ ((h.himage.map (·.areaCrumbs)).getD []) ++ h.overflow.filterMap (·.2.spill)
  ⟨64 - here.foldl (fun n h => n + h.arch.laneCrumbs) 0, (List.range 64).filter fun k => !used.contains k⟩

/-! ## Reading and writing through operands -/

/-- What an instruction works with: the group and team as they stand before it, its operands and its threads. -/
structure Ctx where
  /-- the instruction word. -/
  word : Word
  g : Group
  tm : Team
  /-- the mode register at first issue (03 R46). -/
  mode : DWord
  width : Nat
  /-- Active (02 R38), or the unfinished threads of a replay (07 R163). -/
  active : DWord
  d : Operand
  a : Operand
  b : Operand
  room : Room
  deriving DecidableEq, Repr

def Ctx.full (c : Ctx) : DWord := lowMask c.width

/-- The copy of a 32-bit operand that thread i reads, with its full bit (01 R17, 02 R38). DEDUCED (log 15, unsafe). -/
def Ctx.copy (c : Ctx) (o : Operand) (i : Nat) : Word × Bool :=
  match o with
  | .t n => (c.g.arch.t.getD n Ranked.zero).at i
  | .g n => let r := c.g.arch.g.getD n ⟨0, true⟩; (r.val, r.full)
  | .m n =>
    match c.g.mcrumbs.getD n none with
    | some v => (v, true)
    | none => (c.tm.mcopies.getD n 0, true)
  | .k n => (c.tm.launch.kval.getD n 0, true)
  | .zero => (0, true)
  | .tix => (wordOf i, true)
  | .gix => (wordOf c.g.gix, true)
  | .mix => (wordOf c.tm.mix, true)
  | .lid => (wordOf ((c.g.place.map (·.lane)).getD 0), true)
  | .wid => (wordOf c.width, true)
  | .pred n inv =>
    let v := ((c.g.arch.p.getD n Ranked.zero).at i).1
    (if (v != 0) != inv then 1 else 0, true)
  | .none => (0, true)

def Ctx.read (c : Ctx) (o : Operand) (i : Nat) : Word := (c.copy o i).1

/-- The register n places above an operand (01 R13). -/
def Operand.above (o : Operand) (n : Nat) : Operand :=
  match o with
  | .t j => .t (j + n)
  | .g j => .g (j + n)
  | .m j => .m (j + n)
  | .k j => .k (j + n)
  | _ => .none

/-- The halves of an m pair: the group's crumbs where it has both, else the team copy, so that both come from the same
copy (04 R73). DEDUCED (log 15, unsafe). -/
def Ctx.mPair (c : Ctx) (n : Nat) : Word × Word :=
  match c.g.mcrumbs.getD n none, c.g.mcrumbs.getD (n + 1) none with
  | some lo, some hi => (lo, hi)
  | _, _ => (c.tm.mcopies.getD n 0, c.tm.mcopies.getD (n + 1) 0)

/-- A 64-bit source: a register pair, or a special extended with zeros (05 R95), which every special is, where R30 would
refuse one other than `zero`. DEDUCED (log 102, unsafe). -/
def Ctx.readPair (c : Ctx) (o : Operand) (i : Nat) : Nat :=
  match o with
  | .m n => pairOf (c.mPair n).1 (c.mPair n).2
  | .t _ | .g _ | .k _ => pairOf (c.read o i) (c.read (o.above 1) i)
  | _ => (c.read o i).toNat

/-- The words of an operand of one register, or of a pair. -/
def Ctx.readWords (c : Ctx) (o : Operand) (n i : Nat) : List Word :=
  if n < 2 then [c.read o i] else pairWords (c.readPair o i)

/-- A source of w bits, at most 64, as an unsigned number (05 R95). -/
def Ctx.readBits (c : Ctx) (o : Operand) (w : Nat) (i : Nat) : Nat :=
  if w = 64 then c.readPair o i else (c.read o i).toNat % 2 ^ w

/-- The operand is not of thread rank (02 Table 2.3). -/
def Operand.isUniform (o : Operand) : Bool :=
  match o with
  | .t _ | .tix | .pred _ _ => false
  | _ => true

/-- The operand resolves, for every thread, to a wider copy (04 R69). -/
def Ctx.resolvesUniform (c : Ctx) (o : Operand) : Bool :=
  match o with
  | .t n => (c.g.arch.t.getD n Ranked.zero).uniform
  | .tix => false
  | .pred n _ => (c.g.arch.p.getD n Ranked.zero).uniform
  | _ => true

/-- The same for a 64-bit operand. -/
def Ctx.resolvesUniformW (c : Ctx) (o : Operand) (w : Nat) : Bool :=
  if w = 64 then c.resolvesUniform o && c.resolvesUniform (o.above 1) else c.resolvesUniform o

def Group.onArch (g : Group) (f : Arch → Arch) : Group := { g with arch := f g.arch }

def Arch.setG (a : Arch) (n : Nat) (v : Word) : Arch := { a with g := putAt a.g n ⟨0, true⟩ ⟨v, true⟩ }

/-- Change whether a g register is full (03 R51). -/
def Arch.setFull (a : Arch) (n : Nat) (full : Bool) : Arch :=
  { a with g := putAt a.g n ⟨0, true⟩ { a.g.getD n ⟨0, true⟩ with full := full } }

def Arch.onT (a : Arch) (n : Nat) (f : Ranked → Ranked) : Arch :=
  { a with t := putAt a.t n Ranked.zero (f (a.t.getD n Ranked.zero)) }

def Arch.onP (a : Arch) (n : Nat) (f : Ranked → Ranked) : Arch :=
  { a with p := putAt a.p n Ranked.zero (f (a.p.getD n Ranked.zero)) }

/-- Write the group crumb of an m name (04 R73). -/
def Group.setM (g : Group) (n : Nat) (v : Word) : Group := { g with mcrumbs := putAt g.mcrumbs n none (some v) }

/-- Write one 32-bit register by the threads of Active (04 R69 to R73, 03 R42). -/
def Ctx.write1 (c : Ctx) (o : Operand) (uni : Bool) (val : Nat → Word) (g : Group) : Group :=
  match o with
  | .t n => g.onArch (·.onT n (Ranked.write c.width c.room uni c.active val))
  | .pred n _ => g.onArch (·.onP n (Ranked.write c.width c.room uni c.active val))
  | .g n => g.onArch (·.setG n (val 0))
  | .m n => g.setM n (val 0)
  | _ => g

/-- The room for crumbs that is left after a write. -/
def Ctx.roomAfter (c : Ctx) (before after : Group) : Ctx :=
  { c with room :=
      ⟨c.room.lane + before.arch.laneCrumbs - after.arch.laneCrumbs,
       (before.arch.areaCrumbs ++ c.room.area).filter fun k => !after.arch.areaCrumbs.contains k⟩ }

/-- Write a result of one word, or of two for a pair. -/
def Ctx.write (c : Ctx) (o : Operand) (uni : Bool) (val : Nat → List Word) (g : Group) : Group :=
  let one := c.write1 o uni (fun i => (val i).headD 0) g
  if (val 0).length < 2 then one
  else (c.roomAfter g one).write1 (o.above 1) uni (fun i => ((val i).drop 1).headD 0) one

/-- Write consecutive g registers, each full. -/
def Group.setGs (g : Group) (n : Nat) (vals : List Word) : Group :=
  { g with arch := (vals.zipIdx).foldl (fun (a : Arch) x => a.setG (n + x.2) x.1) g.arch }

/-- A g destination that may be `zero`, whose writes are discarded (03 R42). -/
def Group.setGOperand (g : Group) (o : Operand) (vals : List Word) : Group :=
  match o with
  | .g n => g.setGs n vals
  | _ => g

/-- The value of g register n of the current program. -/
def Group.gval (g : Group) (n : Nat) : Word := (g.arch.g.getD n ⟨0, true⟩).val

end Sys2Proof.Machine
end

