-- ==== Sys2Proof/Machine/Translate.lean ====
section
/-! DEFINITION. Translation of virtual addresses: the physical map, page tables, TLBs and the checks of an access
(07 R145 to R152, R160). -/

namespace Sys2Proof.Machine

/-- What an access needs of its page (07 R150). -/
inductive Need where
  | read
  | write
  | fetch
  /-- as a store, of which no byte is written: DISCARD (07 R173). -/
  | drop
  deriving DecidableEq, Repr

/-- The access needs the page to be writable. -/
def Need.writes (n : Need) : Bool := n == .write || n == .drop

/-- A memory fault: sub-cause of 07 Table 7.5, the level at which the walk stopped or 0xFF, the deciding entry. -/
structure MFault where
  sub : Nat
  level : Nat
  pte : Nat
  deriving DecidableEq, Repr

def MFault.plain (sub : Nat) : MFault := ⟨sub, 0xFF, 0⟩

/-! ## The physical map -/

/-- An address of tower memory or of an HBM stack, below the fabric window (07 Table 7.2). -/
def localMemory (pa : Nat) : Bool :=
  decide (pa < 0x400000000) ||
  (decide (0x1000000000 ≤ pa) && decide (pa < 0x9000000000) && decide (pa % 0x1000000000 < 0xB2D050000))

/-- An address that levels below monitor may reach (07 R145). -/
def reachable (pa : Nat) : Bool :=
  if pa < 0x800000000000 then localMemory pa else localMemory (pa % 0x10000000000)

/-- This package's own addresses, seen through the fabric window, are its own memory (07 Table 7.2).
DEDUCED (log 29, unsafe). -/
def State.homePa (s : State) (pa : Nat) : Nat :=
  if 0x800000000000 ≤ pa ∧ bits pa 40 7 = s.config.package then pa % 0x10000000000 else pa

/-! ## Writes to physical memory -/

/-- The armed monitors that a write to n bytes leaves armed: it fires those of the lines it touches, and a monitor that
has fired is gone (07 R172). -/
def Core.written (a n : Nat) (c : Core) : Core :=
  { c with monitors := c.monitors.filter fun m => decide (m.2 * 64 + 64 ≤ a) || decide (a + n ≤ m.2 * 64) }

/-- Fire the monitors of n bytes. -/
def State.written (s : State) (a n : Nat) : State := { s with cores := s.cores.map (Core.written a n) }

/-- Write bytes to physical memory: what they replace stays known for a while (09 R186), and monitors fire. -/
def State.writePhys (s : State) (a : Nat) (bs : List Byte) : State :=
  { s.written a bs.length with past := ⟨s.wall, none, a, s.mem.read a bs.length⟩ :: s.past, mem := s.mem.write a bs }

/-! ## Page-table entries (07 Table 7.3) -/

def Pte.v (e : Nat) : Bool := bitAt e 0
def Pte.leaf (e : Nat) : Bool := bitAt e 2
def Pte.u (e : Nat) : Bool := bitAt e 3
def Pte.w (e : Nat) : Bool := bitAt e 4
def Pte.x (e : Nat) : Bool := bitAt e 5
def Pte.d (e : Nat) : Bool := bitAt e 7
def Pte.z (e : Nat) : Bool := bitAt e 8
def Pte.frame (e : Nat) : Nat := bits e 12 36 * 4096
def Pte.dom (e : Nat) : Nat := bits e 49 2
def Pte.cp (e : Nat) : Nat := bits e 51 2
def Pte.ck (e : Nat) : Nat := bits e 53 3

/-- Bytes that a leaf at a level maps (07 R146); a size code is the level. -/
def pageSize (level : Nat) : Nat := 0x10000 * 2 ^ (9 * level)

/-- The entry is malformed at this level (07 R147, R148). -/
def Pte.malformed (e level : Nat) : Bool :=
  if Pte.leaf e then
    bits e 56 8 != 0 || bitAt e 48 || bits e 9 3 != 0 || bitAt e 1 || decide (4 ≤ Pte.ck e) || Pte.dom e == 3 ||
    level == 3 || Pte.frame e % pageSize level != 0 || (Pte.w e && Pte.x e) ||
    (Pte.ck e != 0 && (Pte.w e || level != 0)) || (decide (0x800000000000 ≤ Pte.frame e) && Pte.dom e != 1)
  else
    level == 0 || bits e 48 16 != 0 || bits e 3 9 != 0 || bitAt e 1 || decide (0x800000000000 ≤ Pte.frame e)

/-- A leaf that a walk found: its entry, the entry's address, and its level. -/
structure Leaf where
  pte : Nat
  addr : Nat
  level : Nat
  deriving DecidableEq, Repr

/-- The walk from a level's table down (07 R146, R160). A table in a range that Table 7.2 marks none, or in a device's window,
which the spec leaves open, reads as zeros: not present. DESIGN CHOICE (log 124, unsafe). -/
def walkFrom (mem : Memory) (va : Nat) : Nat → Nat → Except MFault Leaf
  | level, table =>
    let addr := table + 8 * bits va (16 + 9 * level) 9
    let e := mem.value addr 8
    if !Pte.v e then .error ⟨0x00, level, e⟩
    else if Pte.malformed e level then .error ⟨0x04, level, e⟩
    else if Pte.leaf e then .ok ⟨e, addr, level⟩
    else
      match level with
      | 0 => .error ⟨0x04, 0, e⟩
      | n + 1 => walkFrom mem va n (Pte.frame e)

def State.rootOf (s : State) (ctx : Nat) : Nat := match s.context? ctx with
  | some c => c.root.toNat
  | none => 0

/-- The current leaf of a virtual address in a context. DEDUCED (log 17, safe). -/
def State.walk (s : State) (ctx va : Nat) : Except MFault Leaf := walkFrom s.mem va 3 (s.rootOf ctx)

/-- Every byte of a page's frame can be reached: a page is aligned to its size, so that one whose ends lie in local
memory lies in it whole (07 R145). -/
def frameReachable (frame size : Nat) : Bool := reachable frame && reachable (frame + size - 1)

/-- The leaf allows the access at a level, and its frame can be reached (07 R150, R160). -/
def Leaf.check (l : Leaf) (priv : Nat) (need : Need) : Option MFault :=
  if priv = 0 ∧ !Pte.u l.pte then some ⟨0x03, l.level, l.pte⟩
  else if need.writes ∧ !Pte.w l.pte then some ⟨0x01, l.level, l.pte⟩
  else if need = Need.fetch ∧ !Pte.x l.pte then some ⟨0x02, l.level, l.pte⟩
  else if !frameReachable (Pte.frame l.pte) (pageSize l.level) then some ⟨0x0B, l.level, l.pte⟩
  else none

/-- The frame lies in another package, and no route for requests (channel 0) leads there through a port in state UP: such a port
carries no flit (22 R401), and the access ends as one whose route is lost does (22 R402). DESIGN CHOICE (log 135, unsafe). -/
def State.routeLost (s : State) (pa : Nat) : Bool :=
  decide (0x800000000000 ≤ s.homePa pa) && !s.config.routes.any fun r =>
    r.1 == bits pa 40 7 && r.2.1 == 0 && (s.ports[r.2.2.1]?).any fun p => p.state == .up

/-- The check of a leaf by an access of this package. -/
def State.leafFault (s : State) (l : Leaf) (priv : Nat) (need : Need) : Option MFault :=
  match l.check priv need with
  | some f => some f
  | none => if s.routeLost (Pte.frame l.pte) then some ⟨0x0B, l.level, l.pte⟩ else none

/-! ## TLBs -/

def TlbEntry.covers (e : TlbEntry) (ctx va : Nat) : Bool :=
  e.ctx == ctx && va / pageSize e.pgsz == e.page

/-- Drop the entries of a context whose virtual page contains an address (07 R153). -/
def dropTlb (ctx va : Nat) (l : List TlbEntry) : List TlbEntry := l.filter fun e => !e.covers ctx va

/-- Keep an entry in a TLB of a number of places, the oldest leaving first (07 R152). -/
def keepTlb (places : Nat) (e : TlbEntry) (l : List TlbEntry) : List TlbEntry :=
  if l.contains e then l
  else (e :: l.filter fun x => !(x.ctx == e.ctx && x.page == e.page && x.pgsz == e.pgsz)).take places

/-- A cached translation that differs from the current leaf: what an access may still use until a shootdown (07 R153),
and where only A or D differ, what it uses without a walk that would set them (R149). -/
def staleEntry (tlb : List TlbEntry) (ctx va : Nat) (now : Except MFault Leaf) : Option TlbEntry :=
  tlb.find? fun e => e.covers ctx va &&
    match now with
    | .error _ => true
    | .ok l => !(l.level == e.pgsz && l.pte == e.pte.toNat)

/-- Set A, and D for a write, in a leaf entry (07 R149). -/
def State.markLeaf (s : State) (l : Leaf) (write : Bool) : State :=
  let e := putBits (if write then putBits l.pte 7 1 1 else l.pte) 6 1 1
  if e = l.pte then s else s.writePhys l.addr (bytesOf 8 e)

/-- Where an access goes: its physical address, and the leaf used. -/
structure Hit where
  pa : Nat
  pte : Nat
  level : Nat
  deriving DecidableEq, Repr

/-- The page of an address was used: it is the newest in the order of last use (07 R176), and its frame is one that a
shootdown of the page must wait for (R153). -/
def State.used (s : State) (ctx va level frame : Nat) : State :=
  let page := (ctx, va / pageSize level * pageSize level, pageSize level)
  let use := (page.1, page.2.1, page.2.2, s.homePa frame)
  { s with
    recent := if s.recent.head? = some page then s.recent else page :: s.recent.filter (· != page)
    pageUses := if s.pageUses.contains use then s.pageUses else use :: s.pageUses }

/-- The sidecar line of a frame as memory holds it: SCT(u) + 256 x the frame's number in its memory unit (12 R254). Units:
tower memory 0 to 3, HBM stacks 0 to 7. -/
def memoryUnit (pa : Nat) : Nat × Nat :=
  if pa < 0x400000000 then (pa / 0x100000000, pa / 0x100000000 * 0x100000000)
  else (4 + (pa / 0x1000000000 - 1), pa / 0x1000000000 * 0x1000000000)

def State.storedSidecar (s : State) (frame : Nat) : List Byte :=
  let u := memoryUnit frame
  s.mem.read (s.sct.getD u.1 0 + 256 * ((frame - u.2) / 0x10000)) 256

/-- The sidecar line of a frame: the one that its Riser keeps, or memory's. -/
def State.sidecar (s : State) (frame : Nat) : List Byte :=
  match s.risers.find? (·.1 == frame) with
  | some x => x.2
  | none => s.storedSidecar frame

/-- A page is accessed: with CK its Riser fetches and keeps its sidecar line (12 R254). -/
def State.fetchSidecar (s : State) (pte : Nat) : State :=
  let frame := s.homePa (Pte.frame pte)
  if Pte.ck pte = 0 ∨ s.risers.any (·.1 == frame) then s
  else { s with risers := (frame, s.storedSidecar frame) :: s.risers }

/-- The Risers drop the lines of frames: each given by its first byte and size (12 R257). -/
def dropRisers (frames : List (Nat × Nat)) (l : List (Nat × List Byte)) : List (Nat × List Byte) :=
  l.filter fun x => !frames.any fun f => decide (f.1 ≤ x.1) && decide (x.1 < f.1 + f.2)

/-! ## Shootdown (07 R153) -/

/-- Drop what an instruction cache holds of a frame. -/
def dropLines (frame size : Nat) (l : List (Nat × Word)) : List (Nat × Word) :=
  l.filter fun x => decide (x.1 < frame) || decide (frame + size ≤ x.1)

/-- A translation register after a shootdown of an address. -/
def XReg.shot (va : Nat) (x : XReg) : XReg :=
  if x.v && x.vbase.toNat / pageSize x.pgsz.toNat == va / pageSize x.pgsz.toNat then { x with v := false } else x

def Arch.shot (va : Nat) (a : Arch) : Arch := { a with xl := a.xl.map (XReg.shot va) }

/-- The page that a use names holds an address of a context. -/
def usesPage (ctx va : Nat) (u : Nat × Nat × Nat × Nat) : Bool :=
  u.1 == ctx && decide (u.2.1 ≤ va) && decide (va < u.2.1 + u.2.2.1)

/-- The frames that accesses of a page have used since its last shootdown, and that of the current leaf: first byte,
size. -/
def State.shotFrames (s : State) (ctx va : Nat) : List (Nat × Nat) :=
  let frames := (s.pageUses.filter (usesPage ctx va)).map fun u => (u.2.2.2, u.2.2.1)
  match s.walk ctx va with
  | .ok l => (s.homePa (Pte.frame l.pte), pageSize l.level) :: frames
  | .error _ => frames

/-- What the completion of a shootdown does on every core of the package: TLB entries, translation registers in the
cores and in what is kept of handlers, instruction-cache lines and sidecar lines. -/
def State.shootCores (s : State) (ctx va : Nat) : State :=
  let frames := s.shotFrames ctx va
  let clean := fun (l : List (Nat × Word)) => frames.foldl (fun l f => dropLines f.1 f.2 l) l
  let core (c : Core) : Core := { c with tlb := dropTlb ctx va c.tlb, icache := clean c.icache }
  let die (d : Die) : Die := { d with tlb := dropTlb ctx va d.tlb }
  let mine := fun (g : Group) => (s.teamOf g).ctx == ctx
  let regs (g : Group) : Group := { g with arch := g.arch.shot va, himage := g.himage.map (Arch.shot va) }
  { s with
    cores := s.cores.map core
    dies := s.dies.map die
    risers := dropRisers frames s.risers
    pageUses := s.pageUses.filter fun u => !usesPage ctx va u
    groups := updateWhere mine regs s.groups }

/-- The first write to a zero-fill page: zeros to the whole frame, Z cleared, the page shot down (07 R174). What the
shootdown changes in saved images follows in State.shootSaved, when the access is done. -/
def State.zeroFill (s : State) (ctx va : Nat) (l : Leaf) : State :=
  if Pte.z l.pte then
    let frame := s.homePa (Pte.frame l.pte)
    let s := { s.written frame (pageSize l.level) with mem := s.mem.clear frame (pageSize l.level) }
    let s := s.writePhys l.addr (bytesOf 8 (putBits (s.mem.value l.addr 8) 8 1 0))
    { s.shootCores ctx va with shots := s.shots ++ [(ctx, va)] }
  else s

/-! ## Translation -/

/-- Which cached translations that differ from their leaf an instruction uses: each page has one outcome within one
issue (07 R159). -/
abbrev Stale := List (TlbEntry × Bool)

/-- The supervisor mapping that the Hearth keeps of a core's emergency area (14 R276), which serves supervisor level while
the area is in use: a present leaf that can be written and not fetched. DESIGN CHOICE (log 125, safe). -/
def State.emergencyHit (s : State) (core priv va : Nat) (need : Need) : Option (Except MFault Hit) :=
  let c := s.coreRec core
  match priv, c.emergUse with
  | 0, _ => none
  | _, none => none
  | _, some _ =>
    let lo := Config.emergVa core
    let l : Leaf := ⟨Pte.frame c.emerg.toNat + 0xD5, 0, 0⟩
    if va < lo ∨ lo + 0x10000 ≤ va then none
    else
      match l.check priv need with
      | some f => some (.error f)
      | none => some (.ok ⟨c.emerg.toNat + (va - lo), l.pte, 0⟩)

/-- Translate in full (07 R152, R160). A stale entry may still decide, while no shootdown has dropped it; a write does not
use one whose D is clear or whose Z is set, as it has D to set or zeros to write (R149, R174). `known`: what this issue
has decided of stale entries so far. -/
def State.translateOn (s : State) (known : Stale) (ctx core priv va : Nat) (need : Need) :
    State × Stale × Except MFault Hit :=
  match s.emergencyHit core priv va need with
  | some r => (s, known, r)
  | none =>
  if 2 ^ 52 ≤ va then (s, known, .error (.plain 0x05))
  else
    let now := s.walk ctx va
    let c := s.coreRec core
    let d := s.dieRec (dieOfCore core)
    let stale := staleEntry (c.tlb ++ d.tlb) ctx va now
    let (s, known, use) : State × Stale × Option TlbEntry :=
      match stale with
      | none => (s, known, none)
      | some e =>
        match known.find? (·.1 == e) with
        | some x => (s, known, if x.2 then some e else none)
        | none =>
          let u := Config.chance s.draw
          ({ s with draw := s.draw + 1 }, (e, u) :: known, if u then some e else none)
    let use := use.filter fun e => !(need.writes && (!Pte.d e.pte.toNat || Pte.z e.pte.toNat))
    match use with
    | some e =>
      let l : Leaf := ⟨e.pte.toNat, 0, e.pgsz⟩
      match s.leafFault l priv need with
      | some f => (s, known, .error f)
      | none => ((s.used ctx va l.level (Pte.frame l.pte)).fetchSidecar l.pte, known,
          .ok ⟨Pte.frame l.pte + va % pageSize l.level, l.pte, l.level⟩)
    | none =>
      match now with
      | .error f => (s, known, .error f)
      | .ok l =>
        match s.leafFault l priv need with
        | some f => (s.markLeaf l false, known, .error f)
        | none =>
          let s := s.markLeaf l need.writes
          let s := if need = Need.write then s.zeroFill ctx va { l with pte := s.mem.value l.addr 8 } else s
          let pte := s.mem.value l.addr 8
          let e : TlbEntry := ⟨ctx, va / pageSize l.level, l.level, dwordOf pte⟩
          let c := s.coreRec core
          let d := s.dieRec (dieOfCore core)
          let s := s.putCore { c with tlb := keepTlb 1024 e c.tlb }
          let s := s.putDie { d with tlb := keepTlb 12288 e d.tlb }
          ((s.used ctx va l.level (Pte.frame pte)).fetchSidecar pte, known, .ok ⟨Pte.frame pte + va % pageSize l.level, pte, l.level⟩)

/-- Translate one access that is an issue of its own. -/
def State.translate (s : State) (ctx core priv va : Nat) (need : Need) : State × Except MFault Hit :=
  match s.translateOn [] ctx core priv va need with
  | (s, _, r) => (s, r)

/-- The address of an access through a translation register (07 R158). -/
def XReg.va (x : XReg) (off : Word) : Nat := wrap ((x.vbase.toNat : Int) + off.toInt) 64

/-- LIMIT (07 R155). -/
def XReg.limit (x : XReg) : Nat :=
  if x.v then pageSize x.pgsz.toNat - x.vbase.toNat % pageSize x.pgsz.toNat else 0

/-- The offset through which a register reaches a virtual address that an access already has (07 R158, R163). -/
def XReg.through (x : XReg) (va : Nat) : Option (XReg × Word) :=
  let off := wrap ((va : Int) - x.vbase.toNat) 64
  if off < 2 ^ 31 then some (x, wordOf off) else none

/-- The frame path serves an access of w bytes (07 R158). -/
def XReg.framePath (x : XReg) (off : Word) (w : Nat) (write : Bool) : Bool :=
  x.v && decide (0 ≤ off.toInt) && decide (off.toNat + w ≤ x.limit) && (!write || x.wok)

/-- An access by the frame path: no walk and no TLB; what the page was at XLT decides until the page is shot down
(07 R153, R158). A frame whose route is lost cannot be reached. The first write to a zero-fill page fills it first. -/
def State.throughFrame (s : State) (ctx : Nat) (x : XReg) (off : Word) (need : Need) : State × Except MFault Hit :=
  let va := x.va off
  let pa := x.frame.toNat + off.toNat
  if s.routeLost pa then (s, .error ⟨0x0B, 0xFF, x.pte.toNat⟩)
  else
    let s := if need = Need.write ∧ Pte.z x.pte.toNat then
        match s.walk ctx va with
        | .ok l => s.zeroFill ctx va l
        | .error _ => s
      else s
    ((s.used ctx va x.pgsz.toNat (x.frame.toNat - (va % pageSize x.pgsz.toNat - off.toNat))).fetchSidecar x.pte.toNat, .ok ⟨pa, x.pte.toNat, x.pgsz.toNat⟩)

/-- Translate an access of a group through an xl register (07 R158). -/
def State.translateXl (s : State) (known : Stale) (g : Group) (x : XReg) (off : Word) (w : Nat) (need : Need) :
    State × Stale × Except MFault Hit :=
  let ctx := (s.teamOf g).ctx
  if x.framePath off w need.writes then
    match s.throughFrame ctx x off need with
    | (s, r) => (s, known, r)
  else s.translateOn known ctx (s.coreOf g) g.priv (x.va off) need

end Sys2Proof.Machine
end

