-- ==== Sys2Proof/Machine/Codec.lean ====
section
/-! DEFINITION. Decompression: zero-run token streams, plane elision and LZ4 blocks (12 R256, R260), compressed pages and
their sidecar lines (R254, R255, R257). -/

namespace Sys2Proof.Machine

/-! ## Streams -/

/-- What a stream yields: its bytes in order, whether it is malformed after them, whether its end came too early, and
the bytes of it that were left there. -/
structure Yield where
  out : List Byte
  bad : Bool
  cut : Bool := false
  left : Nat := 0
  deriving DecidableEq, Repr

/-- A zero-run token stream to its last byte (R256, R259). A literal run that the end of the stream cuts yields its
bytes when `cut` is set. -/
def zeroRun (cut : Bool) : Nat → List Byte → Yield
  | 0, _ => { out := [], bad := true }
  | _ + 1, [] => { out := [], bad := false }
  | fuel + 1, t :: rest =>
    let n := 4 * (bits t.toNat 0 7 + 1)
    if bitAt t.toNat 7 then
      let y := zeroRun cut fuel rest
      { y with out := zeroBytes n ++ y.out }
    else if rest.length < n then { out := if cut then rest else [], bad := true, cut := true, left := rest.length + 1 }
    else
      let y := zeroRun cut fuel (rest.drop n)
      { y with out := rest.take n ++ y.out }

/-- The stream of a decompression job. Where the stream itself ends in a run, that run is not written at all (log 22); where a
fault stops the reading, `cut`, the bytes before it are (R259). -/
def zeroRunStream (cut : Bool) (bs : List Byte) : Yield := zeroRun cut (bs.length + 1) bs

/-- Extension bytes of an LZ4 length: the sum and the rest; none when the stream ends inside them. -/
def lz4Extend : List Byte → Nat → Option (Nat × List Byte)
  | [], _ => none
  | b :: rest, n => if b.toNat = 255 then lz4Extend rest (n + 255) else some (n + b.toNat, rest)

/-- A length with its extension, when the nibble is 15. -/
def lz4Length (nibble : Nat) (bs : List Byte) : Option (Nat × List Byte) :=
  if nibble = 15 then lz4Extend bs 15 else some (nibble, bs)

/-- Copy a match byte by byte from `off` bytes back; `acc` is the output, last byte first. -/
def lz4Match (off : Nat) : Nat → List Byte → List Byte
  | 0, acc => acc
  | n + 1, acc => lz4Match off n (acc.getD (off - 1) 0 :: acc)

/-- LZ4 sequences (R260); `acc` is the output so far, last byte first. Literals that the end of the stream cuts are not written
at all; those before a fault, `keep`, are (R259). DEDUCED (log 22, unsafe). -/
def lz4Sequences (keep : Bool) : Nat → List Byte → List Byte → Yield
  | 0, _, acc => { out := acc.reverse, bad := true }
  | _ + 1, [], acc => { out := acc.reverse, bad := false }
  | fuel + 1, t :: rest, acc =>
    let stop := fun (acc : List Byte) (cut : Bool) => ({ out := acc.reverse, bad := true, cut, left := rest.length + 1 } : Yield)
    match lz4Length (bits t.toNat 4 4) rest with
    | none => stop acc true
    | some (lits, rest) =>
      if rest.length < lits then stop (if keep then rest.reverse ++ acc else acc) true
      else
        let acc := (rest.take lits).reverse ++ acc
        match rest.drop lits with
        | [] => { out := acc.reverse, bad := false }
        | [_] => stop acc true
        | o0 :: o1 :: rest =>
          let off := o0.toNat + 256 * o1.toNat
          match lz4Length (bits t.toNat 0 4) rest with
          | none => stop acc true
          | some (len, rest) =>
            if off = 0 ∨ acc.length < off then stop acc false
            else lz4Sequences keep fuel rest (lz4Match off (len + 4) acc)

/-- DEDUCED (log 38, unsafe). -/
def lz4Block (keep : Bool) (bs : List Byte) : Yield := lz4Sequences keep (bs.length + 1) bs []

/-- What a job of a kind yields from bytes of its stream (R258). -/
def decodeStream (kind : Nat) (keep : Bool) (bs : List Byte) : Yield :=
  if kind = 1 then zeroRunStream keep bs else lz4Block keep bs

/-- Bytes of its stream that a job has read when it has yielded n bytes (13 R266). -/
def streamPosition (kind n : Nat) (bs : List Byte) : Nat :=
  ((List.range bs.length).find? fun m => decide (n ≤ (decodeStream kind true (bs.take m)).out.length)).getD bs.length

/-! ## Blocks of compressed pages -/

/-- The stored segments of a plane-elision block: segment size, mask, remaining segments, stored bytes. -/
def elided (size mask : Nat) : Nat → Nat → List Byte → List Byte
  | 0, _, _ => []
  | n + 1, i, bs =>
    if bitAt mask i then bs.take size ++ elided size mask n (i + 1) (bs.drop size)
    else zeroBytes size ++ elided size mask n (i + 1) bs

/-- The 512 bytes of a block from its stored bytes; none when it is malformed (R256, R257). -/
def expandBlock (ck param : Nat) (stored : List Byte) : Option (List Byte) :=
  match ck with
  | 1 =>
    let y := zeroRun true (stored.length + 1) stored
    if 512 ≤ y.out.length then some (y.out.take 512) else none
  | 2 =>
    let mask := fieldOf stored 0 4
    let size := 512 / param
    let n := ((List.range 32).filter (bitAt mask)).length
    if mask < 2 ^ param ∧ stored.length = 4 + n * size then some (elided size mask param 0 (stored.drop 4)) else none
  | _ =>
    let y := lz4Block false stored
    if !y.bad && y.out.length == 512 then some y.out else none

/-- Sum of bytes. -/
def sumBytes (bs : List Byte) : Nat := bs.foldl (fun n b => n + b.toNat) 0

/-- The header and the SIZE area of a sidecar line are well formed for a kind (R254, R257). -/
def sidecarOk (line : List Byte) (ck : Nat) : Bool :=
  let epck := fieldOf line 0 1
  let param := fieldOf line 1 1
  let sizes := sliceOf line 0x10 128
  bits epck 2 3 == ck && bits epck 5 3 == 0 && (sliceOf line 4 12).all (· == 0) && (sliceOf line 0x90 112).all (· == 0) &&
    (if ck = 2 then param == 1 || param == 2 || param == 4 || param == 8 else param == 0) &&
    fieldOf line 2 2 == sumBytes sizes % 65536 && sizes.all (fun b => decide (b.toNat ≤ 128))

/-- Block j of a compressed page; none when it is corrupt. -/
def State.pageBlock (s : State) (frame ck j : Nat) : Option (List Byte) :=
  let home := s.homePa frame
  let line := s.sidecar home
  if !sidecarOk line ck then none
  else
    let size := fieldOf line (0x10 + j) 1
    if size = 0 then some (zeroBytes 512)
    else
      let stored := s.mem.read (home + 512 * j) (4 * size)
      if size = 128 then some stored else expandBlock ck (fieldOf line 1 1) stored

/-- n bytes of a compressed page from an offset on; none when a block is corrupt (R257). -/
def State.pageBytes (s : State) (frame ck off : Nat) : Nat → Option (List Byte)
  | 0 => some []
  | n + 1 =>
    match s.pageBlock frame ck (off / 512), s.pageBytes frame ck (off + 1) n with
    | some b, some rest => some (b.getD (off % 512) 0 :: rest)
    | _, _ => none

/-- n bytes within one block. -/
def State.blockBytes (s : State) (frame ck off n : Nat) : Option (List Byte) :=
  (s.pageBlock frame ck (off / 512)).map fun b => sliceOf b (off % 512) n

/-- Where the bytes of a read within one page come from: the frame, zeros while Z = 1 (07 R174), or an expanded
block. DESIGN CHOICE (log 19, safe). -/
def State.readSource (s : State) (h : Hit) (n : Nat) : Except MFault Src :=
  if Pte.z h.pte then .ok (.lit (zeroBytes n))
  else if Pte.ck h.pte ≠ 0 then
    let frame := Pte.frame h.pte
    let off := h.pa - frame
    let found := if off % 512 + n ≤ 512 then s.blockBytes frame (Pte.ck h.pte) off n else s.pageBytes frame (Pte.ck h.pte) off n
    match found with
    | none => .error ⟨0x09, 0xFF, h.pte⟩
    | some bs => .ok (.lit bs)
  else .ok (.at (.phys (s.homePa h.pa)) n)

end Sys2Proof.Machine
end

