-- ==== Sys2Proof/Machine/Frames.lean ====
section
/-! DEFINITION. The frames of physical memory that the Hearth service gives out and takes back (07 R145, R176, Table 7.2).
Where a frame lies is the service's choice (log 14). -/

namespace Sys2Proof.Machine

/-! ## Frames -/

/-- The first number from a start on, modulo n, that passes, within a number of tries. DESIGN CHOICE (log 14, safe). -/
def searchFrom (ok : Nat → Bool) (n start : Nat) : Nat → Option Nat
  | 0 => none
  | left + 1 => if ok (start % n) then some (start % n) else searchFrom ok n (start + 1) left

/-- Bytes of an HBM stack that pages may use (07 Table 7.2). -/
def stackBytes : Nat := 0xB2D050000

/-- Bytes of tower memory. -/
def towerBytes : Nat := 0x400000000

/-- Number of frames of a size, in HBM or in tower memory. -/
def frameCount (hbm : Bool) (size : Nat) : Nat := if hbm then 8 * (stackBytes / size) else towerBytes / size

/-- The address of a frame by its number. -/
def frameBase (hbm : Bool) (size k : Nat) : Nat :=
  if hbm then 0x1000000000 * (k / (stackBytes / size) + 1) + size * (k % (stackBytes / size)) else size * k

/-- Nothing has been given out there. -/
def State.frameFree (s : State) (base size : Nat) : Bool :=
  !s.frames.any fun f => decide (f.1 < base + size) && decide (base < f.1 + f.2)

/-- Give out a frame of a size, aligned to it; what memory holds there stays. DESIGN CHOICE (log 70, safe). -/
def State.takeFrame (s : State) (hbm : Bool) (size : Nat) : Option (Nat × State) :=
  let n := frameCount hbm size
  match searchFrom (fun k => s.frameFree (frameBase hbm size k) size) n (Config.place s.draw) n with
  | none => none
  | some k =>
    let base := frameBase hbm size k
    some (base, { s with draw := s.draw + 1, frames := s.frames ++ [(base, size)] })

/-- Give out a frame by PLACE: 0 tower memory, 1 HBM, 2 either (22 R398). -/
def State.takePlaced (s : State) (place size : Nat) : Option (Nat × State) :=
  if place = 0 then s.takeFrame false size
  else if place = 1 then s.takeFrame true size
  else
    let hbm := Config.chance s.draw
    let s := { s with draw := s.draw + 1 }
    match s.takeFrame hbm size with
    | some r => some r
    | none => s.takeFrame (!hbm) size

/-- A frame is free again: what is given out no longer holds it (07 R176). -/
def State.freeFrame (s : State) (base size : Nat) : State :=
  let keep (f : Nat × Nat) : List (Nat × Nat) :=
    if f.1 + f.2 ≤ base ∨ base + size ≤ f.1 then [f]
    else [(f.1, base - f.1), (base + size, f.1 + f.2 - (base + size))].filter fun x => x.2 != 0
  { s with frames := s.frames.flatMap keep }

end Sys2Proof.Machine
end

