-- ==== Sys2Proof/Machine/Ordering.lean ====
section
/-! DEFINITION. Stores and loads on their way, and the view of memory that a group reads (10 R215 to R222, 09 R199). A
store waits in State.stores from its issue; STORE_PERFORMED performs it at its scope's point; a store performed at a
narrow scope stays listed, seen by the agents of that scope only, until it is written to memory. -/

namespace Sys2Proof.Machine

/-- A store performed at a narrow scope is seen by this group (10 Table 10.1). -/
def PendingStore.seenIn (e : PendingStore) (gid team cluster : Nat) : Bool :=
  match e.seenAt with
  | none => false
  | some 0 => e.gid == gid
  | some 1 => e.team == team
  | some _ => clusterOfCore e.core == cluster

def PendingStore.seenBy (e : PendingStore) (g : Group) (cluster : Nat) : Bool := e.seenIn g.id g.team cluster

/-- The byte that a store entry writes at a place. -/
def PendingStore.byteAt (e : PendingStore) (l : Loc) : Option Byte :=
  match e.loc, l with
  | .phys a, .phys k => if a ≤ k ∧ k < a + e.bytes.length then e.bytes[k - a]? else none
  | .team i o, .team j k => if i = j ∧ o ≤ k ∧ k < o + e.bytes.length then e.bytes[k - o]? else none
  | _, _ => none

/-- A store entry touches one of n bytes at a place. -/
def PendingStore.touches (e : PendingStore) (l : Loc) (n : Nat) : Bool :=
  match e.loc, l with
  | .phys a, .phys k => decide (a < k + n) && decide (k < a + e.bytes.length)
  | .team i o, .team j k => i == j && decide (o < k + n) && decide (k < o + e.bytes.length)
  | _, _ => false

/-- The place i bytes above a place. -/
def Loc.plus (l : Loc) (i : Nat) : Loc :=
  match l with
  | .phys a => .phys (a + i)
  | .team t o => .team t (o + i)

/-- The team memory of a team. -/
def State.teamMem (s : State) (t : Nat) : Memory :=
  match s.team? t with
  | some tm => tm.mem
  | none => []

/-- The byte that memory or team memory itself holds. -/
def State.byteAt (s : State) (l : Loc) : Byte :=
  match l with
  | .phys a => s.mem.get (s.homePa a)
  | .team t o => Memory.get (s.teamMem t) o

/-- The n bytes that memory or team memory itself holds. -/
def State.bytesAt (s : State) (l : Loc) (n : Nat) : List Byte :=
  match l with
  | .phys a => s.mem.read (s.homePa a) n
  | .team t o => Memory.read (s.teamMem t) o n

/-- Write bytes to memory or team memory itself. -/
def State.put (s : State) (l : Loc) (bs : List Byte) : State :=
  match l with
  | .phys a => s.writePhys (s.homePa a) bs
  | .team t o => s.onTeam t fun tm => { tm with mem := tm.mem.write o bs }

/-- The stores that a group sees over memory at this moment, in order: those performed at a scope it is in, and its own
with identifiers below upTo (10 R217). DEDUCED (log 6, safe). -/
def State.overlay (s : State) (g : Group) (upTo : Nat) : List PendingStore :=
  let cl := clusterOfCore (s.coreOf g)
  s.stores.filter fun e => if e.gid == g.id then decide (e.id < upTo) else e.seenBy g cl

/-- A byte under an overlay: the last entry that writes it decides. -/
def overlayByte (l : Loc) (base : Byte) (seen : List PendingStore) : Byte :=
  seen.foldl (fun b e => (e.byteAt l).getD b) base

/-- The n bytes at a place as a group reads them, over its own stores with identifiers below upTo.
DESIGN CHOICE (log 7, unsafe). -/
def State.view (s : State) (g : Group) (upTo : Nat) (l : Loc) (n : Nat) : List Byte :=
  let seen := (s.overlay g upTo).filter (·.touches l n)
  let base := s.bytesAt l n
  if seen.isEmpty then base
  else (List.range n).map fun i => overlayByte (l.plus i) (base.getD i 0) seen

/-- A store performed at its scope's point reaches memory for every agent: team memory always; global memory unless
the point is the core's L1, or the cluster's L2 for a page of DOM 2 (10 Table 10.1). -/
def PendingStore.reachesMemory (e : PendingStore) (pair : Bool) : Bool :=
  match e.loc with
  | .team _ _ => true
  | .phys _ => !(e.dom == 2) && !(e.cp == 0 && (e.scope == 0 || (e.scope == 1 && !pair)))

/-- Where a store is performed that does not reach memory: 0 and 1 in the core's L1, for its group or its team; 2 in the
cluster's L2 (10 Table 10.1). -/
def PendingStore.level (e : PendingStore) (pair : Bool) : Nat :=
  if e.cp = 0 ∧ (e.scope = 0 ∨ (e.scope = 1 ∧ pair = false)) then e.scope else 2

/-- The places that a delivery still has to read. -/
def Product.reads (p : Product) : List Src :=
  match p with
  | .load _ src _ => [src]
  | .tile _ _ _ _ _ rows => rows.flatten
  | _ => []

/-- The ranges share a byte. -/
def rangesMeet (l : Loc) (n : Nat) (k : Loc) (m : Nat) : Bool :=
  match l, k with
  | .phys a, .phys b => decide (a < b + m) && decide (b < a + n)
  | .team i a, .team j b => i == j && decide (a < b + m) && decide (b < a + n)
  | _, _ => false

def Src.meets (x : Src) (l : Loc) (n : Nat) : Bool :=
  match x with
  | .at k m => rangesMeet k m l n
  | .lit _ => false

/-- Two sources share a byte. -/
def Src.shares (x y : Src) : Bool :=
  match y with
  | .at l n => x.meets l n
  | .lit _ => false

/-- The bytes of a source as the group reads them when a delivery with an identifier is made. -/
def State.srcBytes (s : State) (g : Group) (id : Nat) (x : Src) : List Byte :=
  match x with
  | .lit bs => bs
  | .at l n => s.view g id l n

/-- Apply a function to every source of a product. -/
def Product.mapSrc (f : Src → Src) (p : Product) : Product :=
  match p with
  | .load ts src sg => .load ts (f src) sg
  | .tile r o sp e tr rows => .tile r o sp e tr (rows.map (·.map f))
  | .values w => .values w
  | .full r => .full r

/-- Before a write of a group with an identifier lands on n bytes, the group's earlier loads of those bytes take their
values: a read never returns a later write of its own group (10 R217). -/
def State.takeLoads (s : State) (gid id : Nat) (l : Loc) (n : Nat) : State :=
  match s.group? gid with
  | none => s
  | some g =>
    let early (d : Delivery) : Bool := d.gid == gid && decide (d.id < id) && d.product.reads.any (·.meets l n)
    let take (d : Delivery) : Delivery :=
      { d with product := d.product.mapSrc (fun x => if x.meets l n then .lit (s.srcBytes g d.id x) else x) }
    { s with deliveries := updateWhere early take s.deliveries }

/-- Before an instruction of a group changes team memory itself, the group's earlier loads of those n bytes take their
values. -/
def State.ownWrite (s : State) (g : Group) (off n : Nat) : State := s.takeLoads g.id s.nextId (.team g.team off) n

/-- Entry x, listed before y, comes before y in the order of a byte that both write: y's issuer sees x or issued it first, or
x's issuer sees y (10 R217). -/
def PendingStore.follows (y x : PendingStore) : Bool :=
  x.touches y.loc y.bytes.length &&
  match x.seenAt with
  | none => x.gid == y.gid && decide (x.id < y.id)
  | some _ =>
    x.gid == y.gid || x.seenIn y.gid y.team (clusterOfCore y.core) || y.seenIn x.gid x.team (clusterOfCore x.core)

/-- The entries that must be in memory before an entry, and that entry, in order: those that it, or a later one of them,
follows. -/
def State.chain (s : State) (e : PendingStore) : List PendingStore :=
  ((s.stores.takeWhile (·.id != e.id)).reverse).foldl (fun l x => if l.any (·.follows x) then x :: l else l) [e]

/-- Write one listed entry to memory for every agent and forget it; the group's earlier loads of its bytes read first. -/
def State.writeOut (s : State) (x : PendingStore) : State :=
  if s.stores.any (·.id == x.id) then
    let s := (s.takeLoads x.gid x.id x.loc x.bytes.length).put x.loc x.bytes
    { s with stores := s.stores.filter (·.id != x.id) }
  else s

/-- Write an entry to memory after the entries that it follows. -/
def State.commitStores (s : State) (e : PendingStore) : State := (s.chain e).foldl State.writeOut s

/-- The entry's team is on a core pair. -/
def State.onPair (s : State) (e : PendingStore) : Bool := ((s.team? e.team).map (·.launch.pair)).getD false

/-- A write to n bytes that is performed fires the monitors of their lines (07 R172). -/
def State.touched (s : State) (l : Loc) (n : Nat) : State :=
  match l with
  | .phys a => s.written a n
  | .team _ _ => s

/-- A write is performed in a cluster's L2, where given bytes stood: they stay known for a while (09 R186). -/
def State.replaced (s : State) (cluster : Nat) (l : Loc) (old : List Byte) : State :=
  match l with
  | .phys a => { s.written a old.length with past := ⟨s.wall, some cluster, a, old⟩ :: s.past }
  | .team _ _ => s

/-- Perform a listed entry at its point for a scope at least as wide as a given one: one performed at a narrower point is
performed there; the monitors of its bytes fire (10 Table 10.1, R222). -/
def State.performStep (s : State) (scope : Nat) (e : PendingStore) : State :=
  match s.stores.find? (·.id == e.id) with
  | none => s
  | some x =>
    let x := { x with scope := max x.scope scope }
    let k := x.level (s.onPair x)
    if x.reachesMemory (s.onPair x) then s.commitStores x
    else
      match x.seenAt with
      | some j =>
        if j < k then { s with stores := updateWhere (·.id == x.id) (fun _ => { x with seenAt := some k }) s.stores } else s
      | none =>
        let s := s.takeLoads x.gid x.id x.loc x.bytes.length
        let s := match s.group? x.gid with
          | some g => if x.dom = 2 ∧ 2 ≤ k then s.replaced (clusterOfCore x.core) x.loc (s.view g x.id x.loc x.bytes.length) else s.touched x.loc x.bytes.length
          | none => s.touched x.loc x.bytes.length
        let rest := s.stores.filter (·.id != x.id)
        { s with stores := rest.filter (·.seenAt.isSome) ++ [{ x with seenAt := some k }] ++ rest.filter (·.seenAt.isNone) }

/-- Perform an entry, and first the group's earlier stores to its bytes. -/
def State.performOn (s : State) (scope : Nat) (e : PendingStore) : State :=
  (((s.chain e).filter fun x => x.seenAt.isNone && x.gid == e.gid && x.id != e.id) ++ [e]).foldl (·.performStep scope) s

/-! ## Reductions in flight, as their group's accesses -/

/-- A request of a group, with an identifier below id, changes one of n bytes. -/
def State.redTouches (s : State) (gid id : Nat) (l : Loc) (n : Nat) : Bool :=
  s.reductions.any fun r => r.gid == gid && decide (r.id < id) && r.fault.isNone && rangesMeet r.loc r.width l n

/-! ## What may happen next -/

/-- A delivery is over the group's loads with identifiers below floor. -/
def State.delivered (s : State) (gid floor : Nat) : Bool :=
  !s.deliveries.any fun d => d.gid == gid && decide (d.id < floor) && d.fenced

/-- A store may be performed now: no earlier store or reduction of its group to the same bytes waits, the stores and
reductions that REL put before it are performed, and the loads that ACQ or REL put before it have delivered (10 R217,
09 R199). -/
def State.mayPerform (s : State) (e : PendingStore) : Bool :=
  s.delivered e.gid (max e.acqFloor e.relFloor) &&
  !(s.stores.any fun x => x.gid == e.gid && x.seenAt.isNone && decide (x.id < e.id) &&
      (decide (x.id < e.relFloor) || x.touches e.loc e.bytes.length)) &&
  !(s.reductions.any fun r => r.gid == e.gid && decide (r.id < e.relFloor)) &&
  !s.redTouches e.gid e.id e.loc e.bytes.length

/-- A delivery may be made now: the loads that ACQ put before it have delivered, and no earlier load or reduction of its
group to the same bytes waits (09 R199, 10 R217). -/
def State.mayDeliver (s : State) (d : Delivery) : Bool :=
  s.delivered d.gid d.acqFloor &&
  !(s.deliveries.any fun x => x.gid == d.gid && decide (x.id < d.id) &&
      x.product.reads.any fun y => d.product.reads.any fun z => y.shares z) &&
  !(d.product.reads.any fun x => match x with
    | .at l n => s.redTouches d.gid d.id l n
    | .lit _ => false)

/-! ## Issue -/

/-- Issue a store of the group. -/
def State.issueStore (s : State) (g : Group) (scope cp dom : Nat) (l : Loc) (bs : List Byte) : State :=
  let e : PendingStore :=
    { id := s.nextId, gid := g.id, team := g.team, core := s.coreOf g, scope, cp, dom, loc := l,
      bytes := bs, seenAt := none, relFloor := g.relFloor, acqFloor := g.acqFloor }
  { s with nextId := s.nextId + 1, stores := s.stores ++ [e] }

/-- Put a product on its way to the group. -/
def State.issueProduct (s : State) (g : Group) (fenced : Bool) (p : Product) : State :=
  let d : Delivery := { id := s.nextId, gid := g.id, super := g.super, fenced, acqFloor := g.acqFloor, product := p }
  { s with nextId := s.nextId + 1, deliveries := s.deliveries ++ [d] }

end Sys2Proof.Machine
end

