-- ==== Sys2Proof/Machine/Image.lean ====
section
/-! DEFINITION. The group save image (14 Table 14.3): what the device writes when a group is saved, how it is read back
and checked at restore (14 R274), and the spans of pageable memory that hold it. -/

namespace Sys2Proof.Machine

/-! ## Spans of virtual memory that the device itself reads and writes -/

/-- A part of a span: offset, physical address, length, and the leaf used (0 for plain memory). -/
structure Seg where
  off : Nat
  pa : Nat
  len : Nat
  pte : Nat := 0
  deriving DecidableEq, Repr

/-- Translate len bytes at va, page by page (pages of 64 KiB at least). -/
def State.spanFrom (s : State) (ctx core priv : Nat) (need : Need) (va : Nat) : Nat → Nat → Nat → List Seg →
    State × Except (MFault × Nat) (List Seg)
  | 0, _, _, acc => (s, .ok acc)
  | fuel + 1, off, len, acc =>
    if len ≤ off then (s, .ok acc)
    else
      let here := va + off
      let n := min (len - off) (0x10000 - here % 0x10000)
      match s.translate ctx core priv here need with
      | (s, .error f) => (s, .error (f, here))
      | (s, .ok h) => spanFrom s ctx core priv need va fuel (off + n) len (acc ++ [⟨off, h.pa, n, h.pte⟩])

def State.span (s : State) (ctx core priv : Nat) (need : Need) (va len : Nat) :
    State × Except (MFault × Nat) (List Seg) :=
  s.spanFrom ctx core priv need va (len / 0x10000 + 2) 0 len []

/-- The physical address of an offset of a span. -/
def segPa (segs : List Seg) (off : Nat) : Nat :=
  match segs.find? fun g => decide (g.off ≤ off) && decide (off < g.off + g.len) with
  | some g => g.pa + (off - g.off)
  | none => 0

/-- Write bytes at an offset of a span. -/
def State.putSpan (s : State) (segs : List Seg) (off : Nat) (bs : List Byte) : State :=
  segs.foldl (fun s g =>
    let lo := max off g.off
    let hi := min (off + bs.length) (g.off + g.len)
    if lo < hi then s.put (.phys (g.pa + (lo - g.off))) (sliceOf bs (lo - off) (hi - lo)) else s) s

/-- Zero a whole span. -/
def State.clearSpan (s : State) (segs : List Seg) : State :=
  segs.foldl (fun s g => { s.written (s.homePa g.pa) g.len with mem := s.mem.clear (s.homePa g.pa) g.len }) s

/-- n bytes of a part from an offset of its own on, as a load reads them: zeros while Z = 1, expanded from a compressed
page, whose corrupt block is a fault (07 R174, 12 R255). -/
def State.segBytes (s : State) (g : Seg) (off n : Nat) : Except MFault (List Byte) :=
  match s.readSource ⟨g.pa + off, g.pte, 0⟩ n with
  | .error f => .error f
  | .ok (.lit bs) => .ok bs
  | .ok (.at l n) => .ok (s.bytesAt l n)

/-- n bytes at an offset of a span; those of a corrupt block read as zeros here. -/
def State.spanBytes (s : State) (segs : List Seg) (off n : Nat) : List Byte :=
  segs.foldl (fun acc g =>
    let lo := max off g.off
    let hi := min (off + n) (g.off + g.len)
    if lo < hi then
      acc ++ match s.segBytes g (lo - g.off) (hi - lo) with
        | .ok bs => bs
        | .error _ => zeroBytes (hi - lo)
    else acc) []

/-- The first corrupt block of a span: the fault and its address. -/
def State.spanFault (s : State) (va : Nat) (segs : List Seg) : Option (MFault × Nat) :=
  segs.findSome? fun g => match s.segBytes g 0 g.len with
    | .ok _ => none
    | .error f => some (f, va + g.off)

def State.spanValue (s : State) (segs : List Seg) (off n : Nat) : Nat := ofBytes (s.spanBytes segs off n)

/-! ## Writing an image -/

/-- Names with a code: t names by number, predicates by 0x80 + number. -/
def Arch.coded (a : Arch) : List (Nat × Ranked) :=
  (a.t.zipIdx.map fun x => (x.2, x.1)) ++ (a.p.zipIdx.map fun x => (0x80 + x.2, x.1))

/-- The crumbs of a program with the code of their name. -/
def Arch.codedCrumbs (a : Arch) : List (Nat × Crumb) :=
  a.coded.flatMap fun x => x.2.crumbs.map fun c => (x.1, c)

/-- Crumbs in the overflow area of a program. -/
def Arch.spilled (a : Arch) : List (Nat × Crumb) := a.codedCrumbs.filter (·.2.spill.isSome)

/-- The crumb that is the parent of a crumb: the smallest crumb of its name that holds its mask (04 R70). -/
def parentOf (cs : List (Nat × Crumb)) (x : Nat × Crumb) : Option (Nat × Crumb) :=
  leastBy (fun y => countMask y.2.mask)
    (cs.filter fun y => y.1 == x.1 && subMask x.2.mask y.2.mask && y.2.mask != x.2.mask)

/-- An entry of CRUMBS. -/
def crumbEntry (all listed : List (Nat × Crumb)) (x : Nat × Crumb) : List Byte :=
  let parent :=
    match parentOf all x with
    | none => 0xFF
    | some y =>
      match y.2.spill with
      | some k => 0x40 + k
      | none => listed.idxOf y
  let depth := depthOf ((all.filter (·.1 == x.1)).map (·.2)) x.2.mask
  bytesOf 8 x.2.mask.toNat ++ bytesOf 4 x.2.val.toNat ++
    [BitVec.ofNat 8 x.1, BitVec.ofNat 8 depth, BitVec.ofNat 8 parent, BitVec.ofNat 8 (if x.2.full then 3 else 1)]

def xregBytes (x : XReg) : List Byte :=
  let lo := x.frame.toNat * 2 ^ 16 + x.pgsz.toNat * 2 ^ 14 + (if x.v then 2 ^ 13 else 0) + (if x.wok then 2 ^ 12 else 0)
  bytesOf 16 (x.vbase.toNat * 2 ^ 64 + lo)

def xregOf (bs : List Byte) : XReg :=
  let n := ofBytes bs
  ⟨BitVec.ofNat 52 (bits n 64 52), BitVec.ofNat 48 (bits n 16 48), BitVec.ofNat 2 (bits n 14 2), bitAt n 13, bitAt n 12, 0⟩

def reconBytes (r : Recon) : List Byte :=
  bytesOf 8 (r.origin.toNat + if r.phase then 1 else 0) ++ bytesOf 8 r.dpc.toNat ++ bytesOf 8 r.dmask.toNat ++
    bytesOf 8 r.full.toNat

/-- A reconvergence entry of an image; the low bits of an address are zero whatever the image holds (03 R40).
DEDUCED (log 103, safe). -/
def reconOf (bs : List Byte) : Recon :=
  let o := fieldOf bs 0 8
  let dpc := fieldOf bs 8 8
  ⟨dwordOf (o - o % 4), bitAt o 0, dwordOf (dpc - dpc % 4), dwordOf (fieldOf bs 16 8), dwordOf (fieldOf bs 24 8)⟩

/-- A bit word of a name: bit i for thread i, or bit 0 for a widened name. -/
def rankedBits (width : Nat) (f : Word × Bool → Bool) (r : Ranked) : Nat :=
  match r with
  | .perThread _ => (maskOf width fun i => f (r.at i)).toNat
  | .widened v full _ => if f (v, full) then 1 else 0

/-- The fields of an image: offset and bytes; every other byte of the 0xE000 is zero. -/
def imageFields (a : Arch) (width state cclk wlimit : Nat) (record : List Byte) : List (Nat × List Byte) :=
  let all := a.codedCrumbs
  let listed := all.filter (·.2.spill.isNone)
  [(0x0000, bytesOf 8 a.pc.toNat), (0x0008, bytesOf 8 a.mode.toNat), (0x0010, bytesOf 8 a.mask.toNat),
   (0x0018, bytesOf 4 a.sticky.toNat), (0x001C, bytesOf 4 state), (0x0020, a.ix.flatMap fun w => bytesOf 4 w.toNat),
   (0x002C, bytesOf 4 a.pidx.toNat), (0x0030, bytesOf 8 cclk), (0x0038, bytesOf 8 wlimit),
   (0x0040, bytesOf 4 (a.timeouts % 32 + if a.esc then 2 ^ 31 else 0)), (0x0044, bytesOf 4 a.stack.length),
   (0x0048, bytesOf 8 a.lastObj.toNat), (0x0080, a.xl.flatMap xregBytes), (0x0100, record),
   (0x0200, a.g.flatMap fun r => bytesOf 4 r.val.toNat),
   (0x0300, bytesOf 8 (maskOf 64 fun i => (a.g.getD i ⟨0, true⟩).full).toNat),
   (0x0308, a.t.map fun r => match r with | .perThread _ => 0 | .widened _ _ _ => 1),
   (0x0388, a.p.map fun r => match r with | .perThread _ => 0 | .widened _ _ _ => 1),
   (0x0400, a.t.flatMap fun r => bytesOf 8 (rankedBits width (·.2) r)),
   (0x0800, a.snap.flatMap fun w => bytesOf 4 w.toNat),
   (0x0C00, listed.flatMap (crumbEntry all listed)),
   (0x1000, a.stack.reverse.flatMap reconBytes)] ++
  (a.t.zipIdx.map fun x =>
    (0x3000 + 256 * x.2,
      match x.1 with
      | .perThread _ => (List.range width).flatMap fun i => bytesOf 4 (x.1.at i).1.toNat
      | .widened v _ _ => bytesOf 4 v.toNat)) ++
  [(0xB000, a.p.flatMap fun r => bytesOf 8 (rankedBits width (·.1 != 0) r))]

/-- Write an image into its span. -/
def State.putImage (s : State) (segs : List Seg) (fields : List (Nat × List Byte)) : State :=
  fields.foldl (fun s f => if f.2.all (· == 0) then s else s.putSpan segs f.1 f.2) (s.clearSpan segs)

/-! ## Reading an image back -/

/-- Every code of a mode register is one that Table 3.4 and Table 3.5 define. -/
def modeCodes (m : Nat) : Bool :=
  bits m 54 10 == 0 && bits m 5 2 != 3 && decide (bits m 7 3 ≤ 4) && decide (bits m 12 4 ≤ 9) &&
  decide (bits m 16 3 ≤ 4) && decide (bits m 19 3 ≤ 4)

/-- A value that MODE and MODE.WR accept: every code is defined, and a guard that is off is zero (03 R45). -/
def modeLegal (m : Nat) : Bool := modeCodes m && (bitAt m 4 || bits m 0 4 == 0)

/-- A crumb of a name, or of a lane slot of the image: its PARENT byte, or its depth where it lies in the overflow area. -/
inductive ParentOf where
  | entry (parent : Nat)
  | overflow (depth : Nat)
  deriving DecidableEq, Repr

/-- The depth of a CRUMBS entry by its chain of PARENT bytes (04 R72): 0xFF ends it, and a crumb of the overflow area
counts with its own ancestors. -/
def chainDepth (parentAt : Nat → Option ParentOf) : Nat → Nat → Option Nat
  | 0, _ => none
  | fuel + 1, p =>
    if p = 0xFF then some 1
    else
      match parentAt p with
      | none => none
      | some (.overflow d) => some (d + 1)
      | some (.entry q) => (chainDepth parentAt fuel q).map (· + 1)

/-- The raw CRUMBS entries of an image. -/
def State.imageCrumbs (s : State) (segs : List Seg) : List (List Byte) :=
  (List.range 64).map fun i => s.spanBytes segs (0x0C00 + 16 * i) 16

def crumbValid (e : List Byte) : Bool := bitAt (fieldOf e 15 1) 0

/-- A CRUMBS entry: the code of its name, and the crumb. -/
def crumbOf (e : List Byte) : Nat × Crumb :=
  (fieldOf e 12 1, ⟨dwordOf (fieldOf e 0 8), wordOf (fieldOf e 8 4), bitAt (fieldOf e 15 1) 1, none⟩)

/-- The entries of the team's overflow area that other groups hold, each with its depth. -/
def State.overflowDepths (s : State) (g : Group) : List (Nat × Nat) :=
  (s.groups.filter fun h => h.team == g.team && h.id != g.id).flatMap fun h =>
    let all := h.overflow ++ h.arch.codedCrumbs
    all.filterMap fun x => x.2.spill.map fun k => (k, depthOf ((all.filter (·.1 == x.1)).map (·.2)) x.2.mask)

/-- The check of R274 on the image of a group as it stands. DEDUCED (log 24, unsafe). -/
def State.imageOk (s : State) (segs : List Seg) (width : Nat) (g : Group) : Bool :=
  let rd := fun off n => s.spanValue segs off n
  let raw := s.imageCrumbs segs
  let valid := fun i => crumbValid (raw.getD i [])
  let all := (raw.filter crumbValid).map crumbOf ++ g.overflow
  let mine := g.overflow.filterMap fun x =>
    x.2.spill.map fun k => (k, depthOf ((all.filter (·.1 == x.1)).map (·.2)) x.2.mask)
  let area := mine ++ s.overflowDepths g
  let parentAt := fun p =>
    if p < 0x40 then (if valid p then some (ParentOf.entry (fieldOf (raw.getD p []) 14 1)) else none)
    else (area.find? fun x => 0x40 + x.1 == p).map fun x => ParentOf.overflow x.2
  let crumbOk := fun i =>
    !valid i || chainDepth parentAt 65 (fieldOf (raw.getD i []) 14 1) == some (fieldOf (raw.getD i []) 13 1)
  modeCodes (rd 0x0008 8 % 2 ^ 54) && decide (rd 0x0010 8 < 2 ^ width) && decide (rd 0x0044 4 ≤ 256) &&
    (s.spanBytes segs 0x0308 128).all (fun b => decide (b.toNat ≤ 1)) &&
    (s.spanBytes segs 0x0388 8).all (fun b => decide (b.toNat ≤ 1)) && (List.range 64).all crumbOk

/-- The program's state that an image holds. `tregs` is the group's t allotment: names beyond it cannot be read and are
left zero. `kept`: its crumbs in the team's overflow area. -/
def State.imageArch (s : State) (segs : List Seg) (width tregs : Nat) (kept : List (Nat × Crumb)) : Arch :=
  let rd := fun off n => s.spanValue segs off n
  let forms := s.spanBytes segs 0x0308 128
  let pforms := s.spanBytes segs 0x0388 8
  let listed := ((s.imageCrumbs segs).filter crumbValid).map crumbOf
  let crumbsOf := fun code => ((listed ++ kept).filter (·.1 == code)).map (·.2)
  let tname := fun n =>
    let fe := rd (0x0400 + 8 * n) 8
    if (forms.getD n 1) = 1 then Ranked.widened (wordOf (rd (0x3000 + 256 * n) 4)) (bitAt fe 0) (crumbsOf n)
    else .perThread ((List.range width).map fun i => (wordOf (rd (0x3000 + 256 * n + 4 * i) 4), bitAt fe i))
  let pname := fun n =>
    let v := rd (0xB000 + 8 * n) 8
    if (pforms.getD n 1) = 1 then Ranked.widened (if bitAt v 0 then 1 else 0) true (crumbsOf (0x80 + n))
    else .perThread ((List.range width).map fun i => (if bitAt v i then 1 else 0, true))
  let esc := rd 0x0040 4
  let gfe := rd 0x0300 8
  { pc := dwordOf (rd 0x0000 8 - rd 0x0000 8 % 4), mode := dwordOf (rd 0x0008 8 % 2 ^ 54), mask := dwordOf (rd 0x0010 8)
    sticky := BitVec.ofNat 6 (rd 0x0018 4)
    ix := (List.range 3).map fun i => wordOf (rd (0x0020 + 4 * i) 4)
    pidx := wordOf (rd 0x002C 4), esc := bitAt esc 31, timeouts := esc % 32, lastObj := dwordOf (rd 0x0048 8)
    stack := ((List.range (rd 0x0044 4)).map fun i => reconOf (s.spanBytes segs (0x1000 + 32 * i) 32)).reverse
    xl := (List.range 8).map fun i => xregOf (s.spanBytes segs (0x0080 + 16 * i) 16)
    g := (List.range 64).map fun i => ⟨wordOf (rd (0x0200 + 4 * i) 4), bitAt gfe i⟩
    t := (List.range 128).map fun n => if n < tregs then tname n else Ranked.zero
    p := (List.range 8).map pname
    snap := if rd 0x002C 4 = 0 then [] else (List.range 256).map fun i => wordOf (rd (0x0800 + 4 * i) 4) }

/-- The image as it stands, or none where it fails the check of R274. -/
def State.readImage (s : State) (segs : List Seg) (width tregs : Nat) (g : Group) : Option Arch :=
  if s.imageOk segs width g then some (s.imageArch segs width tregs g.overflow) else none

/-- Give crumbs their places: lane slots first, then overflow entries; none where a place is missing. -/
def placeIn : Nat → List Nat → List Crumb → Option (Room × List Crumb)
  | lane, area, [] => some (⟨lane, area⟩, [])
  | lane, area, c :: cs =>
    if c.spill.isSome then (placeIn lane area cs).map fun x => (x.1, c :: x.2)
    else if 0 < lane then (placeIn (lane - 1) area cs).map fun x => (x.1, c :: x.2)
    else
      match area with
      | [] => none
      | k :: rest => (placeIn 0 rest cs).map fun x => (x.1, { c with spill := some k } :: x.2)

/-- At restore, crumbs that find no lane slot move to the overflow area, and a name whose crumb finds no place there is
narrowed (14 R273). Room is what is free without this group's lane crumbs. -/
def placeCrumbs (width : Nat) (room : Room) (names : List Ranked) : Room × List Ranked :=
  names.foldl (fun acc r =>
    match r with
    | .perThread _ => (acc.1, acc.2 ++ [r])
    | .widened v f crumbs =>
      match placeIn acc.1.lane acc.1.area crumbs with
      | some (room, cs) => (room, acc.2 ++ [.widened v f cs])
      | none =>
        ({ acc.1 with area := crumbs.filterMap (·.spill) ++ acc.1.area }, acc.2 ++ [r.narrow width])) (room, [])

/-- Place the crumbs of a restored program. -/
def Arch.placed (a : Arch) (width : Nat) (room : Room) : Arch :=
  let t := placeCrumbs width room a.t
  let p := placeCrumbs width t.1 a.p
  { a with t := t.2, p := p.2 }

end Sys2Proof.Machine
end

