-- ==== Sys2Proof/Machine/Net.lean ====
section
/-! DEFINITION. The Safety Net recorder (14 R281, R282) and the event rings (20 R380). -/

namespace Sys2Proof.Machine

/-- Record an event; a fatal entry freezes the ring, and while it is frozen an event is lost and counted (14 R281,
R282). -/
def SafetyNet.record (n : SafetyNet) (time kind src : Nat) (fatal : Bool) (data : List Byte) : SafetyNet :=
  if n.frozen then { n with lost := n.lost + 1 }
  else
    let e : NetEntry := ⟨time, n.seq, kind, src, data⟩
    { ring := (n.ring ++ [e]).drop (n.ring.length + 1 - 8192), seq := (n.seq + 1) % 2 ^ 32, frozen := fatal, lost := n.lost }

def State.netRecord (s : State) (kind src : Nat) (data : List Byte) (fatal : Bool := false) : State :=
  { s with safety := s.safety.record s.wall kind src fatal data }

/-- SRC of Table 14.4: source class and unit. -/
def netSrc (cls unit : Nat) : Nat := cls * 2 ^ 13 + unit % 512

/-- WHO of Table 9.3: group slot and package core number. -/
def whoWord (slot core : Nat) : Nat := slot % 256 * 512 + core % 512

/-- The group slot number of a place: eight slots a lane (14 Table 14.6, WHERE). -/
def slotNumber (p : Place) : Nat := p.lane * 8 + p.slot

/-- WHO of a group. -/
def State.whoOf (s : State) (g : Group) : Nat :=
  whoWord ((g.place.map slotNumber).getD 0) (s.coreOf g)

/-- An interrupt to the Hearth. -/
def EventRing.interrupt (r : EventRing) : EventRing := { r with interrupts := r.interrupts + 1, fresh := [] }

/-- Write a record of 64 bytes to a die's event ring, or drop it when the ring is full (20 R380).
DEDUCED (log 32, unsafe). -/
def State.pushEvent (s : State) (die : Nat) (rcd : List Byte) : State :=
  let d := s.dieRec die
  let r := d.ring
  if r.size ≤ (r.head + 2 ^ 32 - r.tail) % 2 ^ 32 then
    s.putDie { d with ring := { r with lost := r.lost + 1, interrupts := r.interrupts + 1 } }
  else
    let s := { s with mem := s.mem.write (r.base + 64 * (r.head % r.size)) rcd }
    let r := { r with head := (r.head + 1) % 2 ^ 32, fresh := r.fresh ++ [s.wall] }
    s.putDie { d with ring := if r.count ≤ r.fresh.length ∧ 0 < r.count then r.interrupt else r }

end Sys2Proof.Machine
end

