-- ==== Sys2Proof/Machine/Records.lean ====
section
/-! DEFINITION. Launch records: their layout and the Ringmaster's check (20 R361, R362), read from a context's memory. -/

namespace Sys2Proof.Machine

/-! ## Status codes (02 Table 2.7, 12 Table 12.4, 14 R294, R410, 18 Table 18.3, 20 Table 20.4) -/

namespace Status
def done : Nat := 0
def timeout : Nat := 1
def clobbered : Nat := 2
def differ : Nat := 3
def part : Nat := 4
def lost : Nat := 5
def late : Nat := 6
def lengthMismatch : Nat := 7
def faulted : Nat := 8
def badcmd : Nat := 9
def halted : Nat := 10
def ovcond : Nat := 11
def nobanks : Nat := 12
def noqueue : Nat := 13
def conflict : Nat := 14
def notHeld : Nat := 15
def full : Nat := 16
def refused : Nat := 17
def aborted : Nat := 18
def nospace : Nat := 25
def trapped : Nat := 26
end Status

/-! ## Reading a context's memory for the Ringmaster and the engines -/

/-- n bytes at va as a translated read, or the memory fault and its address: a page in the backing store faults, unless the
caller had it brought in first (07 R175, 20 R362, R364). -/
def State.readVa (s : State) (ctx core priv va n : Nat) : State × Except (MFault × Nat) (List Byte) :=
  if n = 0 then (s, .ok [])
  else
    match s.span ctx core priv .read va n with
    | (s, .error f) => (s, .error f)
    | (s, .ok segs) =>
      match s.spanFault va segs with
      | some f => (s, .error f)
      | none => (s, .ok (s.spanBytes segs 0 n))

/-- Write bytes at va. -/
def State.writeVa (s : State) (ctx core priv va : Nat) (bs : List Byte) : State × Except (MFault × Nat) Unit :=
  match s.span ctx core priv .write va bs.length with
  | (s, .error f) => (s, .error f)
  | (s, .ok segs) => (s.putSpan segs 0 bs, .ok ())

/-! ## The launch record -/

/-- Team reserve in bytes (04 R68). -/
def reserveBytes (mregs groups : Nat) : Nat := roundUp (4 * mregs + 8 * groups * mregs + 1024) 2048

def LaunchRecord.size (r : LaunchRecord) : Nat := r.tmem + reserveBytes r.mregs r.groups

/-- A power of two from 1 to 4,096. -/
def pow2Slots (n : Nat) : Bool := (List.range 13).any fun k => n == 2 ^ k

def disjointRanges (l : List (Nat × Nat)) : Bool :=
  l.zipIdx.all fun x => l.zipIdx.all fun y =>
    x.2 == y.2 || decide (x.1.1 + x.1.2 ≤ y.1.1) || decide (y.1.1 + y.1.2 ≤ x.1.1)

/-- Split bytes into records of n bytes. -/
def chunks (n : Nat) : Nat → List Byte → List (List Byte)
  | 0, _ => []
  | k + 1, bs => bs.take n :: chunks n k (bs.drop n)

def allZero (bs : List Byte) : Bool := bs.all (· == 0)

/-- The first failing field of the 256 bytes alone, below a limit of offsets (20 Table 20.1).
DEDUCED (log 41, unsafe). -/
def recordFieldFails (b : List Byte) : List (Nat × Bool) :=
  let f := fieldOf b
  let flags := f 0x0D 1
  let pair := bitAt flags 0
  let spawn := bitAt flags 1
  let groups := f 0x0A 2
  let width := f 0x0C 1
  let cores := f 0x4C 4
  let first := bits cores 0 9
  let count := bits cores 16 9
  let last := first + count - 1
  let lim := if pair then 262144 else 131072
  [(0x00, f 0x00 8 % 4 != 0 || decide (2 ^ 52 ≤ f 0x00 8)),
   (0x08, !spawn && f 0x08 2 == 0),
   (0x0A, if spawn then groups != 1 else groups == 0 || decide ((if pair then 512 else 256) < groups)),
   (0x0C, !(width == 16 || width == 32 || width == 64)),
   (0x0D, decide (8 ≤ flags)),
   (0x0E, decide (24 < f 0x0E 1)),
   (0x0F, f 0x0F 1 == 0 || decide (16 < f 0x0F 1)),
   (0x10, decide (128 < f 0x10 1) || f 0x10 1 % 8 != 0 || decide (64 < f 0x11 1) || f 0x11 1 % 8 != 0 ||
     decide (32 < f 0x12 1) || f 0x12 1 % 8 != 0),
   (0x13, f 0x13 1 != 0),
   (0x14, f 0x14 4 % 2048 != 0 || decide (lim < f 0x14 4 + reserveBytes (f 0x12 1) groups)),
   (0x20, decide (f 0x14 4 < f 0x20 4)),
   (0x24, decide (256 < f 0x24 2)),
   (0x26, decide (16 < f 0x26 2)),
   (0x40, decide (256 < f 0x40 2)),
   (0x42, decide (16 < f 0x42 2)),
   (0x48, decide (1000000 < f 0x48 4)),
   (0x4C, bits cores 9 7 != 0 || bits cores 25 7 != 0 || count == 0 || decide (128 < count) || decide (511 < last) ||
     dieOfCore first != dieOfCore last || (f 0x42 2 != 0 && clusterOfCore first != clusterOfCore last)),
   (0x60, !allZero (sliceOf b 0x60 32)),
   (0xE0, !allZero (sliceOf b 0xE0 32))]

/-- A failing list named by the record, by the field that names it (20 Table 20.2, R362). DEDUCED (log 25, unsafe). -/
def recordListFails (b bars xforms ranges queues sends : List Byte) : List (Nat × Bool) :=
  let f := fieldOf b
  let tmem := f 0x14 4
  let pair := bitAt (f 0x0D 1) 0
  let qs := chunks 16 (f 0x42 2) queues
  let qnum := fun q => fieldOf q 0 1
  let slots := fun q => fieldOf q 2 2
  let hdr := fun q => fieldOf q 4 4
  let ring := fun q => fieldOf q 8 4
  let es := if f 0x58 8 = 0 then [] else chunks 8 16 sends
  let permits := fun (e : List Byte) => fieldOf e 4 2
  let target := fun (e : List Byte) => bits (fieldOf e 0 8) 16 4
  [(0x28, (chunks 4 (f 0x24 2) bars).any fun w => fieldOf w 2 2 == 0 || decide (256 < fieldOf w 2 2)),
   (0x30, (chunks 48 (f 0x26 2) xforms).any fun x =>
     fieldOf x 0 1 == 0 || decide (5 < fieldOf x 0 1) || fieldOf x 1 3 != 0 || !allZero (sliceOf x 0x24 12) ||
     (fieldOf x 0 1 != 5 && fieldOf x 0x0C 4 != 0)),
   (0x38, (chunks 16 (f 0x40 2) ranges).any fun r => fieldOf r 0 8 % 65536 != 0 || fieldOf r 8 8 % 65536 != 0),
   (0x50, qs.any (fun q => decide ((if pair then 15 else 7) < qnum q) || fieldOf q 1 1 != 0 || !pow2Slots (slots q) ||
       fieldOf q 0x0C 4 != 0 || hdr q % 16 != 0 || ring q % 32 != 0 || decide (tmem < hdr q + 32) ||
       decide (tmem < ring q + 32 * slots q)) ||
     decide ((distinct (qs.map qnum)).length < qs.length) ||
     !disjointRanges (qs.flatMap fun q => [(hdr q, 32), (ring q, 32 * slots q)])),
   (0x58, es.any (fun e => bits (fieldOf e 0 8) 20 12 != 0 || fieldOf e 6 2 != 0) ||
     qs.any (fun q => ((es.filter fun e => target e == qnum q).foldl (fun n e => n + permits e) 0) != slots q) ||
     es.any (fun e => permits e != 0 && !qs.any (fun q => qnum q == target e)))]

/-- The offset of the first failing field. -/
def firstFail (l : List (Nat × Bool)) : Option Nat := leastBy id ((l.filter (·.2)).map (·.1))

/-- The record that the bytes give. -/
def launchOf (b bars xforms ranges queues sends : List Byte) : LaunchRecord :=
  let f := fieldOf b
  let cores := f 0x4C 4
  { entry := dwordOf (f 0x00 8), teams := f 0x08 2, groups := f 0x0A 2, width := f 0x0C 1
    pair := bitAt (f 0x0D 1) 0, spawn := bitAt (f 0x0D 1) 1, event := bitAt (f 0x0D 1) 2
    kargs := f 0x0E 1, rdepth := f 0x0F 1, tregs := f 0x10 1, gregs := f 0x11 1, mregs := f 0x12 1
    tmem := f 0x14 4, image := dwordOf (f 0x18 8), imlen := f 0x20 4
    bars := (chunks 4 (f 0x24 2) bars).map fun w => (16 * fieldOf w 0 2, fieldOf w 2 2)
    xforms := chunks 48 (f 0x26 2) xforms
    ranges := (chunks 16 (f 0x40 2) ranges).map fun r => (dwordOf (fieldOf r 0 8), dwordOf (fieldOf r 8 8))
    queues := (chunks 16 (f 0x42 2) queues).map fun q => (fieldOf q 0 1, fieldOf q 4 4, fieldOf q 8 4, fieldOf q 2 2)
    sends := if f 0x58 8 = 0 then [] else (chunks 8 16 sends).map fun e =>
      (signedOf (fieldOf e 0 2) 16, bits (fieldOf e 0 8) 16 4, fieldOf e 4 2)
    wdog := f 0x44 4, binns := f 0x48 4, core0 := bits cores 0 9, ncores := bits cores 16 9
    kval := (List.range 24).map fun i => wordOf (f (0x80 + 4 * i) 4) }

/-- What reading and checking a record gives: unreadable, a failing field, or the record. -/
inductive RecordCheck where
  | unreadable
  | fails (offset : Nat)
  | good (r : LaunchRecord)
  deriving DecidableEq, Repr

/-- Read the lists that a record names, each with a count that the record may have. -/
def State.readLists (s : State) (ctx core : Nat) : List (Nat × Nat) → State × Option (List (List Byte))
  | [] => (s, some [])
  | (va, n) :: rest =>
    match s.readVa ctx core 1 va n with
    | (s, .error _) => (s, none)
    | (s, .ok bs) =>
      match readLists s ctx core rest with
      | (s, none) => (s, none)
      | (s, some l) => (s, some (bs :: l))

/-- Read and check a launch record in a context (20 R361, R362): the first failing field decides, in the record or in a list
that it names. A task's record has SPAWN = 0. DESIGN CHOICE (log 26, unsafe). -/
def State.readRecord (s : State) (ctx core : Nat) (task : Bool) (va : DWord) : State × RecordCheck :=
  if va.toNat % 64 ≠ 0 ∨ 2 ^ 52 ≤ va.toNat then (s, .unreadable)
  else
    match s.readVa ctx core 1 va.toNat 256 with
    | (s, .error _) => (s, .unreadable)
    | (s, .ok b) =>
      let f := fieldOf b
      let own := recordFieldFails b ++ [(0x0D, task && bitAt (f 0x0D 1) 1)]
      let count := fun (off most : Nat) => if f off 2 ≤ most then f off 2 else 0
      let lists := [(f 0x28 8, 4 * count 0x24 256), (f 0x30 8, 48 * count 0x26 16), (f 0x38 8, 16 * count 0x40 256),
        (f 0x50 8, 16 * count 0x42 16), (f 0x58 8, if f 0x58 8 = 0 then 0 else 128)]
      match s.readLists ctx core lists with
      | (s, none) =>
        match firstFail own with
        | some off => (s, .fails off)
        | none => (s, .unreadable)
      | (s, some l) =>
        let list := fun (k : Nat) => l.getD k []
        match firstFail (own ++ recordListFails b (list 0) (list 1) (list 2) (list 3) (list 4)) with
        | some off => (s, .fails off)
        | none => (s, .good (launchOf b (list 0) (list 1) (list 2) (list 3) (list 4)))

end Sys2Proof.Machine
end

