-- ==== Sys2Proof/Machine/Reduce.lean ====
section
/-! DEFINITION. Accesses performed at a page's point of coherence (09 R184), and the reductions in flight: each is performed
at its address or becomes an entry of its context's reduction fault log (09 R187 to R189). -/

namespace Sys2Proof.Machine

/-! ## Operations (R183, R187) -/

/-- Rnd of R183: nearest even, subnormals kept, NaN rules of R120. -/
def atomMode : FMode := ⟨0, 0, false⟩

/-- A reduction's operation: its log code, and how two operands and a value combine. -/
structure RedOp where
  code : Nat
  float : Bool
  combine : IType → FFormat → Nat → Nat → Nat

def RedOp.add : RedOp := ⟨0, false, fun t _ x y => (x + y) % 2 ^ t.w⟩
def RedOp.min : RedOp := ⟨1, false, fun t _ x y => minTyped t x y⟩
def RedOp.max : RedOp := ⟨2, false, fun t _ x y => maxTyped t x y⟩
def RedOp.fadd : RedOp := ⟨3, true, fun _ f x y => (Machine.fadd f atomMode x y).1⟩

def RedOp.ofCode (n : Nat) : RedOp :=
  match n with
  | 0 => .add
  | 1 => .min
  | 2 => .max
  | _ => .fadd

/-! ## The point of coherence (R184) -/

/-- What a group did to n bytes before, and what it sees there, arrives where an atomic is performed: at the cluster's L2
for DOM 2, else in memory (10 R217). -/
def State.settleStores (s : State) (g : Group) (upTo dom : Nat) (l : Loc) (n : Nat) : State :=
  ((s.overlay g upTo).filter (·.touches l n)).foldl
    (fun s e => if dom = 2 then s.performOn 2 e else if s.stores.any (·.id == e.id) then s.commitStores e else s) s

/-- Write bytes where an atomic is performed, as the access of a group with an identifier. -/
def State.putCoherent (s : State) (g : Group) (id cp dom : Nat) (l : Loc) (bs : List Byte) : State :=
  let s := s.takeLoads g.id id l bs.length
  if dom = 2 then
    let s := s.replaced (clusterOfCore (s.coreOf g)) l (s.view g id l bs.length)
    let e : PendingStore :=
      { id, gid := g.id, team := g.team, core := s.coreOf g, scope := 2, cp, dom := 2, loc := l
        bytes := bs, seenAt := some 2, relFloor := 0, acqFloor := 0 }
    { s with stores := s.stores.filter (·.seenAt.isSome) ++ [e] ++ s.stores.filter (·.seenAt.isNone) }
  else s.put l bs

/-! ## The end of a request (R187 to R189) -/

/-- Bytes of a log entry (Table 9.3). -/
def Reduction.entry (r : Reduction) (sub : Nat) : List Byte :=
  bytesOf 8 r.va.toNat ++ bytesOf 8 r.operand.toNat ++ bytesOf 8 r.pc.toNat ++ bytesOf 1 r.op ++ bytesOf 1 r.ty ++
    bytesOf 1 (r.use * 8 + r.scope) ++ bytesOf 1 sub ++ bytesOf 4 r.who.toNat

/-- The lowest entry of the context's log that is free. -/
def freeEntry (rlog : List Nat) : Nat := ((List.range 256).find? fun j => !rlog.contains j).getD 0

/-- A request that faults leaves the requests in flight and becomes its log entry. DEDUCED (log 42, unsafe). -/
def State.logReduction (s : State) (r : Reduction) (sub : Nat) : State :=
  let s := { s with reductions := s.reductions.filter (·.id != r.id) }
  match s.context? r.ctx with
  | none => s
  | some c =>
    let j := freeEntry c.rlog
    let s := (s.writeVa r.ctx (r.who.toNat % 512) 1 (c.ctxSave.toNat + 32 * j) (r.entry sub)).1
    s.onContext r.ctx fun c => { c with rlog := c.rlog ++ [j] }

/-- The group on whose behalf a request is performed; for one that is gone, a group that sees no store of its own. -/
def State.reductionGroup (s : State) (r : Reduction) : Group :=
  (s.group? r.gid).getD { Group.nowhere with id := r.gid, place := some ⟨r.who.toNat % 512, 0, 0⟩ }

/-- A request in flight ends: performed at its place, or written to the log. -/
def State.endReduction (s : State) (r : Reduction) : State :=
  match r.fault with
  | some sub => s.logReduction r sub
  | none =>
    let s := { s with reductions := s.reductions.filter (·.id != r.id) }
    let op := RedOp.ofCode r.op
    let w := r.width
    let g := s.reductionGroup r
    let s := s.settleStores g r.id r.dom r.loc w
    let v := ofBytes (s.view g r.id r.loc w)
    s.putCoherent g r.id r.cp r.dom r.loc
      (bytesOf w (op.combine (itypeOf r.ty) (FFormat.ofCode (r.ty % 16)) v (r.operand.toNat % 2 ^ (8 * w))))

/-- The requests of a context that fault and are still in flight are logged: no group passes a release with one of them
unaccounted for (09 R190). -/
def State.logFaults (s : State) (ctx : Nat) : State :=
  (s.reductions.filter fun r => r.ctx == ctx && r.fault.isSome).foldl State.endReduction s

/-- Every request of a group with an identifier below a given one ends, in issue order. -/
def State.endReds (s : State) (gid below : Nat) : State :=
  (s.reductions.filter fun r => r.gid == gid && decide (r.id < below)).foldl State.endReduction s

/-- Before an access of a group with an identifier reads or writes n bytes, its earlier requests there have ended
(10 R217). -/
def State.clearWay (s : State) (gid id : Nat) (l : Loc) (n : Nat) : State :=
  if s.redTouches gid id l n then s.endReds gid id else s

/-- A request may end: no earlier one of its group to the same bytes waits. -/
def State.mayEnd (s : State) (r : Reduction) : Bool := r.fault.isSome || !s.redTouches r.gid r.id r.loc r.width

end Sys2Proof.Machine
end

