-- ==== Sys2Proof/Machine/Release.lean ====
section
/-! DEFINITION. Releases, and what an access that is performed at once must wait for (10 R215 to R225, 09 R199, R200). -/

namespace Sys2Proof.Machine

/-! ## Performing stores -/

/-- Write an entry to memory for every agent, after the entries that it follows and its group's earlier reductions of the
same bytes. -/
def State.commit (s : State) (e : PendingStore) : State :=
  (s.chain e).foldl (fun s x => (s.clearWay x.gid x.id x.loc x.bytes.length).writeOut x) s

/-- Perform an entry at its scope's point; one already performed there is written to memory (10 R222). -/
def State.performStore (s : State) (e : PendingStore) : State :=
  if e.seenAt.isSome then s.commit e
  else (s.clearWay e.gid e.id e.loc e.bytes.length).performOn 0 e

/-- Perform entries one after another at a scope at least as wide. -/
def State.performAll (s : State) (scope : Nat) (l : List PendingStore) : State :=
  l.foldl (fun s e => (s.clearWay e.gid e.id e.loc e.bytes.length).performOn scope e) s

/-! ## Loads -/

/-- Before deliveries of a group take their values, its earlier reductions of their bytes have ended. -/
def State.clearLoads (s : State) (l : List Delivery) : State :=
  l.foldl (fun s d => d.product.reads.foldl (fun s x => match x with
    | .at l n => s.clearWay d.gid d.id l n
    | .lit _ => s) s) s

/-- The group's loads that still have to read take their values: an access that follows them, or that another agent
orders after them, can no longer change what they return (10 R218). -/
def State.freeze (s : State) (g : Group) (below : Nat) : State :=
  let due (d : Delivery) : Bool := d.gid == g.id && decide (d.id < below) && !d.product.reads.isEmpty
  let s := s.clearLoads (s.deliveries.filter due)
  let take (d : Delivery) : Delivery := { d with product := d.product.mapSrc (fun x => .lit (s.srcBytes g d.id x)) }
  { s with deliveries := updateWhere due take s.deliveries }

/-- Before the group reads n bytes at once, the loads that ACQ put first and its earlier loads of those bytes have read,
and its reductions there have ended (09 R199, 10 R217). -/
def State.readyToRead (s : State) (g : Group) (l : Loc) (n : Nat) : State :=
  let s := s.freeze g g.acqFloor
  let due (d : Delivery) : Bool := d.gid == g.id && d.product.reads.any (·.meets l n)
  let s := s.clearLoads (s.deliveries.filter due)
  let take (d : Delivery) : Delivery := { d with product := d.product.mapSrc (fun x => .lit (s.srcBytes g d.id x)) }
  ({ s with deliveries := updateWhere due take s.deliveries }).clearWay g.id s.nextId l n

/-! ## Tiles (07 R167, R169) -/

/-- The bytes of a memory row of a tile. -/
def State.rowBytes (s : State) (g : Group) (id : Nat) (l : List Src) : List Byte := l.flatMap (s.srcBytes g id)

/-- A memory row lands in team memory: along a row, or transposed, element by element. -/
def landRow (soff spitch e : Nat) (tr : Bool) (r : Nat) (bs : List Byte) (m : Memory) : Memory :=
  if tr then
    (List.range (bs.length / e)).foldl (fun (m : Memory) c => m.write (soff + c * spitch + r * e) (sliceOf bs (c * e) e)) m
  else m.write (soff + r * spitch) bs

/-- Bytes from the first to the last that the rows of a tile write in team memory. -/
def tileSpan (spitch e : Nat) (tr : Bool) (rows : List Nat) : Nat :=
  let widest := rows.foldl max 0
  if tr then widest / e * spitch + rows.length * e else rows.length * spitch + widest

/-- The group's accesses with identifiers below id to n bytes of its team memory are done: stores are performed, loads
have read (10 R217). -/
def State.settleTeam (s : State) (g : Group) (id off n : Nat) : State :=
  let l : Loc := .team g.team off
  let s := s.takeLoads g.id id l n
  (s.stores.filter fun e => e.gid == g.id && decide (e.id < id) && e.touches l n).foldl State.commit s

/-- A tile lands, row by row, after the group's earlier accesses to its bytes. -/
def State.landTile (s : State) (g : Group) (id soff spitch e : Nat) (tr : Bool) (rows : List (List Src)) : State :=
  let datas := rows.map (s.rowBytes g id)
  let s := s.settleTeam g id soff (tileSpan spitch e tr (datas.map (·.length)))
  (datas.zipIdx).foldl (fun s x => s.onTeam g.team fun t => { t with mem := landRow soff spitch e tr x.2 x.1 t.mem }) s

/-- A tile on its way lands now; its register becomes full when the load delivers. -/
def State.landNow (s : State) (g : Group) (d : Delivery) : State :=
  match d.product with
  | .tile reg soff spitch e tr rows =>
    let s := (s.freeze g d.acqFloor).clearLoads [d]
    let s := s.landTile g d.id soff spitch e tr rows
    { s with deliveries := updateWhere (·.id == d.id) (fun d => { d with product := .full reg }) s.deliveries }
  | _ => s

/-- The group's tiles on their way with identifiers below a given one land. -/
def State.landTiles (s : State) (g : Group) (below : Nat) : State :=
  (s.deliveries.filter fun d => d.gid == g.id && decide (d.id < below)).foldl (·.landNow g) s

/-! ## Releases -/

/-- The group's Carousel commands that are issued enter their Carousel's order: what a later release waits for (18 R356). -/
def State.enterCarousels (s : State) (gid : Nat) : State :=
  let due := s.cmds.filter fun c => c.gid == gid && decide (0x50 ≤ c.func) && c.phase == .issued
  due.foldl (fun s c =>
    let cl := s.clusterRec c.cluster
    let car := { cl.car with order := cl.car.order ++ [c.id] }
    (s.putCluster { cl with car }).putCmd { c with phase := .accepted }) s

/-- The group's accesses with identifiers below a given one other than stores are performed: loads have read, tiles have
landed, reductions have ended (10 R218). -/
def State.finishOthers (s : State) (g : Group) (below : Nat) : State :=
  ((s.landTiles g below).freeze g below).endReds g.id below

/-- A release by a group at a scope, performed at once: every earlier access of the group is performed, and every store
that it sees because it was performed in its own instance is performed at that scope (10 R218, R219). -/
def State.release (s : State) (g : Group) (scope : Nat) : State :=
  let s := (s.enterCarousels g.id).finishOthers g s.nextId
  s.performAll scope (s.overlay g s.nextId)

/-- Every access of the group is performed, and every store that it sees is written to memory. -/
def State.flush (s : State) (g : Group) : State :=
  let s := (s.enterCarousels g.id).finishOthers g s.nextId
  (s.overlay g s.nextId).foldl (fun s e => if s.stores.any (·.id == e.id) then s.commit e else s) s

/-- What REL does to the stores that have issued: they must be performed at its scope before later ones (09 R199);
stores of other groups that it sees are performed at that scope at once. -/
def State.rel (s : State) (g : Group) (scope : Nat) : State :=
  let s := s.enterCarousels g.id
  let others := (s.overlay g s.nextId).filter (·.gid != g.id)
  let s := s.performAll scope others
  let s := { s with stores := updateWhere (fun e => e.gid == g.id) (fun e => { e with scope := max e.scope scope }) s.stores }
  let seen := s.stores.filter fun e => e.gid == g.id && e.seenAt.isSome
  let s := s.performAll scope seen
  s.onGroup g.id fun g => { g with relFloor := s.nextId }

/-- Before an access of the group that REL orders is performed at once, its earlier accesses are performed. -/
def State.orderedBefore (s : State) (g : Group) : State :=
  let s := s.finishOthers g g.relFloor
  s.performAll 0 (s.stores.filter fun e => e.gid == g.id && e.seenAt.isNone && decide (e.id < g.relFloor))

/-- The group's stores with identifiers from a given one on are performed now, after what ACQ and REL put before them
(07 R162, 10 R229). -/
def State.performSince (s : State) (g : Group) (first : Nat) : State :=
  let s := (s.freeze g g.acqFloor).orderedBefore g
  s.performAll 0 (s.stores.filter fun e => e.gid == g.id && e.seenAt.isNone && decide (first ≤ e.id))

/-- Commit what any agent other than this group has on its way to n bytes that the group sees, and the group's own
stores there, so that an access at the point of coherence follows them (10 R217). -/
def State.settleBytes (s : State) (g : Group) (l : Loc) (n : Nat) : State :=
  let s := s.clearWay g.id s.nextId l n
  ((s.overlay g s.nextId).filter (·.touches l n)).foldl (fun s e => s.commit e) s

end Sys2Proof.Machine
end

