-- ==== Sys2Proof/Machine/Retire.lean ====
section
/-! DEFINITION. The end of teams, tasks and contexts: completion records, retirement and readiness (20 R366, R367, R379,
10 R231), and what halts a context (14 R294). -/

namespace Sys2Proof.Machine

/-! ## The backing store (07 R175, 14 R410) -/

/-- The address of the entry of a virtual address in the table of a level, when the walk reaches it. -/
def entryAddr (mem : Memory) (va target : Nat) : Nat → Nat → Option Nat
  | level, table =>
    let addr := table + 8 * bits va (16 + 9 * level) 9
    if level = target then some addr
    else
      match level with
      | 0 => none
      | n + 1 =>
        let e := mem.value addr 8
        if Pte.v e && !Pte.leaf e then entryAddr mem va target n (Pte.frame e) else none

/-- A page of the backing store: page address, size code, leaf entry, bytes. -/
abbrev Kept := DWord × Nat × DWord × Memory

/-- The page holds an address. -/
def Kept.covers (p : Kept) (va : Nat) : Bool := va / pageSize p.2.1 == p.1.toNat / pageSize p.2.1

/-- The frame of a page that comes in: a new one of the memory that it lay in; a compressed page, whose sidecar lines belong to
its frame, and one of another package come back to that frame. DESIGN CHOICE (log 54, unsafe). -/
def State.pageFrame (s : State) (p : Kept) : Option (Nat × State) :=
  let old := Pte.frame p.2.2.1.toNat
  if Pte.ck p.2.2.1.toNat ≠ 0 ∨ 0x800000000000 ≤ old then some (old, s) else s.takeFrame (decide (towerBytes ≤ old)) (pageSize p.2.1)

/-- Bring a page in: its bytes go to its frame and its leaf becomes present with that frame (07 R175). Where no frame is free the
page stays away. -/
def State.pageIn (s : State) (ctx : Nat) (p : Kept) : State :=
  match entryAddr s.mem p.1.toNat p.2.1 3 (s.rootOf ctx), s.pageFrame p with
  | some addr, some (f, s) =>
    let frame := s.homePa f
    let mem := p.2.2.2.foldl (fun (m : Memory) c => m.set (frame + c.1) c.2) (s.mem.clear frame (pageSize p.2.1))
    let s := { s.written frame (pageSize p.2.1) with mem }
    let pte := p.2.2.1.toNat - Pte.frame p.2.2.1.toNat + f
    let s := s.writePhys addr (bytesOf 8 (putBits pte 0 1 1))
    s.onContext ctx fun c => { c with backing := c.backing.filter (· != p) }
  | _, _ => s

/-- Bring in every page of the backing store that holds one of n bytes. -/
def State.bringIn (s : State) (ctx va n : Nat) : State :=
  let held := ((s.context? ctx).map (·.backing)).getD []
  (held.filter fun (p : Kept) => decide (p.1.toNat < va + n) && decide (va < p.1.toNat + pageSize p.2.1)).foldl
    (fun s p => s.pageIn ctx p) s

/-! ## Task control blocks in memory (20 Table 20.3) -/

/-- The core through which the Ringmaster of a context's task reads memory: the task's first core. -/
def State.taskCore (s : State) (ctx : Nat) (tcb : DWord) : Nat :=
  match s.tasks.find? fun t => t.ctx == ctx && t.tcb == tcb with
  | some t => t.launch.core0
  | none => 0

/-- Read a TCB; the Hearth service brings its page in (20 R364). -/
def State.readTcb (s : State) (ctx : Nat) (tcb : DWord) : State × Except (MFault × Nat) (List Byte) :=
  (s.bringIn ctx tcb.toNat 128).readVa ctx (s.taskCore ctx tcb) 1 tcb.toNat 128

/-- Write a field of a TCB, whose page is brought in first; a fault changes nothing (20 R364). -/
def State.putTcb (s : State) (ctx : Nat) (tcb : DWord) (off : Nat) (bs : List Byte) : State :=
  ((s.bringIn ctx (tcb.toNat + off) bs.length).writeVa ctx (s.taskCore ctx tcb) 1 (tcb.toNat + off) bs).1

/-- The successors listed in a TCB, in list order (20 R363). -/
def State.successors (s : State) (ctx : Nat) (tcb : DWord) (b : List Byte) : State × List DWord :=
  let n := fieldOf b 0x16 2
  let first := (List.range (min n 8)).map fun i => dwordOf (fieldOf b (0x40 + 8 * i) 8)
  if n ≤ 8 then (s, first)
  else
    match (s.bringIn ctx (fieldOf b 0x18 8) (8 * (n - 8))).readVa ctx (s.taskCore ctx tcb) 1 (fieldOf b 0x18 8)
        (8 * (n - 8)) with
    | (s, .error _) => (s, first)
    | (s, .ok more) => (s, first ++ (chunks 8 (n - 8) more).map fun x => dwordOf (ofBytes x))

/-! ## Completion records (20 Table 20.6) -/

structure Outcome where
  status : Nat
  who : Nat
  detail : Nat
  deriving DecidableEq, Repr

def Outcome.ofDone : Outcome := ⟨Status.done, 0xFFFFFFFF, 0⟩

def completionRecord (time : Nat) (tcb tag : DWord) (kind mix : Nat) (o : Outcome) (nfail traps tstart : Nat) : List Byte :=
  bytesOf 8 time ++ bytesOf 8 tcb.toNat ++ bytesOf 8 tag.toNat ++ bytesOf 1 kind ++ bytesOf 1 0 ++ bytesOf 2 mix ++
    bytesOf 4 o.status ++ bytesOf 4 o.who ++ bytesOf 4 nfail ++ bytesOf 4 (sat traps 0xFFFFFFFF) ++ bytesOf 4 o.detail ++
    bytesOf 8 tstart ++ bytesOf 8 0

/-- WHO of a completion record. -/
def whoTeam (mix gix : Nat) : Nat := mix % 65536 * 65536 + gix % 65536

/-- The status of a team from its groups and its Proofer (20 R379). -/
def State.teamOutcome (s : State) (tm : Team) : Outcome :=
  match (s.groupsOf tm.id).find? fun g => g.status != 0 with
  | some g => ⟨g.status.toNat, whoTeam tm.mix g.gix, g.detail.toNat⟩
  | none =>
    match tm.proof with
    | some (st, d) => ⟨st.toNat, 0xFFFFFFFF, d.toNat⟩
    | none => Outcome.ofDone

/-! ## Latched results of waits -/

/-- Give every pending wait of a team whose object p accepts the result f, when it has none yet. -/
def State.latch (s : State) (team : Nat) (p : WaitObj → Bool) (f : Wait → List (Nat × Word)) : State :=
  let one := fun (w : Wait) => if w.result.isNone && p w.obj then { w with result := some (f w) } else w
  let on (g : Group) : Group := { g with wait := g.wait.map one, keptWait := g.keptWait.map one }
  { s with groups := updateWhere (·.team == team) on s.groups }

/-- The four words of a reply block from a destination register on (18 R345). -/
def blockWrites (dst : Nat) (ws : List Word) : List (Nat × Word) :=
  (List.range 4).map fun k => (dst + k, ws.getD k 0)

/-! ## The hold of a Carousel (18 R342 to R344) -/

/-- Clear the array, trail and level (18 R342). -/
def Carousel.cleared (c : Carousel) : Carousel := { c with cells := [], used := [], trail := [], level := 0 }

/-- Carousel commands leave the order, the request list and the machine. -/
def State.dropCarousel (s : State) (p : Nat → Bool) : State :=
  let leave (c : Carousel) : Carousel :=
    { c with order := c.order.filter (fun k => !p k), requests := c.requests.filter fun r => !p r.began }
  { s with
    cmds := s.cmds.filter fun c => !(decide (0x50 ≤ c.func) && p c.id)
    clusters := s.clusters.map fun cl => { cl with car := leave cl.car } }

def WaitObj.isAcq (o : WaitObj) : Bool :=
  match o with
  | .carAcq _ => true
  | _ => false

/-- Teams with a group that is resident. -/
def State.residentTeams (s : State) : List Nat :=
  (s.groups.filter fun g => g.here).map (·.team)

/-- The hold of a Carousel passes to the earliest request, or to nobody; a grant to a team with no resident group starts
its lease, and every waiting CAR.ACQ of the team returns (18 R342, R343). -/
def State.passCarousel (s : State) (cluster : Nat) : State :=
  let cl := s.clusterRec cluster
  match leastBy (fun r => r.began) cl.car.requests with
  | none => s.putCluster { cl with car := { cl.car.cleared with holder := none, leaseEnd := none } }
  | some r =>
    let s := s.putCluster { cl with car := { cl.car.cleared with
      holder := some r.team
      lease := r.lease
      leaseEnd := if s.residentTeams.contains r.team then none else some (s.wall + r.lease) } }
    let acqs := (s.cmds.filter fun c => c.func == 0x50 && c.team == r.team && c.cluster == cluster).map (·.id)
    (s.dropCarousel acqs.contains).latch r.team WaitObj.isAcq fun w =>
      blockWrites w.dst [0, wordOf r.lease]

/-- A wait for the Carousel. -/
def WaitObj.onCarousel (o : WaitObj) : Bool :=
  match o with
  | .carAcq _ | .carProp _ => true
  | _ => false

/-- Every waiting CAR.PROP and CAR.ACQ of a lapsed team returns LOST (18 R358). -/
def State.loseWaits (s : State) (team : Nat) : State :=
  let one := fun (w : Wait) => if w.obj.onCarousel then { w with result := some (blockWrites w.dst [wordOf Status.lost]) } else w
  let on (g : Group) : Group := { g with wait := g.wait.map one, keptWait := g.keptWait.map one }
  let mine := (s.cmds.filter fun c => c.team == team && (c.func == 0x50 || c.func == 0x56)).map (·.id)
  { s.dropCarousel mine.contains with groups := updateWhere (·.team == team) on s.groups }

/-- A lease ends: the Carousel clears, the hold passes, the team is lapsed. -/
def State.lapse (s : State) (cluster : Nat) : State :=
  match (s.clusterRec cluster).car.holder with
  | none => s
  | some t => ((s.loseWaits t).passCarousel cluster).onTeam t fun tm => { tm with lapsed := true }

/-- A lease has run out, and its last tick is over: a group that becomes resident in that tick still cancels it (18 R360). -/
def State.leaseOver (s : State) (cl : Cluster) : Bool := cl.car.leaseEnd.any fun t => decide (t < s.wall)

/-- A lease that is over ends before anything looks at the hold (18 R343). -/
def State.endLease (s : State) (cluster : Nat) : State :=
  if s.leaseOver (s.clusterRec cluster) then s.lapse cluster else s

/-- A team lets go of every Carousel it holds or asks for (18 R344). -/
def State.leaveCarousels (s : State) (team : Nat) : State :=
  let drop (c : Carousel) : Carousel := { c with requests := c.requests.filter (·.team != team) }
  let held := (s.clusters.filter fun cl => cl.car.holder == some team).map (·.num)
  held.foldl State.passCarousel { s with clusters := s.clusters.map fun cl => { cl with car := drop cl.car } }

/-! ## The Oven at the end of a team -/

/-- A team's banks drain and its map is freed (15 R303). -/
def State.leaveOvens (s : State) (team : Nat) (gids : List Nat) : State :=
  { s with clusters := s.clusters.map fun cl =>
      { cl with oven := { cl.oven with
          maps := cl.oven.maps.filter (·.team != team)
          draining := cl.oven.draining.filter (·.1 != team)
          queues := cl.oven.queues.filter fun q => !gids.contains q.gid } } }

/-- What stays of a retired team: its send entries, until its task retires (09 R212). -/
def Team.remains (tm : Team) : Team :=
  { tm with
    life := .retired, mem := [], tags := [], mcopies := [], arrivals := [], queues := [], joinSet := [], wdogTrap := false
    permitTraps := [] }

/-- The team leaves send entries behind. DEDUCED (log 66, unsafe). -/
def Team.hasEntries (tm : Team) : Bool := tm.sends.any (·.declared) && tm.tcb != 0

/-- Forget a team and its groups: slots, lane bytes, reconvergence entries and team memory are free (20 R370). -/
def State.dropTeam (s : State) (team : Nat) : State :=
  let gids := (s.groups.filter (·.team == team)).map (·.id)
  let s := s.leaveCarousels team
  let s := s.leaveOvens team gids
  { s with
    groups := s.groups.filter (·.team != team)
    teams := s.teams.filterMap fun tm => if tm.id = team then (if tm.hasEntries then some tm.remains else none) else some tm
    deliveries := s.deliveries.filter fun d => !gids.contains d.gid
    stores := s.stores.filter (·.team != team)
    cmds := s.cmds.filter (·.team != team)
    dies := s.dies.map fun d => { d with resumed := d.resumed.filter (· != team), fresh := d.fresh.filter (· != team) } }

/-! ## Retirement of a task (20 R367) -/

/-- A reply to a context goes after a launch that was performed before it and has no reply yet (22 R398). -/
def LaunchWait.hold (r : List HearthReply) (w : LaunchWait) : LaunchWait := { w with after := w.after ++ r }

/-- Put replies after the last of some waits of a context; none when the context has no wait there. -/
def holdReplies (ctx : Nat) (r : List HearthReply) : List LaunchWait → Option (List LaunchWait)
  | [] => none
  | w :: rest =>
    match holdReplies ctx r rest with
    | some l => some (w :: l)
    | none => if w.ctx = ctx then some (w.hold r :: rest) else none

/-- Replies to a context leave in the order in which its requests were performed (22 R398). -/
def State.sendReplies (s : State) (ctx : Nat) (r : List HearthReply) : State :=
  match holdReplies ctx r s.launchWaits with
  | some l => { s with launchWaits := l }
  | none => { s with replies := s.replies ++ r }

/-- The launches that waited for a task are answered, each with what waits behind it (22 R398, R399). -/
def answerLaunches (p : LaunchWait → Bool) (reply : LaunchWait → HearthReply) : List LaunchWait → State → State
  | [], s => s
  | w :: rest, s =>
    if p w then answerLaunches p reply rest (s.sendReplies w.ctx (reply w :: w.after))
    else answerLaunches p reply rest { s with launchWaits := s.launchWaits ++ [w] }

/-- A reply of the Hearth to a launch that waited for this task (22 R399). -/
def State.replyLaunches (s : State) (ctx : Nat) (tcb : DWord) (status : Nat) (ran : Bool) (rcd : List Byte) : State :=
  let body := if ran then bytesOf 8 tcb.toNat ++ bytesOf 8 0 ++ rcd else []
  answerLaunches (fun w => w.ctx == ctx && w.tcb == tcb) (fun w => ⟨w.conn, 4, w.ctx, w.tag, wordOf status, 0, body⟩)
    s.launchWaits { s with launchWaits := [] }

/-- Residency reports for a launch packet whose task was refused or aborted (20 R382). -/
def State.reportEnd (s : State) (ctx : Nat) (tcb : DWord) (status : Nat) : State :=
  let mine := s.gangs.filter fun g => g.ctx == ctx && g.tcb == tcb
  let due := mine.filter fun g => !g.reported && (status == Status.refused || status == Status.aborted)
  { s with
    reports := s.reports ++ due.map fun g => ⟨g.pkt, wordOf status, 0, dwordOf s.wall⟩
    gangs := s.gangs.filter fun g => !(g.ctx == ctx && g.tcb == tcb) }

/-- One predecessor of a TCB has retired; true when the TCB is then submitted and without predecessors. -/
def State.decrement (s : State) (ctx : Nat) (status : Nat) (succ : DWord) : State × Bool :=
  match s.readTcb ctx succ with
  | (s, .error _) => (s, false)
  | (s, .ok b) =>
    let pred := fieldOf b 0x10 4
    let s := if status ≠ Status.done ∧ bitAt (fieldOf b 0x15 1) 0 ∧ fieldOf b 0x24 4 = 0 then
      s.putTcb ctx succ 0x24 (bytesOf 4 status) else s
    let s := s.putTcb ctx succ 0x10 (bytesOf 4 (pred + 2 ^ 32 - 1))
    (s, decide (pred = 1) && fieldOf b 0x14 1 == 1)

/-- A child of a join set has retired (20 R376). -/
def Team.childDone (tm : Team) (tcb : DWord) (status : Nat) : Team :=
  let mark (c : Child) : Child := { c with done := some (wordOf status) }
  { tm with joinSet := updateWhere (fun c => c.tcb == tcb && c.done.isNone) mark tm.joinSet }

/-- What is still to do for TCBs of a context (R366, R367). -/
inductive TcbWork where
  /-- it becomes ready. -/
  | ready (ctx : Nat) (tcb : DWord)
  /-- a predecessor has retired, with a status. -/
  | decrement (ctx status : Nat) (tcb : DWord)
  deriving DecidableEq, Repr

/-- Retire a task with an outcome; what is then to do for its successors, in list order. -/
def State.retireTask (s : State) (t : Task) (o : Outcome) : State × List TcbWork :=
  let rcd := completionRecord s.wall t.tcb t.tag 1 0xFFFF o t.nfail t.traps (t.tstart.getD 0)
  let s := s.putTcb t.ctx t.tcb 0x24 (bytesOf 4 o.status)
  let s := s.putTcb t.ctx t.tcb 0x30 (bytesOf 8 s.wall)
  let s := s.putTcb t.ctx t.tcb 0x14 (bytesOf 1 4)
  let s := s.pushEvent (dieOfCore t.launch.core0) rcd
  let s := s.replyLaunches t.ctx t.tcb o.status t.tstart.isSome rcd
  let s := s.reportEnd t.ctx t.tcb o.status
  let s := { s with
    tasks := s.tasks.filter (·.id != t.id)
    teams := (s.teams.filter fun (tm : Team) => !(decide (tm.life = TeamLife.retired) && tm.ctx == t.ctx && tm.tcb == t.tcb)).map
      fun (tm : Team) => if tm.ctx = t.ctx then tm.childDone t.tcb o.status else tm }
  match s.readTcb t.ctx t.tcb with
  | (s, .error _) => (s, [])
  | (s, .ok b) =>
    match s.successors t.ctx t.tcb b with
    | (s, succs) => (s, succs.map (.decrement t.ctx o.status))

/-! ## Readiness (20 R366) -/

def LaunchRecord.team (r : LaunchRecord) (id ctx : Nat) (tcb tag : DWord) (mix : Nat) : Team :=
  { Team.none with
    id, ctx, tcb, tag, mix, launch := r
    mcopies := List.replicate 32 0
    sends := List.replicate 16 ⟨false, 0, 0, 0⟩ }

/-- The ranges of a record that are not resident: a page of them lies in the context's backing store (07 R175).
DEDUCED (log 31, unsafe). -/
def State.absentRanges (s : State) (ctx : Nat) (r : LaunchRecord) : List (DWord × DWord) :=
  let held := ((s.context? ctx).map (·.backing)).getD []
  r.ranges.filter fun x => held.any fun p =>
    decide (p.1.toNat < x.1.toNat + x.2.toNat) && decide (x.1.toNat < p.1.toNat + pageSize p.2.1)

/-- A ready task's teams join the new tier of its compute die, in mix order (20 R369); those of a removed context join it
when the context returns. -/
def State.enqueueTask (s : State) (t : Task) : State :=
  let ids := (List.range t.launch.teams).map (s.nextId + ·)
  let teams := (List.range t.launch.teams).map fun m => t.launch.team (s.nextId + m) t.ctx t.tcb t.tag m
  let die := s.dieRec (dieOfCore t.launch.core0)
  let s := { s with nextId := s.nextId + t.launch.teams, teams := s.teams ++ teams }
  let s := if s.stoppedCtx t.ctx then s else s.putDie { die with fresh := die.fresh ++ ids }
  s.putTask { t with queued := true }

/-- Whether a task is a gang: its teams wait for START outside the queue (20 R383). -/
def State.isGang (s : State) (ctx : Nat) (tcb : DWord) : Bool :=
  s.gangs.any fun g => g.ctx == ctx && g.tcb == tcb && g.gang

/-- A TCB becomes ready: its record is read and checked. An outcome when it retires at once. -/
def State.readyOne (s : State) (ctx : Nat) (tcb : DWord) : State × Option (Task × Outcome) :=
  match s.context? ctx with
  | none => (s, none)
  | some c =>
    if c.halted.isSome then (s, none)
    else
      match s.readTcb ctx tcb with
      | (s, .error _) => (s, none)
      | (s, .ok b) =>
        let s := s.putTcb ctx tcb 0x14 (bytesOf 1 2)
        let old := s.tasks.find? fun t => t.ctx == ctx && t.tcb == tcb
        let base : Task :=
          { id := (old.map (·.id)).getD s.nextId, ctx, tcb, tag := dwordOf (fieldOf b 0x08 8), launch := LaunchRecord.none
            ready := true, pendingRanges := [], queued := false, teamsLeft := 0, tstart := none, worst := none, nfail := 0
            traps := 0 }
        let rest := s.tasks.filter (·.id != base.id)
        let s := { s with nextId := if old.isSome then s.nextId else s.nextId + 1, tasks := rest ++ [base] }
        let st := fieldOf b 0x24 4
        if bitAt (fieldOf b 0x15 1) 0 ∧ st ≠ 0 then (s, some (base, ⟨st, 0xFFFFFFFF, 0⟩))
        else
          match s.readRecord ctx (s.taskCore ctx tcb) true (dwordOf (fieldOf b 0 8)) with
          | (s, .unreadable) => (s, some (base, ⟨Status.refused, 0xFFFFFFFF, 0xFFFFFFFF⟩))
          | (s, .fails off) => (s, some (base, ⟨Status.refused, 0xFFFFFFFF, off⟩))
          | (s, .good r) =>
            let t := { base with launch := r, teamsLeft := r.teams, pendingRanges := s.absentRanges ctx r }
            let s := s.putTask t
            let s := s.putTcb ctx tcb 0x22 (bytesOf 2 r.teams)
            (if t.pendingRanges.isEmpty && !s.isGang ctx tcb then s.enqueueTask t else s, none)

/-- Do what is to do for TCBs in order; what a retirement on the way brings comes before what follows it (R367). -/
def tcbWork : Nat → List TcbWork → State → State
  | 0, _, s => s
  | _ + 1, [], s => s
  | fuel + 1, .decrement ctx status tcb :: rest, s =>
    match s.decrement ctx status tcb with
    | (s, true) => tcbWork fuel (.ready ctx tcb :: rest) s
    | (s, false) => tcbWork fuel rest s
  | fuel + 1, .ready ctx tcb :: rest, s =>
    match s.readyOne ctx tcb with
    | (s, none) => tcbWork fuel rest s
    | (s, some (t, o)) =>
      match s.retireTask t o with
      | (s, more) => tcbWork fuel (more ++ rest) s

/-- More than the TCBs that memory can hold. -/
def workFuel : Nat := 2 ^ 48

/-- TCBs that are submitted and have no predecessor become ready (20 R366). -/
def State.makeReady (s : State) (l : List (Nat × DWord)) : State := tcbWork workFuel (l.map fun x => .ready x.1 x.2) s

/-- Retire a task, with what its retirement brings for its successors. -/
def State.endTask (s : State) (t : Task) (o : Outcome) : State :=
  match s.retireTask t o with
  | (s, more) => tcbWork workFuel more s

/-! ## Retirement of a team (10 R231, 20 R379) -/

/-- The team holds room on its cores (20 R368, R370). -/
def Team.holds (tm : Team) : Bool :=
  match tm.life with
  | .proofing | .running | .stopping | .ended => tm.core.isSome
  | _ => false

/-- The cores of a team that retires are freed (20 R369). DEDUCED (log 48, unsafe). -/
def State.freeCores (s : State) (tm : Team) : State :=
  match tm.core with
  | none => s
  | some c =>
    if tm.holds then
      let die := s.dieRec (dieOfCore c)
      s.putDie { die with freed := distinct (sortBy id (die.freed ++ if tm.launch.pair then [c, c + 1] else [c])) }
    else s

/-- Write a team's completion record, free what it held, and retire its task with its last team. -/
def State.retireTeam (s : State) (tm : Team) (o : Outcome) : State :=
  let gs := s.groupsOf tm.id
  let s := gs.foldl (fun s g => s.flush g) s
  let traps := gs.foldl (fun n g => n + g.traps) 0
  let nfail := (gs.filter (·.status != 0)).length
  let rcd := completionRecord s.wall tm.tcb tm.tag 0 tm.mix o nfail traps (tm.tstart.getD 0)
  let s := if tm.launch.event || tm.tcb == 0 then s.pushEvent (dieOfCore tm.launch.core0) rcd else s
  let s := (s.freeCores tm).dropTeam tm.id
  match s.tasks.find? fun t => t.ctx == tm.ctx && t.tcb == tm.tcb with
  | none => s
  | some t =>
    let worse := o.status != Status.done &&
      match t.worst with
      | none => true
      | some (m, _) => decide (tm.mix < m)
    let t := { t with
      teamsLeft := t.teamsLeft - 1
      nfail := t.nfail + if o.status = Status.done then 0 else 1
      traps := t.traps + traps
      worst := if worse then some (tm.mix, wordOf o.status, wordOf o.who, wordOf o.detail) else t.worst }
    let s := s.putTask t
    let s := s.putTcb t.ctx t.tcb 0x22 (bytesOf 2 t.teamsLeft)
    if t.teamsLeft = 0 then
      s.endTask t (match t.worst with
        | none => Outcome.ofDone
        | some (_, st, who, d) => ⟨st.toNat, who.toNat, d.toNat⟩)
    else s

/-! ## Halting a context (14 R294) -/

/-- Every team record and task record of a halted context has status HALTED, whatever had been reported before: R294 says so
of every record, beside the order that R379 gives. `who`: WHO in the record of each team. DEDUCED (log 28, unsafe). -/
def State.retireHalted (s : State) (ctx reason : Nat) (who : Nat → Nat) : State :=
  let s := { s with tasks := updateWhere (·.ctx == ctx) (fun (t : Task) => { t with worst := none }) s.tasks }
  let s := (s.teams.filter fun tm => tm.ctx == ctx && tm.life != .retired).foldl (fun s tm =>
    s.retireTeam tm ⟨Status.halted, who tm.id, reason⟩) s
  (s.tasks.filter (·.ctx == ctx)).foldl (fun s t =>
    s.endTask t ⟨Status.halted, 0xFFFFFFFF, reason⟩) s

/-- The cluster with only the commands that keep holds for. -/
def Cluster.without (cl : Cluster) (keep : Nat → Bool) : Cluster :=
  let ofQueue (q : OvenQueue) : OvenQueue := { q with cmds := q.cmds.filter keep }
  { cl with
    car := { cl.car with order := cl.car.order.filter keep }
    oven := { cl.oven with queues := cl.oven.queues.map ofQueue } }

/-- Stop a whole context: its groups, its engine commands, its teams and tasks (14 R294). Its reductions in flight end first,
performed or logged (09 R189). -/
def State.haltContext (s : State) (ctx reason : Nat) (src : Nat) (who : Nat → Nat) : State :=
  let s := s.netRecord 0x0007 src (bytesOf 4 ctx ++ bytesOf 4 reason ++ bytesOf 8 0)
  let s := s.onContext ctx fun c => { c with halted := some (wordOf reason) }
  let s := (s.reductions.filter (·.ctx == ctx)).foldl State.endReduction s
  let s := { s with
    cmds := s.cmds.filter (·.ctx != ctx)
    hearthEvents := s.hearthEvents + 1
    clusters := s.clusters.map (fun (cl : Cluster) => cl.without fun k => s.cmds.any fun c => c.id == k && c.ctx != ctx)
    dies := s.dies.map (fun (d : Die) => { d with bins := d.bins.filter (·.ctx != ctx) }) }
  s.retireHalted ctx reason who

/-- Halt a context on behalf of a group on a core (14 R294). -/
def State.haltBy (s : State) (g : Group) (reason : Nat) : State :=
  let tm := s.teamOf g
  s.haltContext tm.ctx reason (netSrc 0 (s.coreOf g))
    (fun t => if t = tm.id then whoTeam tm.mix g.gix else 0xFFFFFFFF)

/-- A double trap (14 R272): a Safety Net entry, and the context is halted. -/
def State.doubleTrap (s : State) (g : Group) (cause : Nat) : State :=
  let s := s.netRecord 0x0005 (netSrc 0 (s.coreOf g))
    (bytesOf 8 g.arch.pc.toNat ++ bytesOf 4 cause ++ bytesOf 4 (s.whoOf g))
  s.haltBy g 0xFFFFFFFF

end Sys2Proof.Machine
end

