-- ==== Sys2Proof/Machine/Ops.lean ====
section
/-! DEFINITION. Taking a trap and returning from one (14 R268 to R276, R286, R410), the records that traps write (03 R62,
07 R162), and the end of a group (14 R284). Every instruction that traps takes it through State.deliver. -/

namespace Sys2Proof.Machine

/-! ## Allotments and places -/

/-- Registers of each block that the program may name: t, g, m, k (03 R50, 14 Table 14.2). -/
structure Allotment where
  t : Nat
  g : Nat
  m : Nat
  k : Nat
  deriving DecidableEq, Repr

def Group.allotment (g : Group) (tm : Team) : Allotment :=
  if g.super then ⟨16, 32, 0, 0⟩
  else ⟨roundUp tm.launch.tregs 8, roundUp tm.launch.gregs 8, roundUp tm.launch.mregs 8, tm.launch.kargs⟩

/-- Virtual address of a group save area (14 R275). -/
def Team.groupSave (tm : Team) (gix : Nat) : Nat :=
  tm.save.toNat + roundUp tm.launch.size 8192 + gix * 0xE000

/-- The handle of a group's operand window: its save area, or the emergency area while that holds the image (14 Table
14.2, R276). -/
def State.windowHandle (s : State) (g : Group) : Nat :=
  if g.emergency.isSome then Config.emergVa (s.coreOf g) else (s.teamOf g).groupSave g.gix

/-- The threads for which the guard holds (03 R48). -/
def guardMask (a : Arch) (width : Nat) (mode : DWord) : DWord :=
  if bitAt mode.toNat 4 then
    let n := bits mode.toNat 0 3
    let inv := bitAt mode.toNat 3
    a.mask &&& maskOf width fun i => (((a.p.getD n Ranked.zero).at i).1 != 0) != inv
  else a.mask

/-! ## Trap records (03 Table 3.11) -/

/-- How a record describes an operand slot. -/
inductive SlotView where
  | unused
  /-- a code that names no register. -/
  | other
  /-- effective code, operand, resolved outside the allotment. -/
  | reg (code : Nat) (o : Operand) (oob : Bool)
  deriving DecidableEq, Repr

/-- The threads that are Active for a word (03 R48): the guard holds for none of the control class. -/
def activeFor (a : Arch) (width : Nat) (word : Word) : DWord :=
  if word.toNat / 2 ^ 24 < 0x10 then a.mask else guardMask a width a.mode

/-- SPILL and DEPTH of a name's crumbs (03 Table 3.12). -/
def Ranked.crumbBits (r : Ranked) : Nat :=
  let cs := r.crumbs
  (if cs.any (·.spill.isSome) then 128 else 0) + 16 * sat (cs.foldl (fun d c => max d (depthOf cs c.mask)) 0) 7

/-- The rank state byte of a name (03 Table 3.12); a predicate is no register, so that its FORM is 5, and its crumbs count. A
name beyond the allotment or the file reads as an unused one, of which R62 says nothing. DESIGN CHOICE (log 105, unsafe). -/
def rankByte (a : Arch) (o : Operand) : Nat :=
  match o with
  | .t n =>
    let r := a.t.getD n Ranked.zero
    r.crumbBits + match r with
      | .perThread _ => 0
      | .widened _ _ _ => 1
  | .g _ => 1
  | .m _ => 2
  | .k _ => 3
  | .none => 6
  | .pred n _ => (a.p.getD n Ranked.zero).crumbBits + 5
  | _ => 4

def SlotView.rank (a : Arch) (v : SlotView) : Nat :=
  match v with
  | .unused => 6
  | .other => 5
  | .reg _ o _ => rankByte a o

def SlotView.code (v : SlotView) : Nat :=
  match v with
  | .reg c _ _ => c
  | _ => 0xFF

def SlotView.oob (v : SlotView) : Bool :=
  match v with
  | .reg _ _ b => b
  | _ => false

/-- Threads whose read of the slot resolves to a crumb. -/
def SlotView.crumbMask (g : Group) (width : Nat) (v : SlotView) : DWord :=
  match v with
  | .reg _ (.t n) _ => maskOf width fun i => (crumbAt (g.arch.t.getD n Ranked.zero).crumbs i).isSome
  | .reg _ (.pred n _) _ => maskOf width fun i => (crumbAt (g.arch.p.getD n Ranked.zero).crumbs i).isSome
  | .reg _ (.m n) _ => if (g.mcrumbs.getD n none).isSome then lowMask width else 0
  | _ => 0

/-- Threads whose copy of the slot is empty. -/
def SlotView.emptyMask (g : Group) (width : Nat) (v : SlotView) : DWord :=
  match v with
  | .reg _ (.t n) _ => maskOf width fun i => !((g.arch.t.getD n Ranked.zero).at i).2
  | .reg _ (.g n) _ => if (g.arch.g.getD n ⟨0, true⟩).full then 0 else lowMask width
  | _ => 0

/-- The 128 bytes of a record in the layout of Table 3.11; slots in the order d, a, b. DEDUCED (log 16, unsafe). -/
def trapRecord (g : Group) (width : Nat) (word : Word) (cause sub : Nat) (guarded : DWord) (slots : List SlotView)
    (handle detail : Nat) : List Byte :=
  let d := slots.getD 0 .unused
  let a := slots.getD 1 .unused
  let b := slots.getD 2 .unused
  let all := [d, a, b]
  bytesOf 8 g.arch.pc.toNat ++ bytesOf 4 word.toNat ++ bytesOf 4 (cause * 256 + sub % 256) ++
    bytesOf 8 g.arch.mode.toNat ++ bytesOf 8 g.arch.mask.toNat ++ bytesOf 8 guarded.toNat ++
    g.arch.ix.flatMap (fun w => bytesOf 4 w.toNat) ++
    all.flatMap (fun v => bytesOf 1 (v.rank g.arch)) ++ [0] ++ all.flatMap (fun v => bytesOf 1 v.code) ++
    bytesOf 1 ((if d.oob then 1 else 0) + (if a.oob then 2 else 0) + (if b.oob then 4 else 0)) ++ bytesOf 4 0 ++
    all.flatMap (fun v => bytesOf 8 (v.crumbMask g width).toNat) ++
    all.flatMap (fun v => bytesOf 8 (v.emptyMask g width).toNat) ++ bytesOf 8 handle ++ bytesOf 8 detail

/-- The window's view of a slot: what WINRD and WINWR may reach (14 R288). A slot recorded outside the allotment cannot be
reached. DESIGN CHOICE (log 106, unsafe). -/
def SlotView.window (pair : Bool) (v : SlotView) : Option (Nat × Bool) :=
  match v with
  | .reg c (.pred n _) _ => some (if c = 0xFF then 0x100 + n else c, false)
  | .reg c _ false => some (c, pair)
  | _ => none

/-! ## The end of a group (14 R284) -/

/-- A team's lease on its Carousel starts when no group of it is resident (18 R343). -/
def State.startLease (s : State) (team : Nat) : State :=
  if s.groups.any fun g => g.team == team && g.here then s
  else
    let arm (c : Carousel) : Carousel :=
      if c.holder = some team && c.leaseEnd.isNone then { c with leaseEnd := some (s.wall + c.lease) } else c
    { s with clusters := s.clusters.map (fun (cl : Cluster) => { cl with car := arm cl.car }) }

/-- A group that ends may have been the last resident one of a team that has others, which are away (18 R343). -/
def State.leaseAtEnd (s : State) (gid : Nat) : State :=
  match s.group? gid with
  | none => s
  | some g => if s.groups.any fun h => h.team == g.team && h.live then s.startLease g.team else s

/-- The group ends and frees its slot; its engine commands run on. -/
def State.endGroup (s : State) (gid : Nat) (status detail : Word) : State :=
  let s := s.onGroup gid fun g =>
    { g with
      arch := { Arch.launch 0 0 with sticky := g.arch.sticky }
      phase := .ended, saved := false, super := false, rwLimit := none, firstIssue := none, wait := none, keptWait := none
      keptLimit := none, keptIssue := none, keptReplay := none, stalled := false, stopAt := none, replay := none, pend := none
      trapped := none
      winWrites := [], himage := none, overflow := [], mcrumbs := List.replicate 32 none, status, detail }
  let leave (c : Core) : Core :=
    { c with monitors := c.monitors.filter (·.1 != gid), emergUse := if c.emergUse = some gid then none else c.emergUse }
  { s with deliveries := s.deliveries.filter (·.gid != gid), cores := s.cores.map leave }.leaseAtEnd gid

/-! ## Starting a handler (14 R269, Table 14.2) -/

/-- The state in which a handler starts: the low two bits of a program counter are always zero (03 R40); ESC, which Table
14.2 does not list, stays the group's (09 R194). DEDUCED (log 40, unsafe). -/
def handlerArch (old : Arch) (entry : DWord) (width : Nat) (area : Nat) (cause : Nat) : Arch :=
  let a := { Arch.launch (entry &&& ~~~ 3) width with esc := old.esc, timeouts := old.timeouts, lastObj := old.lastObj }
  { a with g := ((a.g.set 0 ⟨wordOf area, true⟩).set 1 ⟨wordOf (area / 2 ^ 32), true⟩).set 2 ⟨wordOf cause, true⟩ }

/-- What interrupts between instructions: an asynchronous trap (14 R271), or a stop (cause 0). The limit of a blocked
read, which has then armed it, counts on. -/
def Trapped.between (t : Trapped) : Bool := t.cause == 0 || t.cause == 0x0C || t.cause == 0x0D

/-- The group with its handler about to run its first instruction. A replay does not restart the count of a deadline
(02 R36). -/
def Group.enter (g : Group) (entry : DWord) (width area cause : Nat) (t : Trapped) : Group :=
  { g with
    arch := handlerArch g.arch entry width area cause
    overflow := g.overflow ++ g.arch.spilled
    phase := .ready, super := true, rwLimit := none, firstIssue := none, wait := none, replay := none, keptWait := g.wait
    keptLimit := if t.between then g.rwLimit else none
    keptIssue := if t.between || t.cause == 0x02 then g.firstIssue else none
    keptReplay := if t.between || t.cause == 0x02 then g.replay else none
    trapped := some t, winWrites := [], pend := none }

/-- WLIMIT of an image: the armed limit of the pending wait or blocking read (14 Table 14.3). -/
def Group.wlimit (g : Group) : Nat :=
  match g.wait with
  | some w => w.limit
  | none => g.rwLimit.getD 0

/-- The fields of the image of a group in a state (14 Table 14.3). -/
def State.imageOf (s : State) (g : Group) (state : Nat) (record : List Byte) : List (Nat × List Byte) :=
  imageFields g.arch (s.teamOf g).launch.width state g.cclk g.wlimit record

/-- STATE of an image (14 Table 14.3). -/
def Group.stateCode (g : Group) : Nat :=
  if g.super then 5
  else
    match g.phase with
    | .blocked => 1
    | .waiting => 2
    | .parked => 3
    | .trapPending | .held => 4
    | _ => 0

/-- The standard supervisor routine ends the group with TRAPPED and the record's CAUSE word (14 R410). -/
def State.standardEnd (s : State) (gid : Nat) (cause : Nat) : State :=
  s.endGroup gid (wordOf Status.trapped) (wordOf cause)

/-- The entry address of a context's handler. -/
def State.trapVec (s : State) (g : Group) : DWord := (s.contextOf (s.teamOf g)).trapVec

/-- Start the handler of a trap whose record and image stand at `area`, or let the standard routine end the group
(14 R269, R410). -/
def State.startHandler (s : State) (g : Group) (area cause : Nat) (t : Trapped) : State :=
  let tm := s.teamOf g
  if s.trapVec g = 0 then (s.putGroup g).standardEnd g.id cause
  else s.putGroup (g.enter (s.trapVec g) tm.launch.width area cause t)

/-- The word at a group's pc as a fetch reads it, or 0 when it cannot be fetched (14 R268, 07 R174, 12 R255). -/
def State.peekWord (s : State) (g : Group) : Word :=
  let pc := g.arch.pc.toNat
  if 2 ^ 52 ≤ pc then 0
  else
    match s.walk (s.teamOf g).ctx pc with
    | .error _ => 0
    | .ok l =>
      match l.check g.priv .fetch with
      | some _ => 0
      | none =>
        match s.segBytes ⟨0, Pte.frame l.pte + pc % pageSize l.level, 4, l.pte⟩ 0 4 with
        | .ok bs => wordOf (ofBytes bs)
        | .error _ => 0

/-- The record of cause 0x0E, which names no instruction (14 R268), kept above the image in the emergency area (14 R276;
the place is the model's). DESIGN CHOICE (log 21, unsafe). -/
def State.emergencyRecord (s : State) (g : Group) (sub handle addr : Nat) : List Byte :=
  let width := (s.teamOf g).launch.width
  let word := s.peekWord g
  trapRecord g width word 0x0E sub (activeFor g.arch width word) [] handle addr

/-- Where the record of cause 0x0E lies in the emergency area. -/
def emergencyRecordAt : Nat := 0xE000

/-- What the group keeps of a stop or a hold while the handler of cause 0x0E runs. -/
def SaveCause.keeps (why : SaveCause) : Bool := why != .trap

/-- A write of an image or record faulted (14 R276): the image goes to the core's emergency area as it would have gone to
the save area, and cause 0x0E is taken; a second such save on the core waits, not ready. -/
def State.emergencySave (s : State) (g : Group) (record : List Byte) (t : Trapped) (why : SaveCause) (f : MFault × Nat) :
    State :=
  let core := s.coreRec (s.coreOf g)
  match core.emergUse with
  | some _ =>
    match why with
    | .trap => s.putGroup { g with phase := .trapPending, pend := some record, trapped := some t }
    | .stop _ | .hold => s.putGroup { g with stalled := true }
  | none =>
    let segs : List Seg := [⟨0, core.emerg.toNat, 0x10000, 0⟩]
    let s := s.putImage segs (s.imageOf g (match why with | .trap => 5 | .stop _ | .hold => g.stateCode) record)
    let handle := Config.emergVa (s.coreOf g)
    let s := s.putSpan segs emergencyRecordAt (s.emergencyRecord g f.1.sub handle f.2)
    let s := s.putCore { core with emergUse := some g.id }
    let keep (h : Group) : Group := if why.keeps && h.live then { h with pend := g.pend } else h
    (s.startHandler { g with emergency := some why, stalled := false } handle (0x0E00 + f.1.sub) t).onGroup g.id keep

/-- Deliver a trap (14 R269): the record and the image go to the group save area, and the handler starts. A trap inside a
handler is a double trap (14 R272). DEDUCED (log 91, unsafe). -/
def State.deliver (s : State) (g : Group) (record : List Byte) (t : Trapped) : State :=
  let t := { t with clk := g.cclk }
  let cause := fieldOf record 0x0C 4
  if g.super then s.doubleTrap g cause
  else
    let tm := s.teamOf g
    let g := { g with traps := g.traps + 1 }
    let area := tm.groupSave g.gix
    match s.span tm.ctx (s.coreOf g) 1 .write area 0xE000 with
    | (s, .error f) => s.emergencySave g record t .trap f
    | (s, .ok segs) =>
      let s := s.putImage segs (s.imageOf g 5 record)
      s.startHandler g area cause t

/-- A trap that names an instruction (14 R268): cause, sub-cause, DETAIL, its word and slots. -/
def State.trap (s : State) (g : Group) (word : Word) (cause sub detail : Nat) (guarded : DWord) (slots : List SlotView)
    (pairs : List Bool) : State :=
  let rcd := trapRecord g (s.teamOf g).launch.width word cause sub guarded slots (s.windowHandle g) detail
  s.deliver g rcd ⟨g.arch.pc, cause, g.cclk, (slots.zip pairs).map fun x => x.1.window x.2⟩

/-- A trap at an instruction boundary, that names no instruction (14 R268, R271; 09 R194). DEDUCED (log 39, unsafe). -/
def State.plainTrap (s : State) (g : Group) (cause sub detail : Nat) : State :=
  let word := s.peekWord g
  s.trap g word cause sub detail (activeFor g.arch (s.teamOf g).launch.width word) [.unused, .unused, .unused]
    [false, false, false]

/-! ## Memory faults (07 R162, Table 7.6) -/

/-- What the standard routine needs to emulate a misaligned access (07 R164). -/
structure Emulation where
  store : Bool
  team : Bool
  w : Nat
  signed : Bool
  /-- destination or data operand. -/
  d : Operand
  scope : Nat
  deriving DecidableEq, Repr

/-- A memory fault of an instruction. -/
structure Fault7 where
  sub : Nat
  /-- address, or team-memory offset, of the lowest unfinished thread. -/
  va : Nat
  kind : Nat
  width : Nat
  level : Nat
  pte : Nat
  pidx : Nat
  deriving DecidableEq, Repr

def memoryRecord (g : Group) (word : Word) (mode : DWord) (unfin : DWord) (f : Fault7) (handle : Nat) : List Byte :=
  bytesOf 8 g.arch.pc.toNat ++ bytesOf 4 word.toNat ++ bytesOf 4 (0x0200 + f.sub) ++ bytesOf 8 mode.toNat ++
    bytesOf 8 g.arch.mask.toNat ++ bytesOf 8 unfin.toNat ++ bytesOf 8 f.va ++ bytesOf 1 f.kind ++ bytesOf 1 f.width ++
    bytesOf 1 f.level ++ [0] ++ bytesOf 4 f.pidx ++ bytesOf 8 f.pte ++ bytesOf 8 handle ++ zeroBytes 56

/-- The value of loaded bytes as register words: extended to 32 bits, or a pair (05 R95). -/
def loadedWords (bs : List Byte) (signed : Bool) : List Word :=
  let w := 8 * bs.length
  let n := ofBytes bs
  if w = 64 then pairWords n
  else if signed then [wordOf (wrap (signedOf n w) 32)]
  else [wordOf n]

/-- Land words in an operand's copies for one thread, each full. -/
def Group.land (g : Group) (width : Nat) (o : Operand) (i : Nat) (ws : List Word) : Group :=
  (ws.zipIdx).foldl (fun g x =>
    match o.above x.2 with
    | .t n => g.onArch (·.onT n fun r => r.store width (dwordOf (2 ^ i)) fun _ => x.1)
    | .g n => g.onArch (·.setG n x.1)
    | .m n => g.setM n x.1
    | _ => g) g

/-- The words of an operand for one thread: one, or a pair. -/
def Group.words (g : Group) (tm : Team) (o : Operand) (i n : Nat) : List Word :=
  let c : Ctx := ⟨0, g, tm, g.arch.mode, tm.launch.width, 0, .none, .none, .none, ⟨0, []⟩⟩
  c.readWords o n i

/-- One byte access of the emulation at a place: the byte, its leaf; none when it faults. The spec does not say at which level
the routine's accesses are checked: at user level, as the instruction's own. DESIGN CHOICE (log 126, unsafe). -/
def State.emulatePlace (s : State) (g : Group) (team store : Bool) (a : Nat) : State × Option (Loc × Hit) :=
  let tm := s.teamOf g
  if team then
    if a < tm.launch.tmem && (!store || !(tm.tags.any fun t => t.1 == a / 16)) then (s, some (.team tm.id a, ⟨a, 0, 0⟩))
    else (s, none)
  else
    match s.translate tm.ctx (s.coreOf g) 0 a (if store then .write else .read) with
    | (s, .error _) => (s, none)
    | (s, .ok h) => (s, some (.phys (s.homePa h.pa), h))

/-- Emulate a store of a thread, byte by byte in ascending order; false when a byte faults. -/
def State.emulateStore (s : State) (g : Group) (e : Emulation) (a : Nat) : List Byte → State × Bool
  | [] => (s, true)
  | b :: bs =>
    match s.emulatePlace g e.team true (if e.team then a % 2 ^ 32 else a) with
    | (s, none) => (s, false)
    | (s, some (l, h)) => emulateStore (s.issueStore g e.scope (Pte.cp h.pte) (Pte.dom h.pte) l [b]) g e (a + 1) bs

/-- Emulate a load of a thread, byte by byte in ascending order; each byte as LD would read it (07 R174, 12 R255). -/
def State.emulateLoad (s : State) (g : Group) (e : Emulation) (a : Nat) : Nat → List Byte → State × Option (List Byte)
  | 0, acc => (s, some acc)
  | n + 1, acc =>
    match s.emulatePlace g e.team false (if e.team then a % 2 ^ 32 else a) with
    | (s, none) => (s, none)
    | (s, some (l, h)) =>
      match (if e.team then Except.ok (.at l 1) else s.readSource h 1) with
      | .error _ => (s, none)
      | .ok src =>
        let s := s.readyToRead g l 1
        emulateLoad s g e (a + 1) n (acc ++ s.srcBytes g s.nextId src)

/-- The standard routine's emulation of the misaligned threads among the unfinished ones; those left are replayed
(07 R164, 14 R410). A fault of one of its accesses is a double trap (14 R272). DEDUCED (log 20, unsafe). -/
def State.emulate (s : State) (gid : Nat) (e : Emulation) (rp : Replay) : List (Nat × DWord) → State
  | [] =>
    s.onGroup gid fun g =>
      let mis := rp.addrs.foldl (fun m x => if x.2.toNat % e.w = 0 then m else m &&& ~~~ (dwordOf (2 ^ x.1))) rp.unfin
      { g with phase := .ready, replay := some { rp with unfin := if rp.addrs.length = 1 then 0 else mis } }
  | (i, a) :: rest =>
    match s.group? gid with
    | none => s
    | some g =>
      if a.toNat % e.w = 0 || !inMask rp.unfin i then emulate s gid e rp rest
      else if e.store then
        let bs := ((g.words (s.teamOf g) e.d i (if e.w = 8 then 2 else 1)).flatMap fun w => bytesOf 4 w.toNat).take e.w
        match s.emulateStore g e a.toNat bs with
        | (s, false) => s.doubleTrap g 0x0206
        | (s, true) => emulate s gid e rp rest
      else
        match s.emulateLoad g e a.toNat e.w [] with
        | (s, none) => s.doubleTrap g 0x0206
        | (s, some bs) =>
          let g := g.land (s.teamOf g).launch.width e.d i (loadedWords bs e.signed)
          emulate (s.putGroup g) gid e rp rest

/-- A page of the context that the Hearth service keeps in its backing store (07 R175). -/
def State.inBacking (s : State) (ctx va : Nat) : Bool :=
  match s.context? ctx with
  | none => false
  | some c => c.backing.any fun p => va / pageSize p.2.1 == p.1.toNat / pageSize p.2.1

/-- Take a memory fault (07 R162): the group parks, and its handler gets the record of Table 7.6. A not-present page of
the backing store is serviced outside the group; a misaligned access of a context without a handler is emulated
(14 R410). -/
def State.memoryFault (s : State) (g : Group) (word : Word) (rp : Replay) (f : Fault7) (slots : List SlotView)
    (pairs : List Bool) (emu : Option Emulation) : State :=
  let tm := s.teamOf g
  let g := { g with replay := some rp }
  if f.sub = 0x00 ∧ s.inBacking tm.ctx f.va ∧ !g.super then
    s.putGroup { g with
      phase := .parked, traps := g.traps + 1
      pend := some (memoryRecord g word rp.mode rp.unfin f (s.windowHandle g)) }
  else
    let rcd := memoryRecord g word rp.mode rp.unfin f (s.windowHandle g)
    let t : Trapped := ⟨g.arch.pc, 0x02, g.cclk, (slots.zip pairs).map fun x => x.1.window x.2⟩
    match emu with
    | some e =>
      if f.sub = 0x06 ∧ s.trapVec g = 0 ∧ !g.super then
        let g := { g with traps := g.traps + 1 }
        match s.span tm.ctx (s.coreOf g) 1 .write (tm.groupSave g.gix) 0xE000 with
        | (s, .error x) => s.emergencySave g rcd t .trap x
        | (s, .ok segs) =>
          let s := s.putImage segs (s.imageOf g 5 rcd)
          let first := s.nextId
          ((s.putGroup g).emulate g.id e rp rp.addrs).performSince g first
      else s.deliver g rcd t
    | none => s.deliver g rcd t

/-! ## Returning from a trap (14 R286, R274) -/

/-- Commit the window's collected writes to one name: through SplitWrite when every value is equal, also where every
thread is written, else per thread (14 R288). -/
def commitName (width : Nat) (room : Room) (ws : List WindowWrite) (r : Ranked) : Ranked :=
  let W := ws.foldl (fun m w => m ||| dwordOf (2 ^ w.thread)) (0 : DWord)
  let valOf := fun i => ((ws.reverse.find? fun w => w.thread == i).map (·.val)).getD 0
  let v := valOf ((threadsOf W).headD 0)
  let same := (threadsOf W).all fun i => valOf i == v
  match r with
  | .widened _ _ _ =>
    if same then r.split width room W v else r.store width W valOf
  | .perThread _ => r.store width W valOf

/-- Commit every collected window write into a program's state. -/
def Arch.commitWindow (a : Arch) (width : Nat) (room : Room) (ws : List WindowWrite) : Arch :=
  (distinct (ws.map (·.reg))).foldl (fun a reg =>
    let mine := ws.filter (·.reg == reg)
    let room := ⟨room.lane - a.laneCrumbs, room.area.filter fun k => !a.areaCrumbs.contains k⟩
    if reg < 0x80 then a.onT reg (commitName width room mine) else a.onP (reg - 0x100) (commitName width room mine)) a

/-- Where the image of the trapped program lies: the group save area, or the emergency area. -/
def State.imageSpan (s : State) (g : Group) (need : Need) : State × Except (MFault × Nat) (List Seg) :=
  let tm := s.teamOf g
  if g.emergency.isSome then (s, .ok [⟨0, (s.coreRec (s.coreOf g)).emerg.toNat, 0x10000, 0⟩])
  else s.span tm.ctx (s.coreOf g) 1 need (tm.groupSave g.gix) 0xE000

/-- Restored translation registers that hold a translation take CP, DOM, CK and Z from the leaf as it stands: the image
does not hold them. DEDUCED (log 104, unsafe). -/
def State.fillX (s : State) (ctx : Nat) (a : Arch) : Arch :=
  { a with xl := a.xl.map fun x =>
      match s.walk ctx x.vbase.toNat with
      | .ok l => if x.v then { x with pte := dwordOf l.pte } else x
      | .error _ => x }

/-- The group with a program restored from an image (14 R274), without its handler; WLIMIT is the limit of the wait or
blocked read that it kept. -/
def Group.restored (g : Group) (a : Arch) (cclk wlimit : Nat) : Group :=
  { g with
    arch := a, super := false, phase := .ready, cclk, overflow := [], trapped := none, winWrites := []
    rwLimit := g.keptLimit.map fun _ => wlimit
    firstIssue := g.keptIssue, replay := g.keptReplay, keptLimit := none, keptIssue := none, keptReplay := none
    wait := g.keptWait.map (fun w => { w with limit := wlimit }), keptWait := none, himage := none }

/-- Rebuild a group from the image in a span; none where the image fails its check. -/
def State.restoreFrom (s : State) (g : Group) (segs : List Seg) (spent : Nat) : Option Group :=
  let tm := s.teamOf g
  let width := tm.launch.width
  match s.readImage segs width (max tm.launch.tregs 16) g with
  | none => none
  | some a =>
    let bare := { g with arch := { g.arch with t := [], p := [] } }
    let room := (s.putGroup bare).roomFor bare
    let a := ((s.fillX tm.ctx a).placed width room).commitWindow width room g.winWrites
    some (g.restored a (s.spanValue segs 0x0030 8 + spent) (s.spanValue segs 0x0038 8))

/-- Continue after a trap at the address that the return code gives (14 R286); none for a bad code or target. -/
def continueAt (t : Trapped) (code pcField unfin : Nat) (rp : Option Replay) : Option (DWord × Option Replay) :=
  if code = 0 then
    if t.cause = 0x02 then
      match rp with
      | some r =>
        let left := r.unfin &&& dwordOf unfin
        if left = 0 then some (t.pc + 4, none) else some (t.pc, some { r with unfin := left })
      | none => some (if unfin = 0 then t.pc + 4 else t.pc, none)
    else some (t.pc, none)
  else if code = 1 then some (t.pc + 4, none)
  else if code = 2 then
    if pcField % 4 = 0 ∧ pcField < 2 ^ 52 then some (dwordOf pcField, none) else none
  else none

/-- The phase in which a program resumes: a wait checks its object again; WAITMEM reads its word again (09 R193,
07 R172). -/
def resumePhase (w : Option Wait) : Phase :=
  match w with
  | none => .ready
  | some w =>
    match w.obj with
    | .word _ _ _ _ => .ready
    | _ => .waiting

/-- The group once the handler of cause 0x0E is done: what it was before. -/
def Group.afterEmergency (g : Group) (width : Nat) : Group :=
  { g with
    arch := Arch.launch 0 width, emergency := none, super := false, wait := g.keptWait, keptWait := none
    rwLimit := g.keptLimit, firstIssue := g.keptIssue, replay := g.keptReplay, keptLimit := none, keptIssue := none
    keptReplay := none, trapped := none, winWrites := [] }

/-- After the handler of cause 0x0E: the image is copied to the group save area, and the trap or stop that caused the
save is delivered (14 R276); a group that BRK holds has its image there. The handler's time counts in the context clock
(14 R269). -/
def State.leaveEmergency (s : State) (g : Group) (why : SaveCause) (t : Trapped) : State :=
  let tm := s.teamOf g
  let width := tm.launch.width
  let core := s.coreRec (s.coreOf g)
  let src : List Seg := [⟨0, core.emerg.toNat, 0x10000, 0⟩]
  match s.span tm.ctx (s.coreOf g) 1 .write (tm.groupSave g.gix) 0xE000 with
  | (s, .error f) => s.doubleTrap g (0x0E00 + f.1.sub)
  | (s, .ok segs) =>
    let s := s.putSpan segs 0 (s.spanBytes src 0 0xE000)
    let s := s.putCore { s.coreRec (s.coreOf g) with emergUse := none }
    let h := g.afterEmergency width
    match why with
    | .trap => s.startHandler h (tm.groupSave g.gix) (s.spanValue segs 0x010C 4) t
    | .stop was =>
      ((s.putSpan segs 0x0030 (bytesOf 8 g.cclk)).putGroup { h with saved := true, phase := was }).startLease tm.id
    | .hold =>
      match s.restoreFrom { g with winWrites := [] } segs (g.cclk - t.clk) with
      | none => s.doubleTrap g 0
      | some x => s.putGroup { x with emergency := none, phase := .held }

/-- TRET: the handler's stores are performed, the image is restored, and the group continues; after a watchdog trap the
team's count is 0 (14 R279, R286). -/
def State.trapReturn (s : State) (g : Group) (code : Nat) : State :=
  let s := s.flush g
  match g.trapped with
  | none => s.doubleTrap g 0
  | some t =>
    match g.emergency with
    | some why =>
      let area : List Seg := [⟨0, (s.coreRec (s.coreOf g)).emerg.toNat, 0x10000, 0⟩]
      match continueAt t code (s.spanValue area emergencyRecordAt 8) 0 none with
      | none => s.doubleTrap g 0
      | some _ => s.leaveEmergency g why t
    | none =>
      match s.imageSpan g .read with
      | (s, .error f) => s.doubleTrap g (0x0200 + f.1.sub)
      | (s, .ok segs) =>
        match s.restoreFrom g segs (g.cclk - t.clk) with
        | none => s.doubleTrap g 0
        | some h =>
          let rp := if t.cause = 0x02 then g.keptReplay else none
          match continueAt t code (s.spanValue segs 0x0100 8) (s.spanValue segs 0x0120 8) rp with
          | none => s.doubleTrap g 0
          | some (pc, rp) =>
            let again := code = 0
            let stays := again ∧ pc = t.pc
            let wait := if stays then h.wait else none
            let phase := if t.cause = 0x02 then Phase.ready else resumePhase wait
            let s := if t.cause = 0x0D ∧ again then s.onTeam g.team fun tm => { tm with wdog := 0 } else s
            s.putGroup { h with
              arch := { h.arch with
                pc := pc, pidx := if stays then h.arch.pidx else 0, snap := if stays then h.arch.snap else [] }
              replay := rp, wait, phase
              rwLimit := if stays then h.rwLimit else none
              firstIssue := if stays then h.firstIssue else none }

end Sys2Proof.Machine
end

