-- ==== Sys2Proof/Machine/Operands.lean ====
section
/-! DEFINITION. Operand forms and the issue of an instruction: what a field may hold (03 R42, R43), index registers and
allotments (R50), rank rules (04 R74), the order of checks (03 R60), empty copies (R52, R53), and the traps they take. -/

namespace Sys2Proof.Machine

/-! ## Fields of the mode register -/

def modeItype (m : DWord) : Nat := bits m.toNat 12 4
def modeFtype (m : DWord) : Nat := bits m.toNat 5 2
def modeScope (m : DWord) : Nat := bits m.toNat 16 3
def modeUse (m : DWord) : Nat := bits m.toNat 19 3
def modeRnd (m : DWord) : Nat := bits m.toNat 7 3
def modeDen (m : DWord) : Nat := bits m.toNat 10 2
def modeTen (m : DWord) : Nat := bits m.toNat 47 6
def modeRwait (m : DWord) : Nat := bits m.toNat 31 16
def modeLeg (m : DWord) : Bool := bitAt m.toNat 53

/-- The index register of a slot: 0 d, 1 a, 2 b (03 Table 3.4, INDEX). -/
def modeIndex (m : DWord) (slot : Nat) : Nat := bits m.toNat (if slot = 0 then 26 else if slot = 1 then 22 else 24) 2

/-- The slot's EMPTY bit: reading an empty copy traps (03 R52). -/
def modeEmptyTraps (m : DWord) (slot : Nat) : Bool := bitAt m.toNat (if slot = 0 then 30 else if slot = 1 then 28 else 29)

/-! ## Slots -/

/-- How many registers a slot names. -/
inductive Wd where
  | one
  /-- n registers; true: the first must be even (03 R30). -/
  | regs (n : Nat) (even : Bool)
  /-- one, or a pair when ITYPE is a 64-bit type (05 R95). -/
  | typed
  /-- an even register that begins two, or four when ITYPE is a 64-bit type (09 R181). -/
  | twoTyped
  deriving DecidableEq, Repr

/-- Which ranks a slot accepts (04 Table 4.2). -/
inductive Req where
  /-- any rank; a source must be uniform when the destination has group or team rank (01 R18). -/
  | any
  /-- any rank, whatever the destination: a lane operand, or a of RANK (04 R74). -/
  | lane
  /-- group, team or launch rank, or a uniform special. -/
  | uniform
  /-- a group, team or launch pair, or `zero` (02 R30). -/
  | pair
  /-- a `g` register. -/
  | g
  /-- a `g` register, or `zero`. -/
  | gz
  /-- a `t` or `g` register, or `zero`. -/
  | tg
  /-- a `t` register, or `zero`. -/
  | t
  /-- a `t` or `m` register (04 R75). -/
  | tm
  deriving DecidableEq, Repr

inductive Kind where
  | unused
  /-- a source. -/
  | src (w : Wd) (r : Req)
  /-- a destination. -/
  | dst (w : Wd) (r : Req)
  /-- a destination that is also read (02 R41). -/
  | acc (w : Wd) (r : Req)
  /-- a predicate destination, a predicate source code. -/
  | pdst
  | psrc
  /-- a code that names no register of the code space. -/
  | other
  /-- a coprocessor reply, rd7 (03 Table 3.3), with the number of registers it writes. -/
  | reply (n : Nat)
  deriving DecidableEq, Repr

/-- A slot of an instruction word: its kind and its field code. -/
structure Slot where
  kind : Kind
  code : Nat
  deriving DecidableEq, Repr

def Slot.none : Slot := ⟨.unused, 0⟩

/-- Where an instruction may be stopped between its beats (04 R65, 14 R277). -/
inductive Beats where
  /-- nowhere: it has one beat, or starts again from its first. -/
  | whole
  /-- between the beats of its threads, which a thread-rank destination has; those still to come read their sources
  again. -/
  | threads
  /-- the same for an access of each thread, which writes no register. -/
  | each
  /-- between the writes of a lane instruction; those still to come work from its snapshot. -/
  | lane
  /-- between the rows of a tile. -/
  | rows
  deriving DecidableEq, Repr

/-- The form of an instruction word: slots, guard, level, and the word's own checks (03 R60). -/
structure Form where
  word : Word
  d : Slot := Slot.none
  a : Slot := Slot.none
  b : Slot := Slot.none
  /-- outside the control class (03 R48). -/
  guarded : Bool := true
  /-- 1: supervisor (14 Table 14.5). -/
  level : Nat := 0
  /-- on the list of 09 R190. -/
  log : Bool := false
  /-- further bits that must be zero are not, a further field code is bad, a reserved mode code. -/
  bad2 : Bool := false
  bad3 : Bool := false
  bad4 : Bool := false
  /-- a destination that the word alone refuses as read-only (04 R75). -/
  bad6 : Bool := false
  /-- more g blocks, first register and length, that must lie in the allotment (04 R75). -/
  blocks : List (Nat × Nat) := []
  /-- a special other than `zero` stands in a pair source: a rank violation (02 R30). -/
  badPair : Bool := false
  /-- more g registers that are read under slot d's EMPTY bit (04 R77). -/
  more : List Nat := []
  beats : Beats := .whole
  deriving DecidableEq, Repr

/-! ## Codes -/

/-- The block of a register code: 0 t, 1 g, 2 m, 3 k; none for specials (02 Table 2.3). -/
def blockOf (code : Nat) : Option Nat :=
  if code < 0x80 then some 0 else if code < 0xC0 then some 1 else if code < 0xE0 then some 2
  else if code < 0xF8 then some 3 else none

def blockStart (block : Nat) : Nat :=
  match block with
  | 0 => 0x00
  | 1 => 0x80
  | 2 => 0xC0
  | _ => 0xE0

def Allotment.of (al : Allotment) (block : Nat) : Nat :=
  match block with
  | 0 => al.t
  | 1 => al.g
  | 2 => al.m
  | _ => al.k

/-- Number of registers of a width under an ITYPE. -/
def Wd.count (w : Wd) (mode : DWord) : Nat :=
  match w with
  | .one => 1
  | .regs n _ => n
  | .typed => if itypeWidth (modeItype mode) = 64 then 2 else 1
  | .twoTyped => if itypeWidth (modeItype mode) = 64 then 4 else 2

def Kind.wd (k : Kind) : Wd :=
  match k with
  | .src w _ | .dst w _ | .acc w _ => w
  | _ => .one

def Kind.req (k : Kind) : Req :=
  match k with
  | .src _ r | .dst _ r | .acc _ r => r
  | _ => .any

def Kind.isReg (k : Kind) : Bool :=
  match k with
  | .src _ _ | .dst _ _ | .acc _ _ => true
  | _ => false

def Kind.writes (k : Kind) : Bool :=
  match k with
  | .dst _ _ | .acc _ _ => true
  | _ => false

/-- The code is bad by the word alone: 0xFE, 0xFF, or odd where an even register begins a fixed block (03 R42, 05 R97); a slot for
a `g` register alone looks at odd `g` codes alone (04 R88). -/
def Slot.badCode (x : Slot) : Bool :=
  match x.kind with
  | .src w _ | .dst w _ | .acc w _ =>
    decide (0xFE ≤ x.code) ||
    match w with
    | .regs _ true | .twoTyped =>
      x.code % 2 == 1 &&
        (if x.kind.req = .g then decide (0x80 ≤ x.code) && decide (x.code < 0xC0) else decide (x.code < 0xF8))
    | _ => false
  | _ => false

/-- A `k` code, or a special other than `zero`, as destination (03 R42). -/
def Slot.readOnly (x : Slot) : Bool :=
  x.kind.writes && decide (0xE0 ≤ x.code) && x.code != 0xF8

/-- The code of a reply in the field code space (17 R338). -/
def replyCode (r : Nat) : Nat := if r < 0x40 then r else if r < 0x7F then 0x80 + (r - 0x40) else 0xFF

/-- The operand of a code whose block and number are known. -/
def operandOf (block n : Nat) : Operand :=
  match block with
  | 0 => .t n
  | 1 => .g n
  | 2 => .m n
  | _ => .k n

def specialOf (code : Nat) : Operand :=
  match code with
  | 0xF8 => .zero
  | 0xF9 => .tix
  | 0xFA => .gix
  | 0xFB => .mix
  | 0xFC => .lid
  | 0xFD => .wid
  | _ => .none

/-- A slot after index registers: its operand, whether it lies outside the allotment, and its effective code
(03 R50). -/
structure Resolved where
  o : Operand
  oob : Bool
  code : Nat
  deriving DecidableEq, Repr

/-- Resolve a register code of a slot number with n registers; `pair`: an even code must stay even (05 R97). An index that
makes the number negative lies outside the allotment: the record then describes register 0 of the block, and the code
wraps at 256, which R62 leaves open. DESIGN CHOICE (log 107, unsafe). -/
def resolveReg (al : Allotment) (mode : DWord) (ix : List Word) (slot code n : Nat) (pair : Bool) : Resolved :=
  match blockOf code with
  | none => ⟨specialOf code, false, code⟩
  | some blk =>
    let i := modeIndex mode slot
    let idx : Int := if i = 0 then 0 else (ix.getD (i - 1) 0).toInt
    let eff : Int := (code : Int) - blockStart blk + idx
    let odd := pair && code % 2 == 0 && eff % 2 != 0
    ⟨operandOf blk eff.toNat, decide (eff < 0) || decide ((al.of blk : Int) < eff + n) || odd,
     wrap (blockStart blk + eff) 8⟩

/-- Resolve a slot. -/
def Slot.resolve (x : Slot) (al : Allotment) (mode : DWord) (ix : List Word) (slot : Nat) : Resolved :=
  match x.kind with
  | .src w _ | .dst w _ | .acc w _ =>
    resolveReg al mode ix slot x.code (w.count mode)
      (match w with | .typed => w.count mode == 2 | .regs _ e => e | .twoTyped => true | .one => false)
  | .pdst => ⟨.pred x.code false, false, 0xFF⟩
  | .psrc => ⟨.pred (x.code % 8) (bitAt x.code 3), false, 0xFF⟩
  | .reply n =>
    let c := replyCode x.code
    if c = 0xFF then ⟨.none, false, 0xFF⟩
    else if c < 0x80 then ⟨.t c, decide (al.t < c + n), c⟩
    else ⟨.g (c - 0x80), decide (al.g < c - 0x80 + n), c⟩
  | .unused | .other => ⟨.none, false, 0xFF⟩

/-- How a trap record describes a slot. -/
def Slot.view (x : Slot) (r : Resolved) : SlotView :=
  match x.kind with
  | .unused => .unused
  | .other => .other
  | .reply _ => if r.code = 0xFF then .unused else .reg r.code r.o r.oob
  | .src _ _ | .dst _ _ | .acc _ _ => if 0xFE ≤ x.code then .other else .reg r.code r.o r.oob
  | .pdst | .psrc => .reg 0xFF r.o false

/-- A slot's code has a rank that its requirement refuses (04 R74, 02 R30). DEDUCED (log 37, unsafe). -/
def Slot.rankBad (x : Slot) (wide : Bool) : Bool :=
  let c := x.code
  let thread := decide (c < 0x80) || c == 0xF9
  match x.kind with
  | .src _ r =>
    match r with
    | .any => wide && thread
    | .lane => false
    | .uniform => thread
    | .pair => thread || decide (0xF9 ≤ c)
    | .g => !(decide (0x80 ≤ c) && decide (c < 0xC0))
    | .gz => !((decide (0x80 ≤ c) && decide (c < 0xC0)) || c == 0xF8)
    | .tg | .t | .tm => false
  | .dst _ r | .acc _ r =>
    match r with
    | .g => !(decide (0x80 ≤ c) && decide (c < 0xC0))
    | .gz => !((decide (0x80 ≤ c) && decide (c < 0xC0)) || c == 0xF8)
    | .tg => decide (0xC0 ≤ c) && decide (c < 0xE0)
    | .t => decide (0x80 ≤ c) && decide (c < 0xE0)
    | .tm => decide (0x80 ≤ c) && decide (c < 0xC0)
    | _ => false
  | .psrc => wide
  | _ => false

/-- The destination has group or team rank (01 R18). -/
def Slot.wide (x : Slot) : Bool := x.kind.writes && decide (0x80 ≤ x.code) && decide (x.code < 0xE0)

/-! ## Traps of the issue checks -/

/-- The form's slots, resolved: d, a, b. -/
structure Slots where
  d : Resolved
  a : Resolved
  b : Resolved
  deriving DecidableEq, Repr

def Form.resolve (f : Form) (al : Allotment) (mode : DWord) (ix : List Word) : Slots :=
  ⟨f.d.resolve al mode ix 0, f.a.resolve al mode ix 1, f.b.resolve al mode ix 2⟩

def Form.views (f : Form) (r : Slots) : List SlotView := [f.d.view r.d, f.a.view r.a, f.b.view r.b]

/-- Pair slots, for the window (14 R288). -/
def Form.pairs (f : Form) (mode : DWord) : List Bool :=
  [f.d, f.a, f.b].map fun x => x.kind.isReg && decide (2 ≤ x.kind.wd.count mode)

/-- Where an instruction stands when it is issued. -/
structure Issue where
  g : Group
  tm : Team
  mode : DWord
  ix : List Word
  active : DWord
  r : Slots
  deriving DecidableEq, Repr

/-- The threads from PIDX on: those whose beats are still to come. -/
def Group.todo (g : Group) (active : DWord) : DWord := active &&& ~~~ lowMask g.arch.pidx.toNat

/-- The group is in the middle of an instruction: beats of it are done (14 R277). -/
def Group.inPart (g : Group) : Bool := g.arch.pidx != 0 && g.replay.isNone

/-- PIDX counts the threads of the instruction (14 R277). -/
def Beats.byThread (b : Beats) : Bool :=
  match b with
  | .threads | .each | .lane => true
  | .whole | .rows => false

/-- The mode, index registers and threads of an issue, of a resume, or of a replay (03 R46, 07 R163, 14 R277). -/
def State.issueOf (s : State) (f : Form) (g : Group) : Issue :=
  let tm := s.teamOf g
  let all := if f.guarded then guardMask g.arch tm.launch.width g.arch.mode else g.arch.mask
  let mode := match g.replay with
    | some rp => rp.mode
    | none => g.arch.mode
  let ix := match g.replay with
    | some rp => rp.ix
    | none => g.arch.ix
  let active := match g.replay with
    | some rp => rp.unfin
    | none => if g.inPart && f.beats.byThread then g.todo all else all
  ⟨g, tm, mode, ix, active, f.resolve (g.allotment tm) mode ix⟩

/-- Take a trap of cause and sub-cause for the form's word. -/
def State.trapForm (s : State) (f : Form) (x : Issue) (cause sub detail : Nat) : State :=
  let guarded := if f.guarded then guardMask x.g.arch x.tm.launch.width x.g.arch.mode else x.g.arch.mask
  s.trap x.g f.word cause sub detail guarded (f.views x.r) (f.pairs x.mode)

/-- The sub-cause of the checks that look at the word alone, in the order of R60. -/
def Form.wordCheck (f : Form) : Option Nat :=
  if f.bad2 then some 0x02
  else if f.bad3 || f.d.badCode || f.a.badCode || f.b.badCode then some 0x03
  else if f.bad4 then some 0x04
  else if f.bad6 || f.d.readOnly || f.a.readOnly || f.b.readOnly then some 0x06
  else none

/-- Some slot, or a further block, lies outside the allotment. -/
def Form.outOfBounds (f : Form) (x : Issue) : Bool :=
  x.r.d.oob || x.r.a.oob || x.r.b.oob ||
  f.blocks.any fun b => decide ((x.g.allotment x.tm).g < b.1 + b.2)

/-- The data of a store or a reduction is a pair at a 64-bit width, and a special other than `zero` stands there (02 R30, 07
R165, 09 R181). -/
def Form.dataBad (f : Form) (mode : DWord) : Bool :=
  match f.d.kind with
  | .src .typed _ => decide (itypeWidth (modeItype mode) = 64) && decide (0xF9 ≤ f.d.code)
  | _ => false

def Form.ranksIllegal (f : Form) (mode : DWord) : Bool :=
  f.badPair || f.dataBad mode || f.d.rankBad f.d.wide || f.a.rankBad f.d.wide || f.b.rankBad f.d.wide

/-- The context's reduction fault log holds an entry (09 R190). -/
def State.logOccupied (s : State) (ctx : Nat) : Bool := (s.context? ctx).any fun c => !c.rlog.isEmpty

/-- The log holds an entry, or will: a request in flight faults. No group passes a release with one of them, so that its
entry is written before the checks of the next such instruction (09 R190). DEDUCED (log 42, unsafe). -/
def State.logDue (s : State) (ctx : Nat) : Bool :=
  s.logOccupied ctx || s.reductions.any fun r => r.ctx == ctx && r.fault.isSome

/-- The reduction-fault trap before an instruction (09 R190): DETAIL is the number of entries. -/
def State.trapReduction (s : State) (f : Form) (x : Issue) : State :=
  let s := s.logFaults x.tm.ctx
  let g := (s.group? x.g.id).getD x.g
  s.trapForm f { x with g } 0x09 0x00 (((s.context? x.tm.ctx).map (·.rlog.length)).getD 0)

/-- An odd code in a pair slot at a 64-bit width (05 R97). -/
def Slot.oddTyped (x : Slot) (mode : DWord) : Bool :=
  match x.kind with
  | .src .typed _ | .dst .typed _ | .acc .typed _ =>
    itypeWidth (modeItype mode) == 64 && decide (x.code < 0xF8) && x.code % 2 == 1
  | _ => false

/-! ## Empty copies (03 R51 to R53) -/

/-- An operand of n registers has an empty copy for one of the threads. -/
def Ctx.emptyIn (c : Ctx) (o : Operand) (n : Nat) (threads : List Nat) : Bool :=
  (List.range n).any fun k =>
    let q := o.above k
    if q.isUniform then !threads.isEmpty && !(c.copy q 0).2 else threads.any fun i => !(c.copy q i).2

/-- Which threads' copies a slot reads. -/
structure Reads where
  d : List Nat
  a : List Nat
  b : List Nat
  deriving DecidableEq, Repr

/-- The first slot, in the order a, b, d, with an empty copy that the instruction reads; `held`: it goes on with what its first
issue read (05 R108, 07 R163, 09 R185). DEDUCED (log 11, unsafe). -/
def Form.emptySlot (f : Form) (c : Ctx) (reads : Reads) (held : Bool) : Option Nat :=
  let count := fun (x : Slot) => match x.kind with
    | .src w _ | .dst w _ | .acc w _ => w.count c.mode
    | .reply n => n
    | _ => 0
  if held then none
  else if c.emptyIn c.a (count f.a) reads.a then some 1
  else if c.emptyIn c.b (count f.b) reads.b then some 2
  else if c.emptyIn c.d (count f.d) reads.d || f.more.any fun n => !(c.copy (.g n) 0).2 then some 0
  else none

/-! ## Issue -/

/-- Go on at another pc: what was kept of the instruction's first issue and of its progress is forgotten. -/
def Group.goto (g : Group) (pc : DWord) : Group :=
  { g with arch := { g.arch with pc := pc, pidx := 0, snap := [] }, phase := .ready, rwLimit := none, firstIssue := none
           replay := none, wait := none }

/-- Move past the instruction. -/
def Group.advance (g : Group) : Group := g.goto (g.arch.pc + 4)

/-- An empty copy stands in a slot: trap, or block until the register-wait limit (03 R52). -/
def State.onEmpty (s : State) (f : Form) (x : Issue) (slot : Nat) : State :=
  if modeEmptyTraps x.mode slot then s.trapForm f x 0x05 0x01 0
  else
    let limit := x.g.rwLimit.getD (x.g.cclk + modeRwait x.mode)
    if limit ≤ x.g.cclk then s.trapForm f { x with g := { x.g with rwLimit := none } } 0x05 0x02 0
    else s.putGroup { x.g with
      phase := .blocked, rwLimit := some limit, firstIssue := some (x.g.firstIssue.getD (x.g.cclk, s.wall)) }

/-- The context of an issue, for a meaning. -/
def Issue.ctx (x : Issue) (word : Word) (room : Room) : Ctx :=
  { word, g := x.g, tm := x.tm, mode := x.mode, width := x.tm.launch.width, active := x.active
    d := x.r.d.o, a := x.r.a.o, b := x.r.b.o, room }

/-- Reads of the threads of Active in every slot; without one, a uniform slot is still read (thread 64 stands for it). -/
def Ctx.activeReads (c : Ctx) : Reads :=
  let l := if c.active = 0 then [64] else threadsOf c.active
  ⟨l, l, l⟩

/-! ## Beats (04 R65, 05 R108, 14 R277) -/

/-- The threads whose beats come before a stop, and those whose beats come after it, where there are both. -/
def Group.cutOf (g : Group) (active : DWord) : Option (DWord × DWord) :=
  match g.stopAt with
  | none => none
  | some k =>
    let now := active &&& lowMask k
    let later := active &&& ~~~ lowMask k
    if g.replay.isNone && now != 0 && later != 0 then some (now, later) else none

/-- Every source of an instruction with a thread-rank destination has a wider copy: one beat (04 R69). -/
def Form.oneBeat (f : Form) (c : Ctx) : Bool :=
  c.resolvesUniform c.a && c.resolvesUniform c.b &&
    match f.d.kind with
    | .acc _ _ => c.resolvesUniform c.d
    | _ => true

/-- The instruction has beats for the threads of two sets, and a stop falls between them. -/
def Form.cut (f : Form) (c : Ctx) : Option (DWord × DWord) :=
  match f.beats, c.d with
  | .each, _ => c.g.cutOf c.active
  | .threads, .t _ => if f.d.kind.writes && !f.oneBeat c then c.g.cutOf c.active else none
  | .threads, .pred _ _ => if f.d.kind == .pdst && !f.oneBeat c then c.g.cutOf c.active else none
  | _, _ => none

/-- The group, stopped before the beats of a set of threads: the instruction stays in progress. -/
def Group.between (g : Group) (pc : DWord) (later : DWord) (snap : List Word) : Group :=
  { g with arch := { g.arch with pc, pidx := wordOf ((threadsOf later).headD 0), snap } }

/-- The threads whose results an instruction computes: one run for a destination of group or team rank (01 R16). -/
def Ctx.runs (c : Ctx) : List Nat :=
  match c.d with
  | .g _ | .m _ => [0]
  | _ => threadsOf c.active

/-- The sticky flags that the results of the threads set (06 R122). -/
def Ctx.flagsOf (c : Ctx) (flags : Nat → BitVec 6) : BitVec 6 := c.runs.foldl (fun acc i => acc ||| flags i) 0

/-- The writes of a lane instruction that come before a stop, and those after it: one destination of a wider name has one. -/
def Ctx.laneCut (c : Ctx) : Option (DWord × DWord) :=
  match c.d with
  | .t _ => c.g.cutOf c.active
  | _ => none

/-- The writes of a lane instruction, whose results are worked out before the first of them (05 R108): each thread's words
and sticky flags. A stop between two writes leaves the rest of them in the snapshot. -/
def laneCommit (c : Ctx) (val : Nat → List Word) (flags : Nat → BitVec 6) (s : State) : State :=
  let put (m : DWord) : Group :=
    let c := { c with active := m }
    (c.write c.d false val c.g).onArch fun a => { a with sticky := a.sticky ||| c.flagsOf flags }
  match c.laneCut with
  | none => s.putGroup (put c.active).advance
  | some (now, later) =>
    let word (k i : Nat) : Word := if inMask later i then (val i).getD k 0 else 0
    let threads := List.range 64
    let snap := threads.map (word 0) ++ threads.map (word 1) ++
      threads.map fun i => if inMask later i then wordOf (flags i).toNat else 0
    s.putGroup ((put now).between c.g.arch.pc later snap)

/-- Go on with a lane instruction from its snapshot: nothing is read again (05 R108). -/
def laneResume (n : Nat) (c : Ctx) (s : State) : State :=
  let at' (k i : Nat) : Word := c.g.arch.snap.getD (64 * k + i) 0
  laneCommit c (fun i => (List.range n).map fun k => at' k i) (fun i => BitVec.ofNat 6 (at' 2 i).toNat) s

/-- The instruction goes on from the snapshot of its first issue. -/
def Form.resumes (f : Form) (g : Group) : Bool := f.beats == .lane && g.inPart

/-- The group holds what the instruction read when it was first issued: in a replay, in the middle of a lane instruction, and in
the middle of a tile, which marked its register empty (05 R108, 07 R163, R169). -/
def Form.holds (f : Form) (g : Group) : Bool :=
  g.replay.isSome || f.resumes g || (f.beats == .rows && g.inPart)

/-- Run a body for the beats that come now (14 R277): all that are left, or those before a stop. An instruction of which
a thread parks or traps is not cut. DEDUCED (log 123, safe). -/
def Form.run (f : Form) (body : Ctx → State → State) (c : Ctx) (s : State) : State :=
  if f.resumes c.g then laneResume (f.d.kind.wd.count c.mode) c s
  else
    match f.cut c with
    | none => body c s
    | some (now, later) =>
      let r := body { c with active := now } s
      let goesOn (h : Group) : Bool := h.arch.pc == c.g.arch.pc + 4 && h.phase == .ready && !c.g.super == !h.super
      match (r.group? c.g.id).filter goesOn with
      | none => body c s
      | some h => r.putGroup (h.between c.g.arch.pc later [])

/-- The issue of an instruction by the current group (03 R60): the checks in order, then empty copies, then its
meaning. `late`: a check that depends on the mode, with its sub-cause; `reads`: the copies it reads.
DEDUCED (log 101, safe). -/
def State.issueGroup (s : State) (f : Form) (late : Ctx → Option Nat) (reads : Ctx → Reads) (body : Ctx → State → State)
    (g : Group) : State :=
  let x := s.issueOf f g
  match f.wordCheck with
  | some sub => s.trapForm f x 0x01 sub 0
  | none =>
    if g.priv < f.level then s.trapForm f x 0x04 0x00 0
    else if f.outOfBounds x then s.trapForm f x 0x05 0x00 0
    else if f.ranksIllegal x.mode then s.trapForm f x 0x06 0x00 0
    else if f.log && (!f.guarded || x.active != 0) && s.logDue x.tm.ctx then s.trapReduction f x
    else if f.d.oddTyped x.mode || f.a.oddTyped x.mode || f.b.oddTyped x.mode then s.trapForm f x 0x01 0x03 0
    else
      let c := x.ctx f.word (s.roomFor g)
      match late c with
      | some sub => s.trapForm f x 0x01 sub 0
      | none =>
        if f.guarded && x.active == 0 then s.putGroup g.advance
        else
          match f.emptySlot c (reads c) (f.holds g) with
          | some slot => s.onEmpty f x slot
          | none => f.run body c s

/-! ## Shapes of words -/

/-- A word of the three-register or M format with its slots (03 Table 3.2). -/
def form3 (op d a b : Nat) (kd ka kb : Kind) : Form :=
  { word := word3 op d a b, d := ⟨kd, d⟩, a := ⟨ka, a⟩, b := ⟨kb, b⟩, beats := .threads }

/-- A word of the RI16 or B format, whose one register field is slot d. -/
def formI (op d imm : Nat) (kd : Kind) : Form := { word := wordI op d imm, d := ⟨kd, d⟩ }

/-- Issue by the current group; without one there is no instruction. DEDUCED (log 12, unsafe). -/
def State.issue (s : State) (f : Form) (body : Ctx → State → State) (late : Ctx → Option Nat := fun _ => none)
    (reads : Ctx → Reads := Ctx.activeReads) : Host.Outcome State Fault Refusal :=
  match s.group? s.cur with
  | none => .fault .noGroup
  | some g => .next (s.issueGroup f late reads body g)

/-- A trap that a meaning takes for its own word, after the checks (03 R60). -/
def Ctx.trap (c : Ctx) (f : Form) (s : State) (cause sub detail : Nat) : State :=
  s.trapForm f (s.issueOf f c.g) cause sub detail

/-- A meaning that only reads registers and writes its destination: `uni` says whether every source resolves to a wider
copy (04 R69), `val` gives thread i's result and `flags` the sticky flags it sets (06 R122). -/
def aluBody (uni : Ctx → Bool) (val : Ctx → Nat → List Word) (flags : Ctx → Nat → BitVec 6) (c : Ctx) (s : State) : State :=
  let g := c.write c.d (uni c) (val c) c.g
  s.putGroup (g.onArch fun a => { a with sticky := a.sticky ||| c.flagsOf (flags c) }).advance

def noFlags (_ : Ctx) (_ : Nat) : BitVec 6 := 0

end Sys2Proof.Machine
end

