-- ==== Sys2Proof/Machine/Integer.lean ====
section
/-! DEFINITION. Integer and address instructions, opcodes 0x10 to 0x2F (05 R95 to R107). -/

namespace Sys2Proof.Machine

/-! ## Typed results (05 R95) -/

def Ctx.itype (c : Ctx) : IType := itypeOf (modeItype c.mode)

/-- A result as register words: extended to 32 bits by its type, or a pair. -/
def IType.words (t : IType) (n : Nat) : List Word :=
  if t.w = 64 then pairWords n else [wordOf (wrap (t.value (n % 2 ^ t.w)) 32)]


/-! ## The operations of Table 5.1 -/

/-- Quotient rounded toward zero (05 R100). -/
def divTyped (t : IType) (a b : Nat) : Nat :=
  if b = 0 then 2 ^ t.w - 1 else wrap (Int.tdiv (t.value a) (t.value b)) t.w

def remTyped (t : IType) (a b : Nat) : Nat :=
  if b = 0 then a else wrap (Int.tmod (t.value a) (t.value b)) t.w

/-- Number of 1 bits among the low w bits. -/
def popBits (n w : Nat) : Nat := ((List.range w).filter (bitAt n)).length

/-- Number of leading 0 bits of a value of w bits. -/
def leadZeros (n : Nat) : Nat → Nat
  | 0 => 0
  | w + 1 => if bitAt n w then 0 else leadZeros n w + 1

/-! ## Forms -/

/-- d, a, b of a typed instruction with two sources. -/
def typed2 (op : Nat) (d a b : BitVec 8) : Form :=
  form3 op d.toNat a.toNat b.toNat (.dst .typed .any) (.src .typed .any) (.src .typed .any)

/-- d, a of a typed instruction with one source. -/
def typed1 (op : Nat) (d a : BitVec 8) : Form :=
  form3 op d.toNat a.toNat 0 (.dst .typed .any) (.src .typed .any) .unused

/-- Every source of width w resolves to a wider copy. -/
def Ctx.uniAB (c : Ctx) (w : Nat) : Bool := c.resolvesUniformW c.a w && c.resolvesUniformW c.b w

/-- A typed operation of two sources: raw bits to raw bits. -/
def typedBody (op : IType → Nat → Nat → Nat) (flags : Ctx → Nat → BitVec 6) : Ctx → State → State :=
  aluBody (fun c => c.uniAB c.itype.w) (fun c i =>
    c.itype.words (op c.itype (c.readBits c.a c.itype.w i) (c.readBits c.b c.itype.w i))) flags

def typedBody1 (op : IType → Nat → Nat) : Ctx → State → State :=
  aluBody (fun c => c.resolvesUniformW c.a c.itype.w) (fun c i =>
    c.itype.words (op c.itype (c.readBits c.a c.itype.w i))) noFlags

/-- A 32-bit operation of two sources. -/
def plainBody (op : Word → Word → Word) : Ctx → State → State :=
  aluBody (fun c => c.uniAB 32) (fun c i => [op (c.read c.a i) (c.read c.b i)]) noFlags

def plain2 (op : Nat) (d a b : BitVec 8) : Form :=
  form3 op d.toNat a.toNat b.toNat (.dst .one .any) (.src .one .any) (.src .one .any)

/-! ## Arithmetic (05 R99, R100) -/

def execAdd (d a b : BitVec 8) (s : State) : Host.Outcome State Fault Refusal :=
  s.issue (typed2 0x10 d a b) (typedBody (fun t x y => wrap ((x : Int) + y) t.w) noFlags)

def execSub (d a b : BitVec 8) (s : State) : Host.Outcome State Fault Refusal :=
  s.issue (typed2 0x11 d a b) (typedBody (fun t x y => wrap ((x : Int) - y) t.w) noFlags)

def execMul (d a b : BitVec 8) (s : State) : Host.Outcome State Fault Refusal :=
  s.issue (typed2 0x12 d a b) (typedBody (fun t x y => x * y % 2 ^ t.w) noFlags)

def execMulh (d a b : BitVec 8) (s : State) : Host.Outcome State Fault Refusal :=
  s.issue (typed2 0x13 d a b) (typedBody (fun t x y => wrap (t.value x * t.value y) (2 * t.w) / 2 ^ t.w) noFlags)

/-- Integer divide-by-zero is set when a thread divides by zero (05 R100). -/
def divFlags (c : Ctx) (i : Nat) : BitVec 6 := if c.readBits c.b c.itype.w i = 0 then flagIdz else 0

def execDiv (d a b : BitVec 8) (s : State) : Host.Outcome State Fault Refusal :=
  s.issue (typed2 0x14 d a b) (typedBody divTyped divFlags)

def execRem (d a b : BitVec 8) (s : State) : Host.Outcome State Fault Refusal :=
  s.issue (typed2 0x15 d a b) (typedBody remTyped divFlags)

def execMin (d a b : BitVec 8) (s : State) : Host.Outcome State Fault Refusal :=
  s.issue (typed2 0x16 d a b) (typedBody minTyped noFlags)

def execMax (d a b : BitVec 8) (s : State) : Host.Outcome State Fault Refusal :=
  s.issue (typed2 0x17 d a b) (typedBody maxTyped noFlags)

def execAbs (d a : BitVec 8) (s : State) : Host.Outcome State Fault Refusal :=
  s.issue (typed1 0x18 d a) (typedBody1 fun t x => wrap ((t.value x).natAbs : Int) t.w)

def execNeg (d a : BitVec 8) (s : State) : Host.Outcome State Fault Refusal :=
  s.issue (typed1 0x19 d a) (typedBody1 fun t x => wrap (-(x : Int)) t.w)

def execAnd (d a b : BitVec 8) (s : State) : Host.Outcome State Fault Refusal :=
  s.issue (typed2 0x1A d a b) (typedBody (fun _ x y => x &&& y) noFlags)

def execOr (d a b : BitVec 8) (s : State) : Host.Outcome State Fault Refusal :=
  s.issue (typed2 0x1B d a b) (typedBody (fun _ x y => x ||| y) noFlags)

def execXor (d a b : BitVec 8) (s : State) : Host.Outcome State Fault Refusal :=
  s.issue (typed2 0x1C d a b) (typedBody (fun _ x y => x ^^^ y) noFlags)

def execNot (d a : BitVec 8) (s : State) : Host.Outcome State Fault Refusal :=
  s.issue (typed1 0x1D d a) (typedBody1 fun t x => 2 ^ t.w - 1 - x)

def execPopc (d a : BitVec 8) (s : State) : Host.Outcome State Fault Refusal :=
  s.issue (typed1 0x22 d a) (typedBody1 fun t x => popBits x t.w)

def execClz (d a : BitVec 8) (s : State) : Host.Outcome State Fault Refusal :=
  s.issue (typed1 0x23 d a) (typedBody1 fun t x => leadZeros x t.w)

/-! ## Shifts and bit fields (05 R101, R102) -/

def execShl (d a b : BitVec 8) (s : State) : Host.Outcome State Fault Refusal :=
  s.issue (plain2 0x1E d a b) (plainBody fun x y => if y.toNat < 32 then x <<< y.toNat else 0)

def execShr (d a b : BitVec 8) (s : State) : Host.Outcome State Fault Refusal :=
  s.issue (plain2 0x1F d a b) (plainBody fun x y => if y.toNat < 32 then x >>> y.toNat else 0)

def execSar (d a b : BitVec 8) (s : State) : Host.Outcome State Fault Refusal :=
  s.issue (plain2 0x20 d a b) (plainBody fun x y => x.sshiftRight (sat y.toNat 31))

def execRot (d a b : BitVec 8) (s : State) : Host.Outcome State Fault Refusal :=
  s.issue (plain2 0x21 d a b) (plainBody fun x y => x.rotateLeft (y.toNat % 32))

/-- BFX (05 R102). -/
def bitExtract (x desc : Word) : Word :=
  let pos := bits desc.toNat 0 8
  let len := bits desc.toNat 8 8
  if len = 0 ∨ 32 ≤ pos then 0
  else
    let n := sat len (32 - pos)
    let f := bits x.toNat pos n
    wordOf (if bitAt desc.toNat 16 then wrap (signedOf f n) 32 else f)

/-- BFI (05 R102). -/
def bitInsert (old x desc : Word) : Word :=
  let pos := bits desc.toNat 0 8
  let len := bits desc.toNat 8 8
  if len = 0 ∨ 32 ≤ pos then old else wordOf (putBits old.toNat pos (sat len (32 - pos)) x.toNat)

def execBfx (d a b : BitVec 8) (s : State) : Host.Outcome State Fault Refusal :=
  s.issue (plain2 0x24 d a b) (plainBody bitExtract)

/-- BFI; where it leaves d unchanged it still writes the old value, which may make a crumb or change the form of the name.
DESIGN CHOICE (log 110, unsafe). -/
def execBfi (d a b : BitVec 8) (s : State) : Host.Outcome State Fault Refusal :=
  s.issue (form3 0x25 d.toNat a.toNat b.toNat (.acc .one .any) (.src .one .any) (.src .one .any))
    (aluBody (fun c => c.uniAB 32 && c.resolvesUniform c.d)
      (fun c i => [bitInsert (c.read c.d i) (c.read c.a i) (c.read c.b i)]) noFlags)

/-! ## Compares and select (05 R103, R104) -/

def compareForm (op : Nat) (d : BitVec 3) (a b : BitVec 8) : Form :=
  form3 op d.toNat a.toNat b.toNat .pdst (.src .typed .any) (.src .typed .any)

def compareBody (op : Int → Int → Bool) : Ctx → State → State :=
  aluBody (fun c => c.uniAB c.itype.w) (fun c i =>
    [if op (c.itype.value (c.readBits c.a c.itype.w i)) (c.itype.value (c.readBits c.b c.itype.w i)) then 1 else 0]) noFlags

def execCmpeq (d : BitVec 3) (a b : BitVec 8) (s : State) : Host.Outcome State Fault Refusal :=
  s.issue (compareForm 0x26 d a b) (compareBody fun x y => x == y)

def execCmpne (d : BitVec 3) (a b : BitVec 8) (s : State) : Host.Outcome State Fault Refusal :=
  s.issue (compareForm 0x27 d a b) (compareBody fun x y => x != y)

def execCmplt (d : BitVec 3) (a b : BitVec 8) (s : State) : Host.Outcome State Fault Refusal :=
  s.issue (compareForm 0x28 d a b) (compareBody fun x y => decide (x < y))

def execCmple (d : BitVec 3) (a b : BitVec 8) (s : State) : Host.Outcome State Fault Refusal :=
  s.issue (compareForm 0x29 d a b) (compareBody fun x y => decide (x ≤ y))

/-- SEL; both operands are read for every thread of Active, so that an empty copy of either blocks or traps.
DESIGN CHOICE (log 111, unsafe). -/
def execSel (d a b : BitVec 8) (s : State) : Host.Outcome State Fault Refusal :=
  s.issue (form3 0x2A d.toNat a.toNat b.toNat (.dst .one .t) (.src .one .any) (.src .one .any))
    (aluBody (fun c => c.uniAB 32 && c.resolvesUniform (.pred 0 false))
      (fun c i => [if c.read (.pred 0 false) i = 0 then c.read c.b i else c.read c.a i]) noFlags)

/-! ## Constants, moves and addresses (05 R105 to R107) -/

def execLi (d : BitVec 8) (i : BitVec 16) (s : State) : Host.Outcome State Fault Refusal :=
  s.issue (formI 0x2B d.toNat i.toNat (.dst .one .any))
    (aluBody (fun _ => true) (fun _ _ => [i.signExtend 32]) noFlags)

def execLih (d : BitVec 8) (i : BitVec 16) (s : State) : Host.Outcome State Fault Refusal :=
  s.issue (formI 0x2C d.toNat i.toNat (.acc .one .any))
    (aluBody (fun c => c.resolvesUniform c.d)
      (fun c t => [wordOf (putBits (c.read c.d t).toNat 16 16 i.toNat)]) noFlags)

def execMov (d a : BitVec 8) (s : State) : Host.Outcome State Fault Refusal :=
  s.issue (form3 0x2D d.toNat a.toNat 0 (.dst .one .any) (.src .one .any) .unused)
    (aluBody (fun c => c.resolvesUniform c.a) (fun c i => [c.read c.a i]) noFlags)

/-- A pair source of any rank; a special other than `zero` is a rank violation (02 R30). -/
def Form.pairSource (f : Form) (slots : List Slot) : Form :=
  { f with badPair := slots.any fun x => decide (0xF9 ≤ x.code) }

def execAdda (d a b : BitVec 8) (s : State) : Host.Outcome State Fault Refusal :=
  let f := form3 0x2E d.toNat a.toNat b.toNat (.dst (.regs 2 true) .any) (.src (.regs 2 true) .any) (.src .one .any)
  s.issue (f.pairSource [f.a])
    (aluBody (fun c => c.resolvesUniformW c.a 64 && c.resolvesUniform c.b)
      (fun c i => pairWords (wrap ((c.readPair c.a i : Int) + (c.read c.b i).toInt) 64)) noFlags)

def execSuba (d a b : BitVec 8) (s : State) : Host.Outcome State Fault Refusal :=
  let f := form3 0x2F d.toNat a.toNat b.toNat (.dst (.regs 2 true) .any) (.src (.regs 2 true) .any) (.src (.regs 2 true) .any)
  s.issue (f.pairSource [f.a, f.b])
    (aluBody (fun c => c.uniAB 64)
      (fun c i => pairWords (wrap ((c.readPair c.a i : Int) - c.readPair c.b i) 64)) noFlags)

end Sys2Proof.Machine
end

