-- ==== Sys2Proof/Machine/Lane.lean ====
section
/-! DEFINITION. Lane communication, opcodes 0x30 to 0x3C (05 R108 to R113). A lane instruction reads every operand before
its first write, and is never widened (R108). -/

namespace Sys2Proof.Machine

/-- A lane instruction's body: results per thread, worked out before the first write, in per-thread form (R108).
DESIGN CHOICE (log 116, safe). -/
def laneBody (val : Ctx → Nat → List Word) (c : Ctx) (s : State) : State := laneCommit c (val c) (noFlags c) s

/-- A lane instruction's word: it may be stopped between its writes. -/
def laneForm (op d a b : Nat) (kd ka kb : Kind) : Form := { form3 op d a b kd ka kb with beats := .lane }

/-! ## Shuffles (R109) -/

/-- The thread that thread i reads: j when it is in range, else i itself. -/
def sourceThread (width i : Nat) (j : Int) : Nat := if 0 ≤ j ∧ j < width then j.toNat else i

/-- A shuffle: `pick` gives j from i and slot b's value. Which copies of slot a are read depends on slot b, whose empty
copies therefore decide first. DESIGN CHOICE (log 112, unsafe). -/
def shuffle (op : Nat) (d a b : BitVec 8) (rb : Req) (pick : Nat → Word → Int) (s : State) :
    Host.Outcome State Fault Refusal :=
  let src := fun (c : Ctx) (i : Nat) => sourceThread c.width i (pick i (c.read c.b i))
  s.issue (laneForm op d.toNat a.toNat b.toNat (.dst .one .t) (.src .one .lane) (.src .one rb))
    (laneBody fun c i => [c.read c.a (src c i)])
    (reads := fun c =>
      let all := c.activeReads
      if c.emptyIn c.b 1 all.b then { all with a := [] } else { all with a := (threadsOf c.active).map (src c) })

def execShfl (d a b : BitVec 8) (s : State) : Host.Outcome State Fault Refusal :=
  shuffle 0x30 d a b .lane (fun _ n => n.toNat) s

def execShflUp (d a b : BitVec 8) (s : State) : Host.Outcome State Fault Refusal :=
  shuffle 0x31 d a b .uniform (fun i n => (i : Int) - n.toNat) s

def execShflDn (d a b : BitVec 8) (s : State) : Host.Outcome State Fault Refusal :=
  shuffle 0x32 d a b .uniform (fun i n => (i : Int) + n.toNat) s

def execShflXor (d a b : BitVec 8) (s : State) : Host.Outcome State Fault Refusal :=
  shuffle 0x33 d a b .uniform (fun i n => ((i ^^^ n.toNat : Nat) : Int)) s

/-! ## Broadcast and votes (R110, R111) -/

/-- BCAST; an empty copy of slot b decides before slot a. DESIGN CHOICE (log 112, unsafe). -/
def execBcast (d a b : BitVec 8) (s : State) : Host.Outcome State Fault Refusal :=
  let src := fun (c : Ctx) => (c.read c.b 0).toNat % c.width
  s.issue (laneForm 0x34 d.toNat a.toNat b.toNat (.dst .one .any) (.src .one .lane) (.src .one .uniform))
    (laneBody fun c _ => [c.read c.a (src c)])
    (reads := fun c =>
      let all := c.activeReads
      if c.emptyIn c.b 1 all.b then { all with a := [] } else { all with a := [src c] })

/-- The threads of Active whose lane operand is not zero. -/
def Ctx.ballot (c : Ctx) : DWord := c.active &&& maskOf 64 fun i => c.read c.a i != 0

def voteForm (op : Nat) (d a : BitVec 8) (w : Wd) : Form :=
  laneForm op d.toNat a.toNat 0 (.dst w .any) (.src .one .lane) .unused

def execVoteAny (d a : BitVec 8) (s : State) : Host.Outcome State Fault Refusal :=
  s.issue (voteForm 0x35 d a .one) (laneBody fun c _ => [if c.ballot = 0 then 0 else 1])

def execVoteAll (d a : BitVec 8) (s : State) : Host.Outcome State Fault Refusal :=
  s.issue (voteForm 0x36 d a .one) (laneBody fun c _ => [if c.ballot = c.active then 1 else 0])

def execVoteBal (d a : BitVec 8) (s : State) : Host.Outcome State Fault Refusal :=
  s.issue (voteForm 0x37 d a (.regs 2 true)) (laneBody fun c _ => pairWords c.ballot.toNat)

/-! ## Reductions and scans (R112, R113) -/

/-- The lane operand of a thread under the instruction's type. -/
def Ctx.laneValue (c : Ctx) (i : Nat) : Nat := c.readBits c.a c.itype.w i

/-- Combine the operands of threads in order. -/
def combine (op : IType → Nat → Nat → Nat) (c : Ctx) (acc : Nat) (threads : List Nat) : Nat :=
  threads.foldl (fun x i => op c.itype x (c.laneValue i)) acc

def addTyped (t : IType) (x y : Nat) : Nat := (x + y) % 2 ^ t.w

def reduceForm (op : Nat) (d a : BitVec 8) : Form :=
  laneForm op d.toNat a.toNat 0 (.dst .typed .any) (.src .typed .lane) .unused

def reduceBody (op : IType → Nat → Nat → Nat) : Ctx → State → State :=
  laneBody fun c _ =>
    let l := threadsOf c.active
    c.itype.words (combine op c (c.laneValue (l.headD 0)) l.tail)

def execReduceAdd (d a : BitVec 8) (s : State) : Host.Outcome State Fault Refusal :=
  s.issue (reduceForm 0x3A d a) (reduceBody addTyped)

def execReduceMin (d a : BitVec 8) (s : State) : Host.Outcome State Fault Refusal :=
  s.issue (reduceForm 0x3B d a) (reduceBody minTyped)

def execReduceMax (d a : BitVec 8) (s : State) : Host.Outcome State Fault Refusal :=
  s.issue (reduceForm 0x3C d a) (reduceBody maxTyped)

def scanForm (op : Nat) (d a b : BitVec 8) : Form :=
  laneForm op d.toNat a.toNat b.toNat (.dst .typed .t) (.src .typed .lane) (.src .typed .uniform)

def scanBody (op : IType → Nat → Nat → Nat) : Ctx → State → State :=
  laneBody fun c i =>
    c.itype.words (combine op c (c.readBits c.b c.itype.w 0) ((threadsOf c.active).filter fun j => decide (j ≤ i)))

def execScanAdd (d a b : BitVec 8) (s : State) : Host.Outcome State Fault Refusal :=
  s.issue (scanForm 0x38 d a b) (scanBody addTyped)

def execScanMax (d a b : BitVec 8) (s : State) : Host.Outcome State Fault Refusal :=
  s.issue (scanForm 0x39 d a b) (scanBody maxTyped)

end Sys2Proof.Machine
end

