-- ==== Sys2Proof/Machine/Floating.lean ====
section
/-! DEFINITION. Floating point and number formats, opcodes 0x40 to 0x5F (06 R115 to R143, 03 R58). -/

namespace Sys2Proof.Machine

/-! ## What an instruction takes from the mode register (03 R46) -/

def fmodeOf (mode : DWord) : FMode := ⟨modeRnd mode, modeDen mode, modeLeg mode⟩

def Ctx.fmode (c : Ctx) : FMode := fmodeOf c.mode

def Ctx.ffmt (c : Ctx) : FFormat := FFormat.ofCode (modeFtype c.mode)

/-- A 16-bit source ignores bits [31:16] (R116). -/
def Ctx.fread (c : Ctx) (o : Operand) (i : Nat) : Nat := (c.read o i).toNat

/-- The body of an instruction that computes a pattern of one word and flags. -/
def floatBody (uni : Ctx → Bool) (op : Ctx → Nat → Nat × BitVec 6) : Ctx → State → State :=
  aluBody uni (fun c i => [wordOf (op c i).1]) (fun c i => (op c i).2)

def float2 (f : FFormat → FMode → Nat → Nat → Nat × BitVec 6) : Ctx → State → State :=
  floatBody (fun c => c.uniAB 32) fun c i => f c.ffmt c.fmode (c.fread c.a i) (c.fread c.b i)

def float1 (f : FFormat → FMode → Nat → Nat × BitVec 6) : Ctx → State → State :=
  floatBody (fun c => c.resolvesUniform c.a) fun c i => f c.ffmt c.fmode (c.fread c.a i)

def plain1 (op : Nat) (d a : BitVec 8) : Form :=
  form3 op d.toNat a.toNat 0 (.dst .one .any) (.src .one .any) .unused

/-! ## Arithmetic (R126, R127) -/

def execFadd (d a b : BitVec 8) (s : State) : Host.Outcome State Fault Refusal :=
  s.issue (plain2 0x40 d a b) (float2 fadd)

def execFsub (d a b : BitVec 8) (s : State) : Host.Outcome State Fault Refusal :=
  s.issue (plain2 0x41 d a b) (float2 fsub)

def execFmul (d a b : BitVec 8) (s : State) : Host.Outcome State Fault Refusal :=
  s.issue (plain2 0x42 d a b) (float2 fmul)

def fmaForm (op : Nat) (d a b : BitVec 8) : Form :=
  form3 op d.toNat a.toNat b.toNat (.acc .one .any) (.src .one .any) (.src .one .any)

def fmaBody (sub : Bool) : Ctx → State → State :=
  floatBody (fun c => c.uniAB 32 && c.resolvesUniform c.d) fun c i =>
    fma sub c.ffmt c.fmode (c.fread c.a i) (c.fread c.b i) (c.fread c.d i)

def execFma (d a b : BitVec 8) (s : State) : Host.Outcome State Fault Refusal :=
  s.issue (fmaForm 0x43 d a b) (fmaBody false)

def execFms (d a b : BitVec 8) (s : State) : Host.Outcome State Fault Refusal :=
  s.issue (fmaForm 0x44 d a b) (fmaBody true)

def execFdiv (d a b : BitVec 8) (s : State) : Host.Outcome State Fault Refusal :=
  s.issue (plain2 0x45 d a b) (float2 fdiv)

def execFsqrt (d a : BitVec 8) (s : State) : Host.Outcome State Fault Refusal :=
  s.issue (plain1 0x46 d a) (float1 fsqrt)

def execFrcp (d a : BitVec 8) (s : State) : Host.Outcome State Fault Refusal :=
  s.issue (plain1 0x47 d a) (float1 frcp)

def execFrsq (d a : BitVec 8) (s : State) : Host.Outcome State Fault Refusal :=
  s.issue (plain1 0x48 d a) (float1 frsq)

/-! ## Minimum, maximum, sign (R128, R129) -/

def execFmin (d a b : BitVec 8) (s : State) : Host.Outcome State Fault Refusal :=
  s.issue (plain2 0x49 d a b) (float2 (fminmax false))

def execFmax (d a b : BitVec 8) (s : State) : Host.Outcome State Fault Refusal :=
  s.issue (plain2 0x4A d a b) (float2 (fminmax true))

def execFabs (d a : BitVec 8) (s : State) : Host.Outcome State Fault Refusal :=
  s.issue (plain1 0x4B d a) (float1 fun f _ x => (x % 2 ^ (f.width - 1), 0))

def execFneg (d a : BitVec 8) (s : State) : Host.Outcome State Fault Refusal :=
  s.issue (plain1 0x4C d a) (float1 fun f _ x =>
    (x % 2 ^ (f.width - 1) + f.signBit (!bitAt x (f.width - 1)), 0))

/-! ## Compares (R130) -/

def fcompareForm (op : Nat) (d : BitVec 3) (a b : BitVec 8) : Form :=
  form3 op d.toNat a.toNat b.toNat .pdst (.src .one .any) (.src .one .any)

def fcompareBody (kind : Nat) : Ctx → State → State :=
  floatBody (fun c => c.uniAB 32) fun c i =>
    let r := fcompare kind c.ffmt c.fmode (c.fread c.a i) (c.fread c.b i)
    (if r.1 then 1 else 0, r.2)

def execFcmpeq (d : BitVec 3) (a b : BitVec 8) (s : State) : Host.Outcome State Fault Refusal :=
  s.issue (fcompareForm 0x4D d a b) (fcompareBody 0)

def execFcmplt (d : BitVec 3) (a b : BitVec 8) (s : State) : Host.Outcome State Fault Refusal :=
  s.issue (fcompareForm 0x4E d a b) (fcompareBody 1)

def execFcmple (d : BitVec 3) (a b : BitVec 8) (s : State) : Host.Outcome State Fault Refusal :=
  s.issue (fcompareForm 0x4F d a b) (fcompareBody 2)

def execFcmpun (d : BitVec 3) (a b : BitVec 8) (s : State) : Host.Outcome State Fault Refusal :=
  s.issue (fcompareForm 0x50 d a b) (fcompareBody 3)

/-! ## Conversions and classes (R131 to R134) -/

def execCvtfi (d a : BitVec 8) (s : State) : Host.Outcome State Fault Refusal :=
  let conv := fun (c : Ctx) (i : Nat) => toInteger c.ffmt c.fmode c.itype.w c.itype.signed (c.fread c.a i)
  s.issue (form3 0x51 d.toNat a.toNat 0 (.dst .typed .any) (.src .one .any) .unused)
    (aluBody (fun c => c.resolvesUniform c.a) (fun c i => c.itype.words (conv c i).1) (fun c i => (conv c i).2))

def execCvtif (d a : BitVec 8) (s : State) : Host.Outcome State Fault Refusal :=
  s.issue (form3 0x52 d.toNat a.toNat 0 (.dst .one .any) (.src .typed .any) .unused)
    (floatBody (fun c => c.resolvesUniformW c.a c.itype.w) fun c i =>
      c.ffmt.ofInt c.fmode (c.itype.value (c.readBits c.a c.itype.w i)))

def execFwiden (d a : BitVec 8) (s : State) : Host.Outcome State Fault Refusal :=
  s.issue (plain1 0x53 d a) (float1 fun f m x => fconvert f .f32 m x)

def execFnarrow (d a : BitVec 8) (s : State) : Host.Outcome State Fault Refusal :=
  s.issue (plain1 0x54 d a) (float1 fun f m x => fconvert .f32 f m x)

def execFclass (d a : BitVec 8) (s : State) : Host.Outcome State Fault Refusal :=
  s.issue (plain1 0x55 d a) (float1 fun f _ x => (fclass f x, 0))

/-! ## QUANT and DEQ (R140 to R142) -/

/-- Elements per thread of a C code; 3 is reserved. -/
def elementsOf (c : Nat) : Nat := 2 ^ c

/-- A QUANT descriptor that Table 6.5 refuses. -/
def quantBad (desc width : Nat) : Bool :=
  bits desc 8 24 != 0 || bits desc 6 2 == 3 || decide (bits desc 0 4 < 2) || decide (8 < bits desc 0 4) ||
  decide (width < 16 * 2 ^ bits desc 4 2 / elementsOf (bits desc 6 2))

/-- A DEQ descriptor that Table 6.6 refuses. -/
def deqBad (desc : Nat) : Bool :=
  bits desc 11 21 != 0 || bits desc 8 2 == 3 || decide (bits desc 0 4 < 2) || decide (8 < bits desc 0 4) ||
  decide (bits desc 4 4 < 2) || decide (bits desc 0 4 < bits desc 4 4)

/-- A trap at a range check that follows the descriptor: the slot is marked as outside the allotment. -/
def Ctx.rangeTrap (c : Ctx) (f : Form) (slotA : Bool) (s : State) : State :=
  let x := s.issueOf f c.g
  let r := if slotA then { x.r with a := { x.r.a with oob := true } } else { x.r with d := { x.r.d with oob := true } }
  s.trapForm f { x with r } 0x05 0x00 0

/-- A block of QUANT: its threads, its active threads in order, and the scale, codes and flags. -/
def Ctx.quantOf (c : Ctx) (desc i : Nat) : Word × List Int × BitVec 6 :=
  let n := elementsOf (bits desc 6 2)
  let T := 16 * 2 ^ bits desc 4 2 / n
  let j := i / T
  let mates := (threadsOf c.active).filter fun t => t / T == j
  let xs := mates.flatMap fun t => (List.range n).map fun e =>
    c.ffmt.decode (c.ffmt.source c.fmode (c.fread (c.a.above e) t))
  let q := quantBlock xs (bits desc 0 4)
  (wordOf q.1, (q.2.1.drop (mates.idxOf i * n)).take n, q.2.2)

/-- Codes as `i8` in the bytes of a word, first code lowest. -/
def packCodes (l : List Int) : Word := wordOf (ofBytes (l.map fun v => BitVec.ofInt 8 v))

/-- The n consecutive registers of a slot reach beyond the allotment. QUANT whose slot a holds `zero` or another special, with
C > 1, has no consecutive registers: it takes that trap. DESIGN CHOICE (log 127, unsafe). -/
def Ctx.beyond (c : Ctx) (o : Operand) (n : Nat) : Bool :=
  let al := c.g.allotment c.tm
  match o with
  | .t j => decide (al.t < j + n)
  | .g j => decide (al.g < j + n)
  | .m j => decide (al.m < j + n)
  | .k j => decide (al.k < j + n)
  | _ => decide (1 < n)

def quantBody (f : Form) (c : Ctx) (s : State) : State :=
  let desc := (c.read c.b 0).toNat
  let n := elementsOf (bits desc 6 2)
  if quantBad desc c.width then c.trap f s 0x07 0x04 0
  else if c.beyond c.a n then c.rangeTrap f true s
  else if c.emptyIn c.a n (threadsOf c.active) then s.onEmpty f (s.issueOf f c.g) 1
  else if c.emptyIn c.d 2 (threadsOf c.active) then s.onEmpty f (s.issueOf f c.g) 0
  else
    laneCommit c (fun i => let q := c.quantOf desc i; [packCodes q.2.1, q.1]) (fun i => (c.quantOf desc i).2.2) s

/-- QUANT; `zero` in slot d is accepted, and the codes and scales are discarded. DESIGN CHOICE (log 115, unsafe). -/
def execQuant (d a b : BitVec 8) (s : State) : Host.Outcome State Fault Refusal :=
  let f := laneForm 0x56 d.toNat a.toNat b.toNat (.dst (.regs 2 true) .t) (.src .one .any) (.src .one .uniform)
  s.issue f (quantBody f) (reads := fun c => ⟨[], [], c.activeReads.b⟩)

/-- The integer multiplier that a code stands for under a DEQ descriptor (R139). -/
def deqMultiplier (desc : Nat) (code : Byte) : Int :=
  let n := bits desc 0 4
  let k := bits desc 4 4
  code.toInt * 2 ^ (n - k) + if bitAt desc 10 ∧ k < n then 2 ^ (n - k - 1) else 0

/-- Element e of a thread: its code in the first register of pair a, the scale in the second. -/
def Ctx.deqOf (c : Ctx) (desc i e : Nat) : Nat × BitVec 6 :=
  let pair := c.readPair c.a i
  let code : Byte := BitVec.ofNat 8 (bits pair (8 * e) 8)
  scaled c.ffmt c.fmode (deqMultiplier desc code) (bits pair 32 16)

/-- The checks of DEQ and its results. `zero` in slot d names no registers d to d + C - 1: nothing is checked of it, and the C
results are discarded. DESIGN CHOICE (log 115, unsafe). -/
def deqBody (f : Form) (c : Ctx) (s : State) : State :=
  let desc := (c.read c.b 0).toNat
  let n := elementsOf (bits desc 8 2)
  if deqBad desc then c.trap f s 0x07 0x04 0
  else if c.d != .zero && c.beyond c.d n then c.rangeTrap f false s
  else if c.emptyIn c.a 2 c.activeReads.a then s.onEmpty f (s.issueOf f c.g) 1
  else if c.emptyIn c.d n c.activeReads.d then s.onEmpty f (s.issueOf f c.g) 0
  else
    let uni := c.resolvesUniformW c.a 64 && c.resolvesUniform c.b
    let fl := c.flagsOf fun i => (List.range n).foldl (fun acc e => acc ||| (c.deqOf desc i e).2) 0
    let g := (List.range n).foldl (fun g e =>
      (c.roomAfter c.g g).write1 (c.d.above e) uni (fun i => wordOf (c.deqOf desc i e).1) g) c.g
    s.putGroup (g.onArch fun a => { a with sticky := a.sticky ||| fl }).advance

def execDeq (d a b : BitVec 8) (s : State) : Host.Outcome State Fault Refusal :=
  let f := form3 0x57 d.toNat a.toNat b.toNat (.dst .one .any) (.src (.regs 2 true) .any) (.src .one .uniform)
  let f := f.pairSource [f.a]
  s.issue f (deqBody f) (reads := fun c => ⟨[], [], c.activeReads.b⟩)

/-! ## Sticky flags (R124, R125) -/

/-- TFENCE: the arithmetic trap when an enabled flag is set. -/
def execTfence (s : State) : Host.Outcome State Fault Refusal :=
  let f := form3 0x58 0 0 0 .unused .unused .unused
  s.issue f fun c s =>
    let hit := c.g.arch.sticky.toNat &&& modeTen c.mode
    if hit = 0 then s.putGroup c.g.advance else c.trap f s 0x03 hit 0

def execFflags (d a : BitVec 8) (s : State) : Host.Outcome State Fault Refusal :=
  s.issue (form3 0x59 d.toNat a.toNat 0 (.dst .one .gz) (.src .one .uniform) .unused) fun c s =>
    let old := c.g.arch.sticky
    let clear := BitVec.ofNat 6 (c.read c.a 0).toNat
    let g := c.g.setGOperand c.d [wordOf old.toNat]
    s.putGroup (g.onArch fun a => { a with sticky := old &&& ~~~ clear }).advance

/-! ## 64-bit forms: always a trap (03 R58) -/

/-- The unimplemented-instruction trap with sub-cause 0x05, whatever the other fields hold. -/
def wideFloat (op : Nat) (d a b : BitVec 8) (s : State) : Host.Outcome State Fault Refusal :=
  let f := form3 op d.toNat a.toNat b.toNat (.acc (.regs 2 true) .any) (.src (.regs 2 true) .any) (.src (.regs 2 true) .any)
  match s.group? s.cur with
  | none => .fault .noGroup
  | some g => .next (s.trapForm f (s.issueOf f g) 0x01 0x05 0)

def execDadd (d a b : BitVec 8) (s : State) : Host.Outcome State Fault Refusal := wideFloat 0x5A d a b s

def execDsub (d a b : BitVec 8) (s : State) : Host.Outcome State Fault Refusal := wideFloat 0x5B d a b s

def execDmul (d a b : BitVec 8) (s : State) : Host.Outcome State Fault Refusal := wideFloat 0x5C d a b s

def execDfma (d a b : BitVec 8) (s : State) : Host.Outcome State Fault Refusal := wideFloat 0x5D d a b s

def execDdiv (d a b : BitVec 8) (s : State) : Host.Outcome State Fault Refusal := wideFloat 0x5E d a b s

def execDcvt (d a b : BitVec 8) (s : State) : Host.Outcome State Fault Refusal := wideFloat 0x5F d a b s

end Sys2Proof.Machine
end

