-- ==== Sys2Proof/Machine/Landing.lean ====
section
/-! DEFINITION. Landing a producer's values in a group's copies, wherever they are: in the core, in its image, or in what is
kept of a handler (03 R51, R54, 07 R167, R169). -/

namespace Sys2Proof.Machine

/-! ## Values (R51, R54) -/

/-- Land a value in a program's copy. -/
def Arch.landAt (a : Arch) (width : Nat) (x : Target × Word) : Arch :=
  match x.1 with
  | .g n => a.setG n x.2
  | .t n i =>
    a.onT n fun r =>
      match r with
      | .perThread _ => r.land i x.2
      | .widened _ _ _ => r.store width (dwordOf (2 ^ i)) fun _ => x.2

/-- Set bit i of the 8 bytes at an offset of a span. -/
def State.setSpanBit (s : State) (segs : List Seg) (off i : Nat) : State :=
  s.putSpan segs off (bytesOf 8 (putBits (s.spanValue segs off 8) i 1 1))

/-- Land a value in a program's image. -/
def State.landImage (s : State) (segs : List Seg) (x : Target × Word) : State :=
  match x.1 with
  | .g n => (s.putSpan segs (0x0200 + 4 * n) (bytesOf 4 x.2.toNat)).setSpanBit segs 0x0300 n
  | .t n i => (s.putSpan segs (0x3000 + 256 * n + 4 * i) (bytesOf 4 x.2.toNat)).setSpanBit segs (0x0400 + 8 * n) i

/-- The program's copies stand in its image: the group is saved, or held by BRK, which resumes it through the image
(14 R277, R285). -/
def Group.inImage (g : Group) : Bool := g.saved || (g.phase == .held && !g.stalled)

/-- Land values in the copies of a group's program, or of its handler, where they now are: in the core, in the image, or
in the handler's kept state. -/
def State.landAll (s : State) (gid : Nat) (super : Bool) (ws : List (Target × Word)) : State :=
  match s.group? gid with
  | none => s
  | some g =>
    let width := (s.teamOf g).launch.width
    let onto (a : Arch) : Arch := ws.foldl (fun a x => a.landAt width x) a
    if !g.live || (super && !g.super) then s
    else if super && g.saved then s.putGroup { g with himage := g.himage.map onto }
    else if g.super == super && !g.inImage then s.putGroup { g with arch := onto g.arch }
    else
      match s.imageSpan g .write with
      | (s, .error _) => s
      | (s, .ok segs) => ws.foldl (fun s x => s.landImage segs x) s

/-- A blocked read of a group looks at its copies again. -/
def State.wake (s : State) (gid : Nat) : State :=
  s.onGroup gid fun g => if g.phase = .blocked then { g with phase := .ready } else g

/-! ## Deliveries -/

/-- The `g` register of a group becomes full with its value unchanged. -/
def State.landFull (s : State) (gid : Nat) (super : Bool) (n : Nat) : State :=
  match s.group? gid with
  | none => s
  | some g =>
    let mark (a : Arch) : Arch := a.setFull n true
    if !g.live || (super && !g.super) then s
    else if super && g.saved then s.putGroup { g with himage := g.himage.map mark }
    else if g.super == super && !g.inImage then s.putGroup { g with arch := mark g.arch }
    else
      match s.imageSpan g .write with
      | (s, .error _) => s
      | (s, .ok segs) => s.setSpanBit segs 0x0300 n

/-- A producer writes its copies, each full, and a blocked read looks again; the group's earlier reductions of the bytes
that a load reads have ended. -/
def State.deliverNow (s : State) (g : Group) (d : Delivery) : State :=
  let s := s.clearLoads [d]
  let gone := fun (s : State) => { s with deliveries := s.deliveries.filter (·.id != d.id) }
  match d.product with
  | .values ws => (gone (s.landAll d.gid d.super ws)).wake d.gid
  | .load targets src signed =>
    let ws := loadedWords (s.srcBytes g d.id src) signed
    (gone (s.landAll d.gid d.super (targets.zip ws))).wake d.gid
  | .tile reg soff spitch e tr rows =>
    let s := s.landTile g d.id soff spitch e tr rows
    (gone (if reg < 64 then s.landFull d.gid d.super reg else s)).wake d.gid
  | .full reg => (gone (s.landFull d.gid d.super reg)).wake d.gid

/-- What an instruction of the group put on its way, with identifiers from a given one on, lands now: the group parks, and
the copies of its finished threads are full (07 R162, 09 R185, 10 R229). What must be read before it is read first. -/
def State.landSince (s : State) (g : Group) (first : Nat) : State :=
  (s.deliveries.filter fun d => d.gid == g.id && decide (first ≤ d.id)).foldl (fun s d =>
    let s := d.product.reads.foldl (fun s x => match x with
      | .at l n => s.readyToRead g l n
      | .lit _ => s) (s.freeze g g.acqFloor)
    match s.deliveries.find? (·.id == d.id) with
    | some d => s.deliverNow g d
    | none => s) s

end Sys2Proof.Machine
end

