-- ==== Sys2Proof/Machine/Access.lean ====
section
/-! DEFINITION. The accesses of memory instructions: the checks of each thread's access (07 R158 to R160), one
translation outcome per page and issue (R159), parking on faults (R162, R163), and shootdown of a page (R153). -/

namespace Sys2Proof.Machine

/-! ## One access -/

/-- Where an access of n bytes goes, and its leaf (0 for team memory). -/
structure Spot where
  loc : Loc
  hit : Hit
  deriving DecidableEq, Repr

/-- What one issue has found out about the pages that it translates (07 R159): which stale entries it uses, and the
outcome of each range of addresses: first address, size, and the hit of the first byte. -/
structure Memo where
  stale : Stale
  pages : List (Nat × Nat × Except MFault Hit)

def Memo.none : Memo := ⟨[], []⟩

/-- The address of an access: team-memory offset, or virtual address with the translation register used, if any. -/
structure Target7 where
  team : Bool
  addr : Nat
  via : Option (XReg × Word)
  deriving DecidableEq, Repr

/-- Translate within one issue: a page that has an outcome keeps it. -/
def State.translateOnce (s : State) (memo : Memo) (g : Group) (t : Target7) (w : Nat) (need : Need) :
    State × Memo × Except MFault Hit :=
  match memo.pages.find? fun p => decide (p.1 ≤ t.addr) && decide (t.addr < p.1 + p.2.1) with
  | some (_, _, .error f) => (s, memo, .error f)
  | some (lo, _, .ok h) => (s, memo, .ok { h with pa := h.pa + (t.addr - lo) })
  | none =>
    let (r, page) := match t.via with
      | some (x, off) =>
        (s.translateXl memo.stale g x off w need,
          if x.v && x.vbase.toNat / pageSize x.pgsz.toNat == t.addr / pageSize x.pgsz.toNat then pageSize x.pgsz.toNat else 0x10000)
      | none => (s.translateOn memo.stale (s.teamOf g).ctx (s.coreOf g) g.priv t.addr need, 0x10000)
    match r with
    | (s, known, .error f) => (s, ⟨known, (t.addr / page * page, page, .error f) :: memo.pages⟩, .error f)
    | (s, known, .ok h) =>
      let size := pageSize h.level
      (s, ⟨known, (t.addr / size * size, size, .ok { h with pa := h.pa - t.addr % size }) :: memo.pages⟩, .ok h)

/-- The line of team memory at an offset holds a barrier or a queue (09 R201, R208). -/
def Team.tagged (tm : Team) (off : Nat) : Bool := tm.tags.any (·.1 == off / 16)

/-- The checks of an access of w bytes, in the order of R160. -/
def State.spot (s : State) (memo : Memo) (g : Group) (t : Target7) (w : Nat) (need : Need) (align : Bool) :
    State × Memo × Except MFault Spot :=
  let tm := s.teamOf g
  if !t.team && decide (2 ^ 52 ≤ t.addr) then (s, memo, .error (.plain 0x05))
  else if align && t.addr % w != 0 then (s, memo, .error (.plain 0x06))
  else if t.team then
    if tm.launch.tmem < t.addr + w then (s, memo, .error (.plain 0x07))
    else if need.writes ∧ tm.tagged t.addr then (s, memo, .error (.plain 0x08))
    else (s, memo, .ok ⟨.team tm.id t.addr, ⟨t.addr, 0, 0⟩⟩)
  else
    match s.translateOnce memo g t w need with
    | (s, memo, .error f) => (s, memo, .error f)
    | (s, memo, .ok h) => (s, memo, .ok ⟨.phys (s.homePa h.pa), h⟩)

/-- The source of a read of n bytes at a spot. -/
def State.spotSource (s : State) (p : Spot) (n : Nat) : Except MFault Src :=
  match p.loc with
  | .team _ _ => .ok (.at p.loc n)
  | .phys _ => s.readSource p.hit n

/-! ## The accesses of an instruction -/

/-- A thread's access and what became of it. -/
structure Tried (α : Type) where
  thread : Nat
  addr : Nat
  out : Except MFault α

/-- Try the access of each thread in order. -/
def State.tryAll (s : State) (g : Group) (targets : List (Nat × Target7)) (w : Nat) (need : Need) (align : Bool) :
    State × List (Tried Spot) :=
  let r := targets.foldl (fun (acc : State × Memo × List (Tried Spot)) x =>
    match acc.1.spot acc.2.1 g x.2 w need align with
    | (s, memo, out) => (s, memo, acc.2.2 ++ [⟨x.1, x.2.addr, out⟩])) (s, Memo.none, [])
  (r.1, r.2.2)

/-- The same for reads: where the bytes come from. -/
def State.tryReads (s : State) (g : Group) (targets : List (Nat × Target7)) (w : Nat) (align : Bool) :
    State × List (Tried Src) :=
  match s.tryAll g targets w .read align with
  | (s, l) =>
    (s, l.map fun x =>
      match x.out with
      | .error f => ⟨x.thread, x.addr, .error f⟩
      | .ok p => ⟨x.thread, x.addr, s.spotSource p w⟩)

/-- The accesses that faulted. -/
def failures {α : Type} (l : List (Tried α)) : List (Nat × Nat × MFault) :=
  l.filterMap fun x => match x.out with
    | .error f => some (x.thread, x.addr, f)
    | .ok _ => none

/-- The accesses that passed. -/
def passes {α : Type} (l : List (Tried α)) : List (Nat × Nat × α) :=
  l.filterMap fun x => match x.out with
    | .error _ => none
    | .ok v => some (x.thread, x.addr, v)

/-- How an instruction's memory faults are recorded (07 Table 7.6). -/
structure MemKind where
  kind : Nat
  width : Nat
  emu : Option Emulation := none
  /-- one access stands for the whole group: every thread of Active is unfinished. -/
  whole : Bool := false
  deriving DecidableEq, Repr

/-- Park on the faults of a list of failures, which is not empty; `held`: operands that the replay does not read
again. -/
def Ctx.park (c : Ctx) (f : Form) (k : MemKind) (fails : List (Nat × Nat × MFault)) (addrs : List (Nat × DWord))
    (held : List (Nat × List Word)) (pidx : Nat) (s : State) : State :=
  match s.group? c.g.id, fails with
  | some g, (_, va, m) :: _ =>
    let unfin := if k.whole then c.active else fails.foldl (fun a x => a ||| dwordOf (2 ^ x.1)) (0 : DWord)
    let old := g.replay
    let rp : Replay :=
      { unfin, mode := c.mode
        ix := match old with | some r => r.ix | none => g.arch.ix
        addrs, held := match old with | some r => r.held | none => held }
    let x := s.issueOf f c.g
    let firstIssue := some (g.firstIssue.getD (g.cclk, s.wall))
    s.memoryFault { g with arch := { g.arch with pidx := wordOf pidx }, firstIssue } f.word rp
      ⟨m.sub, va, k.kind, k.width, m.level, m.pte, pidx⟩ (f.views x.r) (f.pairs x.mode) k.emu
  | _, _ => s

/-- The address that a replay reuses (07 R163); where one access stood for the group, whichever of its threads are left. -/
def Ctx.replayAddr (c : Ctx) (i : Nat) : Option Nat :=
  match c.g.replay with
  | some rp =>
    match rp.addrs.find? (·.1 == i), rp.addrs with
    | some x, _ => some x.2.toNat
    | none, [x] => some x.2.toNat
    | none, _ => none
  | none => none

/-- A translation register of the issuing group. -/
def Ctx.xreg (c : Ctx) (xl : Nat) : XReg := c.g.arch.xl.getD xl XReg.zero

/-- The target of an access through a translation register; a replay reaches the same virtual address through it. -/
def Ctx.xlTarget (c : Ctx) (xl i : Nat) (off : Word) : Target7 :=
  match c.replayAddr i with
  | some va => ⟨false, va, (c.xreg xl).through va⟩
  | none => ⟨false, (c.xreg xl).va off, some (c.xreg xl, off)⟩

/-- Whether the group goes on: with faults it parks, and what the finished threads began with identifiers from `first` on
lands; without it advances. -/
def Ctx.finishMem {α : Type} (c : Ctx) (f : Form) (k : MemKind) (l : List (Tried α)) (addrs : List (Nat × DWord))
    (held : List (Nat × List Word)) (first : Nat) (s : State) : State :=
  match failures l with
  | [] => s.onGroup c.g.id fun g => g.advance
  | fails => c.park f k fails addrs held 0 (s.landSince c.g first)

/-! ## Shootdown (07 R153) -/

/-- Shoot down the page of an address in the saved image of a group, where its program stands in one (07 R153, 14 Table 14.3). -/
def State.shootImage (s : State) (g : Group) (va : Nat) : State :=
  if g.here && !g.super && !g.inImage then s
  else
    match s.imageSpan g .write with
    | (s, .error _) => s
    | (s, .ok segs) =>
      (List.range 8).foldl (fun s i =>
        let x := xregOf (s.spanBytes segs (0x0080 + 16 * i) 16)
        if x.shot va = x then s else s.putSpan segs (0x0080 + 16 * i) (xregBytes (x.shot va))) s

/-- Shoot down the page of an address in the saved images of the context's groups. -/
def State.shootSaved (s : State) (ctx va : Nat) : State :=
  (s.groups.filter fun g => g.live && (s.teamOf g).ctx == ctx).foldl (fun s g => s.shootImage g va) s

/-- Everything that the completion of a shootdown does, on every core of the package and in saved images. -/
def State.shootPage (s : State) (ctx va : Nat) : State := (s.shootCores ctx va).shootSaved ctx va

/-- The changes of saved images that this step still owes. -/
def State.settleShots (s : State) : State :=
  s.shots.foldl (fun s x => s.shootSaved x.1 x.2) { s with shots := [] }

end Sys2Proof.Machine
end

