-- ==== Sys2Proof/Machine/Waits.lean ====
section
/-! DEFINITION. Waits with deadlines (02 R36, 09 R191 to R195), and the objects that satisfy them: barriers (09 R201 to
R207), batches and fences (R196 to R198), queues (R208 to R210), merges (04 R79 to R82), join sets (20 R376, R377) and
the others of Table 9.4. -/

namespace Sys2Proof.Machine

/-! ## Deadlines (02 R36) -/

/-- An armed limit. -/
structure Armed where
  limit : Nat
  wall : Bool
  poll : Bool
  deriving DecidableEq, Repr

/-- Arm a deadline pair; none when a reserved bit is set. A relative one counts from the first issue, also where the
instruction blocked on an empty copy or parked first. -/
def State.arm (s : State) (g : Group) (pair : Nat) : Option Armed :=
  if bits pair 40 22 ≠ 0 then none
  else
    let wall := bitAt pair 63
    let ticks := bits pair 0 40
    let issue := g.firstIssue.getD (g.cclk, s.wall)
    let now := if wall then issue.2 else issue.1
    some (if bitAt pair 62 then ⟨ticks, wall, false⟩ else ⟨now + ticks, wall, ticks == 0⟩)

/-- The wait's clock has reached its limit. -/
def State.expired (s : State) (g : Group) (w : Wait) : Bool := decide (w.limit ≤ if w.wall then s.wall else g.cclk)

/-- The identity of a wait's object (09 Table 9.9). -/
def WaitObj.identity (o : WaitObj) (cluster : Nat) : Nat :=
  let kind := fun (k id : Nat) => k * 2 ^ 56 + id % 2 ^ 56
  match o with
  | .barrier off _ _ => kind 0x01 off
  | .batches n => kind 0x02 n.toNat
  | .fence classes _ => kind 0x03 classes.toNat
  | .promote core _ => kind 0x04 (core.getD 0x3FF)
  | .send e _ => kind 0x05 e.toNat
  | .receive q => kind 0x06 q.toNat
  | .word va _ _ _ => kind 0x07 va.toNat
  | .merge m => kind 0x08 m
  | .shoot page _ => kind 0x09 page.toNat
  | .join | .swap => kind 0x0A 0
  | .drain name _ => kind 0x0B name
  | .carAcq _ | .carProp _ => kind 0x0C cluster
  | .discard _ _ | .yielded => 0

/-! ## Ending a wait (09 R194) -/

def statusWord (n : Nat) : Word := wordOf n

/-- The consecutive-timeout counter after a wait, and whether the timeout escalates, with its sub-cause. Where the escalation bit
is set and the timeout is also the 16th, for which Table 14.1 ranks neither code, it is that of the bit, 0x00. DESIGN CHOICE
(log 131, unsafe). -/
def countTimeout (a : Arch) (ident : DWord) (poll timeout : Bool) : Arch × Option Nat :=
  if timeout then
    let n := if a.lastObj = ident ∧ a.timeouts ≠ 0 then a.timeouts + 1 else 1
    let b := if poll then a else { a with timeouts := n, lastObj := ident }
    if a.esc then ({ b with timeouts := 0 }, some 0)
    else if !poll && decide (16 ≤ n) then ({ b with timeouts := 0 }, some 1)
    else (b, none)
  else (if poll then a else { a with timeouts := 0 }, none)

/-- A wait returns: its registers are written, the group moves on, and a timeout may escalate. -/
def State.finishWait (s : State) (g : Group) (w : Wait) (ws : List (Nat × Word)) (timeout : Bool) : State :=
  let ident := dwordOf (w.obj.identity (clusterOfCore (s.coreOf g)))
  let c := countTimeout g.arch ident w.poll timeout
  let g := ws.foldl (fun (g : Group) x => g.setGs x.1 [x.2]) { g with arch := c.1 }
  let g := g.advance
  match c.2 with
  | none => s.putGroup g
  | some sub => s.plainTrap g 0x08 sub ident.toNat

/-! ## Barrier words (09 R201 to R207) -/

structure BarWord where
  expect : Nat
  arrived : Nat
  phase : Nat
  pend : Int
  deriving DecidableEq, Repr

def Team.barWord (tm : Team) (off : Nat) : BarWord :=
  let n := tm.mem.value off 16
  ⟨bits n 0 16, bits n 16 16, bits n 32 32, signedOf (n / 2 ^ 64) 40⟩

def BarWord.bytes (b : BarWord) : List Byte :=
  bytesOf 16 (b.expect + b.arrived * 2 ^ 16 + b.phase * 2 ^ 32 + wrap b.pend 40 * 2 ^ 64 + 2 ^ 104)

def Team.tagAt (tm : Team) (off : Nat) : Option Tag := (tm.tags.find? (·.1 == off / 16)).map (·.2)

def Team.isBarrier (tm : Team) (off : Nat) : Bool := tm.tagAt off == some .barrier

def State.putBar (s : State) (team off : Nat) (b : BarWord) : State :=
  s.onTeam team fun tm => { tm with mem := tm.mem.write off b.bytes }

/-- A wait on the barrier at an offset. -/
def WaitObj.onBarrier (off : Nat) (o : WaitObj) : Bool :=
  match o with
  | .barrier k _ _ => k == off
  | _ => false

/-- Clear the word, untag the line and free every waiter with CLOBBERED (R207); `ovf`: OVF stays set (R205). -/
def State.clobber (s : State) (team off : Nat) (ovf : Bool) : State :=
  let s := s.onTeam team fun tm =>
    { tm with
      mem := tm.mem.write off (bytesOf 16 (if ovf then 2 ^ 105 else 0))
      tags := tm.tags.filter (·.1 != off / 16) }
  s.latch team (WaitObj.onBarrier off) fun w => [(w.dst, statusWord Status.clobbered)]

/-- Complete(w) (R204): a finished phase frees every waiter of it with DONE. -/
def State.barComplete (s : State) (team off : Nat) : State :=
  match s.team? team with
  | none => s
  | some tm =>
    let b := tm.barWord off
    if b.expect ≠ 0 ∧ b.arrived = b.expect ∧ b.pend = 0 then
      let s := s.putBar team off { b with phase := (b.phase + 1) % 2 ^ 32, arrived := 0 }
      s.latch team (WaitObj.onBarrier off) fun w => [(w.dst, statusWord Status.done)]
    else s

/-- Arrive(w) (R204): the status and the token. -/
def State.arrive (s : State) (team off : Nat) : State × Nat × Word :=
  match s.team? team with
  | none => (s, Status.clobbered, 0)
  | some tm =>
    if !tm.isBarrier off then (s, Status.clobbered, 0)
    else
      let b := tm.barWord off
      if b.arrived = b.expect then (s.clobber team off false, Status.clobbered, 0)
      else ((s.putBar team off { b with arrived := b.arrived + 1 }).barComplete team off, Status.done, wordOf b.phase)

/-- Add to PEND and run Complete; out of range clobbers with OVF (R205). -/
def State.barPend (s : State) (team off : Nat) (n : Int) : State :=
  match s.team? team with
  | none => s
  | some tm =>
    if !tm.isBarrier off then s
    else
      let b := tm.barWord off
      let p := b.pend + n
      if p < -(2 ^ 39 : Int) ∨ (2 ^ 39 : Int) ≤ p then s.clobber team off true
      else (s.putBar team off { b with pend := p }).barComplete team off

/-- Withdraw an arrival of the current phase (R204). -/
def State.barWithdraw (s : State) (team off : Nat) (token : Word) : State :=
  match s.team? team with
  | none => s
  | some tm =>
    let b := tm.barWord off
    if tm.isBarrier off && b.phase == token.toNat then s.putBar team off { b with arrived := b.arrived - 1 } else s

/-! ## Batches (09 R197, 12 R250) -/

def Cmd.isDone (c : Cmd) : Bool := c.phase == .done

/-- The commands of a batch, in issue order. -/
def State.batchCmds (s : State) (b : Batch) : List Cmd := b.cmds.filterMap s.cmd?

def State.batchDone (s : State) (b : Batch) : Bool := (s.batchCmds b).all (·.isDone)

/-- The status of a complete batch: that of its earliest command that did not end DONE. -/
def State.batchStatus (s : State) (b : Batch) : Word :=
  match (s.batchCmds b).find? fun c => c.status != 0 with
  | some c => c.status
  | none => 0

/-- The unreported batches that n covers. -/
def Group.covered (g : Group) (n : Word) : List Batch :=
  let open' := g.batches.filter fun b => !b.reported
  if open'.any (·.num == n) then (open'.takeWhile (·.num != n)) ++ open'.filter (·.num == n) else open'

/-! ## Fences (09 R198) -/

/-- A command's fence class: copy engine 3, Oven 4, tower memory 5 (03 Table 3.8). -/
def funcClass (func : Nat) : Nat :=
  if func < 0x20 then 3 else if func < 0x40 then 4 else if func < 0x50 then 5 else 8

/-- The command writes team memory of its team (14 R278). -/
def Cmd.writesTeam (c : Cmd) : Bool :=
  match c.func with
  | 0x01 | 0x03 | 0x06 | 0x08 | 0x09 | 0x0B | 0x0C => true
  | 0x05 => bitAt (c.b.getD 0 0).toNat 1
  | 0x2D => bitAt c.a.toNat 28
  | 0x0A => !bitAt (c.b.getD 1 0).toNat 2
  | _ => false

def State.classDone (s : State) (g : Group) (upTo k : Nat) : Bool :=
  let cmdsDone := fun n => !(s.cmds.any fun c => c.gid == g.id && decide (c.id < upTo) && funcClass c.func == n && !c.isDone)
  let storesDone := fun (team : Bool) => !(s.stores.any fun e =>
    e.gid == g.id && decide (e.id < upTo) && e.seenAt.isNone && (match e.loc with | .team _ _ => team | .phys _ => !team))
  let redsDone := !(s.reductions.any fun r => r.gid == g.id && decide (r.id < upTo))
  match k with
  | 0 => s.delivered g.id upTo
  | 1 => storesDone true
  | 2 => storesDone false && redsDone
  | 3 | 4 | 5 => cmdsDone k
  | 6 => !(s.appends.any fun a => a.gid == g.id && decide (a.id < upTo))
  | _ => redsDone && !s.logOccupied (s.teamOf g).ctx

/-- The requested classes that are complete. -/
def State.fenceMask (s : State) (g : Group) (classes : BitVec 8) (upTo : Nat) : Nat :=
  (List.range 8).foldl (fun m k => if classes.getLsbD k && s.classDone g upTo k then m + 2 ^ k else m) 0

/-! ## Queues (09 R208 to R213) -/

structure QueueHeader where
  ring : Nat
  slots : Nat
  open' : Bool
  head : Nat
  tail : Nat
  held : Nat
  total : Nat
  deriving DecidableEq, Repr

def Team.queue? (tm : Team) (n : Nat) : Option QueueDecl := tm.queues.find? (·.num == n)

def Team.header (tm : Team) (q : QueueDecl) : QueueHeader :=
  let f := fun off n => tm.mem.value (q.hdr + off) n
  ⟨f 0x00 4, f 0x04 2, bitAt (f 0x06 2) 0, f 0x08 4, f 0x0C 4, f 0x10 4, f 0x14 4⟩

/-- Write a field of a queue header. -/
def State.putHeader (s : State) (team hdr off : Nat) (bs : List Byte) : State :=
  s.onTeam team fun tm => { tm with mem := tm.mem.write (hdr + off) bs }

/-- An open queue of a team by number, with its header. -/
def State.openQueue (s : State) (team n : Nat) : Option (QueueDecl × QueueHeader) :=
  match s.team? team with
  | none => none
  | some tm =>
    match tm.queue? n with
    | none => none
    | some q => let h := tm.header q; if h.open' then some (q, h) else none

/-- The team that a send entry targets: of the same task, with the entry's mix. -/
def State.targetTeam (s : State) (tm : Team) (mix : Nat) : Option Team :=
  s.teams.find? fun t => t.ctx == tm.ctx && t.tcb == tm.tcb && t.mix == mix && t.life != .retired

/-- QSEND's check (R209): none while it has no permit. PERMITS of an entry that is not declared or does not exist, for which the
rule names no count, is 0. DESIGN CHOICE (log 133, unsafe). -/
def State.trySend (s : State) (g : Group) (w : Wait) (entry : Word) (msg : List Word) : Option (State × List (Nat × Word)) :=
  let tm := s.teamOf g
  let lost := fun (permits : Nat) => some (s, [(w.dst, statusWord Status.lost), (w.dst + 1, wordOf permits)])
  match (if entry.toNat < 16 then tm.sends[entry.toNat]? else none) with
  | none => lost 0
  | some e =>
    if !e.declared then lost 0
    else
      match s.targetTeam tm e.mix with
      | none => lost e.permits
      | some t =>
        match (if t.holds then s.openQueue t.id e.queue else none) with
        | none => lost e.permits
        | some _ =>
          if e.permits = 0 then none
          else
            let s := s.release g 2
            let s := s.onTeam tm.id fun t => { t with sends := t.sends.set entry.toNat { e with permits := e.permits - 1 } }
            let sender := wordOf (entry.toNat * 2 ^ 12 + s.coreOf g % 512)
            let a : Append := ⟨s.nextId, g.id, t.id, e.queue, msg, sender, tm.id, entry.toNat⟩
            some ({ s with nextId := s.nextId + 1, appends := s.appends ++ [a] },
              [(w.dst, statusWord Status.done), (w.dst + 1, wordOf (e.permits - 1))])

/-- A group waits for a message of a queue, in its core, saved, or while its handler runs. -/
def Group.receives (g : Group) (queue : Word) : Option Wait :=
  match g.wait.orElse fun _ => g.keptWait with
  | some w => if w.obj = .receive queue ∧ w.result.isNone ∧ g.live then some w else none
  | none => none

/-- Waits of the team for the queue that began before a given one, in that order; ties to the lower gix (09 R210). -/
def State.earlierReceivers (s : State) (g : Group) (w : Wait) (queue : Word) : List (Group × Wait) :=
  let l := s.groups.filterMap fun h =>
    if h.team = g.team ∧ h.id ≠ g.id then ((h.receives queue).filter fun v => decide (v.began < w.began)).map fun v => (h, v)
    else none
  sortBy (fun x => x.2.began * 512 + x.1.gix) l

/-- Take the entry at HEAD of an open queue for a wait: its registers. -/
def State.takeEntry (s : State) (g : Group) (w : Wait) (queue : Word) : State × List (Nat × Word) :=
  match s.openQueue g.team queue.toNat with
  | none => (s, [(w.dst, statusWord Status.lost)])
  | some (q, h) =>
    let at' := h.ring + 32 * (h.head % h.slots)
    let mem := s.teamMem g.team
    let words := (List.range 5).map fun i => wordOf (mem.value (at' + 4 * i) 4)
    let s := (s.ownWrite g q.hdr 32).putHeader g.team q.hdr 0x08 (bytesOf 4 (h.head + 1))
    let s := s.putHeader g.team q.hdr 0x10 (bytesOf 4 (h.held + 1))
    (s, [(w.dst, statusWord Status.done), (w.dst + 1, words.getD 4 0)] ++
      (List.range 4).map fun i => (w.dst + 2 + i, words.getD i 0))

/-- Give the entry at HEAD to a wait that may be away: its result is kept for it (09 R193, R210). -/
def State.grantEntry (s : State) (g : Group) (w : Wait) (queue : Word) : State :=
  match s.takeEntry g w queue with
  | (s, ws) =>
    let keep (v : Wait) : Wait := if v.began = w.began then { v with result := some ws } else v
    s.onGroup g.id fun h => { h with wait := h.wait.map keep, keptWait := h.keptWait.map keep }

/-- QRECV's check (R210): the entries go to the groups in the order in which they began to wait, those that are away
included. One that ends LOST or TIMEOUT writes g(d) alone, which the spec leaves open. DESIGN CHOICE (log 132, unsafe). -/
def State.tryReceive (s : State) (g : Group) (w : Wait) (queue : Word) : Option (State × List (Nat × Word)) :=
  match s.openQueue g.team queue.toNat with
  | none => some (s, [(w.dst, statusWord Status.lost)])
  | some (_, h) =>
    let before := s.earlierReceivers g w queue
    if (h.tail + 2 ^ 32 - h.head) % 2 ^ 32 ≤ before.length then none
    else some ((before.foldl (fun s x => s.grantEntry x.1 x.2 queue) s).takeEntry g w queue)

/-! ## Team merges: the result is latched at completion (04 R79) -/

/-- The live groups of a team. -/
def State.liveOf (s : State) (team : Nat) : List Group := (s.groupsOf team).filter (·.live)

/-! ## Join sets (20 R377) -/

def Child.ended (c : Child) : Bool := c.failed || c.done.isSome

def Child.failure (c : Child) : Option Word :=
  match c.done with
  | some v => if v = 0 then none else some v
  | none => none

/-- The join result of a set whose children have all retired: DONE when the set had no member, a failed submission
being none. -/
def joinResult (l : List Child) : Word × Word :=
  let bad := l.filterMap Child.failure
  (if l.all (·.failed) then 0 else bad.headD 0, wordOf bad.length)

/-! ## Checks (09 R192) -/

/-- The object of a wait: satisfied, with the state after it is used and the registers to write; or not yet. -/
def State.satisfied (s : State) (g : Group) (w : Wait) : Option (State × List (Nat × Word)) :=
  let dst := fun (n : Nat) => [(w.dst, statusWord n)]
  match w.result with
  | some r => some (s, r)
  | none =>
    match w.obj with
    | .barrier off token _ =>
      let tm := s.teamOf g
      if !tm.isBarrier off then some (s, dst Status.clobbered)
      else if (tm.barWord off).phase ≠ token.toNat then some (s, dst Status.done)
      else none
    | .batches n =>
      let cover := g.covered n
      if cover.all s.batchDone then
        let st := match cover.find? fun b => s.batchStatus b != 0 with
          | some b => s.batchStatus b
          | none => 0
        let nums := cover.map (·.num)
        let mark := fun (b : Batch) => if nums.contains b.num then { b with reported := true } else b
        some (s.onGroup g.id fun g => { g with batches := g.batches.map mark }, [(w.dst, st)])
      else none
    | .fence classes upTo =>
      if s.fenceMask g classes upTo = classes.toNat then some (s, [(w.dst, wordOf classes.toNat)]) else none
    | .promote _ k => if s.promotions.any (·.id == k) then none else some (s, dst Status.done)
    | .send e msg => s.trySend g w e msg
    | .receive q => s.tryReceive g w q
    | .word _ _ _ _ => none
    | .merge _ => none
    | .shoot page _ =>
      if s.shootdowns.any fun x => x.ctx == (s.teamOf g).ctx && x.va == page then none else some (s, dst Status.done)
    | .join =>
      let set := (s.teamOf g).joinSet
      if set.all Child.ended then
        let r := joinResult set
        some (s.onTeam g.team fun t => { t with joinSet := [] }, [(w.dst, r.1), (w.dst + 1, r.2)])
      else none
    | .swap => none
    | .discard _ k => if s.shootdowns.any (·.id == k) then none else some (s, [])
    | .drain name cmds =>
      let ov := (s.clusterRec (clusterOfCore (s.coreOf g))).oven
      let mapped := ((ov.maps.find? (·.team == g.team)).map fun m => m.names.getD name []).getD []
      let mine := mapped ++ (ov.draining.filter fun d => d.1 == g.team && d.2.1 == name).map (·.2.2)
      if s.cmds.any fun c => cmds.contains c.id && !c.isDone && c.banks.any mine.contains then none
      else some (s, dst Status.done)
    | .carAcq _ | .carProp _ => none
    | .yielded => if (s.teamOf g).life = .running then some (s, [(w.dst, 1)]) else none

/-- What withdrawing a wait undoes, and what its timeout writes (09 R192). -/
def State.withdraw (s : State) (g : Group) (w : Wait) : State × List (Nat × Word) :=
  match w.obj with
  | .barrier off token arrived => (if arrived then s.barWithdraw g.team off token else s, w.onTimeout)
  | .fence classes upTo => (s, [(w.dst, wordOf (s.fenceMask g classes upTo))])
  | .merge m =>
    (s.onTeam g.team fun t => { t with arrivals := t.arrivals.filter fun a => !(a.gid == g.id && a.m == m) }, w.onTimeout)
  | .carAcq k => (s.dropCarousel (· == k), w.onTimeout)
  | .carProp k =>
    let lvl := wordOf (s.clusterRec (clusterOfCore (s.coreOf g))).car.level
    (s.dropCarousel (· == k),
      [(w.dst, statusWord Status.timeout), (w.dst + 1, 0), (w.dst + 2, 0xFFFFFFFF), (w.dst + 3, lvl)])
  | _ => (s, w.onTimeout)

/-- The latched result of a swap that ended early is its timeout (20 R377). -/
def Wait.timedOut (w : Wait) (ws : List (Nat × Word)) : Bool :=
  match w.obj with
  | .swap | .carProp _ => ws.any fun x => x.1 == w.dst && x.2 == statusWord Status.timeout
  | _ => false

/-- A CAR.PROP that has reached the head of its Carousel's order is no longer withdrawn (18 R353). -/
def State.propAtHead (s : State) (w : Wait) : Bool :=
  match w.obj with
  | .carProp k => s.clusters.any fun cl => (cl.car.order.filterMap s.cmd?).head?.any fun c => c.id == k
  | _ => false

/-- A wait without a deadline that its check could reach. -/
def WaitObj.timeless (o : WaitObj) : Bool :=
  match o with
  | .swap | .yielded | .discard _ _ => true
  | _ => false

/-- Check a resident group's wait: the object first, then the deadline (09 R192). -/
def State.checkWait (s : State) (g : Group) (w : Wait) : State :=
  match s.satisfied g w with
  | some (s, ws) =>
    match s.group? g.id with
    | none => s
    | some g => s.finishWait g w ws (w.timedOut ws)
  | none =>
    if s.expired g w && !w.obj.timeless && !s.propAtHead w then
      match s.withdraw g w with
      | (s, ws) => s.finishWait g w ws true
    else s.putGroup { g with phase := .waiting, wait := some w }

/-- Begin a wait at its first issue, or check it again (09 R191). -/
def State.beginWait (s : State) (g : Group) (obj : WaitObj) (dst : Nat) (onTimeout : List (Nat × Word)) (a : Armed) : State :=
  { s with nextId := s.nextId + 1 }.checkWait g ⟨obj, onTimeout, dst, a.limit, a.wall, a.poll, s.nextId, none⟩

/-- The resident groups that wait, in the order in which they began; ties to the lower gix (09 R210). -/
def State.waiters (s : State) : List Nat :=
  let began := fun (g : Group) => ((g.wait.map (·.began)).getD 0) * 512 + g.gix
  (sortBy began (s.groups.filter fun g => g.phase == .waiting && g.here)).map (·.id)

/-- Every resident wait whose object is satisfied returns. -/
def State.settleWaits (s : State) : State :=
  s.waiters.foldl (fun s id =>
    match s.group? id with
    | none => s
    | some g =>
      match g.wait with
      | none => s
      | some w =>
        match s.satisfied g w with
        | none => s
        | some (s, ws) =>
          match s.group? id with
          | none => s
          | some g => s.finishWait g w ws (w.timedOut ws)) s

end Sys2Proof.Machine
end

