-- ==== Sys2Proof/Machine/LoadStore.lean ====
section
/-! DEFINITION. The memory class, opcodes 0x60 to 0x72: loads, stores, tiles, translation registers, prefetch and cache
maintenance, WAITMEM and DISCARD (07 R155 to R177). -/

namespace Sys2Proof.Machine

/-! ## Loads and stores (R165) -/

/-- Width in bytes of an access under the mode (03 R56). -/
def Ctx.accessBytes (c : Ctx) (float : Bool) : Nat :=
  if float then ftypeWidth (modeFtype c.mode) / 8 else itypeWidth (modeItype c.mode) / 8

/-- Whether a loaded value is extended with its sign (05 R95, 06 R116). -/
def Ctx.accessSigned (c : Ctx) (float : Bool) : Bool := !float && itypeSigned (modeItype c.mode)

/-- The registers of a data operand of w bytes. -/
def regsFor (w : Nat) : Nat := if w = 8 then 2 else 1

/-- The threads of a load: one access stands for a g or m destination (R159). -/
def Ctx.loadThreads (c : Ctx) : List Nat :=
  match c.d with
  | .g _ | .m _ => [(threadsOf c.active).headD 0]
  | _ => threadsOf c.active

/-- The targets of a loaded value in thread i. -/
def Ctx.targetsOf (c : Ctx) (n i : Nat) : List Target :=
  match c.d with
  | .t j => (List.range n).map fun k => .t (j + k) i
  | .g j => (List.range n).map fun k => .g (j + k)
  | _ => []

/-- Mark the destination copies empty (03 R51). -/
def Group.markEmpty (g : Group) (c : Ctx) (o : Operand) (n : Nat) : Group :=
  (List.range n).foldl (fun (g : Group) k =>
    match o.above k with
    | .t j => g.onArch (·.onT j (Ranked.markEmpty c.width c.active))
    | .g j => g.onArch (·.setFull j false)
    | _ => g) g

/-- The words of a value that is known now. -/
def State.sourceWords (s : State) (g : Group) (src : Src) (signed : Bool) : List Word :=
  loadedWords (s.srcBytes g s.nextId src) signed

/-- A load that passed its checks starts on its way; an m destination, which has no full/empty bit, is written at once. -/
def Ctx.startLoad (c : Ctx) (n : Nat) (signed : Bool) (s : State) (i : Nat) (src : Src) : State :=
  match c.d with
  | .m j =>
    match s.group? c.g.id with
    | none => s
    | some g =>
      let s := match src with
        | .at l n => s.readyToRead g l n
        | .lit _ => s.freeze g g.acqFloor
      s.putGroup (g.land c.width (.m j) 0 (s.sourceWords g src signed))
  | .t _ | .g _ => s.issueProduct c.g true (.load (c.targetsOf n i) src signed)
  | _ => s

/-- The body of LD and LDS; `target` gives each thread's address at first issue. -/
def loadBody (f : Form) (float team : Bool) (target : Ctx → Nat → Target7) (c : Ctx) (s : State) : State :=
  let w := c.accessBytes float
  let n := regsFor w
  let signed := c.accessSigned float
  let targets := c.loadThreads.map fun i => (i, target c i)
  match s.tryReads c.g targets w true with
  | (s, tried) =>
    let whole := match c.d with | .g _ | .m _ => true | _ => false
    let emu : Emulation := { store := false, team, w, signed, d := c.d, scope := modeScope c.mode }
    let s := s.putGroup (c.g.markEmpty c c.d n)
    let first := s.nextId
    let s := (passes tried).foldl (fun s x => c.startLoad n signed s x.1 x.2.2) s
    c.finishMem f { kind := 0, width := w, emu := some emu, whole } tried
      (tried.map fun x => (x.thread, dwordOf x.addr)) [] first s

/-- The bytes that a store takes from its data operand: the low w (R165). -/
def Ctx.dataBytes (c : Ctx) (w i : Nat) : List Byte := bytesOf w (c.readBits c.d (8 * w) i)

/-- The body of ST and STS; with a fault the finished threads' stores are performed before the group parks (R162). -/
def storeBody (f : Form) (float team : Bool) (target : Ctx → Nat → Target7) (c : Ctx) (s : State) : State :=
  let w := c.accessBytes float
  let targets := (threadsOf c.active).map fun i => (i, target c i)
  match s.tryAll c.g targets w .write true with
  | (s, tried) =>
    let emu : Emulation := { store := true, team, w, signed := false, d := c.d, scope := modeScope c.mode }
    let first := s.nextId
    let s := (passes tried).foldl (fun s x =>
      s.issueStore c.g (modeScope c.mode) (Pte.cp x.2.2.hit.pte) (Pte.dom x.2.2.hit.pte) x.2.2.loc (c.dataBytes w x.1)) s
    let s := if (failures tried).isEmpty then s else s.performSince c.g first
    c.finishMem f { kind := 1, width := w, emu := some emu } tried (tried.map fun x => (x.thread, dwordOf x.addr)) []
      first s

/-- Address of a team-memory access: (X + O) mod 2^32 (R160). -/
def Ctx.teamTarget (c : Ctx) (i : Nat) : Target7 :=
  match c.replayAddr i with
  | some off => ⟨true, off, none⟩
  | none => ⟨true, (c.read c.a 0 + c.read c.b i).toNat, none⟩

def memForm (op : Nat) (d : BitVec 8) (x : Nat) (o : BitVec 8) (kd kx ko : Kind) : Form :=
  form3 op d.toNat x o.toNat kd kx ko

/-- The same of a form that accesses for each thread and writes no register: it may be stopped between its accesses. -/
def eachForm (op : Nat) (d : BitVec 8) (x : Nat) (o : BitVec 8) (kd kx ko : Kind) : Form :=
  { memForm op d x o kd kx ko with beats := .each }

def dataWd (float : Bool) : Wd := if float then .one else .typed

def loadForm (op : Nat) (float : Bool) (d : BitVec 8) (x : BitVec 3) (o : BitVec 8) : Form :=
  memForm op d x.toNat o (.dst (dataWd float) .any) .other (.src .one .any)

def storeForm (op : Nat) (float : Bool) (d : BitVec 8) (x : BitVec 3) (o : BitVec 8) : Form :=
  eachForm op d x.toNat o (.src (dataWd float) .any) .other (.src .one .any)

/-- LDS and STS: a special other than `zero` in x is a rank violation. -/
def teamForm (op : Nat) (kd : Kind) (d x o : BitVec 8) : Form :=
  { memForm op d x.toNat o kd (.src .one .uniform) (.src .one .any) with
    badPair := decide (0xF9 ≤ x.toNat)
    beats := if kd.writes then .threads else .each }

def execLdItype (d : BitVec 8) (x : BitVec 3) (o : BitVec 8) (s : State) : Host.Outcome State Fault Refusal :=
  let f := loadForm 0x60 false d x o
  s.issue f (loadBody f false false fun c i => c.xlTarget x.toNat i (c.read c.b i))

def execLdFtype (d : BitVec 8) (x : BitVec 3) (o : BitVec 8) (s : State) : Host.Outcome State Fault Refusal :=
  let f := loadForm 0x61 true d x o
  s.issue f (loadBody f true false fun c i => c.xlTarget x.toNat i (c.read c.b i))

def execStItype (d : BitVec 8) (x : BitVec 3) (o : BitVec 8) (s : State) : Host.Outcome State Fault Refusal :=
  let f := storeForm 0x62 false d x o
  s.issue f (storeBody f false false fun c i => c.xlTarget x.toNat i (c.read c.b i))

def execStFtype (d : BitVec 8) (x : BitVec 3) (o : BitVec 8) (s : State) : Host.Outcome State Fault Refusal :=
  let f := storeForm 0x63 true d x o
  s.issue f (storeBody f true false fun c i => c.xlTarget x.toNat i (c.read c.b i))

def execLdsItype (d x o : BitVec 8) (s : State) : Host.Outcome State Fault Refusal :=
  let f := teamForm 0x64 (.dst .typed .any) d x o
  s.issue f (loadBody f false true Ctx.teamTarget)

def execLdsFtype (d x o : BitVec 8) (s : State) : Host.Outcome State Fault Refusal :=
  let f := teamForm 0x65 (.dst .one .any) d x o
  s.issue f (loadBody f true true Ctx.teamTarget)

def execStsItype (d x o : BitVec 8) (s : State) : Host.Outcome State Fault Refusal :=
  let f := teamForm 0x66 (.src .typed .any) d x o
  s.issue f (storeBody f false true Ctx.teamTarget)

def execStsFtype (d x o : BitVec 8) (s : State) : Host.Outcome State Fault Refusal :=
  let f := teamForm 0x67 (.src .one .any) d x o
  s.issue f (storeBody f true true Ctx.teamTarget)

/-! ## Tiles (R166 to R169) -/

/-- A tile descriptor (Table 7.8). -/
structure Tile where
  soff : Nat
  rows : Nat
  rowBytes : Nat
  mpitch : Int
  spitch : Nat
  e : Nat
  tr : Bool
  deriving DecidableEq, Repr

def Tile.ofWords (e : Nat) (tr : Bool) (l : List Word) : Tile :=
  let w := fun i => (l.getD i 0).toNat
  ⟨w 0, bits (w 1) 0 16, bits (w 1) 16 16, (l.getD 2 0).toInt, w 3, e, tr⟩

/-- Rows and row width of the team-memory side. -/
def Tile.teamRows (t : Tile) : Nat := if t.tr then t.rowBytes / t.e else t.rows

def Tile.teamWidth (t : Tile) : Nat := if t.tr then t.rows * t.e else t.rowBytes

def Tile.bad (t : Tile) : Bool :=
  t.rows == 0 || decide (256 < t.rows) || t.rowBytes == 0 || decide (4096 < t.rowBytes) || t.rowBytes % t.e != 0 ||
  decide (t.spitch < t.teamWidth)

/-- The end of the team-memory region. -/
def Tile.regionEnd (t : Tile) : Nat := t.soff + (t.teamRows - 1) * t.spitch + t.teamWidth

/-- Some row of the team-memory region meets a tagged line (R167, 09 R208). -/
def Tile.meetsTag (t : Tile) (tm : Team) : Bool :=
  (List.range t.teamRows).any fun r =>
    let lo := t.soff + r * t.spitch
    tm.tags.any fun x => decide (x.1 * 16 < lo + t.teamWidth) && decide (lo < x.1 * 16 + 16)

/-- The checks of a tile instruction at issue (R167): a sub-cause. -/
def Tile.check (t : Tile) (tm : Team) (load : Bool) : Option Nat :=
  if t.bad then some 0x0C
  else if tm.launch.tmem < t.regionEnd then some 0x07
  else if load && t.meetsTag tm then some 0x08
  else none

/-- Parts of a memory row that lie in one page: address and length. -/
def rowParts (va n : Nat) : List (Nat × Nat) :=
  let first := min n (0x10000 - va % 0x10000)
  if first < n then [(va, first), (va + first, n - first)] else [(va, n)]

/-- A place of a tile in its operand form, for the frame path: only while its offset fits 32 bits (R158). -/
def rowVia (xl : Option (XReg × Word)) (off : Int) : Option (XReg × Word) :=
  match xl with
  | some (x, _) => if 0 ≤ off ∧ off < 2 ^ 31 then some (x, BitVec.ofInt 32 off) else none
  | none => none

/-- Translate the parts of one memory row; the first part that faults decides. -/
def State.rowSpots (s : State) (g : Group) (memo : Memo) (need : Need) (va : Nat) (via : Option (XReg × Word))
    (n : Nat) : State × Memo × Except (Nat × MFault) (List (Spot × Nat)) :=
  (rowParts va n).foldl (fun acc p =>
    match acc with
    | (s, memo, .error f) => (s, memo, .error f)
    | (s, memo, .ok l) =>
      let via := via.bind fun x => rowVia (some x) (x.2.toInt + ((p.1 : Int) - va))
      match s.spot memo g ⟨false, p.1, via⟩ p.2 need false with
      | (s, memo, .error f) => (s, memo, .error (p.1, f))
      | (s, memo, .ok q) => (s, memo, .ok (l ++ [(q, p.2)]))) (s, memo, .ok [])

/-- What is known of the rows of a tile: each row's parts in order, up to a first row that faults. -/
structure Rows where
  done : List (List (Spot × Nat))
  fault : Option (Nat × MFault)

/-- Address of a memory row. -/
def Tile.rowVa (t : Tile) (base i : Nat) : Nat := wrap ((base : Int) + (i : Int) * t.mpitch) 64

/-- Translate the rows of a tile from `first` up to `last`. -/
def State.tileRows (s : State) (g : Group) (need : Need) (base : Nat) (xl : Option (XReg × Word)) (t : Tile)
    (first last : Nat) : State × Rows :=
  let r := ((List.range last).drop first).foldl (fun (acc : State × Memo × Rows) (i : Nat) =>
    match acc.2.2.fault with
    | some _ => acc
    | none =>
      let va := t.rowVa base i
      let off := match xl with | some (_, o) => o.toInt + (i : Int) * t.mpitch | none => 0
      match acc.1.rowSpots g acc.2.1 need va (rowVia xl off) t.rowBytes with
      | (s, memo, .error f) => (s, memo, { acc.2.2 with fault := some f })
      | (s, memo, .ok l) => (s, memo, { acc.2.2 with done := acc.2.2.done ++ [l] })) (s, Memo.none, ⟨[], none⟩)
  (r.1, r.2.2)

/-- The sources of the parts of a row at an address; where a block is corrupt, the address of that part. -/
def State.rowSources (s : State) : Nat → List (Spot × Nat) → Except (Nat × MFault) (List Src)
  | _, [] => .ok []
  | va, (p, n) :: rest =>
    match s.spotSource p n with
    | .error f => .error (va, f)
    | .ok src =>
      match rowSources s (va + n) rest with
      | .error f => .error f
      | .ok srcs => .ok (src :: srcs)

/-- Sources of the rows in order, up to the first corrupt one; `va` gives a row's address. -/
def State.allSources (s : State) (va : Nat → Nat) : Nat → List (List (Spot × Nat)) → List (List Src) × Option (Nat × MFault)
  | _, [] => ([], none)
  | i, r :: rest =>
    match s.rowSources (va i) r with
    | .error f => ([], some f)
    | .ok l =>
      match allSources s va (i + 1) rest with
      | (ls, f) => (l :: ls, f)

/-- The descriptor: its registers, of which a replay keeps the first one, that the instruction marked empty (R163). -/
def Ctx.tileOf (c : Ctx) (e : Nat) (tr : Bool) : Tile × List Word :=
  let read := (List.range 4).map fun k => c.read (c.d.above k) 0
  let words := match c.g.replay with
    | some rp => ((rp.held.find? (·.1 == 0)).map (·.2)).getD [] ++ read.drop 1
    | none => read
  (Tile.ofWords e tr words, words)

/-- The memory address of the tile's first row, and how the register reaches it. -/
def Ctx.tileBase (c : Ctx) (xl : Nat) : Nat × Option (XReg × Word) :=
  match c.replayAddr 64 with
  | some va => (va, (c.xreg xl).through va)
  | none => ((c.xreg xl).va (c.read c.b 0), some (c.xreg xl, c.read c.b 0))

/-- The row at which a tile goes on: PIDX in a replay, and after a stop between its rows (R168, 14 R277). -/
def Ctx.firstRow (c : Ctx) : Nat := c.g.arch.pidx.toNat

/-- The rows that a tile moves now: those before a stop, which falls between two of its rows, where it has rows after it
(14 R277). -/
def Ctx.lastRow (c : Ctx) (rows : Nat) : Nat :=
  match c.g.stopAt with
  | some k => if c.g.replay.isNone && decide (0 < k) && decide (c.firstRow + k < rows) then c.firstRow + k else rows
  | none => rows

def Ctx.destReg (c : Ctx) : Nat :=
  match c.d with
  | .g n => n
  | _ => 0

/-- Park a tile instruction at a row. -/
def Ctx.parkTile (c : Ctx) (f : Form) (kind : Nat) (base : Nat) (words : List Word) (row : Nat) (va : Nat) (m : MFault)
    (s : State) : State :=
  c.park f { kind, width := 0, whole := true } [(0, va, m)] [(64, dwordOf base)] [(0, words.take 1)] row s

/-- The group after a tile's rows: past the instruction, or still at it where a stop cut it (14 R277). -/
def Group.afterRows (rows last : Nat) (g : Group) : Group :=
  if last < rows then { g with arch := { g.arch with pidx := wordOf last } } else g.advance

/-- Rows of a tile land now, after what must come before them. -/
def State.landRows (s : State) (g : Group) (t : Tile) (rows : List (List Src)) : State :=
  let d : Delivery := ⟨s.nextId, g.id, g.super, true, g.acqFloor, .tile 0 t.soff t.spitch t.e t.tr rows⟩
  let s := ({ s with nextId := s.nextId + 1 }.freeze g g.acqFloor).clearLoads [d]
  s.landTile g d.id t.soff t.spitch t.e t.tr rows

/-- LDT: the rows that translate land when the load delivers; with a fault, or a stop between its rows, they land now, and the
group parks. DEDUCED (log 45, unsafe). Where a check of R167 fails, for which no address is named, VA is the team-memory
offset SOFF, with 0x0C too. DESIGN CHOICE (log 129, unsafe). -/
def ldtBody (f : Form) (e : Nat) (tr : Bool) (xl : Nat) (c : Ctx) (s : State) : State :=
  let (t, words) := c.tileOf e tr
  let (base, via) := c.tileBase xl
  let n := c.destReg
  let first := c.firstRow
  let last := c.lastRow t.rows
  let s := s.putGroup (c.g.markEmpty c c.d 1)
  match t.check c.tm true with
  | some sub => c.parkTile f 4 base words first t.soff (.plain sub) s
  | none =>
    match s.tileRows c.g .read base via t first last with
    | (s, rows) =>
      match s.allSources (t.rowVa base) first rows.done with
      | (srcs, bad) =>
        let fault := match bad with | some x => some x | none => rows.fault
        let done := first + srcs.length
        let t' := (List.replicate first ([] : List Src)) ++ srcs
        match fault with
        | none =>
          let s := if last < t.rows then s.landRows c.g t t'
            else s.issueProduct c.g true (.tile n t.soff t.spitch t.e t.tr t')
          s.onGroup c.g.id (Group.afterRows t.rows last)
        | some (va, m) =>
          c.parkTile f 4 base words done va m (s.landRows c.g t t')

/-- Bytes of team-memory row r of a tile, read now. -/
def State.tileTeamRow (s : State) (g : Group) (t : Tile) (r : Nat) : List Byte :=
  s.view g s.nextId (.team g.team (t.soff + r * t.spitch)) t.rowBytes

/-- STT: the bytes are read out of team memory at issue and become global stores, row by row; with a fault those of the
rows below are performed. DESIGN CHOICE (log 18, unsafe). -/
def sttBody (f : Form) (xl : Nat) (c : Ctx) (s : State) : State :=
  let (t, words) := c.tileOf 1 false
  let (base, via) := c.tileBase xl
  let n := c.destReg
  let first := c.firstRow
  let last := c.lastRow t.rows
  let s := s.putGroup (c.g.markEmpty c c.d 1)
  match t.check c.tm false with
  | some sub => c.parkTile f 5 base words first t.soff (.plain sub) s
  | none =>
    match s.tileRows c.g .write base via t first last with
    | (s, rows) =>
      let s := s.readyToRead c.g (.team c.tm.id t.soff) (t.regionEnd - t.soff)
      let before := s.nextId
      let s := (rows.done.zipIdx).foldl (fun s x =>
        let bytes := s.tileTeamRow c.g t (first + x.2)
        (x.1.foldl (fun (acc : State × Nat) p =>
          (acc.1.issueStore c.g (modeScope c.mode) (Pte.cp p.1.hit.pte) (Pte.dom p.1.hit.pte) p.1.loc
            (sliceOf bytes acc.2 p.2), acc.2 + p.2)) (s, 0)).1) s
      match rows.fault with
      | none =>
        let s := if last < t.rows then s else s.issueProduct c.g true (.full n)
        s.onGroup c.g.id (Group.afterRows t.rows last)
      | some (va, m) => c.parkTile f 5 base words (first + rows.done.length) va m (s.performSince c.g before)

def tileForm (op : Nat) (d : BitVec 8) (x : BitVec 3) (o : BitVec 8) : Form :=
  { memForm op d x.toNat o (.src (.regs 4 false) .g) .other (.src .one .uniform) with beats := .rows }

def execLdt (d : BitVec 8) (x : BitVec 3) (o : BitVec 8) (s : State) : Host.Outcome State Fault Refusal :=
  let f := tileForm 0x68 d x o
  s.issue f (ldtBody f 1 false x.toNat)

def execLdtTr8 (d : BitVec 8) (x : BitVec 3) (o : BitVec 8) (s : State) : Host.Outcome State Fault Refusal :=
  let f := tileForm 0x69 d x o
  s.issue f (ldtBody f 1 true x.toNat)

def execLdtTr16 (d : BitVec 8) (x : BitVec 3) (o : BitVec 8) (s : State) : Host.Outcome State Fault Refusal :=
  let f := tileForm 0x6A d x o
  s.issue f (ldtBody f 2 true x.toNat)

def execStt (d : BitVec 8) (x : BitVec 3) (o : BitVec 8) (s : State) : Host.Outcome State Fault Refusal :=
  let f := tileForm 0x6B d x o
  s.issue f (sttBody f x.toNat)

/-! ## Translation registers (R156, R157) -/

/-- The register that XLT writes for a base over an old value: without a translation FRAME and PGSZ stay. -/
def State.xltReg (s : State) (g : Group) (old : XReg) (va : Nat) : State × XReg :=
  let bare : XReg := { old with vbase := BitVec.ofNat 52 va, v := false, wok := false }
  if 2 ^ 52 ≤ va then (s, bare)
  else
    match s.translate (s.teamOf g).ctx (s.coreOf g) g.priv va .read with
    | (s, .error _) => (s, bare)
    | (s, .ok h) =>
      (s, ⟨BitVec.ofNat 52 va, BitVec.ofNat 48 h.pa, BitVec.ofNat 2 h.level, true, Pte.w h.pte && Pte.d h.pte, dwordOf h.pte⟩)

def execXlt (d : BitVec 3) (a : BitVec 8) (s : State) : Host.Outcome State Fault Refusal :=
  let f := form3 0x6C d.toNat a.toNat 0 .other (.src (.regs 2 true) .pair) .unused
  s.issue f fun c s =>
    match s.xltReg c.g (c.g.arch.xl.getD d.toNat XReg.zero) (c.readPair c.a 0) with
    | (s, x) => s.putGroup (c.g.onArch fun r => { r with xl := putAt r.xl d.toNat XReg.zero x }).advance

def execXlinv (d : BitVec 3) (s : State) : Host.Outcome State Fault Refusal :=
  let f := form3 0x6D d.toNat 0 0 .other .unused .unused
  s.issue f fun c s => s.putGroup (c.g.onArch fun r =>
    { r with xl := putAt r.xl d.toNat XReg.zero { r.xl.getD d.toNat XReg.zero with vbase := 0, v := false, wok := false } }).advance

/-! ## Prefetch and cache maintenance (R170) -/

/-- The physical line of a thread's address, when it passes every check of a read. -/
def State.lineOf (s : State) (memo : Memo) (c : Ctx) (xl i : Nat) : State × Memo × Option Nat :=
  match s.spot memo c.g (c.xlTarget xl i (c.read c.b i)) 1 .read false with
  | (s, memo, .ok ⟨.phys pa, _⟩) => (s, memo, some (pa / 64 * 64))
  | (s, memo, _) => (s, memo, none)

def lineForm (op : Nat) (x : BitVec 3) (o : BitVec 8) : Form :=
  eachForm op 0 x.toNat o .unused .other (.src .one .any)

/-- Write back the entries of a line that lie in this core's L1, and with `l2` those in the cluster's L2. -/
def State.writeBack (s : State) (g : Group) (line : Nat) (l2 : Bool) : State :=
  let cl := clusterOfCore (s.coreOf g)
  (s.stores.filter fun e => e.seenAt.isSome && e.touches (.phys line) 64 &&
    (e.core == s.coreOf g || (l2 && clusterOfCore e.core == cl))).foldl (fun s e =>
      if !s.stores.any (·.id == e.id) then s
      else if l2 || e.dom != 2 then s.commit e
      else { s with stores := updateWhere (fun x => x.id == e.id && x.dom == 2) (fun e => { e with seenAt := some 2 }) s.stores }) s

/-- The body of PREF, CLEAN and INVL1: each thread's line that passes is handled by `act`. -/
def lineBody (xl : Nat) (act : State → Group → Nat → State) (c : Ctx) (s : State) : State :=
  let r := (threadsOf c.active).foldl (fun (acc : State × Memo) i =>
    match acc.1.lineOf acc.2 c xl i with
    | (s, memo, none) => (s, memo)
    | (s, memo, some line) => (act s c.g line, memo)) (s, Memo.none)
  r.1.onGroup c.g.id fun g => g.advance

def execPref (x : BitVec 3) (o : BitVec 8) (s : State) : Host.Outcome State Fault Refusal :=
  s.issue (lineForm 0x6E x o) (lineBody x.toNat fun s _ _ => s)

def execClean (x : BitVec 3) (o : BitVec 8) (s : State) : Host.Outcome State Fault Refusal :=
  s.issue (lineForm 0x71 x o) (lineBody x.toNat fun s g line => s.writeBack g line true)

def execInvl1 (x : BitVec 3) (o : BitVec 8) (s : State) : Host.Outcome State Fault Refusal :=
  s.issue (lineForm 0x72 x o) (lineBody x.toNat fun s g line => s.writeBack g line false)

/-! ## WAITMEM (R171, R172) -/

/-- Arm the core's monitor on a line for a group. DEDUCED (log 10, safe). -/
def State.armMonitor (s : State) (g : Group) (line : Nat) : State :=
  let core := s.coreRec (s.coreOf g)
  s.putCore { core with monitors := (g.id, line) :: core.monitors.filter (·.1 != g.id) }

def State.disarm (s : State) (gid : Nat) : State :=
  { s with cores := s.cores.map (fun (c : Core) => { c with monitors := c.monitors.filter (·.1 != gid) }) }

def waitmemForm (d : BitVec 8) (x : BitVec 3) (o : BitVec 8) : Form :=
  memForm 0x6F d x.toNat o (.acc (.regs 4 true) .g) .other (.src .one .uniform)

/-- One pass of the loop of R171 for a group that has armed its limit: the monitor is armed, the word is read, and then
the deadline is checked. -/
def State.waitmemPass (s : State) (f : Form) (c : Ctx) (w : Wait) (t : Target7) (expect : Word) : State :=
  let park := fun (m : MFault) (s : State) =>
    c.park f { kind := 6, width := 4, whole := true } [(0, t.addr, m)] [(0, dwordOf t.addr)] [] 0 s
  let s := s.putGroup { c.g with wait := some w }
  match s.spot Memo.none c.g t 4 .read true with
  | (s, _, .error m) => park m s
  | (s, _, .ok p) =>
    match s.spotSource p 4, s.group? c.g.id with
    | .error m, _ => park m s
    | .ok _, none => s
    | .ok src, some g =>
      let s := match p.loc with
        | .phys pa => s.armMonitor g (pa / 64)
        | .team _ _ => s
      let s := s.readyToRead g p.loc 4
      let v := wordOf (ofBytes (s.srcBytes g s.nextId src))
      if v ≠ expect then (s.disarm g.id).finishWait g w [(w.dst + 1, v), (w.dst, statusWord Status.done)] false
      else if s.expired g w then (s.disarm g.id).finishWait g w w.onTimeout true
      else s.putGroup { g with phase := .waiting }

/-- The access of a later pass: through the same register, unless it is a replay (R158, R163). -/
def Ctx.againTarget (c : Ctx) (va : DWord) (xl : Nat) (off : Word) : Target7 :=
  ⟨false, va.toNat, if c.g.replay.isSome then (c.xreg xl).through va.toNat else some (c.xreg xl, off)⟩

def waitmemBody (f : Form) (xl : Nat) (c : Ctx) (s : State) : State :=
  let n := c.destReg
  match c.g.wait with
  | some w =>
    match w.obj with
    | .word va x off e => s.waitmemPass f c w (c.againTarget va x off) e
    | _ => s.checkWait c.g w
  | none =>
    match s.arm c.g (pairOf (c.read (.g (n + 2)) 0) (c.read (.g (n + 3)) 0)) with
    | none => c.trap f s 0x07 0x03 0
    | some dl =>
      let t := c.xlTarget xl 0 (c.read c.b 0)
      let e := c.read (.g (n + 1)) 0
      let w : Wait := ⟨.word (dwordOf t.addr) xl (c.read c.b 0) e, [(n, statusWord Status.timeout)], n, dl.limit, dl.wall,
        dl.poll, s.nextId, none⟩
      { s with nextId := s.nextId + 1 }.waitmemPass f c w t e

def execWaitmem (d : BitVec 8) (x : BitVec 3) (o : BitVec 8) (s : State) : Host.Outcome State Fault Refusal :=
  let f := waitmemForm d x o
  s.issue f (waitmemBody f x.toNat)

/-! ## DISCARD (R173) -/

/-- The cached lines of a page's frame are dropped, its leaf gets Z = 1, and its shootdown starts; accesses that use the
old translation are completed by that (R153). -/
def State.discardPage (s : State) (g : Group) (va : Nat) : State :=
  let ctx := (s.teamOf g).ctx
  match s.walk ctx va with
  | .error _ => s
  | .ok l =>
    let frame := s.homePa (Pte.frame l.pte)
    let cached := fun (e : PendingStore) => e.seenAt.isSome && e.touches (.phys frame) (pageSize l.level)
    let s := { s with stores := s.stores.filter fun e => !cached e }
    s.writePhys l.addr (bytesOf 8 (putBits l.pte 8 1 1))

/-- The deadline of an instruction that has none. -/
def Armed.never : Armed := ⟨2 ^ 64 - 1, true, true⟩

/-- DISCARD checks its page as a store does, without a first write to it: a page with Z = 1 keeps it. R149 does not name it: A and D
are set, as for a store. DESIGN CHOICE (log 130, unsafe). -/
def discardBody (f : Form) (xl : Nat) (c : Ctx) (s : State) : State :=
  match c.g.wait with
  | some w => s.checkWait c.g w
  | none =>
    let t := c.xlTarget xl 0 (c.read c.b 0)
    let k : MemKind := { kind := 7, width := 0, whole := true }
    let stop := fun (m : MFault) (s : State) => c.park f k [(0, t.addr, m)] [(0, dwordOf t.addr)] [] 0 s
    if !bitAt (s.contextOf c.tm).flags.toNat 0 then stop (.plain 0x0A) s
    else
      match s.spot Memo.none c.g t 1 .drop false with
      | (s, _, .error m) => stop m s
      | (s, _, .ok _) =>
        let s := (s.freeze c.g s.nextId).discardPage c.g t.addr
        let x : Shootdown := ⟨s.nextId, c.tm.ctx, dwordOf t.addr, c.g.id⟩
        let s := { s with nextId := s.nextId + 1, shootdowns := s.shootdowns ++ [x] }
        match s.group? c.g.id with
        | none => s
        | some g => s.beginWait g (.discard (dwordOf t.addr) x.id) 0 [] Armed.never

def execDiscard (x : BitVec 3) (o : BitVec 8) (s : State) : Host.Outcome State Fault Refusal :=
  let f := memForm 0x70 0 x.toNat o .unused .other (.src .one .uniform)
  s.issue f (discardBody f x.toNat)

end Sys2Proof.Machine
end

