-- ==== Sys2Proof/Machine/Atomics.lean ====
section
/-! DEFINITION. Atomics and reductions, opcodes 0x80 to 0x8C (09 R179 to R190). -/

namespace Sys2Proof.Machine

/-! ## Operations on the value at an address (R182, R183) -/

/-- Which operation: an integer one, compare and swap, or a floating sum. -/
inductive AtomOp where
  | int (f : IType → Nat → Nat → Nat)
  | cas
  | fadd

def AtomOp.float (op : AtomOp) : Bool :=
  match op with
  | .fadd => true
  | _ => false

/-- Width in bytes of the access. -/
def AtomOp.width (op : AtomOp) (c : Ctx) : Nat := c.accessBytes op.float

/-- The registers of the d block. -/
def AtomOp.regs (op : AtomOp) (c : Ctx) : Nat :=
  match op with
  | .int _ => regsFor (op.width c)
  | .cas => 2 * regsFor (op.width c)
  | .fadd => 1

/-- A value of w bytes as register words. -/
def atomWords (w n : Nat) : List Word := if w = 8 then pairWords n else [wordOf n]

/-- The operand of a thread as a number of w bytes, from its words at an index. -/
def atomOperand (w : Nat) (ws : List Word) (k : Nat) : Nat :=
  if w = 8 then pairOf (ws.getD (2 * k) 0) (ws.getD (2 * k + 1) 0) else (ws.getD k 0).toNat % 2 ^ (8 * w)

/-- One step of the aggregator's loop over the threads of an address: the value, and the thread's result words. -/
def AtomOp.step (op : AtomOp) (t : IType) (w : Nat) (fails : Bool) (v : Nat) (ws : List Word) : Nat × List Word :=
  match op with
  | .int f => (f t v (atomOperand w ws 0), atomWords w v)
  | .cas =>
    let ok := v = atomOperand w ws 0 ∧ fails = false
    let flag : Word := if ok then 1 else 0
    (if ok then atomOperand w ws 1 else v, atomWords w v ++ (if w = 8 then [flag, 0] else [flag]))
  | .fadd => (v, atomWords w v)

/-- The running sums of R183: V, then V plus the sum of the earlier operands, and the new value last. -/
def faddSeries (fmt : FFormat) (v : Nat) : Option Nat → List Nat → List Nat × Nat
  | none, [] => ([], v)
  | some p, [] => ([], (fadd fmt atomMode v p).1)
  | none, x :: xs =>
    match faddSeries fmt v (some x) xs with
    | (l, r) => (v :: l, r)
  | some p, x :: xs =>
    match faddSeries fmt v (some (fadd fmt atomMode p x).1) xs with
    | (l, r) => ((fadd fmt atomMode v p).1 :: l, r)

/-- The indivisible access of the threads of one address: the new value and each thread's result words (R182, R183).
`shown`: the value from which old values are rebuilt; `fails`: threads whose CAS fails spuriously. -/
def AtomOp.access (op : AtomOp) (t : IType) (fmt : FFormat) (w v shown : Nat) (fails : Nat → Bool)
    (threads : List (Nat × List Word)) : Nat × List (Nat × List Word) :=
  match op with
  | .fadd =>
    let xs := threads.map fun x => atomOperand w x.2 0
    let olds := (faddSeries fmt shown none xs).1
    ((faddSeries fmt v none xs).2, (threads.zip olds).map fun x => (x.1.1, atomWords w x.2))
  | _ =>
    let run := fun (v0 : Nat) => threads.foldl (fun (acc : Nat × List (Nat × List Word)) x =>
      let r := op.step t w (fails x.1) acc.1 x.2
      (r.1, acc.2 ++ [(x.1, r.2)])) (v0, [])
    ((run v).1, (run shown).2)

/-! ## The access at the point of coherence (R184) -/

/-- Make ready for an access that is performed at once: what ACQ and REL put before it is done (R199). -/
def State.atomicReady (s : State) (g : Group) (spec : Bool) : State :=
  (if spec then s else s.freeze g g.acqFloor).orderedBefore g

/-- The value at a spot when what the group did there before, and what it sees there, has arrived at the point of
coherence. -/
def State.settledValue (s : State) (g : Group) (p : Spot) (w : Nat) : State × Nat :=
  let s := (s.clearWay g.id s.nextId p.loc w).settleStores g s.nextId (Pte.dom p.hit.pte) p.loc w
  (s, ofBytes (s.view g s.nextId p.loc w))

/-- Write bytes where an atomic is performed. -/
def State.putAtomic (s : State) (g : Group) (p : Spot) (bs : List Byte) : State :=
  let id := s.nextId
  { s with nextId := id + 1 }.putCoherent g id (Pte.cp p.hit.pte) (Pte.dom p.hit.pte) p.loc bs

/-- Undo a replaced write on the bytes at an address. -/
def Past.undo (x : Past) (a : Nat) (bs : List Byte) : List Byte :=
  (bs.zipIdx).map fun b =>
    if x.addr ≤ a + b.2 ∧ a + b.2 < x.addr + x.bytes.length then x.bytes.getD (a + b.2 - x.addr) b.1 else b.1

/-- The values that bytes held at their point of coherence in the last 1,000 ns, the present one first: memory, or the
cluster's L2 for DOM 2 (R184). -/
def heldValues (now a : Nat) (cluster : Option Nat) (bs : List Byte) : List Past → List (List Byte)
  | [] => [bs]
  | x :: rest =>
    if x.time + 1000 < now ∨ x.cluster ≠ cluster then heldValues now a cluster bs rest
    else bs :: heldValues now a cluster (x.undo a bs) rest

/-- The value from which a quantum atomic rebuilds old values: one that the location held (R186).
DESIGN CHOICE (log 9, safe). -/
def State.quantumValue (s : State) (g : Group) (p : Spot) (w v : Nat) : Nat :=
  match p.loc with
  | .team _ _ => v
  | .phys a =>
    let cluster := if Pte.dom p.hit.pte = 2 then some (clusterOfCore (s.coreOf g)) else none
    let l := heldValues s.wall a cluster (bytesOf w v) s.past
    ofBytes (l.getD (Config.pick s.draw l.length % l.length) (bytesOf w v))

/-- USE `quantum` changes the values of an operation (R186). -/
def quantumApplies (use : Nat) (cas exch : Bool) : Bool := use == 3 && !cas && !exch

/-- One request: the access, and each thread's result words. DESIGN CHOICE (log 8, unsafe). -/
def State.atomRequest (s : State) (c : Ctx) (op : AtomOp) (exch : Bool) (p : Spot) (threads : List (Nat × List Word)) :
    State × List (Nat × List Word) :=
  let w := op.width c
  let use := modeUse c.mode
  let isCas := match op with | .cas => true | _ => false
  match s.settledValue c.g p w with
  | (s, v) =>
    let n := s.draw
    let shown := if quantumApplies use isCas exch then s.quantumValue c.g p w v else v
    let fails := fun (i : Nat) => use == 4 && isCas && Config.chance (n + 1 + i)
    let s := if use = 3 ∨ use = 4 then { s with draw := n + 65 } else s
    let r := op.access c.itype c.ffmt w v shown fails threads
    (s.putAtomic c.g p (bytesOf w r.1), r.2)

/-! ## ATOM (R181, R185) -/

/-- The operand words of a thread: those of the first issue in a replay (R185). -/
def Ctx.atomHeld (c : Ctx) (n i : Nat) : List Word :=
  match c.g.replay with
  | some rp =>
    match rp.held.find? (·.1 == i), rp.held with
    | some x, _ => x.2
    | none, [x] => x.2
    | none, _ => []
  | none => (List.range n).map fun k => c.read (if k = 0 then c.d else c.d.above k) i

/-- Threads that name the same address, ascending, by their lowest thread. -/
def byAddress (l : List (Nat × Nat × Spot)) : List (Spot × List Nat) :=
  (distinct (l.map fun x => x.2.1)).filterMap fun a =>
    match l.filter (·.2.1 == a) with
    | [] => none
    | x :: xs => some (x.2.2, x.1 :: xs.map (·.1))

/-- The writes of a thread's result. -/
def Ctx.resultWrites (c : Ctx) (i : Nat) (ws : List Word) : List (Target × Word) :=
  match c.d with
  | .t j => (ws.zipIdx).map fun x => (.t (j + x.2) i, x.1)
  | .g j => (ws.zipIdx).map fun x => (.g (j + x.2), x.1)
  | _ => []

def atomBody (f : Form) (op : AtomOp) (exch : Bool) (xl : Nat) (c : Ctx) (s : State) : State :=
  let w := op.width c
  let n := op.regs c
  let use := modeUse c.mode
  let threads := match c.d with
    | .g _ => [(threadsOf c.active).headD 0]
    | _ => threadsOf c.active
  let held := threads.map fun i => (i, c.atomHeld n i)
  let words := fun (i : Nat) => ((held.find? (·.1 == i)).map (·.2)).getD []
  let targets := threads.map fun i => (i, c.xlTarget xl i (c.read c.b i))
  match s.tryAll c.g targets w .write true with
  | (s, tried) =>
    let s := s.onGroup c.g.id fun g => g.markEmpty c c.d n
    let s := s.atomicReady c.g (use == 4)
    let first := s.nextId
    let s := (byAddress (passes tried)).foldl (fun s x =>
      match s.atomRequest c op exch x.1 (x.2.map fun i => (i, words i)) with
      | (s, res) => res.foldl (fun s r =>
          match c.resultWrites r.1 r.2 with
          | [] => s
          | ws => s.issueProduct c.g (use != 2) (.values ws)) s) s
    let whole := match c.d with | .g _ => true | _ => false
    c.finishMem f { kind := 2, width := w, whole } tried (tried.map fun x => (x.thread, dwordOf x.addr)) held
      first s

/-- An 8- or 16-bit ITYPE is refused at first issue (R180). -/
def atomLate (float : Bool) (c : Ctx) : Option Nat :=
  if float then none else if itypeWidth (modeItype c.mode) < 32 then some 0x04 else none

def atomForm (op : Nat) (wd : Wd) (d : BitVec 8) (x : BitVec 3) (o : BitVec 8) : Form :=
  { memForm op d x.toNat o (.acc wd .tg) .other (.src .one .any) with beats := .whole }

/-- An integer atomic of an opcode. -/
def intAtomic (opc : Nat) (op : IType → Nat → Nat → Nat) (exch : Bool) (d : BitVec 8) (x : BitVec 3) (o : BitVec 8)
    (s : State) : Host.Outcome State Fault Refusal :=
  let f := atomForm opc .typed d x o
  s.issue f (atomBody f (.int op) exch x.toNat) (late := atomLate false)

def execAtomAdd (d : BitVec 8) (x : BitVec 3) (o : BitVec 8) (s : State) : Host.Outcome State Fault Refusal :=
  intAtomic 0x80 (fun t v y => (v + y) % 2 ^ t.w) false d x o s

def execAtomMin (d : BitVec 8) (x : BitVec 3) (o : BitVec 8) (s : State) : Host.Outcome State Fault Refusal :=
  intAtomic 0x81 minTyped false d x o s

def execAtomMax (d : BitVec 8) (x : BitVec 3) (o : BitVec 8) (s : State) : Host.Outcome State Fault Refusal :=
  intAtomic 0x82 maxTyped false d x o s

def execAtomAnd (d : BitVec 8) (x : BitVec 3) (o : BitVec 8) (s : State) : Host.Outcome State Fault Refusal :=
  intAtomic 0x83 (fun _ v y => v &&& y) false d x o s

def execAtomOr (d : BitVec 8) (x : BitVec 3) (o : BitVec 8) (s : State) : Host.Outcome State Fault Refusal :=
  intAtomic 0x84 (fun _ v y => v ||| y) false d x o s

def execAtomXor (d : BitVec 8) (x : BitVec 3) (o : BitVec 8) (s : State) : Host.Outcome State Fault Refusal :=
  intAtomic 0x85 (fun _ v y => v ^^^ y) false d x o s

def execAtomExch (d : BitVec 8) (x : BitVec 3) (o : BitVec 8) (s : State) : Host.Outcome State Fault Refusal :=
  intAtomic 0x86 (fun _ _ y => y) true d x o s

def execAtomCas (d : BitVec 8) (x : BitVec 3) (o : BitVec 8) (s : State) : Host.Outcome State Fault Refusal :=
  let f := atomForm 0x87 .twoTyped d x o
  s.issue f (atomBody f .cas false x.toNat) (late := atomLate false)

def execAtomFadd (d : BitVec 8) (x : BitVec 3) (o : BitVec 8) (s : State) : Host.Outcome State Fault Refusal :=
  let f := atomForm 0x88 .one d x o
  s.issue f (atomBody f .fadd false x.toNat)

/-! ## RED (R187, R189) -/

/-- Log entries of a context that are occupied or reserved. -/
def State.reserved (s : State) (ctx : Nat) : Nat :=
  ((s.context? ctx).map (·.rlog.length)).getD 0 + (s.reductions.filter (·.ctx == ctx)).length

/-- A request: where it goes and the threads that name its address. -/
structure RedRequest where
  target : Target7
  threads : List Nat

def RedRequest.lowest (r : RedRequest) : Nat := r.threads.headD 0

/-- What a request that leaves the aggregator is: its checks from the walk onward decide where it is performed, or its log
entry (R187); every request of one issue shares what is known of a page (07 R159). -/
def Ctx.sendRequest (c : Ctx) (op : RedOp) (w : Nat) (memo : Memo) (q : RedRequest) (s : State) : State × Memo :=
  match s.spot memo c.g q.target w .write false with
  | (s, memo, out) =>
    let t := c.itype
    let xs := q.threads.map fun i => c.readBits c.d (8 * w) i
    let sum := (xs.drop 1).foldl (op.combine t c.ffmt) (xs.headD 0)
    let (fault, loc, pte) : Option Nat × Loc × Nat :=
      match out with
      | .error m => (some m.sub, .phys 0, 0)
      | .ok p => (none, p.loc, p.hit.pte)
    let r : Reduction :=
      { id := s.nextId, gid := c.g.id, ctx := c.tm.ctx, va := dwordOf q.target.addr, fault, loc, cp := Pte.cp pte
        dom := Pte.dom pte, operand := dwordOf sum, pc := c.g.arch.pc, op := op.code
        ty := if op.float then 0x80 + modeFtype c.mode else modeItype c.mode, width := w
        scope := modeScope c.mode, use := modeUse c.mode, who := wordOf (s.whoOf c.g) }
    ({ s with nextId := s.nextId + 1, reductions := s.reductions ++ [r] }, memo)

/-- Send requests in order while an entry can be reserved and a stop lets them; the requests that stay behind. -/
def Ctx.sendRequests (c : Ctx) (op : RedOp) (w : Nat) (stop : Nat) : Memo → List RedRequest → State → State × List RedRequest
  | _, [], s => (s, [])
  | memo, q :: rest, s =>
    if 256 ≤ s.reserved c.tm.ctx ∨ stop ≤ q.lowest then (s, q :: rest)
    else
      match c.sendRequest op w memo q s with
      | (s, memo) => sendRequests c op w stop memo rest s

/-- The thread below which requests leave before a stop, where some do (14 R277). -/
def Ctx.redStop (c : Ctx) (reqs : List RedRequest) : Nat :=
  match c.g.stopAt with
  | some k => if reqs.any fun q => decide (q.lowest < k) then k else 64
  | none => 64

def redBody (f : Form) (op : RedOp) (xl : Nat) (c : Ctx) (s : State) : State :=
  let w := c.accessBytes op.float
  let named := (threadsOf c.active).map fun i => (i, c.xlTarget xl i (c.read c.b i))
  let bad := named.filterMap fun x =>
    if 2 ^ 52 ≤ x.2.addr then some (x.1, x.2.addr, MFault.plain 0x05)
    else if x.2.addr % w ≠ 0 then some (x.1, x.2.addr, MFault.plain 0x06)
    else none
  let addrs := named.map fun x => (x.1, dwordOf x.2.addr)
  if !bad.isEmpty then c.park f { kind := 2, width := w, whole := true } bad addrs [] 0 s
  else
    let reqs := (distinct (named.map (·.2))).map fun a => ⟨a, (named.filter (·.2.addr == a.addr)).map (·.1)⟩
    match c.sendRequests op w (c.redStop reqs) Memo.none reqs (s.atomicReady c.g (modeUse c.mode == 4)) with
    | (s, []) => s.onGroup c.g.id fun g => g.advance
    | (s, left) =>
      let unfin := left.foldl (fun m q => q.threads.foldl (fun m i => m ||| dwordOf (2 ^ i)) m) (0 : DWord)
      let next := (left.map RedRequest.lowest).headD 0
      s.onGroup c.g.id fun g =>
        { g with
          arch := { g.arch with pidx := wordOf next }
          replay := some ⟨unfin, c.mode, (match g.replay with | some r => r.ix | none => g.arch.ix), addrs, []⟩ }

def redForm (op : Nat) (wd : Wd) (d : BitVec 8) (x : BitVec 3) (o : BitVec 8) : Form :=
  { memForm op d x.toNat o (.src wd .any) .other (.src .one .any) with beats := .whole }

def execRedAdd (d : BitVec 8) (x : BitVec 3) (o : BitVec 8) (s : State) : Host.Outcome State Fault Refusal :=
  let f := redForm 0x89 .typed d x o
  s.issue f (redBody f .add x.toNat) (late := atomLate false)

def execRedMin (d : BitVec 8) (x : BitVec 3) (o : BitVec 8) (s : State) : Host.Outcome State Fault Refusal :=
  let f := redForm 0x8A .typed d x o
  s.issue f (redBody f .min x.toNat) (late := atomLate false)

def execRedMax (d : BitVec 8) (x : BitVec 3) (o : BitVec 8) (s : State) : Host.Outcome State Fault Refusal :=
  let f := redForm 0x8B .typed d x o
  s.issue f (redBody f .max x.toNat) (late := atomLate false)

def execRedFadd (d : BitVec 8) (x : BitVec 3) (o : BitVec 8) (s : State) : Host.Outcome State Fault Refusal :=
  let f := redForm 0x8C .one d x o
  s.issue f (redBody f .fadd x.toNat)

end Sys2Proof.Machine
end

