-- ==== Sys2Proof/Machine/Sync.lean ====
section
/-! DEFINITION. The synchronisation class, opcodes 0x90 to 0x9E: barriers, batches, fences, acquire and release, queues
(09 R196 to R211, R214). -/

namespace Sys2Proof.Machine

/-! ## Shapes -/

/-- A form of the class: sources are uniform. -/
def syncForm (op : Nat) (d a b : BitVec 8) (kd ka kb : Kind) : Form :=
  form3 op d.toNat a.toNat b.toNat kd ka kb

def Kind.uniform : Kind := .src .one .uniform

/-- A deadline pair in slot b (R214). -/
def Kind.deadline : Kind := .src (.regs 2 true) .pair

/-- Arm the deadline pair of slot b, or take the bad-deadline trap (02 R36). -/
def Ctx.armed (c : Ctx) (f : Form) (s : State) (go : Armed → State → State) : State :=
  match s.arm c.g (c.readPair c.b 0) with
  | none => c.trap f s 0x07 0x03 0
  | some a => go a s

/-- A wait that is issued again checks its object; else its first issue runs (R191). -/
def Ctx.waiting (c : Ctx) (s : State) (first : State → State) : State :=
  match c.g.wait with
  | some w => s.checkWait c.g w
  | none => first s

def Ctx.dreg (c : Ctx) : Nat :=
  match c.d with
  | .g n => n
  | _ => 0

/-- Write registers from the destination on, and move on. -/
def Ctx.answer (c : Ctx) (ws : List Word) (s : State) : State :=
  s.onGroup c.g.id fun g => (g.setGs c.dreg ws).advance

/-! ## Barriers (R201 to R207) -/

/-- The checks of a barrier instruction's offset (R202): a sub-cause. -/
def barCheck (tm : Team) (off : Nat) : Option Nat :=
  if off % 16 ≠ 0 then some 0x06 else if tm.launch.tmem < off + 16 then some 0x07 else none

/-- Run a barrier instruction on its word, or park on its fault. -/
def Ctx.onBarrier (c : Ctx) (f : Form) (init : Bool) (go : Nat → State → State) (s : State) : State :=
  let off := (c.read c.a 0).toNat
  let bad := match barCheck c.tm off with
    | some sub => some sub
    | none => if init && c.tm.tagged off then some 0x08 else none
  match bad with
  | some sub => c.park f { kind := 2, width := 16, whole := true } [(0, off, .plain sub)] [(0, dwordOf off)] [] 0 s
  | none => go off (s.ownWrite c.g off 16)

def barForm (op : Nat) (d a b : BitVec 8) (kd kb : Kind) : Form := syncForm op d a b kd .uniform kb

/-- A tile on its way writes one of n bytes of team memory. -/
def Product.lands (p : Product) (off n : Nat) : Bool :=
  match p with
  | .tile _ soff spitch e tr rows =>
    let widths := rows.map fun l => l.foldl (fun n x => n + match x with | .at _ k => k | .lit bs => bs.length) 0
    decide (soff < off + n) && decide (off < soff + tileSpan spitch e tr widths)
  | _ => false

/-- Stores and tiles of the team on their way to a line arrive before the line is tagged. -/
def State.settleLine (s : State) (team off : Nat) : State :=
  let s := (s.deliveries.filter fun d => d.product.lands off 16).foldl (fun s d =>
    match s.group? d.gid with
    | none => s
    | some g => if g.team = team then s.landNow g d else s) s
  (s.stores.filter (·.touches (.team team off) 16)).foldl (fun s e => s.commit e) s

def execBarInit (a b : BitVec 8) (s : State) : Host.Outcome State Fault Refusal :=
  let f := barForm 0x90 0 a b .unused .uniform
  s.issue f fun c s => c.onBarrier f true (fun off s =>
    let s := s.settleLine c.tm.id off
    let s := s.putBar c.tm.id off ⟨(c.read c.b 0).toNat % 65536, 0, 0, 0⟩
    let s := s.onTeam c.tm.id fun t => { t with tags := t.tags ++ [(off / 16, .barrier)] }
    s.onGroup c.g.id fun g => g.advance) s

/-- DESIGN CHOICE (log 34, safe). -/
def execBarArrive (d a : BitVec 8) (s : State) : Host.Outcome State Fault Refusal :=
  let f := { barForm 0x91 d a 0 (.dst (.regs 2 true) .g) .unused with log := true }
  s.issue f fun c s => c.onBarrier f false (fun off s =>
    match (s.release c.g 1).arrive c.tm.id off with
    | (s, st, token) =>
      let token := if st = Status.clobbered then Config.word s.draw else token
      c.answer [statusWord st, token] { s with draw := s.draw + 1 }) s

def execBarWait (d a b : BitVec 8) (s : State) : Host.Outcome State Fault Refusal :=
  let f := { barForm 0x92 d a b (.dst .one .g) .deadline with log := true }
  s.issue f fun c s => c.waiting s fun s => c.armed f s fun dl s => c.onBarrier f false (fun off s =>
    match (s.release c.g 1).arrive c.tm.id off with
    | (s, st, token) =>
      s.beginWait c.g (.barrier off token (st == Status.done)) c.dreg [(c.dreg, statusWord Status.timeout)] dl) s

def execBarInval (a : BitVec 8) (s : State) : Host.Outcome State Fault Refusal :=
  let f := barForm 0x93 0 a 0 .unused .unused
  s.issue f fun c s => c.onBarrier f false (fun off s =>
    let s := if c.tm.isBarrier off then s.clobber c.tm.id off false else s
    s.onGroup c.g.id fun g => g.advance) s

def execBarExpect (a b : BitVec 8) (s : State) : Host.Outcome State Fault Refusal :=
  let f := { barForm 0x94 0 a b .unused .uniform with log := true }
  s.issue f fun c s => c.onBarrier f false (fun off s =>
    (s.barPend c.tm.id off (c.read c.b 0).toNat).onGroup c.g.id fun g => g.advance) s

def execWaitf (d a b : BitVec 8) (s : State) : Host.Outcome State Fault Refusal :=
  let f := barForm 0x9E d a b (.acc (.regs 2 true) .g) .deadline
  s.issue f fun c s => c.waiting s fun s => c.armed f s fun dl s => c.onBarrier f false (fun off s =>
    s.beginWait c.g (.barrier off (c.read (c.d.above 1) 0) false) c.dreg [(c.dreg, statusWord Status.timeout)] dl) s

/-! ## Batches and fences (R196 to R200) -/

/-- The number after a batch number; 0 is skipped. -/
def nextNumber (n : Word) : Word := if n + 1 = 0 then 1 else n + 1

def closeBody (c : Ctx) (s : State) : State :=
  if 64 ≤ (c.g.batches.filter fun b => !b.reported).length then c.answer [0] s
  else
    let b : Batch := ⟨c.g.nextBatch, c.g.opens, false⟩
    let all := c.g.batches ++ [b]
    let s := s.onGroup c.g.id fun g =>
      { g with batches := all.drop (all.length - 64), opens := [], nextBatch := nextNumber g.nextBatch }
    c.answer [b.num] s

def execClose (d : BitVec 8) (s : State) : Host.Outcome State Fault Refusal :=
  s.issue (syncForm 0x95 d 0 0 (.dst .one .g) .unused .unused) closeBody

def execWaitb (d a b : BitVec 8) (s : State) : Host.Outcome State Fault Refusal :=
  let f := syncForm 0x96 d a b (.dst .one .g) .uniform .deadline
  s.issue f fun c s => c.waiting s fun s => c.armed f s fun dl s =>
    s.beginWait c.g (.batches (c.read c.a 0)) c.dreg [(c.dreg, statusWord Status.timeout)] dl

/-- The group's stores become due at a scope at least as wide; those performed at a narrower one are performed there. -/
def State.widen (s : State) (g : Group) (scope : Nat) : State :=
  let raise (e : PendingStore) : PendingStore := { e with scope := max e.scope scope }
  let s := { s with stores := updateWhere (fun e => e.gid == g.id && e.seenAt.isNone) raise s.stores }
  s.performAll scope (s.stores.filter fun e => e.gid == g.id && e.seenAt.isSome)

def execFence (d a b : BitVec 8) (s : State) : Host.Outcome State Fault Refusal :=
  let f := { syncForm 0x97 d a b (.dst .one .g) .uniform .deadline with log := true }
  s.issue f fun c s => c.waiting s fun s => c.armed f s fun dl s =>
    let classes := BitVec.ofNat 8 (c.read c.a 0).toNat
    (s.widen c.g (modeScope c.mode)).beginWait c.g (.fence classes s.nextId) c.dreg [] dl

def execAcq (s : State) : Host.Outcome State Fault Refusal :=
  s.issue (syncForm 0x98 0 0 0 .unused .unused .unused) fun c s =>
    s.onGroup c.g.id fun g => { g.advance with acqFloor := s.nextId }

def execRel (s : State) : Host.Outcome State Fault Refusal :=
  let f := { syncForm 0x99 0 0 0 .unused .unused .unused with log := true }
  s.issue f fun c s => (s.rel c.g (modeScope c.mode)).onGroup c.g.id fun g => g.advance

/-- The stores of a core, or of every core, that a promotion performs at `dev`: those performed at `grp` or `team`, and those
still on their way that a release of their group has covered (R200, 10 R225). -/
def State.promoted (s : State) (core : Option Nat) : List Nat :=
  let covered (e : PendingStore) : Bool := e.seenAt.isSome || (s.group? e.gid).any fun g => decide (e.id < g.relFloor)
  (s.stores.filter fun e => (match core with | none => true | some n => e.core == n) && covered e).map (·.id)

def execAcqRem (d a b : BitVec 8) (s : State) : Host.Outcome State Fault Refusal :=
  let f := { syncForm 0x9A d a b (.dst .one .g) .uniform .deadline with log := true }
  s.issue f fun c s => c.waiting s fun s => c.armed f s fun dl s =>
    let n := (c.read c.a 0).toNat
    let core := if n < 512 then some n else none
    let p : Promotion := ⟨s.nextId, c.g.id, s.promoted core⟩
    let s := { s with nextId := s.nextId + 1, promotions := s.promotions ++ [p] }
    s.beginWait c.g (.promote core p.id) c.dreg [(c.dreg, statusWord Status.timeout)] dl

/-- A promotion can complete: none of its stores is still on its way. -/
def State.mayPromote (s : State) (p : Promotion) : Bool := !s.stores.any fun e => p.stores.contains e.id && e.seenAt.isNone

/-- The promotion of a core's stores is complete: those that no agent of the device sees yet are performed at `dev`
(R200, 10 R225). -/
def State.promote (s : State) (p : Promotion) : State :=
  let s := s.performAll 3 (s.stores.filter fun e => p.stores.contains e.id)
  { s with promotions := s.promotions.filter (·.id != p.id) }

/-! ## Queues (R209 to R211) -/

def execQsend (d a b : BitVec 8) (s : State) : Host.Outcome State Fault Refusal :=
  let f := { syncForm 0x9B d a b (.acc (.regs 4 true) .g) .uniform (.src (.regs 4 false) .g) with log := true }
  s.issue f fun c s => c.waiting s fun s =>
    match s.arm c.g (pairOf (c.read (c.d.above 2) 0) (c.read (c.d.above 3) 0)) with
    | none => c.trap f s 0x07 0x03 0
    | some dl =>
      let msg := (List.range 4).map fun k => c.read (c.b.above k) 0
      s.beginWait c.g (.send (c.read c.a 0) msg) c.dreg [(c.dreg, statusWord Status.timeout), (c.dreg + 1, 0)] dl

/-- QRECV; without an entry, for LOST and TIMEOUT, it writes g(d) alone. DESIGN CHOICE (log 132, unsafe). -/
def execQrecv (d a b : BitVec 8) (s : State) : Host.Outcome State Fault Refusal :=
  let f := syncForm 0x9C d a b (.dst (.regs 6 true) .g) .uniform .deadline
  s.issue f fun c s => c.waiting s fun s => c.armed f s fun dl s =>
    s.beginWait c.g (.receive (c.read c.a 0)) c.dreg [(c.dreg, statusWord Status.timeout)] dl

/-- The team whose send entry a SENDER word names, for a queue of a team: one on the core that SENDER names, else one that
was there, else any with such an entry. DEDUCED (log 43, unsafe). -/
def State.senderTeam (s : State) (tm : Team) (queue : Nat) (sender : Nat) : Option Team :=
  let core := bits sender 0 9
  let bound := s.teams.filter fun t =>
    let e := t.sends.getD (bits sender 12 4) ⟨false, 0, 0, 0⟩
    t.ctx == tm.ctx && t.tcb == tm.tcb && e.declared && e.queue == queue && e.mix == tm.mix
  let on := fun (t : Team) (c : Nat) => c == core || (t.launch.pair && c == core / 2 * 2)
  (bound.find? fun t => t.core.any (on t)).orElse fun _ => (bound.find? fun t => t.homes.any (on t)).orElse fun _ => bound.head?

/-- Put the permits of the n oldest held entries on their way. -/
def State.returnPermits (s : State) (tm : Team) (q : QueueDecl) (h : QueueHeader) (n : Nat) : State :=
  (List.range n).foldl (fun s i =>
    let pos := (h.head + 2 ^ 32 - h.held + i) % 2 ^ 32 % h.slots
    let sender := tm.mem.value (h.ring + 32 * pos + 0x10) 4
    match s.senderTeam tm q.num sender with
    | none => s
    | some t => { s with nextId := s.nextId + 1, permits := s.permits ++ [⟨s.nextId, t.id, bits sender 12 4⟩] }) s

def execQcredit (d a b : BitVec 8) (s : State) : Host.Outcome State Fault Refusal :=
  s.issue (syncForm 0x9D d a b (.dst .one .g) .uniform .uniform) fun c s =>
    match s.openQueue c.tm.id (c.read c.a 0).toNat with
    | none => c.answer [0] s
    | some (q, h) =>
      let n := min (c.read c.b 0).toNat h.held
      let s := s.returnPermits c.tm q h n
      let s := (s.ownWrite c.g q.hdr 32).putHeader c.tm.id q.hdr 0x10 (bytesOf 4 (h.held - n))
      c.answer [wordOf n] s

end Sys2Proof.Machine
end

