-- ==== Sys2Proof/Machine/Coproc.lean ====
section
/-! DEFINITION. What the coprocessor commands share: their forms (03 R57, 12 R237), replies (R239), the issue of a command
to an engine (10 R227, 12 R235), and completion (12 R250). -/

namespace Sys2Proof.Machine

/-! ## Forms -/

/-- A coprocessor word: its reply stands in slot d. -/
def coForm (func : Nat) (a b : BitVec 8) (r : BitVec 7) (kd ka kb : Kind) : Form :=
  { word := wordC func a.toNat b.toNat r.toNat, d := ⟨kd, r.toNat⟩, a := ⟨ka, a.toNat⟩, b := ⟨kb, b.toNat⟩ }

/-- A virtual-address pair, a block of n registers, and one that begins with such a pair. -/
def Kind.va : Kind := .src (.regs 2 true) .pair
def Kind.block (n : Nat) : Kind := .src (.regs n false) .uniform
def Kind.blockVa (n : Nat) : Kind := .src (.regs n true) .pair

/-- The reply of a code (03 Table 3.3). -/
def replyOf (r : Nat) : Reply :=
  if r < 0x40 then .t r else if r < 0x7F then .g (r - 0x40) else .none

/-- A command reads its slots once; a reply in a t name waits for every thread's copy (03 R53, 12 R239). -/
def Ctx.replyReads (c : Ctx) : Reads := { c.activeReads with d := List.range c.width }

/-- Mark a reply of n registers empty; a t reply in every thread. -/
def Group.markReply (g : Group) (width : Nat) (r : Reply) (n : Nat) : Group :=
  (List.range n).foldl (fun (g : Group) k =>
    match r with
    | .none => g
    | .t j => g.onArch (·.onT (j + k) (Ranked.markEmpty width (lowMask width)))
    | .g j => g.onArch (·.setFull (j + k) false)) g

/-! ## Replies (R239) -/

/-- A value for a reply: the g register, or the t register of every thread. -/
def Reply.writes (r : Reply) (width k : Nat) (v : Word) : List (Target × Word) :=
  match r with
  | .none => []
  | .g n => [(.g (n + k), v)]
  | .t n => (List.range width).map fun i => (.t (n + k) i, v)

/-! ## Commands -/

/-- A command as it is issued. -/
def Cmd.new (id : Nat) (c : Ctx) (cluster func : Nat) (a : DWord) (b : List Word) (reply : Reply) : Cmd where
  id := id
  gid := c.g.id
  team := c.tm.id
  ctx := c.tm.ctx
  cluster := cluster
  priv := c.g.priv
  func := func
  a := a
  b := b
  reply := reply
  scope := modeScope c.mode
  use := modeUse c.mode
  active := c.active
  phase := .issued
  started := false
  units := []
  status := 0
  sub := 0
  progress := 0
  failed := 0
  banks := []
  next := 0
  cond := 0
  held := []
  follow := none
  block := []
  card := []
  source := []
  window := []
  replied := false

/-- Commands of a group that have been issued and are not complete. -/
def State.running (s : State) (gid : Nat) (cls : Nat) : Nat :=
  (s.cmds.filter fun c => c.gid == gid && funcClass c.func == cls && !c.isDone && c.phase != .dormant).length

/-- Issue a command: a `clu` release of the group, its reply marked empty, and the command in the group's open batch. -/
def State.issueCmd (s : State) (c : Ctx) (cmd : Cmd) : State :=
  let s := s.flush c.g
  let s := { s with nextId := max s.nextId (cmd.id + 1), cmds := s.cmds ++ [cmd] }
  s.onGroup c.g.id fun g =>
    { (g.markReply c.width cmd.reply 1).advance with opens := g.opens ++ [cmd.id] }

/-- The cluster whose engines a group commands. -/
def State.clusterOf (s : State) (g : Group) : Nat := clusterOfCore (s.coreOf g)

/-- The status of a command becomes known: its reply is written and its batch may be complete (R239, R250). -/
def State.completeCmd (s : State) (c : Cmd) (value : Word) : State :=
  let s := s.putCmd { c with phase := .done, replied := true }
  let width := ((s.team? c.team).map (·.launch.width)).getD 0
  match c.reply with
  | .none => s
  | r => (s.landAll c.gid (c.priv == 1) (r.writes width 0 value)).wake c.gid

/-! ## Engine accesses (12 R249) -/

/-- The parts of n bytes that lie in one page each; n is at most 64 KiB. -/
def pageParts (va n : Nat) : List (Nat × Nat) :=
  if va % 0x10000 + n ≤ 0x10000 then [(va, n)]
  else [(va, 0x10000 - va % 0x10000), (va + (0x10000 - va % 0x10000), n - (0x10000 - va % 0x10000))]

/-- n bytes of a context's memory as an engine of a core's cluster reads them. -/
def State.engineRead (s : State) (ctx core priv va n : Nat) : State × Except MFault (List Byte) :=
  if n = 0 then (s, .ok [])
  else
    (pageParts va n).foldl (fun (acc : State × Except MFault (List Byte)) x =>
      match acc with
      | (s, .error f) => (s, .error f)
      | (s, .ok bs) =>
        match s.translate ctx core priv x.1 .read with
        | (s, .error f) => (s, .error f)
        | (s, .ok h) =>
          match s.readSource h x.2 with
          | .error f => (s, .error f)
          | .ok (.lit more) => (s, .ok (bs ++ more))
          | .ok (.at l k) => (s, .ok (bs ++ s.bytesAt l k))) (s, .ok [])

/-- Write bytes of a context's memory for an engine, bit by bit under masks. -/
def State.engineWrite (s : State) (ctx core priv va : Nat) (bs masks : List Byte) : State × Except MFault Unit :=
  match s.span ctx core priv .write va bs.length with
  | (s, .error f) => (s, .error f.1)
  | (s, .ok segs) =>
    let old := s.spanBytes segs 0 bs.length
    (s.putSpan segs 0 ((old.zip (bs.zip masks)).map fun x => mergeByte x.1 x.2.1 x.2.2), .ok ())

end Sys2Proof.Machine
end

