-- ==== Sys2Proof/Machine/Copy.lean ====
section
/-! DEFINITION. The copy engine, function codes 0x00 to 0x0D (12 R235 to R252, R258, R259): issue, acceptance, the units of
each command, and completion. -/

namespace Sys2Proof.Machine

/-! ## Fields of a command -/

def Cmd.word (c : Cmd) (k : Nat) : Nat := (c.b.getD k 0).toNat

/-- Where the control word stands among the words of slot b (Table 12.3). -/
def controlIndex (func : Nat) : Option Nat :=
  match func with
  | 0x01 | 0x02 | 0x03 | 0x08 | 0x0A | 0x0B => some 1
  | 0x05 | 0x0C => some 0
  | 0x06 | 0x09 => some 3
  | _ => none

/-- The control word (Table 12.2), or 0. -/
def Cmd.control (c : Cmd) : Nat :=
  match controlIndex c.func with
  | some k => c.word k
  | none => 0

def Cmd.arg (c : Cmd) : Nat := bits c.control 0 19

/-- The offset of the named barrier (R251). -/
def Cmd.barrier (c : Cmd) : Option Nat := if bitAt c.control 31 then some (64 * bits c.control 19 12) else none

/-! ## Descriptors -/

/-- A plane descriptor (06 Table 6.4). -/
structure PlaneDesc where
  base : Nat
  rows : Nat
  cols : Nat
  pitch : Nat
  pstride : Nat
  n : Nat
  k : Nat
  off : Nat
  mid : Bool
  deriving DecidableEq, Repr

/-- Read a plane descriptor; none when it breaks a limit (06 R138). -/
def planeDesc (b : List Byte) : Option PlaneDesc :=
  let f := fieldOf b
  let d : PlaneDesc := ⟨f 0 8, f 8 4, f 12 4, f 16 4, f 20 4, f 24 1, f 25 1, f 26 1, bitAt (f 27 1) 0⟩
  if d.base < 2 ^ 52 ∧ 1 ≤ d.rows ∧ d.rows ≤ 65535 ∧ 1 ≤ d.cols ∧ d.cols ≤ 65535 ∧ d.pitch % 8 = 0 ∧ 8 ≤ d.pitch ∧
      d.pitch ≤ 2 ^ 24 ∧ d.rows * d.pitch / 8 ≤ d.pstride ∧ 2 ≤ d.n ∧ d.n ≤ 8 ∧ 2 ≤ d.k ∧ d.k ≤ d.n ∧
      d.off + d.cols ≤ d.pitch ∧ f 27 1 < 2 ∧ f 28 4 = 0 then some d
  else none

/-- The address of the byte that holds column 0 of a row of a plane (06 R136). -/
def PlaneDesc.rowAddr (d : PlaneDesc) (p r : Nat) : Nat := d.base + p * d.pstride + r * (d.pitch / 8) + d.off / 8

/-- Bytes of a row that hold its columns. -/
def PlaneDesc.rowSpan (d : PlaneDesc) : Nat := (d.off % 8 + d.cols + 7) / 8

/-- The bit of a column in the bytes of a row. -/
def PlaneDesc.bit (d : PlaneDesc) (row : List Byte) (c : Nat) : Bool :=
  bitAt ((row.getD ((d.off % 8 + c) / 8) 0).toNat) ((d.off % 8 + c) % 8)

/-- The K-bit code of a column from the rows of planes 0 to K-1: plane 0 holds the sign (06 R135, R139). -/
def PlaneDesc.code (d : PlaneDesc) (planes : List (List Byte)) (c : Nat) : Int :=
  signedOf ((planes.take d.k).foldl (fun v row => 2 * v + if d.bit row c then 1 else 0) 0) d.k

/-- The multiplier of a code (06 R139). -/
def PlaneDesc.multiplier (d : PlaneDesc) (code : Int) : Int :=
  code * 2 ^ (d.n - d.k) + if d.mid && decide (d.k < d.n) then 2 ^ (d.n - d.k - 1) else 0

/-- A 2D descriptor (Table 12.5). -/
structure Desc2D where
  src : Nat
  dst : Nat
  rows : Nat
  rowBytes : Nat
  spitch : Int
  dpitch : Int
  deriving DecidableEq, Repr

def desc2D (b : List Byte) : Desc2D :=
  let f := fieldOf b
  ⟨f 0 8, f 8 8, f 16 4, f 20 4, signedOf (f 24 4) 32, signedOf (f 28 4) 32⟩

/-- A job card (Table 12.8). -/
structure JobCard where
  src : Nat
  dst : Nat
  srcLen : Nat
  dstLen : Nat
  kind : Nat
  flags : Nat
  deriving DecidableEq, Repr

def jobCard (b : List Byte) : JobCard :=
  let f := fieldOf b
  ⟨f 0 8, f 8 8, f 16 4, f 20 4, f 28 1, f 29 1⟩

def JobCard.dt (j : JobCard) : Bool := bitAt j.flags 0

/-! ## Acceptance (R236, R238, R248, R251) -/

/-- What acceptance finds: a limit that fails; team-memory ranges that are touched; the written ones; whether the command
may name a barrier. -/
structure Limits where
  bad : Bool
  ranges : List (Nat × Nat)
  dests : List (Nat × Nat)
  mayName : Bool
  deriving DecidableEq, Repr

/-- Bytes of a row of extracted plane bits. -/
def PlaneDesc.packedRow (d : PlaneDesc) : Nat := (d.cols + 7) / 8

/-- Bytes of team memory that a plane transform reads or writes. -/
def PlaneDesc.teamBytes (d : PlaneDesc) (form : Nat) : Nat :=
  if form = 0 then d.k * d.rows * d.packedRow else d.rows * d.cols

/-- The row ranges of one side of a 2D copy; a row below offset 0 lies outside. -/
def rowRanges (base : Nat) (pitch : Int) (rows n size : Nat) : List (Nat × Nat) :=
  (List.range rows).map fun (r : Nat) =>
    let at' := (base : Int) + r * pitch
    (if at' < 0 then size + 1 else at'.toNat, n)

def limits2D (c : Cmd) (d : Desc2D) (size : Nat) : Limits :=
  let srct := bitAt c.arg 0
  let dstt := bitAt c.arg 1
  let ok := decide (1 ≤ d.rows) && decide (d.rows ≤ 65535) && decide (1 ≤ d.rowBytes) &&
    decide (d.rowBytes ≤ 2 ^ 24) && (!srct || decide (d.src < 2 ^ 32)) && (!dstt || decide (d.dst < 2 ^ 32))
  let ds := if dstt && ok then rowRanges d.dst d.dpitch d.rows d.rowBytes size else []
  ⟨!ok, (if srct && ok then rowRanges d.src d.spitch d.rows d.rowBytes size else []) ++ ds, ds, dstt⟩

def limitsPlane (c : Cmd) (d : Option PlaneDesc) : Limits :=
  let form := bits c.arg 0 2
  let dir := bitAt c.arg 2
  match d with
  | none => ⟨true, [], [], !dir⟩
  | some d =>
    let r := [(c.word 0, if dir then d.rows * d.cols else d.teamBytes form)]
    ⟨false, r, if dir then [] else r, !dir⟩

/-- L of a block length code (06 R138, Table 6.5). -/
def limitsDeq (c : Cmd) (b : List Byte) : Limits :=
  let lb := fieldOf b 0x28 1
  match planeDesc (b.take 32) with
  | none => ⟨true, [], [], true⟩
  | some d =>
    let r := [(c.word 0, 2 * d.rows * d.cols)]
    ⟨decide (3 < lb) || fieldOf b 0x29 7 != 0 || d.cols % (16 * 2 ^ lb) != 0, r, r, true⟩

def limitsJob (j : JobCard) : Limits :=
  let bad := decide (2 ≤ j.flags) || !(j.kind == 1 || j.kind == 3) || j.srcLen == 0 ||
    decide (2 ^ 24 < j.srcLen) || decide (2 ^ 26 < j.dstLen) || (j.dt && (decide (262144 < j.dstLen) || decide (2 ^ 32 ≤ j.dst)))
  let r := if j.dt then [(j.dst, j.dstLen)] else []
  ⟨bad, r, r, j.dt⟩

/-- The descriptor that a command names: offset, size, alignment. -/
def Cmd.descriptor (c : Cmd) : Option (Nat × Nat × Nat) :=
  match c.func with
  | 0x04 => some (c.word 0, 8 * c.word 2, 8)
  | 0x05 | 0x0A | 0x0C => some (c.a.toNat, 32, 8)
  | 0x06 => some (c.word 0, 4 * bits (c.word 2) 0 16, 4)
  | 0x0B => some (c.a.toNat, 48, 8)
  | _ => none

/-- The limits of a command whose descriptor, if it has one, has the given bytes. -/
def Cmd.limits (c : Cmd) (desc : List Byte) (size : Nat) : Limits :=
  match c.func with
  | 0x01 | 0x08 => ⟨decide (262144 < c.arg), [(c.word 0, c.arg)], [(c.word 0, c.arg)], true⟩
  | 0x02 => ⟨false, [(c.word 0, c.arg)], [], false⟩
  | 0x03 => ⟨false, [(c.a.toNat, c.arg), (c.word 0, c.arg)], [(c.word 0, c.arg)], true⟩
  | 0x04 => ⟨false, [], [], true⟩
  | 0x05 => limits2D c (desc2D desc) size
  | 0x06 =>
    let rows := bits (c.word 2) 0 16
    let n := bits (c.word 2) 16 16
    let r := [(c.word 1, rows * n)]
    ⟨false, r, r, true⟩
  | 0x09 =>
    let rows := bits (c.word 1) 0 16
    let cols := bits (c.word 1) 16 16
    let n := rows * cols * 2 ^ c.arg
    let r := [(c.word 0, n)]
    ⟨decide (3 ≤ c.arg) || rows == 0 || cols == 0 || decide (262144 < n), r, r, true⟩
  | 0x0A => limitsPlane c (planeDesc desc)
  | 0x0B => limitsDeq c desc
  | 0x0C => limitsJob (jobCard desc)
  | _ => ⟨false, [], [], true⟩

/-- DIR and FORM name an operation of XF.PLANE (R246). -/
def planeArgGood (arg : Nat) : Bool :=
  decide (arg < 8) && (if bitAt arg 2 then bits arg 0 2 == 1 else decide (bits arg 0 2 < 2))

/-- Limits that the registers alone decide: they come before the bounds of a descriptor (R248). -/
def Cmd.countBad (c : Cmd) : Bool :=
  match c.func with
  | 0x04 => c.word 2 == 0 || decide (16 < c.word 2)
  | 0x05 => decide (4 ≤ c.arg) || (c.barrier.isSome && !bitAt c.arg 1)
  | 0x06 =>
    let rows := bits (c.word 2) 0 16
    let n := bits (c.word 2) 16 16
    rows == 0 || decide (4096 < rows) || c.arg != 0 || n == 0 || decide (4096 < n)
  | 0x0A => !planeArgGood c.arg || (c.barrier.isSome && bitAt c.arg 2)
  | 0x0B | 0x0C => c.arg != 0
  | _ => false

/-- The range meets a tagged line (R251, 09 R208); an empty one meets none (R240). -/
def Team.meetsTag (tm : Team) (off n : Nat) : Bool :=
  decide (0 < n) && tm.tags.any fun t => decide (16 * t.1 < off + n) && decide (off < 16 * t.1 + 16)

/-- The checks at acceptance, in the order of R248, of a command whose descriptor or job card has been read: a status and a
sub-cause. -/
def Cmd.acceptance (c : Cmd) (tm : Team) : Option (Nat × Nat) :=
  let size := tm.launch.tmem
  let go := fun (desc : List Byte) =>
    let l := c.limits desc size
    if l.bad || (c.barrier.isSome && !l.mayName) then some (Status.badcmd, 0)
    else if l.ranges.any fun r => decide (size < r.1 + r.2) then some (Status.faulted, 0x07)
    else if c.barrier.any fun off => !tm.isBarrier off then some (Status.clobbered, 0)
    else if l.dests.any fun r => tm.meetsTag r.1 r.2 then some (Status.clobbered, 0)
    else none
  match c.descriptor with
  | none => go []
  | some (off, n, align) =>
    if off % align ≠ 0 ∨ c.countBad then some (Status.badcmd, 0)
    else if size < off + n then some (Status.faulted, 0x07)
    else go c.block

/-! ## Sources and units (R240 to R247, R249) -/

/-- The units of a stream and how it ends: its status, sub-cause and progress. -/
structure Plan where
  units : List CopyUnit
  status : Nat
  sub : Nat
  progress : Nat
  deriving DecidableEq, Repr

def Plan.of (units : List CopyUnit) : Plan := ⟨units, Status.done, 0, 0⟩

def Cmd.core (c : Cmd) : Nat := 8 * c.cluster

/-- Read n bytes in parts of at most 64 bytes, in ascending order: the bytes before the first part whose access faults, and
that fault. -/
def State.streamFrom (s : State) (c : Cmd) (va n : Nat) : Nat → Nat → List Byte → State × List Byte × Option MFault
  | 0, _, acc => (s, acc, none)
  | fuel + 1, off, acc =>
    if n ≤ off then (s, acc, none)
    else
      match s.engineRead c.ctx c.core c.priv (va + off) (min 64 (n - off)) with
      | (s, .error f) => (s, acc, some f)
      | (s, .ok bs) => streamFrom s c va n fuel (off + 64) (acc ++ bs)

def State.stream (s : State) (c : Cmd) (va n : Nat) : State × List Byte × Option MFault :=
  s.streamFrom c va n (n / 64 + 1) 0 []

/-- Every bit of n bytes. -/
def fullMask (n : Nat) : List Byte := List.replicate n 0xFF

/-- The place n bytes above a destination. -/
def Dest.plus (d : Dest) (n : Nat) : Dest :=
  match d with
  | .va a => .va (a + dwordOf n)
  | .team o => .team (o + n)

/-- Cut bytes into units of at most 64 from an offset of the stream on. -/
def unitsFrom (stream : Nat) (dest : Dest) (base : Nat) : Nat → Nat → List Byte → List CopyUnit
  | 0, _, _ => []
  | fuel + 1, off, bs =>
    if bs.isEmpty then []
    else
      let part := bs.take 64
      ⟨stream, base + off, dest.plus off, part, fullMask part.length⟩ :: unitsFrom stream dest base fuel (off + 64) (bs.drop 64)

def unitsOf (stream : Nat) (dest : Dest) (base : Nat) (bs : List Byte) : List CopyUnit :=
  unitsFrom stream dest base (bs.length / 64 + 1) 0 bs

/-- One stream: bytes that were read, then the fault that stopped the reading. -/
def planOf (dest : Dest) (bs : List Byte) (fault : Option MFault) : Plan :=
  match fault with
  | none => Plan.of (unitsOf 0 dest 0 bs)
  | some f => ⟨unitsOf 0 dest 0 bs, Status.faulted, f.sub, bs.length⟩

/-- A stream from virtual memory. -/
def State.planVa (s : State) (c : Cmd) (va n : Nat) (dest : Dest) : State × Plan :=
  match s.stream c va n with
  | (s, bs, f) => (s, planOf dest bs f)

/-- Rows in order: each row's source and destination. -/
def State.planRows (s : State) (read : State → Nat → State × List Byte × Option MFault) (dest : Nat → Dest)
    (rows n : Nat) : State × Plan :=
  (List.range rows).foldl (fun (acc : State × Plan) r =>
    if acc.2.status ≠ 0 then acc
    else
      match read acc.1 r with
      | (s, bs, f) =>
        let units := acc.2.units ++ unitsOf 0 (dest r) (r * n) bs
        (s, match f with
          | none => ⟨units, 0, 0, 0⟩
          | some f => ⟨units, Status.faulted, f.sub, r * n + bs.length⟩)) (s, Plan.of [])

/-- Bytes of the team's own memory as a source. -/
def State.teamSource (s : State) (c : Cmd) (off n : Nat) : List Byte := (s.teamMem c.team).read off n

def State.plan2D (s : State) (c : Cmd) (d : Desc2D) : State × Plan :=
  let side := fun (base : Nat) (pitch : Int) (r : Nat) => wrap ((base : Int) + r * pitch) 64
  s.planRows
    (fun s r =>
      let from' := side d.src d.spitch r
      if bitAt c.arg 0 then (s, s.teamSource c from' d.rowBytes, none) else s.stream c from' d.rowBytes)
    (fun r => if bitAt c.arg 1 then .team (side d.dst d.dpitch r) else .va (dwordOf (side d.dst d.dpitch r)))
    d.rows d.rowBytes

def State.planGather (s : State) (c : Cmd) : State × Plan :=
  let rows := bits (c.word 2) 0 16
  let n := bits (c.word 2) 16 16
  s.planRows
    (fun s r =>
      let i := (s.teamMem c.team).value (c.word 0 + 4 * r) 4
      s.stream c ((c.a.toNat + i * n) % 2 ^ 64) n)
    (fun r => .team (c.word 1 + r * n)) rows n

/-- The pattern of COPY.FILL (R240). -/
def patternBytes (w n : Nat) : List Byte := (List.range n).map fun k => BitVec.ofNat 8 (w / 2 ^ (8 * (k % 4)))

/-- Transposed elements (R245). With a fault, the elements that were read before it are written one by one. -/
def transposed (dst rows cols e : Nat) (bs : List Byte) (fault : Option MFault) : Plan :=
  match fault with
  | none =>
    let out := (List.range cols).flatMap fun c => (List.range rows).flatMap fun r => sliceOf bs ((r * cols + c) * e) e
    Plan.of (unitsOf 0 (.team dst) 0 out)
  | some f =>
    let units := (List.range (bs.length / e)).map fun i =>
      (⟨0, i * e, .team (dst + (i % cols * rows + i / cols) * e), sliceOf bs (i * e) e, fullMask e⟩ : CopyUnit)
    ⟨units, Status.faulted, f.sub, bs.length⟩

/-- The source rows of a transposition, one after another. -/
def State.rowsOf (s : State) (c : Cmd) (base : Nat) (pitch : Int) (rows n : Nat) : State × List Byte × Option MFault :=
  (List.range rows).foldl (fun (acc : State × List Byte × Option MFault) (r : Nat) =>
    match acc with
    | (s, bs, some f) => (s, bs, some f)
    | (s, bs, none) =>
      match s.stream c (wrap ((base : Int) + (r : Int) * pitch) 64) n with
      | (s, more, f) => (s, bs ++ more, f)) (s, [], none)

def State.planTranspose (s : State) (c : Cmd) : State × Plan :=
  let rows := bits (c.word 1) 0 16
  let cols := bits (c.word 1) 16 16
  let e := 2 ^ c.arg
  match s.rowsOf c c.a.toNat (signedOf (c.word 2) 32) rows (cols * e) with
  | (s, bs, f) => (s, transposed (c.word 0) rows cols e bs f)

/-- What of a row can be read: the bytes of each plane, the columns before the first that a fault keeps from it, and that
fault. -/
structure RowRead where
  planes : List (List Byte)
  cols : Nat
  fault : Option MFault

/-- Columns whose bits lie in the first n bytes of a row. -/
def PlaneDesc.colsIn (d : PlaneDesc) (n : Nat) : Nat := min d.cols (8 * n - d.off % 8)

/-- A further source of a row gave its first n columns, and then a fault. -/
def RowRead.limit (x : RowRead) (n : Nat) (fault : Option MFault) : RowRead :=
  match fault with
  | some f => if n < x.cols then { x with cols := n, fault := some f } else x
  | none => x

/-- The rows r of planes 0 to k-1. -/
def State.planeRows (s : State) (c : Cmd) (d : PlaneDesc) (k r : Nat) : State × RowRead :=
  (List.range k).foldl (fun (acc : State × RowRead) p =>
    match acc.1.stream c (d.rowAddr p r) d.rowSpan with
    | (s, bs, f) => (s, { acc.2 with planes := acc.2.planes ++ [bs] }.limit (d.colsIn bs.length) f)) (s, ⟨[], d.cols, none⟩)

/-- The bytes of a destination row before a fault: whole units of 64 bytes (R249). -/
def wholeUnits (bs : List Byte) (have' : Nat) : List Byte := bs.take (have' / 64 * 64)

/-- Packed bits of the columns of a row (R246). -/
def PlaneDesc.packRow (d : PlaneDesc) (row : List Byte) : List Byte :=
  (List.range d.packedRow).map fun j =>
    BitVec.ofNat 8 ((List.range 8).foldl (fun v i =>
      if 8 * j + i < d.cols && d.bit row (8 * j + i) then v + 2 ^ i else v) 0)

/-- Extract: planes as bit rows. -/
def State.planExtract (s : State) (c : Cmd) (d : PlaneDesc) : State × Plan :=
  s.planRows
    (fun s i =>
      match s.stream c (d.rowAddr (i / d.rows) (i % d.rows)) d.rowSpan with
      | (s, bs, none) => (s, d.packRow bs, none)
      | (s, bs, some f) => (s, wholeUnits (d.packRow bs) (d.colsIn bs.length / 8), some f))
    (fun i => .team (c.word 0 + i * d.packedRow)) (d.k * d.rows) d.packedRow

/-- Rows of values of a size, computed from the first K planes and what `row` reads besides. -/
def State.planValues (s : State) (c : Cmd) (d : PlaneDesc) (size : Nat)
    (row : State → Nat → RowRead → State × RowRead × List Byte) : State × Plan :=
  s.planRows
    (fun s r =>
      match s.planeRows c d d.k r with
      | (s, x) =>
        match row s r x with
        | (s, x, bs) =>
          match x.fault with
          | none => (s, bs, none)
          | some f => (s, wholeUnits bs (size * x.cols), some f))
    (fun r => .team (c.word 0 + r * d.cols * size)) d.rows (d.cols * size)

def PlaneDesc.codeRow (d : PlaneDesc) (planes : List (List Byte)) : List Byte :=
  (List.range d.cols).map fun col => BitVec.ofInt 8 (d.code planes col)

/-- The scales of a row, then its `bf16` values (R247). -/
def State.deqRow (s : State) (c : Cmd) (d : PlaneDesc) (scale len r : Nat) (x : RowRead) : State × RowRead × List Byte :=
  match s.stream c (scale + 2 * (r * d.cols / len)) (2 * (d.cols / len)) with
  | (s, bs, f) =>
    (s, x.limit (bs.length / 2 * len) f, (List.range d.cols).flatMap fun col =>
      bytesOf 2 (scaled .bf16 ⟨0, 0, false⟩ (d.multiplier (d.code x.planes col)) (fieldOf bs (2 * (col / len)) 2)).1)

/-- The bits that a pack writes in row r of plane p, with their mask (R246). -/
def PlaneDesc.packBits (d : PlaneDesc) (codes : List Byte) (p : Nat) : List Byte × List Byte :=
  let build := fun (f : Nat → Bool) => (List.range d.rowSpan).map fun j =>
    BitVec.ofNat 8 ((List.range 8).foldl (fun v i =>
      let x := 8 * j + i
      if d.off % 8 ≤ x ∧ x < d.off % 8 + d.cols ∧ f (x - d.off % 8) then v + 2 ^ i else v) 0)
  (build fun col => bitAt (codes.getD col 0).toNat (d.n - 1 - p), build fun _ => true)

/-- Cut bytes and masks into units of at most 64. -/
def maskedUnits (dest : Dest) (base : Nat) : Nat → Nat → List Byte → List Byte → List CopyUnit
  | 0, _, _, _ => []
  | fuel + 1, off, bs, ms =>
    if bs.isEmpty then []
    else ⟨0, base + off, dest.plus off, bs.take 64, ms.take 64⟩ ::
      maskedUnits dest base fuel (off + 64) (bs.drop 64) (ms.drop 64)

def State.planPack (s : State) (c : Cmd) (d : PlaneDesc) : Plan :=
  Plan.of ((List.range (d.n * d.rows)).flatMap fun i =>
    let r := i % d.rows
    let x := d.packBits (s.teamSource c (c.word 0 + r * d.cols) d.cols) (i / d.rows)
    maskedUnits (.va (dwordOf (d.rowAddr (i / d.rows) r))) (i * d.rowSpan) (d.rowSpan / 64 + 1) 0 x.1 x.2)

/-- Decompression (R258, R259): what the stream yields up to DSTLEN, and how the job ends unless a write faults. The
progress is the decoded length of a LENGTH_MISMATCH. -/
def decompressed (j : JobCard) (bs : List Byte) (fault : Option MFault) : Plan × Nat :=
  let y := decodeStream j.kind fault.isSome bs
  let dest : Dest := if j.dt then .team j.dst else .va (dwordOf j.dst)
  let units := unitsOf 0 dest 0 (y.out.take j.dstLen)
  let n := y.out.length
  match fault with
  | some f =>
    if y.bad && !y.cut then (⟨units, Status.faulted, 0x09, (bs.length - y.left) / 64 * 64⟩, n)
    else (⟨units, Status.faulted, f.sub, bs.length⟩, n)
  | none =>
    if y.bad then (⟨units, Status.faulted, 0x09, (bs.length - y.left) / 64 * 64⟩, n)
    else if n = j.dstLen then (Plan.of units, n)
    else (⟨units, Status.lengthMismatch, 0, n⟩, n)

/-- The streams of COPY.MC: one per target (R243). -/
def multicast (targets : List DWord) (bs : List Byte) (fault : Option MFault) : Plan :=
  let units := (targets.zipIdx).flatMap fun x => unitsOf x.2 (.va x.1) 0 bs
  match fault with
  | none => Plan.of units
  | some f => ⟨units, Status.faulted, f.sub, bs.length⟩

/-- The units of a command, read when its work starts: every source byte before any destination byte (R240). Its descriptor or
job card is the one read at acceptance. DEDUCED (log 55, unsafe). DEDUCED (log 74, unsafe). -/
def State.planCmd (s : State) (c : Cmd) : State × Plan × Nat × List Byte :=
  let plain := fun (r : State × Plan) => (r.1, r.2, 0, ([] : List Byte))
  match c.func with
  | 0x00 => plain (s.planVa c c.a.toNat (c.word 2) (.va (dwordOf (pairOf (c.b.getD 0 0) (c.b.getD 1 0)))))
  | 0x01 | 0x08 => plain (s.planVa c c.a.toNat c.arg (.team (c.word 0)))
  | 0x02 => (s, planOf (.va c.a) (s.teamSource c (c.word 0) c.arg) none, 0, [])
  | 0x03 => (s, planOf (.team (c.word 0)) (s.teamSource c c.a.toNat c.arg) none, 0, [])
  | 0x04 =>
    let targets := (List.range (c.word 2)).map fun t => dwordOf ((s.teamMem c.team).value (c.word 0 + 8 * t) 8)
    match s.stream c c.a.toNat (c.word 1) with
    | (s, bs, f) => (s, multicast targets bs f, 0, [])
  | 0x05 => plain (s.plan2D c (desc2D c.block))
  | 0x06 => plain (s.planGather c)
  | 0x07 => (s, planOf (.va c.a) (patternBytes (c.word 0) (c.word 1)) none, 0, [])
  | 0x09 => plain (s.planTranspose c)
  | 0x0A =>
    match planeDesc c.block with
    | none => (s, Plan.of [], 0, [])
    | some d =>
      if bitAt c.arg 2 then (s, s.planPack c d, 0, [])
      else if bits c.arg 0 2 = 0 then plain (s.planExtract c d)
      else plain (s.planValues c d 1 fun s _ x => (s, x, d.codeRow x.planes))
  | 0x0B =>
    let b := c.block
    match planeDesc (b.take 32) with
    | none => (s, Plan.of [], 0, [])
    | some d => plain (s.planValues c d 2 fun s r x => s.deqRow c d (fieldOf b 0x20 8) (16 * 2 ^ fieldOf b 0x28 1) r x)
  | 0x0C =>
    let j := jobCard c.block
    match s.stream c j.src j.srcLen with
    | (s, bs, f) =>
      match decompressed j bs f with
      | (p, n) => (s, p, n, bs)
  | _ => (s, Plan.of [], 0, [])

/-! ## The events of a command (R236, R249 to R251) -/

/-- Where the descriptor or job card that a command names lies, with its bytes, when it is aligned and lies in team memory. -/
def Cmd.named (c : Cmd) (tm : Team) : Option (Nat × Nat) :=
  match c.func with
  | 0x05 | 0x0A | 0x0B | 0x0C =>
    match c.descriptor with
    | some (off, n, align) => if off % align = 0 ∧ off + n ≤ tm.launch.tmem then some (off, n) else none
    | none => none
  | _ => none

/-- Words of a job card that acceptance has not read. -/
def Cmd.cardLeft (c : Cmd) : List Nat := (List.range 8).filter fun k => !c.card.any (·.1 == k)

/-- Acceptance reads the words of a job card, some now and some later, so that a store which races with it is seen in some words and
missed in others (13 R264); which are read now is open. DESIGN CHOICE (log 134, safe). -/
def State.readCard (s : State) (c : Cmd) (tm : Team) (off : Nat) : State × Cmd :=
  let some' := c.cardLeft.filter fun k => Config.chance (s.draw + k)
  let now := if some'.isEmpty then c.cardLeft else some'
  ({ s with draw := s.draw + 8 }, { c with card := c.card ++ now.map fun k => (k, wordOf (tm.mem.value (off + 4 * k) 4)) })

/-- The word of a job card that acceptance has read. -/
def Cmd.cardWord (c : Cmd) (k : Nat) : Word :=
  match c.card.find? fun (x : Nat × Word) => x.1 == k with
  | some x => x.2
  | none => 0

/-- The bytes of a job card whose words have been read. -/
def Cmd.cardBytes (c : Cmd) : List Byte := (List.range 8).flatMap fun k => bytesOf 4 (c.cardWord k).toNat

/-- The checks of a command that has read what it names; a failing one completes it at once with its status. -/
def State.decideCmd (s : State) (c : Cmd) (tm : Team) : State :=
  match c.acceptance tm with
  | none => s.putCmd { c with phase := .accepted }
  | some (st, sub) => s.putCmd { c with phase := .finishing, status := wordOf st, sub := wordOf sub }

/-- Accept a command: its descriptor is read, or its job card, which may take several steps (R236, 13 R264). -/
def State.acceptCmd (s : State) (c : Cmd) : State :=
  match s.team? c.team with
  | none => s.putCmd { c with phase := .finishing }
  | some tm =>
    match c.named tm with
    | none => s.decideCmd c tm
    | some (off, n) =>
      if c.func = 0x0C then
        match s.readCard c tm off with
        | (s, c) => if c.cardLeft.isEmpty then s.decideCmd { c with block := c.cardBytes } tm else s.putCmd c
      else s.decideCmd { c with block := tm.mem.read off n } tm

/-- Write a unit: the state after, and a status and sub-cause when it stops its stream. -/
def State.writeUnit (s : State) (c : Cmd) (u : CopyUnit) : State × Option (Nat × Nat) :=
  match u.dest with
  | .va a =>
    match s.engineWrite c.ctx c.core c.priv a.toNat u.bytes u.bits with
    | (s, .error f) => (s, some (Status.faulted, f.sub))
    | (s, .ok _) => (s, none)
  | .team off =>
    match s.team? c.team with
    | none => (s, none)
    | some tm =>
      if tm.meetsTag off u.bytes.length then (s, some (Status.clobbered, 0))
      else
        let s := s.onTeam c.team fun t => { t with mem := t.mem.write off u.bytes }
        match c.barrier with
        | none => (s, none)
        | some b => (s.barPend c.team b (-(u.bytes.length : Int)), none)

/-- The status of COPY.MC once a target has failed: the mask so far decides (R243). -/
def Cmd.failTarget (c : Cmd) (t sub off : Nat) : Cmd :=
  let lowest := c.failed == 0
  { c with
    failed := c.failed ||| BitVec.ofNat 16 (2 ^ t)
    sub := if lowest then wordOf sub else c.sub
    progress := if lowest then wordOf off else c.progress }

/-- Where a unit of 64 bytes begins: a stop between two bytes of a DCMP may have left a part of it (13 R266). -/
def Cmd.unitStart (c : Cmd) (u : CopyUnit) : Nat := if c.func = 0x0C then u.off / 64 * 64 else u.off

/-- A unit stopped its stream; after a fault on the source of COPY.MC, that fault stays the one reported (R243). -/
def Cmd.stopped (c : Cmd) (u : CopyUnit) (st sub : Nat) : Cmd :=
  let rest := c.units.filter fun x => x.stream != u.stream
  if c.func = 0x04 then
    if c.status = 0 then { c with units := rest }.failTarget u.stream sub u.off else { c with units := rest }
  else
    { c with
      units := rest, status := wordOf st, sub := wordOf sub, progress := wordOf (c.unitStart u)
      next := if c.func = 0x0C then c.unitStart u else c.next }

/-- The command with its last unit moved is about to complete. -/
def Cmd.settled (c : Cmd) : Cmd := if c.units.isEmpty then { c with phase := .finishing } else c

/-- A unit of a DCMP enters its history window (R266). -/
def Cmd.keepOutput (c : Cmd) (u : CopyUnit) : Cmd :=
  if c.func = 0x0C then
    let all := c.window ++ u.bytes
    { c with window := all.drop (all.length - 65536) }
  else c

/-- Move one unit of an accepted command; the first time, its sources are read. -/
def State.moveUnit (s : State) (c : Cmd) : State :=
  if c.started then
    match c.units with
    | [] => s.putCmd { c with phase := .finishing }
    | u :: rest =>
      match s.writeUnit c u with
      | (s, none) => s.putCmd ({ c with units := rest }.keepOutput u).settled
      | (s, some (st, sub)) => s.putCmd (c.stopped u st sub).settled
  else
    match s.planCmd c with
    | (s, p, n, source) =>
      s.putCmd { c with
        started := true, source, units := p.units, status := wordOf p.status, sub := wordOf p.sub, progress := wordOf p.progress
        next := n }.settled

/-- The status of COPY.MC: PARTIAL when some target succeeded, FAULTED when none did (R243). -/
def Cmd.finalStatus (c : Cmd) : Cmd :=
  if c.func = 0x04 && c.status == 0 && c.failed != 0 then
    if c.failed.toNat = 2 ^ c.word 2 - 1 then { c with status := wordOf Status.faulted }
    else { c with status := wordOf Status.part }
  else c

/-- The command with the status that its job card shows: CLOBBERED, where it would be DONE, when the card's line has become
tagged (R251, 09 R208). DEDUCED (log 119, unsafe). -/
def State.cardStatus (s : State) (c : Cmd) : Cmd :=
  if c.func = 0x0C && c.status == 0 && (s.team? c.team).any fun t => t.meetsTag (c.a.toNat + 0x18) 8 then
    { c with status := wordOf Status.clobbered }
  else c

/-- A job's ACTUAL and STATUS, with KIND and FLAGS as read at acceptance, are written as one unit before the command's last
access (R258, R259, 13 R264); a tagged line stays as it is. A job that a destination stopped has decoded up to that unit. -/
def State.closeCard (s : State) (c : Cmd) : State :=
  if c.func = 0x0C ∧ !c.block.isEmpty then
    let actual := if c.started then c.next else 0
    let at' := c.a.toNat + 0x18
    s.onTeam c.team fun t =>
      if t.meetsTag at' 8 then t
      else
        { t with mem := t.mem.write at' (bytesOf 4 (sat actual 0xFFFFFFFF) ++ sliceOf c.block 0x1C 2 ++ bytesOf 2 c.status.toNat) }
  else s

/-- A command that names a barrier and did not end DONE clobbers it (R251). -/
def State.clobberNamed (s : State) (c : Cmd) : State :=
  match c.barrier with
  | none => s
  | some off =>
    if c.status = 0 ∨ !((s.team? c.team).map (·.isBarrier off)).getD false then s else s.clobber c.team off false

/-! ## Issue (R235, R237, R239) -/

/-- The words of a block in slot b. -/
def Ctx.block (c : Ctx) (n : Nat) : List Word := (List.range n).map fun k => c.read (c.b.above k) 0

/-- The copy-engine form: whether slot a is an address pair, and slot b's words. -/
def copyForm (func : Nat) (a b : BitVec 8) (r : BitVec 7) (pair : Bool) (kb : Kind) : Form :=
  coForm func a b r (.reply 1) (if pair then .va else .uniform) kb

/-- Issue a copy-engine command of n words in slot b; a group that already has 32 stalls. -/
def copyBody (func : Nat) (pair : Bool) (n : Nat) (r : BitVec 7) (c : Ctx) (s : State) : State :=
  if 32 ≤ s.running c.g.id 3 then s
  else
    let a := dwordOf (if pair then c.readPair c.a 0 else (c.read c.a 0).toNat)
    s.issueCmd c (Cmd.new s.nextId c (s.clusterOf c.g) func a (c.block n) (replyOf r.toNat))

/-- A copy-engine command. -/
def copyCommand (func : Nat) (pair : Bool) (n : Nat) (va : Bool) (a b : BitVec 8) (r : BitVec 7) (s : State) :
    Host.Outcome State Fault Refusal :=
  s.issue (copyForm func a b r pair (if va then .blockVa n else .block n)) (copyBody func pair n r)
    (reads := Ctx.replyReads)

def execCopyVv (a b : BitVec 8) (r : BitVec 7) (s : State) : Host.Outcome State Fault Refusal :=
  copyCommand 0x00 true 3 true a b r s

def execCopyVt (a b : BitVec 8) (r : BitVec 7) (s : State) : Host.Outcome State Fault Refusal :=
  copyCommand 0x01 true 2 false a b r s

def execCopyTv (a b : BitVec 8) (r : BitVec 7) (s : State) : Host.Outcome State Fault Refusal :=
  copyCommand 0x02 true 2 false a b r s

def execCopyTt (a b : BitVec 8) (r : BitVec 7) (s : State) : Host.Outcome State Fault Refusal :=
  copyCommand 0x03 false 2 false a b r s

def execCopyMc (a b : BitVec 8) (r : BitVec 7) (s : State) : Host.Outcome State Fault Refusal :=
  copyCommand 0x04 true 3 false a b r s

def execCopy2d (a b : BitVec 8) (r : BitVec 7) (s : State) : Host.Outcome State Fault Refusal :=
  copyCommand 0x05 false 1 false a b r s

def execCopyGath (a b : BitVec 8) (r : BitVec 7) (s : State) : Host.Outcome State Fault Refusal :=
  copyCommand 0x06 true 4 false a b r s

def execCopyFill (a b : BitVec 8) (r : BitVec 7) (s : State) : Host.Outcome State Fault Refusal :=
  copyCommand 0x07 true 2 false a b r s

def execXfTr (a b : BitVec 8) (r : BitVec 7) (s : State) : Host.Outcome State Fault Refusal :=
  copyCommand 0x09 true 4 false a b r s

def execXfPlane (a b : BitVec 8) (r : BitVec 7) (s : State) : Host.Outcome State Fault Refusal :=
  copyCommand 0x0A false 2 false a b r s

def execXfDeq (a b : BitVec 8) (r : BitVec 7) (s : State) : Host.Outcome State Fault Refusal :=
  copyCommand 0x0B false 2 false a b r s

def execDcmp (a b : BitVec 8) (r : BitVec 7) (s : State) : Host.Outcome State Fault Refusal :=
  copyCommand 0x0C false 1 false a b r s

/-! ## COPY.STAT (R252) -/

/-- g(d+1) and g(d+2) of a complete batch, from its first command that did not end DONE. -/
def failDetail (cmds : List Cmd) : Word × Word :=
  match (cmds.zipIdx).find? fun x => x.1.status != 0 with
  | none => (0, 0)
  | some (c, i) =>
    let st := c.status.toNat
    let third := if st = Status.part then wordOf c.failed.toNat
      else if st = Status.faulted ∨ st = Status.lengthMismatch ∨ st = Status.ovcond then c.progress else 0
    (wordOf (i % 256 * 2 ^ 24 + c.func * 2 ^ 16 + c.sub.toNat % 256), third)

/-- The four words of COPY.STAT for a batch number. -/
def State.copyStat (s : State) (g : Group) (n : Word) : List Word :=
  match g.batches.find? (·.num == n) with
  | none => [statusWord Status.lost, 0, 0, 0]
  | some b =>
    if s.batchDone b then
      let d := failDetail (s.batchCmds b)
      [s.batchStatus b, d.1, d.2, wordOf b.cmds.length]
    else [0xFFFFFFFF, 0, 0, 0]

def execCopyStat (a : BitVec 8) (r : BitVec 7) (s : State) : Host.Outcome State Fault Refusal :=
  let n := r.toNat
  let f := { coForm 0x0D a 0 r (.reply 4) .uniform .unused with
    bad3 := !(decide (0x40 ≤ n) && decide (n ≤ 0x7C) && n % 2 == 0) }
  s.issue f (reads := Ctx.replyReads) (body := fun c s =>
    let vals := s.copyStat c.g (c.read c.a 0)
    let ws := (vals.zipIdx).map fun x => (Target.g (n - 0x40 + x.2), x.1)
    let s := s.putGroup (c.g.markReply c.width (replyOf n) 4).advance
    s.issueProduct c.g true (.values ws))

end Sys2Proof.Machine
end

