-- ==== Sys2Proof/Machine/OvenSum.lean ====
section
/-! DEFINITION. The Oven's operands and arithmetic: format blocks (15 R304, R305), operand reads (R307), and the order and
rounding of its sums (R308 to R311). -/

namespace Sys2Proof.Machine

/-! ## Formats (Table 15.2) -/

/-- One operand's 32 bytes; none when they break a limit. -/
def ovenFormat (b : List Byte) : Option OvenFormat :=
  let f := fieldOf b
  let x : OvenFormat := ⟨f 0 1, f 1 1, f 2 1, f 3 1, f 4 1, f 5 1, dwordOf (f 8 8), f 0x10 4, f 0x14 4, f 0x18 4⟩
  let common := f 6 2 == 0 && f 0x1C 4 == 0 && decide (x.flags < 8) && decide (8 ≤ x.pitch) && decide (x.pitch ≤ 2 ^ 24)
  let plain := x.n == 0 && x.k == 0 && x.lb == 0 && x.off == 0 && x.scale == 0 && x.spitch == 0 && x.pstride == 0 &&
    x.pitch % 16 == 0
  let planes := decide (2 ≤ x.n) && decide (x.n ≤ 8) && decide (2 ≤ x.k) && decide (x.k ≤ x.n) && decide (x.lb ≤ 3) &&
    decide (x.off ≤ 7) && (!bitAt x.flags 2 || decide (x.scale.toNat < 2 ^ 32)) && x.spitch % 2 == 0 && x.pitch % 8 == 0 &&
    decide (x.pitch / 8 ≤ x.pstride)
  if common && ((x.kind == 0 && plain) || (x.kind == 1 && planes)) then some x else none

/-- The two operands of a format block; none for an illegal format block (R305). -/
def ovenFormats (b : List Byte) : Option (OvenFormat × OvenFormat) :=
  match ovenFormat (b.take 32), ovenFormat (b.drop 32) with
  | some x, some y => if x.kind = y.kind ∧ x.lb = y.lb then some (x, y) else none
  | _, _ => none

/-- Data, and scales, in team memory. -/
def OvenFormat.dt (f : OvenFormat) : Bool := bitAt f.flags 1
def OvenFormat.st (f : OvenFormat) : Bool := bitAt f.flags 2

/-- The block length L; 32 for `bf16` (R307, R309). -/
def OvenFormat.unit (f : OvenFormat) : Nat := if f.kind = 0 then 32 else 16 * 2 ^ f.lb

/-- D: K steps of a tile (R307). -/
def tileSteps (a b : OvenFormat) : Nat :=
  if a.kind = 0 then 64 else if max a.k b.k ≤ 2 then 512 else if max a.k b.k ≤ 4 then 256 else 128

/-- Cycles of a tile's class, which are the tokens it takes (R299). -/
def tileCycles (a : OvenFormat) : Nat := if a.kind = 0 then 32 else 16

/-! ## Operand rows (R304, R307) -/

/-- n bytes of an operand, from team memory or from memory; the sub-cause of the fault that stops the read. -/
def State.ovenBytes (s : State) (c : Cmd) (team : Bool) (addr n : Nat) : State × Except Nat (List Byte) :=
  if team then
    if addr + n ≤ ((s.team? c.team).map (·.launch.tmem)).getD 0 then (s, .ok (s.teamSource c addr n)) else (s, .error 0x07)
  else
    match s.stream c (addr % 2 ^ 64) n with
    | (s, _, some f) => (s, .error f.sub)
    | (s, bs, none) => (s, .ok bs)

/-- Read several ranges one after another. -/
def State.ovenRanges (s : State) (c : Cmd) (team : Bool) (l : List (Nat × Nat)) : State × Except Nat (List (List Byte)) :=
  l.foldl (fun (acc : State × Except Nat (List (List Byte))) x =>
    match acc with
    | (s, .error f) => (s, .error f)
    | (s, .ok rows) =>
      match s.ovenBytes c team x.1 x.2 with
      | (s, .error f) => (s, .error f)
      | (s, .ok bs) => (s, .ok (rows ++ [bs]))) (s, .ok [])

/-- A row of an operand from element ka on: `bf16` codes, or integer values with the `bf16` scales of their blocks. -/
structure OperandRow where
  codes : List Nat
  vals : List Int
  scales : List Nat
  deriving DecidableEq, Repr

/-- Elements ka to ka + n - 1 of row q. -/
def State.operandRow (s : State) (c : Cmd) (f : OvenFormat) (base : Nat) (q ka n : Nat) : State × Except Nat OperandRow :=
  let row := base + q * (f.pitch / 8)
  if f.kind = 0 then
    match s.ovenBytes c f.dt (row + 2 * ka) (2 * n) with
    | (s, .error x) => (s, .error x)
    | (s, .ok bs) => (s, .ok ⟨(List.range n).map fun i => fieldOf bs (2 * i) 2, [], []⟩)
  else
    let first := (f.off + ka) / 8
    let last := (f.off + ka + n - 1) / 8
    match s.ovenRanges c f.dt ((List.range f.k).map fun p => (row + p * f.pstride + first, last - first + 1)) with
    | (s, .error x) => (s, .error x)
    | (s, .ok planes) =>
      let d : PlaneDesc := ⟨0, 0, n, 0, 0, f.n, f.k, (f.off + ka) % 8, bitAt f.flags 0⟩
      let j0 := ka / f.unit
      let j1 := (ka + n - 1) / f.unit
      match s.ovenBytes c f.st (f.scale.toNat + q * f.spitch + 2 * j0) (2 * (j1 - j0 + 1)) with
      | (s, .error x) => (s, .error x)
      | (s, .ok bs) =>
        (s, .ok ⟨[], (List.range n).map fun i => d.multiplier (d.code planes i),
          (List.range (j1 - j0 + 1)).map fun i => fieldOf bs (2 * i) 2⟩)

def State.operandRows (s : State) (c : Cmd) (f : OvenFormat) (base : Nat) (rows : List Nat) (ka n : Nat) :
    State × Except Nat (List OperandRow) :=
  rows.foldl (fun (acc : State × Except Nat (List OperandRow)) q =>
    match acc with
    | (s, .error x) => (s, .error x)
    | (s, .ok l) =>
      match s.operandRow c f base q ka n with
      | (s, .error x) => (s, .error x)
      | (s, .ok r) => (s, .ok (l ++ [r]))) (s, .ok [])

/-! ## Sums (R308 to R311) -/

/-- RNE32: nearest-even, subnormals kept. -/
def rneMode : FMode := ⟨0, 0, false⟩

/-- The conditions that the Oven reports: NV and OF (R311). -/
def ovenFlags (f : BitVec 6) : BitVec 6 := f &&& (flagNv ||| flagOf)

/-- The exact sum of finite products, as an integer at an exponent. -/
def exactSum (l : List FVal) : Int × Int :=
  let low := l.foldl (fun m v => match v with | .fin _ _ e => min m e | _ => m) (0 : Int)
  (l.foldl (fun s v => match v with | .fin neg m e => s + alignTo neg m e low | _ => s) 0, low)

def isInf (neg : Bool) (v : FVal) : Bool :=
  match v with
  | .inf a => a == neg
  | _ => false

/-- Partial of a sum unit of `bf16` products (R309). -/
def partialBf16 (xs ys : List Nat) : Nat × BitVec 6 :=
  let dec := fun n => FFormat.bf16.decode n
  let prods := (xs.zip ys).map fun p => if (dec p.1).isNan || (dec p.2).isNan then none else (dec p.1).product (dec p.2)
  let vals := prods.filterMap id
  if prods.any (·.isNone) then (FFormat.f32.defaultNan, flagNv)
  else if vals.any (isInf false) && vals.any (isInf true) then (FFormat.f32.defaultNan, flagNv)
  else if vals.any (isInf false) then (FFormat.f32.inf false, 0)
  else if vals.any (isInf true) then (FFormat.f32.inf true, 0)
  else
    let e := exactSum vals
    FFormat.f32.roundDyadic rneMode e.1 e.2 false

/-- Partial of a block of plane integers with the scales of both operands (R310). -/
def partialPlanes (xs ys : List Int) (sa sb : Nat) : Nat × BitVec 6 :=
  let sum := (xs.zip ys).foldl (fun s p => s + p.1 * p.2) 0
  let a := FFormat.bf16.decode sa
  let b := FFormat.bf16.decode sb
  let v : FVal := .fin (decide (sum < 0)) sum.natAbs 0
  if a.isNan || b.isNan then (FFormat.f32.defaultNan, flagNv)
  else
    match (a.product b).bind fun ab => v.product ab with
    | none => (FFormat.f32.defaultNan, flagNv)
    | some (.inf neg) => (FFormat.f32.inf neg, 0)
    | some (.fin neg m e) => FFormat.f32.roundDyadic rneMode (alignTo neg m e e) e false
    | some (.nan _ _ _) => (FFormat.f32.defaultNan, flagNv)

/-- The elements of a row that fall into sum unit j, for a tile that begins at element ka. -/
def unitPart {α : Type} (l : List α) (unit ka j : Nat) : List α :=
  let lo := max (unit * j) ka - ka
  (l.drop lo).take (unit * (j + 1) - max (unit * j) ka)

/-- Partial of unit j of a tile. -/
def unitPartial (f : OvenFormat) (ka j : Nat) (x y : OperandRow) : Nat × BitVec 6 :=
  if f.kind = 0 then partialBf16 (unitPart x.codes 32 ka j) (unitPart y.codes 32 ka j)
  else
    let i := j - ka / f.unit
    partialPlanes (unitPart x.vals f.unit ka j) (unitPart y.vals f.unit ka j) (x.scales.getD i 0) (y.scales.getD i 0)

/-- Add a tile's units, ascending, to an element (R308): the element and the conditions. -/
def addUnits (f : OvenFormat) (ka n : Nat) (x y : OperandRow) (e : Nat) : Nat × BitVec 6 :=
  let j0 := ka / f.unit
  let j1 := (ka + n - 1) / f.unit
  ((List.range (j1 + 1)).drop j0).foldl (fun (acc : Nat × BitVec 6) j =>
    let p := unitPartial f ka j x y
    let r := fadd .f32 rneMode acc.1 p.1
    (r.1, acc.2 ||| ovenFlags p.2 ||| ovenFlags r.2)) (e, 0)

/-! ## Accumulator elements (R300) -/

/-- The key of element (row, column) of captured banks. -/
def accKey (banks : List Nat) (row col : Nat) : Nat := banks.getD (row / 16) 0 * 1024 + row % 16 * 64 + col

def Oven.element (o : Oven) (key : Nat) : Word := ((o.acc.find? (·.1 == key)).map (·.2)).getD 0

/-- Write an element; +0 is not listed, and keys rise. -/
def accSet (l : List (Nat × Word)) (k : Nat) (v : Word) : List (Nat × Word) :=
  let rest := l.filter (·.1 != k)
  if v = 0 then rest else rest.takeWhile (fun x => decide (x.1 < k)) ++ (k, v) :: rest.dropWhile (fun x => decide (x.1 < k))

def Oven.setElement (o : Oven) (key : Nat) (v : Word) : Oven := { o with acc := accSet o.acc key v }

/-- `f32` to `bf16`, nearest-even, without flags (R317). -/
def toBf16 (v : Word) : Nat := (fconvert .f32 .bf16 rneMode v.toNat).1

end Sys2Proof.Machine
end

