-- ==== Sys2Proof/Machine/Oven.lean ====
section
/-! DEFINITION. Oven and accumulator instructions, function codes 0x20 to 0x2F, the turns of the Oven, and COPY.OV (15 R295
to R326, 12 R244). -/

namespace Sys2Proof.Machine

/-! ## Queues (R296, R297) -/

def State.ovenOf (s : State) (cluster : Nat) : Oven := (s.clusterRec cluster).oven

def State.onOven (s : State) (cluster : Nat) (f : Oven → Oven) : State :=
  let cl := s.clusterRec cluster
  s.putCluster { cl with oven := f cl.oven }

def Oven.queueOf (o : Oven) (gid : Nat) : Option OvenQueue := o.queues.find? (·.gid == gid)

/-- The lowest queue number that is not bound. -/
def Oven.freeQueue (o : Oven) : Option Nat := (List.range 64).find? fun n => !o.queues.any (·.num == n)

/-- Bind a group to a queue; false when none is free. -/
def State.bindQueue (s : State) (cluster gid : Nat) : State × Bool :=
  let o := s.ovenOf cluster
  let o := { o with queues := o.queues.filter s.bound }
  let s := s.onOven cluster fun _ => o
  match o.queueOf gid with
  | some _ => (s, true)
  | none =>
    match o.freeQueue with
    | none => (s, false)
    | some n =>
      let q : OvenQueue :=
        { num := n, gid, cmds := [], fmt := none, aBase := none, bBase := none, idx := none, cond := 0
          waited := [0, 0, 0, 0], counted := [] }
      (s.onOven cluster fun o => { o with queues := o.queues ++ [q] }, true)

/-- Put a command at the tail of its group's queue. -/
def State.enqueue (s : State) (cluster gid k : Nat) : State :=
  s.onOven cluster fun o =>
    { o with queues := updateWhere (·.gid == gid) (fun (q : OvenQueue) => { q with cmds := q.cmds ++ [k] }) o.queues }

/-! ## Forms and values (R312, R313) -/

/-- A form whose reply is of any kind. -/
def ovenForm (func : Nat) (a b : BitVec 8) (r : BitVec 7) (ka kb : Kind) : Form := coForm func a b r (.reply 1) ka kb

/-- The reply must be a `g` register; or, with `none'`, may be absent; or, with `t`, a `t` register. -/
def Form.needReply (f : Form) (r : BitVec 7) (t none' : Bool) : Form :=
  let n := r.toNat
  { f with bad3 := !((t || decide (0x40 ≤ n)) && (none' || decide (n < 0x7F))) }

/-- A tile control word and K word (Table 15.5). -/
structure TileWord where
  ix : Bool
  z : Bool
  n : Nat
  m : Nat
  rowb : Nat
  name : Nat
  k0 : Nat
  klen : Nat
  deriving DecidableEq, Repr

def tileWord (ctl k : Word) : TileWord :=
  let c := ctl.toNat
  ⟨bitAt c 19, bitAt c 18, bits c 12 6 + 1, bits c 6 6 + 1, bits c 4 2, bits c 0 4, bits k.toNat 16 16, bits k.toNat 0 16⟩

def tileBad (ctl k : Word) : Bool := bits ctl.toNat 20 12 != 0 || bits k.toNat 0 16 == 0

/-- An accumulator control word (Table 15.6). -/
structure AccWord where
  cv : Bool
  dt : Bool
  nc : Nat
  c0 : Nat
  nr : Nat
  row : Nat
  name : Nat
  deriving DecidableEq, Repr

def accWord (w : Word) : AccWord :=
  let c := w.toNat
  ⟨bitAt c 29, bitAt c 28, bits c 22 6 + 1, bits c 16 6, bits c 10 6 + 1, bits c 4 6, bits c 0 4⟩

/-- The control word breaks Table 15.6 for a command. -/
def accBad (func : Nat) (w : Word) : Bool :=
  let x := accWord w
  bits w.toNat 30 2 != 0 || decide (64 < x.c0 + x.nc) || (x.cv && (func == 0x2A || func == 0x2C)) ||
    (x.dt && (func == 0x2A || func == 0x2B)) || (func == 0x2B && (x.nr != 1 || x.nc != 1))

/-- The banks that a name of a team maps to. -/
def Oven.banksOf (o : Oven) (team name : Nat) : List Nat :=
  ((o.maps.find? (·.team == team)).map fun m => m.names.getD name []).getD []

/-- DETAIL of the accumulator fault when rows from `row` to `row + n - 1` are needed; none when they are mapped (R302). -/
def accFault (banks : List Nat) (name row n : Nat) : Option Nat :=
  let mapped := 16 * banks.length
  if row + n ≤ mapped then none else some (name + max row mapped * 2 ^ 8 + banks.length * 2 ^ 16)

/-! ## Issue of queued commands -/

/-- The t copies that an ACC.RD marked empty are full again with the values they held, in per-thread form (R296, 04 R71). -/
def Ctx.refill (c : Ctx) (reply : Reply) (g : Group) : Group :=
  match reply with
  | .t n =>
    if c.active == 0 then g
    else g.onArch (·.onT n fun r =>
      .perThread ((List.range c.width).map fun i => if inMask c.active i then ((r.at i).1, true) else r.at i))
  | _ => g

/-- A command that found no queue free enters the open commands complete with NOQUEUE (R296). -/
def State.issueNoQueue (s : State) (c : Ctx) (cmd : Cmd) : State :=
  let done : Cmd := { cmd with phase := .done, status := statusWord Status.noqueue, replied := true }
  let s := { s with nextId := max s.nextId (cmd.id + 1), cmds := s.cmds ++ [done] }
  let s := s.onGroup c.g.id fun g => { g.advance with opens := g.opens ++ [cmd.id] }
  if cmd.func = 0x2B then s.onGroup c.g.id (c.refill cmd.reply)
  else s.landAll c.g.id c.g.super (cmd.reply.writes c.width 0 (statusWord Status.noqueue))

/-- The copies that a command will write are marked empty: those of Active for ACC.RD (R317). -/
def Ctx.markOven (c : Ctx) (func : Nat) (reply : Reply) (g : Group) : Group :=
  if func = 0x2B then
    match reply with
    | .t n => g.onArch (·.onT n (Ranked.markEmpty c.width c.active))
    | r => g.markReply c.width r 1
  else g.markReply c.width reply 1

/-- The tile of a COPY.OV that has moved its last byte, and that the group's 16 queued commands keep out of the queue: the
group's later commands follow it (R323). -/
def State.followWaits (s : State) (c : Cmd) : Option Nat :=
  if c.phase == .finishing && c.status == 0 then c.follow.filter fun k => (s.cmd? k).any (·.phase == .dormant) else none

/-- Issue a queued command: it stalls at 16, and binds the group. -/
def State.issueOven (s : State) (c : Ctx) (mk : Nat → Cmd) : State :=
  if 16 ≤ s.running c.g.id 4 || (s.cmds.any fun x => x.gid == c.g.id && (s.followWaits x).isSome) then s
  else
    let cl := s.clusterOf c.g
    match (s.flush c.g).bindQueue cl c.g.id with
    | (s, false) => s.issueNoQueue c (mk s.nextId)
    | (s, true) =>
      let cmd := mk s.nextId
      let s := { s with nextId := s.nextId + 1, cmds := s.cmds ++ [cmd] }
      let s := s.enqueue cl c.g.id cmd.id
      s.onGroup c.g.id fun g => { (c.markOven cmd.func cmd.reply g).advance with opens := g.opens ++ [cmd.id] }

/-- A command of this group with its operands. -/
def Ctx.ovenCmd (c : Ctx) (s : State) (func : Nat) (a : DWord) (b : List Word) (r : BitVec 7) (id : Nat) : Cmd :=
  Cmd.new id c (s.clusterOf c.g) func a b (replyOf r.toNat)

/-- Issue a command that captures the banks of a name, or take the accumulator fault. -/
def Ctx.capture (c : Ctx) (f : Form) (name row n : Nat) (mk : Nat → Cmd) (s : State) : State :=
  let banks := (s.ovenOf (s.clusterOf c.g)).banksOf c.tm.id name
  match accFault banks name row n with
  | some detail => c.trap f s 0x05 0x03 detail
  | none => s.issueOven c fun id => { mk id with banks }

/-- The team-memory read of OV.FMT and OV.IDX, with its faults (R305). -/
def Ctx.readBlock (c : Ctx) (f : Form) (off n : Nat) (go : List Byte → State → State) (s : State) : State :=
  let bad := if off % 8 ≠ 0 then some 0x06 else if c.tm.launch.tmem < off + n then some 0x07 else none
  match bad with
  | some sub => c.park f { kind := 0, width := 0, whole := true } [(0, off, .plain sub)] [(0, dwordOf off)] [] 0 s
  | none => go (s.view c.g s.nextId (.team c.tm.id off) n) s

def execOvFmt (a : BitVec 8) (r : BitVec 7) (s : State) : Host.Outcome State Fault Refusal :=
  let f := ovenForm 0x20 a 0 r .uniform .unused
  s.issue f (reads := Ctx.replyReads) (body := fun c s =>
    let off := (c.read c.a 0).toNat
    c.readBlock f off 64 (fun bs s =>
      if (ovenFormats bs).isNone then c.trap f s 0x07 0x04 0
      else s.issueOven c fun id => { c.ovenCmd s 0x20 (dwordOf off) [] r id with block := bs }) s)

/-- OV.A and OV.B. -/
def baseBody (func : Nat) (r : BitVec 7) (c : Ctx) (s : State) : State :=
  s.issueOven c (c.ovenCmd s func (dwordOf (c.readPair c.a 0)) [] r)

def execOvA (a : BitVec 8) (r : BitVec 7) (s : State) : Host.Outcome State Fault Refusal :=
  s.issue (ovenForm 0x21 a 0 r .va .unused) (baseBody 0x21 r) (reads := Ctx.replyReads)

def execOvB (a : BitVec 8) (r : BitVec 7) (s : State) : Host.Outcome State Fault Refusal :=
  s.issue (ovenForm 0x22 a 0 r .va .unused) (baseBody 0x22 r) (reads := Ctx.replyReads)

def execOvIdx (a : BitVec 8) (r : BitVec 7) (s : State) : Host.Outcome State Fault Refusal :=
  let f := ovenForm 0x23 a 0 r .uniform .unused
  s.issue f (reads := Ctx.replyReads) (body := fun c s =>
    let off := (c.read c.a 0).toNat
    if off = 0xFFFFFFFF then s.issueOven c (c.ovenCmd s 0x23 (dwordOf off) [] r)
    else c.readBlock f off 128 (fun bs s =>
      s.issueOven c fun id => { c.ovenCmd s 0x23 (dwordOf off) [] r id with block := bs }) s)

def ovTileForm (func : Nat) (a b : BitVec 8) (r : BitVec 7) : Form := ovenForm func a b r .uniform .uniform

/-- OV.TILE and OV.CHAIN (R315). -/
def tileBody (func : Nat) (f : Form) (r : BitVec 7) (c : Ctx) (s : State) : State :=
  let ctl := c.read c.a 0
  let k := c.read c.b 0
  if tileBad ctl k then c.trap f s 0x07 0x04 0
  else
    let t := tileWord ctl k
    c.capture f t.name (16 * t.rowb) t.m (c.ovenCmd s func (dwordOf ctl.toNat) [k] r) s

def execOvTile (a b : BitVec 8) (r : BitVec 7) (s : State) : Host.Outcome State Fault Refusal :=
  let f := ovTileForm 0x24 a b r
  s.issue f (tileBody 0x24 f r) (reads := Ctx.replyReads)

def execOvChain (a b : BitVec 8) (r : BitVec 7) (s : State) : Host.Outcome State Fault Refusal :=
  let f := ovTileForm 0x25 a b r
  s.issue f (tileBody 0x25 f r) (reads := Ctx.replyReads)

/-- ACC.ZERO, ACC.WR and ACC.ST (R316, R317). -/
def accBody (func n : Nat) (f : Form) (r : BitVec 7) (c : Ctx) (s : State) : State :=
  let w := c.read c.a 0
  if accBad func w then c.trap f s 0x07 0x04 0
  else
    let x := accWord w
    c.capture f x.name x.row x.nr (c.ovenCmd s func (dwordOf w.toNat) (c.block n) r) s

def execAccZero (a : BitVec 8) (r : BitVec 7) (s : State) : Host.Outcome State Fault Refusal :=
  let f := ovenForm 0x2A a 0 r .uniform .unused
  s.issue f (accBody 0x2A 0 f r) (reads := Ctx.replyReads)

def execAccWr (a b : BitVec 8) (r : BitVec 7) (s : State) : Host.Outcome State Fault Refusal :=
  let f := ovenForm 0x2C a b r .uniform (.blockVa 3)
  s.issue f (accBody 0x2C 3 f r) (reads := Ctx.replyReads)

def execAccSt (a b : BitVec 8) (r : BitVec 7) (s : State) : Host.Outcome State Fault Refusal :=
  let f := ovenForm 0x2D a b r .uniform (.blockVa 3)
  s.issue f (accBody 0x2D 3 f r) (reads := Ctx.replyReads)

/-- The highest thread of a mask. -/
def highest (m : DWord) : Nat := (threadsOf m).foldl (fun _ i => i) 0

def execAccRd (a : BitVec 8) (r : BitVec 7) (s : State) : Host.Outcome State Fault Refusal :=
  let f := (ovenForm 0x2B a 0 r .uniform .unused).needReply r true false
  s.issue f (fun c s =>
    let w := c.read c.a 0
    let x := accWord w
    if accBad 0x2B w || (decide (r.toNat < 0x40) && decide (63 < x.c0 + highest c.active)) then c.trap f s 0x07 0x04 0
    else c.capture f x.name x.row 1 (c.ovenCmd s 0x2B (dwordOf w.toNat) [] r) s)

/-! ## Commands that act at once (R318 to R320) -/

def execOvStat (a : BitVec 8) (r : BitVec 7) (s : State) : Host.Outcome State Fault Refusal :=
  let f := (ovenForm 0x26 a 0 r .uniform .unused).needReply r false false
  s.issue f fun c s =>
    let q := (s.ovenOf (s.clusterOf c.g)).queueOf c.g.id
    let num := (q.map (·.num)).getD 0xFF
    let cond := (q.map (·.cond)).getD 0
    let v := s.running c.g.id 4 * 2 ^ 16 + num * 2 ^ 8 + cond.toNat
    let clear := BitVec.ofNat 6 (c.read c.a 0).toNat
    let s := s.onOven (s.clusterOf c.g) fun o =>
      { o with queues := updateWhere (·.gid == c.g.id) (fun (q : OvenQueue) => { q with cond := q.cond &&& ~~~ clear }) o.queues }
    c.answer [wordOf v] s

def execOvToken (a : BitVec 8) (r : BitVec 7) (s : State) : Host.Outcome State Fault Refusal :=
  let f := (ovenForm 0x27 a 0 r .uniform .unused).needReply r false false
  s.issue f fun c s =>
    let n := (c.read c.a 0).toNat
    if 4 ≤ n then c.trap f s 0x07 0x04 0
    else
      let o := s.ovenOf (s.clusterOf c.g)
      let waited := ((o.queueOf c.g.id).map fun q => q.waited.getD n 0).getD 0
      c.answer [wordOf (sat (o.tokens.getD n 0 / 64) 0xFFFF * 2 ^ 16 + sat waited 0xFFFF)] s

/-- The commands on a cluster that are not complete; those of a removed context are with it (R303). -/
def State.pendingOn (s : State) (cluster : Nat) : List Cmd :=
  s.cmds.filter fun c => !c.isDone && c.cluster == cluster && !s.stoppedCtx c.ctx

/-- Draining banks of a cluster whose commands have completed return to the free pool (R301). -/
def State.drained (s : State) (cluster : Nat) : Oven :=
  let o := s.ovenOf cluster
  { o with draining := o.draining.filter fun d => (s.pendingOn cluster).any fun c => c.banks.contains d.2.2 }

/-- Banks that are neither mapped nor draining. -/
def Oven.freeBanks (o : Oven) : List Nat :=
  let taken := o.maps.flatMap (fun m => m.names.flatten) ++ o.draining.map (·.2.2)
  (List.range 256).filter fun b => !taken.contains b

/-- Map a name of a team to banks; its old banks drain. -/
def Oven.remap (o : Oven) (team name : Nat) (banks : List Nat) : Oven :=
  let old := o.banksOf team name
  let put (m : NameMap) : NameMap := { m with names := m.names.set name banks }
  { o with
    draining := o.draining ++ old.map fun b => (team, name, b)
    maps := updateWhere (·.team == team) put o.maps
    acc := o.acc.filter fun x => !banks.contains (x.1 / 1024) }

/-- Reply at once, if there is one, and move on. -/
def Ctx.maybeAnswer (c : Ctx) (v : Word) (s : State) : State :=
  match c.d with
  | .g _ => c.answer [v] s
  | _ => s.onGroup c.g.id fun g => g.advance

def execAccAlloc (a b : BitVec 8) (r : BitVec 7) (s : State) : Host.Outcome State Fault Refusal :=
  let f := (ovenForm 0x28 a b r .uniform .uniform).needReply r false true
  s.issue f fun c s =>
    let name := (c.read c.a 0).toNat
    let n := (c.read c.b 0).toNat
    if 16 ≤ name ∨ n = 0 ∨ 4 < n then c.trap f s 0x07 0x04 0
    else
      let cl := s.clusterOf c.g
      let o := s.drained cl
      let has := o.maps.any (·.team == c.tm.id)
      let held := ((o.maps.find? (·.team == c.tm.id)).map fun m => m.names.flatten.length).getD 0
      let others := held - (o.banksOf c.tm.id name).length
      if o.freeBanks.length < n ∨ 64 < others + n ∨ (!has ∧ 64 ≤ o.maps.length) then
        c.maybeAnswer (statusWord Status.nobanks) s
      else
        let o1 := if has then o else { o with maps := o.maps ++ [⟨c.tm.id, List.replicate 16 []⟩] }
        let s := s.onOven cl fun _ => o1.remap c.tm.id name (o.freeBanks.take n)
        c.maybeAnswer (statusWord Status.done) s

def execAccFree (a : BitVec 8) (r : BitVec 7) (s : State) : Host.Outcome State Fault Refusal :=
  let f := (ovenForm 0x29 a 0 r .uniform .unused).needReply r false true
  s.issue f fun c s =>
    let name := (c.read c.a 0).toNat
    if 16 ≤ name then c.trap f s 0x07 0x04 0
    else
      let cl := s.clusterOf c.g
      let s := s.onOven cl fun _ => (s.drained cl).remap c.tm.id name []
      c.maybeAnswer (statusWord Status.done) s

def execAccMap (a : BitVec 8) (r : BitVec 7) (s : State) : Host.Outcome State Fault Refusal :=
  let f := (ovenForm 0x2F a 0 r .uniform .unused).needReply r false false
  s.issue f fun c s =>
    let name := (c.read c.a 0).toNat
    if 16 ≤ name then c.trap f s 0x07 0x04 0
    else
      let o := s.drained (s.clusterOf c.g)
      let banks := o.banksOf c.tm.id name
      let users := ((s.pendingOn (s.clusterOf c.g)).filter fun x => x.banks.any banks.contains).length
      let mine := (o.draining.filter (·.1 == c.tm.id)).length
      c.answer [wordOf (banks.length + sat users 255 * 2 ^ 8 + sat mine 255 * 2 ^ 16 + sat o.freeBanks.length 255 * 2 ^ 24)] s

def execAccDrain (a b : BitVec 8) (r : BitVec 7) (s : State) : Host.Outcome State Fault Refusal :=
  let f := (ovenForm 0x2E a b r .uniform .deadline).needReply r false false
  s.issue f fun c s => c.waiting s fun s =>
    let name := (c.read c.a 0).toNat
    if 16 ≤ name then c.trap f s 0x07 0x04 0
    else c.armed f s fun dl s =>
      let entered := (s.cmds.filter fun x => x.team == c.tm.id && funcClass x.func == 4 && !x.isDone && x.phase != .dormant).map (·.id)
      s.beginWait c.g (.drain name entered) c.dreg [(c.dreg, statusWord Status.timeout)] dl

/-! ## Turns of the Oven (R298, R299, R307, R324) -/

/-- The stripes that a tile's N columns touch. -/
def stripesOf (n : Nat) : List Nat := List.range ((n + 15) / 16)

def Cmd.tile (c : Cmd) : TileWord := tileWord (wordOf c.a.toNat) (c.b.getD 0 0)

/-- The tile command cannot run with its queue's setup (R307). -/
def tileUnready (q : OvenQueue) (c : Cmd) : Bool :=
  let t := c.tile
  match q.fmt, q.aBase, q.bBase with
  | some (fa, fb), some _, some _ =>
    (t.ix && (q.idx.isNone || !fa.dt)) || t.k0 % fa.unit != 0 || (c.func == 0x24 && decide (tileSteps fa fb < t.klen))
  | _, _, _ => true

def Cmd.isTile (c : Cmd) : Bool := c.func == 0x24 || c.func == 0x25

/-- The stripes of the head tile that are short of tokens; none for other commands. -/
def Oven.short (o : Oven) (q : OvenQueue) (c : Cmd) : List Nat :=
  match q.fmt with
  | some (fa, _) =>
    if c.isTile && !tileUnready q c then
      (stripesOf c.tile.n).filter fun k => decide (o.tokens.getD k 0 < 64 * tileCycles fa)
    else []
  | none => []

/-- The head command of a queue. -/
def State.headOf (s : State) (q : OvenQueue) : Option Cmd := q.cmds.head?.bind s.cmd?

/-- The head command can start: its stripes hold enough tokens, and the team whose memory it writes is placed. -/
def State.canStart (s : State) (o : Oven) (q : OvenQueue) : Bool :=
  match s.headOf q with
  | none => false
  | some c => (o.short q c).isEmpty && (!c.writesTeam || (s.team? c.team).any (·.holds))

/-- The queue of the next turn: circular ascending after the one served last. -/
def State.nextTurn (s : State) (o : Oven) : Option OvenQueue :=
  leastBy (fun (q : OvenQueue) => (q.num + 63 - o.last) % 64) (o.queues.filter (s.canStart o))

/-- Count the head tiles that wait on short stripes, each once on a stripe (R319). -/
def State.countWaits (s : State) (o : Oven) : Oven :=
  { o with queues := o.queues.map fun q =>
      match s.headOf q with
      | none => q
      | some c =>
        let due := (o.short q c).filter fun k => !q.counted.contains k
        { q with
          counted := q.counted ++ due
          waited := (List.range 4).map fun k => q.waited.getD k 0 + if due.contains k then 1 else 0 } }

/-- Every tile that now waits is counted. -/
def State.settleOvens (s : State) : State :=
  { s with clusters := s.clusters.map fun (cl : Cluster) => { cl with oven := s.countWaits cl.oven } }

/-- The head command leaves its queue, complete. -/
def State.popOven (s : State) (c : Cmd) : State :=
  let out := fun (q : OvenQueue) => { q with cmds := q.cmds.filter (· != c.id), counted := [] }
  s.onOven c.cluster fun o => { o with queues := updateWhere (·.gid == c.gid) out o.queues }

/-- A queued command completes with a status, sub-cause and progress. -/
def State.endOven (s : State) (c : Cmd) (st sub progress : Nat) : State :=
  let c := { c with status := statusWord st, sub := wordOf sub, progress := wordOf progress }
  (s.popOven c).completeCmd c c.status

/-- Change the queue of a command's group. -/
def State.onQueue (s : State) (c : Cmd) (f : OvenQueue → OvenQueue) : State :=
  s.onOven c.cluster fun o => { o with queues := updateWhere (·.gid == c.gid) f o.queues }

/-- Tiles of a command. -/
def tileCount (t : TileWord) (d : Nat) : Nat := (t.klen + d - 1) / d

/-- Take a tile's tokens. -/
def Oven.spend (o : Oven) (n cycles : Nat) : Oven :=
  { o with tokens := (List.range 4).map fun k =>
      o.tokens.getD k 0 - if (stripesOf n).contains k then 64 * cycles else 0 }

/-- Add tile t into the captured banks: every element is read, summed and written. -/
def Oven.addTile (o : Oven) (banks : List Nat) (t : TileWord) (fa : OvenFormat) (first : Bool) (ka n : Nat)
    (xs ys : List OperandRow) : Oven × BitVec 6 :=
  (xs.zipIdx).foldl (fun acc x =>
    (ys.zipIdx).foldl (fun (acc : Oven × BitVec 6) y =>
      let key := accKey banks (16 * t.rowb + x.2) y.2
      let e := if first && t.z then 0 else (acc.1.element key).toNat
      let r := addUnits fa ka n x.1 y.1 e
      (acc.1.setElement key (wordOf r.1), acc.2 ||| r.2)) acc) (o, 0)

/-- One tile of a command (R308). DEDUCED (log 58, unsafe). -/
def State.runTile (s : State) (c : Cmd) (q : OvenQueue) (fa fb : OvenFormat) (aBase bBase : DWord) : State :=
  let t := c.tile
  let d := tileSteps fa fb
  let ka := t.k0 + c.next * d
  let n := min d (t.klen - c.next * d)
  let s := s.onOven c.cluster fun o => o.spend t.n (tileCycles fa)
  let s := s.onQueue c fun q => { q with counted := [] }
  let rows := (List.range t.m).map fun r => if t.ix then ((q.idx.getD []).getD r 0).toNat else r
  match s.operandRows c fa aBase.toNat rows ka n with
  | (s, .error sub) => s.endOven c Status.faulted sub c.next
  | (s, .ok xs) =>
    match s.operandRows c fb bBase.toNat (List.range t.n) ka n with
    | (s, .error sub) => s.endOven c Status.faulted sub c.next
    | (s, .ok ys) =>
      let r := (s.ovenOf c.cluster).addTile c.banks t fa (c.next == 0) ka n xs ys
      let s := s.onOven c.cluster fun _ => r.1
      let s := s.onQueue c fun q => { q with cond := q.cond ||| r.2 }
      let c := { c with next := c.next + 1, cond := c.cond ||| r.2 }
      if c.next < tileCount t d then s.putCmd c
      else if c.cond = 0 then s.endOven c Status.done 0 0
      else s.endOven c Status.ovcond 0 c.cond.toNat

/-- Elements of a row of an accumulator word. -/
def AccWord.cols (x : AccWord) : List Nat := (List.range x.nc).map (x.c0 + ·)

/-- The address of row i of ACC.WR and ACC.ST. -/
def rowAddress (c : Cmd) (i : Nat) : Int :=
  let base : Int := pairOf (c.b.getD 0 0) (c.b.getD 1 0)
  base + i * (c.b.getD 2 0).toInt

/-- ACC.WR (R317): rows from i on. -/
def State.accWrite (s : State) (c : Cmd) (x : AccWord) : Nat → Nat → State
  | 0, _ => s.endOven c Status.done 0 0
  | n + 1, i =>
    let addr := rowAddress c i
    let read := if x.dt ∧ addr < 0 then (s, .error 0x07) else s.ovenBytes c x.dt (wrap addr 64) (4 * x.nc)
    match read with
    | (s, .error sub) => s.endOven c Status.faulted sub i
    | (s, .ok bs) =>
      let s := s.onOven c.cluster fun o => (x.cols.zipIdx).foldl (fun o y =>
        o.setElement (accKey c.banks (x.row + i) y.1) (wordOf (fieldOf bs (4 * y.2) 4))) o
      accWrite s c x n (i + 1)

/-- The bytes of a row that ACC.ST writes. -/
def Oven.rowBytes (o : Oven) (c : Cmd) (x : AccWord) (i : Nat) : List Byte :=
  x.cols.flatMap fun col =>
    let v := o.element (accKey c.banks (x.row + i) col)
    if x.cv then bytesOf 2 (toBf16 v) else bytesOf 4 v.toNat

/-- ACC.ST (R317): rows from i on. -/
def State.accStore (s : State) (c : Cmd) (x : AccWord) : Nat → Nat → State
  | 0, _ => s.endOven c Status.done 0 0
  | n + 1, i =>
    let addr := rowAddress c i
    let bs := (s.ovenOf c.cluster).rowBytes c x i
    if x.dt then
      match s.team? c.team with
      | none => s.endOven c Status.done 0 0
      | some tm =>
        if addr < 0 ∨ (tm.launch.tmem : Int) < addr + bs.length then s.endOven c Status.faulted 0x07 i
        else if tm.meetsTag addr.toNat bs.length then s.endOven c Status.clobbered 0 i
        else accStore (s.onTeam c.team fun t => { t with mem := t.mem.write addr.toNat bs }) c x n (i + 1)
    else
      match s.engineWrite c.ctx c.core c.priv (wrap addr 64) bs (fullMask bs.length) with
      | (s, .error f) => s.endOven c Status.faulted f.sub i
      | (s, .ok _) => accStore s c x n (i + 1)

/-- ACC.RD (R317): the reply copies receive the elements. -/
def State.accRead (s : State) (c : Cmd) (x : AccWord) : State :=
  let o := s.ovenOf c.cluster
  let val := fun (col : Nat) =>
    let v := o.element (accKey c.banks x.row col)
    if x.cv then wordOf (toBf16 v) else v
  let ws : List (Target × Word) := match c.reply with
    | .none => []
    | .g n => [(.g n, val x.c0)]
    | .t n => (threadsOf c.active).map fun i => (.t n i, val (x.c0 + i))
  let s := (s.popOven c).putCmd { c with phase := .done, replied := true }
  (s.landAll c.gid (c.priv == 1) ws).wake c.gid

/-- Serve the head command of a queue: a setup, one tile, or a data command whole. -/
def State.serve (s : State) (c : Cmd) (q : OvenQueue) : State :=
  let x := accWord (wordOf c.a.toNat)
  match c.func with
  | 0x20 => (s.onQueue c fun q => { q with fmt := ovenFormats c.block }).endOven c Status.done 0 0
  | 0x21 => (s.onQueue c fun q => { q with aBase := some c.a }).endOven c Status.done 0 0
  | 0x22 => (s.onQueue c fun q => { q with bBase := some c.a }).endOven c Status.done 0 0
  | 0x23 =>
    let idx := if c.a.toNat = 0xFFFFFFFF then none
      else some ((List.range 64).map fun r => BitVec.ofNat 16 (fieldOf c.block (2 * r) 2))
    (s.onQueue c fun q => { q with idx := idx }).endOven c Status.done 0 0
  | 0x24 | 0x25 =>
    if tileUnready q c then s.endOven c Status.badcmd 0 0
    else
      match q.fmt, q.aBase, q.bBase with
      | some (fa, fb), some a, some b => s.runTile c q fa fb a b
      | _, _, _ => s.endOven c Status.badcmd 0 0
  | 0x2A =>
    let keys := (List.range x.nr).flatMap fun i => x.cols.map fun col => accKey c.banks (x.row + i) col
    (s.onOven c.cluster fun o => keys.foldl (fun o k => o.setElement k 0) o).endOven c Status.done 0 0
  | 0x2B => s.accRead c x
  | 0x2C => s.accWrite c x x.nr 0
  | 0x2D => s.accStore c x x.nr 0
  | _ => s.endOven c Status.done 0 0

/-- A turn of the Oven for a queue that is next. -/
def State.turn (s : State) (cluster num : Nat) : State :=
  let o := s.ovenOf cluster
  match s.nextTurn o with
  | none => s
  | some q =>
    if q.num ≠ num then s
    else
      match s.headOf q with
      | none => s
      | some c => (s.onOven cluster fun o => { o with last := num }).serve c q

/-! ## COPY.OV (12 R244, R323) -/

/-- The follow-on tile enters its queue when the copy's last byte has landed: bound then, or ended NOQUEUE. -/
def State.enterFollow (s : State) (c : Cmd) (k : Nat) : State :=
  let s := s.onCmd k fun d => { d with phase := .issued, reply := c.reply }
  match s.bindQueue c.cluster c.gid with
  | (s, true) => s.enqueue c.cluster c.gid k
  | (s, false) =>
    match s.cmd? k with
    | none => s
    | some d =>
      let d := { d with status := statusWord Status.noqueue }
      s.completeCmd d d.status

/-- The follow-on command is never issued: it leaves its batch. -/
def State.dropFollow (s : State) (c : Cmd) (k : Nat) : State :=
  let drop (l : List Nat) : List Nat := l.filter (· != k)
  let bt (b : Batch) : Batch := { b with cmds := drop b.cmds }
  { s with
    cmds := s.cmds.filter (·.id != k)
    groups := updateWhere (·.id == c.gid) (fun (g : Group) => { g with opens := drop g.opens, batches := g.batches.map bt }) s.groups }

/-- The follow-on tile of a copy that has moved its last byte enters its queue, unless its group holds 16 queued commands: it
then stalls (R297, R323). -/
def State.landFollow (s : State) (c : Cmd) : State :=
  match s.followWaits c with
  | some k => if s.running c.gid 4 < 16 then s.enterFollow c k else s
  | none => s

/-- Tiles that wait for room in their queue enter it. -/
def State.settleFollows (s : State) : State := s.cmds.foldl (fun s c => s.landFollow c) s

/-- Move a unit of a command; the tile of a COPY.OV follows its last byte. -/
def State.moveCopy (s : State) (c : Cmd) : State :=
  let s := s.moveUnit c
  match s.cmd? c.id with
  | none => s
  | some c => s.landFollow c

/-- A copy-engine command completes (12 R250). -/
def State.finishCopy (s : State) (c : Cmd) : State :=
  let c := s.cardStatus c.finalStatus
  let s := (s.closeCard c).clobberNamed c
  match c.follow with
  | none => s.completeCmd c c.status
  | some k =>
    if c.status = 0 then s.putCmd { c with phase := .done }
    else (s.dropFollow c k).completeCmd c c.status

/-- A copy completes once its follow-on tile, if it has one, is in its queue. -/
def State.mayFinishCopy (s : State) (c : Cmd) : Bool := c.phase == .finishing && (s.followWaits c).isNone

/-- The form of the Oven word that a COPY.OV carries. -/
def followForm (w : Word) : Form :=
  ovTileForm (bits w.toNat 23 7) (BitVec.ofNat 8 (bits w.toNat 15 8)) (BitVec.ofNat 8 (bits w.toNat 7 8)) 0x7F#7

/-- The word is OV.TILE or OV.CHAIN without a reply. -/
def followBad (w : Word) : Bool :=
  let n := w.toNat
  bits n 30 2 != 3 || !(bits n 23 7 == 0x24 || bits n 23 7 == 0x25) || bits n 0 7 != 0x7F

/-- Issue a COPY.OV with its follow-on tile, once every check of both has passed. -/
def State.issueFollow (s : State) (c : Ctx) (r : BitVec 7) (w ctl k : Word) (banks : List Nat) : State :=
  if 32 ≤ s.running c.g.id 3 then s
  else
    let id := s.nextId
    let copy := { Cmd.new id c (s.clusterOf c.g) 0x08 (dwordOf (c.readPair c.a 0)) (c.block 3) (replyOf r.toNat) with
      follow := some (id + 1) }
    let tile := { Cmd.new (id + 1) c (s.clusterOf c.g) (bits w.toNat 23 7) (dwordOf ctl.toNat) [k] .none with
      phase := .dormant, banks }
    let s := s.issueCmd c copy
    let s := { s with nextId := id + 2, cmds := s.cmds ++ [tile] }
    s.onGroup c.g.id fun g => { g with opens := g.opens ++ [id + 1] }

/-- The checks of the Oven word at the issue of COPY.OV; its operands are read there. DEDUCED (log 56, unsafe). -/
def copyOvBody (f : Form) (r : BitVec 7) (c : Ctx) (s : State) : State :=
  let w := c.read (c.b.above 2) 0
  if followBad w then c.trap f s 0x01 0x02 0
  else
    let fo := followForm w
    let x := s.issueOf fo c.g
    let oc := x.ctx w c.room
    match fo.wordCheck with
    | some sub => c.trap f s 0x01 sub 0
    | none =>
      if fo.outOfBounds x then c.trap f s 0x05 0x00 0
      else if fo.ranksIllegal x.mode then c.trap f s 0x06 0x00 0
      else
        match fo.emptySlot oc oc.activeReads false with
        | some slot => s.onEmpty f (s.issueOf f c.g) slot
        | none =>
          let ctl := oc.read oc.a 0
          let k := oc.read oc.b 0
          if tileBad ctl k then c.trap f s 0x07 0x04 0
          else
            let t := tileWord ctl k
            let banks := (s.ovenOf (s.clusterOf c.g)).banksOf c.tm.id t.name
            match accFault banks t.name (16 * t.rowb) t.m with
            | some detail => c.trap f s 0x05 0x03 detail
            | none => s.issueFollow c r w ctl k banks

def execCopyOv (a b : BitVec 8) (r : BitVec 7) (s : State) : Host.Outcome State Fault Refusal :=
  let f := copyForm 0x08 a b r true (.block 3)
  s.issue f (copyOvBody f r) (reads := Ctx.replyReads)

end Sys2Proof.Machine
end

