-- ==== Sys2Proof/Machine/Tower.lean ====
section
/-! DEFINITION. Tower-memory operations, function codes 0x40 to 0x44, and the line operations of the bank-side units (16
R327 to R336). A line of a command is issued (translated), its source is read, and it is performed at its bank, in steps
of their own. -/

namespace Sys2Proof.Machine

/-! ## The control word (Tables 16.2, 16.3) -/

/-- Index of the control word in slot b; TM.CAS has none. -/
def Cmd.tmControl (c : Cmd) : Nat := c.word 2

def Cmd.tmSt (c : Cmd) : Bool := bitAt c.tmControl 31

def Cmd.tmType (c : Cmd) : Nat := bits c.tmControl 29 2

/-- Lines of a command; TM.CAS acts on one. -/
def Cmd.tmLines (c : Cmd) : Nat := if c.func = 0x43 then 1 else bits c.tmControl 0 16

/-- The source address X. -/
def Cmd.tmSource (c : Cmd) : Nat := pairOf (c.b.getD 0 0) (c.b.getD 1 0)

/-- The checks at acceptance that give BADCMD (R332). -/
def Cmd.tmBad (c : Cmd) : Bool :=
  if c.func = 0x43 then c.a.toNat % 4 != 0
  else
    c.tmType == 3 || bits c.tmControl 16 13 != 0 || c.tmLines == 0 || decide (4096 < c.tmLines) || c.a.toNat % 64 != 0 ||
    c.tmSource % 64 != 0 || (c.func == 0x44 && c.tmType == 2) || (c.tmSt && c.word 1 != 0)

/-- Accept a tower-memory command (R332). -/
def State.acceptTm (s : State) (c : Cmd) : State :=
  let size := ((s.team? c.team).map (·.launch.tmem)).getD 0
  if c.tmBad then s.putCmd { c with phase := .finishing, status := statusWord Status.badcmd }
  else if c.func ≠ 0x43 && c.tmSt && decide (size < c.tmSource + 64 * c.tmLines) then
    s.putCmd { c with phase := .finishing, status := statusWord Status.faulted, sub := 0x07 }
  else s.putCmd { c with phase := .accepted }

/-! ## The arithmetic of a line (R331) -/

/-- Format of a floating TYPE. -/
def tmFormat (ty : Nat) : FFormat := if ty = 0 then .f32 else .bf16

/-- α × y + β × x with one rounding. -/
def scaledSum (f : FFormat) (alpha beta y x : Nat) : Nat :=
  let a := FFormat.bf16.decode alpha
  let b := FFormat.bf16.decode beta
  let p := f.decode y
  let q := f.decode x
  if a.isNan || b.isNan || p.isNan || q.isNan then f.defaultNan
  else
    match a.product p, b.product q with
    | some u, some v => (f.sum atomMode u v).1
    | _, _ => f.defaultNan

/-- The new value of an element. -/
def Cmd.tmElement (c : Cmd) (y x : Nat) : Nat :=
  let t := c.tmType
  let f := tmFormat t
  match c.func with
  | 0x40 => if t = 2 then (y + x) % 2 ^ 32 else (fadd f atomMode y x).1
  | 0x41 => if t = 2 then minTyped ⟨32, true⟩ y x else (fminmax false f atomMode y x).1
  | 0x42 => if t = 2 then maxTyped ⟨32, true⟩ y x else (fminmax true f atomMode y x).1
  | _ => scaledSum f (bits (c.word 3) 16 16) (bits (c.word 3) 0 16) y x

/-- The new bytes of a line. -/
def Cmd.tmLine (c : Cmd) (old src : List Byte) : List Byte :=
  let e := if c.tmType = 1 then 2 else 4
  (List.range (64 / e)).flatMap fun i => bytesOf e (c.tmElement (fieldOf old (e * i) e) (fieldOf src (e * i) e))

/-! ## Issue of a line (R332) -/

/-- A line that is issued: `stream` is its index, `dest` the physical address of its target, `off` the place of its source,
`bytes` the source once read, `bits` the DOM of the target's page. -/
def lineUnit (i target dom source : Nat) (bytes : List Byte) : CopyUnit :=
  ⟨i, source, .va (dwordOf target), bytes, [BitVec.ofNat 8 dom]⟩

/-- The line's target: a page with W in tower memory, whichever translation is used. DEDUCED (log 30, unsafe). -/
def State.tmTarget (s : State) (c : Cmd) (va : Nat) : State × Except MFault Hit :=
  let outside :=
    match s.walk c.ctx va with
    | .error _ => false
    | .ok l => (l.check c.priv .write).isNone && decide (0x400000000 ≤ Pte.frame l.pte)
  if outside && decide (va < 2 ^ 52) then (s, .error (.plain 0x0B))
  else
    match s.translate c.ctx c.core c.priv va .write with
    | (s, .error f) => (s, .error f)
    | (s, .ok h) => (s, if 0x400000000 ≤ s.homePa h.pa then .error (.plain 0x0B) else .ok h)

/-- The line's source: its place, and its bytes when they are fixed at issue (a compressed page). -/
def State.tmSourceOf (s : State) (c : Cmd) (i : Nat) : State × Except MFault (Nat × List Byte) :=
  if c.func = 0x43 then (s, .ok (0, [0]))
  else if c.tmSt then (s, .ok (c.tmSource + 64 * i, []))
  else
    match s.translate c.ctx c.core c.priv (wrap (c.tmSource + 64 * i) 64) .read with
    | (s, .error f) => (s, .error f)
    | (s, .ok h) =>
      match s.readSource h 64 with
      | .error f => (s, .error f)
      | .ok (.lit bs) => (s, .ok (h.pa, bs))
      | .ok (.at _ _) => (s, .ok (h.pa, []))

/-- No later line is issued: the command faulted at line i. -/
def Cmd.tmStop (c : Cmd) (i sub : Nat) : Cmd :=
  { c with next := c.tmLines, status := statusWord Status.faulted, sub := wordOf sub, progress := wordOf i }

/-- Issue the next line. DESIGN CHOICE (log 59, safe). -/
def State.issueLine (s : State) (c : Cmd) : State :=
  let i := c.next
  match s.tmSourceOf c i with
  | (s, .error f) => s.putCmd (c.tmStop i f.sub)
  | (s, .ok (src, bs)) =>
    match s.tmTarget c (wrap (c.a.toNat + 64 * i) 64) with
    | (s, .error f) => s.putCmd (c.tmStop i f.sub)
    | (s, .ok h) => s.putCmd { c with next := i + 1, units := c.units ++ [lineUnit i (s.homePa h.pa) (Pte.dom h.pte) src bs] }

/-! ## Performing a line (R327 to R329, R334) -/

/-- The line of a unit's target. -/
def CopyUnit.line (u : CopyUnit) : Nat :=
  match u.dest with
  | .va a => a.toNat / 64
  | .team o => o / 64

/-- An operation of the same group and SCOPE on the line comes first: a lower line of the command, or a command that was
issued before and has lines to issue or this line to perform (R328). -/
def State.lineWaits (s : State) (c : Cmd) (u : CopyUnit) : Bool :=
  c.units.any (fun v => v.line == u.line && decide (v.stream < u.stream)) ||
    s.cmds.any fun d => d.gid == c.gid && d.scope == c.scope && decide (d.id < c.id) && funcClass d.func == 5 &&
      !d.isDone && (d.phase == .issued || decide (d.next < d.tmLines) || d.units.any fun v => v.line == u.line)

/-- Copies of a line in the caches of the package leave them; through a page of DOM 2, those of the issuing cluster (R329). -/
def State.dropCopies (s : State) (cluster dom pa : Nat) : State :=
  (s.stores.filter fun e => e.seenAt.isSome && e.touches (.phys (pa / 64 * 64)) 64 &&
    (dom != 2 || clusterOfCore e.core == cluster)).foldl (fun s e => s.commit e) s

/-- The value copies that a reply held before the command (R334). -/
def Cmd.restoreReply (c : Cmd) : List (Target × Word) :=
  match c.reply with
  | .none => []
  | .g n => (c.held.take 1).map fun x => (.g n, x.2)
  | .t n => c.held.map fun x => (.t n x.1, x.2)

/-- The exchange of TM.CAS; with `spec` it may fail though the values are equal. -/
def State.tmExchange (s : State) (c : Cmd) (pa : Nat) : State × Word :=
  let old := wordOf (s.mem.value pa 4)
  let spurious := c.use == 4 && Config.chance s.draw
  let s := if c.use = 4 then { s with draw := s.draw + 1 } else s
  if old = c.b.getD 0 0 && !spurious then (s.put (.phys pa) (bytesOf 4 (c.b.getD 1 0).toNat), old) else (s, old)

/-- Read the source of an issued line, or perform it whole. -/
def State.performLine (s : State) (c : Cmd) (u : CopyUnit) : State :=
  let pa := match u.dest with
    | .va a => a.toNat
    | .team o => o
  let rest := c.units.filter (·.stream != u.stream)
  if u.bytes.isEmpty then
    let bs := if c.tmSt then s.teamSource c u.off 64 else s.bytesAt (.phys u.off) 64
    s.putCmd { c with units := updateWhere (·.stream == u.stream) (fun (v : CopyUnit) => { v with bytes := bs }) c.units }
  else
    let s := s.dropCopies c.cluster (ofBytes u.bits) pa
    if c.func = 0x43 then
      match s.tmExchange c pa with
      | (s, old) =>
        let width := ((s.team? c.team).map (·.launch.width)).getD 0
        let s := s.putCmd { c with units := rest, replied := true }
        (s.landAll c.gid (c.priv == 1) (c.reply.writes width 0 old)).wake c.gid
    else
      (s.put (.phys pa) (c.tmLine (s.mem.read pa 64) u.bytes)).putCmd { c with units := rest }

/-- What a command can do next: issue a line, or advance one that is issued. -/
def State.lineMoves (s : State) (c : Cmd) : List (Option CopyUnit) :=
  (if c.next < c.tmLines then [none] else []) ++ ((c.units.filter fun u => u.bytes.isEmpty || !s.lineWaits c u).map some)

/-- One move of a tower-memory command; with all lines performed it is about to complete. -/
def State.lineMove (s : State) (c : Cmd) : State :=
  match s.lineMoves c with
  | [] => if c.units.isEmpty then s.putCmd { c with phase := .finishing } else s
  | m :: ms =>
    let i := if ms.isEmpty then 0 else Config.pick s.draw (ms.length + 1) % (ms.length + 1)
    let s := if ms.isEmpty then s else { s with draw := s.draw + 1 }
    match (m :: ms).getD i m with
    | none => s.issueLine c
    | some u => s.performLine c u

/-- A command can move. -/
def State.lineReady (s : State) (c : Cmd) : Bool :=
  c.phase == .accepted && funcClass c.func == 5 && (c.units.isEmpty || !(s.lineMoves c).isEmpty)

/-- A tower-memory command completes (R333, R334). -/
def State.finishTm (s : State) (c : Cmd) : State :=
  if c.func = 0x43 then
    let s := s.putCmd { c with phase := .done, replied := true }
    if c.replied then s else (s.landAll c.gid (c.priv == 1) c.restoreReply).wake c.gid
  else s.completeCmd c c.status

/-! ## Issue (R330) -/

/-- The values of the reply copies before the command. -/
def Ctx.heldReply (c : Ctx) (r : Reply) : List (Nat × Word) :=
  match r with
  | .none => []
  | .g n => [(0, c.read (.g n) 0)]
  | .t n => (List.range c.width).map fun i => (i, c.read (.t n) i)

def tmBody (func n : Nat) (r : BitVec 7) (c : Ctx) (s : State) : State :=
  if 32 ≤ s.running c.g.id 5 then s
  else
    let reply := replyOf r.toNat
    let cmd := Cmd.new s.nextId c (s.clusterOf c.g) func (dwordOf (c.readPair c.a 0)) (c.block n) reply
    s.issueCmd c { cmd with held := if func = 0x43 then c.heldReply reply else [] }

def tmCommand (func n : Nat) (va : Bool) (a b : BitVec 8) (r : BitVec 7) (s : State) : Host.Outcome State Fault Refusal :=
  s.issue (coForm func a b r (.reply 1) .va (if va then .blockVa n else .block n)) (tmBody func n r)
    (reads := Ctx.replyReads)

def execTmAdd (a b : BitVec 8) (r : BitVec 7) (s : State) : Host.Outcome State Fault Refusal := tmCommand 0x40 3 true a b r s

def execTmMin (a b : BitVec 8) (r : BitVec 7) (s : State) : Host.Outcome State Fault Refusal := tmCommand 0x41 3 true a b r s

def execTmMax (a b : BitVec 8) (r : BitVec 7) (s : State) : Host.Outcome State Fault Refusal := tmCommand 0x42 3 true a b r s

def execTmCas (a b : BitVec 8) (r : BitVec 7) (s : State) : Host.Outcome State Fault Refusal := tmCommand 0x43 2 false a b r s

def execTmSacc (a b : BitVec 8) (r : BitVec 7) (s : State) : Host.Outcome State Fault Refusal := tmCommand 0x44 4 true a b r s

end Sys2Proof.Machine
end

