-- ==== Sys2Proof/Machine/Carousel.lean ====
section
/-! DEFINITION. The Carousel: its counts, propagation, commands with function codes 0x50 to 0x5B, and their order (18 R339
to R358). -/

namespace Sys2Proof.Machine

/-! ## Columns (R340) -/

/-- The value of a variable: it is assigned exactly while it has a trail entry (R351). -/
def Carousel.value (c : Carousel) (v : Nat) : Option Bool := (c.trail.find? (·.var == v)).map (·.val)

/-- The present cells of a column: variable, positive. -/
def Carousel.column (c : Carousel) (col : Nat) : List (Nat × Bool) :=
  (c.cells.filter (·.1 == col)).map (·.2)

/-- The counts T, F and U of a column. -/
structure Counts where
  t : Nat
  f : Nat
  u : Nat
  deriving DecidableEq, Repr

def Carousel.counts (c : Carousel) (col : Nat) : Counts :=
  (c.column col).foldl (fun n x =>
    match c.value x.1 with
    | none => { n with u := n.u + 1 }
    | some v => if v = x.2 then { n with t := n.t + 1 } else { n with f := n.f + 1 }) ⟨0, 0, 0⟩

def Counts.satisfied (n : Counts) : Bool := decide (1 ≤ n.t)
def Counts.unit (n : Counts) : Bool := n.t == 0 && n.u == 1
def Counts.conflicting (n : Counts) : Bool := n.t == 0 && n.u == 0

/-- The counters word of a column. -/
def Carousel.counters (c : Carousel) (col : Nat) : Word :=
  if c.used.contains col then
    let n := c.counts col
    let flag := fun (b : Bool) (k : Nat) => if b then 2 ^ k else 0
    wordOf (flag n.satisfied 31 + flag n.unit 30 + flag n.conflicting 29 + n.f * 2 ^ 11 + n.u)
  else 0

/-- The lowest column in use for which p holds. -/
def Carousel.lowest (c : Carousel) (p : Counts → Bool) : Option Nat :=
  leastBy id (c.used.filter fun col => p (c.counts col))

/-- The code of a cell (Table 18.1). -/
def Carousel.code (c : Carousel) (col v : Nat) : Nat :=
  match c.cells.find? fun x => x.1 == col && x.2.1 == v with
  | none => 0
  | some x => if x.2.2 then 1 else 2

/-- Put columns in use. -/
def Carousel.use (c : Carousel) (col : Nat) : Carousel :=
  if c.used.contains col then c else { c with used := c.used ++ [col] }

/-- Write a cell (R347). -/
def Carousel.setCell (c : Carousel) (col v code : Nat) : Carousel :=
  let rest := c.cells.filter fun x => !(x.1 == col && x.2.1 == v)
  if code = 0 then { c with cells := rest } else { c with cells := rest ++ [(col, v, code == 1)] }.use col

/-- Replace a column by literals, each variable at most once (R348). -/
def Carousel.setColumn (c : Carousel) (col : Nat) (lits : List (Nat × Bool)) : Carousel :=
  let rest := c.cells.filter (·.1 != col)
  { c with cells := rest ++ (distinct lits).map fun (x : Nat × Bool) => (col, x.1, x.2) }.use col

/-- Free a column. -/
def Carousel.free' (c : Carousel) (col : Nat) : Carousel :=
  { c with cells := c.cells.filter (·.1 != col), used := c.used.filter (· != col) }

/-! ## Propagation (R353) -/

/-- What CAR.PROP leaves: the array, the status, the assignments made, and the conflicting column. -/
structure Propagated where
  car : Carousel
  status : Nat
  n : Nat
  conflict : Option Nat
  deriving DecidableEq, Repr

/-- The one unassigned literal of a column. -/
def Carousel.openLiteral (c : Carousel) (col : Nat) : Option (Nat × Bool) :=
  (c.column col).find? fun x => (c.value x.1).isNone

/-- Assign a variable at the current level, forced by a column. -/
def Carousel.force (c : Carousel) (v : Nat) (val : Bool) (reason : Nat) : Carousel :=
  { c with trail := c.trail ++ [⟨v, val, c.level, false, reason⟩] }

/-- The loop of CAR.PROP; `expires`: assignments after which its deadline is found expired, if it is. -/
def Carousel.propagate (steps : Nat) (expires : Option Nat) : Nat → Carousel → Nat → Propagated
  | fuel, c, n =>
    match c.lowest Counts.conflicting with
    | some col => ⟨c, Status.conflict, n, some col⟩
    | none =>
      match c.lowest Counts.unit with
      | none => ⟨c, Status.done, n, none⟩
      | some col =>
        if steps ≠ 0 ∧ n = steps then ⟨c, Status.part, n, none⟩
        else if expires.any fun k => decide (k ≤ n) then ⟨c, Status.timeout, n, none⟩
        else
          match fuel, c.openLiteral col with
          | fuel + 1, some (v, pol) => propagate steps expires fuel (c.force v pol col) (n + 1)
          | _, _ => ⟨c, Status.done, n, none⟩

/-! ## Lists (R346, R348) -/

/-- A literal of a list: its variable, and whether it is positive; none when a reserved bit is set. -/
def literalOf (n : Nat) : Option (Nat × Bool) :=
  if bits n 10 5 ≠ 0 then none else some (bits n 0 10, !bitAt n 15)

/-- The literals of a list; none when it is malformed. -/
def literals (bs : List Byte) (count : Nat) : Option (List (Nat × Bool)) :=
  let l := (List.range count).map fun i => literalOf (fieldOf bs (2 * i) 2)
  let good := l.filterMap id
  if l.all Option.isSome && good.all fun x => !good.contains (x.1, !x.2) then some good else none

/-- Read a list of a command's team: its literals, or the status of the check that fails. -/
def State.carList (s : State) (c : Cmd) (count : Nat) : Except Nat (List (Nat × Bool)) :=
  let off := c.word 0
  let size := ((s.team? c.team).map (·.launch.tmem)).getD 0
  if size < off + 2 * count then .error Status.faulted
  else if off % 2 ≠ 0 then .error Status.badcmd
  else
    match literals (s.teamSource c off (2 * count)) count with
    | none => .error Status.badcmd
    | some l => .ok l

/-! ## The effects of the commands, once the hold is checked (R347 to R355) -/

def levelValue (e : TrailEntry) (low : Nat) : Word := wordOf (e.level % 2048 * 2 ^ 16 + low)

def TrailEntry.origin (e : TrailEntry) : Word := wordOf ((if e.dec then 2 ^ 12 else 0) + e.reason)

/-- CAR.CELL. -/
def Carousel.cell (c : Carousel) (a : Nat) : Carousel × List Word :=
  let col := bits a 0 12
  let v := bits a 16 10
  let old := c.code col v
  let c := c.setCell col v (bits a 28 2)
  (c, [0, wordOf old, c.counters col])

/-- CAR.COL with its list read. -/
def Carousel.load (c : Carousel) (a : Nat) (l : List (Nat × Bool)) : Carousel × List Word :=
  let col := bits a 0 12
  let c := if bits a 16 11 = 0 then c.free' col else c.setColumn col l
  (c, [0, c.counters col])

/-- CAR.LEARN with its list read. -/
def Carousel.learn (c : Carousel) (l : List (Nat × Bool)) : Carousel × List Word :=
  match (List.range 4096).find? fun col => !c.used.contains col with
  | none => (c, [statusWord Status.full])
  | some col =>
    let c := c.setColumn col l
    (c, [0, wordOf col, c.counters col])

/-- CAR.CLR. -/
def Carousel.clear (c : Carousel) (a : Nat) : Carousel × List Word :=
  let c := if bitAt a 0 then { c with cells := [], used := [] } else c
  (if bitAt a 1 then { c with trail := [], level := 0 } else c, [0])

/-- CAR.DECIDE. -/
def Carousel.decide' (c : Carousel) (a : Nat) : Carousel × List Word :=
  let v := bits a 0 10
  if (c.value v).isSome then (c, [statusWord Status.badcmd])
  else
    let level := c.level + 1
    ({ c with level, trail := c.trail ++ [⟨v, bitAt a 31, level, true, 0⟩] }, [0, wordOf level])

/-- CAR.BACK. -/
def Carousel.back (c : Carousel) (a : Nat) : Carousel × List Word :=
  let l := bits a 0 11
  let kept := c.trail.filter fun e => decide (e.level ≤ l)
  let level := min l c.level
  ({ c with trail := kept, level }, [0, wordOf (c.trail.length - kept.length), wordOf level])

/-- CAR.TRAIL. -/
def Carousel.trailAt (c : Carousel) (a : Nat) : List Word :=
  match c.trail[bits a 0 10]? with
  | none => [statusWord Status.badcmd, 0, 0, wordOf c.trail.length]
  | some e => [0, levelValue e ((if e.val then 2 ^ 15 else 0) + e.var), e.origin, wordOf c.trail.length]

/-- CAR.VAR. -/
def Carousel.variable' (c : Carousel) (a : Nat) : List Word :=
  match (c.trail.zipIdx).find? fun x => x.1.var == bits a 0 10 with
  | none => [0, 0, 0xFFFFFFFF, 0]
  | some (e, i) => [0, levelValue e (if e.val then 1 else 2), wordOf i, e.origin]

/-- CAR.STAT. -/
def Carousel.stat (c : Carousel) : List Word :=
  let low := fun (p : Counts → Bool) => (c.lowest p).getD 0xFFFF
  [0, wordOf (c.trail.length * 2 ^ 16 + c.level), wordOf c.used.length,
    wordOf (low Counts.conflicting * 2 ^ 16 + low Counts.unit)]

/-! ## Performing a command (R341, R346, R356) -/

def State.onCarousel (s : State) (cluster : Nat) (f : Carousel → Carousel) : State :=
  let cl := s.clusterRec cluster
  s.putCluster { cl with car := f cl.car }

/-- The wait of a command, if its group waits for it. -/
def Wait.awaits (w : Wait) (k : Nat) : Bool :=
  match w.obj with
  | .carAcq j | .carProp j => j == k
  | _ => false

/-- A command has been performed: its reply block is written, or its wait has its result. -/
def State.carAnswer (s : State) (c : Cmd) (ws : List Word) : State :=
  let s := s.dropCarousel (· == c.id)
  match s.group? c.gid with
  | none => s
  | some g =>
    let waits := fun (w : Option Wait) => w.any fun w => w.awaits c.id
    if waits g.wait || waits g.keptWait then
      let one := fun (w : Wait) => if w.awaits c.id then { w with result := some (blockWrites w.dst ws) } else w
      s.putGroup { g with wait := g.wait.map one, keptWait := g.keptWait.map one }
    else
      match c.reply with
      | .g n => (s.landAll c.gid (c.priv == 1) ((blockWrites n ws).map fun x => (.g x.1, x.2))).wake c.gid
      | _ => s

/-- The lease that CAR.ACQ asks for (R342). DEDUCED (log 60, unsafe). -/
def Config.leaseOf (k : Config) (a : Nat) : Nat := max 1000 (min (if a = 0 then 100000 else a) k.leaseMax)

/-- CAR.ACQ joins the request list; a free Carousel is granted at once. -/
def State.acquire (s : State) (c : Cmd) : State :=
  let s := s.onTeam c.team fun t => { t with lapsed := false }
  let lease := s.config.leaseOf c.a.toNat
  let car := (s.clusterRec c.cluster).car
  if car.holder = some c.team then
    (s.onCarousel c.cluster fun k => { k with lease }).carAnswer c [0, wordOf lease]
  else
    let r : CarRequest := ⟨c.gid, c.team, lease, c.id⟩
    let leave (k : Carousel) : Carousel := { k with order := k.order.filter (· != c.id), requests := k.requests ++ [r] }
    let s := (s.putCmd { c with phase := .finishing }).onCarousel c.cluster leave
    if car.holder.isNone then s.passCarousel c.cluster else s

/-- CAR.REL: the hold passes. -/
def State.relinquish (s : State) (c : Cmd) (lapsed : Bool) : State :=
  if lapsed then (s.onTeam c.team fun t => { t with lapsed := false }).carAnswer c [0]
  else (s.passCarousel c.cluster).carAnswer c [0]

/-- Assignments after which the deadline of a CAR.PROP is found expired: at most one check of 4 cycles and one assignment of
8 pass between two, so a limit farther away than Table 18.4 allows is not reached. DESIGN CHOICE (log 61, safe). -/
def State.propLimit (s : State) (c : Cmd) : State × Option Nat :=
  match s.group? c.gid with
  | none => (s, none)
  | some g =>
    match (match g.wait with | some w => some w | none => g.keptWait) with
    | none => (s, none)
    | some w =>
      if s.expired g w then (s, some 0)
      else
        let left := w.limit - if w.wall then s.wall else g.cclk
        if decide (left < 6146) && (w.wall || g.here) then
          ({ s with draw := s.draw + 1 }, some (Config.pick s.draw 1026))
        else (s, none)

/-- CAR.PROP. -/
def State.runProp (s : State) (c : Cmd) : State :=
  match s.propLimit c with
  | (s, expires) =>
    let r := Carousel.propagate (bits c.a.toNat 0 11) expires 1024 (s.clusterRec c.cluster).car 0
    let conflict := match r.conflict with
      | some col => wordOf col
      | none => 0xFFFFFFFF
    (s.onCarousel c.cluster fun _ => r.car).carAnswer c [statusWord r.status, wordOf r.n, conflict, wordOf r.car.level]

/-- A command whose effect is on the array alone. -/
def State.arrayOp (s : State) (c : Cmd) (f : Carousel → Carousel × List Word) : State :=
  let r := f (s.clusterRec c.cluster).car
  (s.onCarousel c.cluster fun _ => r.1).carAnswer c r.2

/-- A command with a list. -/
def State.listOp (s : State) (c : Cmd) (count : Nat) (f : List (Nat × Bool) → Carousel → Carousel × List Word) : State :=
  match s.carList c count with
  | .error st => s.carAnswer c [statusWord st]
  | .ok l => s.arrayOp c (f l)

/-- The effect of a command, whole. -/
def State.runCar (s : State) (c : Cmd) : State :=
  let lapsed := ((s.team? c.team).map (·.lapsed)).getD false
  let holds := (s.clusterRec c.cluster).car.holder == some c.team
  let a := c.a.toNat
  let reads := fun (f : Carousel → List Word) => s.arrayOp c fun k => (k, f k)
  if c.func = 0x50 then s.acquire c
  else if c.func = 0x51 ∧ lapsed then s.relinquish c true
  else if lapsed then s.carAnswer c [statusWord Status.lost]
  else if !holds then s.carAnswer c [statusWord Status.notHeld]
  else
    match c.func with
    | 0x51 => s.relinquish c false
    | 0x52 => s.arrayOp c fun k => k.clear a
    | 0x53 => s.arrayOp c fun k => k.cell a
    | 0x54 => if bits a 16 11 = 0 then s.arrayOp c fun k => k.load a [] else s.listOp c (bits a 16 11) fun l k => k.load a l
    | 0x55 => s.arrayOp c fun k => k.decide' a
    | 0x56 => s.runProp c
    | 0x57 => s.arrayOp c fun k => k.back a
    | 0x58 => s.listOp c (bits a 0 11) fun l k => k.learn l
    | 0x59 => reads fun k => k.trailAt a
    | 0x5A => reads fun k => k.variable' a
    | _ => reads Carousel.stat

/-- Perform a command; a lease that has run out ends first, which may end the wait for the command with LOST (R343, R358). -/
def State.performCar (s : State) (c : Cmd) : State :=
  let s := s.endLease c.cluster
  if (s.cmd? c.id).isSome then s.runCar c else s

/-- The commands of a Carousel's order, first to last. -/
def State.carOrder (s : State) (cluster : Nat) : List Cmd := (s.clusterRec cluster).car.order.filterMap s.cmd?

/-- What may happen next in the order of a Carousel: its head is performed, or the earliest issued command of a group
enters (R356). -/
def State.carMoves (s : State) (cluster : Nat) : List (Cmd × Bool) :=
  let mine := s.cmds.filter fun c => c.cluster == cluster && decide (0x50 ≤ c.func)
  let heads := match s.carOrder cluster with
    | [] => []
    | c :: _ => [(c, true)]
  let issued := mine.filter (·.phase == .issued)
  heads ++ ((issued.filter fun c => !issued.any fun d => d.gid == c.gid && decide (d.id < c.id)).map fun c => (c, false))

/-- One move of the Carousel's order. -/
def State.carMove (s : State) (cluster : Nat) : State :=
  match s.carMoves cluster with
  | [] => s
  | m :: ms =>
    let i := if ms.isEmpty then 0 else Config.pick s.draw (ms.length + 1) % (ms.length + 1)
    let s := if ms.isEmpty then s else { s with draw := s.draw + 1 }
    match (m :: ms).getD i m with
    | (c, true) => s.performCar c
    | (c, false) => s.enterCarousels c.gid

/-! ## Issue (R345) -/

/-- A word with a reply block: an even `g` code to g60, or no reply unless `must`. -/
def carForm (func : Nat) (a b : BitVec 8) (r : BitVec 7) (must : Bool) (ka kb : Kind) : Form :=
  let n := r.toNat
  let ok := (n == 0x7F && !must) || (decide (0x40 ≤ n) && decide (n ≤ 0x7C) && n % 2 == 0)
  { coForm func a b r (.reply 4) ka kb with bad3 := !ok }

/-- Carousel commands of a group that are issued and not performed. -/
def State.carOpen (s : State) (gid : Nat) : Nat :=
  (s.cmds.filter fun c => c.gid == gid && decide (0x50 ≤ c.func) && c.phase != .finishing).length

/-- Issue a command: a release of the group at `clu`, its reply block marked empty. -/
def State.issueCar (s : State) (c : Ctx) (cmd : Cmd) : State :=
  let s := s.flush c.g
  let s := { s with nextId := max s.nextId (cmd.id + 1), cmds := s.cmds ++ [cmd] }
  s.onGroup c.g.id fun g => g.markReply c.width cmd.reply 4

def Ctx.carCmd (c : Ctx) (s : State) (func a : Nat) (b : List Word) (r : BitVec 7) : Cmd :=
  Cmd.new s.nextId c (s.clusterOf c.g) func (dwordOf a) b (replyOf r.toNat)

/-- A command that does not wait: its value in a is checked, a ninth stalls, and it is issued. -/
def carBody (f : Form) (func : Nat) (r : BitVec 7) (bad : Nat → Bool) (hasA hasB : Bool) (c : Ctx) (s : State) : State :=
  let a := if hasA then (c.read c.a 0).toNat else 0
  if bad a then c.trap f s 0x07 0x04 0
  else if 8 ≤ s.carOpen c.g.id then s
  else
    (s.issueCar c (c.carCmd s func a (if hasB then [c.read c.b 0] else []) r)).onGroup c.g.id fun g => g.advance

/-- Perform the commands of a Carousel's order up to and with command k. -/
def State.performTo (cluster k : Nat) : Nat → State → State
  | 0, s => s
  | n + 1, s =>
    match s.carOrder cluster with
    | [] => s
    | d :: _ => if d.id = k then s.performCar d else performTo cluster k n (s.performCar d)

/-- A CAR.ACQ that a check looks at enters the order and is performed there, after every command before it; one that has
become a request sees a lease that has run out end (R343, R360). -/
def State.tryAcq (s : State) (k : Nat) : State :=
  match s.cmd? k with
  | none => s
  | some c =>
    let s := s.endLease c.cluster
    if c.phase = .finishing then s
    else
      let s := s.enterCarousels c.gid
      s.performTo c.cluster k (s.carOrder c.cluster).length

/-- A CAR.PROP that a check finds expired is performed when it is at the head of the order. -/
def State.tryProp (s : State) (k : Nat) : State :=
  match s.cmd? k with
  | none => s
  | some c =>
    let t := s.enterCarousels c.gid
    match t.carOrder c.cluster with
    | d :: _ => if d.id = k then t.performCar d else s
    | [] => s

/-- A check of a wait performs its command: CAR.ACQ at every check, CAR.PROP at the check that finds its limit reached, where
the object comes first (R353, R360, 09 R192). -/
def State.tryCar (s : State) (g : Group) (w : Wait) : State :=
  match w.obj with
  | .carAcq k => s.tryAcq k
  | .carProp k => if s.expired g w then s.tryProp k else s
  | _ => s

/-- A check of a wait for the Carousel: its object, then its deadline (09 R192). -/
def State.checkCar (s : State) (gid : Nat) : State :=
  let looked :=
    match s.group? gid with
    | none => s
    | some g =>
      match g.wait with
      | none => s
      | some w => s.tryCar g w
  match looked.group? gid with
  | none => looked
  | some g =>
    match g.wait with
    | none => looked
    | some w => looked.checkWait g w

/-- Begin a wait for the Carousel with its first check. -/
def State.beginCar (s : State) (g : Group) (obj : WaitObj) (dst : Nat) (onTimeout : List (Nat × Word)) (a : Armed) : State :=
  let w : Wait := ⟨obj, onTimeout, dst, a.limit, a.wall, a.poll, s.nextId, none⟩
  ({ s with nextId := s.nextId + 1 }.putGroup { g with phase := .waiting, wait := some w }).checkCar g.id

/-- A group whose wait stalls at its first issue: the count of its deadline starts there (02 R36). -/
def State.stallWait (s : State) (g : Group) : State := s.putGroup { g with firstIssue := some (g.firstIssue.getD (g.cclk, s.wall)) }

/-- A command that waits under the deadline pair in b; a ninth stalls. DEDUCED (log 62, unsafe). -/
def carWait (f : Form) (func : Nat) (r : BitVec 7) (bad : Nat → Bool) (obj : Nat → WaitObj) (c : Ctx) (s : State) : State :=
  c.waiting s fun s =>
    let a := (c.read c.a 0).toNat
    if bad a then c.trap f s 0x07 0x04 0
    else c.armed f s fun dl s =>
      if 8 ≤ s.carOpen c.g.id then s.stallWait c.g
      else
        let cmd := c.carCmd s func a [] r
        let s := s.issueCar c cmd
        match s.group? c.g.id with
        | none => s
        | some g => s.beginCar g (obj cmd.id) c.dreg (blockWrites c.dreg [statusWord Status.timeout]) dl

def noBad (_ : Nat) : Bool := false

def execCarAcq (a b : BitVec 8) (r : BitVec 7) (s : State) : Host.Outcome State Fault Refusal :=
  let f := carForm 0x50 a b r true .uniform .deadline
  s.issue f (carWait f 0x50 r noBad .carAcq) (reads := Ctx.replyReads)

def execCarRel (r : BitVec 7) (s : State) : Host.Outcome State Fault Refusal :=
  let f := carForm 0x51 0 0 r false .unused .unused
  s.issue f (carBody f 0x51 r noBad false false) (reads := Ctx.replyReads)

/-- Commands with a value in a. -/
def carOne (func : Nat) (bad : Nat → Bool) (a : BitVec 8) (r : BitVec 7) (s : State) : Host.Outcome State Fault Refusal :=
  let f := carForm func a 0 r false .uniform .unused
  s.issue f (carBody f func r bad true false) (reads := Ctx.replyReads)

/-- Commands with a value in a and a list offset in b. -/
def carTwo (func : Nat) (bad : Nat → Bool) (a b : BitVec 8) (r : BitVec 7) (s : State) : Host.Outcome State Fault Refusal :=
  let f := carForm func a b r false .uniform .uniform
  s.issue f (carBody f func r bad true true) (reads := Ctx.replyReads)

def execCarClr (a : BitVec 8) (r : BitVec 7) (s : State) : Host.Outcome State Fault Refusal :=
  carOne 0x52 (fun n => n / 4 != 0) a r s

def execCarCell (a : BitVec 8) (r : BitVec 7) (s : State) : Host.Outcome State Fault Refusal :=
  carOne 0x53 (fun n => bits n 12 4 != 0 || bits n 26 2 != 0 || bits n 30 2 != 0 || bits n 28 2 == 3) a r s

def execCarCol (a b : BitVec 8) (r : BitVec 7) (s : State) : Host.Outcome State Fault Refusal :=
  carTwo 0x54 (fun n => bits n 12 4 != 0 || bits n 27 5 != 0 || decide (1024 < bits n 16 11)) a b r s

def execCarDecide (a : BitVec 8) (r : BitVec 7) (s : State) : Host.Outcome State Fault Refusal :=
  carOne 0x55 (fun n => bits n 10 21 != 0) a r s

def execCarProp (a b : BitVec 8) (r : BitVec 7) (s : State) : Host.Outcome State Fault Refusal :=
  let f := carForm 0x56 a b r true .uniform .deadline
  s.issue f (carWait f 0x56 r (fun n => decide (1024 < n)) .carProp) (reads := Ctx.replyReads)

def execCarBack (a : BitVec 8) (r : BitVec 7) (s : State) : Host.Outcome State Fault Refusal :=
  carOne 0x57 (fun n => decide (1024 < n)) a r s

def execCarLearn (a b : BitVec 8) (r : BitVec 7) (s : State) : Host.Outcome State Fault Refusal :=
  carTwo 0x58 (fun n => n == 0 || decide (1024 < n)) a b r s

def execCarTrail (a : BitVec 8) (r : BitVec 7) (s : State) : Host.Outcome State Fault Refusal :=
  carOne 0x59 (fun n => decide (1024 ≤ n)) a r s

def execCarVar (a : BitVec 8) (r : BitVec 7) (s : State) : Host.Outcome State Fault Refusal :=
  carOne 0x5A (fun n => decide (1024 ≤ n)) a r s

def execCarStat (r : BitVec 7) (s : State) : Host.Outcome State Fault Refusal :=
  let f := carForm 0x5B 0 0 r false .unused .unused
  s.issue f (carBody f 0x5B r noBad false false) (reads := Ctx.replyReads)

end Sys2Proof.Machine
end

