-- ==== Sys2Proof/Machine/Mapping.lean ====
section
/-! DEFINITION. The memory that the Hearth service gives out: frames, page tables and pages of a context (07 R145 to
R147, 14 R273, R275, 22 R397, R398). Where a frame or page lies is the service's choice (log 14). -/

namespace Sys2Proof.Machine

/-! ## Tables -/

/-- An empty page table of 4 KiB (07 R146). -/
def State.newTable (s : State) : Option (Nat × State) :=
  match s.takePlaced 2 4096 with
  | none => none
  | some (t, s) => some (t, { s with mem := s.mem.clear t 4096 })

/-! ## Pages -/

/-- Write a leaf entry of a level for va, with the tables that lead to it. -/
def mapLeaf (va level leaf : Nat) : Nat → Nat → State → Option State
  | lvl, table, s =>
    let addr := table + 8 * bits va (16 + 9 * lvl) 9
    if lvl = level then some { s with mem := s.mem.write addr (bytesOf 8 leaf) }
    else
      match lvl with
      | 0 => none
      | n + 1 =>
        let e := s.mem.value addr 8
        if Pte.v e then (if Pte.leaf e then none else mapLeaf va level leaf n (Pte.frame e) s)
        else
          match s.newTable with
          | none => none
          | some (t, s) => mapLeaf va level leaf n t { s with mem := s.mem.write addr (bytesOf 8 (t + 1)) }

/-- U, W and X of the pages to map. -/
structure Rights where
  u : Bool
  w : Bool
  x : Bool
  deriving DecidableEq, Repr

/-- A leaf entry: present, domain package, policy L1 and L2 (07 Table 7.3). -/
def Rights.leaf (r : Rights) (frame : Nat) : Nat :=
  frame + 5 + (if r.u then 8 else 0) + (if r.w then 16 else 0) + (if r.x then 32 else 0)

/-- Map n pages of a level from va on. DESIGN CHOICE (log 69, unsafe). -/
def mapPages (ctx place level : Nat) (r : Rights) : Nat → Nat → State → Option State
  | 0, _, s => some s
  | n + 1, va, s =>
    match s.takePlaced place (pageSize level) with
    | none => none
    | some (f, s) =>
      match mapLeaf va level (r.leaf f) 3 (s.rootOf ctx) s with
      | none => none
      | some s => mapPages ctx place level r n (va + pageSize level) s

/-- The context has mapped the page of an address: present, or kept in the backing store. -/
def State.mapped (s : State) (ctx va : Nat) : Bool :=
  (match s.walk ctx va with
    | .error f => f.sub != 0x00
    | .ok _ => true) || (((s.context? ctx).map (·.backing)).getD []).any fun (p : Kept) => p.covers va

/-- No page of a range is mapped, and it lies below 2^52. -/
def State.rangeFree (s : State) (ctx va bytes : Nat) : Bool :=
  decide (va + bytes ≤ 2 ^ 52) && (List.range ((bytes + 0xFFFF) / 0x10000)).all fun i => !s.mapped ctx (va + 0x10000 * i)

/-- An address that the service chooses: aligned, not 0, in a free range. -/
def State.chooseVa (s : State) (ctx bytes align : Nat) : Option Nat :=
  let n := 2 ^ 52 / align
  (searchFrom (fun k => k != 0 && s.rangeFree ctx (k * align) bytes) n (Config.place s.draw) n).map (· * align)

/-- Allocate whole pages in a context, at va or at an address that the service chooses when va = 0; none when they do not
fit (22 R398). -/
def State.allocate (s : State) (ctx va bytes place level : Nat) (r : Rights) : Option (Nat × State) :=
  let at' := if va = 0 then s.chooseVa ctx bytes (pageSize level) else if s.rangeFree ctx va bytes then some va else none
  match at' with
  | none => none
  | some va =>
    match mapPages ctx place level r (bytes / pageSize level) va { s with draw := s.draw + 1 } with
    | none => none
    | some s => some (va, s)

/-- Pages of supervisor data in a context: its save areas (14 R273, R275). -/
def State.allocateSystem (s : State) (ctx bytes : Nat) : Option (Nat × State) :=
  s.allocate ctx 0 (roundUp bytes 0x10000) 2 0 ⟨false, true, false⟩

/-- Bytes of a team save area (14 R275). -/
def LaunchRecord.saveBytes (r : LaunchRecord) : Nat := roundUp r.size 8192 + r.groups * 0xE000

/-- The team save area that a team gets at placement (14 R273). Without memory for it the area is one that is not
present: its first use faults (14 R276). -/
def State.takeSaveArea (s : State) (ctx : Nat) (r : LaunchRecord) : DWord × State :=
  match s.allocateSystem ctx r.saveBytes with
  | some (va, s) => (dwordOf va, s)
  | none => (dwordOf (Config.place s.draw / 8192 * 8192 % 2 ^ 52), { s with draw := s.draw + 1 })

/-- A new context: its number, an empty root table and a context save area (14 R275, 22 R397). -/
def State.newContext (s : State) : Option (Nat × State) :=
  match searchFrom (fun k => (s.context? k).isNone) 0xFFFE (Config.place s.draw) 0xFFFE with
  | none => none
  | some num =>
    match { s with draw := s.draw + 1 }.newTable with
    | none => none
    | some (root, s) =>
      let c : Context := { Context.none with num := num, root := dwordOf root }
      match { s with contexts := s.contexts ++ [c] }.allocateSystem num 0x10000 with
      | none => none
      | some (va, s) => some (num, s.onContext num fun c => { c with ctxSave := dwordOf va })

end Sys2Proof.Machine
end

