-- ==== Sys2Proof/Machine/Schedule.lean ====
section
/-! DEFINITION. The Ringmaster's placement of teams (20 R368 to R370, 15 R303, 18 R343), and the stop and restore of groups
and teams (14 R275 to R278, 20 R376, R378). -/

namespace Sys2Proof.Machine

/-! ## Room on cores (20 R368) -/

/-- Bytes of a core's team memory that a team holds. -/
def Team.share (tm : Team) (core : Nat) : Nat :=
  match tm.core with
  | .none => 0
  | some c =>
    let n := tm.launch.size
    if tm.launch.pair then (if core = c then min n 131072 else if core = c + 1 then n - 131072 else 0)
    else if core = c then n else 0

/-- Free team memory of a core. -/
def State.coreFree (s : State) (core : Nat) : Nat :=
  131072 - (s.teams.filter (·.holds)).foldl (fun n tm => n + tm.share core) 0

/-- Lane register bytes of a group (14 R270). -/
def LaunchRecord.laneBytes (r : LaunchRecord) : Nat := 4 * r.width * max (roundUp r.tregs 8) 16

/-- What is taken of a lane: slots, register bytes, reconvergence entries. -/
structure LaneLoad where
  slots : List Nat
  bytes : Nat
  depth : Nat
  deriving DecidableEq, Repr

def State.laneLoad (s : State) (core lane : Nat) : LaneLoad :=
  let here := s.groups.filter fun g =>
    match g.place with
    | some p => p.core == core && p.lane == lane
    | none => false
  ⟨(here.filter (·.live)).map (fun g => (g.place.map (·.slot)).getD 0),
   here.foldl (fun n g => n + (s.teamOf g).launch.laneBytes) 0,
   here.foldl (fun n g => n + (s.teamOf g).launch.rdepth) 0⟩

/-- The lane load once further groups of a record have been given places. -/
def LaneLoad.with (l : LaneLoad) (r : LaunchRecord) (core lane : Nat) (extra : List Place) : LaneLoad :=
  let mine := extra.filter fun p => p.core == core && p.lane == lane
  ⟨l.slots ++ mine.map (·.slot), l.bytes + mine.length * r.laneBytes, l.depth + mine.length * r.rdepth⟩

/-- Whether a lane has room for one more group of a record: a slot, 64 KiB of registers, 64 entries. -/
def LaneLoad.fits (l : LaneLoad) (r : LaunchRecord) : Bool :=
  decide (l.slots.length < 8) && decide (l.bytes + r.laneBytes ≤ 65536) && decide (l.depth + r.rdepth ≤ 64)

/-- The place of one more group: the lane with the fewest groups, ties to the lower lane. -/
def State.nextPlace (s : State) (r : LaunchRecord) (cores : List Nat) (extra : List Place) : Option Place :=
  let lanes := cores.flatMap fun c => (List.range 32).map fun l => (c, l, (s.laneLoad c l).with r c l extra)
  match leastBy (fun x => x.2.2.slots.length) (lanes.filter fun x => x.2.2.fits r) with
  | none => none
  | some (c, l, load) => some ⟨c, l, ((List.range 8).find? fun k => !load.slots.contains k).getD 0⟩

/-- Places for n groups in order. -/
def State.nextPlaces (s : State) (r : LaunchRecord) (cores : List Nat) : Nat → List Place → Option (List Place)
  | 0, acc => some acc
  | n + 1, acc =>
    match s.nextPlace r cores acc with
    | none => none
    | some p => nextPlaces s r cores n (acc ++ [p])

/-- The groups of a team that need a place: all of them at first, the live ones later, in gix order. -/
def State.placing (s : State) (tm : Team) : List Nat :=
  let gs := s.groupsOf tm.id
  if gs.isEmpty then List.range tm.launch.groups else (gs.filter (·.live)).map (·.gix)

/-- The team fits on a core, or on the pair that begins at it: the places of its groups. -/
def State.fitsOn (s : State) (tm : Team) (core : Nat) : Option (List Place) :=
  let n := tm.launch.size
  let room := if tm.launch.pair then decide (min n 131072 ≤ s.coreFree core) && decide (n - 131072 ≤ s.coreFree (core + 1))
    else decide (n ≤ s.coreFree core)
  if room then s.nextPlaces tm.launch (if tm.launch.pair then [core, core + 1] else [core]) (s.placing tm).length []
  else none

/-- The eligible cores of a record; for a pair, the even cores of eligible pairs (20 R362, R368). -/
def LaunchRecord.cores (r : LaunchRecord) : List Nat :=
  let all := (List.range r.ncores).map (r.core0 + ·)
  if r.pair then all.filter fun c => c % 2 == 0 && decide (c + 1 < r.core0 + r.ncores) else all

/-! ## Ties to a cluster (15 R303, 18 R343) -/

/-- The team holds a name map, or a group of it is bound to an Oven queue, on a cluster. -/
def State.ovenTie (s : State) (tm : Team) : Option Nat :=
  (s.clusters.find? fun cl =>
    cl.oven.maps.any (·.team == tm.id) ||
      cl.oven.queues.any fun q => s.bound q && s.groups.any fun g => g.id == q.gid && g.team == tm.id).map (·.num)

/-- The cluster whose Carousel the team holds. -/
def State.carouselTie (s : State) (tm : Team) : Option Nat :=
  (s.clusters.find? fun cl => cl.car.holder == some tm.id).map (·.num)

/-- The eligible cores of a team, as lists in order of preference. -/
def State.eligible (s : State) (tm : Team) : List (List Nat) :=
  let cs := tm.launch.cores
  match s.ovenTie tm with
  | some k => [cs.filter fun c => clusterOfCore c == k]
  | none =>
    match s.carouselTie tm with
    | some k => [cs.filter fun c => clusterOfCore c == k, cs.filter fun c => clusterOfCore c != k]
    | none => [cs]

/-! ## The choice of a core (20 R369) -/

/-- The freed cores where a team may go: for a pair, the freed pairs. -/
def usableFreed (freed : List Nat) (pair : Bool) (cs : List Nat) : List Nat :=
  freed.filter fun c => cs.contains c && (!pair || freed.contains (c + 1))

/-- A core among some, with the places of the team's groups: a freed core first, else the fitting core with the most
free team memory, ties to the lower number. -/
def State.chooseAmong (s : State) (tm : Team) (freed cs : List Nat) : Option (Nat × List Place) :=
  let fit := fun (l : List Nat) => l.filterMap fun c => (s.fitsOn tm c).map fun p => (c, p)
  let free := fun c => if tm.launch.pair then s.coreFree c + s.coreFree (c + 1) else s.coreFree c
  match fit (usableFreed freed tm.launch.pair cs) with
  | x :: _ => some x
  | [] => leastBy (fun x => 262144 - free x.1) (fit cs)

def State.chooseCore (s : State) (tm : Team) (freed : List Nat) : Option (Nat × List Place) :=
  (s.eligible tm).findSome? fun cs => s.chooseAmong tm freed cs

/-- The head of a die's placement queue. -/
def Die.head (d : Die) : Option Nat := (d.resumed ++ d.fresh).head?

/-! ## Carousel leases (18 R343) -/

/-- A group of the team is resident on a cluster again: the lease is cancelled, also one that runs out at this time; one
that had run out before ends (18 R343, R360). -/
def State.cancelLease (s : State) (team cluster : Nat) : State :=
  let cl := s.clusterRec cluster
  if cl.car.holder = some team then
    if s.leaseOver cl then s.lapse cluster
    else s.putCluster { cl with car := { cl.car with leaseEnd := none } }
  else s

/-- Leases of a team on other clusters end at its placement. -/
def State.lapseElsewhere (s : State) (team cluster : Nat) : State :=
  ((s.clusters.filter fun cl => cl.car.holder == some team && cl.num != cluster).map (·.num)).foldl State.lapse s

/-! ## First placement (20 R370) -/

/-- The arguments of a spawned group in t0; threads beyond them are masked off (20 R372). DEDUCED (log 51, unsafe). -/
def Arch.spawned (a : Arch) (width : Nat) (args : List Word) : Arch :=
  { a with
    mask := lowMask args.length
    t := a.t.set 0 (.perThread ((List.range width).map fun i => (args.getD i 0, true))) }

/-- A group of a team at its start (04 R67, 20 R370). -/
def Group.start (tm : Team) (id gix : Nat) (place : Place) : Group where
  id := id
  team := tm.id
  gix := gix
  arch :=
    let a := Arch.launch tm.launch.entry tm.launch.width
    if tm.launch.spawn then a.spawned tm.launch.width tm.spawnArgs else a
  phase := .starting
  place := some place
  saved := false
  cclk := 0
  super := false
  rwLimit := none
  firstIssue := none
  wait := none
  replay := none
  pend := none
  trapped := none
  keptWait := none
  keptLimit := none
  keptIssue := none
  keptReplay := none
  emergency := none
  stalled := false
  stopAt := none
  winWrites := []
  himage := none
  overflow := []
  opens := []
  batches := []
  nextBatch := 1
  mcrumbs := List.replicate 32 none
  status := 0
  detail := 0
  traps := 0
  acqFloor := 0
  relFloor := 0

/-- The send entries of a team: the target of an entry is team (mix + DELTA) mod TEAMS (20 Table 20.2). -/
def LaunchRecord.sendEntries (r : LaunchRecord) (mix : Nat) : List SendEntry :=
  (List.range 16).map fun i =>
    match r.sends[i]? with
    | .none => ⟨false, 0, 0, 0⟩
    | some (delta, queue, permits) =>
      ⟨permits != 0, if r.teams = 0 then mix else (((mix : Int) + delta) % (r.teams : Int)).toNat, queue, permits⟩

/-- The task of a team has its first team placed: STATE 3 and TSTART (20 R366, Table 20.3), and the residency report of a
launch packet (20 R382). -/
def State.taskStarts (s : State) (tm : Team) : State :=
  match s.tasks.find? fun t => t.ctx == tm.ctx && t.tcb == tm.tcb with
  | none => s
  | some t =>
    match t.tstart with
    | some _ => s
    | none =>
      let s := s.putTask { t with tstart := some s.wall }
      let s := s.putTcb t.ctx t.tcb 0x14 (bytesOf 1 3)
      let s := s.putTcb t.ctx t.tcb 0x28 (bytesOf 8 s.wall)
      let due := fun (g : Gang) => g.ctx == tm.ctx && g.tcb == tm.tcb && !g.gang && !g.reported
      { s with
        reports := s.reports ++ (s.gangs.filter due).map fun g => ⟨g.pkt, wordOf Status.done, 1, dwordOf s.wall⟩
        gangs := updateWhere due (fun (g : Gang) => { g with reported := true, placedAt := some s.wall }) s.gangs }

/-- The cores that a team has been placed on once it is placed on a core, or on the pair that begins there. -/
def Team.homesOn (tm : Team) (core : Nat) : List Nat :=
  core :: (if tm.launch.pair then (core + 1) :: tm.homes else tm.homes)

/-- Place a team for the first time: its groups get their slots and save areas, its queues and send entries are bound, and
the Proofer begins (20 R370, 14 R273). -/
def State.placeFirst (s : State) (tm : Team) (core : Nat) (places : List Place) : State :=
  let area := s.takeSaveArea tm.ctx tm.launch
  let s := area.2
  let tm := { tm with
    life := .proofing
    core := some core
    homes := tm.homesOn core
    placed := s.nextId
    save := area.1
    queues := tm.launch.queues.map fun q => ⟨q.1, q.2.1, q.2.2.2⟩
    sends := tm.launch.sendEntries tm.mix
    tstart := some (tm.tstart.getD s.wall) }
  let gs := places.zipIdx.map fun x => Group.start tm (s.nextId + 1 + x.2) x.2 x.1
  let s := { s with nextId := s.nextId + 1 + gs.length, groups := s.groups ++ gs }
  (s.putTeam tm).taskStarts tm

/-! ## Placement after a stop -/

/-- Give the live groups of a team their places, in gix order. -/
def State.givePlaces (s : State) (team : Nat) (places : List Place) : State :=
  (((s.groupsOf team).filter (·.live)).zip places).foldl (fun s x =>
    s.onGroup x.1.id fun g => { g with place := some x.2 }) s

/-- Read a team's memory and its m copies back from its save area; a fault on the read is a double trap (14 R272, R275). -/
def State.readTeamImage (s : State) (tm : Team) (core : Nat) : State × Bool :=
  let n := tm.launch.tmem
  let names := roundUp tm.launch.mregs 8
  match s.readVa tm.ctx core 1 tm.save.toNat (n + 4 * names) with
  | (s, .error _) => (s, false)
  | (s, .ok bs) => (s.onTeam tm.id fun t => { t with
      mem := Memory.write [] 0 (bs.take n)
      mcopies := ((List.range names).map fun k => wordOf (fieldOf bs (n + 4 * k) 4)) ++ t.mcopies.drop names }, true)

/-- Place a team again: its groups will be restored (14 R277, 20 R368). -/
def State.placeAgain (s : State) (tm : Team) (core : Nat) (places : List Place) : State :=
  match s.readTeamImage tm core with
  | (s, false) =>
    let s := s.netRecord 0x0005 (netSrc 0 core) (bytesOf 8 0 ++ bytesOf 4 0 ++ bytesOf 4 (whoWord 0 core))
    s.haltContext tm.ctx 0xFFFFFFFF (netSrc 0 core) (fun _ => 0xFFFFFFFF)
  | (s, true) =>
    let placed := s.nextId
    let s := { s with nextId := placed + 1 }.onTeam tm.id fun t =>
      { t with life := .running, core := some core, homes := t.homesOn core, placed, yielding := false, swapLimit := none }
    (s.givePlaces tm.id places).lapseElsewhere tm.id (clusterOfCore core)

/-- Place a team on a core. -/
def State.place (s : State) (tm : Team) (core : Nat) (places : List Place) : State :=
  if (s.groupsOf tm.id).isEmpty then s.placeFirst tm core places else s.placeAgain tm core places

/-- Take a team out of a die's queue. -/
def Die.without (d : Die) (team : Nat) : Die :=
  { d with resumed := d.resumed.filter (· != team), fresh := d.fresh.filter (· != team) }

/-- Every range of a team's list is resident (07 R175). -/
def State.rangesIn (s : State) (tm : Team) : Bool := (s.absentRanges tm.ctx tm.launch).isEmpty

/-- Where the head of a die's queue goes: it fits there, and every range of its list is resident (07 R175, 20 R369). -/
def State.chooseHead (s : State) (tm : Team) (freed : List Nat) : Option (Nat × List Place) :=
  if s.rangesIn tm then s.chooseCore tm freed else none

/-- Serve the head of a die's queue (20 R369): it is placed, or it waits and the freed cores are forgotten. -/
def State.placeHead (s : State) (die : Nat) : State :=
  let d := s.dieRec die
  match d.head with
  | none => s
  | some id =>
    match s.team? id with
    | none => s.putDie (d.without id)
    | some tm =>
      match s.chooseHead tm d.freed with
      | none => s.putDie { d with freed := [] }
      | some (core, places) =>
        let used := if tm.launch.pair then [core, core + 1] else [core]
        (s.putDie { d.without id with freed := d.freed.filter fun c => !used.contains c }).place tm core places

/-- The head of a die's queue can be placed, or a retirement has not been looked at. -/
def State.mayPlace (s : State) (d : Die) : Bool :=
  match d.head with
  | none => false
  | some id =>
    match s.team? id with
    | none => true
    | some tm => (s.chooseHead tm d.freed).isSome

/-! ## Stopping a group (14 R277, R278) -/

/-- The group once its image is written. -/
def Group.away (g : Group) (width : Nat) : Group :=
  if g.super then { g with saved := true, himage := some g.arch, arch := Arch.launch 0 width }
  else { g with saved := true, overflow := g.overflow ++ g.arch.spilled, arch := Arch.launch 0 width }

/-- Stop a resident group and write its image. A handler's own state goes to HIMAGE and the trapped image stays; a fault on
the write goes through the emergency area, or waits for it (14 R276, R278). DEDUCED (log 47, unsafe). Translation registers are
saved as they are when the stop begins. DEDUCED (log 95, unsafe). -/
def State.saveGroup (s : State) (g : Group) : State :=
  let tm := s.teamOf g
  let s := { s with cores := s.cores.map (fun (c : Core) => { c with monitors := c.monitors.filter (·.1 != g.id) }) }
  let g := { g with stopAt := none, stalled := false }
  if g.super then (s.putGroup (g.away tm.launch.width)).startLease tm.id
  else
    let rcd := g.pend.getD (zeroBytes 128)
    match s.span tm.ctx (s.coreOf g) 1 .write (tm.groupSave g.gix) 0xE000 with
    | (s, .error f) => s.emergencySave g rcd ⟨g.arch.pc, 0, g.cclk, []⟩ (.stop g.phase) f
    | (s, .ok segs) =>
      ((s.putImage segs (s.imageOf g g.stateCode rcd)).putGroup (g.away tm.launch.width)).startLease tm.id

/-- Restore a group from its image (14 R273, R274); a fault or a failed check is a double trap (14 R272). -/
def State.restoreGroup (s : State) (g : Group) : State :=
  let tm := s.teamOf g
  let width := tm.launch.width
  let s := s.cancelLease tm.id (clusterOfCore (s.coreOf g))
  let g := (s.group? g.id).getD g
  if g.super then
    s.putGroup { g with saved := false, arch := (g.himage.getD g.arch).placed width (s.roomFor g), himage := none }
  else
    match s.imageSpan g .read with
    | (s, .error f) => s.doubleTrap g (0x0200 + f.1.sub)
    | (s, .ok segs) =>
      match s.readImage segs width (max tm.launch.tregs 16) g with
      | none => s.doubleTrap g 0
      | some a =>
        let limit := s.spanValue segs 0x0038 8
        s.putGroup { g with
          overflow := []
          arch := (s.fillX tm.ctx a).placed width (s.roomFor g)
          saved := false
          cclk := s.spanValue segs 0x0030 8
          wait := g.wait.map fun w => { w with limit }
          rwLimit := g.rwLimit.map fun _ => limit
          phase := if g.phase = .waiting then resumePhase g.wait else if g.phase = .blocked then .ready else g.phase }

/-! ## Stopping a team -/

/-- The team is to be stopped: its groups are saved one after another. -/
def State.stopTeam (s : State) (team : Nat) : State :=
  s.onTeam team fun t => if t.life = .running then { t with life := .stopping } else t

/-- Something on its way still writes the team's memory: a store, a tile load, a message. DEDUCED (log 67, safe). -/
def State.memoryBusy (s : State) (tm : Team) : Bool :=
  (s.stores.any fun e =>
    match e.loc with
    | .team t _ => t == tm.id
    | .phys _ => false) ||
  (s.deliveries.any fun d => (s.group? d.gid).any (fun g => g.team == tm.id) &&
    match d.product with
    | .tile _ _ _ _ _ _ => true
    | _ => false) ||
  s.appends.any (·.team == tm.id)

/-- Every live group of a stopping team is saved and nothing still writes its memory; the commands of a removed context
are stopped (12 R253). -/
def State.mayFinishStop (s : State) (tm : Team) : Bool :=
  tm.life == .stopping && (s.groupsOf tm.id).all (fun g => !g.live || g.saved) && !s.memoryBusy tm &&
    ((s.contextOf tm).removed || !s.cmds.any fun c => c.team == tm.id && !c.isDone && c.writesTeam)

/-- An entry of the crumb overflow area, as one of CRUMBS (14 Table 14.3): the parent may stand in the group's saved image. -/
def State.overflowEntry (s : State) (g : Group) (x : Nat × Crumb) : List Byte :=
  let listed := match (s.imageSpan g .read).2 with
    | .error _ => []
    | .ok segs => ((s.imageCrumbs segs).filter crumbValid).map crumbOf
  crumbEntry (listed ++ g.overflow) listed x

/-- The reserve of a team, above its declared size (04 R68): the team copies, a slot of each group for each m name, and the
crumb overflow area. How a slot is laid out is the model's. DESIGN CHOICE (log 118, unsafe). -/
def State.reserveImage (s : State) (tm : Team) : List Byte :=
  let gs := s.groupsOf tm.id
  let names := roundUp tm.launch.mregs 8
  let slot := fun (gix n : Nat) =>
    match (gs.find? (·.gix == gix)).bind fun g => g.mcrumbs.getD n none with
    | some v => bytesOf 4 v.toNat ++ bytesOf 4 1
    | none => zeroBytes 8
  let entry := fun (k : Nat) =>
    match gs.findSome? fun g => (g.overflow.find? (·.2.spill == some k)).map fun x => (g, x) with
    | some (g, x) => s.overflowEntry g x
    | none => zeroBytes 16
  (List.range names).flatMap (fun n => bytesOf 4 (tm.mcopies.getD n 0).toNat) ++
    (List.range tm.launch.groups).flatMap (fun gix => (List.range names).flatMap (slot gix)) ++ (List.range 64).flatMap entry

/-- The task of a launch packet. -/
def State.gangTask (s : State) (k : Gang) : Option Task := s.tasks.find? fun t => t.ctx == k.ctx && t.tcb == k.tcb

/-- The team stands on one of the cores of a record. -/
def Team.on (tm : Team) (r : LaunchRecord) : Bool :=
  let on := fun (c : Nat) => decide (r.core0 ≤ c) && decide (c < r.core0 + r.ncores)
  tm.core.any fun c => on c || (tm.launch.pair && on (c + 1))

/-- A save that keeps a gang waiting has ended: TIME of the gang's LATE report is the end of the last one (20 R383). -/
def State.lateTimes (s : State) (tm : Team) : State :=
  let waits := fun (k : Gang) => k.late && k.placedAt.isNone && (s.gangTask k).any fun t => tm.on t.launch
  let due := fun (r : Report) => r.status == wordOf Status.late && s.gangs.any fun k => k.pkt == r.pkt && waits k
  { s with reports := updateWhere due (fun (r : Report) => { r with time := dwordOf s.wall }) s.reports }

/-- The team's memory, with its reserve, goes to its save area, its room is freed, and it joins its queue (14 R275, R278, 20 R369, R376,
R378). While the save area cannot be written the stop is not over. -/
def State.finishStop (s : State) (tm : Team) : State :=
  match s.writeVa tm.ctx (tm.core.getD 0) 1 tm.save.toNat (tm.mem.read 0 tm.launch.tmem ++ s.reserveImage tm) with
  | (s, .error _) => s
  | (s, .ok _) =>
    let clear (g : Group) : Group := { g with place := none }
    let s := { s.lateTimes tm with groups := updateWhere (·.team == tm.id) clear s.groups }
    let d := s.dieRec (dieOfCore tm.launch.core0)
    if tm.swapLimit.isSome then s.onTeam tm.id fun t => { t with life := .swapped }
    else
      let s := s.onTeam tm.id fun t => { t with life := .stopped }
      if (s.contextOf tm).removed then s
      else if tm.yielding then s.putDie { d with fresh := d.fresh ++ [tm.id] }
      else s.putDie { d with resumed := d.resumed ++ [tm.id] }

def State.settleStops (s : State) : State :=
  s.teams.foldl (fun s tm => if s.mayFinishStop tm then s.finishStop tm else s) s

/-! ## The end of a swap (20 R376, R377) -/

/-- The wait for a swap. -/
def WaitObj.isSwap (o : WaitObj) : Bool :=
  match o with
  | .swap => true
  | _ => false

/-- A swapped team whose children have retired, or whose deadline has passed, joins the resumed tier. -/
def State.settleSwap (s : State) (tm : Team) : State :=
  let back := fun (s : State) =>
    let d := s.dieRec (dieOfCore tm.launch.core0)
    (s.onTeam tm.id fun t => { t with life := .stopped, swapLimit := none }).putDie { d with resumed := d.resumed ++ [tm.id] }
  if tm.joinSet.all Child.ended then
    let r := joinResult tm.joinSet
    back ((s.latch tm.id WaitObj.isSwap fun w => [(w.dst, r.1), (w.dst + 1, r.2)]).onTeam tm.id fun t => { t with joinSet := [] })
  else
    match tm.swapLimit with
    | some (limit, true) =>
      if limit ≤ s.wall then back (s.latch tm.id WaitObj.isSwap fun w => [(w.dst, statusWord Status.timeout)]) else s
    | _ => s

def State.settleSwaps (s : State) : State :=
  (s.teams.filter fun tm => tm.life == .swapped && !(s.contextOf tm).removed).foldl (fun s tm => s.settleSwap tm) s

/-! ## Pending traps (14 R278) -/

/-- Deliver the pending trap of a group. -/
def State.deliverPending (s : State) (g : Group) : State :=
  match g.pend with
  | none => s.putGroup { g with phase := .ready }
  | some rcd =>
    let t := g.trapped.getD ⟨dwordOf (fieldOf rcd 0 8), fieldOf rcd 0x0D 3, g.cclk, []⟩
    s.deliver { g with phase := .ready, traps := g.traps - 1 } rcd t

/-- Pending traps are delivered once their core's emergency area is free. -/
def State.settleTraps (s : State) : State :=
  (s.groups.filter fun g => g.here && g.phase == .trapPending).foldl (fun s g =>
    match s.group? g.id with
    | none => s
    | some g => if g.phase = .trapPending ∧ (s.coreRec (s.coreOf g)).emergUse.isNone then s.deliverPending g else s) s

end Sys2Proof.Machine
end

