-- ==== Sys2Proof/Machine/System.lean ====
section
/-! DEFINITION. System and trap instructions, opcodes 0xB0 to 0xBF (14 R283 to R294). -/

namespace Sys2Proof.Machine

def sysForm (op : Nat) (d a b : BitVec 8) (kd ka kb : Kind) (level : Nat) : Form :=
  { form3 op d.toNat a.toNat b.toNat kd ka kb with level := level }

/-- A pair source (02 R30). -/
def Kind.pairSrc : Kind := .src (.regs 2 true) .pair

/-! ## Ending, trapping and returning (R284 to R286) -/

def execExit (a : BitVec 8) (s : State) : Host.Outcome State Fault Refusal :=
  let f := { sysForm 0xB0 0 a 0 .unused .uniform .unused 0 with log := true }
  s.issue f fun c s => s.endGroup c.g.id (c.read c.a 0) 0

def execTrap (a : BitVec 8) (s : State) : Host.Outcome State Fault Refusal :=
  let f := sysForm 0xB1 0 a 0 .unused .uniform .unused 0
  s.issue f fun c s => let v := (c.read c.a 0).toNat; c.trap f s 0x0A (v % 256) v

def execTret (a : BitVec 8) (s : State) : Host.Outcome State Fault Refusal :=
  let f := sysForm 0xB2 0 a 0 .unused .uniform .unused 1
  s.issue f fun c s => s.trapReturn c.g (c.read c.a 0).toNat

/-- Write the image of a group that BRK holds, with STATE 4; a fault on the write goes through the emergency area, or waits
for it (14 R276). -/
def State.holdImage (s : State) (g : Group) : State :=
  let tm := s.teamOf g
  let record := g.pend.getD (zeroBytes 128)
  match s.span tm.ctx (s.coreOf g) 1 .write (tm.groupSave g.gix) 0xE000 with
  | (s, .error f) => s.emergencySave g record ⟨g.arch.pc, 0, g.cclk, []⟩ .hold f
  | (s, .ok segs) => (s.putImage segs (s.imageOf g 4 record)).putGroup { g with stalled := false }

/-- BRK under DEBUG: the group is held with its image written, and an event goes to the Hearth. -/
def State.hold (s : State) (g : Group) (record : List Byte) : State :=
  { s with hearthEvents := s.hearthEvents + 1 }.holdImage { g with phase := .held, pend := some record, traps := g.traps + 1 }

def execBrk (s : State) : Host.Outcome State Fault Refusal :=
  let f := sysForm 0xBE 0 0 0 .unused .unused .unused 0
  s.issue f fun c s =>
    if bitAt (s.contextOf c.tm).flags.toNat 1 && !c.g.super then
      s.hold c.g (trapRecord c.g c.width f.word 0x0B 0 c.active (f.views (s.issueOf f c.g).r) (s.windowHandle c.g) 0)
    else c.trap f s 0x0B 0 0

def execHalt (a : BitVec 8) (s : State) : Host.Outcome State Fault Refusal :=
  let f := sysForm 0xBF 0 a 0 .unused .uniform .unused 1
  s.issue f fun c s => s.haltBy c.g (c.read c.a 0).toNat

/-! ## The watchdog (R279) -/

def execBeat (s : State) : Host.Outcome State Fault Refusal :=
  let f := sysForm 0xB3 0 0 0 .unused .unused .unused 0
  s.issue f fun c s => (s.onTeam c.tm.id fun t => { t with wdog := 0 }).onGroup c.g.id fun g => g.advance

/-! ## The trapped image (R287, R288) -/

/-- Read and write the image of the trapped program; a fault on it is a double trap (R272). -/
def Ctx.onImage (c : Ctx) (need : Need) (go : List Seg → State → State) (s : State) : State :=
  match s.imageSpan c.g need with
  | (s, .error f) => s.doubleTrap c.g (0x0200 + f.1.sub)
  | (s, .ok segs) => go segs s

def execPidx (d a : BitVec 8) (s : State) : Host.Outcome State Fault Refusal :=
  let f := sysForm 0xB4 d a 0 (.dst .one .g) .uniform .unused 1
  s.issue f fun c s => c.onImage .write (fun segs s =>
    let old := s.spanValue segs 0x2C 4
    let s := if c.a = .zero then s else s.putSpan segs 0x2C (bytesOf 4 (min (c.read c.a 0).toNat old))
    c.answer [wordOf old] s) s

/-- What a window selector reaches: a register code (0x100 + n for predicate n) and a thread, or a status (R288).
H reaches the odd register of an even one; with an odd effective register, or a special other than `zero`, which only a refused
word has in a pair slot, it reaches nothing. DEDUCED (log 44, unsafe). DESIGN CHOICE (log 108, unsafe). -/
def windowTarget (g : Group) (width : Nat) (sel : Nat) (same : Bool) : Except Nat (Nat × Nat) :=
  let slot := bits sel 8 2
  if bits sel 6 2 ≠ 0 ∨ bits sel 11 21 ≠ 0 ∨ slot = 3 then .error 4
  else if !same then .error 1
  else if width ≤ bits sel 0 6 then .error 2
  else
    match g.trapped with
    | none => .error 1
    | some t =>
      match t.slots.getD slot none with
      | none => .error 3
      | some (code, pair) =>
        if bitAt sel 10 then
          if !pair then .error 3
          else if code = 0xF8 then .ok (code, bits sel 0 6)
          else if code < 0xF8 ∧ code % 2 = 0 then .ok (code + 1, bits sel 0 6)
          else .error 3
        else .ok (code, bits sel 0 6)

/-- The value that a thread of the trapped program resolves to. -/
def Ctx.windowRead (c : Ctx) (a : Arch) (reg i : Nat) : Word :=
  match (c.g.winWrites.reverse.find? fun w => w.reg == reg && w.thread == i) with
  | some w => w.val
  | none =>
    let old : Ctx := { c with g := { c.g with arch := a } }
    if 0x100 ≤ reg then old.read (.pred (reg - 0x100) false) i
    else
      match blockOf reg with
      | some b => old.read (operandOf b (reg - blockStart b)) i
      | none => old.read (specialOf reg) i

def winForm (op : Nat) (d a b : BitVec 8) (kd kb : Kind) : Form := sysForm op d a b kd .uniform kb 1

/-- The window handle in slot b names the open window. -/
def Ctx.sameWindow (c : Ctx) (s : State) : Bool := c.readPair c.b 0 == s.windowHandle c.g

def execWinrd (d a b : BitVec 8) (s : State) : Host.Outcome State Fault Refusal :=
  let f := winForm 0xB7 d a b (.dst (.regs 2 true) .g) (.src (.regs 2 true) .gz)
  s.issue f fun c s =>
    match windowTarget c.g c.width (c.read c.a 0).toNat (c.sameWindow s) with
    | .error st => s.onGroup c.g.id fun g => (g.setGs (c.dreg + 1) [wordOf st]).advance
    | .ok (reg, i) => c.onImage .read (fun segs s =>
        let arch := s.imageArch segs c.width (max c.tm.launch.tregs 16) c.g.overflow
        c.answer [c.windowRead arch reg i, 0] s) s

/-- Write through the window (R288). -/
def Ctx.windowWrite (c : Ctx) (reg i : Nat) (v : Word) (s : State) : State :=
  if 0x100 ≤ reg then
    (s.onGroup c.g.id fun g => { g with winWrites := g.winWrites ++ [⟨reg, i, v &&& 1⟩] }) |> c.answer [0]
  else
    match blockOf reg with
    | some 0 => (s.onGroup c.g.id fun g => { g with winWrites := g.winWrites ++ [⟨reg, i, v⟩] }) |> c.answer [0]
    | some 1 => c.onImage .write (fun segs s =>
        let n := reg - 0x80
        let s := s.putSpan segs (0x0200 + 4 * n) (bytesOf 4 v.toNat)
        let full := s.spanValue segs 0x0300 8
        c.answer [0] (s.putSpan segs 0x0300 (bytesOf 8 (putBits full n 1 1)))) s
    | some 2 => (s.onGroup c.g.id fun g => g.setM (reg - 0xC0) v) |> c.answer [0]
    | _ => c.answer [if reg = 0xF8 then 0 else 3] s

def execWinwr (d a b : BitVec 8) (s : State) : Host.Outcome State Fault Refusal :=
  let f := winForm 0xB8 d a b (.dst .one .g) (.src (.regs 3 true) .g)
  s.issue f fun c s =>
    match windowTarget c.g c.width (c.read c.a 0).toNat (c.sameWindow s) with
    | .error st => c.answer [wordOf st] s
    | .ok (reg, i) => c.windowWrite reg i (c.read (c.b.above 2) 0) s

/-! ## The mode register (R289) -/

def execModeRd (d : BitVec 8) (s : State) : Host.Outcome State Fault Refusal :=
  s.issue (sysForm 0xB5 d 0 0 (.dst (.regs 2 true) .g) .unused .unused 0) fun c s =>
    c.answer (pairWords c.g.arch.mode.toNat) s

def execModeWr (a : BitVec 8) (s : State) : Host.Outcome State Fault Refusal :=
  let f := sysForm 0xB6 0 a 0 .unused .pairSrc .unused 0
  s.issue f fun c s =>
    let v := c.readPair c.a 0 % 2 ^ 54
    if modeLegal v then s.putGroup (c.g.onArch fun x => { x with mode := dwordOf v }).advance
    else c.trap f s 0x01 0x04 0

/-! ## System registers (R290, Table 14.6) -/

/-- Who may read and write a register, at user and at supervisor level. -/
structure SregRights where
  userRead : Bool
  userWrite : Bool
  superRead : Bool
  superWrite : Bool
  deriving DecidableEq, Repr

/-- The rights to a register of Table 14.6; a write to an RO register is allowed and ignored, and a read of a WO register gives
zero (00 R5). None: no such register. -/
def sregRights (n : Nat) : Option SregRights :=
  if n ≤ 0x0003 ∨ n = 0x0040 then some ⟨true, true, true, true⟩
  else if (0x0010 ≤ n ∧ n ≤ 0x0011) ∨ (0x0020 ≤ n ∧ n ≤ 0x0031) then
    some ⟨false, false, true, true⟩
  else none

/-- A word of a 64-bit value: low, or high. -/
def halfOf (v : Nat) (hi : Bool) : Word := wordOf (if hi then v / 2 ^ 32 else v)

/-- The value of a system register; RLFREE reads as zero. -/
def State.sreg (s : State) (c : Ctx) (n : Nat) : Word :=
  let ctx := s.contextOf c.tm
  match n with
  | 0x0000 => if c.g.arch.esc then 1 else 0
  | 0x0001 => wordOf c.g.priv
  | 0x0002 => wordOf (((c.g.place.map slotNumber).getD 0) % 512 * 2 ^ 16 + s.coreOf c.g % 512)
  | 0x0003 => wordOf (c.tm.ctx % 65536)
  | 0x0010 => halfOf (c.tm.groupSave c.g.gix) false
  | 0x0011 => halfOf (c.tm.groupSave c.g.gix) true
  | 0x0020 => halfOf ctx.trapVec.toNat false
  | 0x0021 => halfOf ctx.trapVec.toNat true
  | 0x0022 => halfOf ctx.ctxSave.toNat false
  | 0x0023 => halfOf ctx.ctxSave.toNat true
  | 0x0024 => halfOf ctx.root.toNat false
  | 0x0025 => halfOf ctx.root.toNat true
  | 0x0026 => ctx.flags &&& 3
  | 0x0030 => halfOf (s.coreRec (s.coreOf c.g)).emerg.toNat false
  | 0x0031 => halfOf (s.coreRec (s.coreOf c.g)).emerg.toNat true
  | 0x0040 => s.serr
  | _ =>
    if 0x0028 ≤ n ∧ n ≤ 0x002F then
      wordOf ((List.range 32).foldl (fun v j => if ctx.rlog.contains (32 * (n - 0x28) + j) then v + 2 ^ j else v) 0)
    else 0

/-- Free a log entry (R275). -/
def State.freeLog (s : State) (ctx j : Nat) : State := s.onContext ctx fun c => { c with rlog := c.rlog.filter (· != j) }

/-- Write a system register: ESC and RLFREE alone change by a write of a program (R290). -/
def State.putSreg (s : State) (c : Ctx) (n : Nat) (v : Word) : State :=
  match n with
  | 0x0000 => s.onGroup c.g.id (·.onArch fun a => { a with esc := bitAt v.toNat 0 })
  | 0x0027 => s.freeLog c.tm.ctx v.toNat
  | _ => s

/-- The checks of an access to a register, then the access. -/
def Ctx.onSreg (c : Ctx) (f : Form) (write : Bool) (go : Nat → State → State) (s : State) : State :=
  let n := (c.read c.a 0).toNat
  match sregRights n with
  | none => c.trap f s 0x04 0x01 n
  | some r =>
    let ok := if c.g.priv = 0 then (if write then r.userWrite else r.userRead) else (if write then r.superWrite else r.superRead)
    if ok then go n s else c.trap f s 0x04 0x00 n

def execSregRd (d a : BitVec 8) (s : State) : Host.Outcome State Fault Refusal :=
  let f := sysForm 0xB9 d a 0 (.dst .one .g) .uniform .unused 0
  s.issue f fun c s => c.onSreg f false (fun n s => c.answer [s.sreg c n] s) s

def execSregWr (a b : BitVec 8) (s : State) : Host.Outcome State Fault Refusal :=
  let f := sysForm 0xBA 0 a b .unused .uniform .uniform 0
  s.issue f fun c s => c.onSreg f true (fun n s => (s.putSreg c n (c.read c.b 0)).onGroup c.g.id fun g => g.advance) s

/-! ## Shootdown, mark, clocks (R291 to R293) -/

def execShoot (d a b : BitVec 8) (s : State) : Host.Outcome State Fault Refusal :=
  let f := sysForm 0xBB d a b (.dst .one .g) .pairSrc .deadline 1
  s.issue f fun c s => c.waiting s fun s => c.armed f s fun dl s =>
    let page := dwordOf (c.readPair c.a 0 % 2 ^ 52 / 0x10000 * 0x10000)
    let s := (s.freeze c.g s.nextId).performAll 3 (s.overlay c.g s.nextId)
    let k := s.nextId
    let s := { s with nextId := k + 1, shootdowns := s.shootdowns ++ [(⟨k, c.tm.ctx, page, c.g.id⟩ : Shootdown)] }
    s.beginWait c.g (.shoot page k) c.dreg [(c.dreg, statusWord Status.timeout)] dl

def execSnet (a b : BitVec 8) (s : State) : Host.Outcome State Fault Refusal :=
  let f := sysForm 0xBC 0 a b .unused .uniform .pairSrc 0
  s.issue f fun c s =>
    let data := bytesOf 4 (c.read c.a 0).toNat ++ bytesOf 8 (c.readPair c.b 0) ++ bytesOf 4 (s.whoOf c.g)
    (s.netRecord 0x0006 (netSrc 0 (s.coreOf c.g)) data).onGroup c.g.id fun g => g.advance

def execClock (d a : BitVec 8) (s : State) : Host.Outcome State Fault Refusal :=
  s.issue (sysForm 0xBD d a 0 (.dst (.regs 2 true) .g) .uniform .unused 0) fun c s =>
    c.answer (pairWords (if bitAt (c.read c.a 0).toNat 0 then s.wall else c.g.cclk)) s

end Sys2Proof.Machine
end

