-- ==== Sys2Proof/Machine/Tasks.lean ====
section
/-! DEFINITION. Spawn, fork-join and task instructions, opcodes 0xA0 to 0xA8 (20 R371 to R378, R381). -/

namespace Sys2Proof.Machine

/-! ## Task control blocks (R363, R364, R374, R375) -/

/-- The check of a TCB address: its range first, then its alignment (R374). -/
def tcbAddress (va : Nat) : Option Nat :=
  if 2 ^ 52 ≤ va then some Status.faulted else if va % 128 ≠ 0 then some Status.badcmd else none

/-- The group's own stores to n bytes at a virtual address reach memory before a task operation reads them (10 R217). -/
def State.settleVa (s : State) (g : Group) (va n : Nat) : State :=
  match s.span (s.teamOf g).ctx (s.coreOf g) 1 .read va n with
  | (s, .error _) => s
  | (s, .ok segs) => segs.foldl (fun s x => s.settleBytes g (.phys x.pa) x.len) s

/-- A task operation on a TCB: its checks, the read of the TCB, and the operation, whole (R364). -/
def State.onTcb (s : State) (g : Group) (tcb : DWord) (go : List Byte → State → State × Nat) : State × Nat :=
  match tcbAddress tcb.toNat with
  | some st => (s, st)
  | none =>
    let ctx := (s.teamOf g).ctx
    match ((s.bringIn ctx tcb.toNat 128).settleVa g tcb.toNat 128).readTcb ctx tcb with
    | (s, .error _) => (s, Status.faulted)
    | (s, .ok b) => go b s

/-- Every one of some ranges can be written. -/
def State.writableAll (s : State) (ctx core : Nat) : List (Nat × Nat) → State × Bool
  | [] => (s, true)
  | (va, n) :: rest =>
    match (s.bringIn ctx va n).span ctx core 1 .write va n with
    | (s, .error _) => (s, false)
    | (s, .ok _) => writableAll s ctx core rest

/-- Writes of a task operation: all of them, or FAULTED and nothing. -/
def State.writeAll (s : State) (g : Group) (ws : List (Nat × List Byte)) : State × Nat :=
  let ctx := (s.teamOf g).ctx
  let core := s.coreOf g
  match s.writableAll ctx core (ws.map fun w => (w.1, w.2.length)) with
  | (s, false) => (s, Status.faulted)
  | (s, true) => (ws.foldl (fun s w => (s.writeVa ctx core 1 w.1 w.2).1) s, Status.done)

/-- The bytes that TCB.NEW writes, over the bytes that it keeps. -/
def newTcb (old : List Byte) (launch : Nat) (ctl tag : Word) : List Byte :=
  bytesOf 8 launch ++ bytesOf 8 tag.toNat ++ bytesOf 4 (bits ctl.toNat 0 16) ++ [0] ++ bytesOf 1 (bits ctl.toNat 16 1) ++
    bytesOf 2 0 ++ sliceOf old 0x18 10 ++ zeroBytes 94

def tcbNew (g : Group) (tcb : DWord) (launch : Nat) (ctl tag : Word) (s : State) : State × Nat :=
  s.onTcb g tcb fun b s =>
    let st := fieldOf b 0x14 1
    if 1 ≤ st ∧ st ≤ 3 then (s, Status.badcmd) else s.writeAll g [(tcb.toNat, newTcb b launch ctl tag)]

/-- Where successor j of a TCB stands. -/
def successorSlot (tcb : Nat) (b : List Byte) (j : Nat) : Nat :=
  if j < 8 then tcb + 0x40 + 8 * j else fieldOf b 0x18 8 + 8 * (j - 8)

def tcbSucc (g : Group) (a b : DWord) (s : State) : State × Nat :=
  match tcbAddress a.toNat, tcbAddress b.toNat with
  | some st, some st' => (s, if st' = Status.faulted then st' else st)
  | some st, none => (s, st)
  | none, some st => (s, st)
  | none, none =>
    s.onTcb g a fun pre s =>
      let n := fieldOf pre 0x16 2
      if fieldOf pre 0x14 1 = 4 then (s, Status.done)
      else s.onTcb g b fun suc s =>
      if 2 ≤ fieldOf suc 0x14 1 then (s, Status.badcmd)
      else if 8 + fieldOf pre 0x20 2 ≤ n then (s, Status.full)
      else
        s.writeAll g [(successorSlot a.toNat pre n, bytesOf 8 b.toNat), (a.toNat + 0x16, bytesOf 2 (n + 1)),
          (b.toNat + 0x10, bytesOf 4 (fieldOf suc 0x10 4 + 1))]

/-- A submission up to STATE 1: a release at `sys` of the group (R375, R381). -/
def submitTcb (g : Group) (tcb : DWord) (s : State) : State × Nat :=
  s.onTcb g tcb fun b s =>
    if fieldOf b 0x14 1 ≠ 0 then (s, Status.badcmd)
    else
      match (s.flush g).writeAll g [(tcb.toNat + 0x14, [1])] with
      | (s, 0) =>
        let t : Task :=
          { id := s.nextId, ctx := (s.teamOf g).ctx, tcb, tag := dwordOf (fieldOf b 0x08 8), launch := LaunchRecord.none
            ready := false, pendingRanges := [], queued := false, teamsLeft := 0, tstart := none, worst := none, nfail := 0
            traps := 0 }
        ({ s with nextId := s.nextId + 1, tasks := s.tasks ++ [t] }, Status.done)
      | r => r

/-- A submitted TCB without predecessors becomes ready (R366). -/
def State.readyIfFree (s : State) (ctx : Nat) (tcb : DWord) : State :=
  match s.readTcb ctx tcb with
  | (s, .error _) => s
  | (s, .ok b) => if fieldOf b 0x14 1 = 1 ∧ fieldOf b 0x10 4 = 0 then s.makeReady [(ctx, tcb)] else s

/-- Each TCB.DONE releases at `sys`, as a submission does: the start of the task synchronises with all of them (R381). -/
def tcbDone (g : Group) (tcb : DWord) (s : State) : State × Nat :=
  s.onTcb g tcb fun b s =>
    let pred := fieldOf b 0x10 4
    if pred = 0 then (s, Status.badcmd)
    else (s.flush g).writeAll g [(tcb.toNat + 0x10, bytesOf 4 (pred - 1))]

/-- A form of the class: the status goes to a `g` register. -/
def taskForm (op : Nat) (d a b : BitVec 8) (ka kb : Kind) : Form :=
  form3 op d.toNat a.toNat b.toNat (.dst .one .g) ka kb

/-- Run a task operation, then write its status and move on; `after` runs when it ended DONE. -/
def Ctx.taskOp (c : Ctx) (r : State × Nat) (after : State → State := id) : State :=
  let s := c.answer [statusWord r.2] r.1
  if r.2 = Status.done then after s else s

def execTcbNew (d a b : BitVec 8) (s : State) : Host.Outcome State Fault Refusal :=
  let f := taskForm 0xA3 d a b .pairSrc (.src (.regs 4 true) .g)
  s.issue f fun c s =>
    let ctl := c.read (c.b.above 2) 0
    if bits ctl.toNat 17 15 ≠ 0 then c.trap f s 0x07 0x04 0
    else c.taskOp (tcbNew c.g (dwordOf (c.readPair c.a 0)) (c.readPair c.b 0) ctl (c.read (c.b.above 3) 0) s)

def execTcbSucc (d a b : BitVec 8) (s : State) : Host.Outcome State Fault Refusal :=
  s.issue (taskForm 0xA4 d a b .pairSrc .pairSrc) fun c s =>
    c.taskOp (tcbSucc c.g (dwordOf (c.readPair c.a 0)) (dwordOf (c.readPair c.b 0)) s)

def execTcbSubmit (d a : BitVec 8) (s : State) : Host.Outcome State Fault Refusal :=
  s.issue (taskForm 0xA5 d a 0 .pairSrc .unused) fun c s =>
    let tcb := dwordOf (c.readPair c.a 0)
    c.taskOp (submitTcb c.g tcb s) fun s => s.readyIfFree c.tm.ctx tcb

def execTcbDone (d a : BitVec 8) (s : State) : Host.Outcome State Fault Refusal :=
  s.issue (taskForm 0xA6 d a 0 .pairSrc .unused) fun c s =>
    let tcb := dwordOf (c.readPair c.a 0)
    c.taskOp (tcbDone c.g tcb s) fun s => s.readyIfFree c.tm.ctx tcb

/-! ## Spawn bins (R371 to R373) -/

/-- Teams that spawn bins of a die have launched and that are not placed. -/
def State.pendingTeams (s : State) (d : Die) : Nat :=
  (s.teams.filter fun tm => d.fresh.contains tm.id && tm.launch.spawn && tm.life == .queued).length

/-- The key of a bin. -/
def Bin.key (b : Bin) : Nat × DWord := (b.ctx, b.entry)

def State.bin? (s : State) (die : Nat) (key : Nat × DWord) : Option Bin := (s.dieRec die).bins.find? (·.key == key)

/-- Put a bin back; it is free when it is empty and its time is BINNS. -/
def State.putBin (s : State) (die : Nat) (b : Bin) : State :=
  let d := s.dieRec die
  if b.args.isEmpty && b.time == b.launch.binns then s.putDie { d with bins := d.bins.filter (·.key != b.key) }
  else if d.bins.any (·.key == b.key) then s.putDie { d with bins := updateWhere (·.key == b.key) (fun _ => b) d.bins }
  else s.putDie { d with bins := d.bins ++ [b] }

/-- Launch(bin): one group of its waiting threads joins the new tier, when a pending-team entry is free. -/
def State.launchBin (s : State) (die : Nat) (b : Bin) : State :=
  let d := s.dieRec die
  if b.args.isEmpty || decide (4096 ≤ s.pendingTeams d) then s
  else
    let tm := { b.launch.team s.nextId b.ctx 0 0 b.counter with spawnArgs := b.args }
    let s := { s with nextId := s.nextId + 1, teams := s.teams ++ [tm] }
    let s := s.putDie { d with fresh := d.fresh ++ [tm.id] }
    s.putBin die { b with args := [], timer := none, counter := b.counter + 1 }

/-- A bin that nothing has used. -/
def Bin.new (ctx : Nat) (va : DWord) (r : LaunchRecord) : Bin := ⟨ctx, r.entry, va, r, [], r.binns, none, 0, false⟩

/-- The bin's timer has expired (R372). -/
def Bin.expired (b : Bin) (now : Nat) : Bool :=
  match b.timer with
  | none => false
  | some t0 => decide (t0 + b.time ≤ now)

/-- A bin may launch: it is full, or its time is 0 and it holds threads. -/
def Bin.ready (b : Bin) : Bool := decide (b.launch.width ≤ b.args.length) || (b.time == 0 && !b.args.isEmpty)

/-- The first SPAWN of a bin reads its record, also where BINTIME made the bin (20 R361). -/
def Bin.spawning (b : Bin) (va : DWord) (r : LaunchRecord) : Bin :=
  if b.read then b else { b with record := va, launch := r, read := true }

/-- One thread of SPAWN: its status. DEDUCED (log 50, unsafe). -/
def State.spawnOne (s : State) (die ctx : Nat) (va : DWord) (r : LaunchRecord) (arg : Word) : State × Nat :=
  let key := (ctx, r.entry)
  if (s.bin? die key).isNone && decide (64 ≤ (s.dieRec die).bins.length) then (s, Status.full)
  else
    let b := ((s.bin? die key).getD (Bin.new ctx va r)).spawning va r
    let s := if b.launch.width ≤ b.args.length then s.launchBin die b else s
    let b := ((s.bin? die key).getD (Bin.new ctx va r)).spawning va r
    if b.launch.width ≤ b.args.length then (s, Status.full)
    else
      let b := { b with args := b.args ++ [arg], timer := if b.args.isEmpty then some s.wall else b.timer }
      let s := s.putBin die b
      (if b.launch.width ≤ b.args.length then s.launchBin die b else s, Status.done)

/-- The record of SPAWN and BINTIME: read and checked once at issue; a status, or the record.
DEDUCED (log 49, unsafe). -/
def State.spawnRecord (s : State) (ctx core : Nat) (va : DWord) : State × Except Nat LaunchRecord :=
  if 2 ^ 52 ≤ va.toNat then (s, .error Status.faulted)
  else if va.toNat % 64 ≠ 0 then (s, .error Status.badcmd)
  else
    match s.readRecord ctx core false va with
    | (s, .unreadable) => (s, .error Status.faulted)
    | (s, .fails _) => (s, .error Status.badcmd)
    | (s, .good r) => if r.spawn && r.groups == 1 then (s, .ok r) else (s, .error Status.badcmd)

/-- The threads of a SPAWN in ascending order: each one's status. -/
def State.spawnAll (s : State) (die ctx : Nat) (va : DWord) (r : LaunchRecord) (args : List (Nat × Word)) :
    State × List (Nat × Nat) :=
  args.foldl (fun acc x =>
    match acc.1.spawnOne die ctx va r x.2 with
    | (s, st) => (s, acc.2 ++ [(x.1, st)])) (s, [])

/-- Write a status per thread and move on. -/
def Ctx.threadStatus (c : Ctx) (sts : List (Nat × Nat)) (s : State) : State :=
  let val := fun i => [statusWord (((sts.find? (·.1 == i)).map (·.2)).getD 0)]
  s.onGroup c.g.id fun g => (c.write c.d false val g).advance

def execSpawn (d a b : BitVec 8) (s : State) : Host.Outcome State Fault Refusal :=
  let f := form3 0xA0 d.toNat a.toNat b.toNat (.dst .one .t) .pairSrc (.src .one .lane)
  s.issue f fun c s =>
    let va := dwordOf (c.readPair c.a 0)
    let threads := threadsOf c.active
    let s := s.release c.g 3
    match s.spawnRecord c.tm.ctx (s.coreOf c.g) va with
    | (s, .error st) => c.threadStatus (threads.map fun i => (i, st)) s
    | (s, .ok r) =>
      let die := dieOfCore r.core0
      match s.spawnAll die c.tm.ctx va r (threads.map fun i => (i, c.read c.b i)) with
      | (s, sts) =>
        let s := match s.bin? die (c.tm.ctx, r.entry) with
          | none => s
          | some bin => if bin.time = 0 then s.launchBin die bin else s
        c.threadStatus sts s

/-- BINTIME on the bin of a record. -/
def State.setBinTime (s : State) (ctx : Nat) (va : DWord) (r : LaunchRecord) (ns : Nat) : State × Nat :=
  let die := dieOfCore r.core0
  let found := s.bin? die (ctx, r.entry)
  if found.isNone && decide (64 ≤ (s.dieRec die).bins.length) then (s, Status.full)
  else
    let b := { found.getD (Bin.new ctx va r) with time := ns }
    let s := s.putBin die b
    (if b.expired s.wall then s.launchBin die b else s, Status.done)

def execBintime (d a b : BitVec 8) (s : State) : Host.Outcome State Fault Refusal :=
  let f := taskForm 0xA7 d a b .pairSrc .uniform
  s.issue f fun c s =>
    let ns := (c.read c.b 0).toNat
    if 1000000 < ns then c.trap f s 0x07 0x04 0
    else
      let va := dwordOf (c.readPair c.a 0)
      match s.spawnRecord c.tm.ctx (s.coreOf c.g) va with
      | (s, .error st) => c.taskOp (s, st)
      | (s, .ok r) => c.taskOp (s.setBinTime c.tm.ctx va r ns)

/-- Full bins launch once a pending-team entry is free. -/
def State.settleBins (s : State) : State :=
  s.dies.foldl (fun s d => (d.bins.filter fun b => b.ready && !s.stoppedCtx b.ctx).foldl (fun s b => s.launchBin d.num b) s) s

/-! ## Fork and join (R376, R377) -/

/-- One child of a FORK: submitted and added to the join set, or counted as a failure. -/
def State.forkOne (s : State) (g : Group) (tcb : DWord) : State × Bool :=
  match submitTcb g tcb s with
  | (s, 0) =>
    let s := s.onTeam g.team fun t => { t with joinSet := t.joinSet ++ [⟨tcb, none, false⟩] }
    (s.readyIfFree (s.teamOf g).ctx tcb, true)
  | (s, st) =>
    (s.onTeam g.team fun t => { t with joinSet := t.joinSet ++ [⟨tcb, some (statusWord st), true⟩] }, false)

def State.forkAll (s : State) (g : Group) (l : List DWord) : State × Nat :=
  l.foldl (fun acc tcb =>
    match acc.1.forkOne g tcb with
    | (s, true) => (s, acc.2)
    | (s, false) => (s, acc.2 + 1)) (s, 0)

/-- FORK with STAY = 0: the group waits for the end of the swap, and the team is stopped. -/
def State.beginSwap (s : State) (gid dst : Nat) (dl : Armed) : State :=
  match s.group? gid with
  | none => s
  | some g =>
    let w : Wait := ⟨.swap, [(dst, statusWord Status.timeout)], dst, dl.limit, dl.wall, dl.poll, s.nextId, none⟩
    let s := s.putGroup { g with phase := .waiting, wait := some w }
    let s := s.onTeam g.team fun t => if t.swapLimit.isSome then t else { t with swapLimit := some (dl.limit, dl.wall) }
    s.stopTeam g.team

/-- The checks of FORK's list, as a team-memory load. DEDUCED (log 52, unsafe). -/
def forkCheck (tm : Team) (off n : Nat) : Option Nat :=
  if off % 8 ≠ 0 then some 0x06 else if tm.launch.tmem < off + 8 * n then some 0x07 else none

/-- FORK once its operands are good. -/
def Ctx.fork (c : Ctx) (f : Form) (off n : Nat) (swap : Option Armed) (s : State) : State :=
  match forkCheck c.tm off n with
  | some sub => c.park f { kind := 0, width := 0, whole := true } [(0, off, .plain sub)] [(0, dwordOf off)] [] 0 s
  | none =>
    let list := (chunks 8 n (s.view c.g s.nextId (.team c.tm.id off) (8 * n))).map fun x => dwordOf (ofBytes x)
    if 64 < (c.tm.joinSet.filter fun x => !x.failed).length + n then c.answer [statusWord Status.full, 0] s
    else
      match s.forkAll c.g list with
      | (s, bad) =>
        match swap with
        | none => c.answer [statusWord Status.done, wordOf bad] s
        | some dl => s.beginSwap c.g.id c.dreg dl

def execFork (d a b : BitVec 8) (s : State) : Host.Outcome State Fault Refusal :=
  let f := form3 0xA1 d.toNat a.toNat b.toNat (.acc (.regs 2 true) .g) .uniform .deadline
  s.issue f fun c s => c.waiting s fun s =>
    let word := (c.read c.a 0).toNat
    let n := (c.read c.d 0).toNat
    if bits word 18 13 ≠ 0 ∨ n = 0 ∨ 64 < n then c.trap f s 0x07 0x04 0
    else if bitAt word 31 then c.fork f (bits word 0 18) n none s
    else c.armed f s fun dl s => c.fork f (bits word 0 18) n (some dl) s

def execJoin (d b : BitVec 8) (s : State) : Host.Outcome State Fault Refusal :=
  let f := form3 0xA2 d.toNat 0 b.toNat (.dst (.regs 2 true) .g) .unused .deadline
  s.issue f fun c s => c.waiting s fun s => c.armed f s fun dl s =>
    s.beginWait c.g .join c.dreg [(c.dreg, statusWord Status.timeout)] dl

/-! ## YIELD (R378) -/

/-- The machine without a team's hold on its core: where the head of the queue could go. -/
def State.sansTeam (s : State) (team : Nat) : State :=
  { s with teams := s.teams.filter (·.id != team), groups := s.groups.filter (·.team != team) }

/-- The head of the queue fits on this core only without the team, and now on no eligible core. -/
def State.mustYield (s : State) (tm : Team) (core : Nat) : Bool :=
  let d := s.dieRec (dieOfCore core)
  match d.head with
  | none => false
  | some id =>
    match s.team? id with
    | none => false
    | some h =>
      let at' := if h.launch.pair then core / 2 * 2 else core
      (s.chooseCore h d.freed).isNone && (s.eligible h).any (·.contains at') && ((s.sansTeam tm.id).fitsOn h at').isSome

/-- DEDUCED (log 53, unsafe). -/
def execYield (d : BitVec 8) (s : State) : Host.Outcome State Fault Refusal :=
  let f := form3 0xA8 d.toNat 0 0 (.dst .one .g) .unused .unused
  s.issue f fun c s => c.waiting s fun s =>
    if s.mustYield c.tm (s.coreOf c.g) then
      let w : Wait := ⟨.yielded, [], c.dreg, 0, true, true, s.nextId, none⟩
      let s := s.putGroup { c.g with phase := .waiting, wait := some w }
      (s.onTeam c.tm.id fun t => { t with yielding := true }).stopTeam c.tm.id
    else c.answer [0] s

end Sys2Proof.Machine
end

