-- ==== Sys2Proof/Machine/Engines.lean ====
section
/-! DEFINITION. Events of the memory system, the waits and the engines: what comes about without an instruction of a group
(03 R51, R52, 07 R153, R172, 09 R189 to R211, 10 R222, R225, 12 R236 to R250, 15 R298, 16 R327, 18 R343, R356). An event
that cannot come about changes nothing. -/

namespace Sys2Proof.Machine

/-! ## Deliveries (03 R51, 07 R167, R169) -/

/-- DESIGN CHOICE (log 100, safe). -/
def execProducerDelivers (k : Nat) (s : State) : Host.Outcome State Fault Refusal :=
  .next <| match s.deliveries.find? (·.id == k) with
    | none => s
    | some d =>
      match s.group? d.gid with
      | none => { s with deliveries := s.deliveries.filter (·.id != k) }
      | some g => if s.mayDeliver d then s.deliverNow g d else s

/-! ## Waits (03 R52, 09 R192, 07 R172) -/

/-- A blocked read whose limit has passed is ready to take its trap (03 R52). -/
def Group.readExpired (g : Group) : Bool :=
  g.phase == .blocked && g.here && g.rwLimit.any fun l => decide (l ≤ g.cclk)

def execRegisterWaitExpired (gid : Nat) (s : State) : Host.Outcome State Fault Refusal :=
  .next <| match s.group? gid with
    | none => s
    | some g => if g.readExpired then s.putGroup { g with phase := .ready } else s

/-- A resident wait whose limit has passed; a WAITMEM then reads its word again (07 R171). -/
def State.timedWait (s : State) (g : Group) : Bool := g.phase == .waiting && g.here && g.wait.any fun w => s.expired g w

def Wait.onWord (w : Wait) : Bool :=
  match w.obj with
  | .word _ _ _ _ => true
  | _ => false

def execWaitTimeout (gid : Nat) (s : State) : Host.Outcome State Fault Refusal :=
  .next <| match s.group? gid with
    | none => s
    | some g =>
      match g.wait with
      | none => s
      | some w =>
        if !s.timedWait g then s
        else if w.onWord then s.putGroup { g with phase := .ready }
        else if w.obj.onCarousel then s.checkCar gid
        else s.checkWait g w

/-- A WAITMEM that waits in the core. -/
def Group.watches (g : Group) : Bool := g.phase == .waiting && g.here && g.wait.any (·.onWord)

/-- The head of the inputs, when it is a given one, has been performed. -/
def State.popInput (s : State) (i : Input) : State := if s.inputs.head? = some i then { s with inputs := s.inputs.tail } else s

def execSpuriousFiring (gid : Nat) (s : State) : Host.Outcome State Fault Refusal :=
  let s := s.popInput (.spuriousFiring gid)
  .next <| match s.group? gid with
    | none => s
    | some g => if g.watches then s.putGroup { g with phase := .ready } else s

/-- The monitor of a waiting WAITMEM has fired: a write to its line took it from the core, and the group looks again. -/
def State.fires (s : State) (g : Group) : Bool :=
  g.watches && !(s.coreRec (s.coreOf g)).monitors.any (·.1 == g.id)

def State.settleMonitors (s : State) : State :=
  (s.groups.filter s.fires).foldl (fun s g => s.onGroup g.id fun g => { g with phase := .ready }) s

/-! ## Stores and reductions (10 R222, 09 R189) -/

/-- A store may take its next step: it is performed at its scope's point, or, once it is, written to memory. -/
def State.storeReady (s : State) (e : PendingStore) : Bool := e.seenAt.isSome || s.mayPerform e

def execStorePerformed (k : Nat) (s : State) : Host.Outcome State Fault Refusal :=
  .next <| match s.stores.find? (·.id == k) with
    | none => s
    | some e => if s.storeReady e then s.performStore e else s

def execReductionRequestEnds (k : Nat) (s : State) : Host.Outcome State Fault Refusal :=
  .next <| match s.reductions.find? (·.id == k) with
    | none => s
    | some r => if s.mayEnd r then s.endReduction r else s

/-- Writing j to RLFREE frees log entry j, 0 to 255 (14 R275, Table 14.6). -/
def execRlfree (ctx j : Nat) (s : State) : Host.Outcome State Fault Refusal := .next (if j < 256 then s.freeLog ctx j else s)

/-! ## Shootdowns and promotions (07 R153, 10 R225) -/

/-- A physical range meets a frame. -/
def State.meetsFrame (s : State) (frames : List (Nat × Nat)) (l : Loc) (n : Nat) : Bool :=
  match l with
  | .phys a => frames.any fun f => decide (s.homePa a < f.1 + f.2) && decide (f.1 < s.homePa a + n)
  | .team _ _ => false

def Src.meetsFrame (s : State) (frames : List (Nat × Nat)) (x : Src) : Bool :=
  match x with
  | .at l n => s.meetsFrame frames l n
  | .lit _ => false

/-- An access of the context that used a translation to be removed is not complete (07 R153). -/
def State.shotBusy (s : State) (ctx va : Nat) : Bool :=
  let frames := s.shotFrames ctx va
  let mine := fun (gid : Nat) => (s.group? gid).any fun g => (s.teamOf g).ctx == ctx
  (s.deliveries.any fun d => mine d.gid && d.product.reads.any (Src.meetsFrame s frames)) ||
    (s.stores.any fun e => mine e.gid && e.seenAt.isNone && s.meetsFrame frames e.loc e.bytes.length) ||
    (s.reductions.any fun r => r.ctx == ctx && r.fault.isNone && s.meetsFrame frames r.loc r.width) ||
    s.cmds.any fun c => c.ctx == ctx && funcClass c.func == 5 &&
      c.units.any fun u => s.meetsFrame frames (.phys (64 * u.line)) 64 ||
        (u.bytes.isEmpty && !c.tmSt && s.meetsFrame frames (.phys u.off) 64)

def execShootdownComplete (k : Nat) (s : State) : Host.Outcome State Fault Refusal :=
  .next <| match s.shootdowns.find? (·.id == k) with
    | none => s
    | some x =>
      if s.shotBusy x.ctx x.va.toNat then s
      else
        let s := s.shootPage x.ctx x.va.toNat
        { s with shootdowns := s.shootdowns.filter (·.id != k) }

def execPromotionComplete (k : Nat) (s : State) : Host.Outcome State Fault Refusal :=
  .next <| match s.promotions.find? (·.id == k) with
    | none => s
    | some p => if s.mayPromote p then s.promote p else s

/-! ## Messages and permits (09 R209, R211) -/

def execPermitLands (k : Nat) (s : State) : Host.Outcome State Fault Refusal :=
  .next <| match s.permits.find? (·.id == k) with
    | none => s
    | some p =>
      let land (t : Team) : Team := { t with sends := t.sends.modify p.entry fun e => { e with permits := e.permits + 1 } }
      { s with permits := s.permits.filter (·.id != k) }.onTeam p.team land

/-- Appends through one send entry land in issue order. -/
def State.mayAppend (s : State) (a : Append) : Bool :=
  !s.appends.any fun x => x.fromTeam == a.fromTeam && x.entry == a.entry && decide (x.id < a.id)

/-- Write a message and its sender at TAIL. -/
def State.append (s : State) (a : Append) : State :=
  match s.openQueue a.team a.queue with
  | none => s
  | some (q, h) =>
    let entry := a.msg.flatMap (fun w => bytesOf 4 w.toNat) ++ bytesOf 4 a.sender.toNat
    let s := s.onTeam a.team fun t => { t with mem := t.mem.write (h.ring + 32 * (h.tail % h.slots)) entry }
    s.putHeader a.team q.hdr 0x0C (bytesOf 4 (h.tail + 1))

def execAppendLands (k : Nat) (s : State) : Host.Outcome State Fault Refusal :=
  .next <| match s.appends.find? (·.id == k) with
    | none => s
    | some a =>
      if s.mayAppend a then
        let s := s.append a
        { s with appends := s.appends.filter (·.id != k) }
      else s

/-! ## Engine commands (12 R236, R249, R250, 15 R298, 16 R327, 18 R343, R356) -/

/-- Commands that a cluster's copy engine holds, accepted and not complete (12 Table 12.1). -/
def State.heldCommands (s : State) (cluster : Nat) : Nat :=
  (s.cmds.filter fun c => c.cluster == cluster && funcClass c.func == 3 && (c.phase == .accepted || c.phase == .finishing)).length

def State.mayAccept (s : State) (c : Cmd) : Bool :=
  c.phase == .issued && !s.stoppedCtx c.ctx &&
    (funcClass c.func == 5 || (funcClass c.func == 3 && decide (s.heldCommands c.cluster < 256)))

def execCommandAccepted (k : Nat) (s : State) : Host.Outcome State Fault Refusal :=
  .next <| match s.cmd? k with
    | none => s
    | some c => if s.mayAccept c then (if funcClass c.func = 5 then s.acceptTm c else s.acceptCmd c) else s

/-- The team whose memory a command writes is placed. -/
def State.reaches (s : State) (c : Cmd) : Bool := !c.writesTeam || (s.team? c.team).any (·.holds)

/-- Commands that a cluster's copy engine works on at once: 16 of those accepted, whose context is on the device and whose
team is where they write (12 Table 12.1). -/
def State.workedOn (s : State) (cluster : Nat) : List Nat :=
  ((s.cmds.filter fun c => c.phase == .accepted && c.cluster == cluster && funcClass c.func == 3 && !s.stoppedCtx c.ctx &&
    s.reaches c).map (·.id)).take 16

/-- The group that a cluster's copy engine serves: the one of its turn until 4 KiB are moved, then the next that has a command
worked on (12 Table 12.1). The order of the groups in a round is open: by rising number. DESIGN CHOICE (log 120, unsafe). -/
def State.served (s : State) (cluster : Nat) : Option Nat :=
  let gids := ((s.workedOn cluster).filterMap s.cmd?).map (·.gid)
  let turn := (s.clusterRec cluster).turn
  if gids.contains turn.1 && decide (turn.2 < 4096) then some turn.1
  else
    match leastBy id (gids.filter fun g => decide (turn.1 < g)) with
    | some g => some g
    | none => leastBy id gids

/-- A copy may move a unit: it is worked on, and its group is served. -/
def State.mayMove (s : State) (c : Cmd) : Bool := (s.workedOn c.cluster).contains c.id && s.served c.cluster == some c.gid

/-- Bytes that a command moves next. -/
def Cmd.unitBytes (c : Cmd) : Nat := if c.started then ((c.units.head?).map (·.bytes.length)).getD 0 else 0

/-- A command's unit counts in the turn of its group. -/
def State.countTurn (s : State) (c : Cmd) : State :=
  let cl := s.clusterRec c.cluster
  let old := if cl.turn.1 = c.gid ∧ cl.turn.2 < 4096 then cl.turn.2 else 0
  s.putCluster { cl with turn := (c.gid, old + c.unitBytes) }

def execEngineUnitMoved (k : Nat) (s : State) : Host.Outcome State Fault Refusal :=
  .next <| match s.cmd? k with
    | none => s
    | some c => if s.mayMove c then (s.countTurn c).moveCopy c else s

def State.mayComplete (s : State) (c : Cmd) : Bool :=
  !s.stoppedCtx c.ctx && s.reaches c &&
    ((funcClass c.func == 3 && s.mayFinishCopy c) || (funcClass c.func == 5 && c.phase == .finishing))

def execCommandComplete (k : Nat) (s : State) : Host.Outcome State Fault Refusal :=
  .next <| match s.cmd? k with
    | none => s
    | some c => if s.mayComplete c then (if funcClass c.func = 5 then s.finishTm c else s.finishCopy c) else s

def execOvenTurn (cluster queue : Nat) (s : State) : Host.Outcome State Fault Refusal := .next (s.turn cluster queue)

def execTmLineOperation (k : Nat) (s : State) : Host.Outcome State Fault Refusal :=
  .next <| match s.cmd? k with
    | none => s
    | some c => if s.lineReady c && !s.stoppedCtx c.ctx then s.lineMove c else s

def execLeaseExpired (cluster : Nat) (s : State) : Host.Outcome State Fault Refusal := .next (s.endLease cluster)

def execCarouselCommandPerformed (cluster : Nat) (s : State) : Host.Outcome State Fault Refusal := .next (s.carMove cluster)

end Sys2Proof.Machine
end

