-- ==== Sys2Proof/Machine/Proofer.lean ====
section
/-! DEFINITION. The Proofer's work on a placed team and the start of its groups (02 R35, 12 R261, R262, 20 R370). -/

namespace Sys2Proof.Machine

/-! ## The steps as commands (12 Table 12.9) -/

/-- The command that a step of the Proofer runs as, on behalf of a team, at user level. -/
def Team.prooferCmd (tm : Team) (func : Nat) (a : DWord) (b : List Word) : Cmd where
  id := 0
  gid := 0
  team := tm.id
  ctx := tm.ctx
  cluster := clusterOfCore (tm.core.getD 0)
  priv := 0
  func := func
  a := a
  b := b
  reply := .none
  scope := 0
  use := 0
  active := 0
  phase := .accepted
  started := false
  units := []
  status := 0
  sub := 0
  progress := 0
  failed := 0
  banks := []
  next := 0
  cond := 0
  held := []
  follow := .none
  block := []
  card := []
  source := []
  window := []
  replied := false

/-- A transform binding (20 Table 20.2). -/
structure Binding where
  kind : Nat
  dst : Nat
  size : Nat
  idx : Nat
  ka : DWord
  kb : Word
  kc : Word
  kd : Word
  deriving DecidableEq, Repr

def bindingOf (b : List Byte) : Binding :=
  let f := fieldOf b
  ⟨f 0 1, f 4 4, f 8 4, f 0x0C 4, dwordOf (f 0x10 8), wordOf (f 0x18 4), wordOf (f 0x1C 4), wordOf (f 0x20 4)⟩

/-- The function code that a transform runs as. -/
def Binding.func (x : Binding) : Nat :=
  match x.kind with
  | 1 => 0x01
  | 2 => 0x09
  | 3 => 0x0A
  | 4 => 0x0B
  | _ => 0x06

/-- The command of a transform; its control word names no barrier. None where an operand does not fit its field. -/
def Binding.cmd (x : Binding) (tm : Team) : Option Cmd :=
  let dst := wordOf x.dst
  match x.kind with
  | 1 => if 262144 < x.size then none else some (tm.prooferCmd 0x01 x.ka [dst, wordOf x.size])
  | 2 => if 3 ≤ x.kd.toNat then none else some (tm.prooferCmd 0x09 x.ka [dst, x.kb, x.kc, x.kd])
  | 3 => if 2 ≤ x.kb.toNat then none else some (tm.prooferCmd 0x0A x.ka [dst, x.kb])
  | 4 => some (tm.prooferCmd 0x0B x.ka [dst, 0])
  | _ => some (tm.prooferCmd 0x06 x.ka [wordOf x.idx, dst, x.kb, 0])

/-- Bytes of the descriptor in memory that a transform names: planes and deq. -/
def Binding.descBytes (x : Binding) : Nat := if x.kind = 3 then 32 else if x.kind = 4 then 48 else 0

/-- How a step ended: a status and a sub-cause, DONE and 0 when it went well. -/
abbrev StepEnd := Nat × Nat

/-- The output of a transform. -/
def State.planBinding (s : State) (c : Cmd) (desc : List Byte) : State × Plan :=
  match c.func with
  | 0x01 => s.planVa c c.a.toNat c.arg (.team (c.word 0))
  | 0x09 => s.planTranspose c
  | 0x06 => s.planGather c
  | 0x0A =>
    match planeDesc (desc.take 32) with
    | none => (s, Plan.of [])
    | some d =>
      if bits c.arg 0 2 = 0 then s.planExtract c d
      else s.planValues c d 1 fun s _ x => (s, x, d.codeRow x.planes)
  | _ =>
    match planeDesc (desc.take 32) with
    | none => (s, Plan.of [])
    | some d => s.planValues c d 2 fun s r x => s.deqRow c d (fieldOf desc 0x20 8) (16 * 2 ^ fieldOf desc 0x28 1) r x

/-- The checks of a transform: the limits of its command, its region, its ranges and index list, tagged lines. -/
def Binding.check (x : Binding) (tm : Team) (c : Cmd) (desc : List Byte) : Option StepEnd :=
  let l := c.limits desc tm.launch.tmem
  let gathers := c.func == 0x06
  let counted := c.countBad || (gathers && c.word 0 % 4 != 0)
  let list := if gathers then [(c.word 0, 4 * bits (c.word 2) 0 16)] else []
  let output := l.dests.foldl (fun n r => n + r.2) 0
  if l.bad || counted || decide (x.size < output) then some (Status.badcmd, 0)
  else if (l.ranges ++ list ++ [(x.dst, x.size)]).any fun r => decide (tm.launch.tmem < r.1 + r.2) then some (Status.faulted, 0x07)
  else if l.dests.any fun r => tm.meetsTag r.1 r.2 then some (Status.clobbered, 0)
  else none

/-- Write team-memory units at once. -/
def writeUnits (l : List CopyUnit) (m : Memory) : Memory :=
  l.foldl (fun m u =>
    match u.dest with
    | .team o => m.write o u.bytes
    | .va _ => m) m

/-- Run a transform whose descriptor has been read; the rest of its region is 00. -/
def State.runBinding (s : State) (tm : Team) (x : Binding) (c : Cmd) (desc : List Byte) : State × StepEnd :=
  match x.check ((s.team? tm.id).getD tm) c desc with
  | some e => (s, e)
  | none =>
    match s.planBinding c desc with
    | (s, p) =>
      let fill (t : Team) : Team := { t with mem := writeUnits p.units (t.mem.clear x.dst x.size) }
      (s.onTeam tm.id fill, (p.status, p.sub))

/-- A transform, with the read of its descriptor. -/
def State.transform (s : State) (tm : Team) (x : Binding) : State × StepEnd :=
  match x.cmd tm with
  | none => (s, (Status.badcmd, 0))
  | some c =>
    if x.descBytes = 0 then s.runBinding tm x c []
    else if x.ka.toNat % 8 ≠ 0 then (s, (Status.badcmd, 0))
    else
      match s.stream c x.ka.toNat x.descBytes with
      | (s, _, some f) => (s, (Status.faulted, f.sub))
      | (s, desc, none) => s.runBinding tm x c desc

/-! ## Image, barriers, queues (20 R370) -/

/-- The copy of the initial image. -/
def State.imageCopy (s : State) (tm : Team) : State × StepEnd :=
  match s.stream (tm.prooferCmd 0x01 tm.launch.image [0, wordOf tm.launch.imlen]) tm.launch.image.toNat tm.launch.imlen with
  | (s, bs, none) => (s.onTeam tm.id fun t => { t with mem := Memory.write [] 0 bs }, (Status.done, 0))
  | (s, _, some f) => (s, (Status.faulted, f.sub))

/-- A barrier word, as if BAR.INIT had run on it. -/
def Team.initBarrier (tm : Team) (x : Nat × Nat) : Team :=
  { tm with
    mem := tm.mem.write x.1 (BarWord.bytes ⟨x.2, 0, 0, 0⟩)
    tags := tm.tags.filter (·.1 != x.1 / 16) ++ [(x.1 / 16, .barrier)] }

/-- A queue header, with the tags of its lines and of its ring's (09 R208). -/
def Team.initQueue (tm : Team) (q : Nat × Nat × Nat × Nat) : Team :=
  let hdr := q.2.1
  let ring := q.2.2.1
  let slots := q.2.2.2
  let lines := [hdr / 16, hdr / 16 + 1] ++ (List.range (2 * slots)).map (ring / 16 + ·)
  let bytes := bytesOf 4 ring ++ bytesOf 2 slots ++ bytesOf 2 1 ++ zeroBytes 12 ++ bytesOf 4 slots ++ zeroBytes 8
  { tm with
    mem := tm.mem.write hdr bytes
    tags := tm.tags.filter (fun t => !lines.contains t.1) ++ lines.map fun l => (l, .queue) }

/-- Barrier words and queue headers. -/
def Team.initLines (tm : Team) : Team :=
  let tm := tm.launch.bars.foldl Team.initBarrier tm
  tm.launch.queues.foldl Team.initQueue tm

/-- The transforms in declaration order; the first that does not end DONE, with its index. -/
def State.transforms (s : State) (tm : Team) : List (List Byte × Nat) → State × Option (Nat × Nat × StepEnd)
  | [] => (s, none)
  | (b, i) :: rest =>
    let x := bindingOf b
    match s.transform tm x with
    | (s, e) => if e.1 = Status.done then transforms s tm rest else (s, some (1 + i, x.func, e))

/-- All of the Proofer's work; its first piece that did not end DONE: step, function code, end (12 R262).
DEDUCED (log 63, unsafe). -/
def State.proofer (s : State) (tm : Team) : State × Option (Nat × Nat × StepEnd) :=
  match s.imageCopy tm with
  | (s, e) =>
    if e.1 ≠ Status.done then (s, some (0, 0x01, e))
    else (s.onTeam tm.id Team.initLines).transforms tm tm.launch.xforms.zipIdx

/-- The Proofer failed: no group starts and the team ends. -/
def State.failStart (s : State) (tm : Team) (step func : Nat) (e : StepEnd) : State :=
  let detail := wordOf (step * 2 ^ 24 + func * 2 ^ 16 + e.2 % 256)
  let s := (s.groupsOf tm.id).foldl (fun s g => s.endGroup g.id 0 0) s
  s.onTeam tm.id fun t => { t with life := .ended, proof := some (statusWord e.1, detail) }

/-- The groups of a team start, each with its context clock at 0 (09 R191). -/
def State.startGroups (s : State) (tm : Team) : State :=
  let go (g : Group) : Group := if g.phase = .starting then { g with phase := .ready, cclk := 0 } else g
  let s := { s with groups := updateWhere (·.team == tm.id) go s.groups }
  s.onTeam tm.id fun t => { t with life := .running }

/-- The team is placed and its Proofer is at work. -/
def State.mayStart (s : State) (tm : Team) : Bool := tm.life == .proofing && !s.stoppedCtx tm.ctx

def execTeamStart (id : Nat) (s : State) : Host.Outcome State Fault Refusal :=
  .next <| match s.team? id with
    | none => s
    | some tm =>
      if s.mayStart tm then
        match s.proofer tm with
        | (s, none) => s.startGroups tm
        | (s, some (step, func, e)) => s.failStart tm step func e
      else s

end Sys2Proof.Machine
end

