-- ==== Sys2Proof/Machine/Teams.lean ====
section
/-! DEFINITION. Events of the Ringmaster, the watchdog and the Turnstile: placement, retirement, stops and restores, bins,
gangs, asynchronous traps (09 R212, R213, 10 R231, 14 R271, R277 to R280, 20 R366 to R383). An event that cannot come
about changes nothing. -/

namespace Sys2Proof.Machine

/-! ## Placement and retirement -/

def execPlacement (die : Nat) (s : State) : Host.Outcome State Fault Refusal := .next (s.placeHead die)

/-- A request for the hold that is not granted yet: at retirement it is withdrawn (18 R344). -/
def Cmd.requests (c : Cmd) : Bool := c.func == 0x50 && c.phase == .finishing

/-- Every group of the team has ended, and every command, reduction and message of its groups with it (10 R231, 12 R253). -/
def State.mayRetire (s : State) (tm : Team) : Bool :=
  let gs := s.groupsOf tm.id
  let mine := fun (gid : Nat) => gs.any (·.id == gid)
  tm.life != .retired && tm.life != .queued && !gs.isEmpty && gs.all (fun g => !g.live) && !s.stoppedCtx tm.ctx &&
    !(s.cmds.any fun c => c.team == tm.id && !c.isDone && !c.requests) && !(s.reductions.any fun r => mine r.gid) &&
    !s.appends.any fun a => mine a.gid

def execRetirement (id : Nat) (s : State) : Host.Outcome State Fault Refusal :=
  .next <| match s.team? id with
    | none => s
    | some tm => if s.mayRetire tm then s.retireTeam tm (s.teamOutcome tm) else s

/-! ## Bins and the event ring (20 R372, R380) -/

def execBinTimerExpired (die bin : Nat) (s : State) : Host.Outcome State Fault Refusal :=
  .next <| match (s.dieRec die).bins[bin]? with
    | none => s
    | some b => if b.expired s.wall && !s.stoppedCtx b.ctx then s.launchBin die b else s

/-- The oldest record that is not signalled has reached the age threshold. -/
def EventRing.aged (r : EventRing) (now : Nat) : Bool := decide (0 < r.age) && r.fresh.head?.any fun t => decide (t + r.age ≤ now)

def execEventRingAgeInterrupt (die : Nat) (s : State) : Host.Outcome State Fault Refusal :=
  let d := s.dieRec die
  .next (if d.ring.aged s.wall then
    { s.putDie { d with ring := d.ring.interrupt } with hearthEvents := s.hearthEvents + 1 } else s)

/-! ## Stops and restores (14 R273, R277) -/

/-- A group can be stopped now: it is in a core, its image does not lie in an emergency area and does not wait for one. -/
def Group.stoppable (g : Group) : Bool := g.here && g.phase != .starting && g.emergency.isNone && !g.stalled

/-- The group's team is being stopped. -/
def State.mustStop (s : State) (g : Group) : Bool := g.stoppable && (s.teamOf g).life == .stopping

/-- Stop a group: at once, or after its next issue and between two of its beats, where it has more than one; which is
open. DESIGN CHOICE (log 46, safe). -/
def State.stopGroup (s : State) (g : Group) : State :=
  let k := Config.pick s.draw 257 % 257
  let s := { s with draw := s.draw + 1 }
  if g.phase = .ready ∧ k ≠ 0 then s.putGroup { g with stopAt := some k } else s.saveGroup g

def execPreemption (gid : Nat) (s : State) : Host.Outcome State Fault Refusal :=
  let asked := s.inputs.head? = some (.preemption gid)
  let s := s.popInput (.preemption gid)
  .next <| match s.group? gid with
    | none => s
    | some g => if (s.mustStop g || asked) && g.stoppable && g.stopAt.isNone then s.stopGroup g else s

/-- The group's issue is over: a stop that was to fall inside it falls now (14 R277). -/
def State.stopNow (s : State) (gid : Nat) : State :=
  match s.group? gid with
  | none => s
  | some g =>
    if g.stopAt.isNone then s
    else if g.stoppable then s.saveGroup { g with stopAt := none }
    else s.putGroup { g with stopAt := none }

/-- A group that waited for its core's emergency area is stopped, or held, once the area is free (14 R276). -/
def State.settleStalled (s : State) : State :=
  (s.groups.filter (·.stalled)).foldl (fun s g =>
    match s.group? g.id with
    | none => s
    | some g =>
      if !g.stalled || (s.coreRec (s.coreOf g)).emergUse.isSome then s
      else if g.phase = .held then s.holdImage { g with stalled := false }
      else s.saveGroup g) s

/-- The image of a stopped group may be restored. DESIGN CHOICE (log 57, safe). -/
def State.mayRestore (s : State) (g : Group) : Bool :=
  g.live && g.saved && g.place.isSome && (s.teamOf g).life == .running && !s.stoppedCtx (s.teamOf g).ctx

def execGroupRestore (gid : Nat) (s : State) : Host.Outcome State Fault Refusal :=
  let s := s.popInput (.groupRestore gid)
  .next <| match s.group? gid with
    | none => s
    | some g => if s.mayRestore g then s.restoreGroup g else s

/-! ## Pages of the backing store (14 R410, 20 R366) -/

/-- The address of the memory fault on which a group is parked. -/
def Group.parkedVa (g : Group) : Option Nat := if g.phase = .parked then g.pend.map (fun r => fieldOf r 0x28 8) else none

/-- A parked group whose page is no longer kept away replays its unfinished accesses. -/
def State.settleParked (s : State) : State :=
  let go (g : Group) : Group := { g with phase := .ready, pend := none }
  { s with groups := updateWhere (fun g => g.parkedVa.any fun va => !s.inBacking (s.teamOf g).ctx va) go s.groups }

def execBackingStorePageIn (ctx : Nat) (va : BitVec 64) (s : State) : Host.Outcome State Fault Refusal :=
  let s := s.popInput (.backingStorePageIn ctx va)
  .next ((s.bringIn ctx va.toNat 1).settleParked)

/-- The tasks that wait for ranges, in the order in which they became ready; a gang also for those that were evicted again while
it waits for its start. -/
def State.rangeWaiters (s : State) : List Task :=
  s.tasks.filter fun t => t.ready && !t.queued && !(t.pendingRanges.isEmpty && (s.absentRanges t.ctx t.launch).isEmpty)

/-- A range of a task has been brought in; once every range of its list is resident, also those that were evicted again in
the meantime, the teams join the queue. -/
def State.rangeIn (s : State) (t : Task) : State :=
  match t.pendingRanges ++ s.absentRanges t.ctx t.launch with
  | [] => s
  | r :: _ =>
    let s := s.bringIn t.ctx r.1.toNat r.2.toNat
    let rest := s.absentRanges t.ctx t.launch
    let t := { t with pendingRanges := rest }
    let s := s.putTask t
    if rest.isEmpty && !s.isGang t.ctx t.tcb then s.enqueueTask t else s

/-- The heads of the placement queues whose ranges have been evicted since they became ready (07 R175). DEDUCED (log 31,
unsafe). -/
def State.headWaiters (s : State) : List Team :=
  (s.dies.filterMap fun d => d.head.bind s.team?).filter fun tm => !s.rangesIn tm

/-- An evicted range of a queued team is brought in again. -/
def State.headRangeIn (s : State) (tm : Team) : State :=
  match s.absentRanges tm.ctx tm.launch with
  | [] => s
  | r :: _ => s.bringIn tm.ctx r.1.toNat r.2.toNat

/-- Those for which a range is due, in order: queued teams, whose tasks became ready first, then tasks. -/
def State.rangeDue (s : State) : List Nat := s.headWaiters.map (·.id) ++ s.rangeWaiters.map (·.id)

/-- A range has been brought in for a task, or for a queued team. -/
def execRangeBroughtIn (k : Nat) (s : State) : Host.Outcome State Fault Refusal :=
  let s := s.popInput (.rangeBroughtIn k)
  .next (if s.rangeDue.head? = some k then
    match s.headWaiters, s.rangeWaiters with
    | tm :: _, _ => s.headRangeIn tm
    | [], t :: _ => s.rangeIn t
    | [], [] => s
  else s)

/-! ## The watchdog (14 R279) -/

/-- The snapshot of a live group. DEDUCED (log 64, unsafe). -/
def State.snapshot (s : State) (tm : Team) (g : Group) : State :=
  s.netRecord 0x0004 (netSrc 0 (s.coreOf g))
    (bytesOf 8 g.arch.pc.toNat ++ bytesOf 4 (whoTeam tm.mix g.gix) ++ bytesOf 4 g.stateCode)

/-- The count has reached the window; a team that is being stopped counts on while a group of it is resident. -/
def Team.wdogDue (tm : Team) : Bool :=
  (tm.life == .running || tm.life == .stopping) && decide (0 < tm.launch.wdog) && decide (tm.launch.wdog ≤ tm.wdog)

def execWatchdogExpired (id : Nat) (s : State) : Host.Outcome State Fault Refusal :=
  .next <| match s.team? id with
    | none => s
    | some tm =>
      if tm.wdogDue then
        let s := (s.liveOf id).foldl (fun s g => s.snapshot tm g) s
        (s.onTeam id fun t => { t with wdogTrap := true, wdog := 0 }).stopTeam id
      else s

/-! ## Asynchronous traps (14 R271, R279, R280) -/

/-- A group is at an instruction boundary in its core. -/
def Group.atBoundary (g : Group) : Bool :=
  g.here && g.arch.pidx == 0 && g.stopAt.isNone && !g.stalled && match g.phase with
    | .ready | .blocked | .waiting => g.replay.isNone
    | _ => false

/-- The lowest live group of a running team, at a boundary. -/
def State.asyncTarget (s : State) (tm : Team) : Option Group :=
  if tm.life = .running then (s.liveOf tm.id).head?.filter (·.atBoundary) else none

def execWatchdogTrap (id : Nat) (s : State) : Host.Outcome State Fault Refusal :=
  .next <| match s.team? id with
    | none => s
    | some tm =>
      if tm.wdogTrap then
        match s.asyncTarget tm with
        | none => s
        | some g => (s.onTeam id fun t => { t with wdogTrap := false, wdog := 0 }).plainTrap g 0x0D 0 tm.launch.wdog
      else s

def execLostPermitTrap (id : Nat) (s : State) : Host.Outcome State Fault Refusal :=
  .next <| match s.team? id with
    | none => s
    | some tm =>
      match tm.permitTraps with
      | [] => s
      | d :: rest =>
        if tm.wdogTrap then s
        else
          match s.asyncTarget tm with
          | none => s
          | some g => (s.onTeam id fun t => { t with permitTraps := rest }).plainTrap g 0x0C 0 d.toNat

/-! ## The Turnstile (09 R212, R213) -/

/-- The send entries of a team: those bound at placement, or those that its record declares. -/
def Team.entries (tm : Team) : List SendEntry := if tm.life = .queued then tm.launch.sendEntries tm.mix else tm.sends

/-- The sum that a queue's TOTAL must equal. -/
def State.permitSum (s : State) (tm : Team) (q : QueueDecl) (h : QueueHeader) : Nat :=
  let peers := s.teams.filter fun t => t.ctx == tm.ctx && t.tcb == tm.tcb
  let targets := fun (e : SendEntry) => e.declared && e.mix == tm.mix && e.queue == q.num
  let held := peers.foldl (fun n t => (t.entries.filter targets).foldl (fun n e => n + e.permits) n) 0
  let moving := (s.permits.filter fun p => peers.any fun t => t.id == p.team && targets (t.sends.getD p.entry ⟨false, 0, 0, 0⟩)).length
  let messages := (s.appends.filter fun a => a.team == tm.id && a.queue == q.num).length
  held + moving + messages + (h.tail + 2 ^ 32 - h.head) % 2 ^ 32 + h.held

/-- DETAIL of a lost permit (14 Table 14.1). DEDUCED (log 65, unsafe). -/
def lostDetail (sum queue core total : Nat) : DWord :=
  dwordOf (sum % 2 ^ 32 * 2 ^ 32 + queue % 16 * 2 ^ 28 + core % 512 * 2 ^ 16 + total % 8192)

/-- A queue whose sum differs: the entry, LOSTP set and OPEN cleared, and the trap raised. -/
def State.losePermit (s : State) (tm : Team) (q : QueueDecl) (h : QueueHeader) (sum : Nat) : State :=
  let core := tm.core.getD 0
  let d := lostDetail sum q.num core h.total
  let s := s.netRecord 0x0003 (netSrc 3 core) (bytesOf 8 d.toNat ++ bytesOf 8 q.hdr)
  let flags := tm.mem.value (q.hdr + 6) 2
  let s := s.putHeader tm.id q.hdr 0x06 (bytesOf 2 (putBits (putBits flags 0 1 0) 1 1 1))
  if (s.liveOf tm.id).isEmpty then s else s.onTeam tm.id fun t => { t with permitTraps := t.permitTraps ++ [d] }

/-- The audit of one queue. -/
def State.auditQueue (s : State) (team : Nat) (q : QueueDecl) : State :=
  match s.team? team, s.openQueue team q.num with
  | some tm, some (_, h) =>
    let sum := s.permitSum tm q h
    if sum = h.total then s else s.losePermit tm q h sum
  | _, _ => s

/-- The credits of a link that the audit finds. -/
def Link.sum (l : Link) : Nat := l.free + l.moving

/-- The audit of one link or channel: a sum that differs is recorded and goes to the Hearth monitor, never to a group
(R213, 14 R280). The entry's fields for a link are the model's. DESIGN CHOICE (log 122, unsafe). -/
def State.auditLink (s : State) (l : Link) : State :=
  if l.sum = l.credits then s
  else
    let s := s.netRecord 0x0003 (netSrc 3 l.port) (bytesOf 8 (lostDetail l.sum 0 0 l.credits).toNat ++
      bytesOf 8 (l.port * 256 + l.channel))
    { s with hearthEvents := s.hearthEvents + 1 }

/-- A link may have lost a credit since the last audit: which one is open, and whether any. DESIGN CHOICE (log 92, safe). -/
def State.loseCredit (s : State) : State :=
  let n := s.links.length + 1
  let k := Config.pick s.draw n % n
  let lose := fun (x : Link × Nat) => if x.2 + 1 = k then { x.1 with free := x.1.free - 1 } else x.1
  { s with draw := s.draw + 1, links := s.links.zipIdx.map lose }

/-- Every open queue, every link and every channel is audited. -/
def execTurnstileAudit (s : State) : Host.Outcome State Fault Refusal :=
  let s := s.teams.foldl (fun s tm => tm.queues.foldl (fun s q => s.auditQueue tm.id q) s) s
  let s := if s.links.isEmpty then s else s.loseCredit
  .next (s.links.foldl State.auditLink s)

/-! ## Gangs (20 R383) -/

/-- Place teams one after another; none when one of them fits nowhere. -/
def State.placeAll (s : State) : List Nat → Option State
  | [] => some s
  | id :: rest =>
    match s.team? id with
    | none => none
    | some tm =>
      match s.chooseCore tm [] with
      | none => none
      | some (core, places) => (s.place tm core places).placeAll rest

/-- The machine with a gang's teams made, outside the queue, and all placed; none while they do not fit. -/
def State.placeGang (s : State) (t : Task) : Option State :=
  let ids := (List.range t.launch.teams).map (s.nextId + ·)
  let s := s.enqueueTask t
  let d := s.dieRec (dieOfCore t.launch.core0)
  (s.putDie (ids.foldl Die.without d)).placeAll ids

/-- The gang fits on its cores when nothing else is there. -/
def State.gangFits (s : State) (t : Task) : Bool := ({ s with teams := [], groups := [] }.placeGang t).isSome

/-- The running team on some cores that was placed most recently, of another task. -/
def State.newestTeam (s : State) (t : Task) : Option Team :=
  let there := s.teams.filter fun tm => tm.life == .running && tm.on t.launch && !(tm.ctx == t.ctx && tm.tcb == t.tcb)
  there.reverse.foldl (fun best tm =>
    match best with
    | none => some tm
    | some b => if b.placed < tm.placed then some tm else some b) none

/-- A stop for the gang, of a team on its cores, is still going on. -/
def State.gangStopping (s : State) (t : Task) : Bool := s.teams.any fun tm => tm.life == .stopping && tm.on t.launch

/-- Stop the most recently placed team, one at a time, until the gang fits. DEDUCED (log 68, unsafe). -/
def State.prepareGang (s : State) (t : Task) : State :=
  if (s.placeGang t).isSome || s.gangStopping t then s
  else
    match s.newestTeam t with
    | none => s
    | some tm => s.stopTeam tm.id

def State.report (s : State) (k : Gang) (status teams time : Nat) : State :=
  { s with reports := s.reports ++ [⟨k.pkt, statusWord status, wordOf teams, dwordOf time⟩] }

def State.putGang (s : State) (k : Gang) : State := { s with gangs := updateWhere (·.id == k.id) (fun _ => k) s.gangs }

/-- START has come: the gang is placed, reported LATE, or aborted. TIME of a LATE report, which lies ahead, is filled in when the
saves end. DEDUCED (log 68, unsafe). -/
def State.startGang (s : State) (k : Gang) (t : Task) : State :=
  match (if s.gangStopping t || !(s.absentRanges t.ctx t.launch).isEmpty then none else s.placeGang t) with
  | some s =>
    let time := if k.late then s.wall else k.start
    (s.putGang { k with placedAt := some s.wall, reported := true }).report k Status.done t.launch.teams time
  | none =>
    if k.strict then
      let s := s.putGang { k with reported := false }
      s.endTask t ⟨Status.aborted, 0xFFFFFFFF, 0⟩
    else if k.late then s.prepareGang t
    else ((s.prepareGang t).putGang { k with late := true }).report k Status.late 0 s.wall

/-- A gang whose task is ready waits for its start. -/
def State.gangWaits (s : State) (k : Gang) : Option Task :=
  if k.gang && k.placedAt.isNone && !s.stoppedCtx k.ctx then (s.gangTask k).filter fun t => t.ready && !t.queued else none

def execGangStart (id : Nat) (s : State) : Host.Outcome State Fault Refusal :=
  .next <| match s.gangs.find? (·.id == id) with
    | none => s
    | some k =>
      match s.gangWaits k with
      | none => s
      | some t =>
        if !s.gangFits t then { s with draw := s.draw + 1 }.endTask t ⟨Status.refused, 0xFFFFFFFF, (Config.word s.draw).toNat⟩
        else if k.start ≤ s.wall then s.startGang k t
        else s.prepareGang t

/-- The gang has kept its cores for SLICE ns. -/
def State.sliceOver (s : State) (k : Gang) : Bool :=
  k.gang && decide (0 < k.slice) && k.placedAt.any fun t => decide (t + k.slice ≤ s.wall)

/-- The gang's teams are stopped, wherever they stand; one whose Proofer is still at work is stopped once it starts. -/
def execGangSliceExpired (id : Nat) (s : State) : Host.Outcome State Fault Refusal :=
  .next <| match s.gangs.find? (·.id == id) with
    | none => s
    | some k =>
      if s.sliceOver k then
        let mine := s.teams.filter fun tm => tm.ctx == k.ctx && tm.tcb == k.tcb
        let before := k.sliced.getD s.nextId
        let busy := mine.any fun tm => tm.life == .proofing && decide (tm.placed < before)
        ((mine.filter fun tm => decide (tm.placed < before)).map (·.id)).foldl State.stopTeam
          (s.putGang (if busy then { k with sliced := some before } else { k with slice := 0 }))
      else s

end Sys2Proof.Machine
end

