-- ==== Sys2Proof/Machine/Contexts.lean ====
section
/-! DEFINITION. What the Hearth service does with whole contexts and ranges: removal and return of a context (12 R253,
15 R303, 16 R335, 18 R343) and eviction (07 R176). A removed context's engine state goes to its engine resume area; the
model goes on from what it keeps itself, as no program runs that could change that area (log 23). -/

namespace Sys2Proof.Machine

/-- The oldest message from outside has been taken. -/
def State.pop (s : State) : State := { s with inputs := s.inputs.tail }

/-! ## The Oven state of a context (15 R303) -/

/-- A team, and a group, of the context. -/
def State.teamIn (s : State) (ctx team : Nat) : Bool := (s.team? team).any (·.ctx == ctx)

def State.groupIn (s : State) (ctx gid : Nat) : Bool := (s.group? gid).any fun g => s.teamIn ctx g.team

/-- The banks of the maps and the draining banks that p chooses by team. -/
def Oven.banksFor (o : Oven) (p : Nat → Bool) : List Nat :=
  (o.maps.filter fun m => p m.team).flatMap (fun m => m.names.flatten) ++ (o.draining.filter fun d => p d.1).map (·.2.2)

/-- The part of an Oven whose teams, groups and banks are chosen; heat tokens and the turn stay with the cluster. -/
def Oven.part (o : Oven) (team gid bank : Nat → Bool) : Oven :=
  { o with
    queues := o.queues.filter fun q => gid q.gid
    maps := o.maps.filter fun m => team m.team
    draining := o.draining.filter fun d => team d.1
    acc := o.acc.filter fun x => bank (x.1 / 1024) }

/-- A saved Oven holds something. -/
def Oven.holdsState (o : Oven) : Bool := !(o.queues.isEmpty && o.maps.isEmpty && o.draining.isEmpty)

/-- An Oven without the draining banks that no command waits for: of a context that is away only the one that leaves. -/
def State.drainedFor (s : State) (ctx : Nat) (cl : Cluster) : Oven :=
  let waits := fun (b : Nat) => s.cmds.any fun c =>
    !c.isDone && c.cluster == cl.num && (c.ctx == ctx || !s.stoppedCtx c.ctx) && c.banks.contains b
  { cl.oven with draining := cl.oven.draining.filter fun d => waits d.2.2 }

/-- The context's Oven state leaves a cluster. DESIGN CHOICE (log 23, unsafe). -/
def State.saveOven (s : State) (ctx : Nat) (cl : Cluster) : State :=
  let o := s.drainedFor ctx cl
  let banks := o.banksFor (s.teamIn ctx)
  let mine := o.part (s.teamIn ctx) (s.groupIn ctx) banks.contains
  let rest := o.part (fun t => !s.teamIn ctx t) (fun g => !s.groupIn ctx g) (fun b => !banks.contains b)
  if mine.holdsState then
    { s.putCluster { cl with oven := rest } with savedOvens := s.savedOvens ++ [⟨ctx, cl.num, mine⟩] }
  else s

/-- The teams that a saved Oven ties to its cluster. -/
def State.tiedTeams (s : State) (o : Oven) : List Nat :=
  o.maps.map (·.team) ++ (o.queues.filterMap fun q => s.group? q.gid).map (·.team)

/-- The bound queues of a cluster. -/
def State.boundQueues (s : State) (o : Oven) : List OvenQueue := o.queues.filter s.bound

/-- A cluster can hold a saved Oven: free banks, queues and maps, and it is eligible for every team tied to it. -/
def State.canHold (s : State) (x : SavedOven) (k : Nat) : Bool :=
  let o := s.drained k
  decide ((x.oven.banksFor fun _ => true).length ≤ o.freeBanks.length) &&
    decide ((s.boundQueues o).length + x.oven.queues.length ≤ 64) && decide (o.maps.length + x.oven.maps.length ≤ 64) &&
    (s.tiedTeams x.oven).all fun t => (s.team? t).all fun tm => tm.launch.cores.any fun c => clusterOfCore c == k

/-- The command belongs to a saved Oven: an Oven command, or a copy that one follows. -/
def State.followsOven (s : State) (x : SavedOven) (c : Cmd) : Bool :=
  c.ctx == x.ctx && c.cluster == x.cluster && (funcClass c.func == 4 || c.follow.isSome) &&
    ((x.oven.queues.any (·.gid == c.gid)) || (s.tiedTeams x.oven).contains c.team)

/-- Put a saved Oven on a cluster, with new bank and queue numbers. -/
def State.putOven (s : State) (x : SavedOven) (k : Nat) : State :=
  let o := s.drained k
  let o := { o with queues := s.boundQueues o }
  let old := x.oven.banksFor fun _ => true
  let new := fun b => o.freeBanks.getD (old.idxOf b) 0
  let free := (List.range 64).filter fun n => !o.queues.any (·.num == n)
  let queues := x.oven.queues.zipIdx.map fun q => { q.1 with num := free.getD q.2 0 }
  let maps := x.oven.maps.map fun m => { m with names := m.names.map fun l => l.map new }
  let acc := x.oven.acc.foldl (fun l e => accSet l (new (e.1 / 1024) * 1024 + e.1 % 1024) e.2) o.acc
  let o := { o with
    queues := o.queues ++ queues
    maps := o.maps ++ maps
    draining := o.draining ++ x.oven.draining.map fun d => (d.1, d.2.1, new d.2.2)
    acc }
  let move := fun (c : Cmd) => if s.followsOven x c then { c with cluster := k, banks := c.banks.map new } else c
  { s.onOven k fun _ => o with cmds := s.cmds.map move, savedOvens := s.savedOvens.filter (· != x) }

/-- Restore saved Ovens, each on a cluster that can hold it; none where one finds no cluster. -/
def State.restoreOvens (s : State) : List SavedOven → Option State
  | [] => some s
  | x :: rest =>
    let fit := (List.range 64).filter (s.canHold x)
    if fit.isEmpty then none
    else
      let k := fit.getD (Config.pick s.draw fit.length % fit.length) 0
      ({ s with draw := s.draw + 1 }.putOven x k).restoreOvens rest

/-! ## The engine resume area (14 R275) -/

/-- A byte list cut or filled with zeros to n bytes. -/
def padTo (n : Nat) (bs : List Byte) : List Byte := bs.take n ++ zeroBytes (n - bs.length)

/-- Bytes of a stream that a command has moved: where its next unit begins (12 R249, R253). -/
def Cmd.position (c : Cmd) : Nat :=
  match c.units with
  | [] => c.progress.toNat
  | u :: _ => u.off

/-- The stream position of a DCMP: the bytes of its stream that it has read to yield its output so far (13 R266). -/
def Cmd.streamAt (c : Cmd) : Nat :=
  let produced := ((c.units.head?).map (·.off)).getD c.next
  if c.func = 0x0C then streamPosition (jobCard c.block).kind produced c.source else 0

/-- The 128 bytes of a stopped command. What stands where is the model's. DESIGN CHOICE (log 23, unsafe). -/
def Cmd.resumeRecord (c : Cmd) : List Byte :=
  padTo 128 (bytesOf 2 c.func ++ bytesOf 2 c.cluster ++ bytesOf 4 c.gid ++ bytesOf 8 c.a.toNat ++
    padTo 16 (c.b.flatMap fun w => bytesOf 4 w.toNat) ++ bytesOf 8 c.position ++ bytesOf 8 c.next ++ bytesOf 4 c.status.toNat ++
    bytesOf 4 c.sub.toNat ++ bytesOf 4 c.streamAt ++ bytesOf 4 c.failed.toNat ++ padTo 64 c.block)

/-- The record of a stopped command, and the history window of a DCMP (12 R266). -/
def Cmd.resume (c : Cmd) : List Byte := c.resumeRecord ++ (if c.func = 0x0C then padTo 65536 c.window else [])

/-- What a queue keeps of an unfinished command beside its record of 128 bytes: its number, its captured banks, its tiles done and
conditions so far, and the setup that it read at issue (15 R303). -/
def Cmd.ovenResume (c : Cmd) : List Byte :=
  bytesOf 4 c.id ++ bytesOf 1 c.banks.length ++ padTo 32 (c.banks.flatMap (bytesOf 1)) ++ bytesOf 8 c.next ++
    bytesOf 1 c.cond.toNat ++ padTo 128 c.block

/-- A queue of a saved Oven, with its setup, conditions and commands. -/
def OvenQueue.resume (s : State) (q : OvenQueue) : List Byte :=
  let form := fun (f : OvenFormat) => bytesOf 1 f.kind ++ bytesOf 1 f.n ++ bytesOf 1 f.k ++ bytesOf 1 f.flags ++ bytesOf 4 f.lb ++
    bytesOf 4 f.off ++ bytesOf 8 f.scale.toNat ++ bytesOf 4 f.spitch ++ bytesOf 4 f.pitch ++ bytesOf 4 f.pstride
  let base := fun (b : Option DWord) => bytesOf 8 (b.getD 0).toNat
  bytesOf 2 q.num ++ bytesOf 1 q.cond.toNat ++ bytesOf 1 q.cmds.length ++ bytesOf 4 q.gid ++
    padTo 64 ((q.fmt.map fun f => form f.1 ++ form f.2).getD []) ++ base q.aBase ++ base q.bBase ++
    padTo 2048 ((q.idx.getD []).flatMap fun x => bytesOf 2 x.toNat) ++ padTo 16 (q.waited.flatMap (bytesOf 4)) ++
    (q.cmds.filterMap s.cmd?).flatMap Cmd.ovenResume

/-- A name map of a saved Oven. -/
def NameMap.resume (m : NameMap) : List Byte :=
  bytesOf 4 m.team ++ m.names.flatMap fun l => bytesOf 1 l.length ++ l.flatMap (bytesOf 1)

/-- A saved Oven: its banks of 4,096 bytes, its maps and its queues (15 R303). -/
def SavedOven.resume (s : State) (x : SavedOven) : List Byte :=
  let bank := fun (b : Nat) => (List.range 1024).flatMap fun k => bytesOf 4 (x.oven.element (1024 * b + k)).toNat
  (x.oven.banksFor fun _ => true).flatMap bank ++ x.oven.maps.flatMap NameMap.resume ++ x.oven.queues.flatMap (OvenQueue.resume s)

/-- The bytes of a context's engine resume area. -/
def State.resumeArea (s : State) (ctx : Nat) : List Byte :=
  (s.cmds.filter fun c => c.ctx == ctx && !c.isDone).flatMap Cmd.resume ++
    (s.savedOvens.filter (·.ctx == ctx)).flatMap (SavedOven.resume s)

/-- Where a context's save area lies. -/
def State.saveAt (s : State) (ctx : Nat) : Nat :=
  match s.context? ctx with
  | none => 0
  | some c => c.ctxSave.toNat

/-- A context save area with room for n bytes: the service sizes it, in another place when it must grow; the fault log
moves with it. DESIGN CHOICE (log 23, unsafe). -/
def State.growSave (s : State) (ctx n : Nat) : State :=
  if 0x2000 + n ≤ 0x10000 then s
  else
    match s.allocateSystem ctx (0x2000 + n) with
    | none => s
    | some (va, s) =>
      let old := s.saveAt ctx
      match s.readVa ctx 0 1 old 0x2000 with
      | (s, .error _) => s
      | (s, .ok log) => (s.writeVa ctx 0 1 va log).1.onContext ctx fun c => { c with ctxSave := dwordOf va }

/-- The commands of a removed context, its Oven state and the windows of its decompressions are written to its resume
area. -/
def State.writeResume (s : State) (ctx : Nat) : State :=
  let bytes := s.resumeArea ctx
  let s := s.growSave ctx bytes.length
  let at' := s.saveAt ctx + 0x2000
  if bytes.isEmpty then s else (s.writeVa ctx 0 1 at' bytes).1

/-- A unit in two parts. -/
def CopyUnit.cut (u : CopyUnit) (k : Nat) : CopyUnit × CopyUnit :=
  let dest := match u.dest with
    | .va a => Dest.va (a + dwordOf k)
    | .team o => Dest.team (o + k)
  ({ u with bytes := u.bytes.take k, bits := u.bits.take k },
   { u with off := u.off + k, dest, bytes := u.bytes.drop k, bits := u.bits.drop k })

/-- A running DCMP stops between two output bytes (12 R266): which two is open. A unit that a fault would stop is not begun. -/
def State.stopDcmp (s : State) (c : Cmd) : State :=
  match c.func == 0x0C && c.started && c.phase == .accepted, c.units with
  | true, u :: rest =>
    let k := Config.pick s.draw u.bytes.length % u.bytes.length
    let parts := u.cut k
    let s := { s with draw := s.draw + 1 }
    if k = 0 || (s.writeUnit c u).2.isSome then s
    else
      match s.writeUnit c parts.1 with
      | (t, none) => t.putCmd ({ c with units := parts.2 :: rest }.keepOutput parts.1)
      | (_, some _) => s
  | _, _ => s

/-- Perform an issued line of a tower-memory command whole, unless one that comes first keeps it waiting. -/
def State.wholeLine (k stream : Nat) : Nat → State → State
  | 0, s => s
  | n + 1, s =>
    match s.cmd? k with
    | none => s
    | some c =>
      match c.units.find? (·.stream == stream) with
      | none => s
      | some u => if !u.bytes.isEmpty && s.lineWaits c u then s else wholeLine k stream n (s.performLine c u)

/-- A line that waited for another command was not performed, and neither was any other of its command: all are issued again. -/
def Cmd.backUp (c : Cmd) : Cmd :=
  match leastBy (fun i => i) (c.units.map (·.stream)) with
  | none => c
  | some i => { c with units := [], next := i, status := 0, sub := 0, progress := 0 }

/-- A running tower-memory command stops between two lines: every line that it has issued is performed (16 R335). -/
def State.stopTm (s : State) (c : Cmd) : State :=
  if funcClass c.func = 5 ∧ c.phase = .accepted then
    let lines := sortBy id (c.units.map (·.stream))
    (lines.foldl (fun s i => wholeLine c.id i 2 s) s).onCmd c.id Cmd.backUp
  else s

/-- The running commands of a context stop, in issue order. -/
def State.stopCmds (s : State) (ctx : Nat) : State :=
  (sortBy (·.id) (s.cmds.filter (·.ctx == ctx))).foldl (fun s c => (s.stopDcmp c).stopTm c) s

/-! ## Removal and return -/

/-- Save every group of the context that is in a core. -/
def State.saveGroups (s : State) (ctx : Nat) : State :=
  (s.groups.filter fun g => g.stoppable && (s.teamOf g).ctx == ctx).foldl (fun s g =>
    match s.group? g.id with
    | some g => s.saveGroup g
    | none => s) s

/-- A team whose Proofer is at work goes back to its queue. -/
def State.unplace (s : State) (ctx : Nat) : State :=
  let back := (s.teams.filter fun tm => tm.ctx == ctx && tm.life == .proofing).map (·.id)
  let lose (tm : Team) : Team := { tm with life := .queued, core := .none, homes := [], mem := [], tags := [], queues := [] }
  { s with
    groups := s.groups.filter fun g => !back.contains g.team
    teams := updateWhere (fun tm => back.contains tm.id) lose s.teams }

/-- Every Carousel lease of the context's teams ends at once (18 R343). -/
def State.lapseContext (s : State) (ctx : Nat) : State :=
  ((s.clusters.filter fun cl => cl.car.holder.any (s.teamIn ctx)).map (·.num)).foldl State.lapse s

/-- The context leaves the device: its groups are saved and its teams stop, its commands stand still, its Oven state leaves
its clusters, its leases end. DEDUCED (log 72, unsafe). -/
def State.removeContext (s : State) (ctx : Nat) : State :=
  let s := (s.stopCmds ctx).onContext ctx fun c => { c with removed := true }
  let stop (tm : Team) : Team := if tm.ctx = ctx ∧ tm.life = .running then { tm with life := .stopping } else tm
  let s := { (s.saveGroups ctx).unplace ctx with dies := s.dies.map fun (d : Die) =>
    { d with resumed := d.resumed.filter fun t => !s.teamIn ctx t, fresh := d.fresh.filter fun t => !s.teamIn ctx t } }
  let s := { s with teams := s.teams.map stop }
  (s.clusters.foldl (fun s cl => s.saveOven ctx (s.clusterRec cl.num)) (s.lapseContext ctx)).writeResume ctx

def execContextRemoval (s : State) : Host.Outcome State Fault Refusal :=
  .next <| match s.inputs.head? with
    | some (.contextRemoval ctx) => if s.stoppedCtx ctx then s.pop else s.pop.removeContext ctx
    | _ => s

/-- A team of a returned context joins its queue. -/
def State.rejoin (s : State) (tm : Team) : State :=
  let d := s.dieRec (dieOfCore tm.launch.core0)
  if tm.life = .queued ∨ (tm.life = .stopped ∧ tm.yielding) then s.putDie { d with fresh := d.fresh ++ [tm.id] }
  else if tm.life = .stopped then s.putDie { d with resumed := d.resumed ++ [tm.id] }
  else s

/-- The context comes back; while no cluster can hold its Oven state it stays away. -/
def State.returnContext (s : State) (ctx : Nat) : State :=
  match s.restoreOvens (s.savedOvens.filter (·.ctx == ctx)) with
  | none => s
  | some s =>
    let s := s.onContext ctx fun c => { c with removed := false }
    (s.teams.filter (·.ctx == ctx)).foldl State.rejoin s

def execContextReturn (s : State) : Host.Outcome State Fault Refusal :=
  .next <| match s.inputs.head? with
    | some (.contextReturn ctx) => if s.stoppedCtx ctx then s.pop.returnContext ctx else s.pop
    | _ => s

/-! ## Eviction (07 R176) -/

/-- A range of virtual memory: address, bytes. -/
abbrev Range := Nat × Nat

def Range.meets (x y : Range) : Bool := decide (x.1 < y.1 + y.2) && decide (y.1 < x.1 + x.2)

/-- The leaves below a table: address, level, entry. -/
def leavesFrom (mem : Memory) : Nat → Nat → Nat → List (Nat × Nat × Nat)
  | 0, table, va => (List.range 512).filterMap fun i =>
    let e := mem.value (table + 8 * i) 8
    if Pte.v e && Pte.leaf e then some (va + i * pageSize 0, 0, e) else none
  | n + 1, table, va => (List.range 512).flatMap fun i =>
    let e := mem.value (table + 8 * i) 8
    let a := va + i * pageSize (n + 1)
    if !Pte.v e then [] else if Pte.leaf e then [(a, n + 1, e)] else leavesFrom mem n (Pte.frame e) a

/-- The pages of a context that a program may use, present now. -/
def State.userPages (s : State) (ctx : Nat) : List (Nat × Nat × Nat) :=
  (leavesFrom s.mem 3 (s.rootOf ctx) 0).filter fun p => Pte.u p.2.2

def LaunchRecord.rangeList (r : LaunchRecord) : List Range := r.ranges.map fun x => (x.1.toNat, x.2.toNat)

/-- The ranges that may be evicted: those that tasks name, and each page that no task names; never one that a resident
team names. A page that no task names counts as a range of its own. DEDUCED (log 73, unsafe). -/
def State.evictable (s : State) (ctx : Nat) : List Range :=
  let pages := (s.userPages ctx).map fun p => ((p.1, pageSize p.2.1) : Range)
  let named := distinct ((s.tasks.filter (·.ctx == ctx)).flatMap (·.launch.rangeList))
  let held := (s.teams.filter fun tm => tm.ctx == ctx && tm.holds).flatMap (·.launch.rangeList)
  let all := named ++ pages.filter fun (p : Range) => !named.any p.meets
  all.filter fun (r : Range) => pages.any r.meets && !held.any r.meets

/-- The teams of a die's placement queue in its order: the resumed tier first (20 R369). -/
def State.queueOf (s : State) (d : Die) : List Team := (d.resumed ++ d.fresh).filterMap s.team?

/-- The next use of a range: the place in the queue of a die of the first team whose list names it, the lowest of the dies'; after
the queues, the ready tasks that are not in them yet; beyond every one when none names it. -/
def State.nextUse (s : State) (ctx : Nat) (r : Range) : Nat :=
  let names := fun (c : Nat) (l : LaunchRecord) => c == ctx && l.rangeList.contains r
  match leastBy id (s.dies.filterMap fun d => (s.queueOf d).findIdx? fun tm => names tm.ctx tm.launch) with
  | some n => n
  | none =>
    s.dies.foldl (fun n d => max n (s.queueOf d).length) 0 +
      s.tasks.findIdx fun t => t.ready && !t.queued && names t.ctx t.launch

/-- How long ago a range was used: the place of its newest page in the order of last use; beyond every page when none was
used. -/
def State.lastUse (s : State) (ctx : Nat) (r : Range) : Nat :=
  s.recent.findIdx fun p => p.1 == ctx && r.meets ((p.2.1, p.2.2) : Range)

/-- Those for which a key is largest. -/
def most {α : Type} (key : α → Nat) (l : List α) : List α :=
  let top := l.foldl (fun m x => max m (key x)) 0
  l.filter fun x => key x == top

/-- The victim: the range whose next use lies farthest ahead; then the one used least recently, then the one with the lower
address. -/
def State.victim (s : State) (ctx : Nat) : Option Range :=
  leastBy (·.1) (most (s.lastUse ctx) (most (s.nextUse ctx) (s.evictable ctx)))

/-- A page leaves: shot down, not present, its bytes in the backing store, its frame free but where the page is compressed
(R176, log 54). -/
def State.evictPage (s : State) (ctx : Nat) (p : Nat × Nat × Nat) : State :=
  let frame := s.homePa (Pte.frame p.2.2)
  let size := pageSize p.2.1
  let s := (s.stores.filter fun e => s.meetsFrame [(frame, size)] e.loc e.bytes.length).foldl State.commit s
  match entryAddr s.mem p.1 p.2.1 3 (s.rootOf ctx) with
  | none => s
  | some addr =>
    let pte := s.mem.value addr 8
    let bytes : Memory := (s.mem.filter fun c => decide (frame ≤ c.1) && decide (c.1 < frame + size)).map fun c => (c.1 - frame, c.2)
    let s := s.shootPage ctx p.1
    let s := { s with mem := s.mem.write addr (bytesOf 8 (putBits pte 0 1 0)) }
    let s := if Pte.ck pte = 0 then s.freeFrame (Pte.frame pte) size else s
    s.onContext ctx fun c => { c with backing := c.backing ++ [(dwordOf p.1, p.2.1, dwordOf pte, bytes)] }

/-- Evict a range of the context, once no access of it is under way. -/
def State.evict (s : State) (ctx : Nat) : State :=
  match s.victim ctx with
  | none => s.pop
  | some r =>
    let pages := (s.userPages ctx).filter fun p => r.meets ((p.1, pageSize p.2.1) : Range)
    if pages.any fun p => s.shotBusy ctx p.1 then s
    else pages.foldl (fun s p => s.evictPage ctx p) s.pop

def execEviction (s : State) : Host.Outcome State Fault Refusal :=
  .next <| match s.inputs.head? with
    | some (.eviction ctx) => s.evict ctx
    | _ => s

end Sys2Proof.Machine
end

