-- ==== Sys2Proof/Machine/Boot.lean ====
section
/-! DEFINITION. Package flash, the boot ROM, resets and flash recovery (22 R403 to R406, R409). -/

namespace Sys2Proof.Machine

/-! ## Package flash (R405) -/

/-- n bytes of flash. DESIGN CHOICE (log 75, unsafe). -/
def State.flashRead (s : State) (a n : Nat) : List Byte := (s.flash.read a n).map fun b => ~~~ b

/-- Write bytes of flash as they are. -/
def State.flashPut (s : State) (a : Nat) (bs : List Byte) : State :=
  { s with flash := s.flash.write a (bs.map fun b => ~~~ b) }

/-- Program bytes: each becomes the bitwise AND of what it held and what is written. -/
def State.flashProgram (s : State) (a : Nat) (bs : List Byte) : State :=
  s.flashPut a ((s.flashRead a bs.length).zipWith (fun x y => x &&& y) bs)

def bankBytes : Nat := 0x10000000

/-- Erase a bank. -/
def State.flashErase (s : State) (bank : Nat) : State := { s with flash := s.flash.clear (bank * bankBytes) bankBytes }

/-- SEQ of a bank; 0 for an empty one. -/
def State.bankSeq (s : State) (bank : Nat) : Nat :=
  let v := ofBytes (s.flashRead (bank * bankBytes) 8)
  if v = 2 ^ 64 - 1 then 0 else v

/-- The banks in the order in which the boot ROM takes them: the larger SEQ first, bank 0 when they are equal.
DEDUCED (log 76, unsafe). -/
def State.bankOrder (s : State) : Nat × Nat := if s.bankSeq 0 < s.bankSeq 1 then (1, 0) else (0, 1)

/-- A signed item: its content and its two signatures. -/
structure Signed where
  content : List Byte
  ecdsa : List Byte
  lms : List Byte
  deriving DecidableEq, Repr

/-- Item k of a bank (0 firmware, 1 service, 2 configuration image), when its place in the bank is good. -/
def State.flashItem (s : State) (bank k : Nat) : Option Signed :=
  let base := bank * bankBytes
  let off := ofBytes (s.flashRead (base + 0x10 + 16 * k) 8)
  let len := ofBytes (s.flashRead (base + 0x18 + 16 * k) 8)
  if off % 4096 ≠ 0 ∨ bankBytes < off + len + 96 + 1772 then none
  else some
    ⟨s.flashRead (base + off) len, s.flashRead (base + off + len) 96, s.flashRead (base + off + len + 96) 1772⟩

/-- The identity certificate of a bank lies in the bank and holds both signatures. -/
def State.certificateGood (s : State) (bank : Nat) : Bool :=
  let base := bank * bankBytes
  let off := ofBytes (s.flashRead (base + 0x40) 8)
  let len := ofBytes (s.flashRead (base + 0x48) 8)
  off % 4096 == 0 && decide (off + len ≤ bankBytes) && Config.certificateHolds (s.flashRead (base + off) len)

/-- Why an item fails: 1 ECDSA, 2 LMS (14 Table 14.4). -/
def Signed.reason (x : Signed) : Option Nat :=
  if !Config.ecdsaHolds x.content x.ecdsa (Config.romKey 0) then some 1
  else if !Config.lmsHolds x.content x.lms (Config.romKey 1) then some 2
  else none

/-! ## Measurement (R403) -/

/-- Extend measurement register i with the digest of bytes. DEDUCED (log 89, unsafe). -/
def State.extend (s : State) (i : Nat) (bs : List Byte) : State :=
  { s with meas := s.meas.modify i fun m => Config.sha384 (bytesOf 48 m.toNat ++ bytesOf 48 (Config.sha384 bs).toNat) }

/-- MEAS1 to MEAS3 are cleared. -/
def State.clearMeas (s : State) : State := { s with meas := ((s.meas.set 1 0).set 2 0).set 3 0 }

/-- Steps 3 to 5 on the items of a bank from item k on: the step and reason of the first that fails. The read of an item may
fail. DESIGN CHOICE (log 86, safe). -/
def State.measureItems (s : State) (bank : Nat) : List Nat → State × Option (Nat × Nat)
  | [] => (s, none)
  | k :: rest =>
    let read := if Config.chance s.draw then none else s.flashItem bank k
    let s := { s with draw := s.draw + 1 }
    match read with
    | none => (s, some (3 + k, 0))
    | some x =>
      let s := s.extend (1 + k) x.content
      match x.reason with
      | some r => (s, some (3 + k, r))
      | none => s.measureItems bank rest

/-- Steps 3 to 5 on a bank; an empty one cannot be booted. -/
def State.tryBank (s : State) (bank : Nat) : State × Option (Nat × Nat) :=
  if s.bankSeq bank = 0 then (s, some (3, 0)) else s.measureItems bank [0, 1, 2]

/-- A bank that failed, with the step and the reason. -/
abbrev BankFailure := Nat × Nat × Nat

/-- A boot failure: step, reason, bank (14 Table 14.4). -/
def State.bootFailure (s : State) (f : BankFailure) : State :=
  s.netRecord 0x0009 (netSrc 5 0) (bytesOf 4 f.2.1 ++ bytesOf 4 f.2.2 ++ bytesOf 4 f.1 ++ zeroBytes 4)

/-- The device is in recovery (R404); the image version is then open. -/
def State.enterRecovery (s : State) : State :=
  { s with boot := .recovery, erased := false, draw := s.draw + 1, config := { Config.initial with version := Config.word s.draw } }

/-- A number within a range that an image may hold. -/
def clampTo (lo hi n : Nat) : Nat := lo + n % (hi - lo + 1)

/-- The items of a configuration image (Table 22.6). DESIGN CHOICE (log 77, safe). -/
def configOf (bs : List Byte) : Config where
  package := clampTo 0 127 (Config.imageNumber bs 0)
  routes := Config.imageRoutes bs
  credits := Config.imageCredits bs
  period := clampTo 1000 1000000000 (Config.imageNumber bs 1)
  refill := clampTo 1 64 (Config.imageNumber bs 2)
  leaseMax := clampTo 1000 10000000 (Config.imageNumber bs 3)
  timePort := clampTo 0 3 (Config.imageNumber bs 4)
  version := wordOf (Config.imageNumber bs 5)

/-- A link or channel with the credits that the Hearth configured for it, all free (09 R212). -/
def Link.configured (x : Nat × Nat × Nat) : Link := ⟨x.1, x.2.1, x.2.2, x.2.2, 0⟩

/-- Recovery, with an entry for each bank that failed (R404). -/
def State.failBoot (s : State) (fs : List BankFailure) : State := (fs.foldl State.bootFailure s).enterRecovery

/-- The firmware checks the routes and applies the image; `before`: the bank that failed first, if one did (R404, R406). -/
def State.applyImage (s : State) (before : List BankFailure) (bank : Nat) : State :=
  let c := configOf (((s.flashItem bank 2).map (·.content)).getD [])
  if Config.routesCyclic c.routes then s.failBoot (before ++ [(bank, 6, 3)])
  else { s with boot := .running, config := c, links := c.credits.map Link.configured }

/-- The boot ROM (R403, R404). -/
def State.bootRom (s : State) : State :=
  let s := { s with meas := List.replicate 8 0 }.extend 0 Config.bootRom
  let b := s.bankOrder
  match s.tryBank b.1 with
  | (s, none) => s.applyImage [] b.1
  | (s, some f) =>
    match s.clearMeas.tryBank b.2 with
    | (s, none) => s.applyImage [(b.1, f)] b.2
    | (s, some f') => s.failBoot [(b.1, f), (b.2, f')]

/-! ## Resets (R403, R409, 14 R281) -/

/-- What every reset keeps: flash, and what is the model's own or has left the device. Page 0 of tower memory holds the
emergency area of a core whose register has not been set. -/
def State.afterReset (s : State) : State :=
  { State.reset with
    inputs := s.inputs, draw := s.draw, nextId := s.nextId, flash := s.flash, leafNext := s.leafEnd, leafEnd := s.leafEnd
    frames := [(0, 0x10000)], replies := s.replies, reports := s.reports, responses := s.responses }

/-- The entry of a reset: 0 cold, 1 warm. -/
def State.recordReset (s : State) (warm : Nat) : State := s.netRecord 0x0008 (netSrc 5 0) (bytesOf 4 warm ++ zeroBytes 12)

/-- DEDUCED (log 78, unsafe). -/
def State.coldReset (s : State) : State := (s.afterReset.recordReset 0).bootRom

/-- A warm reset keeps the wall clock, SERR and the Safety Net, which count from cold reset, and memory. -/
def State.warmReset (s : State) : State :=
  let kept := { s.afterReset with
    wall := s.wall, ppm := s.ppm, stepped := s.stepped, mem := s.mem, safety := s.safety, serr := s.serr }
  (kept.recordReset 1).bootRom

def execColdReset (s : State) : Host.Outcome State Fault Refusal := .next (s.popInput .coldReset).coldReset

def execWarmReset (s : State) : Host.Outcome State Fault Refusal := .next (s.popInput .warmReset).warmReset

/-- Without the standby supply the ring is lost (R409). -/
def execStandbySupplyLoss (s : State) : Host.Outcome State Fault Refusal :=
  let s := s.popInput .standbySupplyLoss
  .next { s with safety := { s.safety with ring := [] } }

/-! ## Flash recovery (R405) -/

/-- A connection: its port and number (R395). -/
abbrev Conn := Nat × Nat

/-- A reply of the Hearth service on the connection of its request (Table 22.9). -/
def State.reply (s : State) (conn : Conn) (op ctx : Nat) (tag : DWord) (status detail : Nat) (body : List Byte) : State :=
  s.sendReplies ctx [⟨conn, op, ctx, tag, statusWord status, wordOf detail, body⟩]

/-- A request's connection is open, or is opened by it, at most 4,096 on a port; one beyond them is dropped and counted (R395).
DESIGN CHOICE (log 87, unsafe). -/
def State.onConn (s : State) (conn : Conn) (go : State → State) : State :=
  if s.connections.contains conn then go s
  else if (s.connections.filter (·.1 == conn.1)).length < 4096 ∧ conn.1 < 4 then
    go { s with connections := s.connections ++ [conn] }
  else { s with drops := s.drops.modify conn.1 (· + 1) }

/-- CTX of the recovery window. -/
def recoveryCtx : Nat := 0xFFFE

/-- The bank that recovery writes, and the other. -/
def State.recoveryBank (s : State) : Nat := if s.bankSeq 0 < s.bankSeq 1 then 0 else 1

/-- The commit: SEQ is written, every item is checked, and the device resets or stays in recovery. -/
def State.commitFlash (s : State) (conn : Conn) (tag : DWord) (data : List Byte) : State :=
  let no := fun (s : State) => s.reply conn 3 recoveryCtx tag Status.badcmd 0 []
  let v := ofBytes data
  let bank := s.recoveryBank
  if v ≤ s.bankSeq (1 - bank) ∨ v = 2 ^ 64 - 1 then no s
  else
    let t := s.flashPut (bank * bankBytes) data
    let good := [0, 1, 2].all fun k => (t.flashItem bank k).any fun x => x.reason.isNone
    if good && t.certificateGood bank then (t.reply conn 3 recoveryCtx tag Status.done 0 (bytesOf 8 8)).warmReset
    else no (t.flashPut (bank * bankBytes) (bytesOf 8 0))

/-- A write to the recovery window; the first one erases it. -/
def State.writeFlash (s : State) (conn : Conn) (tag : DWord) (va : Nat) (data : List Byte) : State :=
  let ending := fun (s : State) st body => s.reply conn 3 recoveryCtx tag st 0 body
  if va < 8 ∧ data ≠ [] then ending s Status.badcmd []
  else if bankBytes < va + data.length then ending s Status.faulted []
  else
    let bank := s.recoveryBank
    let s := if s.erased then s else { s.flashErase bank with erased := true }
    ending (s.flashProgram (bank * bankBytes + va) data) Status.done (bytesOf 8 data.length)

/-- A write request with CTX 0xFFFE: outside recovery it is refused. A commit has 8 data bytes; any other write there runs past
the bank. -/
def State.recoveryWrite (s : State) (conn : Conn) (tag : DWord) (va : Nat) (data : List Byte) : State :=
  if s.boot ≠ .recovery then s.reply conn 3 recoveryCtx tag Status.badcmd 0 []
  else if va = 0xFFFFFFFFFFFFFFF8 ∧ data.length = 8 then s.commitFlash conn tag data
  else s.writeFlash conn tag va data

def execFlashRecoveryWrite (s : State) : Host.Outcome State Fault Refusal :=
  .next <| match s.inputs.head? with
    | some (.flashRecoveryWrite conn tag va data) => s.pop.onConn conn fun s => s.recoveryWrite conn tag va.toNat data
    | _ => s

def execFlashRecoveryCommit (s : State) : Host.Outcome State Fault Refusal :=
  .next <| match s.inputs.head? with
    | some (.flashRecoveryCommit conn tag data) =>
      s.pop.onConn conn fun s => s.recoveryWrite conn tag 0xFFFFFFFFFFFFFFF8 data
    | _ => s

/-! ## Errors, heat and device registers (14 R281, R282, 01 R21, 15 R299, 22 Table 22.8) -/

/-- SRC of an error: the memory interface for tower memory and HBM; for another store its unit is open.
DESIGN CHOICE (log 80, safe). -/
def State.errorSrc (s : State) (pa store : Nat) : Nat :=
  if store = 0 then netSrc 4 (pa / 0x100000000)
  else if store = 1 then netSrc 4 (3 + pa / 0x1000000000)
  else netSrc ((Config.word s.draw).toNat / 512 % 8) ((Config.word s.draw).toNat % 512)

/-- DATA of an error. -/
def errorData (pa : DWord) (syndrome : BitVec 16) (store : Byte) : List Byte :=
  bytesOf 8 pa.toNat ++ bytesOf 2 syndrome.toNat ++ [store] ++ zeroBytes 5

def execSoftErrorCorrected (s : State) : Host.Outcome State Fault Refusal :=
  .next <| match s.inputs.head? with
    | some (.softErrorCorrected pa syn store) =>
      let src := s.errorSrc pa.toNat store.toNat
      let s := { s.pop with draw := s.draw + 1, serr := wordOf (sat (s.serr.toNat + 1) 0xFFFFFFFF) }
      s.netRecord 0x0001 src (errorData pa syn store)
    | _ => s

/-- Halt every context whose data held the line; one that is halted stays so. -/
def State.haltHit (s : State) (src : Nat) (hit : List Nat) : State :=
  hit.foldl (fun s ctx =>
    match s.context? ctx with
    | none => s
    | some c => if c.halted.isSome then s else s.haltContext ctx 0xFFFFFFFE src fun _ => 0xFFFFFFFF) s

def execUncorrectableError (s : State) : Host.Outcome State Fault Refusal :=
  .next <| match s.inputs.head? with
    | some (.uncorrectableError pa syn store hit) =>
      let src := s.errorSrc pa.toNat store.toNat
      let fatal := store == 6
      let s := { s.pop with draw := s.draw + 1 }.netRecord 0x0002 src (errorData pa syn store) fatal
      if fatal then s else s.haltHit src hit
    | _ => s

/-- At 110 degrees a fatal entry is written and the power is cut. -/
def execOverTemperature (s : State) : Host.Outcome State Fault Refusal :=
  .next <| match s.inputs.head? with
    | some (.overTemperature sensor temp) =>
      let s := s.pop.netRecord 0x000B (netSrc 2 0) (bytesOf 4 sensor.toNat ++ bytesOf 4 temp.toNat ++ zeroBytes 8) true
      { s with powered := false }
    | _ => s

/-- The refill rate halves, never below 1/64 token a cycle. -/
def execHeatRefillHalved (s : State) : Host.Outcome State Fault Refusal :=
  let s := s.popInput .heatRefillHalved
  .next { s with config := { s.config with refill := max 1 (s.config.refill / 2) } }

def execSafetyNetUnfreeze (s : State) : Host.Outcome State Fault Refusal :=
  let s := s.popInput .safetyNetUnfreeze
  .next { s with safety := { s.safety with frozen := false } }

/-- Change a die's event ring. -/
def State.onRing (s : State) (die : Nat) (f : EventRing → EventRing) : State :=
  let d := s.dieRec die
  s.putDie { d with ring := f d.ring }

/-- A number kept within a range. -/
def within (lo hi n : Nat) : Nat := max lo (min hi n)

/-- A device register takes a value; one with a range keeps to it (09 R212, 15 Table 15.1, 18 Table 18.1), and reserved
bits stay 0. DESIGN CHOICE (log 121, unsafe). -/
def State.writeDevice (s : State) (r : DeviceRegister) (v : DWord) : State :=
  let n := v.toNat
  match r with
  | .sct u => { s with sct := s.sct.set u n }
  | .emerg core => s.putCore { s.coreRec core with emerg := v }
  | .tokenRefill => { s with config := { s.config with refill := within 1 64 n } }
  | .leaseMax => { s with config := { s.config with leaseMax := within 1000 10000000 n } }
  | .turnstilePeriod => { s with config := { s.config with period := within 1000 1000000000 n } }
  | .ringBase die => s.onRing die fun r => { r with base := n }
  | .ringSize die => s.onRing die fun r => { r with size := n }
  | .ringTail die => s.onRing die fun r => { r with tail := n % 2 ^ 32 }
  | .ringCount die => s.onRing die fun r => { r with count := n }
  | .ringAge die => s.onRing die fun r => { r with age := n }
  | .ctxFlags ctx => s.onContext ctx fun c => { c with flags := wordOf n &&& 3 }
  | .trapVec ctx => s.onContext ctx fun c => { c with trapVec := v }
  | .root ctx => s.onContext ctx fun c => { c with root := v }
  | .ctxSave ctx => s.onContext ctx fun c => { c with ctxSave := v }
  | .portDown p => { s with ports := s.ports.modify p fun x => { x with state := .off, since := s.wall } }

def execDeviceRegisterWrite (s : State) : Host.Outcome State Fault Refusal :=
  .next <| match s.inputs.head? with
    | some (.deviceRegisterWrite r v) => s.pop.writeDevice r v
    | _ => s

/-! ## A held group resumes (14 R285) -/

/-- The Hearth resumes a group that BRK holds, through its image, at the address that a code of TRET gives. -/
def State.resumeHeld (s : State) (g : Group) (code : Nat) : State :=
  match s.imageSpan g .read with
  | (s, .error f) => s.doubleTrap g (0x0200 + f.1.sub)
  | (s, .ok segs) =>
    match s.restoreFrom g segs 0 with
    | none => s.doubleTrap g 0
    | some h =>
      match continueAt ⟨g.arch.pc, 0x0B, g.cclk, []⟩ code (s.spanValue segs 0x0100 8) 0 none with
      | none => s.doubleTrap g 0
      | some (pc, _) => s.putGroup { h with arch := { h.arch with pc := pc }, cclk := g.cclk, pend := none }

def execDebugResume (s : State) : Host.Outcome State Fault Refusal :=
  .next <| match s.inputs.head? with
    | some (.debugResume gid code) =>
      match s.group? gid with
      | none => s.pop
      | some g => if g.phase = .held && g.here && !g.stalled && g.emergency.isNone then s.pop.resumeHeld g code.toNat else s.pop
    | _ => s

end Sys2Proof.Machine
end

