-- ==== Sys2Proof/Machine/Control.lean ====
section
/-! DEFINITION. The control class, opcodes 0x01 to 0x0F but for MERGE (04 R84 to R94, 03 R47, R49). It is never guarded
(03 R48). -/

namespace Sys2Proof.Machine

/-- A form of the control class. -/
def Form.control (f : Form) : Form := { f with guarded := false }

/-- NOP: one beat, no change (04 R85). -/
def execNop (s : State) : Host.Outcome State Fault Refusal :=
  s.issue (form3 0x01 0 0 0 .unused .unused .unused).control fun c s => s.putGroup c.g.advance

/-! ## MODE (03 R47, Table 3.6) -/

/-- Low bit and width of a field group in the mode register. -/
def modeGroup (d : Nat) : Nat × Nat :=
  match d with
  | 0 => (5, 7)
  | 1 => (12, 4)
  | 2 => (0, 5)
  | 3 => (16, 6)
  | 4 => (22, 6)
  | 5 => (28, 3)
  | 6 => (31, 16)
  | 7 => (47, 6)
  | _ => (53, 1)

/-- MODE writes one field group; a reserved code in any of the group's fields traps. -/
def execMode (d : BitVec 8) (i : BitVec 16) (s : State) : Host.Outcome State Fault Refusal :=
  let grp := modeGroup d.toNat
  let f := { (formI 0x02 d.toNat i.toNat .other).control with
    bad2 := decide (d.toNat ≤ 8) && decide (2 ^ grp.2 ≤ i.toNat)
    bad3 := decide (8 < d.toNat)
    bad4 := decide (d.toNat ≤ 8) && !modeLegal (putBits launchMode.toNat grp.1 grp.2 i.toNat) }
  s.issue f fun c s =>
    s.putGroup (c.g.onArch fun a => { a with mode := dwordOf (putBits a.mode.toNat grp.1 grp.2 i.toNat) }).advance

/-! ## RANK (04 R84, Table 4.4) -/

/-- Crumbs of a name in the group, saturating at 255. -/
def Ctx.crumbCount (c : Ctx) (o : Operand) : Nat :=
  match o with
  | .t n => sat (c.g.arch.t.getD n Ranked.zero).crumbs.length 255
  | .m n => if (c.g.mcrumbs.getD n none).isSome then 1 else 0
  | _ => 0

/-- Which copy a thread resolves to, and the depth of its crumb. -/
def Ctx.copyKind (c : Ctx) (o : Operand) (i : Nat) : Nat × Nat :=
  match o with
  | .t n =>
    match c.g.arch.t.getD n Ranked.zero with
    | .perThread _ => (0, 0)
    | .widened _ _ cs =>
      match crumbAt cs i with
      | none => (3, 0)
      | some x => (if x.spill.isSome then 2 else 1, sat (depthOf cs x.mask) 7)
  | .g _ => (3, 0)
  | .m n => (if (c.g.mcrumbs.getD n none).isSome then 4 else 5, 0)
  | .k _ => (6, 0)
  | _ => (7, 0)

def execRank (d a : BitVec 8) (s : State) : Host.Outcome State Fault Refusal :=
  let f := (form3 0x03 d.toNat a.toNat 0 (.dst .one .tg) (.src .one .lane) .unused).control
  s.issue f (reads := fun c => { c.activeReads with a := [] }) (body :=
    aluBody (fun _ => false) (fun c i =>
      let st := rankByte c.g.arch c.a
      let n := c.crumbCount c.a
      match c.d with
      | .t _ => let k := c.copyKind c.a i; [wordOf (n * 65536 + k.2 * 2048 + k.1 * 256 + st)]
      | _ => [wordOf (n * 256 + st)]) noFlags)

/-! ## Branches and calls (04 R87 to R89) -/

/-- The target of a branch: PC + 4 + 4 × offset (02 R28). -/
def branchTarget (pc : DWord) (i : BitVec 16) : DWord := pc + 4 + 4 * i.signExtend 64

def execBr (i : BitVec 16) (s : State) : Host.Outcome State Fault Refusal :=
  s.issue (formI 0x05 0 i.toNat .unused).control fun c s => s.putGroup (c.g.goto (branchTarget c.g.arch.pc i))

/-- BZ, BNZ: branch when the condition holds of c's value. -/
def branchIf (taken : Word → Bool) (i : BitVec 16) (c : Ctx) (s : State) : State :=
  s.putGroup (if taken (c.read c.d 0) then c.g.goto (branchTarget c.g.arch.pc i) else c.g.advance)

def execBz (c : BitVec 8) (i : BitVec 16) (s : State) : Host.Outcome State Fault Refusal :=
  s.issue (formI 0x06 c.toNat i.toNat (.src .one .uniform)).control (branchIf (· == 0) i)

def execBnz (c : BitVec 8) (i : BitVec 16) (s : State) : Host.Outcome State Fault Refusal :=
  s.issue (formI 0x07 c.toNat i.toNat (.src .one .uniform)).control (branchIf (· != 0) i)

def execCall (c : BitVec 8) (i : BitVec 16) (s : State) : Host.Outcome State Fault Refusal :=
  s.issue (formI 0x0A c.toNat i.toNat (.dst (.regs 2 true) .g)).control fun x s =>
    let ret := x.g.arch.pc + 4
    s.putGroup ((x.g.setGOperand x.d (pairWords ret.toNat)).goto (branchTarget x.g.arch.pc i))

def execRet (a : BitVec 8) (s : State) : Host.Outcome State Fault Refusal :=
  let f := (form3 0x0B 0 a.toNat 0 .unused (.src (.regs 2 true) .pair) .unused).control
  s.issue f fun c s =>
    let pc := c.readPair c.a 0
    if pc % 4 = 0 ∧ pc < 2 ^ 52 then s.putGroup (c.g.goto (dwordOf pc)) else c.trap f s 0x07 0x02 0

/-! ## Predicates and index registers (04 R86, 03 R49) -/

def execPset (d : BitVec 3) (a : BitVec 8) (s : State) : Host.Outcome State Fault Refusal :=
  s.issue (form3 0x0C d.toNat a.toNat 0 .pdst (.src .one .any) .unused).control
    (aluBody (fun c => c.resolvesUniform c.a) (fun c i => [if c.read c.a i = 0 then 0 else 1]) noFlags)

def execPand (d : BitVec 3) (a b : BitVec 4) (s : State) : Host.Outcome State Fault Refusal :=
  s.issue (form3 0x0D d.toNat a.toNat b.toNat .pdst .psrc .psrc).control
    (aluBody (fun c => c.resolvesUniform c.a && c.resolvesUniform c.b) (fun c i => [c.read c.a i &&& c.read c.b i]) noFlags)

def execPor (d : BitVec 3) (a b : BitVec 4) (s : State) : Host.Outcome State Fault Refusal :=
  s.issue (form3 0x0E d.toNat a.toNat b.toNat .pdst .psrc .psrc).control
    (aluBody (fun c => c.resolvesUniform c.a && c.resolvesUniform c.b) (fun c i => [c.read c.a i ||| c.read c.b i]) noFlags)

def execSetix (d : BitVec 2) (a : BitVec 8) (s : State) : Host.Outcome State Fault Refusal :=
  let f := { (form3 0x0F d.toNat a.toNat 0 .other (.src .one .uniform) .unused).control with bad3 := d.toNat == 0 }
  s.issue f fun c s =>
    s.putGroup (c.g.onArch fun x => { x with ix := putAt x.ix (d.toNat - 1) 0 (c.read c.a 0) }).advance

/-! ## Divergence (04 R90 to R93) -/

/-- Entries that the reconvergence stack may hold: 256, or 16 for a handler (14 Table 14.2). -/
def Group.stackLimit (g : Group) : Nat := if g.super then 16 else 256

/-- BRD (04 R91). None: the push would exceed the stack. -/
def divergeArch (a : Arch) (limit : Nat) (holds : Nat → Bool) (target : DWord) (backward : Bool) : Option Arch :=
  let T := a.mask &&& maskOf 64 holds
  let S := a.mask &&& ~~~ T
  let next := a.pc + 4
  let run := if backward then (T, target) else (S, next)
  let defer := if backward then (S, next) else (T, target)
  let stack : Option (List Recon) :=
    match a.stack with
    | top :: rest =>
      if top.origin = a.pc ∧ top.phase = false then some ({ top with dmask := top.dmask ||| defer.1 } :: rest)
      else if limit ≤ a.stack.length then none
      else some (⟨a.pc, false, defer.2, defer.1, a.mask⟩ :: a.stack)
    | [] => some [⟨a.pc, false, defer.2, defer.1, a.mask⟩]
  match stack with
  | none => none
  | some [] => none
  | some (top :: rest) =>
    if run.1 ≠ 0 then some { a with stack := top :: rest, mask := run.1, pc := run.2 }
    else some { a with stack := { top with phase := true } :: rest, mask := top.dmask, pc := top.dpc }

/-! ## Reconvergence entries beyond RDEPTH (04 R93) -/

/-- Where the save area holds the stack entry number k, counted from the bottom (14 Table 14.3). -/
def spillAt (k : Nat) : Nat := 0x1000 + 32 * k

/-- A push onto RDEPTH held entries moves the bottom one of them into the group's save area; it is never a fault. The spilled
entries of a handler lie in HIMAGE, of which no field is visible. DESIGN CHOICE (log 117, safe). -/
def State.spillEntry (s : State) (g : Group) (before : List Recon) : State :=
  let tm := s.teamOf g
  if g.super then s
  else
    match before[tm.launch.rdepth - 1]? with
    | none => s
    | some r =>
      let k := before.length - tm.launch.rdepth
      match s.span tm.ctx (s.coreOf g) 1 .write (tm.groupSave g.gix + spillAt k) 32 with
      | (s, .error _) => s
      | (s, .ok segs) => s.putSpan segs 0 (reconBytes r)

/-- A pop from a stack with spilled entries reloads the last of them; what cannot be read is as it was. -/
def State.reloadEntry (s : State) (g : Group) (after : List Recon) : State × List Recon :=
  let tm := s.teamOf g
  if g.super || decide (after.length < tm.launch.rdepth) then (s, after)
  else
    let k := after.length - tm.launch.rdepth
    match s.span tm.ctx (s.coreOf g) 1 .read (tm.groupSave g.gix + spillAt k) 32 with
    | (s, .error _) => (s, after)
    | (s, .ok segs) => (s, after.set (tm.launch.rdepth - 1) (reconOf (s.spanBytes segs 0 32)))

def execBrd (c : BitVec 4) (i : BitVec 16) (s : State) : Host.Outcome State Fault Refusal :=
  let f := (formI 0x08 c.toNat i.toNat .psrc).control
  s.issue f fun x s =>
    match divergeArch x.g.arch x.g.stackLimit (fun t => x.read x.d t != 0) (branchTarget x.g.arch.pc i) (i.slt 0) with
    | none => x.trap f s 0x07 0x01 0
    | some a =>
      let s := if x.g.arch.stack.length < a.stack.length then s.spillEntry x.g x.g.arch.stack else s
      s.putGroup ({ x.g with arch := a }.goto a.pc)

/-- RECONV (04 R92). None: the stack is empty. -/
def reconvergeArch (a : Arch) : Option Arch :=
  match a.stack with
  | [] => none
  | top :: rest =>
    if top.phase = false ∧ top.dmask ≠ 0 then
      some { a with stack := { top with phase := true } :: rest, mask := top.dmask, pc := top.dpc }
    else some { a with stack := rest, mask := top.full, pc := a.pc + 4 }

def execReconv (s : State) : Host.Outcome State Fault Refusal :=
  let f := (form3 0x09 0 0 0 .unused .unused .unused).control
  s.issue f fun c s =>
    match reconvergeArch c.g.arch with
    | none => c.trap f s 0x07 0x00 0
    | some a =>
      match (if a.stack.length < c.g.arch.stack.length then s.reloadEntry c.g a.stack else (s, a.stack)) with
      | (s, stack) => s.putGroup ({ c.g with arch := { a with stack } }.goto a.pc)

end Sys2Proof.Machine
end

