-- ==== Sys2Proof/Machine/Hearth.lean ====
section
/-! DEFINITION. Requests to the Hearth service but load object (22 R397 to R399, R407), and launch packets (20 R382). -/

namespace Sys2Proof.Machine

/-! ## Requests -/

/-- A request of Table 22.2. -/
structure Request where
  conn : Conn
  op : Nat
  ctx : Nat
  len : Nat
  tag : DWord
  body : List Byte
  deriving DecidableEq, Repr

/-- The head of the inputs, when it is a request of an operation. -/
def State.request? (s : State) (op : Nat) : Option Request :=
  match s.inputs.head? with
  | some (.request conn o ctx len tag body) => if o = op then some ⟨conn, op, ctx.toNat, len.toNat, tag, body⟩ else none
  | _ => none

/-- LEN is that of the body, and fits a message with its header (R397). -/
def Request.sized (r : Request) : Bool := r.len == r.body.length && decide (r.len ≤ 0x100000 - 16)

/-- A reply to a request. DESIGN CHOICE (log 90, safe). -/
def Request.answer (r : Request) (st : Nat) (body : List Byte) (s : State) : State := s.reply r.conn r.op r.ctx r.tag st 0 body

/-- Serve a request. In recovery only attest and writes to the recovery window are answered, and a CTX that names
nothing is refused (R398, R404).
DEDUCED (log 81, unsafe). -/
def State.serve' (s : State) (op : Nat) (inRecovery : Request → Bool) (go : Request → State → State) : State :=
  match s.request? op with
  | none => s
  | some r =>
    match s.boot with
    | .running => s.pop.onConn r.conn (go r)
    | .recovery => s.pop.onConn r.conn fun s => if inRecovery r then go r s else s
    | .reset => s.pop

/-! ## The service's access to a context's memory -/

/-- The parts of n bytes at va that lie in one page of 64 KiB: offset, length. -/
def piecesOf (va n : Nat) : List (Nat × Nat) :=
  (List.range ((va % 0x10000 + n + 0xFFFF) / 0x10000)).map fun i =>
    let lo := max va ((va / 0x10000 + i) * 0x10000)
    (lo - va, min (va + n) ((va / 0x10000 + i + 1) * 0x10000) - lo)

/-- The leaf of an address as the service sees it: mapped, and memory of the device. -/
def State.serviceLeaf (s : State) (ctx va : Nat) : Option Leaf :=
  if 2 ^ 52 ≤ va then none
  else
    match s.walk ctx va with
    | .error _ => none
    | .ok l => if reachable (Pte.frame l.pte) then some l else none

/-- The context maps every one of n bytes at va. -/
def State.allMapped (s : State) (ctx va n : Nat) : Bool := (piecesOf va n).all fun p => (s.serviceLeaf ctx (va + p.1)).isSome

/-- Write one part: a page that waits for zeros gets them first (07 R174). DEDUCED (log 71, unsafe). -/
def State.servicePut (s : State) (ctx va : Nat) (bs : List Byte) : State :=
  match s.serviceLeaf ctx va with
  | none => s
  | some l =>
    let s := (s.markLeaf l true).zeroFill ctx va { l with pte := s.mem.value l.addr 8 }
    s.put (.phys (Pte.frame l.pte + va % pageSize l.level)) bs

/-- The service writes bytes, whatever W says: it fills the pages that programs only read. None where the context does
not map them. -/
def State.serviceWrite (s : State) (ctx va : Nat) (bs : List Byte) : Option State :=
  let s := s.bringIn ctx va bs.length
  if s.allMapped ctx va bs.length then
    some ((piecesOf va bs.length).foldl (fun s p => s.servicePut ctx (va + p.1) (sliceOf bs p.1 p.2)) s)
  else none

/-- The bytes of a source that is not a group's. -/
def State.plainBytes (s : State) (x : Src) : List Byte :=
  match x with
  | .lit bs => bs
  | .at l n => s.bytesAt l n

/-- One part as the service reads it. -/
def State.serviceGet (s : State) (ctx va n : Nat) : Option (List Byte) :=
  match s.serviceLeaf ctx va with
  | none => none
  | some l =>
    match s.readSource ⟨Pte.frame l.pte + va % pageSize l.level, l.pte, l.level⟩ n with
    | .error _ => none
    | .ok x => some (s.plainBytes x)

def State.serviceRead (s : State) (ctx va n : Nat) : Option (List Byte) :=
  (piecesOf va n).foldl (fun acc p =>
    match acc, s.serviceGet ctx (va + p.1) p.2 with
    | some bs, some more => some (bs ++ more)
    | _, _ => none) (some [])

/-! ## Allocate, write, read -/

def Request.badAllocate (r : Request) : Bool :=
  let f := fieldOf r.body
  !r.sized || r.len != 32 || decide (2 < f 0x10 1) || decide (2 < f 0x11 1) || decide (1 < f 0x12 1) ||
    !allZero (sliceOf r.body 0x13 13) || f 8 8 % pageSize (f 0x10 1) != 0 || f 0 8 % pageSize (f 0x10 1) != 0

def State.serveAllocate (r : Request) (s : State) : State :=
  let f := fieldOf r.body
  let fresh := r.ctx == 0xFFFF
  if r.badAllocate || (!fresh && (s.context? r.ctx).isNone) then r.answer Status.badcmd [] s
  else
    match (if fresh then s.newContext else some (r.ctx, s)) with
    | none => r.answer Status.nospace [] s
    | some (ctx, t) =>
      if f 8 8 = 0 then { r with ctx }.answer Status.done (bytesOf 8 (if fresh then 0 else f 0 8)) t
      else
        match t.allocate ctx (f 0 8) (f 8 8) (f 0x11 1) (f 0x10 1) ⟨true, f 0x12 1 == 1, false⟩ with
        | none => r.answer Status.nospace [] s
        | some (va, t) => { r with ctx }.answer Status.done (bytesOf 8 va) t

def execAllocate (s : State) : Host.Outcome State Fault Refusal := .next (s.serve' 2 (fun _ => false) State.serveAllocate)

def State.serveWrite (r : Request) (s : State) : State :=
  if !r.sized || decide (r.len < 8) then r.answer Status.badcmd [] s
  else if r.ctx = recoveryCtx then s.recoveryWrite r.conn r.tag (fieldOf r.body 0 8) (r.body.drop 8)
  else if (s.context? r.ctx).isNone then r.answer Status.badcmd [] s
  else
    match s.serviceWrite r.ctx (fieldOf r.body 0 8) (r.body.drop 8) with
    | none => r.answer Status.faulted [] s
    | some t => r.answer Status.done (bytesOf 8 (r.len - 8)) t

def execWrite (s : State) : Host.Outcome State Fault Refusal := .next (s.serve' 3 (·.ctx == recoveryCtx) State.serveWrite)

def State.serveRead (r : Request) (s : State) : State :=
  let va := fieldOf r.body 0 8
  let n := fieldOf r.body 8 8
  if !r.sized || r.len != 16 || (s.context? r.ctx).isNone || decide (0x100000 - 24 < n) then r.answer Status.badcmd [] s
  else
    let t := s.bringIn r.ctx va n
    match t.serviceRead r.ctx va n with
    | none => r.answer Status.faulted [] s
    | some bs => r.answer Status.done bs t

def execRead (s : State) : Host.Outcome State Fault Refusal := .next (s.serve' 5 (fun _ => false) State.serveRead)

/-! ## Launch (R399, 20 R366, R382) -/

/-- Submit a TCB that the service has built; its checks are those of TCB.SUBMIT (20 R374, R375). -/
def State.submitFrom (s : State) (ctx : Nat) (tcb : DWord) : State × Nat :=
  match tcbAddress tcb.toNat with
  | some st => (s, st)
  | none =>
    match s.readTcb ctx tcb with
    | (s, .error _) => (s, Status.faulted)
    | (s, .ok b) =>
      if fieldOf b 0x14 1 ≠ 0 then (s, Status.badcmd)
      else
        match s.writeVa ctx 0 1 (tcb.toNat + 0x14) [1] with
        | (s, .error _) => (s, Status.faulted)
        | (s, .ok _) =>
          let t : Task :=
            { id := s.nextId, ctx, tcb, tag := dwordOf (fieldOf b 0x08 8), launch := LaunchRecord.none, ready := false
              pendingRanges := [], queued := false, teamsLeft := 0, tstart := none, worst := none, nfail := 0, traps := 0 }
          ({ s with nextId := s.nextId + 1, tasks := s.tasks ++ [t] }, Status.done)

/-- A TCB as the service builds it (20 Table 20.3). -/
def builtTcb (launch tag : Nat) : List Byte := bytesOf 8 launch ++ bytesOf 8 tag ++ zeroBytes 112

/-- Build the TCB of a launch and submit it; the reply leaves at once, or when the task retires. One that fails changes nothing:
the machine is as it was before the record was read. -/
def State.startLaunch (r : Request) (launch tag : Nat) (async : Bool) (before s : State) : State :=
  match s.allocate r.ctx 0 0x10000 2 0 ⟨true, true, false⟩ with
  | none => r.answer Status.nospace [] before
  | some (va, t) =>
    let tcb := dwordOf va
    match (t.writeVa r.ctx 0 1 va (builtTcb launch tag)).1.submitFrom r.ctx tcb with
    | (_, _ + 1) => r.answer Status.faulted [] before
    | (t, 0) =>
      let t := if async then r.answer Status.done (bytesOf 8 va ++ zeroBytes 8) t
        else { t with launchWaits := t.launchWaits ++ [⟨r.conn, r.ctx, r.tag, tcb, []⟩] }
      t.readyIfFree r.ctx tcb

/-- DEDUCED (log 82, unsafe). -/
def State.serveLaunch (r : Request) (s : State) : State :=
  let f := fieldOf r.body
  if !r.sized || r.len != 24 || decide (1 < f 0x10 4) || f 0x14 4 != 0 then r.answer Status.badcmd [] s
  else
    match s.context? r.ctx with
    | none => r.answer Status.badcmd [] s
    | some c =>
      if c.halted.isSome then r.answer Status.halted [] s
      else
        match s.readRecord r.ctx 0 true (dwordOf (f 0 8)) with
        | (t, .good _) => t.startLaunch r (f 0 8) (f 8 8) (f 0x10 4 == 1) s
        | _ => r.answer Status.refused [] s

def execLaunch (s : State) : Host.Outcome State Fault Refusal := .next (s.serve' 4 (fun _ => false) State.serveLaunch)

/-! ## Launch packets (20 Table 20.7) -/

/-- The fields of a packet that must be zero are. -/
def packetGood (p : List Byte) : Bool :=
  p.length == 64 && decide (fieldOf p 0x0C 2 < 4) && fieldOf p 0x0E 2 == 0 && allZero (sliceOf p 0x28 24)

/-- The record of a packet's task. -/
def gangOf (id : Nat) (p : List Byte) : Gang :=
  let f := fieldOf p
  { id, pkt := dwordOf (f 0 8), ctx := f 8 4, tcb := dwordOf (f 0x10 8), gang := bitAt (f 0x0C 2) 0
    strict := bitAt (f 0x0C 2) 1, start := f 0x18 8, slice := f 0x20 8, placedAt := none, late := false, reported := false
    sliced := none }

/-- A port of the fabric carries flits: only one in state UP does (R401). -/
def State.fabricUp (s : State) : Bool := s.ports.any fun p => p.state == .up

/-- A packet submits its TCB; one that cannot is refused. -/
def State.takePacket (p : List Byte) (s : State) : State :=
  let k := gangOf s.nextId p
  let no := s.report k Status.refused 0 s.wall
  match s.context? k.ctx with
  | none => no
  | some c =>
    if !packetGood p || c.halted.isSome then no
    else
      match { s with nextId := s.nextId + 1, gangs := s.gangs ++ [k] }.submitFrom k.ctx k.tcb with
      | (t, 0) => t.readyIfFree k.ctx k.tcb
      | _ => no

def execLaunchPacket (s : State) : Host.Outcome State Fault Refusal :=
  .next <| match s.inputs.head? with
    | some (.launchPacket p) => if s.boot = .running ∧ s.fabricUp then s.pop.takePacket p else s.pop
    | _ => s

/-! ## Attestation (R407, Table 22.7) -/

/-- The first n bytes, filled with 0x00. -/
def fit (n : Nat) (bs : List Byte) : List Byte := (bs ++ zeroBytes n).take n

/-- The signed part of a report. -/
def State.reportBytes (s : State) (nonce : List Byte) : List Byte :=
  let version := s.config.version.toNat % 2 ^ 31 + if s.boot = .recovery then 2 ^ 31 else 0
  fit 48 nonce ++ s.meas.flatMap (fun m => bytesOf 48 m.toNat) ++ bytesOf 8 s.wall ++ bytesOf 4 version ++ zeroBytes 4

/-- A report with both signatures. -/
def State.signedReport (s : State) (nonce : List Byte) : List Byte :=
  let b := s.reportBytes nonce
  b ++ fit 96 (Config.ecdsaSign s.draw b) ++ fit 1932 (Config.lmsSign s.leafNext b)

/-- Leaves of the identity LMS key. -/
def leafCount : Nat := 2 ^ 25

/-- A leaf is taken; the end of its block of 1,024 stands in flash first. -/
def State.takeLeaf (s : State) : State :=
  { s with draw := s.draw + 1, leafNext := s.leafNext + 1, leafEnd := if s.leafNext = s.leafEnd then s.leafEnd + 1024 else s.leafEnd }

def State.serveAttest (r : Request) (s : State) : State :=
  if !r.sized || r.len != 48 || (if s.boot = .recovery then r.ctx != recoveryCtx else (s.context? r.ctx).isNone) then r.answer Status.badcmd [] s
  else if leafCount ≤ s.leafNext then r.answer Status.nospace [] s
  else r.answer Status.done (s.signedReport r.body) s.takeLeaf

def execAttest (s : State) : Host.Outcome State Fault Refusal := .next (s.serve' 6 (fun _ => true) State.serveAttest)

end Sys2Proof.Machine
end

