-- ==== Sys2Proof/Machine/Objects.lean ====
section
/-! DEFINITION. OZO objects and their loading (21 R384 to R393). -/

namespace Sys2Proof.Machine

namespace LoadStatus
def badobj : Nat := 19
def unksect : Nat := 20
def unknote : Nat := 21
def noimage : Nat := 22
/-- DESIGN CHOICE (log 85, safe). -/
def xlate : Nat := 23
def handler : Nat := 24
end LoadStatus

/-- The device's revision (R384). -/
def revision : Nat := 0x0100

/-- DETAIL without a failing section or note (R389). -/
def noIndex : Nat := 0xFFFFFFFF

/-- How a step of a load fails: status and DETAIL. -/
abbrev LoadFail := Nat × Nat

/-! ## The object file (R385) -/

/-- One byte of the CRC-32 of the IEEE 802.3 polynomial, reflected. -/
def crcByte (crc : Nat) (b : Byte) : Nat :=
  (List.range 8).foldl (fun c _ => if c % 2 = 1 then (c / 2) ^^^ 0xEDB88320 else c / 2) (crc ^^^ b.toNat)

def crc32 (bs : List Byte) : Nat := bs.foldl crcByte 0xFFFFFFFF ^^^ 0xFFFFFFFF

/-- A section table entry (Table 21.2). -/
structure Section where
  index : Nat
  type : Nat
  flags : Nat
  align : Nat
  off : Nat
  len : Nat
  link : Nat
  pad : Nat
  deriving DecidableEq, Repr

def sectionOf (obj : List Byte) (base i : Nat) : Section :=
  let f := fieldOf (sliceOf obj (base + 32 * i) 32)
  ⟨i, f 0 2, f 2 2, f 4 4, f 8 8, f 0x10 8, f 0x18 4, f 0x1C 4⟩

def objectSections (obj : List Byte) : List Section :=
  (List.range (fieldOf obj 6 2)).map (sectionOf obj (fieldOf obj 8 8))

def Section.mand (x : Section) : Bool := bitAt x.flags 0

def Section.bytes (x : Section) (obj : List Byte) : List Byte := sliceOf obj x.off x.len

/-- The header is good: MAGIC, version, counts, places and CHECK (Table 21.1). -/
def headerGood (obj : List Byte) : Bool :=
  let f := fieldOf obj
  let n := f 6 2
  let at' := f 8 8
  decide (64 ≤ obj.length) && sliceOf obj 0 4 == [0x4F, 0x5A, 0x4F, 0x00] && f 4 2 == 1 && decide (1 ≤ n) && decide (n ≤ 1024) &&
    at' % 8 == 0 && decide (64 ≤ at') && decide (at' + 32 * n ≤ obj.length) && allZero (sliceOf obj 0x1C 36) &&
    crc32 (patch obj 0x18 (zeroBytes 4)) == f 0x18 4

/-- Two ranges of the object share a byte. -/
def overlaps (a n b m : Nat) : Bool := decide (a < b + m) && decide (b < a + n) && decide (0 < n) && decide (0 < m)

def powerOfTwo (n : Nat) : Bool := (List.range 17).any fun k => n == 2 ^ k

/-- An image header (Table 21.4). -/
def imageGood (bs : List Byte) : Bool :=
  let f := fieldOf bs
  let n := f 2 2
  decide (32 ≤ bs.length) && decide (n ≤ 8) && allZero (sliceOf bs (4 + 2 * n) (16 - 2 * n)) && f 0x14 4 % 4 == 0 &&
    decide (32 ≤ f 0x14 4) && f 0x18 4 % 4 == 0 && decide (f 0x14 4 + f 0x18 4 ≤ bs.length) && f 0x1C 4 == 0

/-- LINK names what its type asks for (Table 21.3). -/
def Section.linkGood (x : Section) (all : List Section) : Bool :=
  match x.type with
  | 3 => all.any fun y => y.index == x.link && (y.type == 1 || y.type == 2)
  | 7 => decide (x.link < all.length)
  | 1 | 2 | 4 | 5 | 6 | 8 => x.link == 0xFFFFFFFF
  | _ => true

/-- A section table entry is good. -/
def Section.good (x : Section) (obj : List Byte) (all : List Section) : Bool :=
  let table := fieldOf obj 8 8
  decide (x.flags < 2) && powerOfTwo x.align && x.off % max x.align 8 == 0 && decide (x.off + x.len ≤ obj.length) &&
    x.pad == 0 && x.linkGood all && !overlaps x.off x.len 0 64 && !overlaps x.off x.len table (32 * all.length) &&
    !(all.any fun y => decide (y.index < x.index) && overlaps x.off x.len y.off y.len) &&
    (x.type != 1 || imageGood (x.bytes obj)) && (x.type != 3 || x.len % 256 == 0)

/-- Steps 1 and 2 of R389. -/
def checkTable (obj : List Byte) : Option LoadFail :=
  if !headerGood obj then some (LoadStatus.badobj, noIndex)
  else
    let all := objectSections obj
    match all.find? fun x => !x.good obj all with
    | some x => some (LoadStatus.badobj, x.index)
    | none =>
      match all.find? fun x => (x.type == 0 || decide (8 < x.type)) && x.mand with
      | some x => some (LoadStatus.unksect, x.index)
      | none => none

/-! ## Notes (R387) -/

/-- A kind 2 note: its offset in the object, section index and code offset. -/
structure HandlerNote where
  off : Nat
  sect : Nat
  code : Nat
  deriving DecidableEq, Repr

/-- The bytes of `Ozwell`. -/
def ozwell : List Byte := [0x4F, 0x7A, 0x77, 0x65, 0x6C, 0x6C]

/-- The notes of a section from an offset of the object on: the kind 2 notes, or the failure. -/
def notesOf : Nat → Nat → List Byte → Except LoadFail (List HandlerNote)
  | 0, _, _ => .ok []
  | _ + 1, _, [] => .ok []
  | fuel + 1, off, bs =>
    let f := fieldOf bs
    let name := f 0 2
    let desc := f 2 2
    let size := 8 + roundUp name 4 + roundUp desc 4
    let kind := f 4 4 % 2 ^ 31
    let ours := sliceOf bs 8 name == ozwell
    if bs.length < size then .error (LoadStatus.badobj, off)
    else if !(ours && (kind == 1 || kind == 2)) && bitAt (f 4 4) 31 then .error (LoadStatus.unknote, off)
    else if ours && kind == 2 && desc != 8 then .error (LoadStatus.badobj, off)
    else
      match notesOf fuel (off + size) (bs.drop size) with
      | .error e => .error e
      | .ok l =>
        let d := sliceOf bs (8 + roundUp name 4) 8
        .ok (if ours && kind == 2 then ⟨off, fieldOf d 0 4, fieldOf d 4 4⟩ :: l else l)

/-- Step 3: the notes of every NOTE section. -/
def objectNotes (obj : List Byte) : Except LoadFail (List HandlerNote) :=
  ((objectSections obj).filter (·.type == 8)).foldl (fun acc x =>
    match acc, notesOf (x.len + 1) x.off (x.bytes obj) with
    | .error e, _ => .error e
    | _, .error e => .error e
    | .ok l, .ok m => .ok (l ++ m)) (.ok [])

/-! ## The choice of an image (R390) -/

/-- The revisions on which a native image runs unchanged. -/
def compatOf (bs : List Byte) : List Nat := (List.range (fieldOf bs 2 2)).map fun i => fieldOf bs (4 + 2 * i) 2

/-- The image for a revision, lowest index first. -/
def chooseImage (obj : List Byte) : Option Section :=
  let all := objectSections obj
  let native := all.filter (·.type == 1)
  match native.find? fun x => fieldOf (x.bytes obj) 0 2 == revision with
  | some x => some x
  | none =>
    match native.find? fun x => (compatOf (x.bytes obj)).contains revision with
    | some x => some x
    | none => all.find? (·.type == 2)

/-! ## Loading (R389, R392) -/

/-- A section to load: where it is mapped and its bytes. -/
structure Loaded where
  sect : Section
  va : Nat
  bytes : List Byte
  deriving DecidableEq, Repr

/-- What the translator fills in a record: ENTRY, TREGS, GREGS, MREGS, TMEM, RDEPTH (R392). -/
structure KernelFields where
  entry : Nat
  tregs : Nat
  gregs : Nat
  mregs : Nat
  tmem : Nat
  rdepth : Nat
  deriving DecidableEq, Repr

/-- The fields of record r of the LAUNCH section with an index. -/
def kernelFields (module : List Byte) (index r : Nat) : KernelFields :=
  let u := Config.udxField module index r
  ⟨u 0, u 1, u 2, u 3, u 4, u 5⟩

/-- The kernel fits the allotments of 02 R33 and the fields of its record in 20 Table 20.1, PAIR and GROUPS among them (20
R362), and its entry is a word of the code. -/
def KernelFields.good (k : KernelFields) (code : Nat) (rec : List Byte) : Bool :=
  let limit := if bitAt (fieldOf rec 0x0D 1) 0 then 262144 else 131072
  k.entry % 4 == 0 && decide (k.entry < code) && decide (k.tregs ≤ 128) && decide (k.gregs ≤ 64) && decide (k.mregs ≤ 32) &&
    k.tregs % 8 == 0 && k.gregs % 8 == 0 && k.mregs % 8 == 0 && k.tmem % 2048 == 0 &&
    decide (k.tmem + reserveBytes k.mregs (fieldOf rec 0x0A 2) ≤ limit) && decide (1 ≤ k.rdepth) && decide (k.rdepth ≤ 16)

def KernelFields.fill (k : KernelFields) (rec : List Byte) : List Byte :=
  patch (patch (patch (patch (patch (patch rec 0 (bytesOf 8 k.entry)) 0x10 (bytesOf 1 k.tregs)) 0x11 (bytesOf 1 k.gregs))
    0x12 (bytesOf 1 k.mregs)) 0x14 (bytesOf 4 k.tmem)) 0x0F (bytesOf 1 k.rdepth)

/-- A launch section linked to a translated module. -/
def fillRecords (module bs : List Byte) (index : Nat) : List Byte :=
  ((chunks 256 (bs.length / 256) bs).zipIdx).flatMap fun x => (kernelFields module index x.2).fill x.1

/-- A word is a native instruction, none of 0x5A to 0x5F (Table 21.7). -/
def nativeWord (w : List Byte) : Bool :=
  let op := fieldOf w 3 1
  (decide (op < 0x5A) || decide (0x5F < op)) &&
    match decode (wordOf (ofBytes w)) with
    | .ok _ => true
    | .error _ => false

/-- Translated code is words, each a native instruction. -/
def codeGood (code : List Byte) : Bool := code.length % 4 == 0 && (chunks 4 (code.length / 4) code).all nativeWord

/-- The native code of a module, when every kernel that a linked launch section names fits; else XLATE.
DESIGN CHOICE (log 85, safe). -/
def translateModule (obj : List Byte) (image : Section) : Option (List Byte) :=
  let module := image.bytes obj
  let linked := (objectSections obj).filter fun x => x.type == 3 && x.link == image.index
  (Config.udxCode module).filter fun code =>
    codeGood code && linked.all fun x =>
      ((chunks 256 ((x.bytes obj).length / 256) (x.bytes obj)).zipIdx).all fun r =>
        (kernelFields module x.index r.2).good code.length r.1

/-- The sections that are loaded, with their bytes: native code for a module; none when it cannot be translated. -/
def loadList (obj : List Byte) (image : Section) : Option (List (Section × List Byte)) :=
  match (if image.type = 2 then translateModule obj image else some (image.bytes obj)) with
  | none => none
  | some code =>
    some ((objectSections obj).filterMap fun x =>
      if x.index = image.index then some (x, code)
      else if x.type = 4 ∨ x.type = 5 then some (x, x.bytes obj)
      else if x.type = 3 ∧ x.link = image.index then
        some (x, if image.type = 2 then fillRecords (image.bytes obj) (x.bytes obj) x.index else x.bytes obj)
      else none)

/-- Rights of a loaded section: code X, writable data W, all U. -/
def Section.rights (x : Section) : Rights := ⟨true, x.type == 5, x.type == 1 || x.type == 2⟩

/-- Map pages for the sections. -/
def State.mapSections (s : State) (ctx : Nat) : List (Section × List Byte) → Option (State × List Loaded)
  | [] => some (s, [])
  | (x, bs) :: rest =>
    match s.allocate ctx 0 (max 0x10000 (roundUp bs.length 0x10000)) 2 0 x.rights with
    | none => none
    | some (va, s) =>
      match s.mapSections ctx rest with
      | none => none
      | some (s, l) => some (s, ⟨x, va, bs⟩ :: l)

/-- One relocation (R388): the value at SITE of the linked section grows by REFSEC's address.
DEDUCED (log 84, unsafe). -/
def relocate (e : List Byte) (link : Nat) (l : List Loaded) : Option (List Loaded) :=
  let site := fieldOf e 0 8
  match l.find? (·.sect.index == link), l.find? (·.sect.index == fieldOf e 8 4) with
  | some x, some y =>
    if fieldOf e 0x0C 2 ≠ 1 ∨ fieldOf e 0x0E 2 ≠ 0 ∨ x.bytes.length < site + 8 then none
    else
      let v := bytesOf 8 ((fieldOf x.bytes site 8 + y.va) % 2 ^ 64)
      some (updateWhere (·.sect.index == link) (fun (x : Loaded) => { x with bytes := patch x.bytes site v }) l)
  | _, _ => none

/-- Step 6: the RELOC sections of the loaded sections, in index order. -/
def relocateAll (obj : List Byte) (l : List Loaded) : Except LoadFail (List Loaded) :=
  let mine := (objectSections obj).filter fun x => x.type == 7 && l.any (·.sect.index == x.link)
  mine.foldl (fun acc x =>
    match acc with
    | .error e => .error e
    | .ok l =>
      if x.len % 16 ≠ 0 then .error (LoadStatus.badobj, x.index)
      else
        match (chunks 16 (x.len / 16) (x.bytes obj)).foldl (fun (a : Option (List Loaded)) e => a.bind (relocate e x.link)) (some l) with
        | none => .error (LoadStatus.badobj, x.index)
        | some l => .ok l) (.ok l)

/-- Step 7: the handler notes that name a loaded native section: the new TRAPVEC after each (R393). -/
def handlerOf (obj : List Byte) (l : List Loaded) (old : DWord) (notes : List HandlerNote) : Except LoadFail (List DWord) :=
  notes.foldl (fun (acc : Except LoadFail (List DWord)) n =>
    match acc with
    | .error e => .error e
    | .ok vs =>
      match l.find? fun x => x.sect.index == n.sect && x.sect.type == 1 with
      | none => .ok vs
      | some x =>
        let v := dwordOf (x.va + fieldOf (x.sect.bytes obj) 0x14 4 + n.code)
        let now := vs.getLastD old
        if now ≠ 0 ∧ now ≠ v then .error (LoadStatus.handler, n.off) else .ok (vs ++ [v])) (.ok [])

/-- A handler address is set and measured (R393, 22 R403). -/
def State.setHandler (s : State) (ctx : Nat) (v : DWord) : State :=
  (s.onContext ctx fun c => { c with trapVec := v }).extend 6 (bytesOf 8 ctx ++ bytesOf 8 v.toNat)

/-- Steps 6 and 7, and the writes of the load; MEAS5 takes the code that the translator produced (22 R403). -/
def State.finishLoad (s : State) (ctx : Nat) (obj : List Byte) (image : Section) (notes : List HandlerNote) (l : List Loaded) :
    Except LoadFail (State × List Loaded) :=
  let produced := ((l.find? (·.sect.index == image.index)).map (·.bytes)).getD []
  match relocateAll obj l with
  | .error e => .error e
  | .ok l =>
    match handlerOf obj l (((s.context? ctx).map (·.trapVec)).getD 0) notes with
    | .error e => .error e
    | .ok vs =>
      let s := l.foldl (fun s x => (s.serviceWrite ctx x.va x.bytes).getD s) s
      let s := s.extend 4 obj
      let s := if image.type = 2 then s.extend 5 produced else s
      .ok (vs.foldl (fun s v => s.setHandler ctx v) s, l)

/-- Load an object into a context: the state after and the loaded sections, or the failure. -/
def State.loadObject (s : State) (ctx : Nat) (obj : List Byte) : Except LoadFail (State × List Loaded) :=
  match checkTable obj with
  | some e => .error e
  | none =>
    match objectNotes obj with
    | .error e => .error e
    | .ok notes =>
      match chooseImage obj with
      | none => .error (LoadStatus.noimage, noIndex)
      | some image =>
        match loadList obj image with
        | none => .error (LoadStatus.xlate, image.index)
        | some list =>
          match s.mapSections ctx list with
          | none => .error (Status.nospace, noIndex)
          | some (s, l) => s.finishLoad ctx obj image notes l

/-- The body of a load's reply: REV, NLOAD and where each section lies (22 Table 22.10). -/
def loadReply (l : List Loaded) : List Byte :=
  bytesOf 2 revision ++ bytesOf 2 0 ++ bytesOf 4 l.length ++
    l.flatMap fun x => bytesOf 4 x.sect.index ++ bytesOf 4 0 ++ bytesOf 8 x.va

/-- DEDUCED (log 83, unsafe). -/
def State.serveLoad (r : Request) (s : State) : State :=
  let ending := fun (s : State) st detail l => s.reply r.conn r.op r.ctx r.tag st detail (loadReply l)
  if !r.sized || decide (r.len < 0x18) || r.len != fieldOf r.body 0x10 8 || (s.context? r.ctx).isNone then
    ending s Status.badcmd noIndex []
  else
    match s.loadObject r.ctx r.body with
    | .error e => ending s e.1 e.2 []
    | .ok (t, l) => ending t Status.done noIndex l

def execLoadObject (s : State) : Host.Outcome State Fault Refusal := .next (s.serve' 1 (fun _ => false) State.serveLoad)

end Sys2Proof.Machine
end

