-- ==== Sys2Proof/Machine/Fabric.lean ====
section
/-! DEFINITION. The Ultra Ethernet ports, time, and the ports of the scale-up fabric (22 R395, R396, R400 to R402). -/

namespace Sys2Proof.Machine

/-! ## Ultra Ethernet (R395, R396) -/

/-- A packet that asks for an unsupported service is dropped and counted; nothing is answered. -/
def execPacketDropped (s : State) : Host.Outcome State Fault Refusal :=
  .next <| match s.inputs.head? with
    | some (.packetDropped p) => { s.pop with drops := s.drops.modify p (· + 1) }
    | _ => s

/-- A connection that fails the transport's own checks is closed. -/
def execConnectionClosed (s : State) : Host.Outcome State Fault Refusal :=
  .next <| match s.inputs.head? with
    | some (.connectionClosed c) => { s.pop with connections := s.connections.filter (· != c) }
    | _ => s

/-- A rate correction is within 500 ppm. -/
def ppmWithin (x : Int) : Int := max (-500) (min 500 x)

/-- A synchronisation on the time port: the first one after cold reset may step the clock forward while no context exists;
every one corrects the rate. -/
def State.synchronise (s : State) (ppm : Int) (step : Nat) : State :=
  let s := if !s.stepped && s.contexts.isEmpty then { s with wall := s.wall + step } else s
  { s with stepped := true, ppm := ppmWithin ppm }

def execTimeSync (s : State) : Host.Outcome State Fault Refusal :=
  .next <| match s.inputs.head? with
    | some (.timeSync p ppm step) => if p = s.config.timePort then s.pop.synchronise ppm step else s.pop
    | _ => s

/-! ## Ports of the fabric (R400, R401) -/

/-- The number of a state (Table 22.5). -/
def PortState.code (x : PortState) : Nat :=
  match x with
  | .off => 0
  | .light => 1
  | .lock => 2
  | .align => 3
  | .credit => 4
  | .up => 5

/-- The state that follows (Table 22.5). -/
def PortState.succ (x : PortState) : PortState :=
  match x with
  | .off => .light
  | .light => .lock
  | .lock => .align
  | .align => .credit
  | .credit => .up
  | .up => .up

/-- The limit of a state in ns. -/
def PortState.limit (x : PortState) : Option Nat :=
  match x with
  | .light => some 10000000
  | .lock => some 1000000
  | .align => some 1000000
  | .credit => some 100000
  | .off | .up => none

/-- The port has been in its state beyond the limit. -/
def FabricPort.late (p : FabricPort) (now : Nat) : Bool := p.state.limit.any fun n => decide (p.since + n ≤ now)

def State.onPort (s : State) (n : Nat) (f : FabricPort → FabricPort) : State := { s with ports := s.ports.modify n f }

/-- A port enters a state. -/
def State.setPort (s : State) (n : Nat) (x : PortState) : State :=
  s.onPort n fun p => { p with state := x, since := s.wall }

/-- A port is taken down, with an entry of kind 0x000A: 0 limit passed, 1 replays, 2 lanes (14 Table 14.4). -/
def State.failPort (s : State) (n reason : Nat) : State :=
  match s.ports[n]? with
  | none => s
  | some p =>
    let recent := (p.replays.filter fun t => decide (s.wall < t + 1000000)).length
    let data := bytesOf 1 n ++ bytesOf 1 p.state.code ++ bytesOf 2 reason ++ bytesOf 4 recent ++ zeroBytes 8
    (s.setPort n .off).netRecord 0x000A (netSrc 6 n) data

/-- Good lanes of a port. -/
def FabricPort.good (p : FabricPort) : Nat := ((List.range 32).filter p.lanes.getLsbD).length

/-- A port that enters a state with fewer than 16 good lanes is taken down (R400). Lanes that are lost stay so until a reset.
DESIGN CHOICE (log 87, unsafe). -/
def State.raisePort (s : State) (n : Nat) (p : FabricPort) (x : PortState) : State :=
  if p.good < 16 then (s.setPort n x).failPort n 2 else s.setPort n x

def execPortEnable (s : State) : Host.Outcome State Fault Refusal :=
  .next <| match s.inputs.head? with
    | some (.portEnable n) =>
      match s.ports[n]? with
      | none => s.pop
      | some p => if p.state = .off then s.pop.raisePort n p .light else s.pop
    | _ => s

/-- A port meets the condition of its state, within its limit. -/
def execPortStateAdvance (s : State) : Host.Outcome State Fault Refusal :=
  .next <| match s.inputs.head? with
    | some (.portStateAdvance n) =>
      match s.ports[n]? with
      | none => s.pop
      | some p => if p.state.limit.isSome && !p.late s.wall then s.pop.raisePort n p p.state.succ else s.pop
    | _ => s

/-- The first port that is beyond the limit of its state. -/
def State.latePort (s : State) : Option Nat :=
  (s.ports.zipIdx.find? fun x => x.1.late s.wall).map (·.2)

/-- A port misses the limit of its state: the one a message names, or the first that is late. -/
def execPortStateLimit (s : State) : Host.Outcome State Fault Refusal :=
  .next <| match s.inputs.head? with
    | some (.portStateLimit n) =>
      match s.ports[n]? with
      | none => s.pop
      | some p => if p.late s.wall then s.pop.failPort n 0 else s.pop
    | _ =>
      match s.latePort with
      | none => s
      | some n => s.failPort n 0

/-- A lane's status falls to 0; a port with fewer than 16 good lanes goes down. -/
def execLaneLost (s : State) : Host.Outcome State Fault Refusal :=
  .next <| match s.inputs.head? with
    | some (.laneLost n lane) =>
      let s := s.pop.onPort n fun p => { p with lanes := p.lanes &&& ~~~ BitVec.ofNat 32 (2 ^ lane) }
      match s.ports[n]? with
      | none => s
      | some p =>
        if p.state ≠ .off ∧ p.good < 16 then s.failPort n 2 else s
    | _ => s

/-! ## Replays (R402) -/

/-- The most flits that a port carries in 1 ms: 2.016 Tb/s in flits of 64 bytes. DEDUCED (log 87, unsafe). -/
def flitsPerWindow : Nat := 3937500

/-- The port's routes move to their alternates. -/
def State.reroute (s : State) (n : Nat) : State :=
  let move (r : Nat × Nat × Nat × Option Nat) : Nat × Nat × Nat × Option Nat :=
    if r.2.2.1 = n then
      match r.2.2.2 with
      | none => r
      | some q => (r.1, r.2.1, q, none)
    else r
  { s with config := { s.config with routes := s.config.routes.map move } }

/-- A flit is replayed. Replays above 1 in 10^6 flits in 1 ms take the port down; how many flits the window carried is
open. -/
def State.replayFlit (s : State) (n : Nat) : State :=
  let s := s.onPort n fun p => { p with replays := p.replays.filter (fun t => decide (s.wall < t + 1000000)) ++ [s.wall] }
  match s.ports[n]? with
  | none => s
  | some p =>
    let flits := (Config.word s.draw).toNat % (flitsPerWindow + 1)
    let s := { s with draw := s.draw + 1 }
    if p.state = .up ∧ flits < p.replays.length * 1000000 then
      ((s.failPort n 1).reroute n).onPort n fun p => { p with replays := [] }
    else s

def execFlitReplay (s : State) : Host.Outcome State Fault Refusal :=
  .next <| match s.inputs.head? with
    | some (.flitReplay n) => s.pop.replayFlit n
    | _ => s

/-! ## Requests of other packages (R400, 07 Table 7.2) -/

/-- The new value of an atomic or a reduction, by its opcode and type code (09 R182, R183): v the old value, x the operand, y
the value that CAS stores. -/
def fabricValue (op ty v x y : Nat) : Nat :=
  let t := itypeOf ty
  match op with
  | 0x80 | 0x89 => (v + x) % 2 ^ t.w
  | 0x81 | 0x8A => minTyped t v x
  | 0x82 | 0x8B => maxTyped t v x
  | 0x83 => v &&& x
  | 0x84 => v ||| x
  | 0x85 => v ^^^ x
  | 0x86 => x
  | 0x87 => if v = x then y else v
  | _ => (fadd (FFormat.ofCode (ty % 16)) atomMode v x).1

/-- Perform a request at memory; its response, which holds the old value of an atomic and nothing of a reduction. The bytes of
CAS are the value compared and the value stored. DESIGN CHOICE (log 79, safe). -/
def State.fabricOp (s : State) (op : FabricOp) (pa : Nat) (data : List Byte) : State :=
  let answer := fun (s : State) bs => { s with responses := s.responses ++ [bs] }
  let l := Loc.phys pa
  match op with
  | .read n => answer s (s.bytesAt l n)
  | .write => answer (s.put l data) []
  | .atomic op ty =>
    let w := if op = 0x87 then data.length / 2 else data.length
    let old := s.bytesAt l w
    let v := fabricValue op.toNat ty (ofBytes old) (ofBytes (data.take w)) (ofBytes (data.drop w))
    answer (s.put l (bytesOf w v)) (if op.toNat ≤ 0x88 then old else [])

def execFabricRequest (s : State) : Host.Outcome State Fault Refusal :=
  .next <| match s.inputs.head? with
    | some (.fabricRequest op pa data) =>
      if s.fabricUp && localMemory (s.homePa pa.toNat) then s.pop.fabricOp op pa.toNat data else s.pop
    | _ => s

end Sys2Proof.Machine
end

