-- ==== Sys2Proof/Machine/Merge.lean ====
section
/-! DEFINITION. MERGE, opcode 0x04: folding the copies of a name back (04 R75 to R82, 11 R234). -/

namespace Sys2Proof.Machine

/-! ## The policy (R76) -/

/-- What a MERGE immediate says, without its bit 0 (Table 4.3). -/
structure MergeImm where
  pol : Nat
  pred : Bool
  stat : Nat
  dl : Nat
  f : Bool
  w : Bool
  deriving DecidableEq, Repr

/-- DEDUCED (log 35, unsafe). -/
def mergeImm (i : BitVec 15) : MergeImm :=
  let n := i.toNat
  ⟨bits n 12 3, bitAt n 11, bits n 7 4, bits n 2 5, bitAt n 1, bitAt n 0⟩

/-- POL 2, 3, 4: add, min, max. -/
def MergeImm.combines (x : MergeImm) : Bool := x.pol == 2 || x.pol == 3 || x.pol == 4

/-- One ADD, MIN or MAX step on register words, with the flags that it sets. -/
def mergeStep (pol : Nat) (f pred : Bool) (mode : DWord) (x y : List Word) : List Word × BitVec 6 :=
  let a := x.headD 0
  let b := y.headD 0
  if pred then ([if pol = 3 then a &&& b else a ||| b], 0)
  else if f then
    let fmt := FFormat.ofCode (modeFtype mode)
    let m := fmodeOf mode
    let r := match pol with
      | 2 => fadd fmt m a.toNat b.toNat
      | 3 => fminmax false fmt m a.toNat b.toNat
      | _ => fminmax true fmt m a.toNat b.toNat
    ([wordOf r.1], r.2)
  else
    let t := itypeOf (modeItype mode)
    let raw := fun (l : List Word) => if t.w = 64 then pairOf (l.headD 0) (l.getD 1 0) else (l.headD 0).toNat % 2 ^ t.w
    let v := match pol with
      | 2 => wrap ((raw x : Int) + raw y) t.w
      | 3 => minTyped t (raw x) (raw y)
      | _ => maxTyped t (raw x) (raw y)
    (t.words v, 0)

/-- The holders whose value differs from the first one's. -/
def differing (vals : List (Nat × List Word)) : List Nat :=
  match vals with
  | [] => []
  | (_, v) :: _ => (vals.filter fun x => x.2 != v).map (·.1)

/-- What a merge does: the status, the differing holders, the value to write (none: nothing, or drop), and flags. -/
structure MergeResult where
  status : Nat
  dm : List Nat
  value : Option (List Word)
  drop : Bool
  flags : BitVec 6
  deriving DecidableEq, Repr

/-- The pseudocode of R76 on holders in ascending order. DEDUCED (log 36, unsafe). -/
def mergeOf (pol : Nat) (f pred : Bool) (mode : DWord) (vals : List (Nat × List Word)) : MergeResult :=
  let first := (vals.map (·.2)).headD []
  match pol with
  | 0 =>
    let dm := differing vals
    if dm.isEmpty then ⟨Status.done, [], some first, false, 0⟩ else ⟨Status.differ, dm, none, false, 0⟩
  | 1 => ⟨Status.done, [], some first, false, 0⟩
  | 5 => ⟨Status.done, [], none, true, 0⟩
  | _ =>
    let r := (vals.drop 1).foldl (fun (acc : List Word × BitVec 6) x =>
      let y := mergeStep pol f pred mode acc.1 x.2
      (y.1, acc.2 ||| y.2)) (first, (0 : BitVec 6))
    ⟨Status.done, [], some r.1, false, r.2⟩

/-- The status block (R77): four words. -/
def statusBlock (status : Nat) (dm : List Nat) : List Word :=
  if status = Status.differ then
    let low := dm.foldl min (dm.headD 0)
    [wordOf status, wordOf (low % 65536 * 65536 + dm.length % 65536)] ++
      pairWords (maskOf 64 dm.contains).toNat
  else [wordOf status, 0, 0, 0]

/-! ## Thread merges (R78) -/

/-- DropCrumbs on a thread-rank name: crumbs within H go. -/
def Ranked.dropCrumbs (H : DWord) (r : Ranked) : Ranked :=
  match r with
  | .perThread vals => .perThread vals
  | .widened v f cs => .widened v f (cs.filter fun c => !subMask c.mask H)

/-- Drop the crumbs of a name of n registers. -/
def Arch.dropName (a : Arch) (o : Operand) (n : Nat) (H : DWord) : Arch :=
  (List.range n).foldl (fun (a : Arch) k =>
    match o, (if k = 0 then o else o.above k) with
    | .pred p _, _ => a.onP p (Ranked.dropCrumbs H)
    | _, .t j => a.onT j (Ranked.dropCrumbs H)
    | _, _ => a) a

/-- The words of a name for a holder. -/
def Ctx.nameWords (c : Ctx) (o : Operand) (n i : Nat) : List Word :=
  match o with
  | .pred _ _ => [c.read o i]
  | _ => c.readWords o n i

def threadMerge (x : MergeImm) (n : Nat) (c : Ctx) (s : State) : State :=
  let vals := (threadsOf c.active).map fun i => (i, c.nameWords c.d n i)
  let r := mergeOf x.pol x.f x.pred c.mode vals
  let g := match r.value with
    | some v => if c.active = 0 then c.g else c.write c.d true (fun _ => v) c.g
    | none => if r.drop then c.g.onArch (·.dropName c.d n c.active) else c.g
  let g := g.onArch fun a => { a with sticky := a.sticky ||| r.flags }
  s.putGroup (g.setGs (4 * x.stat) (statusBlock r.status r.dm)).advance

/-! ## Team merges (R79 to R82) -/

/-- Set a sticky flag of a group: in its state, or in its saved image. -/
def State.orSticky (s : State) (g : Group) (fl : BitVec 6) : State :=
  if fl = 0 then s
  else if g.here && !g.super then s.onGroup g.id (·.onArch fun a => { a with sticky := a.sticky ||| fl })
  else
    match s.imageSpan g .write with
    | (s, .error _) => s
    | (s, .ok segs) => s.putSpan segs 0x18 (bytesOf 4 (s.spanValue segs 0x18 4 ||| fl.toNat))

/-- Complete a merge of name m, whose arrivals are all there, in gix order with their groups. -/
def State.completeMerge (s : State) (team m : Nat) (l : List (Group × Arrival)) : State :=
  match l with
  | [] => s
  | (_, a0) :: _ =>
    let odd := (l.filter fun x => x.2.pol != a0.pol || x.2.f != a0.f || x.2.w != a0.w).map (·.1.gix)
    let r := if odd.isEmpty then mergeOf a0.pol a0.f false a0.mode (l.map fun x => (x.1.gix, x.2.val))
      else ⟨Status.differ, odd, none, false, 0⟩
    let n := a0.val.length
    let names := (List.range n).map (m + ·)
    let drop := r.drop || r.value.isSome
    let value := fun (l : List Word) => ((r.value.getD []).zipIdx).foldl (fun l x => putAt l (m + x.2) 0 x.1) l
    let s := s.onTeam team fun t =>
      { t with mcopies := value t.mcopies, arrivals := t.arrivals.filter (·.m != m) }
    let clear (g : Group) : Group := { g with mcrumbs := names.foldl (fun l k => l.set k none) g.mcrumbs }
    let s := if drop then { s with groups := updateWhere (·.team == team) clear s.groups } else s
    let s := l.foldl (fun s x => s.orSticky x.1 r.flags) s
    let block := statusBlock r.status r.dm
    let mine (o : WaitObj) : Bool := o == .merge m
    s.latch team mine fun w => (block.zipIdx).map fun x => (w.dst + x.2, x.1)

/-- Complete every merge of a team at which each of its live groups has arrived. -/
def State.settleMerges (s : State) (team : Nat) : State :=
  match s.team? team with
  | none => s
  | some tm =>
    let live := s.liveOf team
    (distinct (tm.arrivals.map (·.m))).foldl (fun s m =>
      let l := live.filterMap fun g => (tm.arrivals.find? fun a => a.gid == g.id && a.m == m).map fun a => (g, a)
      if l.length = live.length then s.completeMerge team m l else s) s

def teamMerge (f : Form) (x : MergeImm) (n : Nat) (c : Ctx) (s : State) : State :=
  match c.g.wait, c.d with
  | some w, _ => s.checkWait c.g w
  | none, .m m =>
    match s.arm c.g (pairOf (c.read (.g (2 * x.dl)) 0) (c.read (.g (2 * x.dl + 1)) 0)) with
    | none => c.trap f s 0x07 0x03 0
    | some dl =>
      let s := s.release c.g 1
      let a : Arrival := ⟨c.g.id, m, x.pol, x.f, x.w, c.nameWords c.d n 0, c.mode, x.stat⟩
      let s := s.onTeam c.g.team fun t => { t with arrivals := t.arrivals ++ [a] }
      let out := ((statusBlock Status.timeout []).zipIdx).map fun y => (4 * x.stat + y.2, y.1)
      let w : Wait := ⟨.merge m, out, 4 * x.stat, dl.limit, dl.wall, dl.poll, s.nextId, none⟩
      let s := s.putGroup { c.g with phase := .waiting, wait := some w }
      let s := s.settleMerges c.g.team
      match s.group? c.g.id with
      | none => s
      | some g => s.checkWait g (g.wait.getD w)
  | none, _ => s

/-- The form of a MERGE word. A predicate has no type: `min` and `max` of one with an odd code run at a 64-bit ITYPE too, where R75
names an odd d. DESIGN CHOICE (log 128, unsafe). An empty copy of the deadline pair stands under the EMPTY bit of slot d, which the spec does
not say. DESIGN CHOICE (log 109, unsafe). -/
def mergeForm (d : BitVec 8) (i : BitVec 15) : Form :=
  let x := mergeImm i
  let thread := x.pred || decide (d.toNat < 0x80)
  let team := !x.pred && decide (0xC0 ≤ d.toNat) && decide (d.toNat < 0xE0)
  let wd : Wd := if x.w then .regs 2 true else if x.combines && !x.f then .typed else .one
  { word := wordI 0x04 d.toNat (i.toNat * 2)
    d := ⟨if x.pred then .pdst else .acc wd .tm, d.toNat⟩
    guarded := false
    log := team
    bad2 := decide (6 ≤ x.pol) || (x.f && !x.combines) || (x.w && x.combines) || (decide (x.dl ≠ 0) && thread) ||
      (x.pred && (x.pol == 2 || x.f || x.w))
    bad3 := x.pred && decide (7 < d.toNat)
    bad6 := !x.pred && decide (0xE0 ≤ d.toNat) && decide (d.toNat < 0xFE)
    blocks := [(4 * x.stat, 4)] ++ if team then [(2 * x.dl, 2)] else []
    more := (List.range 4).map (4 * x.stat + ·) ++ if team then [2 * x.dl, 2 * x.dl + 1] else [] }

def execMerge (d : BitVec 8) (i : BitVec 15) (s : State) : Host.Outcome State Fault Refusal :=
  let x := mergeImm i
  let f := mergeForm d i
  s.issue f fun c s =>
    let n := f.d.kind.wd.count c.mode
    match c.d with
    | .m _ => teamMerge f x n c s
    | _ => threadMerge x n c s

end Sys2Proof.Machine
end

