-- ==== Sys2Proof/Machine/Fetch.lean ====
section
/-! DEFINITION. Fetching an instruction word (07 R154) and the traps of words that are no instruction (03 R59 to R62). -/

namespace Sys2Proof.Machine

/-! ## Words that are no instruction -/

/-- The window reaches the odd register of a slot recorded with an even effective register (14 R288). -/
def SlotView.evenPair (v : SlotView) : Bool :=
  match v with
  | .reg c _ _ => decide (c < 0xF8) && c % 2 == 0
  | _ => false

/-- A word of an unassigned opcode byte read in the three-register format, or of an unassigned function read in the
coprocessor format (03 R62). -/
def unassignedForm (w : Word) : Form :=
  let n := w.toNat
  let r : Kind := .src .one .lane
  if bits n 30 2 = 3 then
    { word := w, d := ⟨.reply 1, bits n 0 7⟩, a := ⟨r, bits n 15 8⟩, b := ⟨r, bits n 7 8⟩ }
  else
    { word := w, d := ⟨r, bits n 16 8⟩, a := ⟨r, bits n 8 8⟩, b := ⟨r, bits n 0 8⟩, guarded := decide (16 ≤ bits n 24 8) }

/-- The unimplemented-instruction trap with sub-cause 0x00, or 0x01 for a function code (03 Table 3.10). -/
def execUnassignedOpcode (w : BitVec 32) (s : State) : Host.Outcome State Fault Refusal :=
  let f := unassignedForm w
  match s.group? s.cur with
  | none => .fault .noGroup
  | some g =>
    let x := s.issueOf f g
    let views := f.views x.r
    let guarded := if f.guarded then guardMask g.arch x.tm.launch.width g.arch.mode else g.arch.mask
    .next (s.trap g w 0x01 (if bits w.toNat 30 2 = 3 then 1 else 0) 0 guarded views (views.map SlotView.evenPair))

/-- The slots d, a, b of a word of an opcode below 0xC0 that the decoder refuses, as its instruction uses them
(03 R62, Table 3.2): only opcodes with unused fields or narrow codes can be refused. -/
def refusedKinds (op : Nat) : Kind × Kind × Kind :=
  let r : Kind := .src .one .lane
  let v : Kind := .src .typed .lane
  let p : Kind := .src (.regs 2 true) .lane
  match op with
  | 0x03 | 0x2D | 0x35 | 0x36 | 0x46 | 0x47 | 0x48 | 0x4B | 0x4C | 0x53 | 0x54 | 0x55 | 0x59 | 0xB4 | 0xB9 => (r, r, .unused)
  | 0x08 => (.psrc, .unused, .unused)
  | 0x0B | 0xB6 => (.unused, p, .unused)
  | 0x0C => (.pdst, r, .unused)
  | 0x0D | 0x0E => (.pdst, .psrc, .psrc)
  | 0x0F => (.other, r, .unused)
  | 0x18 | 0x19 | 0x1D | 0x22 | 0x23 | 0x3A | 0x3B | 0x3C => (v, v, .unused)
  | 0x26 | 0x27 | 0x28 | 0x29 => (.pdst, v, v)
  | 0x37 | 0x91 | 0xBD => (p, r, .unused)
  | 0x4D | 0x4E | 0x4F | 0x50 => (.pdst, r, r)
  | 0x51 => (v, r, .unused)
  | 0x52 => (r, v, .unused)
  | 0x60 | 0x62 | 0x80 | 0x81 | 0x82 | 0x83 | 0x84 | 0x85 | 0x86 | 0x89 | 0x8A | 0x8B => (v, .other, r)
  | 0x61 | 0x63 | 0x88 | 0x8C => (r, .other, r)
  | 0x68 | 0x69 | 0x6A | 0x6B => (.src (.regs 4 false) .lane, .other, r)
  | 0x6C => (.other, p, .unused)
  | 0x6D => (.other, .unused, .unused)
  | 0x6E | 0x70 | 0x71 | 0x72 => (.unused, .other, r)
  | 0x6F => (.src (.regs 4 true) .lane, .other, r)
  | 0x87 => (.src .twoTyped .lane, .other, r)
  | 0x90 | 0x94 | 0xBA => (.unused, r, r)
  | 0x93 | 0xB0 | 0xB1 | 0xB2 | 0xBF => (.unused, r, .unused)
  | 0x95 | 0xA8 => (r, .unused, .unused)
  | 0xA2 => (p, .unused, p)
  | 0xA5 | 0xA6 => (r, p, .unused)
  | 0xB5 => (p, .unused, .unused)
  | 0xBC => (.unused, r, p)
  | _ => (.unused, .unused, .unused)

/-- The slots of a coprocessor word that the decoder refuses. -/
def refusedCo (func : Nat) : Kind × Kind × Kind :=
  let r : Kind := .src .one .lane
  let n := if func = 0x0D ∨ 0x50 ≤ func then 4 else 1
  if func = 0x51 ∨ func = 0x5B then (.reply n, .unused, .unused)
  else if func = 0x21 ∨ func = 0x22 then (.reply n, .src (.regs 2 true) .lane, .unused)
  else (.reply n, r, .unused)

/-- A slot of a refused word: a predicate field whose code names no predicate is no register. -/
def refusedSlot (k : Kind) (code : Nat) : Slot :=
  match k with
  | .pdst => if code < 8 then ⟨.pdst, code⟩ else ⟨.other, code⟩
  | .psrc => if code < 16 then ⟨.psrc, code⟩ else ⟨.other, code⟩
  | k => ⟨k, code⟩

/-- The form of a word that the decoder refuses. -/
def refusedForm (w : Word) : Form :=
  let n := w.toNat
  let op := bits n 24 8
  if bits n 30 2 = 3 then
    let k := refusedCo (bits n 23 7)
    { word := w, d := ⟨k.1, bits n 0 7⟩, a := ⟨k.2.1, bits n 15 8⟩, b := ⟨k.2.2, bits n 7 8⟩ }
  else if op = 0x04 then { mergeForm (BitVec.ofNat 8 (n / 2 ^ 16)) (BitVec.ofNat 15 (n / 2)) with word := w, guarded := false }
  else
    let k := refusedKinds op
    { word := w, d := refusedSlot k.1 (bits n 16 8), a := refusedSlot k.2.1 (bits n 8 8), b := refusedSlot k.2.2 (bits n 0 8)
      guarded := decide (16 ≤ op) }

/-- The trap of a refused word: sub-cause 0x02 for bits that are not zero, 0x03 for a bad code (03 R60, R61). -/
def State.refusedWord (s : State) (g : Group) (w : Word) (e : Unimplemented) : State :=
  let f := refusedForm w
  let sub := match e with
    | .reservedBits => 0x02
    | .badCode => 0x03
  s.trapForm f (s.issueOf f g) 0x01 sub 0

/-! ## Fetch (07 R154) -/

/-- Words of the line of 64 bytes that a fetch brings into the instruction cache. -/
def State.lineWords (s : State) (line : Nat) : List (Nat × Word) :=
  (List.range 16).map fun i => (line + 4 * i, wordOf (s.mem.value (line + 4 * i) 4))

/-- Read an instruction word through the instruction cache: where it holds an older word, either may be fetched.
DESIGN CHOICE (log 33, safe). -/
def State.readWord (s : State) (core pa : Nat) : State × Word :=
  let now := wordOf (s.mem.value pa 4)
  let c := s.coreRec core
  match c.icache.find? (·.1 == pa) with
  | some (_, w) =>
    if w = now then (s, now)
    else ({ s with draw := s.draw + 1 }, if Config.chance s.draw then w else now)
  | none =>
    let line := pa / 64 * 64
    let rest := c.icache.filter fun x => x.1 / 64 != line / 64
    (s.putCore { c with icache := rest ++ s.lineWords line }, now)

/-- The word at a group's pc, or the memory fault of the fetch (07 R154, R160): zeros while the page waits for them. -/
def State.fetch (s : State) (g : Group) : State × Except MFault Word :=
  let core := s.coreOf g
  match s.translate (s.teamOf g).ctx core g.priv g.arch.pc.toNat .fetch with
  | (s, .error f) => (s, .error f)
  | (s, .ok h) =>
    match s.readSource h 4 with
    | .error f => (s, .error f)
    | .ok (.lit bs) => (s, .ok (wordOf (ofBytes bs)))
    | .ok (.at _ _) =>
      match s.readWord core (s.homePa h.pa) with
      | (s, w) => (s, .ok w)

/-- The memory fault of a fetch: KIND 3, WIDTH 4, WORD 0, every thread that is not masked off unfinished. What was kept
of an instruction in progress stays. DEDUCED (log 88, unsafe). -/
def State.fetchFault (s : State) (g : Group) (f : MFault) : State :=
  let rp : Replay := { unfin := g.arch.mask, mode := g.arch.mode, ix := g.arch.ix, addrs := [], held := [] }
  let fault : Fault7 := ⟨f.sub, g.arch.pc.toNat, 3, 4, f.level, f.pte, 0⟩
  (s.memoryFault g 0 rp fault [.unused, .unused, .unused] [false, false, false] none).onGroup g.id fun h =>
    if h.super && !g.super then { h with keptReplay := g.replay } else { h with replay := if h.live then g.replay else none }

end Sys2Proof.Machine
end

