-- ==== Sys2Proof/Machine/Dispatch.lean ====
section
/-! DEFINITION. The meaning of every row of spec/opcode_table.json: one arm for each constructor of Instr. -/

namespace Sys2Proof.Machine

def exec (i : Instr) (s : State) : Host.Outcome State Fault Refusal :=
  match i with
  | .nop => Sys2Proof.Machine.execNop s
  | .mode d v => Sys2Proof.Machine.execMode d v s
  | .rank d a => Sys2Proof.Machine.execRank d a s
  | .merge d v => Sys2Proof.Machine.execMerge d v s
  | .br v => Sys2Proof.Machine.execBr v s
  | .bz c v => Sys2Proof.Machine.execBz c v s
  | .bnz c v => Sys2Proof.Machine.execBnz c v s
  | .brd c v => Sys2Proof.Machine.execBrd c v s
  | .reconv => Sys2Proof.Machine.execReconv s
  | .call c v => Sys2Proof.Machine.execCall c v s
  | .ret a => Sys2Proof.Machine.execRet a s
  | .pset d a => Sys2Proof.Machine.execPset d a s
  | .pand d a b => Sys2Proof.Machine.execPand d a b s
  | .por d a b => Sys2Proof.Machine.execPor d a b s
  | .setix d a => Sys2Proof.Machine.execSetix d a s
  | .add d a b => Sys2Proof.Machine.execAdd d a b s
  | .sub d a b => Sys2Proof.Machine.execSub d a b s
  | .mul d a b => Sys2Proof.Machine.execMul d a b s
  | .mulh d a b => Sys2Proof.Machine.execMulh d a b s
  | .div d a b => Sys2Proof.Machine.execDiv d a b s
  | .rem d a b => Sys2Proof.Machine.execRem d a b s
  | .min d a b => Sys2Proof.Machine.execMin d a b s
  | .max d a b => Sys2Proof.Machine.execMax d a b s
  | .abs d a => Sys2Proof.Machine.execAbs d a s
  | .neg d a => Sys2Proof.Machine.execNeg d a s
  | .and d a b => Sys2Proof.Machine.execAnd d a b s
  | .or d a b => Sys2Proof.Machine.execOr d a b s
  | .xor d a b => Sys2Proof.Machine.execXor d a b s
  | .not d a => Sys2Proof.Machine.execNot d a s
  | .shl d a b => Sys2Proof.Machine.execShl d a b s
  | .shr d a b => Sys2Proof.Machine.execShr d a b s
  | .sar d a b => Sys2Proof.Machine.execSar d a b s
  | .rot d a b => Sys2Proof.Machine.execRot d a b s
  | .popc d a => Sys2Proof.Machine.execPopc d a s
  | .clz d a => Sys2Proof.Machine.execClz d a s
  | .bfx d a b => Sys2Proof.Machine.execBfx d a b s
  | .bfi d a b => Sys2Proof.Machine.execBfi d a b s
  | .cmpeq d a b => Sys2Proof.Machine.execCmpeq d a b s
  | .cmpne d a b => Sys2Proof.Machine.execCmpne d a b s
  | .cmplt d a b => Sys2Proof.Machine.execCmplt d a b s
  | .cmple d a b => Sys2Proof.Machine.execCmple d a b s
  | .sel d a b => Sys2Proof.Machine.execSel d a b s
  | .li d v => Sys2Proof.Machine.execLi d v s
  | .lih d v => Sys2Proof.Machine.execLih d v s
  | .mov d a => Sys2Proof.Machine.execMov d a s
  | .adda d a b => Sys2Proof.Machine.execAdda d a b s
  | .suba d a b => Sys2Proof.Machine.execSuba d a b s
  | .shfl d a b => Sys2Proof.Machine.execShfl d a b s
  | .shflUp d a b => Sys2Proof.Machine.execShflUp d a b s
  | .shflDn d a b => Sys2Proof.Machine.execShflDn d a b s
  | .shflXor d a b => Sys2Proof.Machine.execShflXor d a b s
  | .bcast d a b => Sys2Proof.Machine.execBcast d a b s
  | .voteAny d a => Sys2Proof.Machine.execVoteAny d a s
  | .voteAll d a => Sys2Proof.Machine.execVoteAll d a s
  | .voteBal d a => Sys2Proof.Machine.execVoteBal d a s
  | .scanAdd d a b => Sys2Proof.Machine.execScanAdd d a b s
  | .scanMax d a b => Sys2Proof.Machine.execScanMax d a b s
  | .reduceAdd d a => Sys2Proof.Machine.execReduceAdd d a s
  | .reduceMin d a => Sys2Proof.Machine.execReduceMin d a s
  | .reduceMax d a => Sys2Proof.Machine.execReduceMax d a s
  | .fadd d a b => Sys2Proof.Machine.execFadd d a b s
  | .fsub d a b => Sys2Proof.Machine.execFsub d a b s
  | .fmul d a b => Sys2Proof.Machine.execFmul d a b s
  | .fma d a b => Sys2Proof.Machine.execFma d a b s
  | .fms d a b => Sys2Proof.Machine.execFms d a b s
  | .fdiv d a b => Sys2Proof.Machine.execFdiv d a b s
  | .fsqrt d a => Sys2Proof.Machine.execFsqrt d a s
  | .frcp d a => Sys2Proof.Machine.execFrcp d a s
  | .frsq d a => Sys2Proof.Machine.execFrsq d a s
  | .fmin d a b => Sys2Proof.Machine.execFmin d a b s
  | .fmax d a b => Sys2Proof.Machine.execFmax d a b s
  | .fabs d a => Sys2Proof.Machine.execFabs d a s
  | .fneg d a => Sys2Proof.Machine.execFneg d a s
  | .fcmpeq d a b => Sys2Proof.Machine.execFcmpeq d a b s
  | .fcmplt d a b => Sys2Proof.Machine.execFcmplt d a b s
  | .fcmple d a b => Sys2Proof.Machine.execFcmple d a b s
  | .fcmpun d a b => Sys2Proof.Machine.execFcmpun d a b s
  | .cvtfi d a => Sys2Proof.Machine.execCvtfi d a s
  | .cvtif d a => Sys2Proof.Machine.execCvtif d a s
  | .fwiden d a => Sys2Proof.Machine.execFwiden d a s
  | .fnarrow d a => Sys2Proof.Machine.execFnarrow d a s
  | .fclass d a => Sys2Proof.Machine.execFclass d a s
  | .quant d a b => Sys2Proof.Machine.execQuant d a b s
  | .deq d a b => Sys2Proof.Machine.execDeq d a b s
  | .tfence => Sys2Proof.Machine.execTfence s
  | .fflags d a => Sys2Proof.Machine.execFflags d a s
  | .dadd d a b => Sys2Proof.Machine.execDadd d a b s
  | .dsub d a b => Sys2Proof.Machine.execDsub d a b s
  | .dmul d a b => Sys2Proof.Machine.execDmul d a b s
  | .dfma d a b => Sys2Proof.Machine.execDfma d a b s
  | .ddiv d a b => Sys2Proof.Machine.execDdiv d a b s
  | .dcvt d a b => Sys2Proof.Machine.execDcvt d a b s
  | .ldItype d x o => Sys2Proof.Machine.execLdItype d x o s
  | .ldFtype d x o => Sys2Proof.Machine.execLdFtype d x o s
  | .stItype d x o => Sys2Proof.Machine.execStItype d x o s
  | .stFtype d x o => Sys2Proof.Machine.execStFtype d x o s
  | .ldsItype d x o => Sys2Proof.Machine.execLdsItype d x o s
  | .ldsFtype d x o => Sys2Proof.Machine.execLdsFtype d x o s
  | .stsItype d x o => Sys2Proof.Machine.execStsItype d x o s
  | .stsFtype d x o => Sys2Proof.Machine.execStsFtype d x o s
  | .ldt d x o => Sys2Proof.Machine.execLdt d x o s
  | .ldtTr8 d x o => Sys2Proof.Machine.execLdtTr8 d x o s
  | .ldtTr16 d x o => Sys2Proof.Machine.execLdtTr16 d x o s
  | .stt d x o => Sys2Proof.Machine.execStt d x o s
  | .xlt d a => Sys2Proof.Machine.execXlt d a s
  | .xlinv d => Sys2Proof.Machine.execXlinv d s
  | .pref x o => Sys2Proof.Machine.execPref x o s
  | .waitmem d x o => Sys2Proof.Machine.execWaitmem d x o s
  | .discard x o => Sys2Proof.Machine.execDiscard x o s
  | .clean x o => Sys2Proof.Machine.execClean x o s
  | .invl1 x o => Sys2Proof.Machine.execInvl1 x o s
  | .atomAdd d x o => Sys2Proof.Machine.execAtomAdd d x o s
  | .atomMin d x o => Sys2Proof.Machine.execAtomMin d x o s
  | .atomMax d x o => Sys2Proof.Machine.execAtomMax d x o s
  | .atomAnd d x o => Sys2Proof.Machine.execAtomAnd d x o s
  | .atomOr d x o => Sys2Proof.Machine.execAtomOr d x o s
  | .atomXor d x o => Sys2Proof.Machine.execAtomXor d x o s
  | .atomExch d x o => Sys2Proof.Machine.execAtomExch d x o s
  | .atomCas d x o => Sys2Proof.Machine.execAtomCas d x o s
  | .atomFadd d x o => Sys2Proof.Machine.execAtomFadd d x o s
  | .redAdd d x o => Sys2Proof.Machine.execRedAdd d x o s
  | .redMin d x o => Sys2Proof.Machine.execRedMin d x o s
  | .redMax d x o => Sys2Proof.Machine.execRedMax d x o s
  | .redFadd d x o => Sys2Proof.Machine.execRedFadd d x o s
  | .barInit a b => Sys2Proof.Machine.execBarInit a b s
  | .barArrive d a => Sys2Proof.Machine.execBarArrive d a s
  | .barWait d a b => Sys2Proof.Machine.execBarWait d a b s
  | .barInval a => Sys2Proof.Machine.execBarInval a s
  | .barExpect a b => Sys2Proof.Machine.execBarExpect a b s
  | .close d => Sys2Proof.Machine.execClose d s
  | .waitb d a b => Sys2Proof.Machine.execWaitb d a b s
  | .fence d a b => Sys2Proof.Machine.execFence d a b s
  | .acq => Sys2Proof.Machine.execAcq s
  | .rel => Sys2Proof.Machine.execRel s
  | .acqRem d a b => Sys2Proof.Machine.execAcqRem d a b s
  | .qsend d a b => Sys2Proof.Machine.execQsend d a b s
  | .qrecv d a b => Sys2Proof.Machine.execQrecv d a b s
  | .qcredit d a b => Sys2Proof.Machine.execQcredit d a b s
  | .waitf d a b => Sys2Proof.Machine.execWaitf d a b s
  | .spawn d a b => Sys2Proof.Machine.execSpawn d a b s
  | .fork d a b => Sys2Proof.Machine.execFork d a b s
  | .join d b => Sys2Proof.Machine.execJoin d b s
  | .tcbNew d a b => Sys2Proof.Machine.execTcbNew d a b s
  | .tcbSucc d a b => Sys2Proof.Machine.execTcbSucc d a b s
  | .tcbSubmit d a => Sys2Proof.Machine.execTcbSubmit d a s
  | .tcbDone d a => Sys2Proof.Machine.execTcbDone d a s
  | .bintime d a b => Sys2Proof.Machine.execBintime d a b s
  | .yield d => Sys2Proof.Machine.execYield d s
  | .exit a => Sys2Proof.Machine.execExit a s
  | .trap a => Sys2Proof.Machine.execTrap a s
  | .tret a => Sys2Proof.Machine.execTret a s
  | .beat => Sys2Proof.Machine.execBeat s
  | .pidx d a => Sys2Proof.Machine.execPidx d a s
  | .modeRd d => Sys2Proof.Machine.execModeRd d s
  | .modeWr a => Sys2Proof.Machine.execModeWr a s
  | .winrd d a b => Sys2Proof.Machine.execWinrd d a b s
  | .winwr d a b => Sys2Proof.Machine.execWinwr d a b s
  | .sregRd d a => Sys2Proof.Machine.execSregRd d a s
  | .sregWr a b => Sys2Proof.Machine.execSregWr a b s
  | .shoot d a b => Sys2Proof.Machine.execShoot d a b s
  | .snet a b => Sys2Proof.Machine.execSnet a b s
  | .clock d a => Sys2Proof.Machine.execClock d a s
  | .brk => Sys2Proof.Machine.execBrk s
  | .halt a => Sys2Proof.Machine.execHalt a s
  | .copyVv a b r => Sys2Proof.Machine.execCopyVv a b r s
  | .copyVt a b r => Sys2Proof.Machine.execCopyVt a b r s
  | .copyTv a b r => Sys2Proof.Machine.execCopyTv a b r s
  | .copyTt a b r => Sys2Proof.Machine.execCopyTt a b r s
  | .copyMc a b r => Sys2Proof.Machine.execCopyMc a b r s
  | .copy2d a b r => Sys2Proof.Machine.execCopy2d a b r s
  | .copyGath a b r => Sys2Proof.Machine.execCopyGath a b r s
  | .copyFill a b r => Sys2Proof.Machine.execCopyFill a b r s
  | .copyOv a b r => Sys2Proof.Machine.execCopyOv a b r s
  | .xfTr a b r => Sys2Proof.Machine.execXfTr a b r s
  | .xfPlane a b r => Sys2Proof.Machine.execXfPlane a b r s
  | .xfDeq a b r => Sys2Proof.Machine.execXfDeq a b r s
  | .dcmp a b r => Sys2Proof.Machine.execDcmp a b r s
  | .copyStat a r => Sys2Proof.Machine.execCopyStat a r s
  | .ovFmt a r => Sys2Proof.Machine.execOvFmt a r s
  | .ovA a r => Sys2Proof.Machine.execOvA a r s
  | .ovB a r => Sys2Proof.Machine.execOvB a r s
  | .ovIdx a r => Sys2Proof.Machine.execOvIdx a r s
  | .ovTile a b r => Sys2Proof.Machine.execOvTile a b r s
  | .ovChain a b r => Sys2Proof.Machine.execOvChain a b r s
  | .ovStat a r => Sys2Proof.Machine.execOvStat a r s
  | .ovToken a r => Sys2Proof.Machine.execOvToken a r s
  | .accAlloc a b r => Sys2Proof.Machine.execAccAlloc a b r s
  | .accFree a r => Sys2Proof.Machine.execAccFree a r s
  | .accZero a r => Sys2Proof.Machine.execAccZero a r s
  | .accRd a r => Sys2Proof.Machine.execAccRd a r s
  | .accWr a b r => Sys2Proof.Machine.execAccWr a b r s
  | .accSt a b r => Sys2Proof.Machine.execAccSt a b r s
  | .accDrain a b r => Sys2Proof.Machine.execAccDrain a b r s
  | .accMap a r => Sys2Proof.Machine.execAccMap a r s
  | .tmAdd a b r => Sys2Proof.Machine.execTmAdd a b r s
  | .tmMin a b r => Sys2Proof.Machine.execTmMin a b r s
  | .tmMax a b r => Sys2Proof.Machine.execTmMax a b r s
  | .tmCas a b r => Sys2Proof.Machine.execTmCas a b r s
  | .tmSacc a b r => Sys2Proof.Machine.execTmSacc a b r s
  | .carAcq a b r => Sys2Proof.Machine.execCarAcq a b r s
  | .carRel r => Sys2Proof.Machine.execCarRel r s
  | .carClr a r => Sys2Proof.Machine.execCarClr a r s
  | .carCell a r => Sys2Proof.Machine.execCarCell a r s
  | .carCol a b r => Sys2Proof.Machine.execCarCol a b r s
  | .carDecide a r => Sys2Proof.Machine.execCarDecide a r s
  | .carProp a b r => Sys2Proof.Machine.execCarProp a b r s
  | .carBack a r => Sys2Proof.Machine.execCarBack a r s
  | .carLearn a b r => Sys2Proof.Machine.execCarLearn a b r s
  | .carTrail a r => Sys2Proof.Machine.execCarTrail a r s
  | .carVar a r => Sys2Proof.Machine.execCarVar a r s
  | .carStat r => Sys2Proof.Machine.execCarStat r s
  | .producerDelivers k => Sys2Proof.Machine.execProducerDelivers k s
  | .registerWaitExpired g => Sys2Proof.Machine.execRegisterWaitExpired g s
  | .waitTimeout g => Sys2Proof.Machine.execWaitTimeout g s
  | .commandAccepted c => Sys2Proof.Machine.execCommandAccepted c s
  | .engineUnitMoved c => Sys2Proof.Machine.execEngineUnitMoved c s
  | .commandComplete c => Sys2Proof.Machine.execCommandComplete c s
  | .ovenTurn cluster queue => Sys2Proof.Machine.execOvenTurn cluster queue s
  | .tmLineOperation c => Sys2Proof.Machine.execTmLineOperation c s
  | .leaseExpired cluster => Sys2Proof.Machine.execLeaseExpired cluster s
  | .binTimerExpired die bin => Sys2Proof.Machine.execBinTimerExpired die bin s
  | .watchdogExpired team => Sys2Proof.Machine.execWatchdogExpired team s
  | .watchdogTrap team => Sys2Proof.Machine.execWatchdogTrap team s
  | .turnstileAudit => Sys2Proof.Machine.execTurnstileAudit s
  | .lostPermitTrap team => Sys2Proof.Machine.execLostPermitTrap team s
  | .placement die => Sys2Proof.Machine.execPlacement die s
  | .teamStart team => Sys2Proof.Machine.execTeamStart team s
  | .retirement team => Sys2Proof.Machine.execRetirement team s
  | .eventRingAgeInterrupt die => Sys2Proof.Machine.execEventRingAgeInterrupt die s
  | .preemption g => Sys2Proof.Machine.execPreemption g s
  | .groupRestore g => Sys2Proof.Machine.execGroupRestore g s
  | .backingStorePageIn ctx va => Sys2Proof.Machine.execBackingStorePageIn ctx va s
  | .eviction => Sys2Proof.Machine.execEviction s
  | .contextRemoval => Sys2Proof.Machine.execContextRemoval s
  | .contextReturn => Sys2Proof.Machine.execContextReturn s
  | .shootdownComplete k => Sys2Proof.Machine.execShootdownComplete k s
  | .promotionComplete k => Sys2Proof.Machine.execPromotionComplete k s
  | .permitLands k => Sys2Proof.Machine.execPermitLands k s
  | .appendLands k => Sys2Proof.Machine.execAppendLands k s
  | .softErrorCorrected => Sys2Proof.Machine.execSoftErrorCorrected s
  | .uncorrectableError => Sys2Proof.Machine.execUncorrectableError s
  | .overTemperature => Sys2Proof.Machine.execOverTemperature s
  | .heatRefillHalved => Sys2Proof.Machine.execHeatRefillHalved s
  | .safetyNetUnfreeze => Sys2Proof.Machine.execSafetyNetUnfreeze s
  | .rlfree ctx j => Sys2Proof.Machine.execRlfree ctx j s
  | .deviceRegisterWrite => Sys2Proof.Machine.execDeviceRegisterWrite s
  | .debugResume => Sys2Proof.Machine.execDebugResume s
  | .coldReset => Sys2Proof.Machine.execColdReset s
  | .warmReset => Sys2Proof.Machine.execWarmReset s
  | .standbySupplyLoss => Sys2Proof.Machine.execStandbySupplyLoss s
  | .flashRecoveryWrite => Sys2Proof.Machine.execFlashRecoveryWrite s
  | .flashRecoveryCommit => Sys2Proof.Machine.execFlashRecoveryCommit s
  | .loadObject => Sys2Proof.Machine.execLoadObject s
  | .allocate => Sys2Proof.Machine.execAllocate s
  | .write => Sys2Proof.Machine.execWrite s
  | .launch => Sys2Proof.Machine.execLaunch s
  | .read => Sys2Proof.Machine.execRead s
  | .attest => Sys2Proof.Machine.execAttest s
  | .packetDropped => Sys2Proof.Machine.execPacketDropped s
  | .timeSync => Sys2Proof.Machine.execTimeSync s
  | .launchPacket => Sys2Proof.Machine.execLaunchPacket s
  | .gangStart k => Sys2Proof.Machine.execGangStart k s
  | .gangSliceExpired k => Sys2Proof.Machine.execGangSliceExpired k s
  | .portEnable => Sys2Proof.Machine.execPortEnable s
  | .portStateAdvance => Sys2Proof.Machine.execPortStateAdvance s
  | .portStateLimit => Sys2Proof.Machine.execPortStateLimit s
  | .flitReplay => Sys2Proof.Machine.execFlitReplay s
  | .laneLost => Sys2Proof.Machine.execLaneLost s
  | .unassignedOpcode w => Sys2Proof.Machine.execUnassignedOpcode w s
  | .storePerformed k => Sys2Proof.Machine.execStorePerformed k s
  | .reductionRequestEnds k => Sys2Proof.Machine.execReductionRequestEnds k s
  | .spuriousFiring g => Sys2Proof.Machine.execSpuriousFiring g s
  | .carouselCommandPerformed cluster => Sys2Proof.Machine.execCarouselCommandPerformed cluster s
  | .rangeBroughtIn k => Sys2Proof.Machine.execRangeBroughtIn k s
  | .fabricRequest => Sys2Proof.Machine.execFabricRequest s
  | .connectionClosed => Sys2Proof.Machine.execConnectionClosed s

end Sys2Proof.Machine
end

