-- ==== Sys2Proof/Machine/Run.lean ====
section
/-! DEFINITION. What a step chooses from: the instructions that groups can issue, the events that can come about and the
oldest message from outside; what settles after each, and how time passes (01 R9, R14, 04 R64, 09 R191). -/

namespace Sys2Proof.Machine

/-! ## Moves -/

/-- A move of the machine: a group issues its next instruction, or an event comes about. -/
inductive Move where
  | issue (gid : Nat)
  | event (i : Instr)
  deriving DecidableEq

/-- The row that performs a message from outside. -/
def Input.row (i : Input) : Instr :=
  match i with
  | .preemption g => .preemption g
  | .groupRestore g => .groupRestore g
  | .backingStorePageIn ctx va => .backingStorePageIn ctx va
  | .eviction _ => .eviction
  | .contextRemoval _ => .contextRemoval
  | .contextReturn _ => .contextReturn
  | .softErrorCorrected _ _ _ => .softErrorCorrected
  | .uncorrectableError _ _ _ _ => .uncorrectableError
  | .overTemperature _ _ => .overTemperature
  | .heatRefillHalved => .heatRefillHalved
  | .safetyNetUnfreeze => .safetyNetUnfreeze
  | .deviceRegisterWrite _ _ => .deviceRegisterWrite
  | .debugResume _ _ => .debugResume
  | .coldReset => .coldReset
  | .warmReset => .warmReset
  | .standbySupplyLoss => .standbySupplyLoss
  | .flashRecoveryWrite _ _ _ _ => .flashRecoveryWrite
  | .flashRecoveryCommit _ _ _ => .flashRecoveryCommit
  | .request _ op _ _ _ _ =>
    match op with
    | 1 => .loadObject
    | 2 => .allocate
    | 3 => .write
    | 4 => .launch
    | 5 => .read
    | _ => .attest
  | .packetDropped _ => .packetDropped
  | .timeSync _ _ _ => .timeSync
  | .launchPacket _ => .launchPacket
  | .portEnable _ => .portEnable
  | .portStateAdvance _ => .portStateAdvance
  | .portStateLimit _ => .portStateLimit
  | .flitReplay _ => .flitReplay
  | .laneLost _ _ => .laneLost
  | .spuriousFiring g => .spuriousFiring g
  | .rangeBroughtIn k => .rangeBroughtIn k
  | .fabricRequest _ _ _ => .fabricRequest
  | .connectionClosed _ => .connectionClosed

/-- An asynchronous trap is due, before the next instruction of its group (14 R271). -/
def State.trapDue (s : State) (tm : Team) : Bool :=
  (tm.wdogTrap || !tm.permitTraps.isEmpty) && (s.asyncTarget tm).isSome

/-- A group may issue: it is ready in its core, nothing stops it but a stop that falls inside its next instruction, and no
asynchronous trap comes first. DESIGN CHOICE (log 5, safe). -/
def State.mayIssue (s : State) (g : Group) : Bool :=
  let tm := s.teamOf g
  g.phase == .ready && g.here && !s.stoppedCtx tm.ctx && !g.stalled && (!s.mustStop g || g.stopAt.isSome) &&
    !(s.trapDue tm && (s.asyncTarget tm).any (·.id == g.id))

/-- The moves of groups. -/
def State.groupMoves (s : State) (g : Group) : List Move :=
  (if s.mayIssue g then [.issue g.id] else []) ++
  (if g.readExpired then [.event (.registerWaitExpired g.id)] else []) ++
  (if s.timedWait g then [.event (.waitTimeout g.id)] else []) ++
  (if g.watches then [.event (.spuriousFiring g.id)] else []) ++
  (if s.mustStop g && g.stopAt.isNone then [.event (.preemption g.id)] else []) ++
  (if s.mayRestore g then [.event (.groupRestore g.id)] else []) ++
  (match g.parkedVa with
    | none => []
    | some va => [.event (.backingStorePageIn (s.teamOf g).ctx (dwordOf va))])

/-- The moves of the memory system. -/
def State.memoryMoves (s : State) : List Move :=
  (s.deliveries.filter s.mayDeliver).map (fun d => .event (.producerDelivers d.id)) ++
  (s.stores.filter s.storeReady).map (fun e => .event (.storePerformed e.id)) ++
  (s.reductions.filter s.mayEnd).map (fun r => .event (.reductionRequestEnds r.id)) ++
  (s.shootdowns.filter fun x => !s.shotBusy x.ctx x.va.toNat).map (fun x => .event (.shootdownComplete x.id)) ++
  (s.promotions.filter s.mayPromote).map (fun p => .event (.promotionComplete p.id)) ++
  s.permits.map (fun p => .event (.permitLands p.id)) ++
  (s.appends.filter s.mayAppend).map (fun a => .event (.appendLands a.id))

/-- The moves of a command. -/
def State.cmdMoves (s : State) (c : Cmd) : List Move :=
  (if s.mayAccept c then [.event (.commandAccepted c.id)] else []) ++
  (if s.mayMove c then [.event (.engineUnitMoved c.id)] else []) ++
  (if s.mayComplete c then [.event (.commandComplete c.id)] else []) ++
  (if s.lineReady c && !s.stoppedCtx c.ctx then [.event (.tmLineOperation c.id)] else [])

/-- The moves of a cluster. -/
def State.clusterMoves (s : State) (cl : Cluster) : List Move :=
  (match s.nextTurn cl.oven with
    | none => []
    | some q => [.event (.ovenTurn cl.num q.num)]) ++
  (if (s.carMoves cl.num).isEmpty then [] else [.event (.carouselCommandPerformed cl.num)]) ++
  (if s.leaseOver cl then [.event (.leaseExpired cl.num)] else [])

/-- The moves of a team. -/
def State.teamMoves (s : State) (tm : Team) : List Move :=
  (if s.mayStart tm then [.event (.teamStart tm.id)] else []) ++
  (if s.mayRetire tm then [.event (.retirement tm.id)] else []) ++
  (if tm.wdogDue then [.event (.watchdogExpired tm.id)] else []) ++
  (if s.trapDue tm then [.event (if tm.wdogTrap then .watchdogTrap tm.id else .lostPermitTrap tm.id)] else [])

/-- The moves of a compute die. -/
def State.dieMoves (s : State) (d : Die) : List Move :=
  (if s.mayPlace d then [.event (.placement d.num)] else []) ++
  ((d.bins.zipIdx).filter fun b => b.1.expired s.wall && !s.stoppedCtx b.1.ctx).map (fun b => .event (.binTimerExpired d.num b.2)) ++
  (if d.ring.aged s.wall then [.event (.eventRingAgeInterrupt d.num)] else [])

/-- The next audit finds a sum that differs (09 R213), or may find that a link has lost a credit. -/
def State.auditDue (s : State) : Bool :=
  !s.links.isEmpty || s.teams.any fun tm => tm.queues.any fun q =>
    match s.openQueue tm.id q.num with
    | none => false
    | some (_, h) => s.permitSum tm q h != h.total

/-- A gang has something to do: its record is bad, its start has come, or room must be made. -/
def State.gangDue (s : State) (k : Gang) : Bool := (s.gangWaits k).isSome

/-- The other moves of the device. -/
def State.deviceMoves (s : State) : List Move :=
  ((s.rangeDue.head?.map fun k => Move.event (.rangeBroughtIn k)).toList) ++
  (if s.auditDue then [.event .turnstileAudit] else []) ++
  (s.gangs.filter s.gangDue).map (fun k => .event (.gangStart k.id)) ++
  (s.gangs.filter s.sliceOver).map (fun k => .event (.gangSliceExpired k.id)) ++
  (if s.latePort.isSome then [.event .portStateLimit] else [])

/-- The clusters in use: those with state of their own, and those of commands. -/
def State.usedClusters (s : State) : List Cluster :=
  (distinct (s.clusters.map (·.num) ++ s.cmds.map (·.cluster))).map s.clusterRec

/-- Every move that the machine may make now, the oldest message from outside among them.
DESIGN CHOICE (log 2, safe). -/
def State.moves (s : State) : List Move :=
  (s.inputs.head?.map fun i => Move.event i.row).toList ++ s.groups.flatMap s.groupMoves ++ s.memoryMoves ++
    s.cmds.flatMap s.cmdMoves ++ s.usedClusters.flatMap s.clusterMoves ++ s.teams.flatMap s.teamMoves ++
    s.dies.flatMap s.dieMoves ++ s.deviceMoves

/-! ## One move -/

/-- A group issues its next instruction: the word at its pc is fetched, decoded and executed. -/
def State.issueNext (s : State) (gid : Nat) : Host.Outcome State Fault Refusal :=
  let s := { s with cur := gid }
  match s.group? gid with
  | none => .next s
  | some g =>
    match s.fetch g with
    | (s, .error f) => .next (s.fetchFault g f)
    | (s, .ok w) =>
      match decode w with
      | .ok i => exec i s
      | .error e => .next (s.refusedWord g w e)

/-- A stop that was to fall inside an issue falls once it is over. -/
def stopAfter (gid : Nat) (o : Host.Outcome State Fault Refusal) : Host.Outcome State Fault Refusal :=
  match o with
  | .next s => .next (s.stopNow gid)
  | .fault f => .fault f
  | .refused r => .refused r

def State.perform (s : State) (m : Move) : Host.Outcome State Fault Refusal :=
  match m with
  | .issue gid => stopAfter gid (s.issueNext gid)
  | .event i => exec i s

/-! ## What follows each move -/

/-- Freed cores are forgotten once no head of the die's queue is placed on them: they count for the heads that are served
after the retirement (20 R369). -/
def State.settleFreed (s : State) : State :=
  let go (d : Die) : Die := if d.freed.isEmpty || s.mayPlace d then d else { d with freed := [] }
  { s with dies := s.dies.map go }

/-- Everything that comes about by itself: saved images lose translations that were shot down, merges meet, tiles enter
their Oven and are counted, waits end, monitors fire, parked groups go on, stops and swaps end, pending saves and traps are
taken up, full bins launch, freed cores are forgotten. -/
def State.settle (s : State) : State :=
  let s := (s.teams.filter fun tm => !tm.arrivals.isEmpty).foldl (fun s tm => s.settleMerges tm.id) s.settleShots
  let s := s.settleFollows.settleOvens.settleWaits.settleMonitors.settleParked.settleStops.settleSwaps
  s.settleStalled.settleTraps.settleBins.settleFreed

/-- What the wall clock counts in n ns at a rate correction, in 1/1,000,000 ns, with the part of a ns that stood (22 R396). -/
def wallParts (n : Nat) (ppm : Int) (rest : Nat) : Nat := ((n : Int) * (1000000 + ppm)).toNat + rest

/-- Heat tokens after n ns of two cycles each (15 R299). -/
def Oven.refill (rate n : Nat) (o : Oven) : Oven := { o with tokens := o.tokens.map fun t => min 262144 (t + 2 * n * rate) }

/-- The group is resident, and neither being saved nor restored: its team's watchdog counts (14 R279). -/
def Group.counted (g : Group) : Bool := g.here && !g.stalled && !g.emergency.any SaveCause.keeps

/-- n ns pass: the wall clock, the context clocks of groups in their cores, watchdog counts and heat tokens advance, and
values replaced over 1,000 ns ago are forgotten (09 R186, R191, 14 R279, 15 R299). DESIGN CHOICE (log 4, safe). -/
def State.tick (s : State) (n : Nat) : State :=
  let parts := wallParts n s.ppm s.ppmRest
  let w := parts / 1000000
  let clock (g : Group) : Group := if g.here && g.phase != .starting then { g with cclk := g.cclk + n } else g
  let dog (tm : Team) : Team :=
    let lives := tm.life == .running || tm.life == .stopping
    if lives && s.groups.any (fun g => g.team == tm.id && g.counted) then { tm with wdog := tm.wdog + w } else tm
  { s with
    wall := s.wall + w
    ppmRest := parts % 1000000
    past := s.past.filter fun p => decide (s.wall + w ≤ p.time + 1000)
    groups := s.groups.map clock
    teams := s.teams.map dog
    clusters := s.clusters.map fun (cl : Cluster) => { cl with oven := cl.oven.refill s.config.refill n } }

/-- Time passes after a move: how much is open. -/
def State.elapse (s : State) : State := { s with draw := s.draw + 1 }.tick (Config.elapsed s.draw)

/-- What a step adds to a move that goes on. -/
def State.after (s : State) : State := s.settle.elapse

def afterMove (o : Host.Outcome State Fault Refusal) : Host.Outcome State Fault Refusal :=
  match o with
  | .next s => .next s.after
  | .fault f => .fault f
  | .refused r => .refused r

/-- The move that comes next: the only one, or any of several. -/
def State.choose (s : State) : State × Option Move :=
  match s.moves with
  | [] => (s, none)
  | [m] => (s, some m)
  | l => ({ s with draw := s.draw + 1 }, l[Config.pick s.draw l.length % l.length]?)

/-! ## A place for one instruction -/

/-- Write table entries or words of 8 and 4 bytes. -/
def harnessMemory (w : Nat) : Memory :=
  let m : Memory := []
  let m := m.write 0x10000 (bytesOf 8 0x11001)
  let m := m.write 0x11000 (bytesOf 8 0x12001)
  let m := m.write 0x12000 (bytesOf 8 0x13001)
  let m := m.write 0x13010 (bytesOf 8 0x10006D)
  let m := m.write 0x13018 (bytesOf 8 0x1100D5)
  let m := m.write 0x13020 (bytesOf 8 0x1200DD)
  let m := m.write 0x13028 (bytesOf 8 0x1300D5)
  m.write 0x100000 (bytesOf 4 w)

/-- The record of the team that withFetchWord makes: one group of 16 threads with every register. -/
def harnessRecord : LaunchRecord :=
  { LaunchRecord.none with
    entry := 0x20000, teams := 1, groups := 1, width := 16, kargs := 24, tregs := 128, gregs := 64, mregs := 32, tmem := 2048
    core0 := 0, ncores := 1, kval := List.replicate 24 0 }

def harnessContext : Context := { Context.none with num := 1, root := 0x10000, ctxSave := 0x50000 }

def harnessTeam (s : State) : Team :=
  { harnessRecord.team s.nextId 1 0 0 0 with life := .running, core := some 0, placed := s.nextId, save := 0x30000, tstart := some s.wall }

/-- The machine with one running context, team and group, whose next instruction is the word w. -/
def State.harness (s : State) (w : Nat) : State :=
  let tm := harnessTeam s
  { State.reset with
    draw := s.draw, nextId := s.nextId + 2, boot := .running, wall := s.wall, ppm := s.ppm, stepped := true, flash := s.flash
    leafNext := s.leafNext, leafEnd := s.leafEnd, frames := [(0, 0x200000)], safety := s.safety, serr := s.serr, meas := s.meas
    mem := harnessMemory w, contexts := [harnessContext], teams := [tm]
    groups := [{ Group.start tm (s.nextId + 1) 0 ⟨0, 0, 0⟩ with phase := .ready }] }

/-- Where the next step fetches, when it can only issue one group's instruction from its own memory. -/
def State.fetchPlace (s : State) : Option Nat :=
  match s.powered, s.boot, s.moves with
  | true, .running, [.issue gid] =>
    match s.group? gid with
    | none => none
    | some g =>
      match s.walk (s.teamOf g).ctx g.arch.pc.toNat with
      | .error _ => none
      | .ok l =>
        let pa := s.homePa (Pte.frame l.pte + g.arch.pc.toNat % pageSize l.level)
        if (l.check g.priv .fetch).isNone && g.arch.pc.toNat % 4 == 0 && decide (g.arch.pc.toNat < 2 ^ 52) && !Pte.z l.pte &&
            Pte.ck l.pte == 0 && s.cores.isEmpty && s.dies.isEmpty && localMemory pa then some pa else none
  | _, _, _ => none

end Sys2Proof.Machine
end

