-- ==== Sys2Proof/Machine/Step.lean ====
section
/-! DEFINITION. One step of the machine (01 R9): the power and the boot ROM come first, then any one move that is
possible; time passes after it. -/

namespace Sys2Proof.Machine

/-- One step. Without power only a cold reset is possible; after reset the boot ROM runs (22 R403); without a possible
move time passes. DEDUCED (log 97, safe). DESIGN CHOICE (log 99, safe). -/
def step (s : State) : Host.Outcome State Fault Refusal :=
  if s.powered = false ∧ s.inputs.head? ≠ some .coldReset then .fault .powerOff
  else if s.powered = false ∨ s.boot = .reset then afterMove (exec .coldReset s)
  else
    match s.choose with
    | (s, none) => .next s.after
    | (s, some m) => afterMove (s.perform m)

/-- The machine with the word w at the place from which its next step fetches. Where that step would not fetch one word
from memory of the package (nothing runs, or several moves are possible), a context, a team and a group are loaded that
run it. DESIGN CHOICE (log 94, safe). -/
def State.withFetchWord (s : State) (nbits w : Nat) : State :=
  match s.fetchPlace with
  | some pa => { s with mem := s.mem.write pa (bytesOf 4 (w % 2 ^ nbits)) }
  | none => s.harness (w % 2 ^ nbits)

end Sys2Proof.Machine
end

