-- ==== Sys2Proof/Safety.lean ====
section
/-! DEFINITION. The terms of the claims about the machine: when an instruction passes the checks of its issue and runs, what
its result does to the copies that threads read, what it leaves alone, and the form that memory keeps. -/

namespace Sys2Proof.Machine

/-! ## The checks of an issue (03 R60) -/

/-- What a meaning is given when a form is issued by a group. -/
def State.ctxOf (s : State) (f : Form) (g : Group) : Ctx := (s.issueOf f g).ctx f.word (s.roomFor g)

/-- The form is on the list of 09 R190, counts as an access, and the context's reduction fault log is not empty, or will not be:
a request of it in flight faults. -/
def State.logBlocks (s : State) (f : Form) (g : Group) : Bool :=
  let x := s.issueOf f g
  f.log && (!f.guarded || x.active != 0) && s.logDue x.tm.ctx

/-- A slot of a pair width holds an odd code (05 R97). -/
def Form.oddPair (f : Form) (mode : DWord) : Bool := f.d.oddTyped mode || f.a.oddTyped mode || f.b.oddTyped mode

/-- No check of 03 R60 that comes before operands are read takes a trap, and some thread is active. -/
structure Passes (s : State) (g : Group) (f : Form) (late : Ctx → Option Nat) : Prop where
  current : s.group? s.cur = some g
  word : f.wordCheck = none
  level : f.level ≤ g.priv
  bounds : f.outOfBounds (s.issueOf f g) = false
  ranks : f.ranksIllegal (s.issueOf f g).mode = false
  log : s.logBlocks f g = false
  pairs : f.oddPair (s.issueOf f g).mode = false
  mode : late (s.ctxOf f g) = none
  active : f.guarded = true → (s.issueOf f g).active ≠ 0

/-- The instruction runs: every check of 03 R60 passes and every copy that it reads is full (03 R52); it starts with its
first beat, or replays, and no stop falls between its beats (14 R277). -/
structure Runs (s : State) (g : Group) (f : Form) (late : Ctx → Option Nat := fun _ => none)
    (reads : Ctx → Reads := Ctx.activeReads) : Prop extends Passes s g f late where
  full : f.emptySlot (s.ctxOf f g) (reads (s.ctxOf f g)) (f.holds g) = none
  start : g.arch.pidx = 0 ∨ g.replay.isSome = true
  whole : g.stopAt = none

/-! ## Results in registers -/

/-- The same threads and operands, read in a later state of the group. -/
def Ctx.later (c : Ctx) (h : Group) : Ctx := { c with g := h }

/-- Register k of a destination (01 R13). -/
def Operand.nth (o : Operand) (k : Nat) : Operand := if k = 0 then o else o.above k

/-- Writes to the operand are discarded (03 R42). -/
def Operand.discards (o : Operand) : Bool :=
  match o with
  | .t _ | .g _ | .m _ | .pred _ _ => false
  | _ => true

/-- The operands name the same storage. -/
def Operand.same (x y : Operand) : Bool :=
  match x, y with
  | .pred n _, .pred j _ => n == j
  | _, _ => x == y

/-- Where a crumb of the destination has Active as its mask, no crumb lies inside Active or across its edge: a write
changes one crumb and leaves deeper ones (04 R70). -/
def Ctx.crumbsClear (c : Ctx) (o : Operand) : Prop :=
  let cs := match o with
    | .t n => (c.g.arch.t.getD n Ranked.zero).crumbs
    | .pred n _ => (c.g.arch.p.getD n Ranked.zero).crumbs
    | _ => []
  cs.any (fun k => k.mask == c.active) = true → ∀ k ∈ cs, meets k.mask c.active = true → subMask c.active k.mask = true

/-- The copies after a result of n registers: what each thread reads of the destination (01 R17, 02 R38, 04 R69 to R73),
the pc, the sticky flags, and that nothing else of the group has changed. -/
structure Result (c : Ctx) (n : Nat) (val : Nat → List Word) (flags : BitVec 6) (h : Group) : Prop where
  /-- a thread of Active, or every thread of a wider name, reads the result, and the copy is full. -/
  dest : ∀ k, k < n → (c.d.nth k).discards = false → ∀ i, i < c.width → i < 64 →
    (c.later h).copy (c.d.nth k) i =
      if (c.d.nth k).isUniform then ((val 0).getD k 0, true)
      else if inMask c.active i then ((val i).getD k 0, true) else c.copy (c.d.nth k) i
  /-- every other name reads as before. -/
  others : ∀ o : Operand, (∀ k, k < n → (c.d.nth k).same o = false) → ∀ i, (c.later h).copy o i = c.copy o i
  pc : h.arch.pc = c.g.arch.pc + 4
  sticky : h.arch.sticky = c.g.arch.sticky ||| flags
  /-- the mode, the masks, the stack, the translation registers and all other state stay. -/
  rest : h =
    { c.g with
      arch := { c.g.arch with
        pc := h.arch.pc, sticky := h.arch.sticky, t := h.arch.t, g := h.arch.g, p := h.arch.p, pidx := 0, snap := [] }
      mcrumbs := h.mcrumbs, phase := .ready, rwLimit := none, firstIssue := none, replay := none, wait := none }

/-! ## Frames -/

/-- Every byte of memory and of each team's memory reads as before. -/
def SameMemory (s t : State) : Prop := (∀ l : Loc, t.byteAt l = s.byteAt l) ∧ ∀ a, t.flash.get a = s.flash.get a

/-- Nothing but the group with an identifier has changed, and that group is as given: no other group, no memory, no other
unit. -/
def OnlyGroup (s t : State) (h : Group) : Prop := t = s.putGroup h ∧ SameMemory s t

/-- A leaf entry, where there is one, gets A, bit 6 of its lowest byte, and nothing else in memory changes; what stood there stays
known, and the monitors of its line fire (07 R149, R172, 09 R186). -/
structure SetsA (s t : State) (leaf : Option Leaf) : Prop where
  byte : ∀ l, leaf = some l → t.mem.get l.addr = s.mem.get l.addr ||| 0x40
  others : ∀ a, (∀ l, leaf = some l → a ≠ l.addr) → t.mem.get a = s.mem.get a
  past : t.past = (match leaf with
    | some l => [⟨s.wall, none, l.addr, s.mem.read l.addr 8⟩]
    | none => []) ++ s.past
  monitors : ∀ n, (t.coreRec n).monitors = match leaf with
    | some l => ((s.coreRec n).written l.addr 8).monitors
    | none => (s.coreRec n).monitors

/-- What one translation for a read does: A may be set in the leaf entry that a walk for its address finds; the TLBs of its core
and die may keep an entry of its page, a Riser a sidecar line; the page's use is noted; a free value may be drawn; nothing else
changes (07 R149, R152, R153, R176, 12 R254). -/
structure ReadMark (s t : State) (ctx core va : Nat) : Prop where
  rest : t = { s with
    mem := t.mem, cores := t.cores, dies := t.dies, draw := t.draw, recent := t.recent, pageUses := t.pageUses
    risers := t.risers, past := t.past }
  marks : ∃ leaf, (∀ l, leaf = some l → s.walk ctx va = .ok l) ∧ SetsA s t leaf
  draw : t.draw = s.draw ∨ t.draw = s.draw + 1
  cores : ∀ n, t.coreRec n = { s.coreRec n with tlb := (t.coreRec n).tlb, monitors := (t.coreRec n).monitors } ∧
    (n ≠ core → (t.coreRec n).tlb = (s.coreRec n).tlb)
  coreTlb : ∀ e ∈ (t.coreRec core).tlb, e ∈ (s.coreRec core).tlb ∨ e.covers ctx va = true
  dies : ∀ n, t.dieRec n = { s.dieRec n with tlb := (t.dieRec n).tlb } ∧
    (n ≠ dieOfCore core → (t.dieRec n).tlb = (s.dieRec n).tlb)
  dieTlb : ∀ e ∈ (t.dieRec (dieOfCore core)).tlb, e ∈ (s.dieRec (dieOfCore core)).tlb ∨ e.covers ctx va = true
  recent : (∀ p ∈ s.recent, p ∈ t.recent) ∧
    ∀ p ∈ t.recent, p ∈ s.recent ∨ p.1 = ctx ∧ p.2.1 ≤ va ∧ va < p.2.1 + p.2.2
  pageUses : ∃ l, t.pageUses = l ++ s.pageUses ∧ ∀ u ∈ l, usesPage ctx va u = true
  risers : ∃ l, t.risers = l ++ s.risers ∧ ∀ x ∈ l, x.2 = t.storedSidecar x.1

/-- What the translations of reads at some addresses, one after another, do. -/
def ReadMarks (ctx core : Nat) : State → List Nat → State → Prop
  | s, [], t => t = s
  | s, va :: rest, t => ∃ u, ReadMark s u ctx core va ∧ ReadMarks ctx core u rest t

/-- The instruction ends with words in consecutive g registers, each full: the pc moves on, the wait is over, and of the
group's program nothing else changes but its count of timeouts (09 R194, R195). -/
structure Answered (g h : Group) (n : Nat) (ws : List Word) : Prop where
  regs : ∀ k, k < ws.length → h.arch.g.getD (n + k) ⟨0, true⟩ = ⟨ws.getD k 0, true⟩
  others : ∀ j, j < n ∨ n + ws.length ≤ j → h.arch.g.getD j ⟨0, true⟩ = g.arch.g.getD j ⟨0, true⟩
  arch : h.arch =
    { g.arch with
      pc := g.arch.pc + 4, g := h.arch.g, timeouts := h.arch.timeouts, lastObj := h.arch.lastObj, pidx := 0, snap := [] }
  ready : h.phase = .ready ∧ h.wait = none ∧ h.replay = none ∧ h.rwLimit = none ∧ h.firstIssue = none

/-- The same for words in listed registers. -/
structure AnsweredAt (g h : Group) (ws : List (Nat × Word)) : Prop where
  regs : ∀ x ∈ ws, h.arch.g.getD x.1 ⟨0, true⟩ = ⟨x.2, true⟩
  others : ∀ j, (∀ x ∈ ws, x.1 ≠ j) → h.arch.g.getD j ⟨0, true⟩ = g.arch.g.getD j ⟨0, true⟩
  arch : h.arch =
    { g.arch with
      pc := g.arch.pc + 4, g := h.arch.g, timeouts := h.arch.timeouts, lastObj := h.arch.lastObj, pidx := 0, snap := [] }
  ready : h.phase = .ready ∧ h.wait = none ∧ h.replay = none ∧ h.rwLimit = none ∧ h.firstIssue = none

/-! ## Memory -/

/-- Memory, flash and the memory of each team are in their canonical form: addresses rise, and no entry is what an
unlisted byte reads as. -/
def State.canonical (s : State) : Prop :=
  s.mem.wf = true ∧ s.flash.wf = true ∧ ∀ tm ∈ s.teams, Memory.wf tm.mem = true

end Sys2Proof.Machine
end

