-- ==== Sys2Proof/Certificates/Slice0/Obligations.lean ====
section
/-! DEFINITION. The statements for the provers. Each says which rule of spec/ it formalises; Sys2Proof/Tests/Slice0.lean
holds a witness for the hypotheses of each. -/

namespace Sys2Proof.Claims

open Sys2Proof.Machine

/-! ## Instructions that compute a result -/

/-- The instruction completes and its result reaches its destination alone: whenever it passes the checks of 03 R60 and its
copies are full, exec answers a next state in which the n destination registers hold the result in the threads that it
reaches, the sticky flags have those of the result added, the pc has moved past the word, and nothing else has changed:
no other register, special register, group, unit, or byte of memory. -/
def Computes (i : Instr) (f : Form) (n : Ctx → Nat) (val : Ctx → Nat → List Word) (flags : Ctx → BitVec 6)
    (reads : Ctx → Reads := Ctx.activeReads) : Prop :=
  ∀ (s : State) (g : Group), Runs s g f (reads := reads) →
    (∀ k, k < n (s.ctxOf f g) → (s.ctxOf f g).crumbsClear ((s.ctxOf f g).d.nth k)) →
    ∃ t h, exec i s = .next t ∧ OnlyGroup s t h ∧
      Result (s.ctxOf f g) (n (s.ctxOf f g)) (val (s.ctxOf f g)) (flags (s.ctxOf f g)) h

/-- One register. -/
def one (_ : Ctx) : Nat := 1

/-- A pair at a 64-bit ITYPE, else one register (05 R95). -/
def regsOfType (c : Ctx) : Nat := if c.itype.w = 64 then 2 else 1

def noSticky (_ : Ctx) : BitVec 6 := 0

/-- The sticky flags that the runs of an instruction set together (06 R122). -/
def stickyOf (flags : Ctx → Nat → BitVec 6) (c : Ctx) : BitVec 6 := c.runs.foldl (fun acc i => acc ||| flags c i) 0

/-- Slots d, a, b. -/
abbrev Three := BitVec 8 → BitVec 8 → BitVec 8 → Instr

/-- Slots d, a. -/
abbrev Two := BitVec 8 → BitVec 8 → Instr

/-- The number in a slot under the type of the instruction, as bits and as a value. -/
def srcA (c : Ctx) (i : Nat) : Nat := c.readBits c.a c.itype.w i
def srcB (c : Ctx) (i : Nat) : Nat := c.readBits c.b c.itype.w i

/-- Table 5.1, two sources: constructor, opcode, and the exact result whose low w bits are the result. -/
def arithmetic : List (Three × Nat × (IType → Nat → Nat → Int)) :=
  [(.add, 0x10, fun t x y => t.value x + t.value y),
   (.sub, 0x11, fun t x y => t.value x - t.value y),
   (.mul, 0x12, fun t x y => t.value x * t.value y),
   (.mulh, 0x13, fun t x y => t.value x * t.value y / 2 ^ t.w),
   (.min, 0x16, fun t x y => min (t.value x) (t.value y)),
   (.max, 0x17, fun t x y => max (t.value x) (t.value y)),
   (.and, 0x1A, fun _ x y => ((x &&& y : Nat) : Int)),
   (.or, 0x1B, fun _ x y => ((x ||| y : Nat) : Int)),
   (.xor, 0x1C, fun _ x y => ((x ^^^ y : Nat) : Int))]

/-- Division and remainder (05 R100). -/
def division : List (Three × Nat × (IType → Nat → Nat → Int)) :=
  [(.div, 0x14, fun t x y => if y = 0 then -1 else Int.tdiv (t.value x) (t.value y)),
   (.rem, 0x15, fun t x y => if y = 0 then x else Int.tmod (t.value x) (t.value y))]

/-- Table 5.1, one source. -/
def unary : List (Two × Nat × (IType → Nat → Int)) :=
  [(.abs, 0x18, fun t x => |t.value x|),
   (.neg, 0x19, fun t x => -t.value x),
   (.not, 0x1D, fun t x => -1 - t.value x),
   (.popc, 0x22, fun t x => (((List.range t.w).filter (bitAt x)).length : Int)),
   (.clz, 0x23, fun t x => (t.w : Int) - Nat.size x)]

/-- Shifts (05 R101): what the 32-bit operand and the count give. -/
def shifts : List (Three × Nat × (Word → Nat → Int)) :=
  [(.shl, 0x1E, fun x n => if n < 32 then x.toNat * 2 ^ n else 0),
   (.shr, 0x1F, fun x n => if n < 32 then x.toNat / 2 ^ n else 0),
   (.sar, 0x20, fun x n => x.toInt / 2 ^ min n 31),
   (.rot, 0x21, fun x n => x.toNat * 2 ^ (n % 32) + x.toNat / 2 ^ (32 - n % 32))]

/-- Compares (05 R103). -/
def compares : List ((BitVec 3 → BitVec 8 → BitVec 8 → Instr) × Nat × (Int → Int → Prop)) :=
  [(.cmpeq, 0x26, fun x y => x = y), (.cmpne, 0x27, fun x y => x ≠ y), (.cmplt, 0x28, fun x y => x < y),
   (.cmple, 0x29, fun x y => x ≤ y)]

end Sys2Proof.Claims

open Sys2Proof Sys2Proof.Machine Sys2Proof.Claims

/-- 05 R99: the low w bits of the exact result, extended to 32 bits by the type or held in a pair. -/
def Sys2Proof.Claims.IntegerArithmetic : Prop :=
  ∀ e ∈ arithmetic, ∀ d a b : BitVec 8,
    Computes (e.1 d a b) (typed2 e.2.1 d a b) regsOfType
      (fun c i => c.itype.words (wrap (e.2.2 c.itype (srcA c i) (srcB c i)) c.itype.w)) noSticky

/-- 05 R100: division rounds toward zero; a divisor of 0 gives all ones or the dividend and sets a sticky flag. -/
def Obligations.IntegerDivision : Prop :=
  ∀ e ∈ division, ∀ d a b : BitVec 8,
    Computes (e.1 d a b) (typed2 e.2.1 d a b) regsOfType
      (fun c i => c.itype.words (wrap (e.2.2 c.itype (srcA c i) (srcB c i)) c.itype.w))
      (fun c => if c.runs.any (fun i => srcB c i == 0) then 0x20#6 else 0)

/-- 05 Table 5.1: absolute value, negation, complement, population count, leading zeros. -/
def Sys2Proof.Claims.IntegerUnary : Prop :=
  ∀ e ∈ unary, ∀ d a : BitVec 8,
    Computes (e.1 d a) (typed1 e.2.1 d a) regsOfType
      (fun c i => c.itype.words (wrap (e.2.2 c.itype (srcA c i)) c.itype.w)) noSticky

/-- 05 R101: shifts by the whole count, rotation by the count modulo 32. -/
def Obligations.ShiftAndRotate : Prop :=
  ∀ e ∈ shifts, ∀ d a b : BitVec 8,
    Computes (e.1 d a b) (plain2 e.2.1 d a b) one
      (fun c i => [BitVec.ofInt 32 (e.2.2 (c.read c.a i) (c.read c.b i).toNat)]) noSticky

/-- 05 R103: a compare writes its predicate for the threads of Active. -/
def Sys2Proof.Claims.IntegerCompare : Prop :=
  ∀ e ∈ compares, ∀ (d : BitVec 3) (a b : BitVec 8) (val : Ctx → Nat → List Word),
    (∀ c i, e.2.2 (c.itype.value (srcA c i)) (c.itype.value (srcB c i)) → val c i = [1]) →
    (∀ c i, ¬ e.2.2 (c.itype.value (srcA c i)) (c.itype.value (srcB c i)) → val c i = [0]) →
    Computes (e.1 d a b) (compareForm e.2.1 d a b) one val noSticky

namespace Sys2Proof.Claims

/-! ## Bit fields, constants, moves, addresses (05 R102 to R107) -/

def bfiForm (d a b : BitVec 8) : Form :=
  form3 0x25 d.toNat a.toNat b.toNat (.acc .one .any) (.src .one .any) (.src .one .any)

def selForm (d a b : BitVec 8) : Form := form3 0x2A d.toNat a.toNat b.toNat (.dst .one .t) (.src .one .any) (.src .one .any)

def addaForm (d a b : BitVec 8) : Form :=
  (form3 0x2E d.toNat a.toNat b.toNat (.dst (.regs 2 true) .any) (.src (.regs 2 true) .any) (.src .one .any)).pairSource
    [⟨.src (.regs 2 true) .any, a.toNat⟩]

def subaForm (d a b : BitVec 8) : Form :=
  (form3 0x2F d.toNat a.toNat b.toNat (.dst (.regs 2 true) .any) (.src (.regs 2 true) .any)
    (.src (.regs 2 true) .any)).pairSource [⟨.src (.regs 2 true) .any, a.toNat⟩, ⟨.src (.regs 2 true) .any, b.toNat⟩]

def two (_ : Ctx) : Nat := 2

/-! ## Lane communication (05 R108 to R113) -/

/-- A shuffle reads slot b in its own threads, and slot a in the threads that it names. -/
def shuffleReads (pick : Nat → Word → Int) (c : Ctx) : Reads :=
  if c.emptyIn c.b 1 c.activeReads.b then { c.activeReads with a := [] }
  else { c.activeReads with a := (threadsOf c.active).map fun i => sourceThread c.width i (pick i (c.read c.b i)) }

def shuffles : List (Three × Nat × Req × (Nat → Word → Int)) :=
  [(.shfl, 0x30, .lane, fun _ n => n.toNat), (.shflUp, 0x31, .uniform, fun i n => (i : Int) - n.toNat),
   (.shflDn, 0x32, .uniform, fun i n => (i : Int) + n.toNat), (.shflXor, 0x33, .uniform, fun i n => ((i ^^^ n.toNat : Nat) : Int))]

def bcastReads (c : Ctx) : Reads :=
  if c.emptyIn c.b 1 c.activeReads.b then { c.activeReads with a := [] }
  else { c.activeReads with a := [(c.read c.b 0).toNat % c.width] }

/-- The threads of Active, ascending, whose lane operand is not 0. -/
def voters (c : Ctx) : List Nat := (threadsOf c.active).filter fun i => c.read c.a i != 0

/-- The sum, minimum or maximum of values. -/
def addAll (t : IType) (l : List Nat) : Int := (l.map t.value).sum
def minAll (t : IType) (l : List Nat) : Int := (l.map t.value).foldl min (t.value (l.headD 0))
def maxAll (t : IType) (l : List Nat) : Int := (l.map t.value).foldl max (t.value (l.headD 0))

/-- The lane operands of Active, ascending. -/
def laneValues (c : Ctx) : List Nat := (threadsOf c.active).map c.laneValue

/-- The lane operands of Active up to a thread, after the start value of slot b. -/
def scanned (c : Ctx) (i : Nat) : List Nat :=
  srcB c 0 :: ((threadsOf c.active).filter fun j => decide (j ≤ i)).map c.laneValue

def reductions : List (Two × Nat × (IType → List Nat → Int)) :=
  [(.reduceAdd, 0x3A, addAll), (.reduceMin, 0x3B, minAll), (.reduceMax, 0x3C, maxAll)]

def scans : List (Three × Nat × (IType → List Nat → Int)) := [(.scanAdd, 0x38, addAll), (.scanMax, 0x39, maxAll)]

/-! ## Floating point (06) -/

/-- Two-source floating instructions: constructor, opcode, and the result and flags on bit patterns. -/
def floats2 : List (Three × Nat × (FFormat → FMode → Nat → Nat → Nat × BitVec 6)) :=
  [(.fadd, 0x40, fadd), (.fsub, 0x41, fsub), (.fmul, 0x42, fmul), (.fdiv, 0x45, fdiv), (.fmin, 0x49, fminmax false),
   (.fmax, 0x4A, fminmax true)]

/-- One-source floating instructions. -/
def floats1 : List (Two × Nat × (FFormat → FMode → Nat → Nat × BitVec 6)) :=
  [(.fsqrt, 0x46, fsqrt), (.frcp, 0x47, frcp), (.frsq, 0x48, frsq),
   (.fabs, 0x4B, fun f _ x => (x % 2 ^ (f.width - 1), 0)),
   (.fneg, 0x4C, fun f _ x => ((x + 2 ^ (f.width - 1)) % 2 ^ f.width, 0)),
   (.fwiden, 0x53, fun f m x => fconvert f .f32 m x), (.fnarrow, 0x54, fun f m x => fconvert .f32 f m x),
   (.fclass, 0x55, fun f _ x => (fclass f x, 0))]

def fused : List (Three × Nat × Bool) := [(.fma, 0x43, false), (.fms, 0x44, true)]

def floatCompares : List ((BitVec 3 → BitVec 8 → BitVec 8 → Instr) × Nat × Nat) :=
  [(.fcmpeq, 0x4D, 0), (.fcmplt, 0x4E, 1), (.fcmple, 0x4F, 2), (.fcmpun, 0x50, 3)]

def cvtfiForm (d a : BitVec 8) : Form := form3 0x51 d.toNat a.toNat 0 (.dst .typed .any) (.src .one .any) .unused
def cvtifForm (d a : BitVec 8) : Form := form3 0x52 d.toNat a.toNat 0 (.dst .one .any) (.src .typed .any) .unused

def fltA (c : Ctx) (i : Nat) : Nat := (c.read c.a i).toNat
def fltB (c : Ctx) (i : Nat) : Nat := (c.read c.b i).toNat
def fltD (c : Ctx) (i : Nat) : Nat := (c.read c.d i).toNat

end Sys2Proof.Claims

/-- 05 R102: BFX extracts a field, BFI inserts one, and a field beyond bit 31 is cut. -/
def Obligations.BitFields : Prop :=
  (∀ d a b : BitVec 8, Computes (.bfx d a b) (plain2 0x24 d a b) one
    (fun c i => [bitExtract (c.read c.a i) (c.read c.b i)]) noSticky) ∧
  (∀ d a b : BitVec 8, Computes (.bfi d a b) (bfiForm d a b) one
    (fun c i => [bitInsert (c.read c.d i) (c.read c.a i) (c.read c.b i)]) noSticky) ∧
  ∀ (x old desc : Word) (j : Nat), j < 32 →
    let pos := desc.toNat % 256
    let len := min (desc.toNat / 256 % 256) (32 - pos)
    (bitExtract x desc).getLsbD j =
      (if j < len then x.getLsbD (pos + j)
       else decide (0 < len) && desc.getLsbD 16 && x.getLsbD (pos + len - 1)) ∧
    (bitInsert old x desc).getLsbD j = if pos ≤ j ∧ j < pos + len then x.getLsbD (j - pos) else old.getLsbD j

/-- 05 R104 to R107: select, constants, moves and 64-bit addresses. -/
def Obligations.SelectMoveAddress : Prop :=
  (∀ d a b : BitVec 8, Computes (.sel d a b) (selForm d a b) one
    (fun c i => [if c.read (.pred 0 false) i = 0 then c.read c.b i else c.read c.a i]) noSticky) ∧
  (∀ (d : BitVec 8) (v : BitVec 16), Computes (.li d v) (formI 0x2B d.toNat v.toNat (.dst .one .any)) one
    (fun _ _ => [BitVec.ofInt 32 v.toInt]) noSticky) ∧
  (∀ (d : BitVec 8) (v : BitVec 16), Computes (.lih d v) (formI 0x2C d.toNat v.toNat (.acc .one .any)) one
    (fun c i => [BitVec.ofNat 32 (v.toNat * 2 ^ 16 + (c.read c.d i).toNat % 2 ^ 16)]) noSticky) ∧
  (∀ d a : BitVec 8, Computes (.mov d a) (form3 0x2D d.toNat a.toNat 0 (.dst .one .any) (.src .one .any) .unused) one
    (fun c i => [c.read c.a i]) noSticky) ∧
  (∀ d a b : BitVec 8, Computes (.adda d a b) (addaForm d a b) two
    (fun c i => pairWords (wrap ((c.readPair c.a i : Int) + (c.read c.b i).toInt) 64)) noSticky) ∧
  ∀ d a b : BitVec 8, Computes (.suba d a b) (subaForm d a b) two
    (fun c i => pairWords (wrap ((c.readPair c.a i : Int) - c.readPair c.b i) 64)) noSticky

/-- 05 R108, R109: a shuffle gives each thread of Active the lane operand of the thread that it names, or its own when that
lies outside the group; it reads all before it writes. -/
def Sys2Proof.Claims.LaneShuffles : Prop :=
  ∀ e ∈ shuffles, ∀ d a b : BitVec 8,
    Computes (e.1 d a b)
      (laneForm e.2.1 d.toNat a.toNat b.toNat (.dst .one .t) (.src .one .lane) (.src .one e.2.2.1)) one
      (fun c i =>
        let j := e.2.2.2 i (c.read c.b i)
        [c.read c.a (if 0 ≤ j ∧ j < (c.width : Int) then j.toNat else i)]) noSticky (shuffleReads e.2.2.2)

/-- 05 R110, R111: broadcast of one thread's operand, and the votes of the threads of Active. -/
def Sys2Proof.Claims.BroadcastAndVotes : Prop :=
  (∀ d a b : BitVec 8, Computes (.bcast d a b)
    (laneForm 0x34 d.toNat a.toNat b.toNat (.dst .one .any) (.src .one .lane) (.src .one .uniform)) one
    (fun c _ => [c.read c.a ((c.read c.b 0).toNat % c.width)]) noSticky bcastReads) ∧
  (∀ d a : BitVec 8, Computes (.voteAny d a) (voteForm 0x35 d a .one) one
    (fun c _ => [if voters c = [] then 0 else 1]) noSticky) ∧
  (∀ d a : BitVec 8, Computes (.voteAll d a) (voteForm 0x36 d a .one) one
    (fun c _ => [if voters c = threadsOf c.active then 1 else 0]) noSticky) ∧
  ∀ (d a : BitVec 8) (ballot : Ctx → DWord), (∀ c, threadsOf (ballot c) = voters c) →
    Computes (.voteBal d a) (voteForm 0x37 d a (.regs 2 true)) two (fun c _ => pairWords (ballot c).toNat) noSticky

/-- 05 R112, R113: reductions and inclusive scans over the threads of Active in ascending order. -/
def Obligations.ReductionsAndScans : Prop :=
  (∀ e ∈ reductions, ∀ d a : BitVec 8, Computes (e.1 d a) (reduceForm e.2.1 d a) regsOfType
    (fun c _ => c.itype.words (wrap (e.2.2 c.itype (laneValues c)) c.itype.w)) noSticky) ∧
  ∀ e ∈ scans, ∀ d a b : BitVec 8, Computes (e.1 d a b) (scanForm e.2.1 d a b) regsOfType
    (fun c i => c.itype.words (wrap (e.2.2 c.itype (scanned c i)) c.itype.w)) noSticky

/-- 06 R126 to R129: arithmetic on the bits of the FTYPE format, with the flags that each run sets. -/
def Sys2Proof.Claims.FloatArithmetic : Prop :=
  (∀ e ∈ floats2, ∀ d a b : BitVec 8, Computes (e.1 d a b) (plain2 e.2.1 d a b) one
    (fun c i => [wordOf (e.2.2 c.ffmt c.fmode (fltA c i) (fltB c i)).1])
    (stickyOf fun c i => (e.2.2 c.ffmt c.fmode (fltA c i) (fltB c i)).2)) ∧
  (∀ e ∈ fused, ∀ d a b : BitVec 8, Computes (e.1 d a b) (fmaForm e.2.1 d a b) one
    (fun c i => [wordOf (fma e.2.2 c.ffmt c.fmode (fltA c i) (fltB c i) (fltD c i)).1])
    (stickyOf fun c i => (fma e.2.2 c.ffmt c.fmode (fltA c i) (fltB c i) (fltD c i)).2)) ∧
  ∀ e ∈ floats1, ∀ d a : BitVec 8, Computes (e.1 d a) (plain1 e.2.1 d a) one
    (fun c i => [wordOf (e.2.2 c.ffmt c.fmode (fltA c i)).1])
    (stickyOf fun c i => (e.2.2 c.ffmt c.fmode (fltA c i)).2)

/-- 06 R130 to R132: floating compares and the conversions between integers and floating values. -/
def Sys2Proof.Claims.FloatCompareConvert : Prop :=
  (∀ e ∈ floatCompares, ∀ (d : BitVec 3) (a b : BitVec 8), Computes (e.1 d a b) (fcompareForm e.2.1 d a b) one
    (fun c i => [if (fcompare e.2.2 c.ffmt c.fmode (fltA c i) (fltB c i)).1 then 1 else 0])
    (stickyOf fun c i => (fcompare e.2.2 c.ffmt c.fmode (fltA c i) (fltB c i)).2)) ∧
  (∀ d a : BitVec 8, Computes (.cvtfi d a) (cvtfiForm d a) regsOfType
    (fun c i => c.itype.words (toInteger c.ffmt c.fmode c.itype.w c.itype.signed (fltA c i)).1)
    (stickyOf fun c i => (toInteger c.ffmt c.fmode c.itype.w c.itype.signed (fltA c i)).2)) ∧
  ∀ d a : BitVec 8, Computes (.cvtif d a) (cvtifForm d a) one
    (fun c i => [wordOf (c.ffmt.ofInt c.fmode (c.itype.value (srcA c i))).1])
    (stickyOf fun c i => (c.ffmt.ofInt c.fmode (c.itype.value (srcA c i))).2)

namespace Sys2Proof.Claims

/-! ## Number formats and sticky flags (06 R124, R125, R140 to R142) -/

def quantForm (d a b : BitVec 8) : Form :=
  laneForm 0x56 d.toNat a.toNat b.toNat (.dst (.regs 2 true) .t) (.src .one .any) (.src .one .uniform)

def deqForm (d a b : BitVec 8) : Form :=
  form3 0x57 d.toNat a.toNat b.toNat (.dst .one .any) (.src (.regs 2 true) .any) (.src .one .uniform)

/-- Slots a and d of QUANT and DEQ are read after the descriptor. -/
def descriptorReads (c : Ctx) : Reads := ⟨[], [], c.activeReads.b⟩

/-- The descriptor in slot b. -/
def desc (c : Ctx) : Nat := (c.read c.b 0).toNat

/-- Elements per thread of a QUANT and of a DEQ descriptor (06 Tables 6.5, 6.6). -/
def quantElements (c : Ctx) : Nat := 2 ^ (desc c / 64 % 4)
def deqElements (c : Ctx) : Nat := 2 ^ (desc c / 256 % 4)

def tfenceForm : Form := form3 0x58 0 0 0 .unused .unused .unused
def fflagsForm (d a : BitVec 8) : Form := form3 0x59 d.toNat a.toNat 0 (.dst .one .gz) (.src .one .uniform) .unused

/-- The 64-bit floating words (03 R58). -/
def wideFloats : List (Three × Nat) :=
  [(.dadd, 0x5A), (.dsub, 0x5B), (.dmul, 0x5C), (.dfma, 0x5D), (.ddiv, 0x5E), (.dcvt, 0x5F)]

/-- The group with its pc at an address, ready for its next instruction, and nothing else changed. -/
def at' (g : Group) (pc : DWord) : Group :=
  { g with arch := { g.arch with pc := pc, pidx := 0, snap := [] }, phase := .ready, rwLimit := none, firstIssue := none
           replay := none, wait := none }

/-! ## Control (04 R84 to R93, 03 R47, R49) -/

def nopForm : Form := (form3 0x01 0 0 0 .unused .unused .unused).control

def modeForm (d : BitVec 8) (i : BitVec 16) : Form :=
  { (formI 0x02 d.toNat i.toNat .other).control with
    bad2 := decide (d.toNat ≤ 8) && decide (2 ^ (modeGroup d.toNat).2 ≤ i.toNat)
    bad3 := decide (8 < d.toNat)
    bad4 := decide (d.toNat ≤ 8) &&
      !modeLegal (putBits launchMode.toNat (modeGroup d.toNat).1 (modeGroup d.toNat).2 i.toNat) }

def setixForm (d : BitVec 2) (a : BitVec 8) : Form :=
  { (form3 0x0F d.toNat a.toNat 0 .other (.src .one .uniform) .unused).control with bad3 := d.toNat == 0 }

def rankForm (d a : BitVec 8) : Form :=
  (form3 0x03 d.toNat a.toNat 0 (.dst .one .tg) (.src .one .lane) .unused).control

def psetForm (d : BitVec 3) (a : BitVec 8) : Form := (form3 0x0C d.toNat a.toNat 0 .pdst (.src .one .any) .unused).control

def predForm (op : Nat) (d : BitVec 3) (a b : BitVec 4) : Form := (form3 op d.toNat a.toNat b.toNat .pdst .psrc .psrc).control

def brForm (i : BitVec 16) : Form := (formI 0x05 0 i.toNat .unused).control
def condForm (op : Nat) (c : BitVec 8) (i : BitVec 16) : Form := (formI op c.toNat i.toNat (.src .one .uniform)).control
def callForm (c : BitVec 8) (i : BitVec 16) : Form := (formI 0x0A c.toNat i.toNat (.dst (.regs 2 true) .g)).control
def retForm (a : BitVec 8) : Form := (form3 0x0B 0 a.toNat 0 .unused (.src (.regs 2 true) .pair) .unused).control
def brdForm (c : BitVec 4) (i : BitVec 16) : Form := (formI 0x08 c.toNat i.toNat .psrc).control
def reconvForm : Form := (form3 0x09 0 0 0 .unused .unused .unused).control

/-- PC + 4 + 4 × offset (02 R28). -/
def target (g : Group) (i : BitVec 16) : DWord := g.arch.pc + 4 + BitVec.ofInt 64 (4 * i.toInt)

end Sys2Proof.Claims

/-- 06 R140 to R142: QUANT writes a scale and codes for each block, DEQ the scaled elements; a descriptor that the tables
refuse traps. -/
def Obligations.QuantAndDeq : Prop :=
  (∀ (d a b : BitVec 8) (s : State) (g : Group), Runs s g (quantForm d a b) (reads := descriptorReads) →
    let c := s.ctxOf (quantForm d a b) g
    (quantBad (desc c) c.width = true →
      exec (.quant d a b) s = .next (s.trapForm (quantForm d a b) (s.issueOf (quantForm d a b) g) 0x07 0x04 0)) ∧
    (quantBad (desc c) c.width = false → c.beyond c.a (quantElements c) = false →
      c.emptyIn c.a (quantElements c) (threadsOf c.active) = false → c.emptyIn c.d 2 (threadsOf c.active) = false →
      (∀ k, k < 2 → c.crumbsClear (c.d.nth k)) →
      ∃ t h, exec (.quant d a b) s = .next t ∧ OnlyGroup s t h ∧
        Result c 2 (fun i => [packCodes (c.quantOf (desc c) i).2.1, (c.quantOf (desc c) i).1])
          (stickyOf (fun c i => (c.quantOf (desc c) i).2.2) c) h)) ∧
  ∀ (d a b : BitVec 8) (s : State) (g : Group), Runs s g (deqForm d a b) (reads := descriptorReads) →
    let c := s.ctxOf (deqForm d a b) g
    (deqBad (desc c) = true →
      exec (.deq d a b) s = .next (s.trapForm (deqForm d a b) (s.issueOf (deqForm d a b) g) 0x07 0x04 0)) ∧
    (deqBad (desc c) = false → (c.d = .zero ∨ c.beyond c.d (deqElements c) = false) →
      c.emptyIn c.a 2 c.activeReads.a = false → c.emptyIn c.d (deqElements c) c.activeReads.d = false →
      (∀ k, k < deqElements c → c.crumbsClear (c.d.nth k)) →
      ∃ t h, exec (.deq d a b) s = .next t ∧ OnlyGroup s t h ∧
        Result c (deqElements c) (fun i => (List.range (deqElements c)).map fun e => wordOf (c.deqOf (desc c) i e).1)
          (stickyOf (fun c i => (List.range (deqElements c)).foldl (fun acc e => acc ||| (c.deqOf (desc c) i e).2) 0) c) h)

/-- 06 R124, R125: TFENCE traps when an enabled flag is set and else changes nothing; FFLAGS reads the flags and clears those
named. -/
def Sys2Proof.Claims.StickyFlags : Prop :=
  (∀ (s : State) (g : Group), Runs s g tfenceForm →
    let c := s.ctxOf tfenceForm g
    (g.arch.sticky.toNat &&& modeTen c.mode = 0 → exec .tfence s = .next (s.putGroup (at' g (g.arch.pc + 4)))) ∧
    (g.arch.sticky.toNat &&& modeTen c.mode ≠ 0 → exec .tfence s =
      .next (s.trapForm tfenceForm (s.issueOf tfenceForm g) 0x03 (g.arch.sticky.toNat &&& modeTen c.mode) 0))) ∧
  ∀ (d a : BitVec 8) (s : State) (g : Group), Runs s g (fflagsForm d a) →
    let c := s.ctxOf (fflagsForm d a) g
    ∃ t h, exec (.fflags d a) s = .next t ∧ OnlyGroup s t h ∧
      h.arch.sticky = g.arch.sticky &&& ~~~ (c.read c.a 0).setWidth 6 ∧
      Result { c with g := { g with arch := { g.arch with sticky := h.arch.sticky } } } 1
        (fun _ => [g.arch.sticky.setWidth 32]) 0 h

/-- 03 R58: a 64-bit floating word takes the unimplemented-instruction trap with sub-cause 0x05, whatever its fields hold. -/
def Sys2Proof.Claims.WideFloatTraps : Prop :=
  ∀ e ∈ wideFloats, ∀ (d a b : BitVec 8) (s : State) (g : Group), s.group? s.cur = some g →
    ∃ f : Form, f.word = word3 e.2 d.toNat a.toNat b.toNat ∧
      exec (e.1 d a b) s = .next (s.trapForm f (s.issueOf f g) 0x01 0x05 0)

/-- 04 R85, 03 R47, R49: NOP moves on; MODE replaces the bits of one field group; SETIX writes an index register. -/
def Obligations.NopModeSetix : Prop :=
  (∀ (s : State) (g : Group), Runs s g nopForm → exec .nop s = .next (s.putGroup (at' g (g.arch.pc + 4)))) ∧
  (∀ (d : BitVec 8) (i : BitVec 16) (s : State) (g : Group), Runs s g (modeForm d i) →
    ∃ t m, exec (.mode d i) s = .next t ∧
      OnlyGroup s t (at' { g with arch := { g.arch with mode := m } } (g.arch.pc + 4)) ∧
      ∀ j, j < 64 → m.getLsbD j =
        if (modeGroup d.toNat).1 ≤ j ∧ j < (modeGroup d.toNat).1 + (modeGroup d.toNat).2
        then i.getLsbD (j - (modeGroup d.toNat).1) else g.arch.mode.getLsbD j) ∧
  ∀ (d : BitVec 2) (a : BitVec 8) (s : State) (g : Group), Runs s g (setixForm d a) →
    ∃ t l, exec (.setix d a) s = .next t ∧
      OnlyGroup s t (at' { g with arch := { g.arch with ix := l } } (g.arch.pc + 4)) ∧
      ∀ k, l.getD k 0 = if k + 1 = d.toNat then (s.ctxOf (setixForm d a) g).read (s.ctxOf (setixForm d a) g).a 0
        else g.arch.ix.getD k 0

/-- 04 R84, R86: RANK writes the rank state of a name; PSET, PAND and POR write a predicate. -/
def Obligations.RankAndPredicates : Prop :=
  (∀ d a : BitVec 8, Computes (.rank d a) (rankForm d a) one
    (fun c i => match c.d with
      | .t _ => [wordOf (c.crumbCount c.a * 65536 + (c.copyKind c.a i).2 * 2048 + (c.copyKind c.a i).1 * 256 +
          rankByte c.g.arch c.a)]
      | _ => [wordOf (c.crumbCount c.a * 256 + rankByte c.g.arch c.a)]) noSticky
    (fun c => { c.activeReads with a := [] })) ∧
  (∀ (d : BitVec 3) (a : BitVec 8), Computes (.pset d a) (psetForm d a) one
    (fun c i => [if c.read c.a i = 0 then 0 else 1]) noSticky) ∧
  (∀ (d : BitVec 3) (a b : BitVec 4), Computes (.pand d a b) (predForm 0x0D d a b) one
    (fun c i => [if c.read c.a i ≠ 0 ∧ c.read c.b i ≠ 0 then 1 else 0]) noSticky) ∧
  ∀ (d : BitVec 3) (a b : BitVec 4), Computes (.por d a b) (predForm 0x0E d a b) one
    (fun c i => [if c.read c.a i ≠ 0 ∨ c.read c.b i ≠ 0 then 1 else 0]) noSticky

/-- 04 R87 to R89: branches go to PC + 4 + 4 × offset; CALL keeps the address after it in a pair; RET goes to a pair, and
traps where that is no address of a word. -/
def Obligations.BranchesAndCalls : Prop :=
  (∀ (i : BitVec 16) (s : State) (g : Group), Runs s g (brForm i) →
    exec (.br i) s = .next (s.putGroup (at' g (target g i)))) ∧
  (∀ (c : BitVec 8) (i : BitVec 16) (s : State) (g : Group), Runs s g (condForm 0x06 c i) →
    exec (.bz c i) s = .next (s.putGroup (at' g
      (if (s.ctxOf (condForm 0x06 c i) g).read (s.ctxOf (condForm 0x06 c i) g).d 0 = 0 then target g i else g.arch.pc + 4)))) ∧
  (∀ (c : BitVec 8) (i : BitVec 16) (s : State) (g : Group), Runs s g (condForm 0x07 c i) →
    exec (.bnz c i) s = .next (s.putGroup (at' g
      (if (s.ctxOf (condForm 0x07 c i) g).read (s.ctxOf (condForm 0x07 c i) g).d 0 = 0 then g.arch.pc + 4 else target g i)))) ∧
  (∀ (c : BitVec 8) (i : BitVec 16) (s : State) (g : Group), Runs s g (callForm c i) →
    ∃ n, (s.ctxOf (callForm c i) g).d = .g n ∧
      exec (.call c i) s = .next (s.putGroup (at' ({ g with
        arch := (g.arch.setG n ((g.arch.pc + 4).setWidth 32)).setG (n + 1) (((g.arch.pc + 4) >>> 32).setWidth 32) })
        (target g i)))) ∧
  ∀ (a : BitVec 8) (s : State) (g : Group), Runs s g (retForm a) →
    let pc := (s.ctxOf (retForm a) g).readPair (s.ctxOf (retForm a) g).a 0
    (pc % 4 = 0 ∧ pc < 2 ^ 52 → exec (.ret a) s = .next (s.putGroup (at' g (BitVec.ofNat 64 pc)))) ∧
    (¬ (pc % 4 = 0 ∧ pc < 2 ^ 52) →
      exec (.ret a) s = .next (s.trapForm (retForm a) (s.issueOf (retForm a) g) 0x07 0x02 0))

/-- 04 R91, R92, R93: a divergent branch splits the threads that are not masked off. When both sides hold threads and an entry is
free, one side runs with the other kept; the RECONV that ends it runs the other side from its address, and the RECONV that
ends that one restores every thread and the stack. Where the stack keeps within RDEPTH nothing but the group changes; beyond
that an entry lies in the save area meanwhile. -/
def Obligations.DivergenceReconverges : Prop :=
  ∀ (c : BitVec 4) (i : BitVec 16) (s : State) (g : Group), Runs s g (brdForm c i) →
    let x := s.ctxOf (brdForm c i) g
    let taken := g.arch.mask &&& maskOf 64 (fun t => x.read x.d t != 0)
    let stays := g.arch.mask &&& ~~~ taken
    let within (s : State) (k : Group) : Prop := k.super = true ∨ g.arch.stack.length < (s.teamOf k).launch.rdepth
    g.arch.stack.length < (if g.super then 16 else 256) →
    (∀ top, g.arch.stack.head? = some top → ¬ (top.origin = g.arch.pc ∧ top.phase = false)) →
    taken ≠ 0 → stays ≠ 0 →
    ∃ t h, exec (.brd c i) s = .next t ∧ t.group? g.id = some h ∧ (within s g → t = s.putGroup h) ∧
      h.arch.mask = (if i.slt 0 then taken else stays) ∧
      h.arch.pc = (if i.slt 0 then target g i else g.arch.pc + 4) ∧ h.arch.stack.length = g.arch.stack.length + 1 ∧
      ∀ (s' : State) (k : Group), k.arch.stack = h.arch.stack → Runs s' k reconvForm →
        ∃ k', exec .reconv s' = .next (s'.putGroup k') ∧
          k'.arch.mask = (if i.slt 0 then stays else taken) ∧
          k'.arch.pc = (if i.slt 0 then g.arch.pc + 4 else target g i) ∧
          ∀ (s'' : State) (l : Group), l.arch.stack = k'.arch.stack → Runs s'' l reconvForm →
            ∃ t' l', exec .reconv s'' = .next t' ∧ t'.group? l.id = some l' ∧ l'.arch.mask = g.arch.mask ∧
              l'.arch.pc = l.arch.pc + 4 ∧ l'.arch.stack.length = g.arch.stack.length ∧
              (within s'' l → t' = s''.putGroup l' ∧ l'.arch.stack = g.arch.stack)


namespace Sys2Proof.Claims

/-! ## MERGE of a thread-rank name (04 R75 to R78) -/

/-- The registers of the merged name. -/
def mergeRegs (d : BitVec 8) (i : BitVec 15) (c : Ctx) : Nat := (mergeForm d i).d.kind.wd.count c.mode

/-- The outcome of the policy on the holders, in ascending order. -/
def mergeOutcome (d : BitVec 8) (i : BitVec 15) (c : Ctx) : MergeResult :=
  mergeOf (mergeImm i).pol (mergeImm i).f (mergeImm i).pred c.mode
    ((threadsOf c.active).map fun k => (k, c.nameWords c.d (mergeRegs d i c) k))

/-! ## Loads and stores (07 R158 to R165, 09 R178) -/

/-- The state after the translations of a load, and what became of each thread's access. -/
def loadTries (s : State) (g : Group) (c : Ctx) (float : Bool) (tgt : Ctx → Nat → Target7) : State × List (Tried Src) :=
  s.tryReads g (c.loadThreads.map fun k => (k, tgt c k)) (c.accessBytes float) true

def storeTries (s : State) (g : Group) (c : Ctx) (float : Bool) (tgt : Ctx → Nat → Target7) : State × List (Tried Spot) :=
  s.tryAll g ((threadsOf c.active).map fun k => (k, tgt c k)) (c.accessBytes float) .write true

/-- The destination copies that a load of n registers has marked empty: each keeps its value (03 R51). -/
def MarkedEmpty (c : Ctx) (n : Nat) (h : Group) : Prop :=
  ∀ k, k < n → ∀ i, i < c.width → inMask c.active i = true →
    (c.later h).copy (c.d.above k) i = ((c.copy (c.d.above k) i).1, false)

/-- The state from which a load of an m register takes its value at once: the group's earlier accesses to those bytes are
done (10 R217, 09 R199). -/
def readNow (s : State) (g : Group) (src : Src) : State :=
  match src with
  | .at l n => s.readyToRead g l n
  | .lit _ => s.freeze g g.acqFloor

/-- An access of w bytes at an offset goes by the frame path of a translation register, to a page that nothing stops there:
conditions on the register and the operand alone (07 R155, R158, R160). -/
def byFrame (s : State) (g : Group) (x : BitVec 3) (off : Word) (w : Nat) (write : Bool) : Prop :=
  let r := g.arch.xl.getD x.toNat XReg.zero
  r.framePath off w write = true ∧ r.va off < 2 ^ 52 ∧ s.routeLost (r.frame.toNat + off.toNat) = false ∧
    r.frame.toNat % pageSize r.pgsz.toNat = r.vbase.toNat % pageSize r.pgsz.toNat ∧ Pte.ck r.pte.toNat = 0 ∧ (write = true → Pte.z r.pte.toNat = false)

/-- A load whose accesses all pass completes: its pc moves, the destination copies are empty, and one delivery for each
access is on its way; no byte of memory changes but for A bits. -/
def LoadStarts (i : Instr) (f : Form) (float : Bool) (tgt : Ctx → Nat → Target7) : Prop :=
  ∀ (s : State) (g : Group), Runs s g f →
    let c := s.ctxOf f g
    let r := loadTries s g c float tgt
    failures r.2 = [] →
    ((∀ n, c.d ≠ .m n) →
      ∃ h ds, exec i s = .next { r.1.putGroup h with nextId := r.1.nextId + ds.length, deliveries := r.1.deliveries ++ ds } ∧
        h.arch.pc = g.arch.pc + 4 ∧ h.arch.mode = g.arch.mode ∧ h.arch.p = g.arch.p ∧ h.mcrumbs = g.mcrumbs ∧
        h.phase = .ready ∧ h.replay = none ∧
        (match c.d with
          | .t _ | .g _ => MarkedEmpty c (regsFor (c.accessBytes float)) h
          | _ => h.arch.t = g.arch.t ∧ h.arch.g = g.arch.g) ∧
        ds.map (·.product) = (match c.d with
          | .t _ | .g _ => (passes r.2).map fun x =>
              .load (c.targetsOf (regsFor (c.accessBytes float)) x.1) x.2.2 (c.accessSigned float)
          | _ => []) ∧
        ∀ d ∈ ds, d.gid = g.id ∧ d.super = g.super ∧ d.fenced = true ∧ d.acqFloor = g.acqFloor) ∧
    ∀ j, c.d = .m j →
      ∃ h x, passes r.2 = [x] ∧
        let q := readNow (r.1.putGroup g) g x.2.2
        exec i s = .next (q.putGroup h) ∧ h.arch = (at' g (g.arch.pc + 4)).arch ∧ h.phase = .ready ∧
        ∀ k, k < regsFor (c.accessBytes float) →
          h.mcrumbs.getD (j + k) none = some ((loadedWords (q.srcBytes g q.nextId x.2.2) (c.accessSigned float)).getD k 0)

/-- A store whose accesses all pass completes: its pc moves, no register changes, and one store for each thread of Active,
in ascending order, is on its way with the low bytes of its data. -/
def StoreStarts (i : Instr) (f : Form) (float : Bool) (tgt : Ctx → Nat → Target7) : Prop :=
  ∀ (s : State) (g : Group), Runs s g f →
    let c := s.ctxOf f g
    let r := storeTries s g c float tgt
    failures r.2 = [] →
    ∃ es : List PendingStore, exec i s = .next
        (({ r.1 with nextId := r.1.nextId + es.length, stores := r.1.stores ++ es }).onGroup g.id Group.advance) ∧
      es.map (fun e => (e.loc, e.bytes)) =
        (passes r.2).map (fun x => (x.2.2.loc, bytesOf (c.accessBytes float) (c.readBits c.d (8 * c.accessBytes float) x.1))) ∧
      ∀ e ∈ es, e.gid = g.id ∧ e.team = g.team ∧ e.core = s.coreOf g ∧ e.scope = modeScope c.mode ∧ e.seenAt = none ∧
        e.relFloor = g.relFloor ∧ e.acqFloor = g.acqFloor

/-- A thread's address through a translation register. -/
def globalTarget (x : BitVec 3) (c : Ctx) (k : Nat) : Target7 := c.xlTarget x.toNat k (c.read c.b k)

/-- The virtual address that an access names: through its translation register, or itself. -/
def accessVa (t : Target7) : Nat :=
  match t.via with
  | some (x, off) => x.va off
  | none => t.addr

/-! ## Translation registers, prefetch, cache maintenance (07 R155 to R158, R170) -/

/-- A store entry of a state that is in no later one. -/
def gone (u v : State) (e : PendingStore) : Prop := e ∈ u.stores ∧ ∀ y ∈ v.stores, y.id ≠ e.id

/-- The byte that a store entry writes at a physical address. -/
def writesAt (s : State) (e : PendingStore) (b : Nat) : Option Byte :=
  match e.loc with
  | .phys a => if s.homePa a ≤ b ∧ b < s.homePa a + e.bytes.length then e.bytes[b - s.homePa a]? else none
  | .team _ _ => none

/-- Entries are written back: what is no longer listed stands in memory, every other byte stays, no entry is new, and one that
is kept stays or is moved to its cluster's L2. -/
structure WrittenBack (u v : State) : Prop where
  rest : v = { u with mem := v.mem, stores := v.stores, deliveries := v.deliveries, cores := v.cores, past := v.past }
  kept : ∀ y ∈ v.stores, ∃ e ∈ u.stores, y = e ∨ e.dom = 2 ∧ y = { e with seenAt := some 2 }
  outside : ∀ b, (∀ e, gone u v e → writesAt u e b = none) → v.mem.get b = u.mem.get b
  inside : ∀ e, gone u v e → (∀ y ∈ u.stores, y.id = e.id → y = e) → ∀ b, writesAt u e b ≠ none →
    ∃ y, gone u v y ∧ writesAt u y b = some (v.mem.get b)
  cores : ∀ n, v.coreRec n = { u.coreRec n with monitors := (v.coreRec n).monitors }
  past : ∃ l, v.past = l ++ u.past

/-- The threads' lines, one after another: each address is translated as for a read, and what its line held may be written
back. -/
def LinesWritten (ctx core : Nat) : State → List Nat → State → Prop
  | s, [], t => t = s
  | s, va :: rest, t => ∃ u v, ReadMark s u ctx core va ∧ (v = u ∨ WrittenBack u v) ∧ LinesWritten ctx core v rest t

def xltForm (d : BitVec 3) (a : BitVec 8) : Form := form3 0x6C d.toNat a.toNat 0 .other (.src (.regs 2 true) .pair) .unused
def xlinvForm (d : BitVec 3) : Form := form3 0x6D d.toNat 0 0 .other .unused .unused

/-- The group with one translation register replaced, past its instruction. -/
def withXl (g : Group) (n : Nat) (x : XReg) : Group :=
  at' { g with arch := { g.arch with xl := putAt g.arch.xl n XReg.zero x } } (g.arch.pc + 4)

def discardForm (x : BitVec 3) (o : BitVec 8) : Form := memForm 0x70 0 x.toNat o .unused .other (.src .one .uniform)

/-- What a WAITMEM waits for: the word at its address, expected in d + 1. -/
def wordWait (s : State) (c : Ctx) (x : BitVec 3) (dl : Armed) : Wait :=
  ⟨.word (dwordOf (c.xlTarget x.toNat 0 (c.read c.b 0)).addr) x.toNat (c.read c.b 0) (c.read (.g (c.destReg + 1)) 0),
    [(c.destReg, statusWord Status.timeout)], c.destReg, dl.limit, dl.wall, dl.poll, s.nextId, none⟩

/-- The state in which a WAITMEM's group reads its word: its monitor is armed, and its earlier accesses there are done
(07 R171, 10 R217). -/
def watching (s : State) (g : Group) (l : Loc) : State :=
  (match l with
    | .phys pa => s.armMonitor g (pa / 64)
    | .team _ _ => s).readyToRead g l 4

/-! ## Tiles (07 R166 to R169) -/

/-- The descriptor of a tile instruction at its first issue. -/
def tileDesc (c : Ctx) (e : Nat) (tr : Bool) : Tile := Tile.ofWords e tr ((List.range 4).map fun k => c.read (c.d.above k) 0)

/-- The rows of a tile at its first issue, translated. -/
def tileTries (s : State) (g : Group) (c : Ctx) (need : Need) (x : BitVec 3) (t : Tile) : State × Rows :=
  s.tileRows g need ((c.g.arch.xl.getD x.toNat XReg.zero).va (c.read c.b 0))
    (some (c.g.arch.xl.getD x.toNat XReg.zero, c.read c.b 0)) t 0 t.rows

/-- The group past a tile instruction: its descriptor's first register is empty, PIDX is 0. -/
def pastTile (g : Group) (c : Ctx) : Group := at' (g.markEmpty c c.d 1) (g.arch.pc + 4)

/-- The offset of a row of a tile from its translation register's base. -/
def rowOffset (c : Ctx) (t : Tile) (i : Nat) : Int := (c.read c.b 0).toInt + (i : Int) * t.mpitch

/-- Every row of a tile goes by the frame path, and lies in one 64 KiB part of its page. -/
def rowsByFrame (s : State) (c : Ctx) (x : BitVec 3) (t : Tile) (write : Bool) : Prop :=
  ∀ i, i < t.rows → 0 ≤ rowOffset c t i ∧ rowOffset c t i < 2 ^ 31 ∧
    byFrame s c.g x (BitVec.ofInt 32 (rowOffset c t i)) t.rowBytes write ∧
    ((c.g.arch.xl.getD x.toNat XReg.zero).va (BitVec.ofInt 32 (rowOffset c t i))) % 0x10000 + t.rowBytes ≤ 0x10000

/-- The tile instruction completes: the group is past it, with its descriptor's first register empty until the tile's last
row is where it goes. -/
def TileCompletes (i : Instr) (s : State) (g : Group) (c : Ctx) : Prop :=
  ∃ t h, exec i s = .next t ∧ t.group? g.id = some h ∧ h.arch.pc = g.arch.pc + 4 ∧ h.arch.pidx = 0 ∧ h.phase = .ready ∧
    h.replay = none ∧ ∀ n, c.d = .g n → n < g.arch.g.length →
      h.arch.g.getD n ⟨0, true⟩ = ⟨(g.arch.g.getD n ⟨0, true⟩).val, false⟩

def tileLoads : List ((BitVec 8 → BitVec 3 → BitVec 8 → Instr) × Nat × Nat × Bool) :=
  [(.ldt, 0x68, 1, false), (.ldtTr8, 0x69, 1, true), (.ldtTr16, 0x6A, 2, true)]

end Sys2Proof.Claims

/-- 04 R76 to R78: a thread-rank MERGE writes its status block, and its policy's value to the name for the threads of Active;
DIFFER leaves the name as it was, and a drop removes the crumbs within Active. -/
def Obligations.ThreadMerge : Prop :=
  ∀ (d : BitVec 8) (i : BitVec 15) (s : State) (g : Group), Runs s g (mergeForm d i) →
    let c := s.ctxOf (mergeForm d i) g
    let r := mergeOutcome d i c
    let n := if r.value.isSome && c.active != 0 then mergeRegs d i c else 0
    (∀ m, c.d ≠ .m m) → (∀ k, k < n → c.crumbsClear (c.d.nth k)) →
    ∃ k : Group, exec (.merge d i) s = .next (s.putGroup (k.setGs (4 * (mergeImm i).stat) (statusBlock r.status r.dm))) ∧
      (r.drop = false → Result c n (fun _ => r.value.getD []) r.flags k) ∧
      (r.drop = true → k.arch =
        { c.g.arch.dropName c.d (mergeRegs d i c) c.active with pc := c.g.arch.pc + 4, pidx := 0, snap := [] }) ∧
      let h := k.setGs (4 * (mergeImm i).stat) (statusBlock r.status r.dm)
      (∀ j, j < 4 → h.arch.g.getD (4 * (mergeImm i).stat + j) ⟨0, true⟩ = ⟨(statusBlock r.status r.dm).getD j 0, true⟩) ∧
      ∀ j, j < 4 * (mergeImm i).stat ∨ 4 * (mergeImm i).stat + 4 ≤ j →
        h.arch.g.getD j ⟨0, true⟩ = k.arch.g.getD j ⟨0, true⟩

/-- 07 R149, R152: translations for reads, one after another, change memory in one bit alone: A, bit 6 of the first byte of the
leaf entry that the walk for the access's address finds. Every other byte, and all state but the TLBs of the core and its die,
the sidecar lines, the order of use of pages, the monitors of the entry's line, the record of replaced values and the counter
of free values, is as before. -/
def Obligations.ReadsOnlyMark : Prop :=
  ∀ (s : State) (g : Group) (targets : List (Nat × Target7)) (w : Nat) (align : Bool), s.mem.wf = true →
    ReadMarks (s.teamOf g).ctx (s.coreOf g) s ((targets.filter fun x => !x.2.team).map fun x => accessVa x.2)
      (s.tryReads g targets w align).1

/-- 07 R160: an access to team memory is checked for alignment, then for its bounds, then, for a write, for a tagged line;
one that passes goes to the byte at its offset. A global address of 2 to the 52 or more faults first, then alignment. -/
def Obligations.AccessChecks : Prop :=
  ∀ (s : State) (memo : Memo) (g : Group) (a w : Nat) (via : Option (XReg × Word)) (need : Need), w ≠ 0 →
    let team := (s.spot memo g ⟨true, a, via⟩ w need true).2.2
    let tm := s.teamOf g
    (a % w ≠ 0 → team = .error ⟨0x06, 0xFF, 0⟩) ∧
    (a % w = 0 → tm.launch.tmem < a + w → team = .error ⟨0x07, 0xFF, 0⟩) ∧
    (a % w = 0 → a + w ≤ tm.launch.tmem → need = .write → (tm.tags.any fun t => t.1 == a / 16) = true →
      team = .error ⟨0x08, 0xFF, 0⟩) ∧
    (a % w = 0 → a + w ≤ tm.launch.tmem → (need = .write → (tm.tags.any fun t => t.1 == a / 16) = false) →
      ∃ p, team = .ok p ∧ p.loc = .team tm.id a ∧ (s.spot memo g ⟨true, a, via⟩ w need true).1 = s) ∧
    let global := (s.spot memo g ⟨false, a, via⟩ w need true).2.2
    (2 ^ 52 ≤ a → global = .error ⟨0x05, 0xFF, 0⟩) ∧ (a < 2 ^ 52 → a % w ≠ 0 → global = .error ⟨0x06, 0xFF, 0⟩)

/-- 07 R165, 03 R51: loads. -/
def Obligations.LoadsStart : Prop :=
  (∀ (d : BitVec 8) (x : BitVec 3) (o : BitVec 8),
    LoadStarts (.ldItype d x o) (loadForm 0x60 false d x o) false (globalTarget x) ∧
    LoadStarts (.ldFtype d x o) (loadForm 0x61 true d x o) true (globalTarget x)) ∧
  ∀ d x o : BitVec 8,
    LoadStarts (.ldsItype d x o) (teamForm 0x64 (.dst .typed .any) d x o) false Ctx.teamTarget ∧
    LoadStarts (.ldsFtype d x o) (teamForm 0x65 (.dst .one .any) d x o) true Ctx.teamTarget

/-- 07 R165, 09 R178: stores. -/
def Obligations.StoresStart : Prop :=
  (∀ (d : BitVec 8) (x : BitVec 3) (o : BitVec 8),
    StoreStarts (.stItype d x o) (storeForm 0x62 false d x o) false (globalTarget x) ∧
    StoreStarts (.stFtype d x o) (storeForm 0x63 true d x o) true (globalTarget x)) ∧
  ∀ d x o : BitVec 8,
    StoreStarts (.stsItype d x o) (teamForm 0x66 (.src .typed .any) d x o) false Ctx.teamTarget ∧
    StoreStarts (.stsFtype d x o) (teamForm 0x67 (.src .one .any) d x o) true Ctx.teamTarget

/-- 07 R166 to R169: a tile instruction whose descriptor is good and whose rows all translate completes: the descriptor's first
register is empty until the tile has landed; LDT puts the rows on their way to team memory, STT stores the rows of team
memory. That STT takes the bytes of its team rows as they stand at issue is the model's choice (log 18). Rows that go by the frame path of
a valid translation register (07 R158) translate, so that such an instruction completes. -/
def Obligations.TilesStart : Prop :=
  (∀ e ∈ tileLoads, ∀ (d : BitVec 8) (x : BitVec 3) (o : BitVec 8) (s : State) (g : Group), Runs s g (tileForm e.2.1 d x o) →
    g.replay = none →
    let c := s.ctxOf (tileForm e.2.1 d x o) g
    let t := tileDesc c e.2.2.1 e.2.2.2
    let r := tileTries (s.putGroup (g.markEmpty c c.d 1)) g c .read x t
    t.check c.tm true = none →
    (r.2.fault = none →
      (r.1.allSources (t.rowVa ((g.arch.xl.getD x.toNat XReg.zero).va (c.read c.b 0))) 0 r.2.done).2 = none →
      exec (e.1 d x o) s = .next ((r.1.issueProduct g true
        (.tile c.destReg t.soff t.spitch t.e t.tr
          (r.1.allSources (t.rowVa ((g.arch.xl.getD x.toNat XReg.zero).va (c.read c.b 0))) 0 r.2.done).1)).putGroup
            (pastTile g c))) ∧
    (rowsByFrame s c x t false → TileCompletes (e.1 d x o) s g c)) ∧
  ∀ (d : BitVec 8) (x : BitVec 3) (o : BitVec 8) (s : State) (g : Group), Runs s g (tileForm 0x6B d x o) → g.replay = none →
    let c := s.ctxOf (tileForm 0x6B d x o) g
    let t := tileDesc c 1 false
    let r := tileTries (s.putGroup (g.markEmpty c c.d 1)) g c .write x t
    let q := r.1.readyToRead g (.team c.tm.id t.soff) (t.regionEnd - t.soff)
    t.check c.tm false = none →
    (r.2.fault = none →
      ∃ u es, exec (.stt d x o) s = .next u ∧ u.stores = q.stores ++ es ∧ u.mem = q.mem ∧ u.teams = q.teams ∧
        es.map (·.loc) = (r.2.done.flatten).map (fun p => p.1.loc) ∧
        (q.stores = [] → (es.map (·.bytes)).flatten = (List.range t.rows).flatMap (q.tileTeamRow g t)) ∧
        (∀ e ∈ es, e.gid = g.id ∧ e.scope = modeScope c.mode ∧ e.seenAt = none) ∧
        ∃ h, u.group? g.id = some h ∧ h.arch.pc = g.arch.pc + 4 ∧ h.arch.pidx = 0 ∧ h.replay = none ∧
          ∃ m, u.deliveries = q.deliveries ++ [m] ∧ m.product = .full c.destReg) ∧
    (rowsByFrame s c x t true → TileCompletes (.stt d x o) s g c)

/-- 07 R156, R157: XLT fills a translation register from the leaf of its address, or leaves it invalid, with FRAME and PGSZ as they
were; XLINV sets VBASE, V and WOK of one to 0, and leaves its other fields. -/
def Obligations.TranslationRegisters : Prop :=
  (∀ (d : BitVec 3) (a : BitVec 8) (s : State) (g : Group), Runs s g (xltForm d a) →
    let c := s.ctxOf (xltForm d a) g
    let va := c.readPair c.a 0
    let r := s.translate (s.teamOf g).ctx (s.coreOf g) g.priv va .read
    (∀ hit, r.2 = .ok hit → exec (.xlt d a) s = .next (r.1.putGroup (withXl g d.toNat
      ⟨BitVec.ofNat 52 va, BitVec.ofNat 48 hit.pa, BitVec.ofNat 2 hit.level, true, bitAt hit.pte 4 && bitAt hit.pte 7,
        dwordOf hit.pte⟩))) ∧
    (∀ e, r.2 = .error e → exec (.xlt d a) s = .next (r.1.putGroup (withXl g d.toNat
      { g.arch.xl.getD d.toNat XReg.zero with vbase := BitVec.ofNat 52 va, v := false, wok := false })))) ∧
  ∀ (d : BitVec 3) (s : State) (g : Group), Runs s g (xlinvForm d) →
    exec (.xlinv d) s = .next (s.putGroup (withXl g d.toNat
      { g.arch.xl.getD d.toNat XReg.zero with vbase := 0, v := false, wok := false }))

/-- 07 R170: PREF, CLEAN and INVL1 always complete: a fault drops the access of its thread. PREF changes no register and no byte of
memory but A in the leaf entries of its addresses. CLEAN and INVL1 write entries back and issue none: what they drop from the
caches stands in memory, and every other byte stays. Past a CLEAN of lines that the frame path reaches, nothing that this core
or its cluster's L2 holds of them is left, and past an INVL1 nothing of them stays in this core's L1 (of a page with DOM 2 it
goes to the cluster's L2). -/
def Sys2Proof.Claims.CacheMaintenance : Prop :=
  ∀ (x : BitVec 3) (o : BitVec 8) (s : State) (g : Group), s.mem.wf = true →
    let ctx := (s.teamOf g).ctx
    let core := s.coreOf g
    let active (f : Form) (i : Nat) : Prop := inMask (s.ctxOf f g).active i = true
    let vas (f : Form) : List Nat := (threadsOf (s.ctxOf f g).active).map fun i => accessVa (globalTarget x (s.ctxOf f g) i)
    let lines (f : Form) : Prop := g.replay = none ∧ ∀ i, active f i →
      byFrame s g x ((s.ctxOf f g).read (s.ctxOf f g).b i) 1 false
    let line (f : Form) (i : Nat) : Nat := let off := (s.ctxOf f g).read (s.ctxOf f g).b i
      s.homePa ((g.arch.xl.getD x.toNat XReg.zero).frame.toNat + off.toNat) / 64 * 64
    let dirty (t : State) (f : Form) (i : Nat) (e : PendingStore) : Prop :=
      e ∈ t.stores ∧ e.touches (.phys (line f i)) 64 = true ∧ e.seenAt.isSome = true
    (Runs s g (lineForm 0x6E x o) → ∃ t, exec (.pref x o) s = .next (t.onGroup g.id Group.advance) ∧
      ReadMarks ctx core s (vas (lineForm 0x6E x o)) t) ∧
    (Runs s g (lineForm 0x71 x o) → ∃ t, exec (.clean x o) s = .next (t.onGroup g.id Group.advance) ∧ (s.reductions = [] →
      LinesWritten ctx core s (vas (lineForm 0x71 x o)) t ∧ (∀ e ∈ t.stores, e ∈ s.stores) ∧
      (lines (lineForm 0x71 x o) → ∀ i, active (lineForm 0x71 x o) i → ∀ e, dirty t (lineForm 0x71 x o) i e →
        clusterOfCore e.core ≠ clusterOfCore core))) ∧
    (Runs s g (lineForm 0x72 x o) → ∃ t, exec (.invl1 x o) s = .next (t.onGroup g.id Group.advance) ∧ (s.reductions = [] →
      LinesWritten ctx core s (vas (lineForm 0x72 x o)) t ∧
      (lines (lineForm 0x72 x o) → ∀ i, active (lineForm 0x72 x o) i → ∀ e, dirty t (lineForm 0x72 x o) i e →
        e.core = core → e.dom = 2 ∧ e.seenAt = some 2)))

/-- 07 R171, R172: a WAITMEM that reads another word than it expects ends DONE with that word; one that reads the expected
word before its limit waits; at its limit it ends with its timeout. -/
def Obligations.WaitmemReturns : Prop :=
  ∀ (d : BitVec 8) (x : BitVec 3) (o : BitVec 8) (s : State) (g : Group), Runs s g (waitmemForm d x o) → g.wait = none →
    let c := s.ctxOf (waitmemForm d x o) g
    let n := c.destReg
    ∀ dl, s.arm g (pairOf (c.read (.g (n + 2)) 0) (c.read (.g (n + 3)) 0)) = some dl →
    let w := wordWait s c x dl
    let k := { g with wait := some w }
    let r := ({ s with nextId := s.nextId + 1 }.putGroup k).spot Memo.none g (c.xlTarget x.toNat 0 (c.read c.b 0)) 4 .read true
    ∀ p src, r.2.2 = .ok p → r.1.spotSource p 4 = .ok src →
    let q := watching r.1 k p.loc
    let v := wordOf (ofBytes (q.srcBytes k q.nextId src))
    (v ≠ c.read (.g (n + 1)) 0 → ∃ t h, exec (.waitmem d x o) s = .next t ∧ t.group? g.id = some h ∧
      AnsweredAt g h [(n + 1, v), (n, 0)]) ∧
    (v = c.read (.g (n + 1)) 0 → s.expired g w = false → ∃ t, exec (.waitmem d x o) s = .next t ∧
      t.group? g.id = some { g with wait := some w, phase := .waiting }) ∧
    (v = c.read (.g (n + 1)) 0 → s.expired g w = true → g.arch.esc = false → g.arch.timeouts < 15 →
      ∃ t h, exec (.waitmem d x o) s = .next t ∧ t.group? g.id = some h ∧ AnsweredAt g h [(n, 1)])

/-- 07 R173, R153: DISCARD in a context without the DISCARD flag parks the group with fault 0x0A; with it, on a writable page,
its leaf is marked so that the page reads as zeros, and the group waits for the page's shootdown; when that is over, the
group moves on. A page that the frame path reaches is writable. -/
def Sys2Proof.Claims.DiscardZeroes : Prop :=
  ∀ (x : BitVec 3) (o : BitVec 8) (s : State) (g : Group), Runs s g (discardForm x o) →
    let c := s.ctxOf (discardForm x o) g
    let t := c.xlTarget x.toNat 0 (c.read c.b 0)
    let r := s.spot Memo.none g t 1 .drop false
    let flag := bitAt (s.contextOf c.tm).flags.toNat 0
    (g.wait = none → flag = true → ∀ p, r.2.2 = .ok p →
      let q := (r.1.freeze g r.1.nextId).discardPage g t.addr
      ∃ u h w, exec (.discard x o) s = .next u ∧ u.mem = q.mem ∧ u.stores = q.stores ∧
        u.shootdowns = q.shootdowns ++ [⟨q.nextId, c.tm.ctx, dwordOf t.addr, g.id⟩] ∧
        u.group? g.id = some h ∧ h.phase = .waiting ∧ h.wait = some w ∧ w.obj = .discard (dwordOf t.addr) q.nextId ∧
        h.arch.pc = g.arch.pc) ∧
    (g.wait = none → flag = true → g.replay = none → byFrame s g x (c.read c.b 0) 1 true → s.reductions = [] →
      s.mem.wf = true → ∀ l, s.walk c.tm.ctx t.addr = .ok l →
      ∃ u h w k, exec (.discard x o) s = .next u ∧ u.group? g.id = some h ∧ h.phase = .waiting ∧ h.wait = some w ∧
        w.obj = .discard (dwordOf t.addr) k ∧ Pte.z (u.mem.value l.addr 8) = true ∧
        (∀ a, a < l.addr ∨ l.addr + 8 ≤ a → u.mem.get a = s.mem.get a) ∧
        ∃ y ∈ u.shootdowns, y.id = k ∧ y.va = dwordOf t.addr) ∧
    (∀ w page k, g.wait = some w → w.obj = .discard page k → w.result = none → (∀ y ∈ s.shootdowns, y.id ≠ k) →
      ∃ h, exec (.discard x o) s = .next (s.putGroup h) ∧ AnsweredAt g h []) ∧
    (g.wait = none → flag = false → exec (.discard x o) s =
      .next (c.park (discardForm x o) { kind := 7, width := 0, whole := true } [(0, t.addr, ⟨0x0A, 0xFF, 0⟩)]
        [(0, dwordOf t.addr)] [] 0 s))

namespace Sys2Proof.Claims

/-! ## What lands (03 R51, 07 R167, 10 R222) -/

/-- The register writes of a delivery made now. -/
def landing (s : State) (g : Group) (d : Delivery) : List (Target × Word) :=
  match d.product with
  | .values ws => ws
  | .load ts src sg => ts.zip (loadedWords (s.srcBytes g d.id src) sg)
  | _ => []

/-- What the program of a group holds at a target: value and full bit. -/
def held (a : Arch) (x : Target) : Word × Bool :=
  match x with
  | .t n i => (a.t.getD n Ranked.zero).at i
  | .g n => ((a.g.getD n ⟨0, true⟩).val, (a.g.getD n ⟨0, true⟩).full)

/-- A target that the group has. -/
def targetIn (width : Nat) (x : Target) : Prop :=
  match x with
  | .t _ i => i < width ∧ i < 64
  | .g _ => True

/-- The bytes of memory after a write of bytes at an address. -/
def byteAfter (m : Memory) (a : Nat) (bs : List Byte) (k : Nat) : Byte :=
  if a ≤ k ∧ k < a + bs.length then bs.getD (k - a) 0 else m.get k

/-- Where byte i of row r of a tile lands: along the row, or transposed, element by element (07 R168). -/
def tilePlace (soff spitch e : Nat) (tr : Bool) (r i : Nat) : Nat :=
  if tr then soff + i / e * spitch + r * e + i % e else soff + r * spitch + i

/-- A byte of team memory after the rows of a tile: that of the last row that lands there, or as before. -/
def tileByte (soff spitch e : Nat) (tr : Bool) (old : Byte) (rows : List (List Byte)) (a : Nat) : Byte :=
  rows.zipIdx.foldl (fun b x => x.1.zipIdx.foldl (fun b y => if tilePlace soff spitch e tr x.2 y.2 = a then y.1 else b) b) old

/-! ## Atomics and reductions (09 R179 to R190) -/

/-- Threads at one address, each with an operand, in ascending order: the old value that each returns, and the new value. -/
def series (f : Nat → Nat → Nat) (v : Nat) : List Nat → List Nat × Nat
  | [] => ([], v)
  | x :: xs => (v :: (series f (f v x) xs).1, (series f (f v x) xs).2)

/-- Compare and swap: the words that each thread returns, old value and flag, and the new value. -/
def swaps (w v : Nat) : List (Nat × Nat) → List (List Word) × Nat
  | [] => ([], v)
  | (cmp, new) :: xs =>
    let flag : Word := if v = cmp then 1 else 0
    let r := swaps w (if v = cmp then new else v) xs
    ((atomWords w v ++ if w = 8 then [flag, 0] else [flag]) :: r.1, r.2)

/-- The running sums of R183: thread k returns V plus the sum of the operands before it; the whole sum is added once. -/
def sums (f : FFormat) (v : Nat) (p : Option Nat) : List Nat → List Nat × Nat
  | [] => ([], match p with | none => v | some y => (fadd f atomMode v y).1)
  | x :: xs =>
    let r := sums f v (match p with | none => some x | some y => some (fadd f atomMode y x).1) xs
    ((match p with | none => v | some y => (fadd f atomMode v y).1) :: r.1, r.2)

/-- Threads and addresses of an atomic. -/
def atomThreads (c : Ctx) : List Nat :=
  match c.d with
  | .g _ => [(threadsOf c.active).headD 0]
  | _ => threadsOf c.active

/-- An atomic that its checks pass, whose threads name one address, and which meets no access on its way, completes: the value
at the address is replaced at once, each thread's old value is on its way to its destination, and the pc moves. -/
def AtomCompletes (i : Instr) (f : Form) (late : Ctx → Option Nat) (w n : Ctx → Nat) (x : BitVec 3)
    (sem : Ctx → Nat → List (List Word) → List (List Word) × Nat) : Prop :=
  ∀ (s : State) (g : Group), Runs s g f (late := late) →
    let c := s.ctxOf f g
    let r := s.tryAll g ((atomThreads c).map fun k => (k, globalTarget x c k)) (w c) .write true
    failures r.2 = [] → s.stores = [] → s.reductions = [] → (∀ d ∈ s.deliveries, d.gid ≠ g.id) → modeUse c.mode < 3 →
    ∀ (p : Spot) (ths : List Nat), byAddress (passes r.2) = [(p, ths)] → Pte.dom p.hit.pte ≠ 2 →
    let out := sem c (r.1.mem.value (r.1.homePa p.hit.pa) (w c)) (ths.map (c.atomHeld (n c)))
    ∃ t h new, exec i s = .next t ∧ t.mem = r.1.mem.write (r.1.homePa p.hit.pa) (bytesOf (w c) out.2) ∧
      t.teams = r.1.teams ∧ t.stores = [] ∧ t.group? g.id = some h ∧ h.arch.pc = g.arch.pc + 4 ∧ h.phase = .ready ∧
      h.arch.p = g.arch.p ∧ h.arch.mode = g.arch.mode ∧
      t.deliveries = s.deliveries ++ new ∧
      new.map (·.product) = (ths.zip out.1).filterMap fun y =>
        if c.resultWrites y.1 y.2 = [] then none else some (.values (c.resultWrites y.1 y.2))

def intWidth (c : Ctx) : Nat := c.accessBytes false
def floatWidth (c : Ctx) : Nat := c.accessBytes true

def intAtomics : List ((BitVec 8 → BitVec 3 → BitVec 8 → Instr) × Nat × (IType → Nat → Nat → Nat)) :=
  [(.atomAdd, 0x80, fun t v y => (v + y) % 2 ^ t.w), (.atomMin, 0x81, fun t v y => if t.value v ≤ t.value y then v else y),
   (.atomMax, 0x82, fun t v y => if t.value v ≤ t.value y then y else v), (.atomAnd, 0x83, fun _ v y => v &&& y),
   (.atomOr, 0x84, fun _ v y => v ||| y), (.atomXor, 0x85, fun _ v y => v ^^^ y), (.atomExch, 0x86, fun _ _ y => y)]

/-- Reductions: constructor, opcode, whether floating, operation. -/
def reds : List ((BitVec 8 → BitVec 3 → BitVec 8 → Instr) × Nat × RedOp) :=
  [(.redAdd, 0x89, ⟨0, false, fun t _ x y => (x + y) % 2 ^ t.w⟩),
   (.redMin, 0x8A, ⟨1, false, fun t _ x y => if t.value x ≤ t.value y then x else y⟩),
   (.redMax, 0x8B, ⟨2, false, fun t _ x y => if t.value x ≤ t.value y then y else x⟩),
   (.redFadd, 0x8C, ⟨3, true, fun _ f x y => (fadd f atomMode x y).1⟩)]

/-- The requests of a reduction: one for each address that its threads name. -/
def redTargets (c : Ctx) (x : BitVec 3) : List (Nat × Target7) :=
  (distinct ((threadsOf c.active).map (globalTarget x c))).map fun y => (0, y)

/-- Where the checks of a request from the walk onward send it: a fault's sub-cause, or its place with CP and DOM. -/
def redOutcome (y : Except MFault Spot) : Option Nat × Loc × Nat × Nat :=
  match y with
  | .error m => (some m.sub, .phys 0, 0, 0)
  | .ok p => (none, p.loc, Pte.cp p.hit.pte, Pte.dom p.hit.pte)

/-- The addresses of a reduction's threads. -/
def redAddrs (c : Ctx) (x : BitVec 3) : List (Nat × Nat) := (threadsOf c.active).map fun k => (k, (globalTarget x c k).addr)

/-- The sum, minimum or maximum of the operands at an address. -/
def redOperand (c : Ctx) (x : BitVec 3) (op : RedOp) (a : Nat) : Nat :=
  let xs := ((redAddrs c x).filter (·.2 == a)).map fun y => c.readBits c.d (8 * c.accessBytes op.float) y.1
  (xs.drop 1).foldl (op.combine c.itype c.ffmt) (xs.headD 0)

end Sys2Proof.Claims

/-- 03 R51: a producer that delivers to a resident program writes its copies, each full, and changes no other copy and no byte of
memory; a blocked read of the group looks again. -/
def Sys2Proof.Claims.DeliveriesLand : Prop :=
  ∀ (k : Nat) (s : State) (d : Delivery) (g : Group), s.deliveries.find? (·.id == k) = some d → s.group? d.gid = some g →
    s.mayDeliver d = true → g.live = true → g.inImage = false → g.super = d.super →
    let ws := landing s g d
    let width := (s.teamOf g).launch.width
    (∀ r o sp e tr rows, d.product ≠ .tile r o sp e tr rows) → (∀ r, d.product ≠ .full r) →
    (ws.map (·.1)).Nodup → (∀ x ∈ ws, targetIn width x.1) →
    ∃ t h, exec (.producerDelivers k) s = .next t ∧ t.group? d.gid = some h ∧
      (∀ x ∈ ws, held h.arch x.1 = (x.2, true)) ∧
      (∀ x : Target, targetIn width x → (∀ y ∈ ws, y.1 ≠ x) → held h.arch x = held g.arch x) ∧
      h = { g with
        arch := { g.arch with t := h.arch.t, g := h.arch.g }
        phase := if g.phase = .blocked then .ready else g.phase } ∧
      SameMemory s t ∧ t.deliveries = s.deliveries.filter (·.id != k) ∧ ∀ j, j ≠ d.gid → t.group? j = s.group? j

/-- 07 R167 to R169: a tile that delivers writes its rows to team memory, transposed where asked, and no other byte, and then its
register is full with its value unchanged; no other register of its group, no other group, no store and no command changes. -/
def Sys2Proof.Claims.TilesLand : Prop :=
  ∀ (k : Nat) (s : State) (d : Delivery) (g : Group), s.deliveries.find? (·.id == k) = some d → s.group? d.gid = some g →
    s.mayDeliver d = true → g.live = true → g.inImage = false → g.super = d.super →
    let filled (n : Nat) (t : State) : Prop := ∃ h, t.group? d.gid = some h ∧
      h.arch.g.getD n ⟨0, true⟩ = ⟨(g.arch.g.getD n ⟨0, true⟩).val, true⟩ ∧
      (∀ j, j ≠ n → h.arch.g.getD j ⟨0, true⟩ = g.arch.g.getD j ⟨0, true⟩) ∧
      h = { g with arch := { g.arch with g := h.arch.g }, phase := if g.phase = .blocked then .ready else g.phase } ∧
      (∀ j, j ≠ d.gid → t.group? j = s.group? j)
    (∀ n, d.product = .full n → ∃ t, exec (.producerDelivers k) s = .next t ∧ filled n t ∧ SameMemory s t ∧
      t = { s with groups := t.groups, deliveries := s.deliveries.filter (·.id != k) }) ∧
    ∀ n soff spitch e tr rows tm, d.product = .tile n soff spitch e tr rows → n < 64 → (∀ x ∈ s.stores, x.gid ≠ g.id) →
      s.team? g.team = some tm → tm.mem.wf = true →
      let datas := rows.map fun l => l.flatMap (s.srcBytes g d.id)
      (tr = true → 1 ≤ e ∧ ∀ bs ∈ datas, bs.length % e = 0) →
      ∃ t u, exec (.producerDelivers k) s = .next t ∧ filled n t ∧
        t = { s with groups := t.groups, teams := t.teams, deliveries := t.deliveries } ∧
        t.deliveries.map (·.id) = (s.deliveries.filter (·.id != k)).map (·.id) ∧
        t.team? g.team = some u ∧ u = { tm with mem := u.mem } ∧ (∀ j, j ≠ g.team → t.team? j = s.team? j) ∧
        ∀ a, u.mem.get a = tileByte soff spitch e tr (tm.mem.get a) datas a

/-- 10 R222: a store that may be performed reaches memory for every agent where its scope's point is the device's: each byte that
it names reads as stored, and every other byte as before. At a narrower point memory stays, and the store is seen by the agents
of its scope; one that is seen so may be written to memory later. -/
def Obligations.StoresReachMemory : Prop :=
  ∀ (k : Nat) (s : State) (e : PendingStore), s.canonical → s.stores.find? (·.id == k) = some e →
    let pair := ((s.team? e.team).map (·.launch.pair)).getD false
    let written : Prop := ∃ t, exec (.storePerformed k) s = .next t ∧
      t = { s with
        mem := t.mem, teams := t.teams, deliveries := t.deliveries, cores := t.cores, past := t.past
        stores := s.stores.filter (·.id != k) } ∧
      (∀ a, e.loc = .phys a → (∀ b, t.mem.get b = byteAfter s.mem (s.homePa a) e.bytes b) ∧ t.teams = s.teams) ∧
      ∀ i o tm, e.loc = .team i o → s.team? i = some tm →
        t.mem = s.mem ∧ (∀ b, (t.teamMem i).get b = byteAfter tm.mem o e.bytes b) ∧ ∀ j, j ≠ i → t.team? j = s.team? j
    (e.seenAt = none → s.mayPerform e = true → (∀ x ∈ s.stores, x.id ≠ e.id → x.seenAt = none) →
      (e.reachesMemory pair = true → written) ∧
      (e.reachesMemory pair = false →
        ∃ t, exec (.storePerformed k) s = .next t ∧ SameMemory s t ∧ t.groups = s.groups ∧
          ∃ y ∈ t.stores, y.id = e.id ∧ y.seenAt = some (e.level pair) ∧ y.loc = e.loc ∧ y.bytes = e.bytes)) ∧
    (e.seenAt.isSome = true → s.reductions = [] → (∀ x ∈ s.stores, x.id ≠ e.id → x.touches e.loc e.bytes.length = false) →
      written)

/-- 09 R179 to R183: integer atomics, compare and swap, and floating sums. -/
def Obligations.AtomicsComplete : Prop :=
  (∀ e ∈ intAtomics, ∀ (d : BitVec 8) (x : BitVec 3) (o : BitVec 8),
    AtomCompletes (e.1 d x o) (atomForm e.2.1 .typed d x o) (atomLate false) intWidth (fun c => regsFor (intWidth c)) x
      (fun c v ops =>
        let r := series (e.2.2 c.itype) v (ops.map fun ws => atomOperand (intWidth c) ws 0)
        (r.1.map (atomWords (intWidth c)), r.2))) ∧
  (∀ (d : BitVec 8) (x : BitVec 3) (o : BitVec 8),
    AtomCompletes (.atomCas d x o) (atomForm 0x87 .twoTyped d x o) (atomLate false) intWidth
      (fun c => 2 * regsFor (intWidth c)) x
      (fun c v ops => swaps (intWidth c) v (ops.map fun ws => (atomOperand (intWidth c) ws 0, atomOperand (intWidth c) ws 1)))) ∧
  ∀ (d : BitVec 8) (x : BitVec 3) (o : BitVec 8),
    AtomCompletes (.atomFadd d x o) (atomForm 0x88 .one d x o) (fun _ => none) floatWidth (fun _ => 1) x
      (fun c v ops =>
        let r := sums c.ffmt v none (ops.map fun ws => atomOperand (floatWidth c) ws 0)
        (r.1.map (atomWords (floatWidth c)), r.2))

/-- 09 R187, R189: a reduction whose addresses are good sends one request for each address, with the operands of its threads
combined in ascending order and what its walk found, while the context's log has room; nothing else changes but what the
translations mark, once what ACQ and REL put before it is done. -/
def Sys2Proof.Claims.ReductionsSend : Prop :=
  ∀ e ∈ reds, ∀ (d : BitVec 8) (x : BitVec 3) (o : BitVec 8) (s : State) (g : Group),
    let f := redForm e.2.1 (if e.2.2.float then .one else .typed) d x o
    Runs s g f (late := if e.2.2.float then fun _ => none else atomLate false) →
    let c := s.ctxOf f g
    let w := c.accessBytes e.2.2.float
    (∀ y ∈ redTargets c x, y.2.addr < 2 ^ 52 ∧ y.2.addr % w = 0) →
    let s1 := s.atomicReady g (modeUse c.mode == 4)
    let q := s1.tryAll g (redTargets c x) w .write false
    s1.reserved c.tm.ctx + (redTargets c x).length ≤ 256 →
    ∃ rs : List Reduction, exec (e.1 d x o) s =
        .next (({ q.1 with nextId := q.1.nextId + rs.length, reductions := q.1.reductions ++ rs }).onGroup g.id Group.advance) ∧
      rs.map (fun r => (r.va, r.operand, r.fault, r.loc, r.cp, r.dom)) =
        q.2.map (fun y => (dwordOf y.addr, dwordOf (redOperand c x e.2.2 y.addr), redOutcome y.out)) ∧
      ∀ r ∈ rs, r.gid = g.id ∧ r.ctx = c.tm.ctx ∧ r.op = e.2.2.code ∧ r.width = w

/-- 09 R187, R188: a request whose address translates is performed there once; one that faults is written to the log of its context,
in its lowest free entry. -/
def Sys2Proof.Claims.ReductionsEnd : Prop :=
  ∀ (k : Nat) (s : State) (r : Reduction), s.reductions.find? (·.id == k) = some r → s.stores = [] →
    s.mayEnd r = true →
    let op := RedOp.ofCode r.op
    let w := r.width
    (r.fault = none → r.dom ≠ 2 → ∀ a, r.loc = .phys a → ∃ t, exec (.reductionRequestEnds k) s = .next t ∧
      t.mem = s.mem.write (s.homePa a) (bytesOf w (op.combine (itypeOf r.ty) (FFormat.ofCode (r.ty % 16))
        (s.mem.value (s.homePa a) w) (r.operand.toNat % 2 ^ (8 * w)))) ∧
      t.groups = s.groups ∧ t.teams = s.teams ∧ t.stores = [] ∧ t.reductions = s.reductions.filter (·.id != k)) ∧
    ∀ m c, r.fault = some m → s.context? r.ctx = some c → ∃ t c', exec (.reductionRequestEnds k) s = .next t ∧
      t.context? r.ctx = some c' ∧ c'.rlog = c.rlog ++ [freeEntry c.rlog] ∧ t.reductions = s.reductions.filter (·.id != k)

namespace Sys2Proof.Claims

/-! ## Barriers (09 R201 to R207) -/

def barInitForm (a b : BitVec 8) : Form := barForm 0x90 0 a b .unused .uniform
def barArriveForm (d a : BitVec 8) : Form := { barForm 0x91 d a 0 (.dst (.regs 2 true) .g) .unused with log := true }
def barWaitForm (d a b : BitVec 8) : Form := { barForm 0x92 d a b (.dst .one .g) .deadline with log := true }
def barInvalForm (a : BitVec 8) : Form := barForm 0x93 0 a 0 .unused .unused
def barExpectForm (a b : BitVec 8) : Form := { barForm 0x94 0 a b .unused .uniform with log := true }
def waitfForm (d a b : BitVec 8) : Form := barForm 0x9E d a b (.acc (.regs 2 true) .g) .deadline

/-- The offset in slot a. -/
def offA (c : Ctx) : Nat := (c.read c.a 0).toNat

/-- A barrier instruction's offset is aligned and in team memory, whose team is there. -/
def goodOffset (s : State) (c : Ctx) : Prop :=
  s.team? c.g.team = some c.tm ∧ offA c % 16 = 0 ∧ offA c + 16 ≤ c.tm.launch.tmem

/-- Every byte of a team's memory outside a barrier word reads as in another copy of it. -/
def outsideWord (c : Ctx) (u v : Team) : Prop := ∀ o, o < offA c ∨ offA c + 16 ≤ o → u.mem.get o = v.mem.get o

/-- No access of the group, and no store of any, is on its way. -/
def quiet (s : State) (g : Group) : Prop :=
  s.stores = [] ∧ (∀ d ∈ s.deliveries, d.gid ≠ g.id) ∧ ∀ x ∈ s.reductions, x.gid ≠ g.id

/-- The barrier instructions with their forms. -/
def barriers (d a b : BitVec 8) : List (Instr × Form) :=
  [(.barInit a b, barInitForm a b), (.barArrive d a, barArriveForm d a), (.barInval a, barInvalForm a),
   (.barExpect a b, barExpectForm a b)]

/-- The group parked on a barrier word with a memory fault (07 R162). -/
def parkedOnWord (s : State) (c : Ctx) (f : Form) (sub : Nat) : State :=
  c.park f { kind := 2, width := 16, whole := true } [(0, offA c, ⟨sub, 0xFF, 0⟩)] [(0, dwordOf (offA c))] [] 0 s

/-- A barrier word after one arrival in its phase. -/
def arrivedWord (b : BarWord) : BarWord :=
  if b.arrived + 1 = b.expect ∧ b.pend = 0 then ⟨b.expect, 0, (b.phase + 1) % 2 ^ 32, 0⟩
  else ⟨b.expect, b.arrived + 1, b.phase, b.pend⟩

/-- A barrier word after n is added to PEND. -/
def pendedWord (b : BarWord) (n : Int) : BarWord :=
  if b.expect ≠ 0 ∧ b.arrived = b.expect ∧ b.pend + n = 0 then ⟨b.expect, 0, (b.phase + 1) % 2 ^ 32, 0⟩
  else ⟨b.expect, b.arrived, b.phase, b.pend + n⟩

/-! ## Batches, acquire and release, queues (09 R196 to R200, R208 to R211) -/

def closeForm (d : BitVec 8) : Form := syncForm 0x95 d 0 0 (.dst .one .g) .unused .unused
def waitbForm (d a b : BitVec 8) : Form := syncForm 0x96 d a b (.dst .one .g) .uniform .deadline
def fenceForm (d a b : BitVec 8) : Form := { syncForm 0x97 d a b (.dst .one .g) .uniform .deadline with log := true }
def acqForm : Form := syncForm 0x98 0 0 0 .unused .unused .unused
def relForm : Form := { syncForm 0x99 0 0 0 .unused .unused .unused with log := true }
def acqRemForm (d a b : BitVec 8) : Form := { syncForm 0x9A d a b (.dst .one .g) .uniform .deadline with log := true }
def qsendForm (d a b : BitVec 8) : Form :=
  { syncForm 0x9B d a b (.acc (.regs 4 true) .g) .uniform (.src (.regs 4 false) .g) with log := true }
def qrecvForm (d a b : BitVec 8) : Form := syncForm 0x9C d a b (.dst (.regs 6 true) .g) .uniform .deadline
def qcreditForm (d a b : BitVec 8) : Form := syncForm 0x9D d a b (.dst .one .g) .uniform .uniform
def joinForm (d b : BitVec 8) : Form := form3 0xA2 d.toNat 0 b.toNat (.dst (.regs 2 true) .g) .unused .deadline
def shootForm (d a b : BitVec 8) : Form := sysForm 0xBB d a b (.dst .one .g) .pairSrc .deadline 1
def accDrainForm (a b : BitVec 8) (r : BitVec 7) : Form := (ovenForm 0x2E a b r .uniform .deadline).needReply r false false

/-- Batches that are not reported. -/
def unreported (g : Group) : List Batch := g.batches.filter fun b => !b.reported

/-! ## Waits (09 R191 to R195) -/

/-- A waiting instruction: its deadline pair, what else its operands must meet, what its first issue does, its object, and the
words of its timeout. -/
structure WaitSpec where
  pair : Ctx → Nat
  ready : State → Ctx → Prop := fun _ _ => True
  effect : State → Ctx → State := fun s _ => s
  obj : State → Ctx → WaitObj
  late : Ctx → List (Nat × Word) := fun c => [(c.dreg, 1)]

/-- The state in which a first issue looks at its object. -/
def WaitSpec.started (k : WaitSpec) (s : State) (c : Ctx) : State :=
  { k.effect s c with nextId := (k.effect s c).nextId + 1 }

/-- The wait that a first issue arms. -/
def WaitSpec.wait (k : WaitSpec) (s : State) (c : Ctx) (dl : Armed) : Wait :=
  ⟨k.obj s c, k.late c, c.dreg, dl.limit, dl.wall, dl.poll, (k.effect s c).nextId, none⟩

/-- A wait that is issued first with a good deadline: an object that is satisfied at once gives its words, and the group moves on;
else the group waits while the limit is not reached, and with the limit reached ends with its timeout. -/
def WaitClaim (i : Instr) (f : Form) (k : WaitSpec) : Prop :=
  ∀ (s : State) (g : Group), Runs s g f → g.wait = none →
    let c := s.ctxOf f g
    k.ready s c →
    ∀ dl, s.arm g (k.pair c) = some dl →
    let s1 := k.started s c
    let w := k.wait s c dl
    (∀ s2 ws b, s1.satisfied g w = some (s2, ws) → s2.group? g.id = some b → (ws.map (·.1)).Nodup →
      ∃ h, exec i s = .next (s2.putGroup h) ∧ AnsweredAt b h ws) ∧
    (s1.satisfied g w = none → s1.expired g w = false →
      exec i s = .next (s1.putGroup { g with phase := .waiting, wait := some w })) ∧
    (s1.satisfied g w = none → s1.expired g w = true → g.arch.esc = false → g.arch.timeouts < 15 →
      ((s1.withdraw g w).2.map (·.1)).Nodup →
      ∃ h, exec i s = .next ((s1.withdraw g w).1.putGroup h) ∧ AnsweredAt g h (s1.withdraw g w).2)

/-- The pair in slot b. -/
def pairB (c : Ctx) : Nat := c.readPair c.b 0

/-- The barrier word of WAITF and BAR.WAIT. -/
def waitfSpec : WaitSpec where
  pair := pairB
  ready := goodOffset
  effect s c := s.ownWrite c.g (offA c) 16
  obj _ c := .barrier (offA c) (c.read (c.d.above 1) 0) false

def barArrival (s : State) (c : Ctx) : State × Nat × Word :=
  ((s.ownWrite c.g (offA c) 16).release c.g 1).arrive c.tm.id (offA c)

def barWaitSpec : WaitSpec where
  pair := pairB
  ready := goodOffset
  effect s c := (barArrival s c).1
  obj s c := .barrier (offA c) (barArrival s c).2.2 ((barArrival s c).2.1 == 0)

def waitbSpec : WaitSpec where
  pair := pairB
  obj _ c := .batches (c.read c.a 0)

def fenceSpec : WaitSpec where
  pair := pairB
  effect s c := s.widen c.g (modeScope c.mode)
  obj s c := .fence (BitVec.ofNat 8 (c.read c.a 0).toNat) s.nextId
  late _ := []

/-- The core that an ACQ.rem names. -/
def remCore (c : Ctx) : Option Nat := if (c.read c.a 0).toNat < 512 then some (c.read c.a 0).toNat else none

def acqRemSpec : WaitSpec where
  pair := pairB
  effect s c := { s with nextId := s.nextId + 1, promotions := s.promotions ++ [⟨s.nextId, c.g.id, s.promoted (remCore c)⟩] }
  obj s c := .promote (remCore c) s.nextId

def qsendSpec : WaitSpec where
  pair c := pairOf (c.read (c.d.above 2) 0) (c.read (c.d.above 3) 0)
  obj _ c := .send (c.read c.a 0) ((List.range 4).map fun k => c.read (c.b.above k) 0)
  late c := [(c.dreg, 1), (c.dreg + 1, 0)]

def qrecvSpec : WaitSpec where
  pair := pairB
  obj _ c := .receive (c.read c.a 0)

def joinSpec : WaitSpec where
  pair := pairB
  obj _ _ := .join

/-- The page of a SHOOT. -/
def shootPageOf (c : Ctx) : DWord := dwordOf (c.readPair c.a 0 % 2 ^ 52 / 0x10000 * 0x10000)

/-- The stores that SHOOT performs first. -/
def shootReady (s : State) (c : Ctx) : State := (s.freeze c.g s.nextId).performAll 3 (s.overlay c.g s.nextId)

def shootSpec : WaitSpec where
  pair := pairB
  effect s c :=
    { shootReady s c with
      nextId := (shootReady s c).nextId + 1
      shootdowns := (shootReady s c).shootdowns ++ [⟨(shootReady s c).nextId, c.tm.ctx, shootPageOf c, c.g.id⟩] }
  obj s c := .shoot (shootPageOf c) (shootReady s c).nextId

/-- The commands of a team that are in the Oven, or on their way there (15 R321). -/
def enteredCmds (s : State) (c : Ctx) : List Nat :=
  (s.cmds.filter fun x => x.team == c.tm.id && funcClass x.func == 4 && x.phase != .done && x.phase != .dormant).map (·.id)

def accDrainSpec : WaitSpec where
  pair := pairB
  ready _ c := (c.read c.a 0).toNat < 16
  obj s c := .drain (c.read c.a 0).toNat (enteredCmds s c)

/-- A wait on an object that has no result yet. -/
def open' (w : Wait) (o : WaitObj) : Prop := w.obj = o ∧ w.result = none

end Sys2Proof.Claims

/-- 09 R203, R207: BAR.INIT writes the reset columns with its EXPECT and tags the line, once the team's stores and tiles on their way
to that line have arrived, and on a tagged line takes fault 0x08; BAR.INVAL clears a barrier word and its tag. Every other byte
of team memory, and memory, stays. -/
def Sys2Proof.Claims.BarrierStartEnd : Prop :=
  (∀ (a b : BitVec 8) (s : State) (g : Group), Runs s g (barInitForm a b) → s.canonical →
    let f := barInitForm a b
    let c := s.ctxOf f g
    let q := (s.ownWrite g (offA c) 16).settleLine c.tm.id (offA c)
    goodOffset s c →
    (c.tm.tagged (offA c) = true → exec (.barInit a b) s = .next (parkedOnWord s c f 0x08)) ∧
    (c.tm.tagged (offA c) = false →
      ∃ t u v h, exec (.barInit a b) s = .next t ∧ q.team? c.tm.id = some v ∧ t.team? c.tm.id = some u ∧
        u.isBarrier (offA c) = true ∧ u.barWord (offA c) = ⟨(c.read c.b 0).toNat % 65536, 0, 0, 0⟩ ∧ outsideWord c u v ∧
        u = { v with mem := u.mem, tags := u.tags } ∧ (∀ j, j ≠ c.tm.id → t.team? j = q.team? j) ∧ t.mem = q.mem ∧
        (quiet s g → (∀ d ∈ s.deliveries, d.product.lands (offA c) 16 = false) → v = c.tm ∧ t.mem = s.mem) ∧
        t.group? g.id = some h ∧ h.arch.pc = g.arch.pc + 4 ∧ h.arch.g = g.arch.g ∧ h.phase = .ready ∧
        (s.reductions = [] → h = at' g (g.arch.pc + 4)))) ∧
  ∀ (a : BitVec 8) (s : State) (g : Group), Runs s g (barInvalForm a) → s.canonical →
    let c := s.ctxOf (barInvalForm a) g
    goodOffset s c →
    ∃ t u h, exec (.barInval a) s = .next t ∧ t.team? c.tm.id = some u ∧ u.isBarrier (offA c) = false ∧
      (c.tm.isBarrier (offA c) = true → u.barWord (offA c) = ⟨0, 0, 0, 0⟩) ∧ outsideWord c u c.tm ∧
      (∀ j, j ≠ c.tm.id → t.team? j = s.team? j) ∧
      (c.tm.isBarrier (offA c) = false → u = c.tm) ∧ t.mem = s.mem ∧ t.stores = s.stores ∧ t.group? g.id = some h ∧
      h.arch = (at' g (g.arch.pc + 4)).arch ∧ h.phase = .ready

/-- 09 R204, R206: an arrival is a release of its group at team scope; it counts and returns the PHASE as its token, and the arrival
that reaches EXPECT with PEND 0 ends the phase; an over-arrival clobbers the barrier, and on a line that is no barrier the status
is CLOBBERED. The token of an arrival that is CLOBBERED is a free value. Past the release, memory and every byte of team memory
outside the word stay; with nothing on its way the release changes none of them. -/
def Sys2Proof.Claims.BarrierArrivals : Prop :=
  ∀ (d a : BitVec 8) (s : State) (g : Group), Runs s g (barArriveForm d a) → s.canonical →
    let c := s.ctxOf (barArriveForm d a) g
    goodOffset s c →
    let r := (s.ownWrite g (offA c) 16).release g 1
    (quiet s g → r.mem = s.mem ∧ r.teams = s.teams) ∧
    ∀ u k, r.team? c.tm.id = some u → r.group? g.id = some k →
    let b := u.barWord (offA c)
    (u.isBarrier (offA c) = true → b.arrived < b.expect →
      ∃ t v h, exec (.barArrive d a) s = .next t ∧ t.team? c.tm.id = some v ∧ v.barWord (offA c) = arrivedWord b ∧
        v.isBarrier (offA c) = true ∧ outsideWord c v u ∧ t.mem = r.mem ∧ (∀ j, j ≠ c.tm.id → t.team? j = r.team? j) ∧
        t.group? g.id = some h ∧ Answered k h c.dreg [0, wordOf b.phase]) ∧
    (u.isBarrier (offA c) = true → b.arrived = b.expect →
      ∃ t v h x, exec (.barArrive d a) s = .next t ∧ t.team? c.tm.id = some v ∧ v.barWord (offA c) = ⟨0, 0, 0, 0⟩ ∧
        v.isBarrier (offA c) = false ∧ outsideWord c v u ∧ t.mem = r.mem ∧ (∀ j, j ≠ c.tm.id → t.team? j = r.team? j) ∧
        t.group? g.id = some h ∧ Answered k h c.dreg [2, x]) ∧
    (u.isBarrier (offA c) = false →
      ∃ t h x, exec (.barArrive d a) s = .next t ∧ t.teams = r.teams ∧ t.mem = r.mem ∧ t.group? g.id = some h ∧
        Answered k h c.dreg [2, x])

/-- 09 R205: BAR.EXPECT adds its count to PEND and completes the phase where that leaves nothing pending; a sum outside 40 bits
clobbers the barrier with OVF set. Memory, and every byte of team memory outside the word, stay. -/
def Sys2Proof.Claims.BarrierExpect : Prop :=
  ∀ (a b : BitVec 8) (s : State) (g : Group), Runs s g (barExpectForm a b) → s.canonical →
    let c := s.ctxOf (barExpectForm a b) g
    goodOffset s c →
    let w := c.tm.barWord (offA c)
    let n : Int := (c.read c.b 0).toNat
    ∃ t u h, exec (.barExpect a b) s = .next t ∧ t.team? c.tm.id = some u ∧ t.mem = s.mem ∧ t.stores = s.stores ∧
      outsideWord c u c.tm ∧ (∀ j, j ≠ c.tm.id → t.team? j = s.team? j) ∧ t.group? g.id = some h ∧
      h.arch = (at' g (g.arch.pc + 4)).arch ∧ h.phase = .ready ∧
      (c.tm.isBarrier (offA c) = false → u = c.tm) ∧
      (c.tm.isBarrier (offA c) = true → w.pend + n < 2 ^ 39 → u.barWord (offA c) = pendedWord w n ∧ u.isBarrier (offA c) = true) ∧
      (c.tm.isBarrier (offA c) = true → 2 ^ 39 ≤ w.pend + n →
        u.isBarrier (offA c) = false ∧ u.mem.value (offA c) 16 = 2 ^ 105)

/-- 09 R202: a barrier instruction whose offset is not a multiple of 16 parks with fault 0x06, and one whose word does not lie in
team memory with fault 0x07. -/
def Sys2Proof.Claims.BarrierFaults : Prop :=
  ∀ d a b : BitVec 8, ∀ e ∈ barriers d a b, ∀ (s : State) (g : Group), Runs s g e.2 →
    let c := s.ctxOf e.2 g
    (offA c % 16 ≠ 0 → exec e.1 s = .next (parkedOnWord s c e.2 0x06)) ∧
    (offA c % 16 = 0 → c.tm.launch.tmem < offA c + 16 → exec e.1 s = .next (parkedOnWord s c e.2 0x07))

/-- 09 R196: CLOSE puts the group's open commands in one batch and writes its number; with 64 batches not reported it writes 0. -/
def Sys2Proof.Claims.CloseBatches : Prop :=
  ∀ (d : BitVec 8) (s : State) (g : Group), Runs s g (closeForm d) →
    let c := s.ctxOf (closeForm d) g
    ∃ t h, exec (.close d) s = .next t ∧ t.group? g.id = some h ∧ SameMemory s t ∧
      ((unreported g).length < 64 → Answered g h c.dreg [g.nextBatch] ∧ h.opens = [] ∧
        h.batches.getLast? = some ⟨g.nextBatch, g.opens, false⟩ ∧
        h.nextBatch = (if g.nextBatch = 0xFFFFFFFF then 1 else g.nextBatch + 1)) ∧
      (64 ≤ (unreported g).length → Answered g h c.dreg [0] ∧ h.opens = g.opens ∧ h.batches = g.batches)

/-- 09 R199: ACQ puts every earlier load of the group before its later accesses; REL puts its earlier stores, each at a scope at least
its own, before its later stores. Neither waits, and neither changes a register. -/
def Sys2Proof.Claims.AcquireRelease : Prop :=
  (∀ (s : State) (g : Group), Runs s g acqForm → ∃ t, exec .acq s = .next t ∧ SameMemory s t ∧ t.stores = s.stores ∧
    t.group? g.id = some { at' g (g.arch.pc + 4) with acqFloor := s.nextId }) ∧
  ∀ (s : State) (g : Group), Runs s g relForm →
    ∃ t h, exec .rel s = .next t ∧ t.group? g.id = some h ∧ h.relFloor = t.nextId ∧ h.arch.pc = g.arch.pc + 4 ∧
      h.arch.g = g.arch.g ∧ h.phase = .ready ∧ (s.reductions = [] → h = { at' g (g.arch.pc + 4) with relFloor := t.nextId } ∧
        ∀ e ∈ t.stores, e.gid = g.id → modeScope (s.ctxOf relForm g).mode ≤ e.scope)

/-- 09 R211: QCREDIT returns the permits of the oldest held entries, at most the count asked for, each to the send entry that its
SENDER word names, lowers HELD by as many, and says how many; on a queue that is not open it returns none. Which team a SENDER word names is the
model's reading (log 43). -/
def Sys2Proof.Claims.QueueCredit : Prop :=
  ∀ (d a b : BitVec 8) (s : State) (g : Group), Runs s g (qcreditForm d a b) → s.canonical →
    let c := s.ctxOf (qcreditForm d a b) g
    s.team? g.team = some c.tm →
    (s.openQueue c.tm.id (c.read c.a 0).toNat = none →
      ∃ t h, exec (.qcredit d a b) s = .next t ∧ t.teams = s.teams ∧ t.permits = s.permits ∧ t.group? g.id = some h ∧
        Answered g h c.dreg [0]) ∧
    ∀ q h, s.openQueue c.tm.id (c.read c.a 0).toNat = some (q, h) →
      let n := min (c.read c.b 0).toNat h.held
      let sender (i : Nat) : Nat := c.tm.mem.value (h.ring + 32 * ((h.head + 2 ^ 32 - h.held + i) % 2 ^ 32 % h.slots) + 0x10) 4
      ∃ t u k ps, exec (.qcredit d a b) s = .next t ∧ t.team? c.tm.id = some u ∧ (u.header q).held = h.held - n ∧
        (∀ o, o < q.hdr + 0x10 ∨ q.hdr + 0x14 ≤ o → u.mem.get o = c.tm.mem.get o) ∧ t.mem = s.mem ∧
        t.permits = s.permits ++ ps ∧
        ps.map (fun p => (p.team, p.entry)) = (List.range n).filterMap (fun i =>
          (s.senderTeam c.tm q.num (sender i)).map fun v => (v.id, bits (sender i) 12 4)) ∧
        ((∀ i, i < n → (s.senderTeam c.tm q.num (sender i)).isSome = true) → ps.length = n) ∧
        t.group? g.id = some k ∧ Answered g k c.dreg [wordOf n]

/-- 09 R191, R192, R195: the waits of barriers, batches, fences and remote acquires. -/
def Sys2Proof.Claims.SyncWaits : Prop :=
  ∀ d a b : BitVec 8,
    WaitClaim (.waitf d a b) (waitfForm d a b) waitfSpec ∧ WaitClaim (.barWait d a b) (barWaitForm d a b) barWaitSpec ∧
    WaitClaim (.waitb d a b) (waitbForm d a b) waitbSpec ∧ WaitClaim (.fence d a b) (fenceForm d a b) fenceSpec ∧
    WaitClaim (.acqRem d a b) (acqRemForm d a b) acqRemSpec

/-- 09 R191, R192, R195: the waits of queues, joins, shootdowns and accumulator drains. -/
def Sys2Proof.Claims.OtherWaits : Prop :=
  ∀ (d a b : BitVec 8) (r : BitVec 7),
    WaitClaim (.qsend d a b) (qsendForm d a b) qsendSpec ∧ WaitClaim (.qrecv d a b) (qrecvForm d a b) qrecvSpec ∧
    WaitClaim (.join d b) (joinForm d b) joinSpec ∧ WaitClaim (.shoot d a b) (shootForm d a b) shootSpec ∧
    WaitClaim (.accDrain a b r) (accDrainForm a b r) accDrainSpec

/-- 09 R195 to R198, R200, 07 R173, 14 R291, 15 R321, 20 R377, R378: when the objects of waits are satisfied, and what they then
give. A barrier: its phase has passed, DONE, or it is none, CLOBBERED. Batches: every command of those covered is complete, with
the status of the earliest that did not end DONE, or DONE. A fence: each requested class is complete, and their mask. A remote
acquire and a shootdown: nothing of it is left to do, DONE; a discarded page the same, without a word. A join set: every child
has ended; the status of the first failure, how many failed, and the set is empty. An accumulator drain: no command that had
entered holds a bank of the name, DONE. YIELD: its team runs again, 1. A merge, a watched word, a FORK that swaps and a Carousel
give what is put down for them when it is; a result that is put down is what every wait gives. -/
def Obligations.WaitObjects : Prop :=
  ∀ (s : State) (g : Group) (w : Wait),
    (∀ off token arr, open' w (.barrier off token arr) →
      ((s.teamOf g).isBarrier off = false → s.satisfied g w = some (s, [(w.dst, 2)])) ∧
      ((s.teamOf g).isBarrier off = true → ((s.teamOf g).barWord off).phase ≠ token.toNat →
        s.satisfied g w = some (s, [(w.dst, 0)])) ∧
      ((s.teamOf g).isBarrier off = true → ((s.teamOf g).barWord off).phase = token.toNat → s.satisfied g w = none)) ∧
    (∀ n, open' w (.batches n) →
      let cmds := (g.covered n).flatMap fun b => b.cmds.filterMap s.cmd?
      ((s.satisfied g w).isSome = true ↔ ∀ x ∈ cmds, x.phase = .done) ∧
      ∀ t ws, s.satisfied g w = some (t, ws) →
        ws = [(w.dst, match cmds.find? (·.status != 0) with | some x => x.status | none => 0)] ∧
        ∀ k, t.group? g.id = some k → ∀ b ∈ k.batches, (∃ y ∈ g.covered n, y.num = b.num) → b.reported = true) ∧
    (∀ classes upTo, open' w (.fence classes upTo) →
      let done : Prop := ∀ k, k < 8 → classes.getLsbD k = true → s.classDone g upTo k = true
      (done → s.satisfied g w = some (s, [(w.dst, classes.setWidth 32)])) ∧ (¬ done → s.satisfied g w = none)) ∧
    (∀ core k, open' w (.promote core k) →
      ((∀ p ∈ s.promotions, p.id ≠ k) → s.satisfied g w = some (s, [(w.dst, 0)])) ∧
      ((∃ p ∈ s.promotions, p.id = k) → s.satisfied g w = none)) ∧
    (∀ page k, open' w (.shoot page k) →
      let left : Prop := ∃ x ∈ s.shootdowns, x.ctx = (s.teamOf g).ctx ∧ x.va = page
      (¬ left → s.satisfied g w = some (s, [(w.dst, 0)])) ∧ (left → s.satisfied g w = none)) ∧
    (∀ page k, open' w (.discard page k) →
      ((∀ x ∈ s.shootdowns, x.id ≠ k) → s.satisfied g w = some (s, [])) ∧
      ((∃ x ∈ s.shootdowns, x.id = k) → s.satisfied g w = none)) ∧
    (open' w .join →
      let set := (s.teamOf g).joinSet
      let fails := set.filterMap fun x => x.done.filter (· != 0)
      let done : Prop := ∀ x ∈ set, x.failed = true ∨ x.done.isSome = true
      (done → ∃ t, s.satisfied g w = some (t, [(w.dst, if (∀ x ∈ set, x.failed = true) then 0 else fails.headD 0),
          (w.dst + 1, wordOf fails.length)]) ∧ t = { s with teams := t.teams } ∧
          ∀ tm, s.team? g.team = some tm → t.team? g.team = some { tm with joinSet := [] }) ∧
      (¬ done → s.satisfied g w = none)) ∧
    (∀ name cmds, open' w (.drain name cmds) →
      let ov := (s.clusterRec (clusterOfCore (s.coreOf g))).oven
      let banks := (((ov.maps.find? (·.team == g.team)).map fun m => m.names.getD name []).getD []) ++
        (ov.draining.filter fun y => y.1 == g.team && y.2.1 == name).map (·.2.2)
      let left : Prop := ∃ x ∈ s.cmds, x.id ∈ cmds ∧ x.phase ≠ .done ∧ ∃ y ∈ x.banks, y ∈ banks
      (¬ left → s.satisfied g w = some (s, [(w.dst, 0)])) ∧ (left → s.satisfied g w = none)) ∧
    (open' w .yielded →
      ((s.teamOf g).life = .running → s.satisfied g w = some (s, [(w.dst, 1)])) ∧
      ((s.teamOf g).life ≠ .running → s.satisfied g w = none)) ∧
    (∀ o, open' w o → ((∃ m, o = .merge m) ∨ (∃ va x off e, o = .word va x off e) ∨ o = .swap ∨ (∃ k, o = .carAcq k) ∨
      ∃ k, o = .carProp k) → s.satisfied g w = none) ∧
    ∀ ws, w.result = some ws → s.satisfied g w = some (s, ws)

/-- 09 R209, R210: QSEND with a permit and an open target takes one permit and sends its message; without a permit it waits. Without
its target it ends LOST with the permits of its entry: where the entry is none or is not declared (0 permits then, log 133),
where no team has the entry's mix, where that team does not hold its memory, and where the queue is not open. QRECV takes the message at HEAD, which it moves on, and the entry is held, when no group
of its team began to wait for the queue before. -/
def Sys2Proof.Claims.QueueObjects : Prop :=
  ∀ (s : State) (g : Group) (w : Wait) (tm : Team), s.team? g.team = some tm →
    (∀ entry msg, open' w (.send entry msg) →
      let lost (n : Nat) : Prop := s.satisfied g w = some (s, [(w.dst, 5), (w.dst + 1, wordOf n)])
      (16 ≤ entry.toNat → lost 0) ∧
      (tm.sends[entry.toNat]? = none → lost 0) ∧
      (∀ e, tm.sends[entry.toNat]? = some e → entry.toNat < 16 →
        (e.declared = false → lost 0) ∧
        (e.declared = true → s.targetTeam tm e.mix = none → lost e.permits) ∧
        ∀ t, e.declared = true → s.targetTeam tm e.mix = some t →
          (t.holds = false ∨ s.openQueue t.id e.queue = none) → lost e.permits) ∧
      ∀ e t x, tm.sends[entry.toNat]? = some e → entry.toNat < 16 → e.declared = true → s.targetTeam tm e.mix = some t →
        t.holds = true → s.openQueue t.id e.queue = some x →
        (e.permits = 0 → s.satisfied g w = none) ∧
        (0 < e.permits → ∃ u a, s.satisfied g w = some (u, [(w.dst, 0), (w.dst + 1, wordOf (e.permits - 1))]) ∧
          u.appends = s.appends ++ [a] ∧ a.msg = msg ∧ a.team = t.id ∧ a.queue = e.queue ∧ a.gid = g.id ∧
          ∃ v, u.team? tm.id = some v ∧ v.sends[entry.toNat]? = some { e with permits := e.permits - 1 })) ∧
    ∀ queue, open' w (.receive queue) →
      (s.openQueue tm.id queue.toNat = none → s.satisfied g w = some (s, [(w.dst, 5)])) ∧
      ∀ q h, s.openQueue tm.id queue.toNat = some (q, h) →
        (h.head = h.tail → s.satisfied g w = none) ∧
        (h.head ≠ h.tail → (∀ k ∈ s.groups, k.id ≠ g.id → k.team = g.team → k.receives queue = none) → ∃ u ws, s.satisfied g w = some (u, ws) ∧
          let at' := h.ring + 32 * (h.head % h.slots)
          ws = [(w.dst, 0), (w.dst + 1, wordOf (tm.mem.value (at' + 16) 4)), (w.dst + 2, wordOf (tm.mem.value at' 4)),
            (w.dst + 3, wordOf (tm.mem.value (at' + 4) 4)), (w.dst + 4, wordOf (tm.mem.value (at' + 8) 4)),
            (w.dst + 5, wordOf (tm.mem.value (at' + 12) 4))] ∧
          (tm.mem.wf = true → (u.teamMem tm.id).value (q.hdr + 0x08) 4 = (h.head + 1) % 2 ^ 32 ∧
            (u.teamMem tm.id).value (q.hdr + 0x10) 4 = (h.held + 1) % 2 ^ 32))

namespace Sys2Proof.Claims

/-! ## Tasks (20 R371 to R378) -/

def tcbNewForm (d a b : BitVec 8) : Form := taskForm 0xA3 d a b .pairSrc (.src (.regs 4 true) .g)
def tcbSuccForm (d a b : BitVec 8) : Form := taskForm 0xA4 d a b .pairSrc .pairSrc
def tcbSubmitForm (d a : BitVec 8) : Form := taskForm 0xA5 d a 0 .pairSrc .unused
def tcbDoneForm (d a : BitVec 8) : Form := taskForm 0xA6 d a 0 .pairSrc .unused
def bintimeForm (d a b : BitVec 8) : Form := taskForm 0xA7 d a b .pairSrc .uniform
def spawnForm (d a b : BitVec 8) : Form := form3 0xA0 d.toNat a.toNat b.toNat (.dst .one .t) .pairSrc (.src .one .lane)
def forkForm (d a b : BitVec 8) : Form := form3 0xA1 d.toNat a.toNat b.toNat (.acc (.regs 2 true) .g) .uniform .deadline
def yieldForm (d : BitVec 8) : Form := form3 0xA8 d.toNat 0 0 (.dst .one .g) .unused .unused

/-- The address in the pair of slot a, and of slot b. -/
def vaA (c : Ctx) : DWord := dwordOf (c.readPair c.a 0)
def vaB (c : Ctx) : DWord := dwordOf (c.readPair c.b 0)

/-- A task instruction completes: its operation is done whole, its status stands in the destination, and where that is DONE what
follows from it comes about. -/
def TaskClaim (i : Instr) (f : Form) (pre : Ctx → Prop) (op : State → Ctx → State × Nat) (after : Ctx → State → State) : Prop :=
  ∀ (s : State) (g : Group), Runs s g f →
    let c := s.ctxOf f g
    pre c →
    let r := op s c
    ∀ b, r.1.group? g.id = some b →
      ∃ t h, exec i s = .next (if r.2 = 0 then after c t else t) ∧ t.group? g.id = some h ∧
        Answered b h c.dreg [wordOf r.2] ∧ t.mem = r.1.mem ∧ t.teams = r.1.teams ∧ t.tasks = r.1.tasks

/-- What a task operation reads of a TCB: the page is brought in and the group's own stores there are in memory (20 R364). -/
def tcbRead (s : State) (g : Group) (tcb : DWord) : State × Except (MFault × Nat) (List Byte) :=
  ((s.bringIn (s.teamOf g).ctx tcb.toNat 128).settleVa g tcb.toNat 128).readTcb (s.teamOf g).ctx tcb

/-- BINTIME: the record is read and checked, then the time of its bin is set. -/
def bintimeOp (s : State) (c : Ctx) : State × Nat :=
  match s.spawnRecord c.tm.ctx (s.coreOf c.g) (vaA c) with
  | (t, .error st) => (t, st)
  | (t, .ok r) => t.setBinTime c.tm.ctx (vaA c) r (c.read c.b 0).toNat

/-- The threads of a SPAWN: the state after and each thread's status. -/
def spawnOp (s : State) (c : Ctx) : State × List (Nat × Nat) :=
  match (s.release c.g 3).spawnRecord c.tm.ctx ((s.release c.g 3).coreOf c.g) (vaA c) with
  | (t, .error st) => (t, (threadsOf c.active).map fun i => (i, st))
  | (t, .ok r) =>
    let u := t.spawnAll (dieOfCore r.core0) c.tm.ctx (vaA c) r ((threadsOf c.active).map fun i => (i, c.read c.b i))
    (match u.1.bin? (dieOfCore r.core0) (c.tm.ctx, r.entry) with
      | none => u.1
      | some bin => if bin.time = 0 then u.1.launchBin (dieOfCore r.core0) bin else u.1, u.2)

/-- The children of a FORK, as team memory lists them. -/
def forkList (s : State) (c : Ctx) : List DWord :=
  (chunks 8 (c.read c.d 0).toNat (s.view c.g s.nextId (.team c.tm.id (bits (offA c) 0 18)) (8 * (c.read c.d 0).toNat))).map
    fun x => dwordOf (ofBytes x)

/-- The operands of a FORK are good. -/
def forkGood (c : Ctx) : Prop :=
  bits (offA c) 18 13 = 0 ∧ (c.read c.d 0).toNat ≠ 0 ∧ (c.read c.d 0).toNat ≤ 64 ∧ bits (offA c) 0 18 % 8 = 0 ∧
    bits (offA c) 0 18 + 8 * (c.read c.d 0).toNat ≤ c.tm.launch.tmem

/-- The children of the team that count toward the limit of 64. -/
def forkCount (c : Ctx) : Nat := (c.tm.joinSet.filter fun x => !x.failed).length + (c.read c.d 0).toNat

/-! ## System instructions (14 R283 to R294) -/

def exitForm (a : BitVec 8) : Form := { sysForm 0xB0 0 a 0 .unused .uniform .unused 0 with log := true }
def trapForm' (a : BitVec 8) : Form := sysForm 0xB1 0 a 0 .unused .uniform .unused 0
def tretForm (a : BitVec 8) : Form := sysForm 0xB2 0 a 0 .unused .uniform .unused 1
def beatForm : Form := sysForm 0xB3 0 0 0 .unused .unused .unused 0
def pidxForm (d a : BitVec 8) : Form := sysForm 0xB4 d a 0 (.dst .one .g) .uniform .unused 1
def modeRdForm (d : BitVec 8) : Form := sysForm 0xB5 d 0 0 (.dst (.regs 2 true) .g) .unused .unused 0
def modeWrForm (a : BitVec 8) : Form := sysForm 0xB6 0 a 0 .unused .pairSrc .unused 0
def winrdForm (d a b : BitVec 8) : Form := winForm 0xB7 d a b (.dst (.regs 2 true) .g) (.src (.regs 2 true) .gz)
def winwrForm (d a b : BitVec 8) : Form := winForm 0xB8 d a b (.dst .one .g) (.src (.regs 3 true) .g)
def sregRdForm (d a : BitVec 8) : Form := sysForm 0xB9 d a 0 (.dst .one .g) .uniform .unused 0
def sregWrForm (a b : BitVec 8) : Form := sysForm 0xBA 0 a b .unused .uniform .uniform 0
def snetForm (a b : BitVec 8) : Form := sysForm 0xBC 0 a b .unused .uniform .pairSrc 0
def clockForm (d a : BitVec 8) : Form := sysForm 0xBD d a 0 (.dst (.regs 2 true) .g) .uniform .unused 0
def brkForm : Form := sysForm 0xBE 0 0 0 .unused .unused .unused 0
def haltForm (a : BitVec 8) : Form := sysForm 0xBF 0 a 0 .unused .uniform .unused 1

/-- The instruction answers with words in its destination, and changes nothing else. -/
def Answers (i : Instr) (s : State) (g : Group) (c : Ctx) (ws : List Word) : Prop :=
  ∃ t h, exec i s = .next t ∧ t.group? g.id = some h ∧ SameMemory s t ∧ Answered g h c.dreg ws

/-- The supervisor instructions and their forms (14 Table 14.5). -/
def supervisor (d a b : BitVec 8) : List (Instr × Form) :=
  [(.tret a, tretForm a), (.halt a, haltForm a), (.pidx d a, pidxForm d a), (.winrd d a b, winrdForm d a b),
   (.winwr d a b, winwrForm d a b), (.shoot d a b, shootForm d a b)]

/-- The registers that a program may read at user level, and those of the supervisor (14 Table 14.6). -/
def userSreg (n : Nat) : Prop := n ≤ 3 ∨ n = 0x40
def superSreg (n : Nat) : Prop := (0x10 ≤ n ∧ n ≤ 0x11) ∨ (0x20 ≤ n ∧ n ≤ 0x31)

end Sys2Proof.Claims

/-- 20 R371 to R375: the instructions on task control blocks and on the time of a spawn bin. -/
def Sys2Proof.Claims.TaskInstructions : Prop :=
  ∀ d a b : BitVec 8,
    TaskClaim (.tcbNew d a b) (tcbNewForm d a b) (fun c => bits (c.read (c.b.above 2) 0).toNat 17 15 = 0)
      (fun s c => tcbNew c.g (vaA c) (c.readPair c.b 0) (c.read (c.b.above 2) 0) (c.read (c.b.above 3) 0) s) (fun _ t => t) ∧
    TaskClaim (.tcbSucc d a b) (tcbSuccForm d a b) (fun _ => True) (fun s c => tcbSucc c.g (vaA c) (vaB c) s) (fun _ t => t) ∧
    TaskClaim (.tcbSubmit d a) (tcbSubmitForm d a) (fun _ => True) (fun s c => submitTcb c.g (vaA c) s)
      (fun c t => t.readyIfFree c.tm.ctx (vaA c)) ∧
    TaskClaim (.tcbDone d a) (tcbDoneForm d a) (fun _ => True) (fun s c => tcbDone c.g (vaA c) s)
      (fun c t => t.readyIfFree c.tm.ctx (vaA c)) ∧
    TaskClaim (.bintime d a b) (bintimeForm d a b) (fun c => (c.read c.b 0).toNat ≤ 1000000) bintimeOp (fun _ t => t)

/-- 20 R364, R374, R375: a TCB address of 2 to the 52 or more gives FAULTED, one that is not 128-aligned BADCMD, and nothing
changes; of the two addresses of TCB.SUCC the range of both is looked at first. A TCB that cannot be read gives FAULTED. TCB.NEW of
a block in use, a submission of one that is not in STATE 0 and TCB.DONE of one without predecessors give BADCMD. A submission that
ends DONE adds one task to those that were there, and one that does not adds none. -/
def Sys2Proof.Claims.TaskStatuses : Prop :=
  ∀ (s : State) (g : Group) (tcb : DWord) (launch : Nat) (ctl tag : Word),
    (2 ^ 52 ≤ tcb.toNat → tcbNew g tcb launch ctl tag s = (s, 8) ∧ submitTcb g tcb s = (s, 8) ∧ tcbDone g tcb s = (s, 8)) ∧
    (tcb.toNat < 2 ^ 52 → tcb.toNat % 128 ≠ 0 →
      tcbNew g tcb launch ctl tag s = (s, 9) ∧ submitTcb g tcb s = (s, 9) ∧ tcbDone g tcb s = (s, 9)) ∧
    (∀ t e, tcb.toNat < 2 ^ 52 → tcb.toNat % 128 = 0 → tcbRead s g tcb = (t, .error e) →
      tcbNew g tcb launch ctl tag s = (t, 8) ∧ submitTcb g tcb s = (t, 8) ∧ tcbDone g tcb s = (t, 8)) ∧
    (∀ t b, tcb.toNat < 2 ^ 52 → tcb.toNat % 128 = 0 → tcbRead s g tcb = (t, .ok b) →
      (1 ≤ fieldOf b 0x14 1 ∧ fieldOf b 0x14 1 ≤ 3 → tcbNew g tcb launch ctl tag s = (t, 9)) ∧
      (fieldOf b 0x14 1 ≠ 0 → submitTcb g tcb s = (t, 9)) ∧
      (fieldOf b 0x10 4 = 0 → tcbDone g tcb s = (t, 9)) ∧
      ((submitTcb g tcb s).2 = 0 → ∃ x, (submitTcb g tcb s).1.tasks = s.tasks ++ [x] ∧ x.tcb = tcb ∧
        x.ctx = ((submitTcb g tcb s).1.teamOf g).ctx ∧ x.tag = dwordOf (fieldOf b 0x08 8) ∧ x.ready = false ∧ x.queued = false)) ∧
    ((submitTcb g tcb s).2 ≠ 0 → (submitTcb g tcb s).1.tasks = s.tasks)

/-- 20 R374: TCB.SUCC of a predecessor that has retired ends DONE and changes nothing; a successor that is ready or later gives
BADCMD, a full list FULL; else the successor is listed and counts one predecessor more. -/
def Sys2Proof.Claims.SuccessorStatuses : Prop :=
  ∀ (s : State) (g : Group) (pre suc : DWord),
    (2 ^ 52 ≤ pre.toNat ∨ 2 ^ 52 ≤ suc.toNat → tcbSucc g pre suc s = (s, 8)) ∧
    (pre.toNat < 2 ^ 52 → suc.toNat < 2 ^ 52 → pre.toNat % 128 ≠ 0 ∨ suc.toNat % 128 ≠ 0 → tcbSucc g pre suc s = (s, 9)) ∧
    (pre.toNat < 2 ^ 52 → suc.toNat < 2 ^ 52 → pre.toNat % 128 = 0 → suc.toNat % 128 = 0 →
      (∀ t e, tcbRead s g pre = (t, .error e) → tcbSucc g pre suc s = (t, 8)) ∧
      ∀ t a, tcbRead s g pre = (t, .ok a) →
        (fieldOf a 0x14 1 = 4 → tcbSucc g pre suc s = (t, 0)) ∧
        (fieldOf a 0x14 1 ≠ 4 →
          (∀ u e, tcbRead t g suc = (u, .error e) → tcbSucc g pre suc s = (u, 8)) ∧
          ∀ u b, tcbRead t g suc = (u, .ok b) →
            (2 ≤ fieldOf b 0x14 1 → tcbSucc g pre suc s = (u, 9)) ∧
            (fieldOf b 0x14 1 < 2 → 8 + fieldOf a 0x20 2 ≤ fieldOf a 0x16 2 → tcbSucc g pre suc s = (u, 16)) ∧
            (fieldOf b 0x14 1 < 2 → fieldOf a 0x16 2 < 8 + fieldOf a 0x20 2 → tcbSucc g pre suc s =
              u.writeAll g [(if fieldOf a 0x16 2 < 8 then pre.toNat + 0x40 + 8 * fieldOf a 0x16 2
                  else fieldOf a 0x18 8 + 8 * (fieldOf a 0x16 2 - 8), bytesOf 8 suc.toNat),
                (pre.toNat + 0x16, bytesOf 2 (fieldOf a 0x16 2 + 1)),
                (suc.toNat + 0x10, bytesOf 4 (fieldOf b 0x10 4 + 1))])))

/-- 20 R371, R373: BINTIME gives FAULTED for a record address of 2 to the 52 or more and for a record that cannot be read, BADCMD
for one that is not 64-aligned, fails its check or is no record of a spawn of one group, FULL where the bin is none of 64; else
DONE. -/
def Sys2Proof.Claims.BinTimeStatuses : Prop :=
  ∀ (s : State) (c : Ctx),
    let va := vaA c
    (2 ^ 52 ≤ va.toNat → bintimeOp s c = (s, 8)) ∧
    (va.toNat < 2 ^ 52 → va.toNat % 64 ≠ 0 → bintimeOp s c = (s, 9)) ∧
    (va.toNat < 2 ^ 52 → va.toNat % 64 = 0 →
      (∀ t, s.readRecord c.tm.ctx (s.coreOf c.g) false va = (t, .unreadable) → bintimeOp s c = (t, 8)) ∧
      (∀ t off, s.readRecord c.tm.ctx (s.coreOf c.g) false va = (t, .fails off) → bintimeOp s c = (t, 9)) ∧
      ∀ t x, s.readRecord c.tm.ctx (s.coreOf c.g) false va = (t, .good x) →
        let full : Prop := t.bin? (dieOfCore x.core0) (c.tm.ctx, x.entry) = none ∧ 64 ≤ (t.dieRec (dieOfCore x.core0)).bins.length
        (¬ (x.spawn = true ∧ x.groups = 1) → bintimeOp s c = (t, 9)) ∧
        (x.spawn = true → x.groups = 1 → full → bintimeOp s c = (t, 16)) ∧
        (x.spawn = true → x.groups = 1 → ¬ full → (bintimeOp s c).2 = 0))

/-- 20 R371: SPAWN performs a release at `sys` and gives every thread of Active its status: that of a record that cannot be read or
fails its check in all of them, else that of each thread's place in the bin. -/
def Obligations.SpawnThreads : Prop :=
  ∀ (d a b : BitVec 8) (s : State) (g : Group), Runs s g (spawnForm d a b) →
    let c := s.ctxOf (spawnForm d a b) g
    let r := spawnOp s c
    (∀ k, r.1.group? g.id = some k → ∃ t h, exec (.spawn d a b) s = .next t ∧ t.group? g.id = some h ∧
      t.teams = r.1.teams ∧ t.dies = r.1.dies ∧ h.arch.pc = k.arch.pc + 4 ∧ h.arch.g = k.arch.g ∧ h.phase = .ready ∧
      ∀ n, c.d = .t n → ∀ x ∈ r.2, x.1 < c.width → inMask c.active x.1 = true → (r.2.map (·.1)).Nodup →
        (h.arch.t.getD n Ranked.zero).at x.1 = (wordOf x.2, true)) ∧
    (2 ^ 52 ≤ (vaA c).toNat → r.2 = (threadsOf c.active).map fun i => (i, 8)) ∧
    ((vaA c).toNat < 2 ^ 52 → (vaA c).toNat % 64 ≠ 0 → r.2 = (threadsOf c.active).map fun i => (i, 9))

/-- 20 R376: a FORK that would hold more than 64 children writes FULL; with STAY = 1 it writes how many children failed and goes on;
with STAY = 0 it waits for the end of the swap and its team is stopped. -/
def Sys2Proof.Claims.ForkChildren : Prop :=
  ∀ (d a b : BitVec 8) (s : State) (g : Group), Runs s g (forkForm d a b) → g.wait = none →
    let c := s.ctxOf (forkForm d a b) g
    forkGood c →
    let r := s.forkAll g (forkList s c)
    (64 < forkCount c → bitAt (offA c) 31 = true → Answers (.fork d a b) s g c [16, 0]) ∧
    (forkCount c ≤ 64 → bitAt (offA c) 31 = true → ∀ k, r.1.group? g.id = some k →
      ∃ t h, exec (.fork d a b) s = .next t ∧ t.group? g.id = some h ∧ t.tasks = r.1.tasks ∧
        Answered k h c.dreg [0, wordOf r.2]) ∧
    (forkCount c ≤ 64 → bitAt (offA c) 31 = false → ∀ dl, s.arm g (c.readPair c.b 0) = some dl →
      ∀ k tm, r.1.group? g.id = some k → r.1.team? k.team = some tm → tm.life = .running →
      ∃ t h u w, exec (.fork d a b) s = .next t ∧ t.group? g.id = some h ∧
        h = { k with phase := .waiting, wait := some w } ∧ w.obj = .swap ∧ w.limit = dl.limit ∧ w.dst = c.dreg ∧
        t.team? k.team = some u ∧ u.life = .stopping ∧ u.joinSet = tm.joinSet)

/-- 20 R378: a YIELD that frees no room writes 0 and goes on; one that does stops its team. -/
def Sys2Proof.Claims.YieldsCore : Prop :=
  ∀ (d : BitVec 8) (s : State) (g : Group), Runs s g (yieldForm d) → g.wait = none →
    let c := s.ctxOf (yieldForm d) g
    (s.mustYield c.tm (s.coreOf g) = false → Answers (.yield d) s g c [0]) ∧
    ∀ tm, s.mustYield c.tm (s.coreOf g) = true → s.team? g.team = some tm → tm.life = .running →
      ∃ t h u w, exec (.yield d) s = .next t ∧ t.group? g.id = some h ∧ h = { g with phase := .waiting, wait := some w } ∧
        w.obj = .yielded ∧ t.team? g.team = some u ∧ u.life = .stopping ∧ u.yielding = true ∧ SameMemory s t

/-- 14 R284: EXIT ends the group with the status in a, and frees what it had pending; no byte of memory changes. -/
def Sys2Proof.Claims.ExitEndsGroup : Prop :=
  ∀ (a : BitVec 8) (s : State) (g : Group), Runs s g (exitForm a) →
    let c := s.ctxOf (exitForm a) g
    ∃ t h, exec (.exit a) s = .next t ∧ t.group? g.id = some h ∧ h.phase = .ended ∧ h.status = c.read c.a 0 ∧ h.detail = 0 ∧
      h.wait = none ∧ h.place = g.place ∧ SameMemory s t ∧ (∀ x ∈ t.deliveries, x.gid ≠ g.id) ∧
      (∀ j, j ≠ g.id → t.group? j = s.group? j) ∧ t.teams = s.teams ∧ t.stores = s.stores

/-- 14 R285, R283, R276: TRAP takes cause 0x0A with its value as DETAIL and its low byte as sub-cause; BRK takes cause 0x0B, and in
a context under DEBUG holds the group for the Hearth instead, with its image, STATE 4, written to its save area. Where the image
cannot be written, it goes to the core's emergency area with the record of cause 0x0E above it (its place is the model's, log 21),
and the handler of that cause starts, or without a handler the group ends TRAPPED; where that area is in use, the group waits for
it. -/
def Sys2Proof.Claims.SoftwareTraps : Prop :=
  (∀ (a : BitVec 8) (s : State) (g : Group), Runs s g (trapForm' a) →
    let c := s.ctxOf (trapForm' a) g
    exec (.trap a) s = .next (s.trapForm (trapForm' a) (s.issueOf (trapForm' a) g) 0x0A ((c.read c.a 0).toNat % 256)
      (c.read c.a 0).toNat)) ∧
  ∀ (s : State) (g : Group), Runs s g brkForm →
    let c := s.ctxOf brkForm g
    let x := s.issueOf brkForm g
    (bitAt (s.contextOf c.tm).flags.toNat 1 = false ∨ g.super = true →
      exec .brk s = .next (s.trapForm brkForm x 0x0B 0 0)) ∧
    (bitAt (s.contextOf c.tm).flags.toNat 1 = true → g.super = false →
      let rcd := trapRecord g c.width brkForm.word 0x0B 0 c.active (brkForm.views x.r) (s.windowHandle g) 0
      let k : Group := { g with phase := .held, pend := some rcd, traps := g.traps + 1 }
      let core := s.coreOf g
      let r := { s with hearthEvents := s.hearthEvents + 1 }.span c.tm.ctx core 1 .write (c.tm.groupSave g.gix) 0xE000
      (∀ u segs, r = (u, .ok segs) →
        exec .brk s = .next ((u.putImage segs (u.imageOf k 4 rcd)).putGroup { k with stalled := false })) ∧
      ∀ u e, r = (u, .error e) →
        ((u.coreRec core).emergUse ≠ none → exec .brk s = .next (u.putGroup { k with stalled := true })) ∧
        ((u.coreRec core).emergUse = none →
          let area : List Seg := [⟨0, (u.coreRec core).emerg.toNat, 0x10000, 0⟩]
          let u1 := u.putImage area (u.imageOf k 4 rcd)
          let u2 := u1.putSpan area 0xE000 (u1.emergencyRecord k e.1.sub (Config.emergVa core) e.2)
          ∃ t h, exec .brk s = .next t ∧ t.group? g.id = some h ∧ t.mem = u2.mem ∧
            (u.trapVec k ≠ 0 → (t.coreRec core).emergUse = some g.id ∧ h.super = true ∧ h.phase = .ready ∧ h.arch.pc = u.trapVec k &&& ~~~ 3 ∧
              h.emergency = some .hold ∧ h.pend = some rcd ∧
              h.arch.g.getD 2 ⟨0, true⟩ = ⟨wordOf (0x0E00 + e.1.sub), true⟩) ∧
            (u.trapVec k = 0 → h.phase = .ended ∧ h.status = 26)))

/-- 14 R269, R272, Table 14.2, R410: a trap of a program with a handler starts it at TRAPVEC: supervisor level, the launch mode, every
thread active, an empty stack, the save area in g0 and g1 and the cause word in g2; without a handler the standard routine ends the
group TRAPPED (R410); a trap in a handler is a double trap. That the low two bits of TRAPVEC are cleared is log 40. -/
def Sys2Proof.Claims.TrapEntry : Prop :=
  ∀ (s : State) (g : Group) (rcd : List Byte) (t : Trapped),
    let tm := s.teamOf g
    let k := { g with traps := g.traps + 1 }
    (g.super = true → s.deliver g rcd t = s.doubleTrap g (fieldOf rcd 0x0C 4)) ∧
    ∀ s1 segs, g.super = false → s.span tm.ctx (s.coreOf k) 1 .write (tm.groupSave k.gix) 0xE000 = (s1, .ok segs) →
      let s2 := s1.putImage segs (s1.imageOf k 5 rcd)
      (s2.trapVec k ≠ 0 → ∃ h, s.deliver g rcd t = s2.putGroup h ∧ h.super = true ∧ h.phase = .ready ∧
        h.arch.pc = s2.trapVec k &&& ~~~ 3 ∧ h.arch.mode = 0x00007FFF80012000 ∧ h.arch.mask = lowMask (s2.teamOf k).launch.width ∧
        h.arch.stack = [] ∧ h.arch.g.getD 0 ⟨0, true⟩ = ⟨wordOf (tm.groupSave g.gix), true⟩ ∧
        h.arch.g.getD 1 ⟨0, true⟩ = ⟨wordOf (tm.groupSave g.gix / 2 ^ 32), true⟩ ∧
        h.arch.g.getD 2 ⟨0, true⟩ = ⟨wordOf (fieldOf rcd 0x0C 4), true⟩ ∧ h.trapped = some { t with clk := g.cclk } ∧ h.keptWait = g.wait ∧
        h.traps = g.traps + 1) ∧
      (s2.trapVec k = 0 → s2.group? g.id ≠ none →
        ∃ h, (s.deliver g rcd t).group? g.id = some h ∧ h.phase = .ended ∧ h.status = wordOf 26 ∧
          h.detail = wordOf (fieldOf rcd 0x0C 4))

/-- 03 R62, Table 3.11: the record of a trap that names an instruction is 128 bytes with the pc, the word, cause and sub-cause, the mode,
the mask and the guarded threads at their offsets. -/
def Sys2Proof.Claims.TrapRecordLayout : Prop :=
  ∀ (g : Group) (width : Nat) (word : Word) (cause sub : Nat) (guarded : DWord) (slots : List SlotView) (handle detail : Nat),
    g.arch.ix.length = 3 → cause < 2 ^ 24 →
    let r := trapRecord g width word cause sub guarded slots handle detail
    r.length = 128 ∧ fieldOf r 0 8 = g.arch.pc.toNat ∧ fieldOf r 8 4 = word.toNat ∧
      fieldOf r 0x0C 4 = cause * 256 + sub % 256 ∧ fieldOf r 0x10 8 = g.arch.mode.toNat ∧ fieldOf r 0x18 8 = g.arch.mask.toNat ∧
      fieldOf r 0x20 8 = guarded.toNat ∧ fieldOf r 0x70 8 = handle % 2 ^ 64 ∧ fieldOf r 0x78 8 = detail % 2 ^ 64

/-- 14 R286, R274: TRET restores the trapped program from its image at the address that its code gives: the trapped instruction
(for a memory fault, with the threads that are left, or past it when none is), the one after it, or the one that the record
names; a return with code 0 from a watchdog trap sets the count to 0 (R279). A bad code, a bad address and an image that fails
its check are a double trap. -/
def Obligations.TrapReturn : Prop :=
  ∀ (a : BitVec 8) (s : State) (g : Group), Runs s g (tretForm a) →
    let code := ((s.ctxOf (tretForm a) g).read (s.ctxOf (tretForm a) g).a 0).toNat
    ∀ t s1 segs, g.trapped = some t → g.emergency = none → (s.flush g).imageSpan g .read = (s1, .ok segs) →
      (s1.restoreFrom g segs (g.cclk - t.clk) = none → exec (.tret a) s = .next (s1.doubleTrap g 0)) ∧
      ∀ h, s1.restoreFrom g segs (g.cclk - t.clk) = some h →
      let s2 := if t.cause = 0x0D ∧ code = 0 then s1.onTeam g.team fun tm => { tm with wdog := 0 } else s1
      let back (pc : DWord) (rp : Option Replay) : Prop :=
        ∃ k, exec (.tret a) s = .next (s2.putGroup k) ∧
          k.arch = { h.arch with
            pc := pc, pidx := if code = 0 ∧ pc = t.pc then h.arch.pidx else 0
            snap := if code = 0 ∧ pc = t.pc then h.arch.snap else [] } ∧
          k.super = false ∧ k.trapped = none ∧ k.replay = rp ∧ k.wait = (if code = 0 ∧ pc = t.pc then h.wait else none) ∧
          k.rwLimit = (if code = 0 ∧ pc = t.pc then h.rwLimit else none) ∧
          k.firstIssue = (if code = 0 ∧ pc = t.pc then h.firstIssue else none)
      (code = 0 → t.cause ≠ 0x02 → back t.pc none) ∧
      (code = 0 → t.cause = 0x02 → ∀ r, g.keptReplay = some r →
        let left := r.unfin &&& dwordOf (s1.spanValue segs 0x0120 8)
        (left = 0 → back (t.pc + 4) none) ∧ (left ≠ 0 → back t.pc (some { r with unfin := left }))) ∧
      (code = 1 → back (t.pc + 4) none) ∧
      (code = 2 → s1.spanValue segs 0x0100 8 % 4 = 0 → s1.spanValue segs 0x0100 8 < 2 ^ 52 →
        back (dwordOf (s1.spanValue segs 0x0100 8)) none) ∧
      (code = 2 → s1.spanValue segs 0x0100 8 % 4 ≠ 0 ∨ 2 ^ 52 ≤ s1.spanValue segs 0x0100 8 →
        exec (.tret a) s = .next (s1.doubleTrap g 0)) ∧
      (2 < code → exec (.tret a) s = .next (s1.doubleTrap g 0))

/-- 14 R294, R281, 09 R189: HALT records the event and marks its context halted with the reason in a; the context's reductions in
flight end, each performed or logged, every engine command and bin of the context is dropped, and its teams and tasks end: when it
is done no team of the context is left that is not retired, and no task of it. -/
def Obligations.HaltStopsContext : Prop :=
  ∀ (a : BitVec 8) (s : State) (g : Group) (x : Context), Runs s g (haltForm a) →
    let c := s.ctxOf (haltForm a) g
    let ctx := (s.teamOf g).ctx
    s.context? ctx = some x →
    ∃ (s0 t : State) (y : Context) (who : Nat → Nat), s0 = { s with safety := s0.safety, contexts := s0.contexts } ∧
      s0.context? ctx = some { x with halted := some (c.read c.a 0) } ∧
      (s.safety.frozen = false → ∃ e, s0.safety.ring.getLast? = some e ∧ e.kind = 0x0007) ∧
      exec (.halt a) s = .next (t.retireHalted ctx (c.read c.a 0).toNat who) ∧
      t = { (s0.reductions.filter (·.ctx == ctx)).foldl State.endReduction s0 with
        cmds := t.cmds, hearthEvents := s.hearthEvents + 1, clusters := t.clusters, dies := t.dies } ∧
      t.context? ctx = some y ∧ y.halted = some (c.read c.a 0) ∧ (∀ k ∈ t.cmds, k.ctx ≠ ctx) ∧
      (∀ r ∈ t.reductions, r.ctx ≠ ctx) ∧ (∀ d ∈ t.dies, ∀ b ∈ d.bins, b.ctx ≠ ctx) ∧
      ((∀ r ∈ s.reductions, r.ctx ≠ ctx) → SameMemory s t) ∧
      (∀ tm ∈ (t.retireHalted ctx (c.read c.a 0).toNat who).teams, tm.ctx = ctx → tm.life = .retired) ∧
      ∀ k ∈ (t.retireHalted ctx (c.read c.a 0).toNat who).tasks, k.ctx ≠ ctx

/-- 14 R267, Table 14.5: a supervisor instruction at user level takes the privilege trap, sub-cause 0x00. -/
def Obligations.PrivilegeTraps : Prop :=
  ∀ d a b : BitVec 8, ∀ e ∈ supervisor d a b, ∀ (s : State) (g : Group), s.group? s.cur = some g → e.2.wordCheck = none →
    g.super = false → exec e.1 s = .next (s.trapForm e.2 (s.issueOf e.2 g) 0x04 0x00 0)

/-- 14 R279, R289, R293: BEAT restarts the watchdog of its team; CLOCK reads the wall clock or the context clock; MODE.RD reads the
mode register, and MODE.WR writes it or traps on a reserved code. -/
def Sys2Proof.Claims.ClocksAndModes : Prop :=
  (∀ (s : State) (g : Group), Runs s g beatForm → ∃ t, exec .beat s = .next t ∧ SameMemory s t ∧
    t.group? g.id = some (at' g (g.arch.pc + 4)) ∧ ∀ tm, s.team? g.team = some tm → t.team? g.team = some { tm with wdog := 0 }) ∧
  (∀ (d a : BitVec 8) (s : State) (g : Group), Runs s g (clockForm d a) →
    let c := s.ctxOf (clockForm d a) g
    let n := if (c.read c.a 0).getLsbD 0 then s.wall else g.cclk
    Answers (.clock d a) s g c [wordOf n, wordOf (n / 2 ^ 32)]) ∧
  (∀ (d : BitVec 8) (s : State) (g : Group), Runs s g (modeRdForm d) →
    Answers (.modeRd d) s g (s.ctxOf (modeRdForm d) g) [g.arch.mode.setWidth 32, (g.arch.mode >>> 32).setWidth 32]) ∧
  ∀ (a : BitVec 8) (s : State) (g : Group), Runs s g (modeWrForm a) →
    let c := s.ctxOf (modeWrForm a) g
    let v := c.readPair c.a 0 % 2 ^ 54
    (modeLegal v = true → exec (.modeWr a) s =
      .next (s.putGroup (at' { g with arch := { g.arch with mode := dwordOf v } } (g.arch.pc + 4)))) ∧
    (modeLegal v = false →
      exec (.modeWr a) s = .next (s.trapForm (modeWrForm a) (s.issueOf (modeWrForm a) g) 0x01 0x04 0))

/-- 14 R290, Table 14.6: a register that the level may read gives its value; one of the supervisor at user level takes the privilege
trap 0x00, a number without a register 0x01. ESC is written; a write to a read-only register changes nothing. -/
def Obligations.SystemRegisters : Prop :=
  (∀ (d a : BitVec 8) (s : State) (g : Group), Runs s g (sregRdForm d a) →
    let f := sregRdForm d a
    let c := s.ctxOf f g
    let n := (c.read c.a 0).toNat
    (userSreg n → Answers (.sregRd d a) s g c [s.sreg c n]) ∧
    (superSreg n → g.super = true → Answers (.sregRd d a) s g c [s.sreg c n]) ∧
    (superSreg n → g.super = false → exec (.sregRd d a) s = .next (s.trapForm f (s.issueOf f g) 0x04 0x00 n)) ∧
    (¬ userSreg n → ¬ superSreg n → exec (.sregRd d a) s = .next (s.trapForm f (s.issueOf f g) 0x04 0x01 n)) ∧
    s.sreg c 0 = (if g.arch.esc then 1 else 0) ∧ s.sreg c 1 = (if g.super then 1 else 0) ∧
    s.sreg c 3 = wordOf (c.tm.ctx % 65536) ∧ s.sreg c 0x26 = (s.contextOf c.tm).flags &&& 3 ∧ s.sreg c 0x27 = 0 ∧ s.sreg c 0x40 = s.serr) ∧
  ∀ (a b : BitVec 8) (s : State) (g : Group), Runs s g (sregWrForm a b) →
    let c := s.ctxOf (sregWrForm a b) g
    let n := (c.read c.a 0).toNat
    (n = 0 → ∃ t, exec (.sregWr a b) s = .next t ∧ SameMemory s t ∧ t.group? g.id =
      some (at' { g with arch := { g.arch with esc := (c.read c.b 0).getLsbD 0 } } (g.arch.pc + 4))) ∧
    (n = 0x27 → g.super = true → ∃ t, exec (.sregWr a b) s = .next t ∧ t.group? g.id = some (at' g (g.arch.pc + 4)) ∧
      ∀ x, s.context? c.tm.ctx = some x → t.context? c.tm.ctx =
        some { x with rlog := x.rlog.filter (· != (c.read c.b 0).toNat) }) ∧
    ((userSreg n ∧ n ≠ 0) ∨ (superSreg n ∧ n ≠ 0x27 ∧ g.super = true) →
      exec (.sregWr a b) s = .next (s.onGroup g.id Group.advance)) ∧
    (superSreg n → g.super = false → exec (.sregWr a b) s =
      .next (s.trapForm (sregWrForm a b) (s.issueOf (sregWrForm a b) g) 0x04 0x00 n)) ∧
    (¬ userSreg n → ¬ superSreg n → exec (.sregWr a b) s =
      .next (s.trapForm (sregWrForm a b) (s.issueOf (sregWrForm a b) g) 0x04 0x01 n))

/-- 14 R287: PIDX reads the row counter of the trapped image, and writes it the lesser of its old value and the operand: it can only
lower it. R288: a WINRD answers a bad selector with its status, and a good one with status 0 and the value that the thread reads:
what the window wrote last, else the image's. A WINWR answers a bad selector with its status; a write to a t or predicate
register is collected, one to a g or m register is done at once, one to `zero` is discarded, and any other is refused. That a
predicate takes bit 0, and the order of the checks of a selector, is log 44; what H reaches in a refused word is log 108. -/
def Obligations.TrappedImage : Prop :=
  (∀ (d a : BitVec 8) (s : State) (g : Group), Runs s g (pidxForm d a) →
    let c := s.ctxOf (pidxForm d a) g
    ∀ s1 segs, s.imageSpan g .write = (s1, .ok segs) →
      ∃ t h k, exec (.pidx d a) s = .next t ∧ t.group? g.id = some h ∧ s1.group? g.id = some k ∧
        Answered k h c.dreg [wordOf (s1.spanValue segs 0x2C 4)] ∧
        (c.a = .zero → t.mem = s1.mem) ∧
        (c.a ≠ .zero → t.mem = (s1.putSpan segs 0x2C (bytesOf 4 (min (c.read c.a 0).toNat (s1.spanValue segs 0x2C 4)))).mem)) ∧
  (∀ (d a b : BitVec 8) (s : State) (g : Group), Runs s g (winrdForm d a b) →
    let c := s.ctxOf (winrdForm d a b) g
    let x := windowTarget g c.width (c.read c.a 0).toNat (c.readPair c.b 0 == s.windowHandle g)
    (∀ st, x = .error st → ∃ t h, exec (.winrd d a b) s = .next t ∧ t.group? g.id = some h ∧ SameMemory s t ∧
      Answered g h (c.dreg + 1) [wordOf st]) ∧
    ∀ reg i s1 segs, x = .ok (reg, i) → s.imageSpan g .read = (s1, .ok segs) →
      let image := s1.imageArch segs c.width (max c.tm.launch.tregs 16) g.overflow
      let wrote := g.winWrites.reverse.find? fun w => w.reg == reg && w.thread == i
      ∃ t h k v, exec (.winrd d a b) s = .next t ∧ t.group? g.id = some h ∧ s1.group? g.id = some k ∧
        Answered k h c.dreg [v, 0] ∧
        (∀ w, wrote = some w → v = w.val) ∧
        (wrote = none → reg < 0x80 → v = ((image.t.getD reg Ranked.zero).at i).1) ∧
        (wrote = none → 0x80 ≤ reg → reg < 0xC0 → v = wordOf (s1.spanValue segs (0x0200 + 4 * (reg - 0x80)) 4)) ∧
        (wrote = none → 0xC0 ≤ reg → reg < 0xE0 → v = c.read (.m (reg - 0xC0)) i) ∧
        (wrote = none → 0xE0 ≤ reg → reg < 0xF8 → v = c.read (.k (reg - 0xE0)) i) ∧
        (wrote = none → reg = 0xF8 → v = 0) ∧
        (wrote = none → 0x100 ≤ reg → v = ((image.p.getD (reg - 0x100) Ranked.zero).at i).1)) ∧
  ∀ (d a b : BitVec 8) (s : State) (g : Group), Runs s g (winwrForm d a b) →
    let c := s.ctxOf (winwrForm d a b) g
    let v := c.read (c.b.above 2) 0
    let x := windowTarget g c.width (c.read c.a 0).toNat (c.readPair c.b 0 == s.windowHandle g)
    let does (st : Nat) (writes : Group → Prop) : Prop := ∃ t h, exec (.winwr d a b) s = .next t ∧ t.group? g.id = some h ∧
      SameMemory s t ∧ Answered g h c.dreg [wordOf st] ∧ writes h
    (∀ st, x = .error st → does st fun h => h.winWrites = g.winWrites ∧ h.mcrumbs = g.mcrumbs) ∧
    ∀ reg i, x = .ok (reg, i) →
      (reg < 0x80 → does 0 fun h => h.winWrites = g.winWrites ++ [⟨reg, i, v⟩]) ∧
      (0x100 ≤ reg → does 0 fun h => h.winWrites = g.winWrites ++ [⟨reg, i, v &&& 1⟩]) ∧
      (0xC0 ≤ reg → reg < 0xE0 → does 0 fun h => h.mcrumbs = (g.setM (reg - 0xC0) v).mcrumbs ∧ h.winWrites = g.winWrites) ∧
      (reg = 0xF8 → does 0 fun h => h.winWrites = g.winWrites ∧ h.mcrumbs = g.mcrumbs) ∧
      (0xE0 ≤ reg → reg < 0x100 → reg ≠ 0xF8 → does 3 fun h => h.winWrites = g.winWrites ∧ h.mcrumbs = g.mcrumbs) ∧
      (0x80 ≤ reg → reg < 0xC0 → ∀ s1 segs, s.imageSpan g .write = (s1, .ok segs) →
        let s2 := s1.putSpan segs (0x0200 + 4 * (reg - 0x80)) (bytesOf 4 v.toNat)
        ∃ t h k, exec (.winwr d a b) s = .next t ∧ t.group? g.id = some h ∧ s1.group? g.id = some k ∧
          Answered k h c.dreg [0] ∧
          t.mem = (s2.putSpan segs 0x0300 (bytesOf 8 (putBits (s2.spanValue segs 0x0300 8) (reg - 0x80) 1 1))).mem)

/-- 14 R292, R281: SNET records its mark, with the word, the value and the group's WHO, in the Safety Net; a frozen recorder counts it as
lost. -/
def Sys2Proof.Claims.SafetyMarks : Prop :=
  ∀ (a b : BitVec 8) (s : State) (g : Group), Runs s g (snetForm a b) →
    let c := s.ctxOf (snetForm a b) g
    ∃ t, exec (.snet a b) s = .next t ∧ t.group? g.id = some (at' g (g.arch.pc + 4)) ∧ SameMemory s t ∧
      (s.safety.frozen = false → ∃ e, t.safety.ring.getLast? = some e ∧ e.kind = 0x0006 ∧ e.seq = s.safety.seq ∧
        e.time = s.wall ∧ e.data =
          bytesOf 4 (c.read c.a 0).toNat ++ bytesOf 8 (c.readPair c.b 0) ++ bytesOf 4 (s.whoOf g)) ∧
      (s.safety.frozen = true → t.safety.ring = s.safety.ring ∧ t.safety.lost = s.safety.lost + 1)

namespace Sys2Proof.Claims

/-! ## Engine commands (12 R235 to R240, 15 R296, R312, 16 R330, 18 R345) -/

/-- Slots a, b, and the reply. -/
abbrev Co := BitVec 8 → BitVec 8 → BitVec 7 → Instr

/-- What a command carries from its issue on. -/
structure Carried (s : State) (c : Ctx) (func : Nat) (a : DWord) (b : List Word) (r : BitVec 7) (k : Cmd) : Prop where
  func : k.func = func
  operands : k.a = a ∧ k.b = b ∧ k.reply = replyOf r.toNat
  owner : k.gid = c.g.id ∧ k.team = c.tm.id ∧ k.ctx = c.tm.ctx ∧ k.priv = c.g.priv ∧ k.cluster = s.clusterOf c.g
  mode : k.scope = modeScope c.mode ∧ k.use = modeUse c.mode

/-- The reply copies of n registers are empty and keep their values; no other register changes (12 R239). -/
def ReplyEmpty (c : Ctx) (r : Reply) (n : Nat) (threads : DWord) (h : Group) : Prop :=
  match r with
  | .none => h.arch.t = c.g.arch.t ∧ h.arch.g = c.g.arch.g
  | .g j => h.arch.t = c.g.arch.t ∧
      (∀ k, k < n → h.arch.g.getD (j + k) ⟨0, true⟩ = ⟨(c.g.arch.g.getD (j + k) ⟨0, true⟩).val, false⟩) ∧
      ∀ k, k < j ∨ j + n ≤ k → h.arch.g.getD k ⟨0, true⟩ = c.g.arch.g.getD k ⟨0, true⟩
  | .t j => h.arch.g = c.g.arch.g ∧ (∀ i, i < c.width → i < 64 →
      (c.later h).copy (.t j) i = if inMask threads i then ((c.copy (.t j) i).1, false) else c.copy (.t j) i) ∧
      ∀ k, k ≠ j → h.arch.t.getD k Ranked.zero = c.g.arch.t.getD k Ranked.zero

/-- What a release leaves of its group: a reduction that ends by it may fill a zero page and shoot it down, which only clears V in
translation registers (07 R153, R174). -/
def Released (s : State) (g b : Group) : Prop :=
  (s.flush g).group? g.id = some b ∧ b = { g with arch := { g.arch with xl := b.arch.xl }, himage := b.himage }

/-- The group past a command: its reply is empty, the command is the last of its open commands, and the rest of its program
stays. -/
structure PastCommand (c : Ctx) (r : BitVec 7) (n : Nat) (threads : DWord) (h : Group) : Prop where
  reply : ReplyEmpty c (replyOf r.toNat) n threads h
  rest : h = { c.g with
    arch := { c.g.arch with pc := c.g.arch.pc + 4, t := h.arch.t, g := h.arch.g, pidx := 0, snap := [] }
    opens := h.opens, phase := .ready, rwLimit := none, firstIssue := none, replay := none, wait := none }

/-- A command of an engine with room for it is issued: what the group released is in memory, the command is listed, and the
group moves on; with its engine's limit of commands the group stalls, and nothing changes. -/
def CommandIssues (i : Instr) (f : Form) (cls limit func : Nat) (a : Ctx → DWord) (b : Ctx → List Word) (r : BitVec 7) : Prop :=
  ∀ (s : State) (g : Group), Runs s g f (reads := Ctx.replyReads) →
    let c := s.ctxOf f g
    (s.running g.id cls < limit →
      ∃ t h k x, exec i s = .next t ∧ t.cmds = (s.flush g).cmds ++ [k] ∧ Carried s c func (a c) (b c) r k ∧ k.phase = .issued ∧
        t.mem = (s.flush g).mem ∧ t.teams = (s.flush g).teams ∧ t.group? g.id = some h ∧ Released s g x ∧
        PastCommand (c.later x) r 1 (lowMask c.width) h ∧ h.opens = g.opens ++ [k.id]) ∧
    (limit ≤ s.running g.id cls → exec i s = .next s)

/-- The words of a block in slot b. -/
def blockB (n : Nat) (c : Ctx) : List Word := (List.range n).map fun k => c.read (c.b.above k) 0

/-- The address, or the offset, in slot a. -/
def addrA (pair : Bool) (c : Ctx) : DWord := dwordOf (if pair then c.readPair c.a 0 else (c.read c.a 0).toNat)

def blockKind (n : Nat) (va : Bool) : Kind := if va then .src (.regs n true) .pair else .src (.regs n false) .uniform

/-- Copy-engine commands: constructor, function, whether slot a is an address, words in slot b, whether they begin with an
address (12 Table 12.2, 13 R255). -/
def copies : List (Co × Nat × Bool × Nat × Bool) :=
  [(.copyVv, 0x00, true, 3, true), (.copyVt, 0x01, true, 2, false), (.copyTv, 0x02, true, 2, false),
   (.copyTt, 0x03, false, 2, false), (.copyMc, 0x04, true, 3, false), (.copy2d, 0x05, false, 1, false),
   (.copyGath, 0x06, true, 4, false), (.copyFill, 0x07, true, 2, false), (.xfTr, 0x09, true, 4, false),
   (.xfPlane, 0x0A, false, 2, false), (.xfDeq, 0x0B, false, 2, false), (.dcmp, 0x0C, false, 1, false)]

/-- Tower-memory commands (16 Table 16.1). -/
def towers : List (Co × Nat × Nat × Bool) :=
  [(.tmAdd, 0x40, 3, true), (.tmMin, 0x41, 3, true), (.tmMax, 0x42, 3, true), (.tmCas, 0x43, 2, false), (.tmSacc, 0x44, 4, true)]

def copyStatForm (a : BitVec 8) (r : BitVec 7) : Form :=
  { coForm 0x0D a 0 r (.reply 4) .uniform .unused with
    bad3 := !(decide (0x40 ≤ r.toNat) && decide (r.toNat ≤ 0x7C) && r.toNat % 2 == 0) }

def copyOvForm (a b : BitVec 8) (r : BitVec 7) : Form := copyForm 0x08 a b r true (.block 3)

/-- A queued Oven command whose own checks pass: with fewer than 16 queued and a queue to bind, it stands last in the
group's queue; with no queue free it is complete with NOQUEUE; with 16 queued, or behind a tile that waits for their number to
fall, the group stalls. -/
def OvenQueues (i : Instr) (f : Form) (func : Nat) (a : Ctx → DWord) (b : Ctx → List Word) (r : BitVec 7) (good : State → Ctx → Prop)
    (threads : Ctx → DWord := fun c => lowMask c.width) (reads : Ctx → Reads := Ctx.replyReads) : Prop :=
  ∀ (s : State) (g : Group), Runs s g f (reads := reads) →
    let c := s.ctxOf f g
    let stalls : Prop := 16 ≤ s.running g.id 4 ∨ ∃ x ∈ s.cmds, x.gid = g.id ∧ s.followWaits x ≠ none
    good s c →
    (¬ stalls → ((s.flush g).bindQueue (s.clusterOf g) g.id).2 = true →
      ∃ t h k x, exec i s = .next t ∧ t.cmds = (s.flush g).cmds ++ [k] ∧ Carried s c func (a c) (b c) r k ∧ k.phase = .issued ∧
        t.mem = (s.flush g).mem ∧ t.group? g.id = some h ∧ Released s g x ∧ PastCommand (c.later x) r 1 (threads c) h ∧
        h.opens = g.opens ++ [k.id] ∧ ∃ q ∈ (t.ovenOf (s.clusterOf g)).queues, q.gid = g.id ∧ q.cmds.getLast? = some k.id) ∧
    (¬ stalls → ((s.flush g).bindQueue (s.clusterOf g) g.id).2 = false →
      ∃ t h k, exec i s = .next t ∧ t.cmds = (s.flush g).cmds ++ [k] ∧ Carried s c func (a c) (b c) r k ∧ k.phase = .done ∧
        k.status = wordOf Status.noqueue ∧ t.mem = (s.flush g).mem ∧ t.group? g.id = some h ∧ h.arch.pc = g.arch.pc + 4 ∧
        h.phase = .ready ∧ h.opens = g.opens ++ [k.id]) ∧
    (stalls → exec i s = .next s)

/-- The rows that a control word names are mapped. -/
def mapped (s : State) (c : Ctx) (name row n : Nat) : Prop :=
  row + n ≤ 16 * ((s.ovenOf (s.clusterOf c.g)).banksOf c.tm.id name).length

def ctlA (c : Ctx) : DWord := dwordOf (c.read c.a 0).toNat

def goodTile (s : State) (c : Ctx) : Prop :=
  let t := tileWord (c.read c.a 0) (c.read c.b 0)
  tileBad (c.read c.a 0) (c.read c.b 0) = false ∧ mapped s c t.name (16 * t.rowb) t.m

def goodAcc (func : Nat) (s : State) (c : Ctx) : Prop :=
  let x := accWord (c.read c.a 0)
  accBad func (c.read c.a 0) = false ∧ mapped s c x.name x.row x.nr

/-- ACC.RD's form: a t or a g reply. -/
def accRdForm (a : BitVec 8) (r : BitVec 7) : Form := (ovenForm 0x2B a 0 r .uniform .unused).needReply r true false

def goodRead (r : BitVec 7) (s : State) (c : Ctx) : Prop :=
  let x := accWord (c.read c.a 0)
  accBad 0x2B (c.read c.a 0) = false ∧ (r.toNat < 0x40 → x.c0 + highest c.active ≤ 63) ∧ mapped s c x.name x.row 1

/-- The n bytes at the offset in slot a are aligned team memory. -/
def goodBlock (n : Nat) (c : Ctx) : Prop := offA c % 8 = 0 ∧ offA c + n ≤ c.tm.launch.tmem

def atOnceForm (func : Nat) (a : BitVec 8) (r : BitVec 7) (none' : Bool) : Form :=
  (ovenForm func a 0 r .uniform .unused).needReply r false none'

def allocForm (a b : BitVec 8) (r : BitVec 7) : Form := (ovenForm 0x28 a b r .uniform .uniform).needReply r false true

/-- The answer of a command that acts at once and may have no reply. -/
def Replied (g h : Group) (c : Ctx) (r : BitVec 7) (v : Word) : Prop :=
  (r.toNat < 0x7F → Answered g h c.dreg [v]) ∧ (r.toNat = 0x7F → h = at' g (g.arch.pc + 4))

/-! ## The Carousel (18 R345 to R356) -/

/-- A Carousel command that does not wait: with a good value and fewer than eight open it is issued, its reply block empty; with
eight open the group stalls. -/
def CarIssues (i : Instr) (f : Form) (func : Nat) (bad : Nat → Bool) (hasA hasB : Bool) (r : BitVec 7) : Prop :=
  ∀ (s : State) (g : Group), Runs s g f (reads := Ctx.replyReads) →
    let c := s.ctxOf f g
    let a := if hasA then (c.read c.a 0).toNat else 0
    (bad a = false → s.carOpen g.id < 8 →
      ∃ t h k x, exec i s = .next t ∧ t.cmds = (s.flush g).cmds ++ [k] ∧
        Carried s c func (dwordOf a) (if hasB then [c.read c.b 0] else []) r k ∧ k.phase = .issued ∧
        t.mem = (s.flush g).mem ∧ t.group? g.id = some h ∧ Released s g x ∧ PastCommand (c.later x) r 4 (lowMask c.width) h ∧
        h.opens = g.opens) ∧
    (bad a = false → 8 ≤ s.carOpen g.id → exec i s = .next s) ∧
    (bad a = true → exec i s = .next (s.trapForm f (s.issueOf f g) 0x07 0x04 0))

def carOneForm (func : Nat) (a : BitVec 8) (r : BitVec 7) : Form := carForm func a 0 r false .uniform .unused
def carTwoForm (func : Nat) (a b : BitVec 8) (r : BitVec 7) : Form := carForm func a b r false .uniform .uniform
def carZeroForm (func : Nat) (r : BitVec 7) : Form := carForm func 0 0 r false .unused .unused
def carWaitForm (func : Nat) (a b : BitVec 8) (r : BitVec 7) : Form := carForm func a b r true .uniform .deadline

/-- Commands with a value in a (18 R347 to R355): constructor, function, values that trap. -/
def carOnes : List ((BitVec 8 → BitVec 7 → Instr) × Nat × (Nat → Bool)) :=
  [(.carClr, 0x52, fun n => decide (4 ≤ n)),
   (.carCell, 0x53, fun n => bits n 12 4 != 0 || bits n 26 2 != 0 || bits n 30 2 != 0 || bits n 28 2 == 3),
   (.carDecide, 0x55, fun n => bits n 10 21 != 0), (.carBack, 0x57, fun n => decide (1024 < n)),
   (.carTrail, 0x59, fun n => decide (1024 ≤ n)), (.carVar, 0x5A, fun n => decide (1024 ≤ n))]

def carTwos : List (Co × Nat × (Nat → Bool)) :=
  [(.carCol, 0x54, fun n => bits n 12 4 != 0 || bits n 27 5 != 0 || decide (1024 < bits n 16 11)),
   (.carLearn, 0x58, fun n => n == 0 || decide (1024 < n))]

/-- The Carousel of a group's cluster once the group has released its work. -/
def carOf (s : State) (g : Group) : Carousel := ((s.flush g).clusterRec (s.clusterOf g)).car

/-- A Carousel command that may wait: a value that its command does not have traps, and then a deadline with reserved bits; with
eight open the group stalls before the command is issued, and the count of its deadline starts there (02 R36, 18 R356). -/
def CarStops (i : Instr) (f : Form) (bad : Nat → Bool) : Prop :=
  ∀ (s : State) (g : Group), Runs s g f (reads := Ctx.replyReads) → g.wait = none →
    let c := s.ctxOf f g
    let a := (c.read c.a 0).toNat
    (bad a = true → exec i s = .next (s.trapForm f (s.issueOf f g) 0x07 0x04 0)) ∧
    (bad a = false → s.arm g (c.readPair c.b 0) = none → exec i s = .next (s.trapForm f (s.issueOf f g) 0x07 0x03 0)) ∧
    (bad a = false → (s.arm g (c.readPair c.b 0)).isSome = true → 8 ≤ s.carOpen g.id →
      exec i s = .next (s.putGroup { g with firstIssue := some (g.firstIssue.getD (g.cclk, s.wall)) }))

/-- A Carousel command that waits under its deadline: it is issued and its group waits for it; `left` is what its first check has
done. -/
def CarWaits (i : Instr) (f : Form) (func : Nat) (bad : Nat → Bool) (obj : Nat → WaitObj) (r : BitVec 7)
    (behind : State → Group → Prop) (left : State → Ctx → Cmd → State → Prop) : Prop :=
  ∀ (s : State) (g : Group), Runs s g f (reads := Ctx.replyReads) → g.wait = none →
    let c := s.ctxOf f g
    let a := (c.read c.a 0).toNat
    bad a = false → ∀ dl, s.arm g (c.readPair c.b 0) = some dl → s.carOpen g.id < 8 →
      (if dl.wall then s.wall else g.cclk) < dl.limit → behind s g →
      ∃ t h k w x, exec i s = .next t ∧ t.cmds = (s.flush g).cmds ++ [k] ∧ Carried s c func (dwordOf a) [] r k ∧
        left s c k t ∧ t.group? g.id = some h ∧ Released s g x ∧
        ReplyEmpty (c.later x) (replyOf r.toNat) 4 (lowMask c.width) h ∧
        h.arch.pc = g.arch.pc ∧ h.phase = .waiting ∧ h.wait = some w ∧ w.obj = obj k.id ∧ w.limit = dl.limit ∧ w.dst = c.dreg

/-- The lease that CAR.ACQ asks for: 0 asks for 100,000 ns, and it is held between 1,000 ns and LEASEMAX (18 R342).
The model's choice for a default above LEASEMAX: log 60. -/
def leaseAsked (s : State) (c : Ctx) : Nat :=
  max 1000 (min (if (c.read c.a 0).toNat = 0 then 100000 else (c.read c.a 0).toNat) s.config.leaseMax)

/-- Another team holds the group's Carousel, its lease is not over, and no command stands in its order. -/
def heldByOther (s : State) (g : Group) : Prop :=
  (s.flush g).cmd? s.nextId = none ∧ (carOf s g).order = [] ∧
    (∃ o, (carOf s g).holder = some o ∧ o ≠ (s.teamOf g).id) ∧ (s.flush g).leaseOver ((s.flush g).clusterRec (s.clusterOf g)) = false

/-- The first check has performed CAR.ACQ: it is the last request of its Carousel (18 R342, R360). -/
def Requests (s : State) (c : Ctx) (k : Cmd) (t : State) : Prop :=
  let car := (t.clusterRec (s.clusterOf c.g)).car
  k.phase = .finishing ∧ car.holder = (carOf s c.g).holder ∧ car.order = [] ∧
    car.requests = (carOf s c.g).requests ++ [⟨c.g.id, c.tm.id, leaseAsked s c, k.id⟩]

/-- CAR.ACQ with nothing before it in the order, on a Carousel that is free or that its team holds under a lease that is not over:
it is done by its first check, whatever its limit, with the lease in the second word of its reply (18 R342, R343, R360, 02 R36). -/
def AcquiresAtOnce : Prop :=
  ∀ (a b : BitVec 8) (r : BitVec 7) (s : State) (g : Group),
    Runs s g (carWaitForm 0x50 a b r) (reads := Ctx.replyReads) → g.wait = none →
    let c := s.ctxOf (carWaitForm 0x50 a b r) g
    let car := carOf s g
    ∀ dl, s.arm g (c.readPair c.b 0) = some dl → s.carOpen g.id < 8 → car.order = [] → (s.flush g).cmd? s.nextId = none →
      (s.flush g).leaseOver ((s.flush g).clusterRec (s.clusterOf g)) = false →
      car.holder = some c.tm.id ∨ (car.holder = none ∧ car.requests = []) →
      ∃ t h x, exec (.carAcq a b r) s = .next t ∧ t.group? g.id = some h ∧ Released s g x ∧
        Answered x h c.dreg [0, wordOf (leaseAsked s c), 0, 0] ∧ (t.clusterRec (s.clusterOf g)).car.holder = some c.tm.id ∧
        (t.clusterRec (s.clusterOf g)).car.lease = leaseAsked s c

end Sys2Proof.Claims

/-- 12 R235, R237, R239, 13 R255, 16 R330: the commands of the copy engine and of the bank-side units. -/
def Sys2Proof.Claims.EngineCommands : Prop :=
  (∀ e ∈ copies, ∀ (a b : BitVec 8) (r : BitVec 7),
    CommandIssues (e.1 a b r) (coForm e.2.1 a b r (.reply 1) (if e.2.2.1 then .va else .uniform) (blockKind e.2.2.2.1 e.2.2.2.2))
      3 32 e.2.1 (addrA e.2.2.1) (blockB e.2.2.2.1) r) ∧
  ∀ e ∈ towers, ∀ (a b : BitVec 8) (r : BitVec 7),
    CommandIssues (e.1 a b r) (coForm e.2.1 a b r (.reply 1) .va (blockKind e.2.2.1 e.2.2.2)) 5 32 e.2.1
      (addrA true) (blockB e.2.2.1) r

/-- 12 R244, R252: COPY.OV with a good Oven word whose rows are mapped issues its copy and, dormant behind it, its tile, and both count
as open commands of the group, which is the model's reading (log 56); a word that is no tile without a reply traps. COPY.STAT's block of four words is empty until it is delivered. -/
def Sys2Proof.Claims.CopyOvStat : Prop :=
  (∀ (a b : BitVec 8) (r : BitVec 7) (s : State) (g : Group), Runs s g (copyOvForm a b r) (reads := Ctx.replyReads) →
    let c := s.ctxOf (copyOvForm a b r) g
    let w := c.read (c.b.above 2) 0
    let x := s.issueOf (followForm w) g
    let oc := x.ctx w c.room
    let ctl := oc.read oc.a 0
    let k := oc.read oc.b 0
    let t := tileWord ctl k
    (followBad w = true → exec (.copyOv a b r) s =
      .next (s.trapForm (copyOvForm a b r) (s.issueOf (copyOvForm a b r) g) 0x01 0x02 0)) ∧
    (followBad w = false → (followForm w).wordCheck = none → (followForm w).outOfBounds x = false →
      (followForm w).ranksIllegal x.mode = false → (followForm w).emptySlot oc oc.activeReads false = none →
      tileBad ctl k = false → mapped s c t.name (16 * t.rowb) t.m → s.running g.id 3 < 32 →
      ∃ u h y z v, exec (.copyOv a b r) s = .next u ∧ u.cmds = (s.flush g).cmds ++ [y, z] ∧
        Carried s c 0x08 (addrA true c) (blockB 3 c) r y ∧ y.phase = .issued ∧ y.follow = some z.id ∧
        z.func = bits w.toNat 23 7 ∧ z.a = dwordOf ctl.toNat ∧ z.b = [k] ∧ z.reply = .none ∧ z.phase = .dormant ∧
        u.group? g.id = some h ∧ Released s g v ∧ PastCommand (c.later v) r 1 (lowMask c.width) h ∧
        h.opens = g.opens ++ [y.id, z.id])) ∧
  ∀ (a : BitVec 8) (r : BitVec 7) (s : State) (g : Group), Runs s g (copyStatForm a r) (reads := Ctx.replyReads) →
    let c := s.ctxOf (copyStatForm a r) g
    ∃ t h d, exec (.copyStat a r) s = .next t ∧ SameMemory s t ∧ t.group? g.id = some h ∧
      PastCommand c r 4 (lowMask c.width) h ∧ h.opens = g.opens ∧ t.deliveries = s.deliveries ++ [d] ∧ d.gid = g.id ∧
      d.product = .values ((List.range 4).map fun j => (.g (r.toNat - 0x40 + j), (s.copyStat g (c.read c.a 0)).getD j 0))

/-- 15 R296, R305 to R317: the queued commands of the Oven. -/
def Sys2Proof.Claims.OvenCommands : Prop :=
  ∀ (a b : BitVec 8) (r : BitVec 7),
    OvenQueues (.ovFmt a r) (ovenForm 0x20 a 0 r .uniform .unused) 0x20 ctlA (fun _ => []) r
      (fun s c => goodBlock 64 c ∧ (ovenFormats (s.view c.g s.nextId (.team c.tm.id (offA c)) 64)).isSome = true) ∧
    OvenQueues (.ovA a r) (ovenForm 0x21 a 0 r .va .unused) 0x21 (addrA true) (fun _ => []) r (fun _ _ => True) ∧
    OvenQueues (.ovB a r) (ovenForm 0x22 a 0 r .va .unused) 0x22 (addrA true) (fun _ => []) r (fun _ _ => True) ∧
    OvenQueues (.ovIdx a r) (ovenForm 0x23 a 0 r .uniform .unused) 0x23 ctlA (fun _ => []) r
      (fun _ c => offA c = 0xFFFFFFFF ∨ goodBlock 128 c) ∧
    OvenQueues (.ovTile a b r) (ovenForm 0x24 a b r .uniform .uniform) 0x24 ctlA (fun c => [c.read c.b 0]) r goodTile ∧
    OvenQueues (.ovChain a b r) (ovenForm 0x25 a b r .uniform .uniform) 0x25 ctlA (fun c => [c.read c.b 0]) r goodTile ∧
    OvenQueues (.accZero a r) (ovenForm 0x2A a 0 r .uniform .unused) 0x2A ctlA (fun _ => []) r (goodAcc 0x2A) ∧
    OvenQueues (.accWr a b r) (ovenForm 0x2C a b r .uniform (blockKind 3 true)) 0x2C ctlA (blockB 3) r (goodAcc 0x2C) ∧
    OvenQueues (.accSt a b r) (ovenForm 0x2D a b r .uniform (blockKind 3 true)) 0x2D ctlA (blockB 3) r (goodAcc 0x2D) ∧
    OvenQueues (.accRd a r) (accRdForm a r) 0x2B ctlA (fun _ => []) r (goodRead r) Ctx.active Ctx.activeReads

/-- 15 R301, R318 to R320: the Oven instructions that answer at once. ACC.ALLOC maps free banks, or answers NOBANKS and changes
nothing; ACC.FREE unmaps a name, whose banks drain; OV.STAT reports and clears conditions; OV.TOKEN and ACC.MAP report. -/
def Sys2Proof.Claims.OvenAnswers : Prop :=
  ∀ (a b : BitVec 8) (r : BitVec 7) (s : State) (g : Group),
    (Runs s g (atOnceForm 0x26 a r false) →
      let c := s.ctxOf (atOnceForm 0x26 a r false) g
      ∃ t h v, exec (.ovStat a r) s = .next t ∧ SameMemory s t ∧ t.group? g.id = some h ∧ Answered g h c.dreg [v] ∧
        ((s.ovenOf (s.clusterOf g)).queueOf g.id = none → v = wordOf (s.running g.id 4 * 2 ^ 16 + 0xFF00)) ∧
        ∀ q, (s.ovenOf (s.clusterOf g)).queueOf g.id = some q →
          v = wordOf (s.running g.id 4 * 2 ^ 16 + q.num * 2 ^ 8 + q.cond.toNat) ∧
          ((t.ovenOf (s.clusterOf g)).queueOf g.id).map (·.cond) = some (q.cond &&& ~~~ (c.read c.a 0).setWidth 6)) ∧
    (Runs s g (atOnceForm 0x27 a r false) →
      let c := s.ctxOf (atOnceForm 0x27 a r false) g
      let n := offA c
      let o := s.ovenOf (s.clusterOf g)
      n < 4 → Answers (.ovToken a r) s g c
        [wordOf (sat (o.tokens.getD n 0 / 64) 0xFFFF * 2 ^ 16 + sat (((o.queueOf g.id).map fun q => q.waited.getD n 0).getD 0) 0xFFFF)]) ∧
    (Runs s g (atOnceForm 0x2F a r false) →
      let c := s.ctxOf (atOnceForm 0x2F a r false) g
      let o := s.drained (s.clusterOf g)
      let banks := o.banksOf c.tm.id (offA c)
      let users := (s.pendingOn (s.clusterOf g)).filter fun x => x.banks.any banks.contains
      let mine := o.draining.filter fun d => d.1 == c.tm.id
      offA c < 16 → Answers (.accMap a r) s g c
        [wordOf (banks.length + min users.length 255 * 2 ^ 8 + min mine.length 255 * 2 ^ 16 +
          min o.freeBanks.length 255 * 2 ^ 24)]) ∧
    (Runs s g (atOnceForm 0x29 a r true) →
      let c := s.ctxOf (atOnceForm 0x29 a r true) g
      let o := s.drained (s.clusterOf g)
      offA c < 16 → ∃ t h, exec (.accFree a r) s = .next t ∧ SameMemory s t ∧ t.group? g.id = some h ∧ Replied g h c r 0 ∧
        (t.ovenOf (s.clusterOf g)).banksOf c.tm.id (offA c) = [] ∧
        ∀ k ∈ o.banksOf c.tm.id (offA c), (c.tm.id, offA c, k) ∈ (t.ovenOf (s.clusterOf g)).draining) ∧
    (Runs s g (allocForm a b r) →
      let c := s.ctxOf (allocForm a b r) g
      let n := (c.read c.b 0).toNat
      let o := s.drained (s.clusterOf g)
      let held := ((o.maps.find? (·.team == c.tm.id)).map fun m => m.names.flatten.length).getD 0
      let room : Prop := n ≤ o.freeBanks.length ∧ held - (o.banksOf c.tm.id (offA c)).length + n ≤ 64 ∧
        ((∃ m ∈ o.maps, m.team = c.tm.id) ∨ o.maps.length < 64)
      offA c < 16 → 1 ≤ n → n ≤ 4 → ∃ t h v, exec (.accAlloc a b r) s = .next t ∧ SameMemory s t ∧ t.group? g.id = some h ∧
        Replied g h c r v ∧ (¬ room → v = wordOf Status.nobanks ∧ t.clusters = s.clusters) ∧
        (room → (∀ m ∈ o.maps, m.team = c.tm.id → m.names.length = 16) →
          v = 0 ∧ (t.ovenOf (s.clusterOf g)).banksOf c.tm.id (offA c) = o.freeBanks.take n))

/-- 18 R342 to R356, 02 R36: the commands of the Carousel are issued with their reply blocks empty; CAR.ACQ and CAR.PROP take the
traps of their value and deadline, stall with eight open, and wait under their deadlines. The first check of CAR.ACQ performs it:
it is done at once on a Carousel that is free or that its team holds, and waits as the last request on one that another team holds. -/
def Obligations.CarouselCommands : Prop :=
  ∀ (a b : BitVec 8) (r : BitVec 7),
    (∀ e ∈ carOnes, CarIssues (e.1 a r) (carOneForm e.2.1 a r) e.2.1 e.2.2 true false r) ∧
    (∀ e ∈ carTwos, CarIssues (e.1 a b r) (carTwoForm e.2.1 a b r) e.2.1 e.2.2 true true r) ∧
    CarIssues (.carRel r) (carZeroForm 0x51 r) 0x51 (fun _ => false) false false r ∧
    CarIssues (.carStat r) (carZeroForm 0x5B r) 0x5B (fun _ => false) false false r ∧
    CarStops (.carAcq a b r) (carWaitForm 0x50 a b r) (fun _ => false) ∧
    CarStops (.carProp a b r) (carWaitForm 0x56 a b r) (fun n => decide (1024 < n)) ∧
    CarWaits (.carAcq a b r) (carWaitForm 0x50 a b r) 0x50 (fun _ => false) .carAcq r heldByOther Requests ∧ AcquiresAtOnce ∧
    CarWaits (.carProp a b r) (carWaitForm 0x56 a b r) 0x56 (fun n => decide (1024 < n)) .carProp r (fun _ _ => True)
      fun _ _ k _ => k.phase = .issued

namespace Sys2Proof.Claims

/-! ## Events of the waits, the memory system and the engines -/

/-- The register writes of a reply word, in a group of a width: a t reply in every thread. -/
def replyWord (h : Group) (width : Nat) (r : Reply) (v : Word) : Prop :=
  match r with
  | .none => True
  | .g n => h.arch.g.getD n ⟨0, true⟩ = ⟨v, true⟩
  | .t n => ∀ i, i < width → i < 64 → (h.arch.t.getD n Ranked.zero).at i = (v, true)

/-- The machine once the message of a request on a connection is taken: the connection is open, or is opened while its port has
fewer than 4,096; none where the request is dropped (22 R395). -/
def taken (s : State) (conn : Nat × Nat) : Option State :=
  if conn ∈ s.connections then some s.pop
  else if conn.1 < 4 ∧ (s.connections.filter (·.1 == conn.1)).length < 4096 then
    some { s.pop with connections := s.connections ++ [conn] }
  else none

/-- A request that is dropped is counted, and nothing is answered. -/
def dropped (s : State) (conn : Nat × Nat) : State := { s.pop with drops := s.drops.modify conn.1 (· + 1) }

/-- A state is reached with a reply that carries no DETAIL, after those of the context's requests performed before. -/
def answers (s : State) (conn : Nat × Nat) (op ctx : Nat) (tag : DWord) (status : Nat) (body : List Byte) : State :=
  s.sendReplies ctx [⟨conn, op, ctx, tag, wordOf status, 0, body⟩]

/-- A command whose operands are read is accepted, or its check gives it its status. -/
def decided (c : Cmd) (tm : Team) : Cmd :=
  match c.acceptance tm with
  | none => { c with phase := .accepted }
  | some (st, sub) => { c with phase := .finishing, status := wordOf st, sub := wordOf sub }

/-- What an audit finds: one team with one open queue, and no link. -/
def audited (s : State) (tm : Team) (q : QueueDecl) (h : QueueHeader) : Prop :=
  s.links = [] ∧ s.teams = [tm] ∧ tm.queues = [q] ∧ s.openQueue tm.id q.num = some (q, h) ∧ s.team? tm.id = some tm

end Sys2Proof.Claims

/-- 03 R52, 07 R172, 09 R192, R194: a blocked read whose limit has passed goes on to its trap; a wait whose limit has passed and whose
object is not satisfied ends with its timeout, after which a group with ESC takes the deadline trap; a wait for the Carousel does
so where its check performs nothing. A spurious firing makes a WAITMEM look again. -/
def Sys2Proof.Claims.WaitEvents : Prop :=
  ∀ (gid : Nat) (s : State) (g : Group), s.group? gid = some g →
    (g.readExpired = true → exec (.registerWaitExpired gid) s = .next (s.putGroup { g with phase := .ready })) ∧
    (g.readExpired = false → exec (.registerWaitExpired gid) s = .next s) ∧
    (s.inputs.head? ≠ some (.spuriousFiring gid) → g.watches = true →
      exec (.spuriousFiring gid) s = .next (s.putGroup { g with phase := .ready })) ∧
    ∀ w, g.wait = some w → s.timedWait g = true →
      (w.onWord = true → exec (.waitTimeout gid) s = .next (s.putGroup { g with phase := .ready })) ∧
      (w.onWord = false → s.satisfied g w = none → w.obj.timeless = false → s.propAtHead w = false →
        (w.obj.onCarousel = true → s.tryCar g w = s) → ((s.withdraw g w).2.map (·.1)).Nodup →
        (g.arch.esc = false → g.arch.timeouts < 15 →
          ∃ h, exec (.waitTimeout gid) s = .next ((s.withdraw g w).1.putGroup h) ∧ AnsweredAt g h (s.withdraw g w).2) ∧
        (g.arch.esc = true →
          ∃ h, exec (.waitTimeout gid) s = .next ((s.withdraw g w).1.plainTrap h 0x08 0
            (dwordOf (w.obj.identity (s.clusterOf g))).toNat) ∧ AnsweredAt g h (s.withdraw g w).2))

/-- 07 R153, 09 R200, R209, R211, 14 R275: a shootdown whose page no access uses any more leaves no translation register of its context
on the page, and no cached translation where no image was searched; a promotion makes its stores visible, in memory or, for pages of
DOM 2, in the cluster's L2; a permit
returns to its send entry; a message lands at TAIL; a write to RLFREE frees an entry. -/
def Sys2Proof.Claims.MemoryEvents : Prop :=
  (∀ (k : Nat) (s : State) (x : Shootdown), s.shootdowns.find? (·.id == k) = some x → s.shotBusy x.ctx x.va.toNat = false →
    ∃ t, exec (.shootdownComplete k) s = .next t ∧ t.shootdowns = s.shootdowns.filter (·.id != k) ∧
      (∀ g ∈ t.groups, (t.teamOf g).ctx = x.ctx → (∀ y ∈ g.arch.xl, y.shot x.va.toNat = y) ∧
        ∀ a, g.himage = some a → ∀ y ∈ a.xl, y.shot x.va.toNat = y) ∧
      ((∀ g ∈ s.groups, (s.teamOf g).ctx = x.ctx → g.live = true → (g.here && !g.super && !g.inImage) = true) → t.mem = s.mem ∧
        (∀ c ∈ t.cores, ∀ e ∈ c.tlb, e.covers x.ctx x.va.toNat = false) ∧
        ∀ d ∈ t.dies, ∀ e ∈ d.tlb, e.covers x.ctx x.va.toNat = false)) ∧
  (∀ (k : Nat) (s : State) (p : Promotion), s.promotions.find? (·.id == k) = some p → s.mayPromote p = true →
    (s.stores.map (·.id)).Nodup → s.reductions = [] →
    ∃ t, exec (.promotionComplete k) s = .next t ∧ t.groups = s.groups ∧ t.promotions = s.promotions.filter (·.id != k) ∧
      ∀ e ∈ t.stores, e.id ∈ p.stores → e.dom = 2 ∧ (∃ a, e.loc = .phys a) ∧ ∃ j, e.seenAt = some j ∧ 2 ≤ j) ∧
  (∀ (k : Nat) (s : State) (p : Permit) (tm : Team) (e : SendEntry), s.permits.find? (·.id == k) = some p →
    s.team? p.team = some tm → tm.sends[p.entry]? = some e →
    ∃ t u, exec (.permitLands k) s = .next t ∧ t.permits = s.permits.filter (·.id != k) ∧ t.team? p.team = some u ∧
      u.sends[p.entry]? = some { e with permits := e.permits + 1 } ∧ u.mem = tm.mem ∧ t.groups = s.groups ∧ t.mem = s.mem) ∧
  (∀ (k : Nat) (s : State) (a : Append) (q : QueueDecl) (h : QueueHeader), s.canonical →
    s.appends.find? (·.id == k) = some a → s.mayAppend a = true → s.openQueue a.team a.queue = some (q, h) →
    a.msg.length = 4 →
    let slot := h.ring + 32 * (h.tail % h.slots)
    (slot + 20 ≤ q.hdr + 0x0C ∨ q.hdr + 0x10 ≤ slot) →
    ∃ t, exec (.appendLands k) s = .next t ∧ t.appends = s.appends.filter (·.id != k) ∧ t.groups = s.groups ∧ t.mem = s.mem ∧
      (t.teamMem a.team).value (q.hdr + 0x0C) 4 = (h.tail + 1) % 2 ^ 32 ∧
      (t.teamMem a.team).value (slot + 16) 4 = a.sender.toNat ∧
      ∀ i, i < 4 → (t.teamMem a.team).value (slot + 4 * i) 4 = (a.msg.getD i 0).toNat) ∧
  ∀ (ctx j : Nat) (s : State) (x : Context), j < 256 → s.context? ctx = some x →
    ∃ t, exec (.rlfree ctx j) s = .next t ∧ SameMemory s t ∧ t.groups = s.groups ∧
      t.context? ctx = some { x with rlog := x.rlog.filter (· != j) }

/-- 12 R236, R248 to R250, 13 R264, 16 R332: a command is accepted with its descriptor as it then stands, or with the words of its job card
as each stood when it was read, or its check gives it its status; a unit of a copy is moved whole, to team memory or through the
context's translation, and a tagged line stops it; a complete command writes its status to its reply. That every source byte is read,
and every unit planned, in the step in which the work of a command starts is the model's reading (log 55), and so is that the words of
a job card are read in several steps (log 134). -/
def Sys2Proof.Claims.CopyEvents : Prop :=
  ∀ (k : Nat) (s : State) (c : Cmd), s.cmd? k = some c →
    (s.mayAccept c = true → funcClass c.func = 3 → ∀ tm, s.team? c.team = some tm →
      (c.named tm = none → exec (.commandAccepted k) s = .next (s.putCmd (decided c tm))) ∧
      ∀ off n, c.named tm = some (off, n) →
        (c.func ≠ 0x0C →
          exec (.commandAccepted k) s = .next (s.putCmd (decided { c with block := tm.mem.read off n } tm))) ∧
        (c.func = 0x0C → c.cardLeft ≠ [] → ∃ t d now, exec (.commandAccepted k) s = .next t ∧ SameMemory s t ∧
          t.groups = s.groups ∧ t.cmd? k = some d ∧ now ≠ [] ∧ (∀ j ∈ now, j ∈ c.cardLeft) ∧
          let c' := { c with card := c.card ++ now.map fun j => (j, wordOf (tm.mem.value (off + 4 * j) 4)) }
          d = if c'.cardLeft = [] then decided { c' with block := c'.cardBytes } tm else c')) ∧
    (s.mayAccept c = true → funcClass c.func = 5 →
      (c.tmBad = true → exec (.commandAccepted k) s = .next (s.putCmd { c with phase := .finishing, status := 9 })) ∧
      (c.tmBad = false → ∀ tm, s.team? c.team = some tm → (c.func = 0x43 ∨ c.tmSt = false ∨ c.tmSource + 64 * c.tmLines ≤ tm.launch.tmem) →
        exec (.commandAccepted k) s = .next (s.putCmd { c with phase := .accepted })) ∧
      (c.tmBad = false → ∀ tm, s.team? c.team = some tm → c.func ≠ 0x43 → c.tmSt = true → tm.launch.tmem < c.tmSource + 64 * c.tmLines →
        exec (.commandAccepted k) s = .next (s.putCmd { c with phase := .finishing, status := 8, sub := 7 }))) ∧
    (s.mayMove c = true → c.follow = none → c.started = false → ∃ t d, exec (.engineUnitMoved k) s = .next t ∧ t.cmd? k = some d ∧
      d.started = true ∧ d.units = ((s.countTurn c).planCmd c).2.1.units ∧ t.mem = ((s.countTurn c).planCmd c).1.mem ∧
      t.teams = ((s.countTurn c).planCmd c).1.teams) ∧
    (s.mayMove c = true → c.follow = none → c.started = true → c.units = [] →
      exec (.engineUnitMoved k) s = .next ((s.countTurn c).putCmd { c with phase := .finishing })) ∧
    (∀ u rest tm off, s.mayMove c = true → c.follow = none → c.started = true → c.units = u :: rest → u.dest = .team off →
      u.bytes ≠ [] → s.team? c.team = some tm → tm.mem.wf = true →
      (tm.meetsTag off u.bytes.length = false → c.barrier = none →
        ∃ t d v, exec (.engineUnitMoved k) s = .next t ∧ t.cmd? k = some d ∧ d.units = rest ∧ t.team? c.team = some v ∧
          (∀ a, v.mem.get a = byteAfter tm.mem off u.bytes a) ∧ t.mem = s.mem ∧ t.groups = s.groups) ∧
      (tm.meetsTag off u.bytes.length = true → c.func ≠ 0x04 → ∃ t d, exec (.engineUnitMoved k) s = .next t ∧ t.cmd? k = some d ∧
        d.status = wordOf Status.clobbered ∧ d.progress = wordOf (c.unitStart u) ∧ (∀ v ∈ d.units, v.stream ≠ u.stream) ∧ SameMemory s t)) ∧
    (∀ u rest a v, s.mayMove c = true → c.follow = none → c.started = true → c.units = u :: rest → u.dest = .va a →
      (s.countTurn c).engineWrite c.ctx c.core c.priv a.toNat u.bytes u.bits = (v, .ok ()) →
      ∃ t d, exec (.engineUnitMoved k) s = .next t ∧ t.cmd? k = some d ∧ d.units = rest ∧ t.mem = v.mem ∧ t.teams = v.teams) ∧
    (s.mayComplete c = true → funcClass c.func = 3 → c.follow = none → c.func ≠ 0x0C → c.barrier = none →
      ∀ g, s.group? c.gid = some g → g.team = c.team → g.live = true → g.inImage = false → g.super = (c.priv == 1) →
      ∃ t d h, exec (.commandComplete k) s = .next t ∧ t.cmd? k = some d ∧ d.phase = .done ∧ d.status = c.finalStatus.status ∧
        t.group? c.gid = some h ∧ replyWord h (s.teamOf g).launch.width c.reply c.finalStatus.status ∧ SameMemory s t)

/-- 15 R298, R305 to R307, R317: an Oven's turn serves the head command of the next queue, and remembers the queue: formats, bases and
index lists take effect, a tile without its setup ends BADCMD, ACC.ZERO clears its elements, ACC.RD writes its element to its reply.
16 R328, R331, R334: a line of a bank-side command is performed whole at its bank, and an exchange gives the old word. -/
def Sys2Proof.Claims.OvenEvents : Prop :=
  (∀ (cluster num : Nat) (s : State) (q : OvenQueue) (c : Cmd),
    s.nextTurn (s.ovenOf cluster) = some q → q.num = num → s.headOf q = some c →
    exec (.ovenTurn cluster num) s = .next ((s.onOven cluster fun o => { o with last := num }).serve c q)) ∧
  (∀ (cluster num : Nat) (s : State) (q : OvenQueue) (c : Cmd),
    s.nextTurn (s.ovenOf cluster) = some q → q.num = num → s.headOf q = some c → c.cluster = cluster → c.gid = q.gid → c.reply = .none →
    (c.func = 0x20 ∨ c.func = 0x21 ∨ c.func = 0x22 ∨ c.func = 0x23 ∨ c.func = 0x2A ∨ (c.isTile = true ∧ tileUnready q c = true)) →
    ∃ t d, exec (.ovenTurn cluster num) s = .next t ∧ t.cmd? c.id = some d ∧ d.phase = .done ∧
      d.status = (if c.isTile then 9 else 0) ∧ SameMemory s t ∧ (t.ovenOf cluster).last = num ∧
      (c.func = 0x20 → ((t.ovenOf cluster).queueOf c.gid).bind (·.fmt) = ovenFormats c.block) ∧
      (c.func = 0x21 → ((t.ovenOf cluster).queueOf c.gid).bind (·.aBase) = some c.a) ∧
      (c.func = 0x22 → ((t.ovenOf cluster).queueOf c.gid).bind (·.bBase) = some c.a) ∧
      (c.func = 0x23 → ((t.ovenOf cluster).queueOf c.gid).bind (·.idx) = if c.a.toNat = 0xFFFFFFFF then none
        else some ((List.range 64).map fun r => BitVec.ofNat 16 (fieldOf c.block (2 * r) 2))) ∧
      (c.func = 0x2A → let x := accWord (wordOf c.a.toNat)
        ∀ i, i < x.nr → ∀ col ∈ x.cols, (t.ovenOf cluster).element (accKey c.banks (x.row + i) col) = 0)) ∧
  (∀ (cluster num : Nat) (s : State) (q : OvenQueue) (c : Cmd) (g : Group) (n : Nat),
    s.nextTurn (s.ovenOf cluster) = some q → q.num = num → s.headOf q = some c → c.cluster = cluster → c.gid = q.gid →
    c.func = 0x2B → c.reply = .g n → s.group? c.gid = some g → g.live = true → g.inImage = false → g.super = (c.priv == 1) →
    let x := accWord (wordOf c.a.toNat)
    let v := (s.ovenOf cluster).element (accKey c.banks x.row x.c0)
    ∃ t d h, exec (.ovenTurn cluster num) s = .next t ∧ t.cmd? c.id = some d ∧ d.phase = .done ∧ SameMemory s t ∧
      t.group? c.gid = some h ∧ h.arch.g.getD n ⟨0, true⟩ = ⟨if x.cv then wordOf (toBf16 v) else v, true⟩) ∧
  ∀ (k : Nat) (s : State) (c : Cmd) (u : CopyUnit) (pa : Nat), s.cmd? k = some c → s.lineReady c = true →
    s.stoppedCtx c.ctx = false → s.lineMoves c = [some u] → u.dest = .va (dwordOf pa) → pa < 2 ^ 64 → s.homePa pa = pa →
    u.bytes ≠ [] → s.stores = [] →
    ∃ t d, exec (.tmLineOperation k) s = .next t ∧ t.cmd? k = some d ∧ d.units = c.units.filter (·.stream != u.stream) ∧
      (c.func ≠ 0x43 → t.teams = s.teams ∧ t.groups = s.groups ∧
        t.mem = s.mem.write pa (c.tmLine (s.mem.read pa 64) u.bytes)) ∧
      (c.func = 0x43 → c.use ≠ 4 → ∀ g, s.group? c.gid = some g → g.team = c.team → g.live = true → g.inImage = false →
        g.super = (c.priv == 1) → s.team? c.team ≠ none →
        let old := wordOf (s.mem.value pa 4)
        d.replied = true ∧ t.teams = s.teams ∧ (∃ h, t.group? c.gid = some h ∧ replyWord h (s.teamOf g).launch.width c.reply old) ∧
        t.mem = if old = c.b.getD 0 0 then s.mem.write pa (bytesOf 4 (c.b.getD 1 0).toNat) else s.mem)

/-- 18 R342, R343, R350, R356: the Carousel performs its commands in order. A free one is granted to a CAR.ACQ; CAR.DECIDE of the holder
assigns a variable at a new level; a command of a team that does not hold it changes no array. A lease that runs out passes the
hold and marks the team. That a default lease keeps to LEASEMAX too is the model's reading (log 60). -/
def Sys2Proof.Claims.CarouselEvents : Prop :=
  (∀ (cluster : Nat) (s : State) (c : Cmd), s.carMoves cluster = [(c, true)] → c.cluster = cluster → c.func ≠ 0x50 →
    ∀ tm, s.team? c.team = some tm → tm.lapsed = false → s.leaseOver (s.clusterRec cluster) = false →
    let k := (s.clusterRec cluster).car
    (k.holder ≠ some c.team → ∃ t, exec (.carouselCommandPerformed cluster) s = .next t ∧
      let k' := (t.clusterRec cluster).car
      k'.holder = k.holder ∧ k'.cells = k.cells ∧ k'.used = k.used ∧ k'.trail = k.trail ∧ k'.level = k.level) ∧
    (k.holder = some c.team → c.func = 0x55 → ∃ t, exec (.carouselCommandPerformed cluster) s = .next t ∧
      let k' := (t.clusterRec cluster).car
      let v := bits c.a.toNat 0 10
      k'.holder = k.holder ∧ k'.cells = k.cells ∧
      ((k.value v).isSome = true → k'.trail = k.trail ∧ k'.level = k.level) ∧
      ((k.value v).isSome = false → k'.level = k.level + 1 ∧
        k'.trail = k.trail ++ [⟨v, bitAt c.a.toNat 31, k.level + 1, true, 0⟩]))) ∧
  (∀ (cluster : Nat) (s : State) (c : Cmd), s.carMoves cluster = [(c, true)] → c.cluster = cluster → c.func = 0x50 →
    (s.clusterRec cluster).car.holder = none → (s.clusterRec cluster).car.requests = [] →
    ∃ t, exec (.carouselCommandPerformed cluster) s = .next t ∧ SameMemory s t ∧
      let k' := (t.clusterRec cluster).car
      k'.holder = some c.team ∧ k'.lease = max 1000 (min (if c.a.toNat = 0 then 100000 else c.a.toNat) s.config.leaseMax) ∧
        k'.cells = [] ∧ k'.trail = [] ∧ k'.level = 0 ∧ k'.requests = []) ∧
  ∀ (cluster team : Nat) (s : State) (tm : Team), s.leaseOver (s.clusterRec cluster) = true →
    (s.clusterRec cluster).car.holder = some team → (s.clusterRec cluster).car.requests = [] → s.team? team = some tm →
    ∃ t u, exec (.leaseExpired cluster) s = .next t ∧ (t.clusterRec cluster).car.holder = none ∧
      t.team? team = some u ∧ u.lapsed = true ∧ SameMemory s t

namespace Sys2Proof.Claims

/-! ## Events of the Ringmaster -/

/-- The head of a die's queue and its room. -/
def served (s : State) (die : Nat) (tm : Team) (place : Option (Nat × List Place)) : Prop :=
  (s.dieRec die).head = some tm.id ∧ s.team? tm.id = some tm ∧ s.chooseHead tm (s.dieRec die).freed = place

end Sys2Proof.Claims

/-- 20 R366, R369, R370, R372, R379, R380, 10 R231: placement gives a team's groups their places; a team starts when its Proofer is done,
or ends with the Proofer's status; a team with every group ended retires; a bin whose time has run out launches its threads; an
event record that has aged interrupts; a task whose ranges are all resident once one has been brought in has its teams queued, and
while a queued team's ranges are not it is not placed, but they are brought in again. The model's choices: a freed core that no head
fits on is forgotten once it was served (log 48), and evicted ranges of a queued team come in again (log 31). -/
def Sys2Proof.Claims.RingmasterEvents : Prop :=
  (∀ (die : Nat) (s : State) (tm : Team),
    (served s die tm none → exec (.placement die) s = .next (s.putDie { s.dieRec die with freed := [] })) ∧
    ∀ core places, served s die tm (some (core, places)) → s.groupsOf tm.id = [] →
      ∃ t u, exec (.placement die) s = .next t ∧ t.team? tm.id = some u ∧ u.life = .proofing ∧ u.core = some core ∧
        (t.groupsOf tm.id).map (·.place) = places.map some ∧
        ∀ g ∈ t.groupsOf tm.id, g.phase = .starting ∧ g.arch.pc = tm.launch.entry ∧ g.arch.mode = launchMode) ∧
  (∀ (id : Nat) (s : State) (tm : Team), s.team? id = some tm → s.mayStart tm = true →
    (∀ u, s.proofer tm = (u, none) → u.team? id ≠ none → ∃ t v, exec (.teamStart id) s = .next t ∧ t.team? id = some v ∧
      v.life = .running ∧ t.groups = u.groups.map fun g =>
        if g.team = id ∧ g.phase = .starting then { g with phase := .ready, cclk := 0 } else g) ∧
    ∀ u step func e, s.proofer tm = (u, some (step, func, e)) → u.team? id ≠ none →
      ∃ t v, exec (.teamStart id) s = .next t ∧ t.team? id = some v ∧ v.life = .ended ∧
        v.proof = some (wordOf e.1, wordOf (step * 2 ^ 24 + func * 2 ^ 16 + e.2 % 256)) ∧
        ∀ g ∈ t.groups, g.team = id → g.phase = .ended) ∧
  (∀ (id : Nat) (s : State) (tm : Team), s.team? id = some tm → s.mayRetire tm = true →
    (s.tasks.find? fun t => t.ctx == tm.ctx && t.tcb == tm.tcb) = none →
    ∃ t, exec (.retirement id) s = .next t ∧ (∀ u ∈ t.teams, u.id = id → u.life = .retired) ∧
      (∀ g ∈ t.groups, g.team ≠ id) ∧ t.tasks = s.tasks) ∧
  (∀ (die n : Nat) (s : State) (b : Bin), (s.dieRec die).bins[n]? = some b → b.expired s.wall = true →
    s.stoppedCtx b.ctx = false → b.args ≠ [] → s.pendingTeams (s.dieRec die) < 4096 →
    ∃ t u, exec (.binTimerExpired die n) s = .next t ∧ t.teams = s.teams ++ [u] ∧ u.spawnArgs = b.args ∧ u.launch = b.launch ∧
      u.life = .queued ∧ (t.dieRec die).fresh = (s.dieRec die).fresh ++ [u.id] ∧ SameMemory s t) ∧
  (∀ (die : Nat) (s : State), (s.dieRec die).ring.aged s.wall = true → ∃ t, exec (.eventRingAgeInterrupt die) s = .next t ∧
    (t.dieRec die).ring = { (s.dieRec die).ring with interrupts := (s.dieRec die).ring.interrupts + 1, fresh := [] } ∧
    t.hearthEvents = s.hearthEvents + 1 ∧ SameMemory s t) ∧
  (∀ (k : Nat) (s : State) (tm : Team) (r : DWord × DWord) (rest : List (DWord × DWord)),
    s.inputs.head? ≠ some (.rangeBroughtIn k) → s.headWaiters.head? = some tm → tm.id = k →
    s.absentRanges tm.ctx tm.launch = r :: rest →
    exec (.rangeBroughtIn k) s = .next (s.bringIn tm.ctx r.1.toNat r.2.toNat)) ∧
  ∀ (k : Nat) (s : State) (x : Task) (r : DWord × DWord) (rest : List (DWord × DWord)),
    s.inputs.head? ≠ some (.rangeBroughtIn k) → s.headWaiters = [] → s.rangeWaiters.head? = some x → x.id = k →
    x.pendingRanges ++ s.absentRanges x.ctx x.launch = r :: rest →
    let u := s.bringIn x.ctx r.1.toNat r.2.toNat
    let left := u.absentRanges x.ctx x.launch
    (left ≠ [] ∨ u.isGang x.ctx x.tcb = true →
      exec (.rangeBroughtIn k) s = .next (u.putTask { x with pendingRanges := left })) ∧
    (left = [] → u.isGang x.ctx x.tcb = false → ∃ t new, exec (.rangeBroughtIn k) s = .next t ∧ t.mem = u.mem ∧
      t.teams = u.teams ++ new ∧ new.length = x.launch.teams ∧
      (∀ tm ∈ new, tm.life = .queued ∧ tm.ctx = x.ctx ∧ tm.tcb = x.tcb ∧ tm.launch = x.launch) ∧
      ∀ y ∈ t.tasks, y.id = k → y = { x with pendingRanges := [], queued := true })

/-- 20 R383, 14 R271, R279, R280, 09 R213: a gang that fits and whose start has come is placed and reported, or reported LATE; before its
start room is made, which is the model's reading (log 68); after its slice its running teams stop, wherever they stand. A watchdog that
runs out stops its team and makes its trap due; the traps of the watchdog and of a lost permit are taken by the team's lowest live
group. The audit closes a queue whose sum differs from its total, and reports a link that has lost a credit to the Hearth monitor;
whether a link has lost one is the model's free value (log 92). -/
def Sys2Proof.Claims.GangAndWatchdogEvents : Prop :=
  (∀ (id : Nat) (s : State) (k : Gang) (x : Task), s.gangs.find? (·.id == id) = some k → s.gangWaits k = some x →
    s.gangFits x = true →
    (s.wall < k.start → exec (.gangStart id) s = .next (s.prepareGang x)) ∧
    (∀ u, k.start ≤ s.wall → s.gangStopping x = false → s.absentRanges x.ctx x.launch = [] → s.placeGang x = some u →
      ∃ t, exec (.gangStart id) s = .next t ∧ t.groups = u.groups ∧ t.teams = u.teams ∧
        t.reports = u.reports ++ [⟨k.pkt, 0, wordOf x.launch.teams, dwordOf (if k.late then u.wall else k.start)⟩]) ∧
    (k.start ≤ s.wall → s.gangStopping x = true ∨ s.absentRanges x.ctx x.launch ≠ [] ∨ s.placeGang x = none → k.strict = false → k.late = false →
      ∃ t time, exec (.gangStart id) s = .next t ∧ t.groups = s.groups ∧
        t.reports = s.reports ++ [⟨k.pkt, wordOf Status.late, 0, time⟩])) ∧
  (∀ (id : Nat) (s : State) (k : Gang), s.gangs.find? (·.id == id) = some k → s.sliceOver k = true → (s.teams.map (·.id)).Nodup →
    ∃ t, exec (.gangSliceExpired id) s = .next t ∧ SameMemory s t ∧ t.groups = s.groups ∧
      ∀ tm ∈ s.teams,
        let stops : Prop := tm.ctx = k.ctx ∧ tm.tcb = k.tcb ∧ tm.life = .running ∧ tm.placed < k.sliced.getD s.nextId
        (stops → t.team? tm.id = some { tm with life := .stopping }) ∧ (¬ stops → t.team? tm.id = some tm)) ∧
  (∀ (id : Nat) (s : State) (tm : Team), s.team? id = some tm → tm.wdogDue = true →
    ∃ t u, exec (.watchdogExpired id) s = .next t ∧ SameMemory s t ∧ t.groups = s.groups ∧ t.team? id = some u ∧
      u = { tm with wdogTrap := true, wdog := 0, life := .stopping }) ∧
  (∀ (id : Nat) (s : State) (tm : Team) (g : Group), s.team? id = some tm → tm.wdogTrap = true → s.asyncTarget tm = some g →
    exec (.watchdogTrap id) s =
      .next ((s.onTeam id fun t => { t with wdogTrap := false, wdog := 0 }).plainTrap g 0x0D 0 tm.launch.wdog)) ∧
  (∀ (id : Nat) (s : State) (tm : Team) (g : Group) (d : DWord) (rest : List DWord), s.team? id = some tm →
    tm.permitTraps = d :: rest → tm.wdogTrap = false → s.asyncTarget tm = some g →
    exec (.lostPermitTrap id) s = .next ((s.onTeam id fun t => { t with permitTraps := rest }).plainTrap g 0x0C 0 d.toNat)) ∧
  (∀ (s : State) (l : Link), s.teams = [] → s.links = [l] →
    let l' := if Config.pick s.draw 2 % 2 = 1 then { l with free := l.free - 1 } else l
    (l'.free + l'.moving = l.credits → exec .turnstileAudit s = .next { s with draw := s.draw + 1, links := [l'] }) ∧
    (l'.free + l'.moving ≠ l.credits → ∃ t, exec .turnstileAudit s = .next t ∧ t.groups = s.groups ∧ SameMemory s t ∧
      t.hearthEvents = s.hearthEvents + 1 ∧
      (s.safety.frozen = false → ∃ e, t.safety.ring.getLast? = some e ∧ e.kind = 0x0003))) ∧
  ∀ (s : State) (tm : Team) (q : QueueDecl) (h : QueueHeader), audited s tm q h →
    (s.permitSum tm q h = h.total → exec .turnstileAudit s = .next s) ∧
    (s.permitSum tm q h ≠ h.total → s.canonical → s.safety.frozen = false → ∃ t e, exec .turnstileAudit s = .next t ∧
      t.openQueue tm.id q.num = none ∧ bitAt ((t.teamMem tm.id).value (q.hdr + 6) 2) 1 = true ∧
      t.safety.ring.getLast? = some e ∧ e.kind = 0x0003)

/-- 14 R277, R278: a group of a stopping team is saved and leaves its core, or a stop is set inside its next issue; one whose image
stands can be restored; where a stop falls is the model's free value (log 46). 07 R175, R176: a page comes back from the backing store in
a free frame, and eviction keeps the bytes of the page and frees its frame; a compressed page, or one of another package, keeps its
frame, which is the model's choice (log 54).
12 R253: a context that is removed has no running team, and one that returns may run. -/
def Obligations.StopEvents : Prop :=
  (∀ (gid : Nat) (s : State) (g : Group), s.inputs.head? ≠ some (.preemption gid) → s.group? gid = some g →
    s.mustStop g = true → g.stopAt = none →
    let k := Config.pick s.draw 257 % 257
    let s1 := { s with
      draw := s.draw + 1, cores := s.cores.map fun (c : Core) => { c with monitors := c.monitors.filter (·.1 != gid) } }
    (g.phase = .ready ∧ k ≠ 0 →
      exec (.preemption gid) s = .next ({ s with draw := s.draw + 1 }.putGroup { g with stopAt := some k })) ∧
    (g.phase ≠ .ready ∨ k = 0 →
      (g.super = true → ∃ t h, exec (.preemption gid) s = .next t ∧ t.group? gid = some h ∧ h.saved = true ∧ h.phase = g.phase ∧
        h.wait = g.wait ∧ h.himage = some g.arch ∧ SameMemory s t) ∧
      ∀ u segs, g.super = false →
        s1.span (s.teamOf g).ctx (s.coreOf g) 1 .write ((s.teamOf g).groupSave g.gix) 0xE000 = (u, .ok segs) →
        ∃ t h, exec (.preemption gid) s = .next t ∧ t.group? gid = some h ∧ h.saved = true ∧ h.phase = g.phase ∧ h.wait = g.wait ∧
          t.mem = (u.putImage segs (u.imageOf { g with stalled := false } g.stateCode (g.pend.getD (zeroBytes 128)))).mem)) ∧
  (∀ (gid : Nat) (s : State) (g : Group), s.inputs.head? ≠ some (.groupRestore gid) → s.group? gid = some g →
    s.mayRestore g = true →
    let tm := s.teamOf g
    let s1 := s.cancelLease tm.id (clusterOfCore (s.coreOf g))
    ∃ k, s1.group? gid = some k ∧ k.himage = g.himage ∧
    (g.super = true → ∃ t h, exec (.groupRestore gid) s = .next t ∧ t.group? gid = some h ∧
      h.saved = false ∧ h.arch = (g.himage.getD g.arch).placed tm.launch.width (s1.roomFor k) ∧ SameMemory s t) ∧
    ∀ u segs a, g.super = false → s1.imageSpan k .read = (u, .ok segs) →
      u.readImage segs tm.launch.width (max tm.launch.tregs 16) k = some a → u.group? gid ≠ none →
      ∃ t h, exec (.groupRestore gid) s = .next t ∧ t.group? gid = some h ∧ t.mem = u.mem ∧ h.saved = false ∧
        h.cclk = u.spanValue segs 0x0030 8 ∧ h.arch = (u.fillX tm.ctx a).placed tm.launch.width (u.roomFor k)) ∧
  (∀ (ctx : Nat) (va : BitVec 64) (s u : State) (x : Context) (p : Kept) (addr f : Nat),
    s.inputs.head? ≠ some (.backingStorePageIn ctx va) → s.context? ctx = some x → x.backing = [p] →
    p.1.toNat ≤ va.toNat → va.toNat < p.1.toNat + pageSize p.2.1 → entryAddr s.mem p.1.toNat p.2.1 3 (s.rootOf ctx) = some addr →
    s.pageFrame p = some (f, u) →
    let frame := s.homePa f
    let old := Pte.frame p.2.2.1.toNat
    (Pte.ck p.2.2.1.toNat = 0 → old < 0x800000000000 → s.frameFree f (pageSize p.2.1) = true ∧
      (f, pageSize p.2.1) ∈ u.frames) ∧
    (Pte.ck p.2.2.1.toNat ≠ 0 ∨ 0x800000000000 ≤ old → f = old ∧ u = s) ∧
    ∃ t y, exec (.backingStorePageIn ctx va) s = .next t ∧ t.context? ctx = some y ∧ y.backing = [] ∧
      t.mem = (p.2.2.2.foldl (fun (m : Memory) c => m.set (frame + c.1) c.2) (s.mem.clear frame (pageSize p.2.1))).write addr
        (bytesOf 8 (putBits (p.2.2.1.toNat - old + f) 0 1 1))) ∧
  (∀ (ctx : Nat) (s : State), s.inputs.head? = some (.eviction ctx) →
    (s.victim ctx = none → exec .eviction s = .next s.pop) ∧
    ∀ r p x addr, s.victim ctx = some r → s.stores = [] → s.shotBusy ctx p.1 = false →
      ((s.userPages ctx).filter fun y => r.meets ((y.1, pageSize y.2.1) : Range)) = [p] → s.context? ctx = some x →
      entryAddr s.mem p.1 p.2.1 3 (s.rootOf ctx) = some addr →
      let frame := s.homePa (Pte.frame p.2.2)
      ∃ t y, exec .eviction s = .next t ∧ t.inputs = s.inputs.tail ∧ t.context? ctx = some y ∧
        (Pte.ck (s.mem.value addr 8) = 0 → t.frameFree (Pte.frame (s.mem.value addr 8)) (pageSize p.2.1) = true) ∧
        y.backing = x.backing ++ [(dwordOf p.1, p.2.1, dwordOf (s.mem.value addr 8),
          (s.mem.filter fun c => decide (frame ≤ c.1) && decide (c.1 < frame + pageSize p.2.1)).map fun c => (c.1 - frame, c.2))]) ∧
  (∀ (ctx : Nat) (s : State) (x : Context), s.inputs.head? = some (.contextRemoval ctx) → s.context? ctx = some x →
    s.stoppedCtx ctx = false →
    ∃ t y, exec .contextRemoval s = .next t ∧ t.inputs = s.inputs.tail ∧ t.context? ctx = some y ∧ y.removed = true ∧
      (∀ tm ∈ t.teams, tm.ctx = ctx → tm.life ≠ .running ∧ tm.life ≠ .proofing) ∧
      (s.clusters = [] → (∀ g ∈ s.groups, g.stoppable = false) → (∀ c ∈ s.cmds, c.ctx ≠ ctx) → (∀ o ∈ s.savedOvens, o.ctx ≠ ctx) →
        t.mem = s.mem)) ∧
  ∀ (ctx : Nat) (s : State) (x : Context), s.inputs.head? = some (.contextReturn ctx) → s.context? ctx = some x →
    x.removed = true → (∀ o ∈ s.savedOvens, o.ctx ≠ ctx) → ∃ t, exec .contextReturn s = .next t ∧
      t.context? ctx = some { x with removed := false } ∧ SameMemory s t ∧ t.inputs = s.inputs.tail ∧ t.groups = s.groups ∧
      ∀ tm ∈ s.teams, tm.ctx = ctx → tm.life = .queued → tm.id ∈ (t.dieRec (dieOfCore tm.launch.core0)).fresh

/-- 14 R281, R282, R285, 01 R21, 15 R299, 22 Table 22.8: errors are counted, recorded and halt the contexts that they hit; heat and the
device registers; a held group resumes. -/
def Sys2Proof.Claims.DeviceEvents : Prop :=
  ∀ s : State,
    (∀ pa syn store, s.inputs.head? = some (.softErrorCorrected pa syn store) → ∃ t, exec .softErrorCorrected s = .next t ∧
      t.serr.toNat = min (s.serr.toNat + 1) 0xFFFFFFFF ∧ SameMemory s t ∧ t.groups = s.groups ∧
      (s.safety.frozen = false → ∃ e, t.safety.ring.getLast? = some e ∧ e.kind = 0x0001 ∧ t.safety.frozen = false)) ∧
    (∀ pa syn store, s.inputs.head? = some (.uncorrectableError pa syn store []) → s.safety.frozen = false →
      ∃ t e, exec .uncorrectableError s = .next t ∧ SameMemory s t ∧ t.groups = s.groups ∧ t.contexts = s.contexts ∧
        t.safety.ring.getLast? = some e ∧ e.kind = 0x0002 ∧ t.safety.frozen = (store == 6)) ∧
    (∀ pa syn store ctx x, s.inputs.head? = some (.uncorrectableError pa syn store [ctx]) → s.context? ctx = some x → x.halted = none →
      (store = 6 → ∃ t, exec .uncorrectableError s = .next t ∧ t.context? ctx = some x) ∧
      (store ≠ 6 → ∃ t y, exec .uncorrectableError s = .next t ∧ t.context? ctx = some y ∧ y.halted = some 0xFFFFFFFE ∧
        (∀ tm ∈ t.teams, tm.ctx = ctx → tm.life = .retired) ∧ ∀ k ∈ t.tasks, k.ctx ≠ ctx)) ∧
    (∀ a b, s.inputs.head? = some (.overTemperature a b) → ∃ t, exec .overTemperature s = .next t ∧ t.powered = false ∧
      SameMemory s t ∧ (s.safety.frozen = false → t.safety.frozen = true)) ∧
    (s.inputs.head? ≠ some .heatRefillHalved → exec .heatRefillHalved s =
      .next { s with config := { s.config with refill := max 1 (s.config.refill / 2) } }) ∧
    (s.inputs.head? ≠ some .safetyNetUnfreeze → exec .safetyNetUnfreeze s =
      .next { s with safety := { s.safety with frozen := false } }) ∧
    (∀ core v, s.inputs.head? = some (.deviceRegisterWrite (.emerg core) v) → ∃ t, exec .deviceRegisterWrite s = .next t ∧
      (t.coreRec core).emerg = v ∧ SameMemory s t ∧ t.inputs = s.inputs.tail) ∧
    (∀ ctx v x, s.inputs.head? = some (.deviceRegisterWrite (.trapVec ctx) v) → s.context? ctx = some x →
      ∃ t, exec .deviceRegisterWrite s = .next t ∧ t.context? ctx = some { x with trapVec := v } ∧ SameMemory s t) ∧
    (∀ r v, s.inputs.head? = some (.deviceRegisterWrite r v) →
      (r = .tokenRefill → exec .deviceRegisterWrite s =
        .next { s.pop with config := { s.config with refill := max 1 (min 64 v.toNat) } }) ∧
      (r = .leaseMax → exec .deviceRegisterWrite s =
        .next { s.pop with config := { s.config with leaseMax := max 1000 (min 10000000 v.toNat) } }) ∧
      (r = .turnstilePeriod → exec .deviceRegisterWrite s =
        .next { s.pop with config := { s.config with period := max 1000 (min 1000000000 v.toNat) } }) ∧
      (∀ ctx, r = .ctxFlags ctx → exec .deviceRegisterWrite s =
        .next (s.pop.onContext ctx fun c => { c with flags := wordOf v.toNat &&& 3 })) ∧
      (∀ ctx, r = .root ctx → exec .deviceRegisterWrite s = .next (s.pop.onContext ctx fun c => { c with root := v })) ∧
      (∀ ctx, r = .ctxSave ctx → exec .deviceRegisterWrite s = .next (s.pop.onContext ctx fun c => { c with ctxSave := v })) ∧
      (∀ die, r = .ringTail die → ∃ t, exec .deviceRegisterWrite s = .next t ∧ SameMemory s t ∧
        (t.dieRec die).ring = { (s.dieRec die).ring with tail := v.toNat % 2 ^ 32 }) ∧
      ∀ n x, r = .portDown n → s.ports[n]? = some x → ∃ t, exec .deviceRegisterWrite s = .next t ∧
        t.ports[n]? = some { x with state := .off, since := s.wall }) ∧
    ∀ gid code g u segs h, s.inputs.head? = some (.debugResume gid code) → s.group? gid = some g → g.phase = .held →
      g.here = true → g.stalled = false → g.emergency = none → s.pop.imageSpan g .read = (u, .ok segs) →
      u.restoreFrom g segs 0 = some h →
      let back (pc : DWord) : Prop := ∃ k, exec .debugResume s = .next (u.putGroup k) ∧ k.pend = none ∧ k.cclk = g.cclk ∧
        k.arch = { h.arch with pc := pc }
      let named := u.spanValue segs 0x0100 8
      (code = 0 → back g.arch.pc) ∧ (code = 1 → back (g.arch.pc + 4)) ∧
      (code = 2 → named % 4 = 0 → named < 2 ^ 52 → back (dwordOf named)) ∧
      (2 < code.toNat → exec .debugResume s = .next (u.doubleTrap g 0))

/-- 22 R403 to R405, R409: a cold reset clears memory and starts the boot ROM's count of the wall clock at 0; a warm reset keeps memory, the
clock and the recorder; the recorder's ring needs the standby supply; recovery erases and programs flash, refuses a commit whose
number does not rise, and resets the device after one whose items and certificate are good. -/
def Sys2Proof.Claims.ResetEvents : Prop :=
  ∀ s : State,
    (s.inputs.head? ≠ some .coldReset → ∃ t, exec .coldReset s = .next t ∧ t.mem = [] ∧ t.groups = [] ∧ t.teams = [] ∧
      t.contexts = [] ∧ t.cmds = [] ∧ t.wall = 0 ∧ t.serr = 0 ∧ t.flash = s.flash ∧ t.boot ≠ .reset ∧ t.powered = true) ∧
    (s.inputs.head? ≠ some .warmReset → ∃ t, exec .warmReset s = .next t ∧ t.mem = s.mem ∧ t.groups = [] ∧ t.teams = [] ∧
      t.contexts = [] ∧ t.cmds = [] ∧ t.wall = s.wall ∧ t.serr = s.serr ∧ t.flash = s.flash ∧ t.boot ≠ .reset) ∧
    (s.inputs.head? ≠ some .standbySupplyLoss → exec .standbySupplyLoss s =
      .next { s with safety := { s.safety with ring := [] } }) ∧
    (∀ conn tag va data, s.inputs.head? = some (.flashRecoveryWrite conn tag va data) →
      (taken s conn = none → exec .flashRecoveryWrite s = .next (dropped s conn)) ∧
      ∀ u, taken s conn = some u →
        let no (status : Nat) : State := answers u conn 3 0xFFFE tag status []
        (s.boot ≠ .recovery → exec .flashRecoveryWrite s = .next (no 9)) ∧
        (s.boot = .recovery → va.toNat ≠ 0xFFFFFFFFFFFFFFF8 ∨ data.length ≠ 8 →
          (va.toNat < 8 → data ≠ [] → exec .flashRecoveryWrite s = .next (no 9)) ∧
          (8 ≤ va.toNat ∨ data = [] → 0x10000000 < va.toNat + data.length → exec .flashRecoveryWrite s = .next (no 8)) ∧
          (8 ≤ va.toNat ∨ data = [] → va.toNat + data.length ≤ 0x10000000 → s.flash.wf = true →
            ∃ w, exec .flashRecoveryWrite s = .next (answers w conn 3 0xFFFE tag 0 (bytesOf 8 data.length)) ∧
              w = { u with erased := true, flash := w.flash } ∧
              ∀ i, i < data.length → w.flashRead (s.recoveryBank * 0x10000000 + va.toNat + i) 1 =
                if s.erased then (s.flashRead (s.recoveryBank * 0x10000000 + va.toNat + i) 1).map (· &&& data.getD i 0)
                else [data.getD i 0]))) ∧
    ∀ conn tag data, s.inputs.head? = some (.flashRecoveryCommit conn tag data) →
      (taken s conn = none → exec .flashRecoveryCommit s = .next (dropped s conn)) ∧
      ∀ u, taken s conn = some u →
        let no (w : State) (status : Nat) : State := answers w conn 3 0xFFFE tag status []
        (s.boot ≠ .recovery → exec .flashRecoveryCommit s = .next (no u 9)) ∧
        (s.boot = .recovery → data.length ≠ 8 → exec .flashRecoveryCommit s = .next (no u 8)) ∧
        (s.boot = .recovery → data.length = 8 →
          let bad : Prop := ofBytes data ≤ s.bankSeq (1 - s.recoveryBank) ∨ ofBytes data = 2 ^ 64 - 1
          let v := u.flashPut (s.recoveryBank * 0x10000000) data
          let good := ([0, 1, 2].all fun k => (v.flashItem s.recoveryBank k).any fun x => x.reason == none) &&
            v.certificateGood s.recoveryBank
          (bad → exec .flashRecoveryCommit s = .next (no u 9)) ∧
          (¬ bad → exec .flashRecoveryCommit s = .next (if good then
              (answers v conn 3 0xFFFE tag 0 (bytesOf 8 8)).warmReset
            else no (v.flashPut (s.recoveryBank * 0x10000000) (zeroBytes 8)) 9)))

namespace Sys2Proof.Claims

/-- A request of an operation stands first on a connection, and the service runs. -/
def asks (s : State) (conn : Nat × Nat) (op : Nat) (ctx : BitVec 16) (len : Word) (tag : DWord) (body : List Byte) : Prop :=
  s.boot = .running ∧ s.inputs.head? = some (.request conn op ctx len tag body)

/-- The rows of the six requests. -/
def requestRows : List (Nat × Instr) :=
  [(1, .loadObject), (2, .allocate), (3, .write), (4, .launch), (5, .read), (6, .attest)]

end Sys2Proof.Claims

/-- 22 R395, R397 to R399, R401, R404, R407, 20 R382: requests of the Hearth service and their replies, malformed ones among them, and
launch packets. A request that fails changes nothing; replies to a context leave in the order of its requests, also behind a launch
that has no reply yet; in recovery only attestation is answered here. The model's readings: the HALTED reply to a launch, the REFUSED
report with no teams and the wall clock (log 82), the TCB page of its own and NOSPACE (log 70), how connections open (log 87). -/
def Sys2Proof.Claims.HearthEvents : Prop :=
  (∀ (s : State) (ctx : Nat) (r : List HearthReply),
    ((∀ w ∈ s.launchWaits, w.ctx ≠ ctx) → s.sendReplies ctx r = { s with replies := s.replies ++ r }) ∧
    ∀ l w l', s.launchWaits = l ++ w :: l' → w.ctx = ctx → (∀ x ∈ l', x.ctx ≠ ctx) →
      s.sendReplies ctx r = { s with launchWaits := l ++ { w with after := w.after ++ r } :: l' }) ∧
  (∀ (s : State) (conn : Nat × Nat) (c : BitVec 16) (len : Word) (tag : DWord) (body : List Byte), ∀ e ∈ requestRows,
    asks s conn e.1 c len tag body → taken s conn = none → exec e.2 s = .next (dropped s conn)) ∧
  (∀ (s u : State) (conn : Nat × Nat) (c : BitVec 16) (len : Word) (tag : DWord) (body : List Byte), taken s conn = some u →
    let ctx := c.toNat
    let f := fieldOf body
    let sized : Prop := len.toNat = body.length ∧ body.length ≤ 0x100000 - 16
    let no (op status : Nat) : State := answers u conn op ctx tag status []
    (asks s conn 1 c len tag body →
      let bad : Prop := ¬ sized ∨ body.length < 0x18 ∨ f 0x10 8 ≠ body.length ∨ s.context? ctx = none
      let ends (v : State) (status : Nat) (detail : Word) (l : List Loaded) : State :=
        v.sendReplies ctx [⟨conn, 1, ctx, tag, wordOf status, detail, loadReply l⟩]
      (bad → exec .loadObject s = .next (ends u 9 0xFFFFFFFF [])) ∧
      (¬ bad → (∀ e, u.loadObject ctx body = .error e → exec .loadObject s = .next (ends u e.1 (wordOf e.2) [])) ∧
        ∀ v l, u.loadObject ctx body = .ok (v, l) → exec .loadObject s = .next (ends v 0 0xFFFFFFFF l))) ∧
    (asks s conn 2 c len tag body →
      let size := pageSize (f 0x10 1)
      let bad : Prop := ¬ sized ∨ body.length ≠ 32 ∨ 2 < f 0x10 1 ∨ 2 < f 0x11 1 ∨ 1 < f 0x12 1 ∨
        allZero (sliceOf body 0x13 13) = false ∨ f 8 8 % size ≠ 0 ∨ f 0 8 % size ≠ 0 ∨ (ctx ≠ 0xFFFF ∧ s.context? ctx = none)
      let done (v : State) (n va : Nat) : State := answers v conn 2 n tag 0 (bytesOf 8 va)
      let room (v : State) (n : Nat) := v.allocate n (f 0 8) (f 8 8) (f 0x11 1) (f 0x10 1) ⟨true, f 0x12 1 == 1, false⟩
      (bad → exec .allocate s = .next (no 2 9)) ∧
      (¬ bad → ctx ≠ 0xFFFF → f 8 8 = 0 → exec .allocate s = .next (done u ctx (f 0 8))) ∧
      (¬ bad → ctx ≠ 0xFFFF → f 8 8 ≠ 0 → (room u ctx = none → exec .allocate s = .next (no 2 25)) ∧
        ∀ va v, room u ctx = some (va, v) → exec .allocate s = .next (done v ctx va)) ∧
      (¬ bad → ctx = 0xFFFF → (u.newContext = none → exec .allocate s = .next (no 2 25)) ∧
        ∀ n v, u.newContext = some (n, v) → (f 8 8 = 0 → exec .allocate s = .next (done v n 0)) ∧
          (f 8 8 ≠ 0 → (room v n = none → exec .allocate s = .next (no 2 25)) ∧
            ∀ va w, room v n = some (va, w) → exec .allocate s = .next (done w n va)))) ∧
    (asks s conn 3 c len tag body →
      let bad : Prop := ¬ sized ∨ body.length < 8 ∨ ctx = 0xFFFE ∨ s.context? ctx = none
      (bad → exec .write s = .next (no 3 9)) ∧
      (¬ bad → (u.serviceWrite ctx (f 0 8) (body.drop 8) = none → exec .write s = .next (no 3 8)) ∧
        ∀ v, u.serviceWrite ctx (f 0 8) (body.drop 8) = some v →
          exec .write s = .next (answers v conn 3 ctx tag 0 (bytesOf 8 (body.length - 8))))) ∧
    (asks s conn 4 c len tag body →
      let bad : Prop := ¬ sized ∨ body.length ≠ 24 ∨ 1 < f 0x10 4 ∨ f 0x14 4 ≠ 0 ∨ s.context? ctx = none
      let record := u.readRecord ctx 0 true (dwordOf (f 0 8))
      (bad → exec .launch s = .next (no 4 9)) ∧
      ∀ x, ¬ bad → s.context? ctx = some x → (x.halted ≠ none → exec .launch s = .next (no 4 Status.halted)) ∧
        (x.halted = none → (∀ rcd, record.2 ≠ .good rcd) → exec .launch s = .next (no 4 Status.refused)) ∧
        ∀ rcd, x.halted = none → record.2 = .good rcd →
          let room := record.1.allocate ctx 0 0x10000 2 0 ⟨true, true, false⟩
          (room = none → exec .launch s = .next (no 4 25)) ∧
          ∀ va v, room = some (va, v) →
            let w := (v.writeVa ctx 0 1 va (builtTcb (f 0 8) (f 8 8))).1.submitFrom ctx (dwordOf va)
            (w.2 ≠ 0 → exec .launch s = .next (no 4 8)) ∧
            (w.2 = 0 → f 0x10 4 = 1 → exec .launch s =
              .next ((answers w.1 conn 4 ctx tag 0 (bytesOf 8 va ++ zeroBytes 8)).readyIfFree ctx (dwordOf va))) ∧
            (w.2 = 0 → f 0x10 4 = 0 → exec .launch s =
              .next (({ w.1 with launchWaits := w.1.launchWaits ++ [⟨conn, ctx, tag, dwordOf va, []⟩] } : State).readyIfFree ctx (dwordOf va)))) ∧
    (asks s conn 5 c len tag body →
      let bad : Prop := ¬ sized ∨ body.length ≠ 16 ∨ 0x100000 - 24 < f 8 8 ∨ s.context? ctx = none
      let v := u.bringIn ctx (f 0 8) (f 8 8)
      (bad → exec .read s = .next (no 5 9)) ∧
      (¬ bad → (v.serviceRead ctx (f 0 8) (f 8 8) = none → exec .read s = .next (no 5 8)) ∧
        ∀ bs, v.serviceRead ctx (f 0 8) (f 8 8) = some bs → exec .read s = .next (answers v conn 5 ctx tag 0 bs))) ∧
    (s.inputs.head? = some (.request conn 6 c len tag body) → (s.boot = .running ∨ s.boot = .recovery) →
      let bad : Prop := ¬ sized ∨ body.length ≠ 48 ∨ (s.boot = .running ∧ s.context? ctx = none) ∨
        (s.boot = .recovery ∧ ctx ≠ 0xFFFE)
      (bad → exec .attest s = .next (no 6 9)) ∧
      (¬ bad → 2 ^ 25 ≤ s.leafNext → exec .attest s = .next (no 6 25)) ∧
      (¬ bad → s.leafNext < 2 ^ 25 → ∃ t, exec .attest s = .next t ∧
        t = answers { u with draw := t.draw, leafNext := s.leafNext + 1, leafEnd := t.leafEnd } conn 6 ctx tag 0 (s.signedReport body) ∧
        (s.leafNext < s.leafEnd → t.leafEnd = s.leafEnd) ∧ (s.leafNext = s.leafEnd → t.leafEnd = s.leafEnd + 1024)))) ∧
  ∀ (s : State) (body : List Byte), s.inputs.head? = some (.launchPacket body) →
    ((s.ports.all fun p => p.state != .up) = true → exec .launchPacket s = .next s.pop) ∧
    (s.boot = .running → (s.ports.any fun p => p.state == .up) = true →
      let u := s.pop
      let k := gangOf s.nextId body
      let v := ({ u with nextId := s.nextId + 1, gangs := s.gangs ++ [k] } : State).submitFrom k.ctx k.tcb
      let good : Prop := packetGood body = true ∧ (∃ x, s.context? k.ctx = some x ∧ x.halted = none) ∧ v.2 = 0
      (good → exec .launchPacket s = .next (v.1.readyIfFree k.ctx k.tcb)) ∧
      (¬ good → exec .launchPacket s = .next { u with
        reports := s.reports ++ [⟨k.pkt, wordOf Status.refused, 0, dwordOf s.wall⟩] }))

namespace Sys2Proof.Claims

/-- A port's entry of kind 0x000A, as the ring keeps it while it is not frozen: port, state, reason and the replays of the last 1 ms. -/
def portEntry (s t : State) (n reason : Nat) (x : FabricPort) (replays : List Nat) : Prop :=
  s.safety.frozen = false → ∃ e, t.safety.ring.getLast? = some e ∧ e.kind = 0x000A ∧ e.src = 6 * 8192 + n % 512 ∧ e.time = s.wall ∧
    e.data = bytesOf 1 n ++ bytesOf 1 x.state.code ++ bytesOf 2 reason ++
      bytesOf 4 (replays.filter fun w => decide (s.wall < w + 1000000)).length ++ zeroBytes 8

/-- Every port but one is as before. -/
def otherPorts (s t : State) (n : Nat) : Prop := t.ports.length = s.ports.length ∧ ∀ m, m ≠ n → t.ports[m]? = s.ports[m]?

end Sys2Proof.Claims

/-- 22 R395, R396, R400 to R402, 14 R281, 03 R62, 09 R184: the ports of the package, the clock, requests of other packages; a word of an
unassigned opcode takes the unimplemented-instruction trap with the slots its format gives it. A port carries flits in state UP alone, and
one with fewer than 16 good lanes goes down. How many flits a port carried in the last 1 ms is the model's free value, at most what its
rate carries (log 87). -/
def Sys2Proof.Claims.PortEvents : Prop :=
  ∀ s : State,
    (∀ p, s.inputs.head? = some (.packetDropped p) →
      exec .packetDropped s = .next { s.pop with drops := s.drops.modify p (· + 1) }) ∧
    (∀ c, s.inputs.head? = some (.connectionClosed c) →
      exec .connectionClosed s = .next { s.pop with connections := s.connections.filter (· != c) }) ∧
    (∀ p ppm step, s.inputs.head? = some (.timeSync p ppm step) →
      (p ≠ s.config.timePort → exec .timeSync s = .next s.pop) ∧
      (p = s.config.timePort → exec .timeSync s = .next { s.pop with
        ppm := max (-500) (min 500 ppm), stepped := true
        wall := if s.stepped = false ∧ s.contexts = [] then s.wall + step else s.wall })) ∧
    (∀ n x i go, s.ports[n]? = some x →
      (i = .portEnable ∧ s.inputs.head? = some (.portEnable n) ∧ go = (x.state == .off)) ∨
      (i = .portStateAdvance ∧ s.inputs.head? = some (.portStateAdvance n) ∧
        go = (!x.late s.wall && x.state != .off && x.state != .up)) →
      let y : FabricPort := { x with state := x.state.succ, since := s.wall }
      let few : Prop := ((List.range 32).filter x.lanes.getLsbD).length < 16
      (go = false → exec i s = .next s.pop) ∧
      (go = true → ∃ t, exec i s = .next t ∧ t = { s.pop with ports := t.ports, safety := t.safety } ∧ otherPorts s t n ∧
        (¬ few → t.ports[n]? = some y ∧ t.safety = s.safety) ∧
        (few → t.ports[n]? = some { y with state := .off } ∧ portEntry s t n 2 y x.replays))) ∧
    (∀ n x, s.ports[n]? = some x →
      (s.inputs.head? = some (.portStateLimit n) ∨ (s.inputs = [] ∧ s.latePort = some n)) →
      (x.late s.wall = false → exec .portStateLimit s = .next s.pop) ∧
      (x.late s.wall = true → ∃ t, exec .portStateLimit s = .next t ∧ t = { s.pop with ports := t.ports, safety := t.safety } ∧
        otherPorts s t n ∧ t.ports[n]? = some { x with state := .off, since := s.wall } ∧ portEntry s t n 0 x x.replays)) ∧
    (∀ n x, s.ports[n]? = some x → s.inputs.head? = some (.flitReplay n) →
      let seen := x.replays.filter (fun w => decide (s.wall < w + 1000000)) ++ [s.wall]
      let flits := (Config.word s.draw).toNat % 3937501
      ∃ t, exec .flitReplay s = .next t ∧ SameMemory s t ∧ t.groups = s.groups ∧ otherPorts s t n ∧ t.draw = s.draw + 1 ∧
        (x.state ≠ .up ∨ seen.length * 1000000 ≤ flits → t.ports[n]? = some { x with replays := seen } ∧ t.config = s.config) ∧
        (x.state = .up → flits < seen.length * 1000000 →
          t.ports[n]? = some { x with state := .off, since := s.wall, replays := [] } ∧ portEntry s t n 1 x seen ∧
          t.config = { s.config with routes := s.config.routes.map fun r =>
            if r.2.2.1 = n then r.2.2.2.elim r fun q => (r.1, r.2.1, q, none) else r })) ∧
    (∀ n x lane, s.ports[n]? = some x → lane < 32 → s.inputs.head? = some (.laneLost n lane) →
      ∃ t lanes, exec .laneLost s = .next t ∧ t = { s.pop with ports := t.ports, safety := t.safety } ∧ otherPorts s t n ∧
        (∀ j, j < 32 → lanes.getLsbD j = (x.lanes.getLsbD j && decide (j ≠ lane))) ∧
        let down : Prop := x.state ≠ .off ∧ ((List.range 32).filter lanes.getLsbD).length < 16
        (down → t.ports[n]? = some { x with state := .off, since := s.wall, lanes } ∧ portEntry s t n 2 x x.replays) ∧
        (¬ down → t.ports[n]? = some { x with lanes } ∧ t.safety = s.safety)) ∧
    (∀ op pa data, s.inputs.head? = some (.fabricRequest op pa data) →
      let pb := s.homePa pa.toNat
      let k := data.length
      let up := s.ports.any fun p => p.state == .up
      (localMemory pb = false ∨ up = false → exec .fabricRequest s = .next s.pop) ∧
      (localMemory pb = true → up = true → s.mem.wf = true → ∃ t, exec .fabricRequest s = .next t ∧
        t = { s.pop with mem := t.mem, responses := t.responses, past := t.past, cores := t.cores } ∧
        (∀ n, op = .read n → t.mem = s.mem ∧ t.responses = s.responses ++ [s.mem.read pb n]) ∧
        (op = .write → t.responses = s.responses ++ [[]] ∧ ∀ a, t.mem.get a = byteAfter s.mem pb data a) ∧
        (∀ o ty, op = .atomic o ty →
          let w := if o = 0x87 then k / 2 else k
          let old := s.mem.read pb w
          let v := fabricValue o.toNat ty (ofBytes old) (ofBytes (data.take w)) (ofBytes (data.drop w))
          t.responses = s.responses ++ [if o.toNat ≤ 0x88 then old else []] ∧
            (∀ a, t.mem.get a = byteAfter s.mem pb (bytesOf w v) a) ∧
            (o = 0x80 ∨ o = 0x89 → (itypeOf ty).w = 8 * k → v = (ofBytes old + ofBytes data) % 2 ^ (8 * k)) ∧
            (o = 0x86 → v = ofBytes data) ∧ (o = 0x87 → ofBytes old ≠ ofBytes (data.take w) → v = ofBytes old)))) ∧
    ∀ (w : BitVec 32) (g : Group), s.group? s.cur = some g →
      let f := unassignedForm w
      let width := (s.teamOf g).launch.width
      let views := f.views (s.issueOf f g).r
      let guarded := if f.guarded then guardMask g.arch width g.arch.mode else g.arch.mask
      exec (.unassignedOpcode w) s = .next (s.trap g w 0x01 (if bits w.toNat 30 2 = 3 then 1 else 0) 0 guarded views
        (views.map SlotView.evenPair))

namespace Sys2Proof.Claims

/-! ## Checks of an issue (03 R48, R52, R60) -/

/-- The instruction is issued through the checks of a form, and then does what its body says. -/
def IssuedAs (i : Instr) (f : Form) : Prop :=
  ∃ body : Ctx → State → State, ∀ s : State, exec i s = s.issue f body

/-- The EMPTY bit of a slot: slots d, b, a in that order from bit 30 down (03 Table 3.4). -/
def emptyBit (mode : DWord) (slot : Nat) : Bool := mode.getLsbD ([30, 28, 29].getD slot 0)

/-- What an issue does before its body runs: the first check that fails decides. -/
structure Checked (s : State) (g : Group) (f : Form) (late : Ctx → Option Nat) (reads : Ctx → Reads)
    (t : Host.Outcome State Fault Refusal) : Prop where
  word : ∀ sub, f.wordCheck = some sub → t = .next (s.trapForm f (s.issueOf f g) 0x01 sub 0)
  level : f.wordCheck = none → g.priv < f.level → t = .next (s.trapForm f (s.issueOf f g) 0x04 0x00 0)
  bounds : f.wordCheck = none → f.level ≤ g.priv → f.outOfBounds (s.issueOf f g) = true →
    t = .next (s.trapForm f (s.issueOf f g) 0x05 0x00 0)
  ranks : f.wordCheck = none → f.level ≤ g.priv → f.outOfBounds (s.issueOf f g) = false → f.ranksIllegal (s.issueOf f g).mode = true →
    t = .next (s.trapForm f (s.issueOf f g) 0x06 0x00 0)
  log : f.wordCheck = none → f.level ≤ g.priv → f.outOfBounds (s.issueOf f g) = false → f.ranksIllegal (s.issueOf f g).mode = false →
    s.logBlocks f g = true → let u := s.logFaults (s.teamOf g).ctx
    ∀ (h : Group) (x : Context), u.group? g.id = some h → u.context? (s.teamOf g).ctx = some x →
    t = .next (u.trapForm f { s.issueOf f g with g := h } 0x09 0x00 x.rlog.length)
  /-- what the trap finds: the log as it stands, where no request of the context in flight faults. -/
  quiet : (∀ r ∈ s.reductions, r.ctx = (s.teamOf g).ctx → r.fault = none) → s.logFaults (s.teamOf g).ctx = s
  pairs : f.wordCheck = none → f.level ≤ g.priv → f.outOfBounds (s.issueOf f g) = false → f.ranksIllegal (s.issueOf f g).mode = false →
    s.logBlocks f g = false → f.oddPair (s.issueOf f g).mode = true →
    t = .next (s.trapForm f (s.issueOf f g) 0x01 0x03 0)
  mode : f.wordCheck = none → f.level ≤ g.priv → f.outOfBounds (s.issueOf f g) = false → f.ranksIllegal (s.issueOf f g).mode = false →
    s.logBlocks f g = false → f.oddPair (s.issueOf f g).mode = false → ∀ sub, late (s.ctxOf f g) = some sub →
    t = .next (s.trapForm f (s.issueOf f g) 0x01 sub 0)
  idle : f.wordCheck = none → f.level ≤ g.priv → f.outOfBounds (s.issueOf f g) = false → f.ranksIllegal (s.issueOf f g).mode = false →
    s.logBlocks f g = false → f.oddPair (s.issueOf f g).mode = false → late (s.ctxOf f g) = none → f.guarded = true →
    (s.issueOf f g).active = 0 → t = .next (s.putGroup g.advance)
  empty : Passes s g f late → ∀ slot, f.emptySlot (s.ctxOf f g) (reads (s.ctxOf f g)) (f.holds g) = some slot →
    let mode := (s.issueOf f g).mode
    let limit := g.rwLimit.getD (g.cclk + bits mode.toNat 31 16)
    t = .next (if emptyBit mode slot = true then s.trapForm f (s.issueOf f g) 0x05 0x01 0
      else if g.cclk < limit then s.putGroup { g with
        phase := .blocked, rwLimit := some limit, firstIssue := some (g.firstIssue.getD (g.cclk, s.wall)) }
      else s.trapForm f (s.issueOf f { g with rwLimit := none }) 0x05 0x02 0)

end Sys2Proof.Claims

/-- 03 R60, R48, R52: the checks of an issue in their order, with the cause and sub-cause that each one's trap records; an
instruction without active threads moves on and changes nothing; an empty copy traps, or blocks the group until the
register-wait limit. The instructions of Table 5.1 are issued so. -/
def Obligations.IssueChecks : Prop :=
  (∀ (s : State) (g : Group) (f : Form) (body : Ctx → State → State) (late : Ctx → Option Nat) (reads : Ctx → Reads),
    s.group? s.cur = some g → Checked s g f late reads (s.issue f body late reads)) ∧
  (∀ e ∈ arithmetic, ∀ d a b : BitVec 8, IssuedAs (e.1 d a b) (typed2 e.2.1 d a b)) ∧
  (∀ e ∈ division, ∀ d a b : BitVec 8, IssuedAs (e.1 d a b) (typed2 e.2.1 d a b)) ∧
  (∀ e ∈ unary, ∀ d a : BitVec 8, IssuedAs (e.1 d a) (typed1 e.2.1 d a)) ∧
  ∀ e ∈ shifts, ∀ d a b : BitVec 8, IssuedAs (e.1 d a b) (plain2 e.2.1 d a b)

/-- 04 R70 to R72: a write of one value by the threads of W alone. Threads outside W read as before. Threads of W read the
value; where a crumb has W as its mask it takes the value, and threads of deeper crumbs keep what they read. A write by
the whole group drops every crumb (R69), and per-thread values go to their threads (R71). -/
def Obligations.CrumbWrites : Prop :=
  ∀ (width : Nat) (room : Room) (W : DWord) (val : Nat → Word) (r : Ranked), width ≤ 64 → W ≠ 0 →
    (∀ i, inMask W i = true → i < width) →
    let v := val ((threadsOf W).headD 0)
    let split := r.write width room true W val
    (W = lowMask width → split = .widened (val 0) true []) ∧
    (W ≠ lowMask width → ∀ i, i < width →
      (inMask W i = false → split.at i = r.at i) ∧
      (inMask W i = true → split.at i =
        if (r.crumbs.any fun c => c.mask == W) = true then
          (if (crumbAt r.crumbs i).any (fun c => c.mask == W) = true then (v, true) else r.at i)
        else (v, true))) ∧
    ∀ i, i < width → (r.write width room false W val).at i = if inMask W i = true then (val i, true) else r.at i

/-- 04 R79, R76, R77: a team MERGE completes when its arrivals are all there. With one policy, SAME, and equal values it
writes the team copy, drops the group crumbs of the name, and every waiting group receives DONE and zeros; with values
that differ, or policies that differ, no copy changes and every waiting group receives DIFFER with the set of holders. -/
def Obligations.TeamMerge : Prop :=
  ∀ (s : State) (team m : Nat) (l : List (Group × Arrival)) (tm : Team) (first : Group × Arrival), l.head? = some first →
    s.team? team = some tm →
    let odd := (l.filter fun x => x.2.pol != first.2.pol || x.2.f != first.2.f || x.2.w != first.2.w).map (·.1.gix)
    let other := (l.filter fun x => x.2.val != first.2.val).map (·.1.gix)
    let t := s.completeMerge team m l
    let answers (ws : Word → Prop) (rest : List Word) : Prop :=
      ∀ g ∈ s.groups, g.team = team → ∀ w : Wait, g.wait = some w → w.obj = .merge m → w.result = none →
        ∃ h ∈ t.groups, h.id = g.id ∧ ∃ st, ws st ∧ h.wait =
          some { w with result := some [(w.dst, st), (w.dst + 1, rest.getD 0 0), (w.dst + 2, rest.getD 1 0), (w.dst + 3, rest.getD 2 0)] }
    let unchanged : Prop := t.teams = s.teams.map (fun (x : Team) =>
        if x.id = team then { x with arrivals := x.arrivals.filter (fun a => a.m != m) } else x) ∧
      t.groups.map (·.mcrumbs) = s.groups.map (·.mcrumbs)
    let differ (holders : List Nat) : Prop := unchanged ∧ answers (· = wordOf Status.differ)
      [wordOf (holders.foldl min (holders.headD 0) % 65536 * 65536 + holders.length % 65536),
        wordOf (maskOf 64 holders.contains).toNat, wordOf ((maskOf 64 holders.contains).toNat / 2 ^ 32)]
    (odd ≠ [] → differ odd) ∧
    (odd = [] → first.2.pol = 0 → other ≠ [] → differ other) ∧
    (odd = [] → first.2.pol = 0 → other = [] → ∀ v : Word, first.2.val = [v] →
      (∃ x : Team, t.team? team = some x ∧ x.mcopies = putAt tm.mcopies m 0 v ∧ x.mem = tm.mem) ∧
      (∀ h ∈ t.groups, h.team = team → h.mcrumbs.getD m none = none) ∧
      answers (· = wordOf Status.done) [0, 0, 0])

namespace Sys2Proof.Claims

/-! ## Decoding (03 R39, R43, R55, R57, R59) -/

/-- Words of the spec with the instructions for which they stand. -/
def specWords : List (Word × Instr) :=
  [(0x01000000, .nop), (0x0200_0070, .mode 0 0x70), (0x03C3_8200, .rank 0xC3 0x82), (0x07FA_0005, .bnz 0xFA 5),
   (0x1E04_0386, .shl 4 3 0x86), (0x2B84_4E20, .li 0x84 0x4E20), (0x4306_05E6, .fma 6 5 0xE6), (0x4583_81F8, .fdiv 0x83 0x81 0xF8),
   (0x6A88_01F8, .ldtTr16 0x88 1 0xF8), (0x9288_8C84, .barWait 0x88 0x8C 0x84), (0xA188_8284, .fork 0x88 0x82 0x84),
   (0xB000_F800, .exit 0xF8), (0xBB82_8486, .shoot 0x82 0x84 0x86)]

/-- Words that are no instruction, with what the decoder answers (03 R59, Table 3.10). -/
def refusedWords : List (Word × Except Unimplemented Instr) :=
  [(0x0000_0000, .ok (.unassignedOpcode 0)), (0x3D00_0000, .ok (.unassignedOpcode 0x3D00_0000)),
   (0xF000_0000, .ok (.unassignedOpcode 0xF000_0000)), (0x0100_0001, .error .reservedBits), (0x1885_8401, .error .reservedBits),
   (0x2608_0000, .error .badCode)]

end Sys2Proof.Claims

/-- 03 R39, R43, R55, R57, R59: words written out from the encoding tables decode to the instructions for which they
stand, and words of Table 3.10 are refused with its sub-cause. -/
def Obligations.DecodeWords : Prop :=
  (∀ x ∈ specWords, decode x.1 = .ok x.2) ∧ ∀ x ∈ refusedWords, decode x.1 = x.2

/-- 03 R39, R55, R57, R59: decoding and encoding are inverse on all words: a word decodes to an instruction exactly where
the instruction is well formed and has that word. So no bit of an encoding is dropped, every instruction has one word,
and a word that is no instruction's is refused. -/
def Obligations.DecodeEncode : Prop :=
  ∀ (w : Word) (i : Instr), decode w = .ok i ↔ i.wellFormed = true ∧ encode i = some w

/-- 03 R40, 01 R20, R9, 14 R277: a step that issues a group's instruction fetches the word at its pc, decodes it, and is exec of
the decoded instruction, then a stop that falls inside it (14 R277), what settles, and the passing of time; a word that is
refused, or cannot be fetched, traps instead. A step that performs an event is exec of its row. A word that the cache does not hold is the four bytes of
memory at its address, lowest first. Passing time changes no register and no memory. -/
def Obligations.StepRunsDecoded : Prop :=
  (∀ (s s' s1 : State) (gid : Nat) (g : Group), s.powered = true → s.boot ≠ .reset → s.choose = (s', some (.issue gid)) →
    s'.group? gid = some g →
    (∀ w, ({ s' with cur := gid }).fetch g = (s1, .ok w) →
      (∀ i, decode w = .ok i → step s = afterMove (stopAfter gid (exec i s1))) ∧
      ∀ e, decode w = .error e → step s = afterMove (stopAfter gid (.next (s1.refusedWord g w e)))) ∧
    ∀ f, ({ s' with cur := gid }).fetch g = (s1, .error f) → step s = afterMove (stopAfter gid (.next (s1.fetchFault g f)))) ∧
  (∀ (t : State) (gid : Nat), ((∀ g, t.group? gid = some g → g.stopAt = none) → stopAfter gid (.next t) = .next t) ∧
    ∀ g k, t.group? gid = some g → g.stopAt = some k → stopAfter gid (.next t) =
      .next (if g.stoppable = true then t.saveGroup { g with stopAt := none } else t.putGroup { g with stopAt := none })) ∧
  (∀ (s s' : State) (i : Instr), s.powered = true → s.boot ≠ .reset → s.choose = (s', some (.event i)) →
    step s = afterMove (exec i s')) ∧
  (∀ (s s' : State), s.powered = true → s.boot ≠ .reset → s.choose = (s', none) → step s = .next s'.after) ∧
  (∀ (s : State) (core pa : Nat), ((s.coreRec core).icache.find? fun x => x.1 == pa) = none →
    (s.readWord core pa).2.toNat = (s.mem.get pa).toNat + 256 * (s.mem.get (pa + 1)).toNat +
      65536 * (s.mem.get (pa + 2)).toNat + 16777216 * (s.mem.get (pa + 3)).toNat) ∧
  ∀ s t : State, afterMove (.next t) = .next t.after ∧ t.after = t.settle.elapse ∧
    s.elapse.groups.map (·.arch) = s.groups.map (·.arch) ∧ s.elapse.mem = s.mem ∧
    s.elapse.teams.map (·.mem) = s.teams.map (·.mem) ∧ s.wall ≤ s.elapse.wall

/-- 22 R403, R401, 03 R44, 04 R67, 20 R370: after reset nothing is loaded, no port is up, every lane is in use and the boot
ROM runs next; a program's state at team start is that of R67, with the mode of R44. What memory that nothing has written
reads as is the model's (log 1), as are the values of log 13. -/
def Obligations.ResetState : Prop :=
  (let s := State.reset
   s.powered = true ∧ s.boot = .reset ∧ s.groups = [] ∧ s.teams = [] ∧ s.tasks = [] ∧ s.contexts = [] ∧ s.cmds = [] ∧
    s.mem = [] ∧ s.canonical ∧ s.wall = 0 ∧ s.serr = 0 ∧ s.safety.ring = [] ∧ s.ports.length = 16 ∧
    (∀ p ∈ s.ports, p.state = .off ∧ p.lanes = BitVec.allOnes 32) ∧ (∃ t : State, step s = .next t.after ∧ exec .coldReset s = .next t)) ∧
  ∀ (entry : DWord) (width : Nat), width ≤ 64 →
    let a := Arch.launch entry width
    a.pc = entry ∧ a.mode = 0x00007FFF80012000#64 ∧ (∀ i, inMask a.mask i = decide (i < width)) ∧ a.sticky = 0 ∧
      a.ix = [0, 0, 0] ∧ a.stack = [] ∧ a.pidx = 0 ∧ a.snap = [] ∧ a.esc = false ∧ a.timeouts = 0 ∧ a.g.length = 64 ∧ (∀ r ∈ a.g, r = ⟨0, true⟩) ∧
      a.t.length = 128 ∧ (∀ r ∈ a.t, r = .widened 0 true []) ∧ a.p.length = 8 ∧ (∀ r ∈ a.p, r = .widened 0 true []) ∧
      a.xl.length = 8 ∧ ∀ x ∈ a.xl, x = ⟨0, 0, 0, false, false, 0⟩

/-- The model's memory, team memories and flash keep their canonical form (log 1): every step keeps it, from every state.
Equal memories are therefore equal data after any run. -/
def Obligations.CanonicalKept : Prop :=
  ∀ s t : State, s.canonical → step s = .next t → t.canonical

/-! ## Statements of several parts -/

/-- 05 R99, R103, Table 5.1: integer arithmetic and logic with one or two sources, and compares. -/
def Obligations.IntegerResults : Prop := Claims.IntegerArithmetic ∧ Claims.IntegerUnary ∧ Claims.IntegerCompare

/-- 05 R108 to R111: shuffles, broadcast and votes. -/
def Obligations.LaneExchange : Prop := Claims.LaneShuffles ∧ Claims.BroadcastAndVotes

/-- 06 R126 to R132: floating arithmetic, compares and conversions. -/
def Obligations.FloatResults : Prop := Claims.FloatArithmetic ∧ Claims.FloatCompareConvert

/-- 06 R124, R125, 03 R58: TFENCE and FFLAGS; the 64-bit floating words trap. -/
def Obligations.StickyAndWideFloat : Prop := Claims.StickyFlags ∧ Claims.WideFloatTraps

/-- 07 R170, R173: PREF, CLEAN, INVL1 and DISCARD. -/
def Obligations.CachesAndDiscard : Prop := Claims.CacheMaintenance ∧ Claims.DiscardZeroes

/-- 03 R51, 07 R167 to R169: producers deliver to registers, and tiles to team memory. -/
def Obligations.ResultsLand : Prop := Claims.DeliveriesLand ∧ Claims.TilesLand

/-- 09 R187 to R189: reductions send their requests, and the requests end. -/
def Obligations.Reductions : Prop := Claims.ReductionsSend ∧ Claims.ReductionsEnd

/-- 09 R202 to R205, R207: BAR.INIT, BAR.INVAL, arrivals, and BAR.EXPECT, and the faults of their offsets. -/
def Obligations.Barriers : Prop :=
  Claims.BarrierStartEnd ∧ Claims.BarrierArrivals ∧ Claims.BarrierExpect ∧ Claims.BarrierFaults

/-- 09 R196, R199: CLOSE, ACQ and REL. -/
def Obligations.BatchesAndOrder : Prop := Claims.CloseBatches ∧ Claims.AcquireRelease

/-- 09 R209 to R211: QSEND, QRECV and QCREDIT. -/
def Obligations.Queues : Prop := Claims.QueueCredit ∧ Claims.QueueObjects

/-- 09 R191, R192, R195: the waits of 09, 14, 15 and 20. -/
def Obligations.WaitsEnd : Prop := Claims.SyncWaits ∧ Claims.OtherWaits

/-- 20 R364, R371 to R375: task control blocks, their statuses, and the time of a spawn bin. -/
def Obligations.Tasks : Prop :=
  Claims.TaskInstructions ∧ Claims.TaskStatuses ∧ Claims.SuccessorStatuses ∧ Claims.BinTimeStatuses

/-- 20 R376, R378: FORK and YIELD. -/
def Obligations.ChildrenAndYield : Prop := Claims.ForkChildren ∧ Claims.YieldsCore

/-- 14 R283 to R285: EXIT, TRAP and BRK. -/
def Obligations.ExitAndTrap : Prop := Claims.ExitEndsGroup ∧ Claims.SoftwareTraps

/-- 14 R269, R272, Table 14.2, 03 R62, Table 3.11: a trap starts the handler, and its record. -/
def Obligations.TrapTaken : Prop := Claims.TrapEntry ∧ Claims.TrapRecordLayout

/-- 14 R279, R281, R289, R292, R293: BEAT, CLOCK, MODE.RD, MODE.WR and SNET. -/
def Obligations.ClocksModesAndMarks : Prop := Claims.ClocksAndModes ∧ Claims.SafetyMarks

/-- 12 R235 to R252, 13 R255, 16 R330: commands of the copy engine and of the bank-side units. -/
def Obligations.EngineIssue : Prop := Claims.EngineCommands ∧ Claims.CopyOvStat

/-- 15 R296 to R320: commands of the Oven, queued and answered at once. -/
def Obligations.OvenIssue : Prop := Claims.OvenCommands ∧ Claims.OvenAnswers


/-- 03 R52, 07 R153, R172, 09 R192, R200, R209, R211, 14 R275: limits that pass, and events of the memory system. -/
def Obligations.WaitAndMemoryEvents : Prop := Claims.WaitEvents ∧ Claims.MemoryEvents

/-- 12 R236 to R250, 15 R298 to R317, 16 R328, R331, 18 R342 to R356: what the engines do with their commands. -/
def Obligations.EngineEvents : Prop := Claims.CopyEvents ∧ Claims.OvenEvents ∧ Claims.CarouselEvents

/-- 20 R366 to R383, 14 R271, R279, R280, 09 R213: placement, start, retirement, gangs, watchdogs and audits. -/
def Obligations.SchedulingEvents : Prop := Claims.RingmasterEvents ∧ Claims.GangAndWatchdogEvents


/-- 14 R281, R282, 22 R403 to R405, R409: errors, device registers, resets and recovery. -/
def Obligations.DeviceAndResetEvents : Prop := Claims.DeviceEvents ∧ Claims.ResetEvents

/-- 22 R395 to R402, R407, 20 R382: the Hearth service, launch packets and the ports. -/
def Obligations.ServiceAndPortEvents : Prop := Claims.HearthEvents ∧ Claims.PortEvents
end

