-- ==== Sys2Proof/Laws/Registers.lean ====
section
/-! SUPPORT. Reading registers after writing them (01 R17, 04 R69 to R73): the lists that stand for register files, the
smallest crumb of a thread, each kind of write to a name, and the result of an instruction. -/

namespace Sys2Proof.Machine

/-! ## Register files as lists -/

theorem getD_putAt {α : Type} (l : List α) (n m : Nat) (d x : α) :
    (putAt l n d x).getD m d = if m = n then x else l.getD m d := by
  unfold putAt
  simp only [List.getD_eq_getElem?_getD]
  split
  · rename_i h
    rw [List.getElem?_set]
    by_cases hm : n = m
    · subst hm; simp [h]
    · simp [hm, Ne.symm hm]
  · rename_i h
    rw [List.getElem?_append]
    split
    · have : m ≠ n := by omega
      simp [this]
    · rename_i h2
      rw [List.getElem?_append]
      simp only [List.length_replicate, List.getElem?_replicate]
      by_cases hm : m = n
      · subst hm; simp
      · rw [if_neg hm, List.getElem?_eq_none (by omega : l.length ≤ m)]
        split
        · simp
        · rw [List.getElem?_eq_none (by simp; omega)]

/-! ## Thread sets -/

theorem inMask_and (x y : DWord) (i : Nat) : inMask (x &&& y) i = (inMask x i && inMask y i) := by
  simp [inMask]

theorem inMask_lt {m : DWord} {i : Nat} (h : inMask m i = true) : i < 64 := by
  by_contra hn
  simp [inMask, BitVec.getLsbD_of_ge m i (by omega)] at h

theorem mem_threadsOf {m : DWord} {i : Nat} : i ∈ threadsOf m ↔ inMask m i = true := by
  simp only [threadsOf, List.mem_filter, List.mem_range, and_iff_right_iff_imp]
  exact inMask_lt

theorem subMask_iff {x y : DWord} : subMask x y = true ↔ ∀ i, inMask x i = true → inMask y i = true := by
  unfold subMask
  rw [beq_iff_eq]
  constructor
  · intro h i hi
    have := congrArg (fun z : DWord => inMask z i) h
    have hlt := inMask_lt hi
    simp only [inMask] at *
    simp [hi, hlt] at this
    exact this
  · intro h
    apply BitVec.eq_of_getLsbD_eq
    intro i hi
    have := h i
    simp only [inMask] at this
    simp only [BitVec.getLsbD_and, BitVec.getLsbD_not, hi, decide_true, Bool.true_and]
    cases hx : x.getLsbD i
    · simp
    · simp [this hx]

theorem meets_iff {x y : DWord} : meets x y = true ↔ ∃ i, inMask x i = true ∧ inMask y i = true := by
  unfold meets
  rw [bne_iff_ne]
  constructor
  · intro h
    by_contra hn
    apply h
    apply BitVec.eq_of_getLsbD_eq
    intro i hi
    simp only [BitVec.getLsbD_and]
    by_contra hc
    apply hn
    refine ⟨i, ?_⟩
    simpa [inMask] using hc
  · rintro ⟨i, hx, hy⟩ h
    have := congrArg (fun z : DWord => inMask z i) h
    simp only [inMask_and, hx, hy] at this
    simp [inMask] at this

theorem countMask_le {x y : DWord} (h : subMask x y = true) : countMask x ≤ countMask y := by
  unfold countMask threadsOf
  exact (List.monotone_filter_right _ (fun i hi => subMask_iff.1 h i hi)).length_le

theorem subMask_of_count {x y : DWord} (h : subMask x y = true) (hc : countMask y ≤ countMask x) :
    subMask y x = true := by
  rw [subMask_iff]
  intro i hi
  have hsub : (threadsOf x).Sublist (threadsOf y) := by
    unfold threadsOf
    exact List.monotone_filter_right _ (fun i hi => subMask_iff.1 h i hi)
  have heq := hsub.eq_of_length_le hc
  exact mem_threadsOf.1 (heq ▸ mem_threadsOf.2 hi)

theorem mask_ext {x y : DWord} (h : ∀ i, inMask x i = inMask y i) : x = y := by
  apply BitVec.eq_of_getLsbD_eq
  intro i _
  exact h i

theorem subMask_antisymm {x y : DWord} (h : subMask x y = true) (h' : subMask y x = true) : x = y := by
  apply mask_ext
  intro i
  have h1 := subMask_iff.1 h i
  have h2 := subMask_iff.1 h' i
  cases hx : inMask x i <;> cases hy : inMask y i <;> simp_all

theorem inMask_lowMask (w i : Nat) : inMask (lowMask w) i = (decide (i < 64) && decide (i < w)) := by
  unfold inMask lowMask
  rw [BitVec.getLsbD_ofNat, Nat.testBit_two_pow_sub_one]

/-! ## The smallest crumb of a thread -/

theorem leastBy_mem {α : Type} {key : α → Nat} {l : List α} {x : α} (h : leastBy key l = some x) : x ∈ l := by
  induction l generalizing x with
  | nil => simp [leastBy] at h
  | cons y ys ih =>
    simp only [leastBy] at h
    split at h
    · simp_all
    · rename_i z hz
      split at h
      · simp_all
      · cases h
        exact List.mem_cons_of_mem _ (ih hz)

theorem leastBy_le {α : Type} {key : α → Nat} {l : List α} {x : α} (h : leastBy key l = some x) :
    ∀ y ∈ l, key x ≤ key y := by
  induction l generalizing x with
  | nil => simp
  | cons y ys ih =>
    simp only [leastBy] at h
    split at h
    · rename_i hn
      cases h
      intro z hz
      rcases List.mem_cons.1 hz with rfl | hz
      · exact le_refl _
      · cases ys with
        | nil => simp at hz
        | cons a as =>
          simp only [leastBy] at hn
          split at hn
          · simp at hn
          · split at hn <;> simp at hn
    · rename_i z hz
      intro w hw
      have hle := ih hz
      split at h
      · rename_i hk
        cases h
        rcases List.mem_cons.1 hw with rfl | hw
        · exact le_refl _
        · exact le_trans hk (hle w hw)
      · rename_i hk
        cases h
        rcases List.mem_cons.1 hw with rfl | hw
        · omega
        · exact hle w hw

theorem leastBy_isSome {α : Type} {key : α → Nat} {l : List α} {x : α} (h : x ∈ l) :
    ∃ y, leastBy key l = some y := by
  cases l with
  | nil => simp at h
  | cons y ys =>
    simp only [leastBy]
    split
    · exact ⟨_, rfl⟩
    · split <;> exact ⟨_, rfl⟩

theorem leastBy_map {α : Type} {key : α → Nat} (f : α → α) (hf : ∀ x, key (f x) = key x) (l : List α) :
    leastBy key (l.map f) = (leastBy key l).map f := by
  induction l with
  | nil => rfl
  | cons y ys ih =>
    simp only [List.map_cons, leastBy, ih]
    cases h : leastBy key ys with
    | none => rfl
    | some z => simp only [Option.map_some, hf]; split <;> rfl

/-- A least element under a strictly smaller last one is that one. -/
theorem leastBy_snoc {α : Type} {key : α → Nat} (l : List α) (x : α) (h : ∀ y ∈ l, key x < key y) :
    leastBy key (l ++ [x]) = some x := by
  induction l with
  | nil => rfl
  | cons y ys ih =>
    simp only [List.cons_append, leastBy, ih (fun z hz => h z (List.mem_cons_of_mem _ hz))]
    have := h y (by simp)
    rw [if_neg (by omega)]

theorem crumbAt_congr {cs ds : List Crumb} {i : Nat}
    (h : cs.filter (inMask ·.mask i) = ds.filter (inMask ·.mask i)) : crumbAt cs i = crumbAt ds i := by
  unfold crumbAt
  rw [h]

/-! ## Writes to a name -/

theorem Ranked.at_map (width : Nat) (f : Nat → Word × Bool) (i : Nat) (hi : i < width) :
    (Ranked.perThread ((List.range width).map f)).at i = f i := by
  simp [Ranked.at, List.getD_eq_getElem?_getD, hi]

/-- Per-thread storage: the threads of W read their values, full; the others read as before (04 R71). -/
theorem Ranked.store_at (width : Nat) (r : Ranked) (W : DWord) (val : Nat → Word) (i : Nat) (hi : i < width) :
    (r.store width W val).at i = if inMask W i then (val i, true) else r.at i := by
  unfold Ranked.store
  rw [Ranked.at_map width _ i hi]

/-- A split (04 R70): the threads of W read the value; the others read as before. -/
theorem Ranked.split_at (width : Nat) (room : Room) (W : DWord) (v : Word) (r : Ranked) (i : Nat) (hi : i < width)
    (hc : r.crumbs.any (fun k => k.mask == W) = true → ∀ k ∈ r.crumbs, meets k.mask W = true → subMask W k.mask = true) :
    (r.split width room W v).at i = if inMask W i then (v, true) else r.at i := by
  cases r with
  | perThread vals => exact Ranked.store_at width _ W _ i hi
  | widened gv gf crumbs =>
    simp only [Ranked.crumbs] at hc
    unfold Ranked.split
    simp only
    split
    · rename_i hex
      have hc := hc hex
      have hfilter : ((updateWhere (fun c : Crumb => c.mask == W) (fun c => { c with val := v, full := true }) crumbs).filter
          (inMask ·.mask i)) = (crumbs.filter (inMask ·.mask i)).map
            (fun c => if c.mask == W then { c with val := v, full := true } else c) := by
        unfold updateWhere
        rw [List.filter_map]
        congr 1
        apply List.filter_congr
        intro c _
        simp only [Function.comp]
        split <;> rfl
      have hkey : ∀ x : Crumb, countMask (if x.mask == W then { x with val := v, full := true } else x).mask
          = countMask x.mask := by
        intro x; split <;> rfl
      simp only [Ranked.at, crumbAt, hfilter]
      rw [leastBy_map (key := fun c : Crumb => countMask c.mask) _ hkey]
      by_cases hW : inMask W i = true
      · obtain ⟨w, hw, hwm⟩ : ∃ w ∈ crumbs, w.mask = W := by
          simpa using hex
        have hwi : w ∈ crumbs.filter (inMask ·.mask i) := by
          simp [List.mem_filter, hw, hwm, hW]
        obtain ⟨y, hy⟩ := leastBy_isSome (key := fun c : Crumb => countMask c.mask) hwi
        have hyle := leastBy_le hy w hwi
        have hym := List.mem_filter.1 (leastBy_mem hy)
        have hsub : subMask W y.mask = true := hc y hym.1 (meets_iff.2 ⟨i, hym.2, hW⟩)
        have heq : y.mask = W := by
          rw [hwm] at hyle
          exact subMask_antisymm (subMask_of_count hsub hyle) hsub
        rw [hy]
        simp [heq, hW]
      · cases hy : leastBy (fun c : Crumb => countMask c.mask) (crumbs.filter (inMask ·.mask i)) with
        | none => simp [hW]
        | some y =>
          have hym := List.mem_filter.1 (leastBy_mem hy)
          have hne : y.mask ≠ W := by
            rintro rfl
            exact hW hym.2
          simp [hne, hW]
    · split
      · exact Ranked.store_at width _ W _ i hi
      · rename_i hno hover
        have hkept : ∀ i, inMask W i = true → ∀ c ∈ crumbs.filter (fun c => !subMask c.mask W),
            inMask c.mask i = true → countMask W < countMask c.mask := by
          intro i hW c hcm hci
          obtain ⟨hcm, hns⟩ := List.mem_filter.1 hcm
          have hns : subMask c.mask W = false := by simpa using hns
          have hm : meets c.mask W = true := meets_iff.2 ⟨i, hci, hW⟩
          have hsub : subMask W c.mask = true := by
            by_contra hn
            apply hover
            rw [List.any_eq_true]
            exact ⟨c, hcm, by simp [hm, hns, hn]⟩
          by_contra hle
          have := subMask_of_count hsub (by omega)
          rw [this] at hns
          cases hns
        have hrest : ¬ inMask W i = true → (crumbs.filter (fun c => !subMask c.mask W)).filter (inMask ·.mask i)
            = crumbs.filter (inMask ·.mask i) := by
          intro hW
          rw [List.filter_filter]
          apply List.filter_congr
          intro c _
          cases hci : inMask c.mask i
          · simp
          · simp only [Bool.true_and, Bool.not_eq_true']
            by_contra hn
            exact hW (subMask_iff.1 (by simpa using hn) i hci)
        have hnew : ∀ b : Option Nat, (Ranked.widened gv gf (crumbs.filter (fun c => !subMask c.mask W) ++ [⟨W, v, true, b⟩])).at i
            = if inMask W i then (v, true) else (Ranked.widened gv gf crumbs).at i := by
          intro b
          by_cases hW : inMask W i = true
          · simp only [Ranked.at, crumbAt, List.filter_append, List.filter_cons, List.filter_nil, hW, if_true]
            rw [leastBy_snoc]
            intro y hy
            obtain ⟨hy, hyi⟩ := List.mem_filter.1 hy
            exact hkept i hW y hy hyi
          · simp only [Ranked.at, crumbAt, List.filter_append, List.filter_cons, List.filter_nil, hW, hrest hW]
            simp
        split
        · exact hnew none
        · split
          · exact hnew _
          · rw [Ranked.store_at width _ W _ i hi]
            by_cases hW : inMask W i = true
            · simp [hW]
            · simp only [hW]
              simp only [Ranked.at, crumbAt, hrest hW]

/-- A write by the threads of W (04 R69 to R71): they read their values, full; the others read as before. -/
theorem Ranked.write_at (width : Nat) (room : Room) (uni : Bool) (W : DWord) (val : Nat → Word) (r : Ranked) (i : Nat)
    (hi : i < width) (h64 : i < 64) (hu : uni = true → ∀ a b, val a = val b)
    (hc : r.crumbs.any (fun k => k.mask == W) = true → ∀ k ∈ r.crumbs, meets k.mask W = true → subMask W k.mask = true) :
    (r.write width room uni W val).at i = if inMask W i then (val i, true) else r.at i := by
  unfold Ranked.write
  split
  · rename_i h
    have h : W = 0 := by simpa using h
    simp [h, inMask]
  · split
    · rename_i hun
      have hu := hu hun
      split
      · rename_i hW
        have hW : W = lowMask width := by simpa using hW
        simp [hW, inMask_lowMask, hi, h64, Ranked.at, crumbAt, leastBy, hu 0 i]
      · rw [Ranked.split_at width room W _ r i hi hc, hu _ i]
    · exact Ranked.store_at width r W val i hi

end Sys2Proof.Machine
end

