-- ==== Sys2Proof/Laws/Results.lean ====
section
/-! SUPPORT. What an instruction that computes a register result does to its group: every copy after the write, and that
nothing else changes (03 R42, 04 R69 to R73). -/

namespace Sys2Proof.Machine

/-! ## Reading operands in a later state of the group -/

@[simp] theorem Ctx.later_d (c : Ctx) (h : Group) : (c.later h).d = c.d := rfl
@[simp] theorem Ctx.later_active (c : Ctx) (h : Group) : (c.later h).active = c.active := rfl
@[simp] theorem Ctx.later_width (c : Ctx) (h : Group) : (c.later h).width = c.width := rfl
@[simp] theorem Ctx.later_self (c : Ctx) : c.later c.g = c := rfl

theorem Ctx.copy_t (c : Ctx) (n i : Nat) : c.copy (.t n) i = (c.g.arch.t.getD n Ranked.zero).at i := rfl

theorem Ctx.copy_g (c : Ctx) (n i : Nat) :
    c.copy (.g n) i = ((c.g.arch.g.getD n ⟨0, true⟩).val, (c.g.arch.g.getD n ⟨0, true⟩).full) := rfl

theorem Ctx.copy_m (c : Ctx) (n i : Nat) :
    c.copy (.m n) i =
      match c.g.mcrumbs.getD n none with
      | some v => (v, true)
      | none => (c.tm.mcopies.getD n 0, true) := rfl

theorem Ctx.copy_pred (c : Ctx) (n i : Nat) (inv : Bool) :
    c.copy (.pred n inv) i =
      (if (((c.g.arch.p.getD n Ranked.zero).at i).1 != 0) != inv then 1 else 0, true) := rfl

@[simp] theorem Operand.nth_zero (o : Operand) : o.nth 0 = o := rfl
@[simp] theorem Operand.nth_one (o : Operand) : o.nth 1 = o.above 1 := rfl

/-- The value that a write puts at a thread of an operand that keeps writes. -/
def Ctx.written (c : Ctx) (o : Operand) (val : Nat → Word) (i : Nat) : Word × Bool :=
  if o.isUniform then (val 0, true) else if inMask c.active i then (val i, true) else c.copy o i

/-- Every other name reads as before a write. -/
theorem Ctx.copy_write1_other (c : Ctx) (o o' : Operand) (uni : Bool) (val : Nat → Word) (g : Group) (i : Nat)
    (h : o.same o' = false) : (c.later (c.write1 o uni val g)).copy o' i = (c.later g).copy o' i := by
  have skip : ∀ {α : Type} (l : List α) (n m : Nat) (d x : α), m ≠ n → (putAt l n d x).getD m d = l.getD m d := by
    intro α l n m d x hm
    rw [getD_putAt, if_neg hm]
  cases o <;> cases o' <;> try rfl
  case t.t n m =>
    have hm : m ≠ n := by rintro rfl; simp [Operand.same] at h
    simp only [Ctx.copy_t, Ctx.later, Ctx.write1, Group.onArch, Arch.onT, skip _ _ _ _ _ hm]
  case g.g n m =>
    have hm : m ≠ n := by rintro rfl; simp [Operand.same] at h
    simp only [Ctx.copy_g, Ctx.later, Ctx.write1, Group.onArch, Arch.setG, skip _ _ _ _ _ hm]
  case m.m n m =>
    have hm : m ≠ n := by rintro rfl; simp [Operand.same] at h
    simp only [Ctx.copy_m, Ctx.later, Ctx.write1, Group.setM, skip _ _ _ _ _ hm]
  case pred.pred n inv m inv' =>
    have hm : m ≠ n := by rintro rfl; simp [Operand.same] at h
    simp only [Ctx.copy_pred, Ctx.later, Ctx.write1, Group.onArch, Arch.onP, skip _ _ _ _ _ hm]

/-- The threads that a write reaches read it (04 R69 to R73). -/
theorem Ctx.copy_write1 (c : Ctx) (o : Operand) (uni : Bool) (val : Nat → Word) (g : Group) (i : Nat)
    (hd : o.discards = false) (hi : i < c.width) (h64 : i < 64) (hu : uni = true → ∀ a b, val a = val b)
    (hp : ∀ k inv, o = .pred k inv → inv = false ∧ ∀ i, val i = 0 ∨ val i = 1)
    (hc : (c.later g).crumbsClear o) :
    (c.later (c.write1 o uni val g)).copy o i = (c.later g).written o val i := by
  cases o with
  | t n =>
    simp only [Ctx.write1, Group.onArch, Arch.onT, Ctx.copy_t, Ctx.later, getD_putAt, if_true, Ctx.written,
      Operand.isUniform]
    exact Ranked.write_at c.width c.room uni c.active val _ i hi h64 hu hc
  | g n =>
    simp [Ctx.write1, Group.onArch, Arch.setG, Ctx.copy_g, Ctx.later, getD_putAt, Ctx.written, Operand.isUniform,
      -List.getD_eq_getElem?_getD]
  | m n =>
    simp [Ctx.write1, Group.setM, Ctx.copy, Ctx.later, getD_putAt, Ctx.written, Operand.isUniform,
      -List.getD_eq_getElem?_getD]
  | pred n inv =>
    obtain ⟨rfl, h01⟩ := hp n inv rfl
    have hw := Ranked.write_at c.width c.room uni c.active val (g.arch.p.getD n Ranked.zero) i hi h64 hu hc
    simp only [Ctx.write1, Group.onArch, Arch.onP, Ctx.copy_pred, Ctx.later, getD_putAt, if_true, Ctx.written,
      Operand.isUniform, hw]
    by_cases hm : inMask c.active i = true
    · simp only [hm, if_true]
      rcases h01 i with h | h <;> simp [h]
    · simp [hm]
  | _ => simp [Operand.discards] at hd

/-! ## What a write leaves alone -/

/-- A write changes register copies and nothing else. -/
theorem Ctx.write1_rest (c : Ctx) (o : Operand) (uni : Bool) (val : Nat → Word) (g : Group) :
    c.write1 o uni val g =
      { g with
        arch := { g.arch with
          t := (c.write1 o uni val g).arch.t, g := (c.write1 o uni val g).arch.g, p := (c.write1 o uni val g).arch.p }
        mcrumbs := (c.write1 o uni val g).mcrumbs } := by
  cases o <;> rfl

theorem Ctx.write_rest (c : Ctx) (o : Operand) (uni : Bool) (val : Nat → List Word) (g : Group) :
    c.write o uni val g =
      { g with
        arch := { g.arch with
          t := (c.write o uni val g).arch.t, g := (c.write o uni val g).arch.g, p := (c.write o uni val g).arch.p }
        mcrumbs := (c.write o uni val g).mcrumbs } := by
  unfold Ctx.write
  simp only
  split
  · exact c.write1_rest o uni _ g
  · rw [Ctx.write1_rest, Ctx.write1_rest c o]

/-! ## A result of one register or two -/

theorem Operand.above_one_not_same (o : Operand) (h : o.discards = false) :
    o.same (o.above 1) = false ∧ (o.above 1).same o = false := by
  cases o <;> simp_all [Operand.same, Operand.above, Operand.discards]

theorem Ctx.write_other (c : Ctx) (n : Nat) (uni : Bool) (val : Nat → List Word) (hn : n = 1 ∨ n = 2)
    (hlen : ∀ i, (val i).length = n) (o : Operand) (ho : ∀ k, k < n → (c.d.nth k).same o = false) (i : Nat) :
    (c.later (c.write c.d uni val c.g)).copy o i = c.copy o i := by
  unfold Ctx.write
  simp only [hlen]
  have h0 := ho 0 (by omega)
  rcases hn with rfl | rfl
  · simp only [show (1 : Nat) < 2 by omega, if_true]
    exact c.copy_write1_other c.d o uni _ c.g i h0
  · simp only [show ¬ (2 : Nat) < 2 by omega, if_false]
    have h1 := ho 1 (by omega)
    exact ((c.roomAfter c.g _).copy_write1_other (c.d.above 1) o uni _ _ i h1).trans
      (c.copy_write1_other c.d o uni _ c.g i h0)

theorem Ctx.write_dest (c : Ctx) (n : Nat) (uni : Bool) (val : Nat → List Word) (hn : n = 1 ∨ n = 2)
    (hlen : ∀ i, (val i).length = n) (hu : uni = true → ∀ a b, val a = val b)
    (hp : ∀ k inv, c.d = .pred k inv → inv = false ∧ ∀ i, (val i).getD 0 0 = 0 ∨ (val i).getD 0 0 = 1)
    (hc : ∀ k, k < n → c.crumbsClear (c.d.nth k)) (k : Nat) (hk : k < n) (hd : (c.d.nth k).discards = false)
    (i : Nat) (hi : i < c.width) (h64 : i < 64) :
    (c.later (c.write c.d uni val c.g)).copy (c.d.nth k) i = c.written (c.d.nth k) (fun i => (val i).getD k 0) i := by
  have hhead : (fun i => (val i).headD 0) = fun i => (val i).getD 0 0 := by
    funext i; cases val i <;> rfl
  have hdrop : (fun i => ((val i).drop 1).headD 0) = fun i => (val i).getD 1 0 := by
    funext i
    have := hlen i
    match h : val i with
    | [] => rfl
    | [_] => rfl
    | _ :: _ :: _ => rfl
  unfold Ctx.write
  simp only [hlen, hhead, hdrop]
  have first : c.d.discards = false → (c.later (c.write1 c.d uni (fun i => (val i).getD 0 0) c.g)).copy c.d i
      = c.written c.d (fun i => (val i).getD 0 0) i := fun hd0 =>
    c.copy_write1 c.d uni _ c.g i hd0 hi h64 (fun h a b => by simp only [hu h a b]) hp (hc 0 (by omega))
  rcases hn with rfl | rfl
  · obtain rfl : k = 0 := by omega
    simp only [show (1 : Nat) < 2 by omega, if_true]
    exact first hd
  · simp only [show ¬ (2 : Nat) < 2 by omega, if_false]
    obtain rfl | rfl : k = 0 ∨ k = 1 := by omega
    · have hns := (Operand.above_one_not_same c.d hd).2
      exact ((c.roomAfter c.g _).copy_write1_other (c.d.above 1) c.d uni _ _ i hns).trans (first hd)
    · have hbase : c.d.discards = false := by
        cases h : c.d <;> simp_all [Operand.discards, Operand.above, Operand.nth]
      have hns := (Operand.above_one_not_same c.d hbase).1
      have hnp : ∀ k inv, c.d.above 1 ≠ .pred k inv := by
        intro k inv
        cases c.d <;> simp [Operand.above]
      have hsame : ∀ (x : Operand), c.d.same x = false → ∀ i,
          (c.later (c.write1 c.d uni (fun i => (val i).getD 0 0) c.g)).copy x i = c.copy x i :=
        fun x hx i => c.copy_write1_other c.d x uni _ c.g i hx
      have hcl : (c.later (c.write1 c.d uni (fun i => (val i).getD 0 0) c.g)).crumbsClear (c.d.above 1) := by
        have := hc 1 (by omega)
        revert this
        cases hd' : c.d <;>
          simp [Ctx.crumbsClear, Operand.nth, Operand.above, Ctx.later, Ctx.write1, Group.onArch, Arch.onT, Arch.setG,
            Group.setM, getD_putAt, -List.getD_eq_getElem?_getD]
      have := (c.roomAfter c.g (c.write1 c.d uni (fun i => (val i).getD 0 0) c.g)).copy_write1 (c.d.above 1) uni
        (fun i => (val i).getD 1 0) (c.write1 c.d uni (fun i => (val i).getD 0 0) c.g) i hd hi h64
        (fun h a b => by simp only [hu h a b]) (fun k inv h => absurd h (hnp k inv)) hcl
      refine this.trans ?_
      have hold := hsame _ hns i
      unfold Ctx.written
      exact congrArg (fun z => if (c.d.above 1).isUniform = true then ((val 0).getD 1 0, true)
        else if inMask c.active i = true then ((val i).getD 1 0, true) else z) hold

/-! ## Operands that every thread reads alike (04 R69) -/

theorem Ctx.copy_uniform {c : Ctx} {o : Operand} (h : c.resolvesUniform o = true) (i j : Nat) : c.copy o i = c.copy o j := by
  have flat : ∀ r : Ranked, r.uniform = true → r.at i = r.at j := by
    intro r hr
    cases r with
    | perThread _ => simp [Ranked.uniform] at hr
    | widened v f cs =>
      have : cs = [] := by simpa [Ranked.uniform] using hr
      subst this
      rfl
  cases o with
  | t n => exact flat _ h
  | pred n inv => simp only [Ctx.copy_pred, flat _ h]
  | tix => simp [Ctx.resolvesUniform] at h
  | _ => rfl

theorem Ctx.read_uniform {c : Ctx} {o : Operand} (h : c.resolvesUniform o = true) (i j : Nat) : c.read o i = c.read o j := by
  simp only [Ctx.read, Ctx.copy_uniform h i j]

theorem Ctx.readPair_uniform {c : Ctx} {o : Operand} (h : c.resolvesUniformW o 64 = true) (i j : Nat) :
    c.readPair o i = c.readPair o j := by
  simp only [Ctx.resolvesUniformW, if_true, Bool.and_eq_true] at h
  unfold Ctx.readPair
  rw [Ctx.read_uniform h.1 i j, Ctx.read_uniform h.2 i j]

theorem Ctx.readBits_uniform {c : Ctx} {o : Operand} {w : Nat} (h : c.resolvesUniformW o w = true) (i j : Nat) :
    c.readBits o w i = c.readBits o w j := by
  unfold Ctx.readBits
  split
  · rename_i hw
    subst hw
    exact Ctx.readPair_uniform h i j
  · rename_i hw
    simp only [Ctx.resolvesUniformW, hw, if_false] at h
    rw [Ctx.read_uniform h i j]

/-! ## The body of an instruction that computes a result -/

/-- A result reaches its destination's copies and the pc and sticky flags alone, whatever the form of the name. -/
theorem aluBody_result (uni : Ctx → Bool) (val : Ctx → Nat → List Word) (flags : Ctx → Nat → BitVec 6) (c : Ctx) (s : State)
    (n : Nat) (hn : n = 1 ∨ n = 2) (hlen : ∀ i, (val c i).length = n)
    (hu : uni c = true → ∀ a b, val c a = val c b)
    (hp : ∀ k inv, c.d = .pred k inv → inv = false ∧ ∀ i, (val c i).getD 0 0 = 0 ∨ (val c i).getD 0 0 = 1)
    (hc : ∀ k, k < n → c.crumbsClear (c.d.nth k)) :
    ∃ h, aluBody uni val flags c s = s.putGroup h ∧
      Result c n (val c) (c.runs.foldl (fun acc i => acc ||| flags c i) 0) h := by
  refine ⟨_, rfl, ?_⟩
  refine { dest := ?_, others := ?_, pc := ?_, sticky := ?_, rest := ?_ }
  · intro k hk hd i hi h64
    have := c.write_dest n (uni c) (val c) hn hlen hu hp hc k hk hd i hi h64
    unfold Ctx.written at this
    exact this
  · intro o ho i
    exact c.write_other n (uni c) (val c) hn hlen o ho i
  · rw [Ctx.write_rest]; rfl
  · rw [Ctx.write_rest]; rfl
  · have hw := c.write_rest c.d (uni c) (val c) c.g
    generalize c.write c.d (uni c) (val c) c.g = w at hw ⊢
    rw [hw]
    rfl

end Sys2Proof.Machine
end

