-- ==== Sys2Proof/Laws/Issue.lean ====
section
/-! SUPPORT. The issue of an instruction, said once: it runs its meaning, or takes the trap of the first check that fails
(03 R60), or moves past an instruction without an active thread (03 R48), or waits for an empty copy (03 R52). -/

namespace Sys2Proof.Machine

/-- An instruction that starts, or replays, has no beats behind it. -/
theorem Group.inPart_start {g : Group} (h : g.arch.pidx = 0 ∨ g.replay.isSome = true) : g.inPart = false := by
  unfold Group.inPart
  rcases h with h | h
  · simp [h]
  · cases hr : g.replay <;> simp_all

/-- Without a stop no beats are cut off. -/
theorem Group.cutOf_whole {g : Group} (h : g.stopAt = none) (active : DWord) : g.cutOf active = none := by
  simp [Group.cutOf, h]

theorem Form.cut_whole {f : Form} {c : Ctx} (h : c.g.stopAt = none) : f.cut c = none := by
  unfold Form.cut
  split <;> simp [Group.cutOf_whole h]

/-- Without earlier beats and without a stop inside it, an instruction runs its meaning whole (14 R277). -/
theorem Form.run_whole (f : Form) (body : Ctx → State → State) (c : Ctx) (s : State)
    (hstart : c.g.arch.pidx = 0 ∨ c.g.replay.isSome = true) (hwhole : c.g.stopAt = none) : f.run body c s = body c s := by
  simp [Form.run, Form.resumes, Group.inPart_start hstart, Form.cut_whole hwhole]

/-- A lane instruction that no stop cuts writes its results whole (05 R108). -/
theorem laneCommit_whole (c : Ctx) (val : Nat → List Word) (flags : Nat → BitVec 6) (s : State) (h : c.g.stopAt = none) :
    laneCommit c val flags s = aluBody (fun _ => false) (fun _ => val) (fun _ => flags) c s := by
  unfold laneCommit
  have hcut : c.laneCut = none := by
    unfold Ctx.laneCut
    split
    · exact Group.cutOf_whole h _
    · rfl
  simp only [hcut]
  rfl

/-- An instruction whose checks pass and whose copies are full runs its meaning. -/
theorem State.issue_runs {s : State} {g : Group} {f : Form} {late : Ctx → Option Nat} {reads : Ctx → Reads}
    (body : Ctx → State → State) (h : Runs s g f late reads) :
    s.issue f body late reads = .next (body (s.ctxOf f g) s) := by
  obtain ⟨⟨hcur, hword, hlevel, hbounds, hranks, hlog, hpairs, hlate, hactive⟩, hfull, hstart, hwhole⟩ := h
  have hg : (f.guarded && (s.issueOf f g).active == 0) = false := by
    cases hgd : f.guarded
    · rfl
    · simpa using hactive hgd
  unfold State.logBlocks at hlog
  unfold Form.oddPair at hpairs
  unfold State.ctxOf at hlate hfull
  simp only [State.issue, hcur, State.issueGroup, hword, Nat.not_lt.2 hlevel, hbounds, hranks, hlog, hpairs, hlate, hg, hfull,
    State.ctxOf, if_false, Bool.false_eq_true]
  exact congrArg _ (f.run_whole body _ s hstart hwhole)

/-- Without an active thread a guarded instruction only moves the pc (03 R48). -/
theorem State.issue_inactive {s : State} {g : Group} {f : Form} {late : Ctx → Option Nat} {reads : Ctx → Reads}
    (body : Ctx → State → State) (hcur : s.group? s.cur = some g) (hword : f.wordCheck = none) (hlevel : f.level ≤ g.priv)
    (hbounds : f.outOfBounds (s.issueOf f g) = false) (hranks : f.ranksIllegal (s.issueOf f g).mode = false)
    (hpairs : f.oddPair (s.issueOf f g).mode = false) (hlate : late (s.ctxOf f g) = none)
    (hguard : f.guarded = true) (hnone : (s.issueOf f g).active = 0) :
    s.issue f body late reads = .next (s.putGroup g.advance) := by
  unfold Form.oddPair at hpairs
  unfold State.ctxOf at hlate
  simp only [State.issue, hcur, State.issueGroup, hword, Nat.not_lt.2 hlevel, hbounds, hranks, hpairs, hlate, hguard, hnone,
    if_false, Bool.false_eq_true, if_true, Bool.not_true, bne_self_eq_false, Bool.false_or, Bool.and_false, Bool.false_and,
    Bool.true_and, beq_self_eq_true]

/-- An issue always answers a next state: a trap, a wait, or the meaning (03 R60). -/
theorem State.issue_answers {s : State} {g : Group} (f : Form) (body : Ctx → State → State) (late : Ctx → Option Nat)
    (reads : Ctx → Reads) (hcur : s.group? s.cur = some g) : ∃ t, s.issue f body late reads = .next t := by
  simp only [State.issue, hcur]
  exact ⟨_, rfl⟩

/-- A word whose own check fails traps as an unimplemented instruction (03 R60). -/
theorem State.issue_badWord {s : State} {g : Group} {f : Form} (body : Ctx → State → State) (late : Ctx → Option Nat)
    (reads : Ctx → Reads) {sub : Nat} (hcur : s.group? s.cur = some g) (hword : f.wordCheck = some sub) :
    s.issue f body late reads = .next (s.trapForm f (s.issueOf f g) 0x01 sub 0) := by
  simp only [State.issue, hcur, State.issueGroup, hword]

/-- A supervisor instruction at user level traps (14 R267). -/
theorem State.issue_privileged {s : State} {g : Group} {f : Form} (body : Ctx → State → State) (late : Ctx → Option Nat)
    (reads : Ctx → Reads) (hcur : s.group? s.cur = some g) (hword : f.wordCheck = none) (hlevel : g.priv < f.level) :
    s.issue f body late reads = .next (s.trapForm f (s.issueOf f g) 0x04 0x00 0) := by
  simp only [State.issue, hcur, State.issueGroup, hword, hlevel, if_true]

/-- A register outside the allotment traps (03 R50). -/
theorem State.issue_outOfBounds {s : State} {g : Group} {f : Form} (body : Ctx → State → State) (late : Ctx → Option Nat)
    (reads : Ctx → Reads) (hcur : s.group? s.cur = some g) (hword : f.wordCheck = none) (hlevel : f.level ≤ g.priv)
    (hbounds : f.outOfBounds (s.issueOf f g) = true) :
    s.issue f body late reads = .next (s.trapForm f (s.issueOf f g) 0x05 0x00 0) := by
  simp only [State.issue, hcur, State.issueGroup, hword, Nat.not_lt.2 hlevel, if_false, hbounds, if_true]

/-- A rank violation traps (04 R74). -/
theorem State.issue_rankViolation {s : State} {g : Group} {f : Form} (body : Ctx → State → State) (late : Ctx → Option Nat)
    (reads : Ctx → Reads) (hcur : s.group? s.cur = some g) (hword : f.wordCheck = none) (hlevel : f.level ≤ g.priv)
    (hbounds : f.outOfBounds (s.issueOf f g) = false) (hranks : f.ranksIllegal (s.issueOf f g).mode = true) :
    s.issue f body late reads = .next (s.trapForm f (s.issueOf f g) 0x06 0x00 0) := by
  simp only [State.issue, hcur, State.issueGroup, hword, Nat.not_lt.2 hlevel, if_false, hbounds, hranks, if_true,
    Bool.false_eq_true]

/-- An empty copy that is read blocks the group or traps (03 R52). -/
theorem State.issue_empty {s : State} {g : Group} {f : Form} {late : Ctx → Option Nat} {reads : Ctx → Reads}
    (body : Ctx → State → State) (h : Passes s g f late) {slot : Nat}
    (hempty : f.emptySlot (s.ctxOf f g) (reads (s.ctxOf f g)) (f.holds g) = some slot) :
    s.issue f body late reads = .next (s.onEmpty f (s.issueOf f g) slot) := by
  obtain ⟨hcur, hword, hlevel, hbounds, hranks, hlog, hpairs, hlate, hactive⟩ := h
  have hg : (f.guarded && (s.issueOf f g).active == 0) = false := by
    cases hgd : f.guarded
    · rfl
    · simpa using hactive hgd
  unfold State.logBlocks at hlog
  unfold Form.oddPair at hpairs
  unfold State.ctxOf at hlate hempty
  simp only [State.issue, hcur, State.issueGroup, hword, Nat.not_lt.2 hlevel, hbounds, hranks, hlog, hpairs, hlate, hg,
    hempty, if_false, Bool.false_eq_true]

end Sys2Proof.Machine
end

