-- ==== Sys2Proof/Laws/Memory.lean ====
section
/-! SUPPORT. The byte store: a read after a write, what a write leaves alone, that the canonical form is kept, and values
of several bytes (log 1). -/

namespace Sys2Proof.Machine

/-! ## The canonical form -/

theorem Memory.wfFrom_mono {lo lo' : Nat} {m : Memory} (h : Memory.wfFrom lo m = true) (hl : lo' ≤ lo) :
    Memory.wfFrom lo' m = true := by
  cases m with
  | nil => rfl
  | cons c rest =>
    simp only [Memory.wfFrom, Bool.and_eq_true, decide_eq_true_eq] at h ⊢
    exact ⟨⟨by omega, h.1.2⟩, h.2⟩

theorem Memory.set_wfFrom {lo : Nat} {m : Memory} (h : Memory.wfFrom lo m = true) {k : Nat} (hk : lo ≤ k) (v : Byte) :
    Memory.wfFrom lo (m.set k v) = true := by
  induction m generalizing lo with
  | nil =>
    simp only [Memory.set]
    split
    · rfl
    · rename_i hv
      simp only [Memory.wfFrom, Bool.and_eq_true, decide_eq_true_eq, bne_iff_ne, ne_eq]
      exact ⟨⟨hk, hv⟩, trivial⟩
  | cons c rest ih =>
    obtain ⟨a, b⟩ := c
    simp only [Memory.wfFrom, Bool.and_eq_true, decide_eq_true_eq, bne_iff_ne, ne_eq] at h
    simp only [Memory.set]
    split
    · split
      · simp only [Memory.wfFrom, Bool.and_eq_true, decide_eq_true_eq, bne_iff_ne, ne_eq]
        exact h
      · rename_i hka hv
        simp only [Memory.wfFrom, Bool.and_eq_true, decide_eq_true_eq, bne_iff_ne, ne_eq]
        exact ⟨⟨hk, hv⟩, ⟨by omega, h.1.2⟩, h.2⟩
    · split
      · rename_i hka he
        subst he
        split
        · exact Memory.wfFrom_mono h.2 (by omega)
        · rename_i hv
          simp only [Memory.wfFrom, Bool.and_eq_true, decide_eq_true_eq, bne_iff_ne, ne_eq]
          exact ⟨⟨hk, hv⟩, h.2⟩
      · simp only [Memory.wfFrom, Bool.and_eq_true, decide_eq_true_eq, bne_iff_ne, ne_eq]
        exact ⟨h.1, ih h.2 (by omega)⟩

/-- A write of a byte keeps the canonical form. -/
theorem Memory.set_wf {m : Memory} (h : m.wf = true) (k : Nat) (v : Byte) : (m.set k v).wf = true :=
  Memory.set_wfFrom h (Nat.zero_le k) v

/-- A write keeps the canonical form. -/
theorem Memory.write_wf {m : Memory} (h : m.wf = true) (a : Nat) (bs : List Byte) : (m.write a bs).wf = true := by
  induction bs generalizing m a with
  | nil => exact h
  | cons b bs ih => exact ih (Memory.set_wf h a b) (a + 1)

theorem Memory.filter_wfFrom {lo : Nat} {m : Memory} (h : Memory.wfFrom lo m = true) (p : Host.Cell → Bool) :
    Memory.wfFrom lo (m.filter p) = true := by
  induction m generalizing lo with
  | nil => rfl
  | cons c rest ih =>
    obtain ⟨a, b⟩ := c
    simp only [Memory.wfFrom, Bool.and_eq_true, decide_eq_true_eq, bne_iff_ne, ne_eq] at h
    rw [List.filter_cons]
    split
    · simp only [Memory.wfFrom, Bool.and_eq_true, decide_eq_true_eq, bne_iff_ne, ne_eq]
      exact ⟨h.1, ih h.2⟩
    · exact Memory.wfFrom_mono (ih h.2) (by omega)

/-- Zeroing a range keeps the canonical form. -/
theorem Memory.clear_wf {m : Memory} (h : m.wf = true) (a n : Nat) : (m.clear a n).wf = true := Memory.filter_wfFrom h _

theorem Memory.nil_wf : Memory.wf [] = true := rfl

/-! ## Reading -/

theorem Memory.get_below {lo : Nat} {m : Memory} (h : Memory.wfFrom lo m = true) {k : Nat} (hk : k < lo) : m.get k = 0 := by
  cases m with
  | nil => rfl
  | cons c rest =>
    simp only [Memory.wfFrom, Bool.and_eq_true, decide_eq_true_eq] at h
    simp only [Memory.get]
    rw [if_neg (by omega), if_pos (by omega)]

theorem Memory.get_set_from {lo : Nat} {m : Memory} (h : Memory.wfFrom lo m = true) (k j : Nat) (v : Byte) :
    (m.set k v).get j = if j = k then v else m.get j := by
  induction m generalizing lo with
  | nil =>
    by_cases hv : v = 0
    · simp [Memory.set, hv, Memory.get]
    · simp only [Memory.set, hv, if_false, Memory.get]
      by_cases e : j = k
      · subst e; simp
      · rw [if_neg (Ne.symm e), if_neg e]; simp
  | cons c rest ih =>
    obtain ⟨a, b⟩ := c
    simp only [Memory.wfFrom, Bool.and_eq_true, decide_eq_true_eq, bne_iff_ne, ne_eq] at h
    simp only [Memory.set]
    split
    · rename_i hka
      by_cases hv : v = 0
      · rw [if_pos hv]
        by_cases e : j = k
        · subst e; simp only [if_true, Memory.get]; rw [if_neg (by omega), if_pos hka, hv]
        · rw [if_neg e]
      · rw [if_neg hv]
        by_cases e : j = k
        · subst e; simp [Memory.get]
        · rw [if_neg e]
          simp only [Memory.get]
          rw [if_neg (Ne.symm e)]
          by_cases l : j < k
          · rw [if_pos l, if_neg (by omega), if_pos (by omega)]
          · rw [if_neg l]
    · split
      · rename_i hka he
        subst he
        by_cases e : j = k
        · subst e
          simp only [if_true]
          by_cases hv : v = 0
          · rw [if_pos hv, hv]; exact Memory.get_below h.2 (by omega)
          · rw [if_neg hv]; simp [Memory.get]
        · rw [if_neg e]
          by_cases hv : v = 0
          · rw [if_pos hv]
            simp only [Memory.get]
            rw [if_neg (Ne.symm e)]
            by_cases l : j < k
            · rw [if_pos l]; exact Memory.get_below h.2 (by omega)
            · rw [if_neg l]
          · rw [if_neg hv]
            simp only [Memory.get]
            rw [if_neg (Ne.symm e), if_neg (Ne.symm e)]
      · rename_i hka hne
        simp only [Memory.get]
        by_cases e : a = j
        · subst e; simp [Ne.symm hne]
        · rw [if_neg e, if_neg e]
          by_cases l : j < a
          · rw [if_pos l, if_pos l, if_neg (by omega)]
          · rw [if_neg l, if_neg l]; exact ih h.2

/-- A read after a write of a byte. -/
theorem Memory.get_set {m : Memory} (h : m.wf = true) (k j : Nat) (v : Byte) :
    (m.set k v).get j = if j = k then v else m.get j := Memory.get_set_from h k j v

/-- A read after a write of bytes: the written byte, or what was there. -/
theorem Memory.get_write {m : Memory} (h : m.wf = true) (a : Nat) (bs : List Byte) (j : Nat) :
    (m.write a bs).get j = if a ≤ j ∧ j < a + bs.length then bs.getD (j - a) 0 else m.get j := by
  induction bs generalizing m a with
  | nil => rw [if_neg (by simp only [List.length_nil]; omega)]; rfl
  | cons b bs ih =>
    rw [Memory.write, ih (Memory.set_wf h a b), Memory.get_set h]
    simp only [List.length_cons]
    by_cases e : j = a
    · subst e
      rw [if_neg (by omega), if_pos rfl, if_pos (by omega), Nat.sub_self]
      rfl
    · by_cases l : a + 1 ≤ j ∧ j < a + 1 + bs.length
      · have d : j - a = (j - (a + 1)) + 1 := by omega
        rw [if_pos l, if_pos (by omega), d]
        rfl
      · rw [if_neg l, if_neg e, if_neg (by omega)]

/-- A write leaves every byte outside it alone. -/
theorem Memory.get_write_outside {m : Memory} (h : m.wf = true) (a : Nat) (bs : List Byte) {j : Nat}
    (hj : j < a ∨ a + bs.length ≤ j) : (m.write a bs).get j = m.get j := by
  rw [Memory.get_write h, if_neg (by omega)]

theorem Memory.get_filter_from {lo : Nat} {m : Memory} (h : Memory.wfFrom lo m = true) (p : Nat → Bool) (j : Nat) :
    Memory.get (m.filter fun c => p c.1) j = if p j then m.get j else 0 := by
  induction m generalizing lo with
  | nil => simp [Memory.get]
  | cons c rest ih =>
    obtain ⟨a, b⟩ := c
    simp only [Memory.wfFrom, Bool.and_eq_true, decide_eq_true_eq, bne_iff_ne, ne_eq] at h
    rw [List.filter_cons]
    split
    · rename_i hp
      simp only [Memory.get]
      by_cases e : a = j
      · subst e; rw [if_pos rfl, if_pos hp, if_pos rfl]
      · rw [if_neg e, if_neg e]
        by_cases l : j < a
        · rw [if_pos l, if_pos l]; simp
        · rw [if_neg l, if_neg l]; exact ih h.2
    · rename_i hp
      rw [ih h.2]
      by_cases e : a = j
      · subst e; rw [if_neg hp, if_neg hp]
      · simp only [Memory.get]
        rw [if_neg e]
        by_cases l : j < a
        · rw [if_pos l, Memory.get_below h.2 (by omega)]
        · rw [if_neg l]

/-- A range that was zeroed reads 0; other bytes read as before. -/
theorem Memory.get_clear {m : Memory} (h : m.wf = true) (a n j : Nat) :
    (m.clear a n).get j = if a ≤ j ∧ j < a + n then 0 else m.get j := by
  have e := Memory.get_filter_from h (fun x => decide (x < a) || decide (a + n ≤ x)) j
  rw [Memory.clear, e]
  by_cases c : a ≤ j ∧ j < a + n
  · rw [if_pos c, if_neg (by simp; omega)]
  · rw [if_neg c, if_pos (by simp; omega)]

@[simp] theorem Memory.read_length (m : Memory) (a n : Nat) : (m.read a n).length = n := by
  simp [Memory.read]

/-- A read of several bytes is the read of each. -/
theorem Memory.read_eq {m : Memory} (h : m.wf = true) (a n : Nat) : m.read a n = (List.range n).map fun i => m.get (a + i) := by
  unfold Memory.read
  apply List.map_congr_left
  intro i hi
  have hi := List.mem_range.mp hi
  have e := Memory.get_filter_from h (fun x => decide (a ≤ x) && decide (x < a + n)) (a + i)
  rw [e, if_pos (by simp; omega)]

/-- Bytes that were written are read back. -/
theorem Memory.read_write {m : Memory} (h : m.wf = true) (a : Nat) (bs : List Byte) :
    (m.write a bs).read a bs.length = bs := by
  rw [Memory.read_eq (Memory.write_wf h a bs)]
  apply List.ext_getElem
  · simp
  · intro i h1 h2
    simp only [List.getElem_map, List.getElem_range]
    rw [Memory.get_write h, if_pos (by omega)]
    rw [Nat.add_sub_cancel_left, List.getD_eq_getElem _ _ h2]

/-! ## Values of several bytes (00 R2) -/

@[simp] theorem bytesOf_length (n v : Nat) : (bytesOf n v).length = n := by
  induction n generalizing v with
  | zero => rfl
  | succ n ih => simp [bytesOf, ih]

/-- The value of the bytes of a value. -/
theorem ofBytes_bytesOf (n v : Nat) : ofBytes (bytesOf n v) = v % 256 ^ n := by
  induction n generalizing v with
  | zero => simp [bytesOf, ofBytes, Nat.mod_one]
  | succ n ih =>
    simp only [bytesOf, ofBytes, ih, BitVec.toNat_ofNat]
    have e : 256 ^ (n + 1) = 256 * 256 ^ n := by rw [Nat.pow_succ, Nat.mul_comm]
    rw [e, Nat.mod_mul]

theorem ofBytes_lt (bs : List Byte) : ofBytes bs < 256 ^ bs.length := by
  induction bs with
  | nil => simp [ofBytes]
  | cons b bs ih =>
    have := b.isLt
    simp only [ofBytes, List.length_cons, Nat.pow_succ]
    omega

/-- A value that was stored is loaded back, cut to its bytes. -/
theorem Memory.value_write {m : Memory} (h : m.wf = true) (a n v : Nat) :
    (m.write a (bytesOf n v)).value a n = v % 256 ^ n := by
  have e := Memory.read_write h a (bytesOf n v)
  rw [bytesOf_length] at e
  rw [Memory.value, e, ofBytes_bytesOf]

/-! ## Every memory of a state -/

/-- A state whose memories are those of a canonical one is canonical. -/
theorem State.canonical_of_eq {s t : State} (h : s.canonical) (hm : t.mem = s.mem) (hf : t.flash = s.flash)
    (ht : ∀ x ∈ t.teams, ∃ y ∈ s.teams, x.mem = y.mem) : t.canonical := by
  refine ⟨by rw [hm]; exact h.1, by rw [hf]; exact h.2.1, fun x hx => ?_⟩
  obtain ⟨y, hy, e⟩ := ht x hx
  rw [e]
  exact h.2.2 y hy

end Sys2Proof.Machine
end

