-- ==== Sys2Proof/Laws/PerInstr.lean ====
section
/-! SUPPORT. Decoding the word of an instruction gives the instruction, for every constructor of Instr: no bit of an
encoding is dropped. An event has no word. -/

namespace Sys2Proof.Laws.DecodeEncode

/-- Every word that the encoder gives the instruction decodes to it. -/
def Statement (i : Instr) : Prop := ∀ w, i.wellFormed = true → encode i = some w → decode w = .ok i

theorem fieldBv_eq {w lo len : Nat} (x : BitVec len) (h : w / 2 ^ lo % 2 ^ len = x.toNat) : fieldBv w lo len = x := by
  apply BitVec.eq_of_toNat_eq
  rw [fieldBv, BitVec.toNat_ofNat, h]

theorem accept_ok {n : Nat} {reserved narrow : List (Nat × Nat)} {i : Instr}
    (h : (reserved ++ narrow).all (fun r => field n r.1 r.2 == 0) = true) : accept n reserved narrow i = .ok i := by
  simp only [List.all_append, Bool.and_eq_true, List.all_eq_true, beq_iff_eq] at h
  unfold accept
  rw [if_neg (by simpa using h.1), if_neg (by simpa using h.2)]

theorem decode_three (op d a b : Nat) (ho : op < 192) (hd : d < 256) (ha : a < 256) (hb : b < 256) (i : Instr)
    (h : ∀ n, n / 2 ^ 28 = op / 16 → n / 2 ^ 24 % 16 = op % 16 → n / 2 ^ 16 % 2 ^ 8 = d → n / 2 ^ 8 % 2 ^ 8 = a → n / 2 ^ 0 % 2 ^ 8 = b →
      decodeNat n = .ok i) : decode (word3 op d a b) = .ok i := by
  have e : (word3 op d a b).toNat = op * 2 ^ 24 + d * 2 ^ 16 + a * 2 ^ 8 + b := by
    rw [word3, BitVec.toNat_ofNat, Nat.mod_eq_of_lt (by omega)]
  rw [decode, e]
  exact h _ (by omega) (by omega) (by omega) (by omega) (by omega)

theorem decode_imm (op d imm : Nat) (ho : op < 192) (hd : d < 256) (hi : imm < 65536) (i : Instr)
    (h : ∀ n, n / 2 ^ 28 = op / 16 → n / 2 ^ 24 % 16 = op % 16 → n / 2 ^ 16 % 2 ^ 8 = d → n / 2 ^ 0 % 2 ^ 16 = imm →
      decodeNat n = .ok i) : decode (wordI op d imm) = .ok i := by
  have e : (wordI op d imm).toNat = op * 2 ^ 24 + d * 2 ^ 16 + imm := by
    rw [wordI, BitVec.toNat_ofNat, Nat.mod_eq_of_lt (by omega)]
  rw [decode, e]
  exact h _ (by omega) (by omega) (by omega) (by omega)

theorem decode_co (func a b r : Nat) (hf : func < 128) (ha : a < 256) (hb : b < 256) (hr : r < 128) (i : Instr)
    (h : ∀ n, n / 2 ^ 28 = 12 + func / 32 → n / 2 ^ 23 % 128 = func → n / 2 ^ 15 % 2 ^ 8 = a → n / 2 ^ 7 % 2 ^ 8 = b → n / 2 ^ 0 % 2 ^ 7 = r →
      decodeNat n = .ok i) : decode (wordC func a b r) = .ok i := by
  have e : (wordC func a b r).toNat = 3 * 2 ^ 30 + func * 2 ^ 23 + a * 2 ^ 15 + b * 2 ^ 7 + r := by
    rw [wordC, BitVec.toNat_ofNat, Nat.mod_eq_of_lt (by omega)]
  rw [decode, e]
  exact h _ (by omega) (by omega) (by omega) (by omega) (by omega)

theorem general_unassigned (n op : Nat) (hn : n / 2 ^ 24 = op) (h : unassignedByte op = true) : decodeNat n = unassigned n := by
  have h1 : n / 2 ^ 28 = op / 16 := by omega
  have h2 : n / 2 ^ 24 % 16 = op % 16 := by omega
  rw [decodeNat, h1, h2]
  clear hn h1 h2
  have hop : op < 256 := by simp [unassignedByte] at h; omega
  revert h
  interval_cases op <;> first | (intro h; rfl) | (intro h; cases h)

theorem co_unassigned (n func : Nat) (hn : n / 2 ^ 30 = 3) (hf : n / 2 ^ 23 % 128 = func) (h : unassignedFunction func = true) :
    decodeNat n = unassigned n := by
  have h1 : n / 2 ^ 28 = 12 + func / 32 := by omega
  have hfl : func < 128 := by omega
  rw [decodeNat, h1, hf]
  clear hn hf h1
  revert h
  interval_cases func <;> first | (intro h; rfl) | (intro h; cases h)

/-- A word of an unassigned opcode byte or function decodes to itself (03 R59). -/
theorem unassigned_decodes (x : BitVec 32) : Statement (.unassignedOpcode x) := by
  intro w hw h
  cases h
  have e : unassigned x.toNat = .ok (.unassignedOpcode x) := by
    rw [unassigned, BitVec.ofNat_toNat, BitVec.setWidth_eq]
  rw [decode, ← e]
  simp only [Instr.wellFormed, unassignedWord] at hw
  split at hw
  · exact co_unassigned _ _ (by omega) rfl hw
  · exact general_unassigned _ _ rfl hw

end Sys2Proof.Laws.DecodeEncode

open Sys2Proof Sys2Proof.Laws.DecodeEncode

theorem Sys2Proof.Laws.DecodeEncode.nop : Statement (.nop) := by
  intro w _ h; cases h
  refine decode_three 1 0 0 0 (by decide) (by decide) (by decide) (by decide) _ fun n h1 h2 hd ha hb => ?_
  have r0 : field n 16 8 = 0 := hd
  have r1 : field n 8 8 = 0 := ha
  have r2 : field n 0 8 = 0 := hb
  rw [decodeNat, h1, h2]
  show accept n [(16, 8), (8, 8), (0, 8)] [] .nop = _
  exact accept_ok (by simp [r0, r1, r2])

theorem Sys2Proof.Laws.DecodeEncode.mode (x0 : BitVec 8) (x1 : BitVec 16) : Statement (.mode x0 x1) := by
  intro w _ h; cases h
  refine decode_imm 2 x0.toNat x1.toNat (by decide) x0.isLt x1.isLt _ fun n h1 h2 hd hi => ?_
  have ex0 : fieldBv n 16 8 = x0 := fieldBv_eq x0 hd
  have ex1 : fieldBv n 0 16 = x1 := fieldBv_eq x1 hi
  rw [decodeNat, h1, h2]
  show accept n [] [] (.mode (fieldBv n 16 8) (fieldBv n 0 16)) = _
  rw [ex0, ex1]
  exact accept_ok rfl

theorem Sys2Proof.Laws.DecodeEncode.rank (x0 : BitVec 8) (x1 : BitVec 8) : Statement (.rank x0 x1) := by
  intro w _ h; cases h
  refine decode_three 3 x0.toNat x1.toNat 0 (by decide) x0.isLt x1.isLt (by decide) _ fun n h1 h2 hd ha hb => ?_
  have ex0 : fieldBv n 16 8 = x0 := fieldBv_eq x0 hd
  have ex1 : fieldBv n 8 8 = x1 := fieldBv_eq x1 ha
  have r0 : field n 0 8 = 0 := hb
  rw [decodeNat, h1, h2]
  show accept n [(0, 8)] [] (.rank (fieldBv n 16 8) (fieldBv n 8 8)) = _
  rw [ex0, ex1]
  exact accept_ok (by simp [r0])

theorem Sys2Proof.Laws.DecodeEncode.merge (x0 : BitVec 8) (x1 : BitVec 15) : Statement (.merge x0 x1) := by
  intro w _ h; cases h
  have lx0 := x0.isLt
  have lx1 := x1.isLt
  refine decode_imm 4 x0.toNat (x1.toNat * 2) (by decide) x0.isLt (by omega) _ fun n h1 h2 hd hi => ?_
  have ex0 : fieldBv n 16 8 = x0 := fieldBv_eq x0 hd
  have ex1 : fieldBv n 1 15 = x1 := fieldBv_eq x1 (by omega)
  have r0 : field n 0 1 = 0 := by unfold field; omega
  rw [decodeNat, h1, h2]
  show accept n [(0, 1)] [] (.merge (fieldBv n 16 8) (fieldBv n 1 15)) = _
  rw [ex0, ex1]
  exact accept_ok (by simp [r0])

theorem Sys2Proof.Laws.DecodeEncode.br (x0 : BitVec 16) : Statement (.br x0) := by
  intro w _ h; cases h
  refine decode_imm 5 0 x0.toNat (by decide) (by decide) x0.isLt _ fun n h1 h2 hd hi => ?_
  have ex0 : fieldBv n 0 16 = x0 := fieldBv_eq x0 hi
  have r0 : field n 16 8 = 0 := hd
  rw [decodeNat, h1, h2]
  show accept n [(16, 8)] [] (.br (fieldBv n 0 16)) = _
  rw [ex0]
  exact accept_ok (by simp [r0])

theorem Sys2Proof.Laws.DecodeEncode.bz (x0 : BitVec 8) (x1 : BitVec 16) : Statement (.bz x0 x1) := by
  intro w _ h; cases h
  refine decode_imm 6 x0.toNat x1.toNat (by decide) x0.isLt x1.isLt _ fun n h1 h2 hd hi => ?_
  have ex0 : fieldBv n 16 8 = x0 := fieldBv_eq x0 hd
  have ex1 : fieldBv n 0 16 = x1 := fieldBv_eq x1 hi
  rw [decodeNat, h1, h2]
  show accept n [] [] (.bz (fieldBv n 16 8) (fieldBv n 0 16)) = _
  rw [ex0, ex1]
  exact accept_ok rfl

theorem Sys2Proof.Laws.DecodeEncode.bnz (x0 : BitVec 8) (x1 : BitVec 16) : Statement (.bnz x0 x1) := by
  intro w _ h; cases h
  refine decode_imm 7 x0.toNat x1.toNat (by decide) x0.isLt x1.isLt _ fun n h1 h2 hd hi => ?_
  have ex0 : fieldBv n 16 8 = x0 := fieldBv_eq x0 hd
  have ex1 : fieldBv n 0 16 = x1 := fieldBv_eq x1 hi
  rw [decodeNat, h1, h2]
  show accept n [] [] (.bnz (fieldBv n 16 8) (fieldBv n 0 16)) = _
  rw [ex0, ex1]
  exact accept_ok rfl

theorem Sys2Proof.Laws.DecodeEncode.brd (x0 : BitVec 4) (x1 : BitVec 16) : Statement (.brd x0 x1) := by
  intro w _ h; cases h
  have lx0 := x0.isLt
  have lx1 := x1.isLt
  refine decode_imm 8 x0.toNat x1.toNat (by decide) (by omega) x1.isLt _ fun n h1 h2 hd hi => ?_
  have ex0 : fieldBv n 16 4 = x0 := fieldBv_eq x0 (by omega)
  have ex1 : fieldBv n 0 16 = x1 := fieldBv_eq x1 hi
  have r0 : field n 20 4 = 0 := by unfold field; omega
  rw [decodeNat, h1, h2]
  show accept n [] [(20, 4)] (.brd (fieldBv n 16 4) (fieldBv n 0 16)) = _
  rw [ex0, ex1]
  exact accept_ok (by simp [r0])

theorem Sys2Proof.Laws.DecodeEncode.reconv : Statement (.reconv) := by
  intro w _ h; cases h
  refine decode_three 9 0 0 0 (by decide) (by decide) (by decide) (by decide) _ fun n h1 h2 hd ha hb => ?_
  have r0 : field n 16 8 = 0 := hd
  have r1 : field n 8 8 = 0 := ha
  have r2 : field n 0 8 = 0 := hb
  rw [decodeNat, h1, h2]
  show accept n [(16, 8), (8, 8), (0, 8)] [] .reconv = _
  exact accept_ok (by simp [r0, r1, r2])

theorem Sys2Proof.Laws.DecodeEncode.call (x0 : BitVec 8) (x1 : BitVec 16) : Statement (.call x0 x1) := by
  intro w _ h; cases h
  refine decode_imm 10 x0.toNat x1.toNat (by decide) x0.isLt x1.isLt _ fun n h1 h2 hd hi => ?_
  have ex0 : fieldBv n 16 8 = x0 := fieldBv_eq x0 hd
  have ex1 : fieldBv n 0 16 = x1 := fieldBv_eq x1 hi
  rw [decodeNat, h1, h2]
  show accept n [] [] (.call (fieldBv n 16 8) (fieldBv n 0 16)) = _
  rw [ex0, ex1]
  exact accept_ok rfl

theorem Sys2Proof.Laws.DecodeEncode.ret (x0 : BitVec 8) : Statement (.ret x0) := by
  intro w _ h; cases h
  refine decode_three 11 0 x0.toNat 0 (by decide) (by decide) x0.isLt (by decide) _ fun n h1 h2 hd ha hb => ?_
  have ex0 : fieldBv n 8 8 = x0 := fieldBv_eq x0 ha
  have r0 : field n 16 8 = 0 := hd
  have r1 : field n 0 8 = 0 := hb
  rw [decodeNat, h1, h2]
  show accept n [(16, 8), (0, 8)] [] (.ret (fieldBv n 8 8)) = _
  rw [ex0]
  exact accept_ok (by simp [r0, r1])

theorem Sys2Proof.Laws.DecodeEncode.pset (x0 : BitVec 3) (x1 : BitVec 8) : Statement (.pset x0 x1) := by
  intro w _ h; cases h
  have lx0 := x0.isLt
  have lx1 := x1.isLt
  refine decode_three 12 x0.toNat x1.toNat 0 (by decide) (by omega) x1.isLt (by decide) _ fun n h1 h2 hd ha hb => ?_
  have ex0 : fieldBv n 16 3 = x0 := fieldBv_eq x0 (by omega)
  have ex1 : fieldBv n 8 8 = x1 := fieldBv_eq x1 ha
  have r0 : field n 0 8 = 0 := hb
  have r1 : field n 19 5 = 0 := by unfold field; omega
  rw [decodeNat, h1, h2]
  show accept n [(0, 8)] [(19, 5)] (.pset (fieldBv n 16 3) (fieldBv n 8 8)) = _
  rw [ex0, ex1]
  exact accept_ok (by simp [r0, r1])

theorem Sys2Proof.Laws.DecodeEncode.pand (x0 : BitVec 3) (x1 : BitVec 4) (x2 : BitVec 4) : Statement (.pand x0 x1 x2) := by
  intro w _ h; cases h
  have lx0 := x0.isLt
  have lx1 := x1.isLt
  have lx2 := x2.isLt
  refine decode_three 13 x0.toNat x1.toNat x2.toNat (by decide) (by omega) (by omega) (by omega) _ fun n h1 h2 hd ha hb => ?_
  have ex0 : fieldBv n 16 3 = x0 := fieldBv_eq x0 (by omega)
  have ex1 : fieldBv n 8 4 = x1 := fieldBv_eq x1 (by omega)
  have ex2 : fieldBv n 0 4 = x2 := fieldBv_eq x2 (by omega)
  have r0 : field n 19 5 = 0 := by unfold field; omega
  have r1 : field n 12 4 = 0 := by unfold field; omega
  have r2 : field n 4 4 = 0 := by unfold field; omega
  rw [decodeNat, h1, h2]
  show accept n [] [(19, 5), (12, 4), (4, 4)] (.pand (fieldBv n 16 3) (fieldBv n 8 4) (fieldBv n 0 4)) = _
  rw [ex0, ex1, ex2]
  exact accept_ok (by simp [r0, r1, r2])

theorem Sys2Proof.Laws.DecodeEncode.por (x0 : BitVec 3) (x1 : BitVec 4) (x2 : BitVec 4) : Statement (.por x0 x1 x2) := by
  intro w _ h; cases h
  have lx0 := x0.isLt
  have lx1 := x1.isLt
  have lx2 := x2.isLt
  refine decode_three 14 x0.toNat x1.toNat x2.toNat (by decide) (by omega) (by omega) (by omega) _ fun n h1 h2 hd ha hb => ?_
  have ex0 : fieldBv n 16 3 = x0 := fieldBv_eq x0 (by omega)
  have ex1 : fieldBv n 8 4 = x1 := fieldBv_eq x1 (by omega)
  have ex2 : fieldBv n 0 4 = x2 := fieldBv_eq x2 (by omega)
  have r0 : field n 19 5 = 0 := by unfold field; omega
  have r1 : field n 12 4 = 0 := by unfold field; omega
  have r2 : field n 4 4 = 0 := by unfold field; omega
  rw [decodeNat, h1, h2]
  show accept n [] [(19, 5), (12, 4), (4, 4)] (.por (fieldBv n 16 3) (fieldBv n 8 4) (fieldBv n 0 4)) = _
  rw [ex0, ex1, ex2]
  exact accept_ok (by simp [r0, r1, r2])

theorem Sys2Proof.Laws.DecodeEncode.setix (x0 : BitVec 2) (x1 : BitVec 8) : Statement (.setix x0 x1) := by
  intro w _ h; cases h
  have lx0 := x0.isLt
  have lx1 := x1.isLt
  refine decode_three 15 x0.toNat x1.toNat 0 (by decide) (by omega) x1.isLt (by decide) _ fun n h1 h2 hd ha hb => ?_
  have ex0 : fieldBv n 16 2 = x0 := fieldBv_eq x0 (by omega)
  have ex1 : fieldBv n 8 8 = x1 := fieldBv_eq x1 ha
  have r0 : field n 0 8 = 0 := hb
  have r1 : field n 18 6 = 0 := by unfold field; omega
  rw [decodeNat, h1, h2]
  show accept n [(0, 8)] [(18, 6)] (.setix (fieldBv n 16 2) (fieldBv n 8 8)) = _
  rw [ex0, ex1]
  exact accept_ok (by simp [r0, r1])

theorem Sys2Proof.Laws.DecodeEncode.add (x0 : BitVec 8) (x1 : BitVec 8) (x2 : BitVec 8) : Statement (.add x0 x1 x2) := by
  intro w _ h; cases h
  refine decode_three 16 x0.toNat x1.toNat x2.toNat (by decide) x0.isLt x1.isLt x2.isLt _ fun n h1 h2 hd ha hb => ?_
  have ex0 : fieldBv n 16 8 = x0 := fieldBv_eq x0 hd
  have ex1 : fieldBv n 8 8 = x1 := fieldBv_eq x1 ha
  have ex2 : fieldBv n 0 8 = x2 := fieldBv_eq x2 hb
  rw [decodeNat, h1, h2]
  show accept n [] [] (.add (fieldBv n 16 8) (fieldBv n 8 8) (fieldBv n 0 8)) = _
  rw [ex0, ex1, ex2]
  exact accept_ok rfl

theorem Sys2Proof.Laws.DecodeEncode.sub (x0 : BitVec 8) (x1 : BitVec 8) (x2 : BitVec 8) : Statement (.sub x0 x1 x2) := by
  intro w _ h; cases h
  refine decode_three 17 x0.toNat x1.toNat x2.toNat (by decide) x0.isLt x1.isLt x2.isLt _ fun n h1 h2 hd ha hb => ?_
  have ex0 : fieldBv n 16 8 = x0 := fieldBv_eq x0 hd
  have ex1 : fieldBv n 8 8 = x1 := fieldBv_eq x1 ha
  have ex2 : fieldBv n 0 8 = x2 := fieldBv_eq x2 hb
  rw [decodeNat, h1, h2]
  show accept n [] [] (.sub (fieldBv n 16 8) (fieldBv n 8 8) (fieldBv n 0 8)) = _
  rw [ex0, ex1, ex2]
  exact accept_ok rfl

theorem Sys2Proof.Laws.DecodeEncode.mul (x0 : BitVec 8) (x1 : BitVec 8) (x2 : BitVec 8) : Statement (.mul x0 x1 x2) := by
  intro w _ h; cases h
  refine decode_three 18 x0.toNat x1.toNat x2.toNat (by decide) x0.isLt x1.isLt x2.isLt _ fun n h1 h2 hd ha hb => ?_
  have ex0 : fieldBv n 16 8 = x0 := fieldBv_eq x0 hd
  have ex1 : fieldBv n 8 8 = x1 := fieldBv_eq x1 ha
  have ex2 : fieldBv n 0 8 = x2 := fieldBv_eq x2 hb
  rw [decodeNat, h1, h2]
  show accept n [] [] (.mul (fieldBv n 16 8) (fieldBv n 8 8) (fieldBv n 0 8)) = _
  rw [ex0, ex1, ex2]
  exact accept_ok rfl

theorem Sys2Proof.Laws.DecodeEncode.mulh (x0 : BitVec 8) (x1 : BitVec 8) (x2 : BitVec 8) : Statement (.mulh x0 x1 x2) := by
  intro w _ h; cases h
  refine decode_three 19 x0.toNat x1.toNat x2.toNat (by decide) x0.isLt x1.isLt x2.isLt _ fun n h1 h2 hd ha hb => ?_
  have ex0 : fieldBv n 16 8 = x0 := fieldBv_eq x0 hd
  have ex1 : fieldBv n 8 8 = x1 := fieldBv_eq x1 ha
  have ex2 : fieldBv n 0 8 = x2 := fieldBv_eq x2 hb
  rw [decodeNat, h1, h2]
  show accept n [] [] (.mulh (fieldBv n 16 8) (fieldBv n 8 8) (fieldBv n 0 8)) = _
  rw [ex0, ex1, ex2]
  exact accept_ok rfl

theorem Sys2Proof.Laws.DecodeEncode.div (x0 : BitVec 8) (x1 : BitVec 8) (x2 : BitVec 8) : Statement (.div x0 x1 x2) := by
  intro w _ h; cases h
  refine decode_three 20 x0.toNat x1.toNat x2.toNat (by decide) x0.isLt x1.isLt x2.isLt _ fun n h1 h2 hd ha hb => ?_
  have ex0 : fieldBv n 16 8 = x0 := fieldBv_eq x0 hd
  have ex1 : fieldBv n 8 8 = x1 := fieldBv_eq x1 ha
  have ex2 : fieldBv n 0 8 = x2 := fieldBv_eq x2 hb
  rw [decodeNat, h1, h2]
  show accept n [] [] (.div (fieldBv n 16 8) (fieldBv n 8 8) (fieldBv n 0 8)) = _
  rw [ex0, ex1, ex2]
  exact accept_ok rfl

theorem Sys2Proof.Laws.DecodeEncode.rem (x0 : BitVec 8) (x1 : BitVec 8) (x2 : BitVec 8) : Statement (.rem x0 x1 x2) := by
  intro w _ h; cases h
  refine decode_three 21 x0.toNat x1.toNat x2.toNat (by decide) x0.isLt x1.isLt x2.isLt _ fun n h1 h2 hd ha hb => ?_
  have ex0 : fieldBv n 16 8 = x0 := fieldBv_eq x0 hd
  have ex1 : fieldBv n 8 8 = x1 := fieldBv_eq x1 ha
  have ex2 : fieldBv n 0 8 = x2 := fieldBv_eq x2 hb
  rw [decodeNat, h1, h2]
  show accept n [] [] (.rem (fieldBv n 16 8) (fieldBv n 8 8) (fieldBv n 0 8)) = _
  rw [ex0, ex1, ex2]
  exact accept_ok rfl

theorem Sys2Proof.Laws.DecodeEncode.min (x0 : BitVec 8) (x1 : BitVec 8) (x2 : BitVec 8) : Statement (.min x0 x1 x2) := by
  intro w _ h; cases h
  refine decode_three 22 x0.toNat x1.toNat x2.toNat (by decide) x0.isLt x1.isLt x2.isLt _ fun n h1 h2 hd ha hb => ?_
  have ex0 : fieldBv n 16 8 = x0 := fieldBv_eq x0 hd
  have ex1 : fieldBv n 8 8 = x1 := fieldBv_eq x1 ha
  have ex2 : fieldBv n 0 8 = x2 := fieldBv_eq x2 hb
  rw [decodeNat, h1, h2]
  show accept n [] [] (.min (fieldBv n 16 8) (fieldBv n 8 8) (fieldBv n 0 8)) = _
  rw [ex0, ex1, ex2]
  exact accept_ok rfl

theorem Sys2Proof.Laws.DecodeEncode.max (x0 : BitVec 8) (x1 : BitVec 8) (x2 : BitVec 8) : Statement (.max x0 x1 x2) := by
  intro w _ h; cases h
  refine decode_three 23 x0.toNat x1.toNat x2.toNat (by decide) x0.isLt x1.isLt x2.isLt _ fun n h1 h2 hd ha hb => ?_
  have ex0 : fieldBv n 16 8 = x0 := fieldBv_eq x0 hd
  have ex1 : fieldBv n 8 8 = x1 := fieldBv_eq x1 ha
  have ex2 : fieldBv n 0 8 = x2 := fieldBv_eq x2 hb
  rw [decodeNat, h1, h2]
  show accept n [] [] (.max (fieldBv n 16 8) (fieldBv n 8 8) (fieldBv n 0 8)) = _
  rw [ex0, ex1, ex2]
  exact accept_ok rfl

theorem Sys2Proof.Laws.DecodeEncode.abs (x0 : BitVec 8) (x1 : BitVec 8) : Statement (.abs x0 x1) := by
  intro w _ h; cases h
  refine decode_three 24 x0.toNat x1.toNat 0 (by decide) x0.isLt x1.isLt (by decide) _ fun n h1 h2 hd ha hb => ?_
  have ex0 : fieldBv n 16 8 = x0 := fieldBv_eq x0 hd
  have ex1 : fieldBv n 8 8 = x1 := fieldBv_eq x1 ha
  have r0 : field n 0 8 = 0 := hb
  rw [decodeNat, h1, h2]
  show accept n [(0, 8)] [] (.abs (fieldBv n 16 8) (fieldBv n 8 8)) = _
  rw [ex0, ex1]
  exact accept_ok (by simp [r0])

theorem Sys2Proof.Laws.DecodeEncode.neg (x0 : BitVec 8) (x1 : BitVec 8) : Statement (.neg x0 x1) := by
  intro w _ h; cases h
  refine decode_three 25 x0.toNat x1.toNat 0 (by decide) x0.isLt x1.isLt (by decide) _ fun n h1 h2 hd ha hb => ?_
  have ex0 : fieldBv n 16 8 = x0 := fieldBv_eq x0 hd
  have ex1 : fieldBv n 8 8 = x1 := fieldBv_eq x1 ha
  have r0 : field n 0 8 = 0 := hb
  rw [decodeNat, h1, h2]
  show accept n [(0, 8)] [] (.neg (fieldBv n 16 8) (fieldBv n 8 8)) = _
  rw [ex0, ex1]
  exact accept_ok (by simp [r0])

theorem Sys2Proof.Laws.DecodeEncode.and (x0 : BitVec 8) (x1 : BitVec 8) (x2 : BitVec 8) : Statement (.and x0 x1 x2) := by
  intro w _ h; cases h
  refine decode_three 26 x0.toNat x1.toNat x2.toNat (by decide) x0.isLt x1.isLt x2.isLt _ fun n h1 h2 hd ha hb => ?_
  have ex0 : fieldBv n 16 8 = x0 := fieldBv_eq x0 hd
  have ex1 : fieldBv n 8 8 = x1 := fieldBv_eq x1 ha
  have ex2 : fieldBv n 0 8 = x2 := fieldBv_eq x2 hb
  rw [decodeNat, h1, h2]
  show accept n [] [] (.and (fieldBv n 16 8) (fieldBv n 8 8) (fieldBv n 0 8)) = _
  rw [ex0, ex1, ex2]
  exact accept_ok rfl

theorem Sys2Proof.Laws.DecodeEncode.or (x0 : BitVec 8) (x1 : BitVec 8) (x2 : BitVec 8) : Statement (.or x0 x1 x2) := by
  intro w _ h; cases h
  refine decode_three 27 x0.toNat x1.toNat x2.toNat (by decide) x0.isLt x1.isLt x2.isLt _ fun n h1 h2 hd ha hb => ?_
  have ex0 : fieldBv n 16 8 = x0 := fieldBv_eq x0 hd
  have ex1 : fieldBv n 8 8 = x1 := fieldBv_eq x1 ha
  have ex2 : fieldBv n 0 8 = x2 := fieldBv_eq x2 hb
  rw [decodeNat, h1, h2]
  show accept n [] [] (.or (fieldBv n 16 8) (fieldBv n 8 8) (fieldBv n 0 8)) = _
  rw [ex0, ex1, ex2]
  exact accept_ok rfl

theorem Sys2Proof.Laws.DecodeEncode.xor (x0 : BitVec 8) (x1 : BitVec 8) (x2 : BitVec 8) : Statement (.xor x0 x1 x2) := by
  intro w _ h; cases h
  refine decode_three 28 x0.toNat x1.toNat x2.toNat (by decide) x0.isLt x1.isLt x2.isLt _ fun n h1 h2 hd ha hb => ?_
  have ex0 : fieldBv n 16 8 = x0 := fieldBv_eq x0 hd
  have ex1 : fieldBv n 8 8 = x1 := fieldBv_eq x1 ha
  have ex2 : fieldBv n 0 8 = x2 := fieldBv_eq x2 hb
  rw [decodeNat, h1, h2]
  show accept n [] [] (.xor (fieldBv n 16 8) (fieldBv n 8 8) (fieldBv n 0 8)) = _
  rw [ex0, ex1, ex2]
  exact accept_ok rfl

theorem Sys2Proof.Laws.DecodeEncode.not (x0 : BitVec 8) (x1 : BitVec 8) : Statement (.not x0 x1) := by
  intro w _ h; cases h
  refine decode_three 29 x0.toNat x1.toNat 0 (by decide) x0.isLt x1.isLt (by decide) _ fun n h1 h2 hd ha hb => ?_
  have ex0 : fieldBv n 16 8 = x0 := fieldBv_eq x0 hd
  have ex1 : fieldBv n 8 8 = x1 := fieldBv_eq x1 ha
  have r0 : field n 0 8 = 0 := hb
  rw [decodeNat, h1, h2]
  show accept n [(0, 8)] [] (.not (fieldBv n 16 8) (fieldBv n 8 8)) = _
  rw [ex0, ex1]
  exact accept_ok (by simp [r0])

theorem Sys2Proof.Laws.DecodeEncode.shl (x0 : BitVec 8) (x1 : BitVec 8) (x2 : BitVec 8) : Statement (.shl x0 x1 x2) := by
  intro w _ h; cases h
  refine decode_three 30 x0.toNat x1.toNat x2.toNat (by decide) x0.isLt x1.isLt x2.isLt _ fun n h1 h2 hd ha hb => ?_
  have ex0 : fieldBv n 16 8 = x0 := fieldBv_eq x0 hd
  have ex1 : fieldBv n 8 8 = x1 := fieldBv_eq x1 ha
  have ex2 : fieldBv n 0 8 = x2 := fieldBv_eq x2 hb
  rw [decodeNat, h1, h2]
  show accept n [] [] (.shl (fieldBv n 16 8) (fieldBv n 8 8) (fieldBv n 0 8)) = _
  rw [ex0, ex1, ex2]
  exact accept_ok rfl

theorem Sys2Proof.Laws.DecodeEncode.shr (x0 : BitVec 8) (x1 : BitVec 8) (x2 : BitVec 8) : Statement (.shr x0 x1 x2) := by
  intro w _ h; cases h
  refine decode_three 31 x0.toNat x1.toNat x2.toNat (by decide) x0.isLt x1.isLt x2.isLt _ fun n h1 h2 hd ha hb => ?_
  have ex0 : fieldBv n 16 8 = x0 := fieldBv_eq x0 hd
  have ex1 : fieldBv n 8 8 = x1 := fieldBv_eq x1 ha
  have ex2 : fieldBv n 0 8 = x2 := fieldBv_eq x2 hb
  rw [decodeNat, h1, h2]
  show accept n [] [] (.shr (fieldBv n 16 8) (fieldBv n 8 8) (fieldBv n 0 8)) = _
  rw [ex0, ex1, ex2]
  exact accept_ok rfl

theorem Sys2Proof.Laws.DecodeEncode.sar (x0 : BitVec 8) (x1 : BitVec 8) (x2 : BitVec 8) : Statement (.sar x0 x1 x2) := by
  intro w _ h; cases h
  refine decode_three 32 x0.toNat x1.toNat x2.toNat (by decide) x0.isLt x1.isLt x2.isLt _ fun n h1 h2 hd ha hb => ?_
  have ex0 : fieldBv n 16 8 = x0 := fieldBv_eq x0 hd
  have ex1 : fieldBv n 8 8 = x1 := fieldBv_eq x1 ha
  have ex2 : fieldBv n 0 8 = x2 := fieldBv_eq x2 hb
  rw [decodeNat, h1, h2]
  show accept n [] [] (.sar (fieldBv n 16 8) (fieldBv n 8 8) (fieldBv n 0 8)) = _
  rw [ex0, ex1, ex2]
  exact accept_ok rfl

theorem Sys2Proof.Laws.DecodeEncode.rot (x0 : BitVec 8) (x1 : BitVec 8) (x2 : BitVec 8) : Statement (.rot x0 x1 x2) := by
  intro w _ h; cases h
  refine decode_three 33 x0.toNat x1.toNat x2.toNat (by decide) x0.isLt x1.isLt x2.isLt _ fun n h1 h2 hd ha hb => ?_
  have ex0 : fieldBv n 16 8 = x0 := fieldBv_eq x0 hd
  have ex1 : fieldBv n 8 8 = x1 := fieldBv_eq x1 ha
  have ex2 : fieldBv n 0 8 = x2 := fieldBv_eq x2 hb
  rw [decodeNat, h1, h2]
  show accept n [] [] (.rot (fieldBv n 16 8) (fieldBv n 8 8) (fieldBv n 0 8)) = _
  rw [ex0, ex1, ex2]
  exact accept_ok rfl

theorem Sys2Proof.Laws.DecodeEncode.popc (x0 : BitVec 8) (x1 : BitVec 8) : Statement (.popc x0 x1) := by
  intro w _ h; cases h
  refine decode_three 34 x0.toNat x1.toNat 0 (by decide) x0.isLt x1.isLt (by decide) _ fun n h1 h2 hd ha hb => ?_
  have ex0 : fieldBv n 16 8 = x0 := fieldBv_eq x0 hd
  have ex1 : fieldBv n 8 8 = x1 := fieldBv_eq x1 ha
  have r0 : field n 0 8 = 0 := hb
  rw [decodeNat, h1, h2]
  show accept n [(0, 8)] [] (.popc (fieldBv n 16 8) (fieldBv n 8 8)) = _
  rw [ex0, ex1]
  exact accept_ok (by simp [r0])

theorem Sys2Proof.Laws.DecodeEncode.clz (x0 : BitVec 8) (x1 : BitVec 8) : Statement (.clz x0 x1) := by
  intro w _ h; cases h
  refine decode_three 35 x0.toNat x1.toNat 0 (by decide) x0.isLt x1.isLt (by decide) _ fun n h1 h2 hd ha hb => ?_
  have ex0 : fieldBv n 16 8 = x0 := fieldBv_eq x0 hd
  have ex1 : fieldBv n 8 8 = x1 := fieldBv_eq x1 ha
  have r0 : field n 0 8 = 0 := hb
  rw [decodeNat, h1, h2]
  show accept n [(0, 8)] [] (.clz (fieldBv n 16 8) (fieldBv n 8 8)) = _
  rw [ex0, ex1]
  exact accept_ok (by simp [r0])

theorem Sys2Proof.Laws.DecodeEncode.bfx (x0 : BitVec 8) (x1 : BitVec 8) (x2 : BitVec 8) : Statement (.bfx x0 x1 x2) := by
  intro w _ h; cases h
  refine decode_three 36 x0.toNat x1.toNat x2.toNat (by decide) x0.isLt x1.isLt x2.isLt _ fun n h1 h2 hd ha hb => ?_
  have ex0 : fieldBv n 16 8 = x0 := fieldBv_eq x0 hd
  have ex1 : fieldBv n 8 8 = x1 := fieldBv_eq x1 ha
  have ex2 : fieldBv n 0 8 = x2 := fieldBv_eq x2 hb
  rw [decodeNat, h1, h2]
  show accept n [] [] (.bfx (fieldBv n 16 8) (fieldBv n 8 8) (fieldBv n 0 8)) = _
  rw [ex0, ex1, ex2]
  exact accept_ok rfl

theorem Sys2Proof.Laws.DecodeEncode.bfi (x0 : BitVec 8) (x1 : BitVec 8) (x2 : BitVec 8) : Statement (.bfi x0 x1 x2) := by
  intro w _ h; cases h
  refine decode_three 37 x0.toNat x1.toNat x2.toNat (by decide) x0.isLt x1.isLt x2.isLt _ fun n h1 h2 hd ha hb => ?_
  have ex0 : fieldBv n 16 8 = x0 := fieldBv_eq x0 hd
  have ex1 : fieldBv n 8 8 = x1 := fieldBv_eq x1 ha
  have ex2 : fieldBv n 0 8 = x2 := fieldBv_eq x2 hb
  rw [decodeNat, h1, h2]
  show accept n [] [] (.bfi (fieldBv n 16 8) (fieldBv n 8 8) (fieldBv n 0 8)) = _
  rw [ex0, ex1, ex2]
  exact accept_ok rfl

theorem Sys2Proof.Laws.DecodeEncode.cmpeq (x0 : BitVec 3) (x1 : BitVec 8) (x2 : BitVec 8) : Statement (.cmpeq x0 x1 x2) := by
  intro w _ h; cases h
  have lx0 := x0.isLt
  have lx1 := x1.isLt
  have lx2 := x2.isLt
  refine decode_three 38 x0.toNat x1.toNat x2.toNat (by decide) (by omega) x1.isLt x2.isLt _ fun n h1 h2 hd ha hb => ?_
  have ex0 : fieldBv n 16 3 = x0 := fieldBv_eq x0 (by omega)
  have ex1 : fieldBv n 8 8 = x1 := fieldBv_eq x1 ha
  have ex2 : fieldBv n 0 8 = x2 := fieldBv_eq x2 hb
  have r0 : field n 19 5 = 0 := by unfold field; omega
  rw [decodeNat, h1, h2]
  show accept n [] [(19, 5)] (.cmpeq (fieldBv n 16 3) (fieldBv n 8 8) (fieldBv n 0 8)) = _
  rw [ex0, ex1, ex2]
  exact accept_ok (by simp [r0])

theorem Sys2Proof.Laws.DecodeEncode.cmpne (x0 : BitVec 3) (x1 : BitVec 8) (x2 : BitVec 8) : Statement (.cmpne x0 x1 x2) := by
  intro w _ h; cases h
  have lx0 := x0.isLt
  have lx1 := x1.isLt
  have lx2 := x2.isLt
  refine decode_three 39 x0.toNat x1.toNat x2.toNat (by decide) (by omega) x1.isLt x2.isLt _ fun n h1 h2 hd ha hb => ?_
  have ex0 : fieldBv n 16 3 = x0 := fieldBv_eq x0 (by omega)
  have ex1 : fieldBv n 8 8 = x1 := fieldBv_eq x1 ha
  have ex2 : fieldBv n 0 8 = x2 := fieldBv_eq x2 hb
  have r0 : field n 19 5 = 0 := by unfold field; omega
  rw [decodeNat, h1, h2]
  show accept n [] [(19, 5)] (.cmpne (fieldBv n 16 3) (fieldBv n 8 8) (fieldBv n 0 8)) = _
  rw [ex0, ex1, ex2]
  exact accept_ok (by simp [r0])

theorem Sys2Proof.Laws.DecodeEncode.cmplt (x0 : BitVec 3) (x1 : BitVec 8) (x2 : BitVec 8) : Statement (.cmplt x0 x1 x2) := by
  intro w _ h; cases h
  have lx0 := x0.isLt
  have lx1 := x1.isLt
  have lx2 := x2.isLt
  refine decode_three 40 x0.toNat x1.toNat x2.toNat (by decide) (by omega) x1.isLt x2.isLt _ fun n h1 h2 hd ha hb => ?_
  have ex0 : fieldBv n 16 3 = x0 := fieldBv_eq x0 (by omega)
  have ex1 : fieldBv n 8 8 = x1 := fieldBv_eq x1 ha
  have ex2 : fieldBv n 0 8 = x2 := fieldBv_eq x2 hb
  have r0 : field n 19 5 = 0 := by unfold field; omega
  rw [decodeNat, h1, h2]
  show accept n [] [(19, 5)] (.cmplt (fieldBv n 16 3) (fieldBv n 8 8) (fieldBv n 0 8)) = _
  rw [ex0, ex1, ex2]
  exact accept_ok (by simp [r0])

theorem Sys2Proof.Laws.DecodeEncode.cmple (x0 : BitVec 3) (x1 : BitVec 8) (x2 : BitVec 8) : Statement (.cmple x0 x1 x2) := by
  intro w _ h; cases h
  have lx0 := x0.isLt
  have lx1 := x1.isLt
  have lx2 := x2.isLt
  refine decode_three 41 x0.toNat x1.toNat x2.toNat (by decide) (by omega) x1.isLt x2.isLt _ fun n h1 h2 hd ha hb => ?_
  have ex0 : fieldBv n 16 3 = x0 := fieldBv_eq x0 (by omega)
  have ex1 : fieldBv n 8 8 = x1 := fieldBv_eq x1 ha
  have ex2 : fieldBv n 0 8 = x2 := fieldBv_eq x2 hb
  have r0 : field n 19 5 = 0 := by unfold field; omega
  rw [decodeNat, h1, h2]
  show accept n [] [(19, 5)] (.cmple (fieldBv n 16 3) (fieldBv n 8 8) (fieldBv n 0 8)) = _
  rw [ex0, ex1, ex2]
  exact accept_ok (by simp [r0])

theorem Sys2Proof.Laws.DecodeEncode.sel (x0 : BitVec 8) (x1 : BitVec 8) (x2 : BitVec 8) : Statement (.sel x0 x1 x2) := by
  intro w _ h; cases h
  refine decode_three 42 x0.toNat x1.toNat x2.toNat (by decide) x0.isLt x1.isLt x2.isLt _ fun n h1 h2 hd ha hb => ?_
  have ex0 : fieldBv n 16 8 = x0 := fieldBv_eq x0 hd
  have ex1 : fieldBv n 8 8 = x1 := fieldBv_eq x1 ha
  have ex2 : fieldBv n 0 8 = x2 := fieldBv_eq x2 hb
  rw [decodeNat, h1, h2]
  show accept n [] [] (.sel (fieldBv n 16 8) (fieldBv n 8 8) (fieldBv n 0 8)) = _
  rw [ex0, ex1, ex2]
  exact accept_ok rfl

theorem Sys2Proof.Laws.DecodeEncode.li (x0 : BitVec 8) (x1 : BitVec 16) : Statement (.li x0 x1) := by
  intro w _ h; cases h
  refine decode_imm 43 x0.toNat x1.toNat (by decide) x0.isLt x1.isLt _ fun n h1 h2 hd hi => ?_
  have ex0 : fieldBv n 16 8 = x0 := fieldBv_eq x0 hd
  have ex1 : fieldBv n 0 16 = x1 := fieldBv_eq x1 hi
  rw [decodeNat, h1, h2]
  show accept n [] [] (.li (fieldBv n 16 8) (fieldBv n 0 16)) = _
  rw [ex0, ex1]
  exact accept_ok rfl

theorem Sys2Proof.Laws.DecodeEncode.lih (x0 : BitVec 8) (x1 : BitVec 16) : Statement (.lih x0 x1) := by
  intro w _ h; cases h
  refine decode_imm 44 x0.toNat x1.toNat (by decide) x0.isLt x1.isLt _ fun n h1 h2 hd hi => ?_
  have ex0 : fieldBv n 16 8 = x0 := fieldBv_eq x0 hd
  have ex1 : fieldBv n 0 16 = x1 := fieldBv_eq x1 hi
  rw [decodeNat, h1, h2]
  show accept n [] [] (.lih (fieldBv n 16 8) (fieldBv n 0 16)) = _
  rw [ex0, ex1]
  exact accept_ok rfl

theorem Sys2Proof.Laws.DecodeEncode.mov (x0 : BitVec 8) (x1 : BitVec 8) : Statement (.mov x0 x1) := by
  intro w _ h; cases h
  refine decode_three 45 x0.toNat x1.toNat 0 (by decide) x0.isLt x1.isLt (by decide) _ fun n h1 h2 hd ha hb => ?_
  have ex0 : fieldBv n 16 8 = x0 := fieldBv_eq x0 hd
  have ex1 : fieldBv n 8 8 = x1 := fieldBv_eq x1 ha
  have r0 : field n 0 8 = 0 := hb
  rw [decodeNat, h1, h2]
  show accept n [(0, 8)] [] (.mov (fieldBv n 16 8) (fieldBv n 8 8)) = _
  rw [ex0, ex1]
  exact accept_ok (by simp [r0])

theorem Sys2Proof.Laws.DecodeEncode.adda (x0 : BitVec 8) (x1 : BitVec 8) (x2 : BitVec 8) : Statement (.adda x0 x1 x2) := by
  intro w _ h; cases h
  refine decode_three 46 x0.toNat x1.toNat x2.toNat (by decide) x0.isLt x1.isLt x2.isLt _ fun n h1 h2 hd ha hb => ?_
  have ex0 : fieldBv n 16 8 = x0 := fieldBv_eq x0 hd
  have ex1 : fieldBv n 8 8 = x1 := fieldBv_eq x1 ha
  have ex2 : fieldBv n 0 8 = x2 := fieldBv_eq x2 hb
  rw [decodeNat, h1, h2]
  show accept n [] [] (.adda (fieldBv n 16 8) (fieldBv n 8 8) (fieldBv n 0 8)) = _
  rw [ex0, ex1, ex2]
  exact accept_ok rfl

theorem Sys2Proof.Laws.DecodeEncode.suba (x0 : BitVec 8) (x1 : BitVec 8) (x2 : BitVec 8) : Statement (.suba x0 x1 x2) := by
  intro w _ h; cases h
  refine decode_three 47 x0.toNat x1.toNat x2.toNat (by decide) x0.isLt x1.isLt x2.isLt _ fun n h1 h2 hd ha hb => ?_
  have ex0 : fieldBv n 16 8 = x0 := fieldBv_eq x0 hd
  have ex1 : fieldBv n 8 8 = x1 := fieldBv_eq x1 ha
  have ex2 : fieldBv n 0 8 = x2 := fieldBv_eq x2 hb
  rw [decodeNat, h1, h2]
  show accept n [] [] (.suba (fieldBv n 16 8) (fieldBv n 8 8) (fieldBv n 0 8)) = _
  rw [ex0, ex1, ex2]
  exact accept_ok rfl

theorem Sys2Proof.Laws.DecodeEncode.shfl (x0 : BitVec 8) (x1 : BitVec 8) (x2 : BitVec 8) : Statement (.shfl x0 x1 x2) := by
  intro w _ h; cases h
  refine decode_three 48 x0.toNat x1.toNat x2.toNat (by decide) x0.isLt x1.isLt x2.isLt _ fun n h1 h2 hd ha hb => ?_
  have ex0 : fieldBv n 16 8 = x0 := fieldBv_eq x0 hd
  have ex1 : fieldBv n 8 8 = x1 := fieldBv_eq x1 ha
  have ex2 : fieldBv n 0 8 = x2 := fieldBv_eq x2 hb
  rw [decodeNat, h1, h2]
  show accept n [] [] (.shfl (fieldBv n 16 8) (fieldBv n 8 8) (fieldBv n 0 8)) = _
  rw [ex0, ex1, ex2]
  exact accept_ok rfl

theorem Sys2Proof.Laws.DecodeEncode.shflUp (x0 : BitVec 8) (x1 : BitVec 8) (x2 : BitVec 8) : Statement (.shflUp x0 x1 x2) := by
  intro w _ h; cases h
  refine decode_three 49 x0.toNat x1.toNat x2.toNat (by decide) x0.isLt x1.isLt x2.isLt _ fun n h1 h2 hd ha hb => ?_
  have ex0 : fieldBv n 16 8 = x0 := fieldBv_eq x0 hd
  have ex1 : fieldBv n 8 8 = x1 := fieldBv_eq x1 ha
  have ex2 : fieldBv n 0 8 = x2 := fieldBv_eq x2 hb
  rw [decodeNat, h1, h2]
  show accept n [] [] (.shflUp (fieldBv n 16 8) (fieldBv n 8 8) (fieldBv n 0 8)) = _
  rw [ex0, ex1, ex2]
  exact accept_ok rfl

theorem Sys2Proof.Laws.DecodeEncode.shflDn (x0 : BitVec 8) (x1 : BitVec 8) (x2 : BitVec 8) : Statement (.shflDn x0 x1 x2) := by
  intro w _ h; cases h
  refine decode_three 50 x0.toNat x1.toNat x2.toNat (by decide) x0.isLt x1.isLt x2.isLt _ fun n h1 h2 hd ha hb => ?_
  have ex0 : fieldBv n 16 8 = x0 := fieldBv_eq x0 hd
  have ex1 : fieldBv n 8 8 = x1 := fieldBv_eq x1 ha
  have ex2 : fieldBv n 0 8 = x2 := fieldBv_eq x2 hb
  rw [decodeNat, h1, h2]
  show accept n [] [] (.shflDn (fieldBv n 16 8) (fieldBv n 8 8) (fieldBv n 0 8)) = _
  rw [ex0, ex1, ex2]
  exact accept_ok rfl

theorem Sys2Proof.Laws.DecodeEncode.shflXor (x0 : BitVec 8) (x1 : BitVec 8) (x2 : BitVec 8) : Statement (.shflXor x0 x1 x2) := by
  intro w _ h; cases h
  refine decode_three 51 x0.toNat x1.toNat x2.toNat (by decide) x0.isLt x1.isLt x2.isLt _ fun n h1 h2 hd ha hb => ?_
  have ex0 : fieldBv n 16 8 = x0 := fieldBv_eq x0 hd
  have ex1 : fieldBv n 8 8 = x1 := fieldBv_eq x1 ha
  have ex2 : fieldBv n 0 8 = x2 := fieldBv_eq x2 hb
  rw [decodeNat, h1, h2]
  show accept n [] [] (.shflXor (fieldBv n 16 8) (fieldBv n 8 8) (fieldBv n 0 8)) = _
  rw [ex0, ex1, ex2]
  exact accept_ok rfl

theorem Sys2Proof.Laws.DecodeEncode.bcast (x0 : BitVec 8) (x1 : BitVec 8) (x2 : BitVec 8) : Statement (.bcast x0 x1 x2) := by
  intro w _ h; cases h
  refine decode_three 52 x0.toNat x1.toNat x2.toNat (by decide) x0.isLt x1.isLt x2.isLt _ fun n h1 h2 hd ha hb => ?_
  have ex0 : fieldBv n 16 8 = x0 := fieldBv_eq x0 hd
  have ex1 : fieldBv n 8 8 = x1 := fieldBv_eq x1 ha
  have ex2 : fieldBv n 0 8 = x2 := fieldBv_eq x2 hb
  rw [decodeNat, h1, h2]
  show accept n [] [] (.bcast (fieldBv n 16 8) (fieldBv n 8 8) (fieldBv n 0 8)) = _
  rw [ex0, ex1, ex2]
  exact accept_ok rfl

theorem Sys2Proof.Laws.DecodeEncode.voteAny (x0 : BitVec 8) (x1 : BitVec 8) : Statement (.voteAny x0 x1) := by
  intro w _ h; cases h
  refine decode_three 53 x0.toNat x1.toNat 0 (by decide) x0.isLt x1.isLt (by decide) _ fun n h1 h2 hd ha hb => ?_
  have ex0 : fieldBv n 16 8 = x0 := fieldBv_eq x0 hd
  have ex1 : fieldBv n 8 8 = x1 := fieldBv_eq x1 ha
  have r0 : field n 0 8 = 0 := hb
  rw [decodeNat, h1, h2]
  show accept n [(0, 8)] [] (.voteAny (fieldBv n 16 8) (fieldBv n 8 8)) = _
  rw [ex0, ex1]
  exact accept_ok (by simp [r0])

theorem Sys2Proof.Laws.DecodeEncode.voteAll (x0 : BitVec 8) (x1 : BitVec 8) : Statement (.voteAll x0 x1) := by
  intro w _ h; cases h
  refine decode_three 54 x0.toNat x1.toNat 0 (by decide) x0.isLt x1.isLt (by decide) _ fun n h1 h2 hd ha hb => ?_
  have ex0 : fieldBv n 16 8 = x0 := fieldBv_eq x0 hd
  have ex1 : fieldBv n 8 8 = x1 := fieldBv_eq x1 ha
  have r0 : field n 0 8 = 0 := hb
  rw [decodeNat, h1, h2]
  show accept n [(0, 8)] [] (.voteAll (fieldBv n 16 8) (fieldBv n 8 8)) = _
  rw [ex0, ex1]
  exact accept_ok (by simp [r0])

theorem Sys2Proof.Laws.DecodeEncode.voteBal (x0 : BitVec 8) (x1 : BitVec 8) : Statement (.voteBal x0 x1) := by
  intro w _ h; cases h
  refine decode_three 55 x0.toNat x1.toNat 0 (by decide) x0.isLt x1.isLt (by decide) _ fun n h1 h2 hd ha hb => ?_
  have ex0 : fieldBv n 16 8 = x0 := fieldBv_eq x0 hd
  have ex1 : fieldBv n 8 8 = x1 := fieldBv_eq x1 ha
  have r0 : field n 0 8 = 0 := hb
  rw [decodeNat, h1, h2]
  show accept n [(0, 8)] [] (.voteBal (fieldBv n 16 8) (fieldBv n 8 8)) = _
  rw [ex0, ex1]
  exact accept_ok (by simp [r0])

theorem Sys2Proof.Laws.DecodeEncode.scanAdd (x0 : BitVec 8) (x1 : BitVec 8) (x2 : BitVec 8) : Statement (.scanAdd x0 x1 x2) := by
  intro w _ h; cases h
  refine decode_three 56 x0.toNat x1.toNat x2.toNat (by decide) x0.isLt x1.isLt x2.isLt _ fun n h1 h2 hd ha hb => ?_
  have ex0 : fieldBv n 16 8 = x0 := fieldBv_eq x0 hd
  have ex1 : fieldBv n 8 8 = x1 := fieldBv_eq x1 ha
  have ex2 : fieldBv n 0 8 = x2 := fieldBv_eq x2 hb
  rw [decodeNat, h1, h2]
  show accept n [] [] (.scanAdd (fieldBv n 16 8) (fieldBv n 8 8) (fieldBv n 0 8)) = _
  rw [ex0, ex1, ex2]
  exact accept_ok rfl

theorem Sys2Proof.Laws.DecodeEncode.scanMax (x0 : BitVec 8) (x1 : BitVec 8) (x2 : BitVec 8) : Statement (.scanMax x0 x1 x2) := by
  intro w _ h; cases h
  refine decode_three 57 x0.toNat x1.toNat x2.toNat (by decide) x0.isLt x1.isLt x2.isLt _ fun n h1 h2 hd ha hb => ?_
  have ex0 : fieldBv n 16 8 = x0 := fieldBv_eq x0 hd
  have ex1 : fieldBv n 8 8 = x1 := fieldBv_eq x1 ha
  have ex2 : fieldBv n 0 8 = x2 := fieldBv_eq x2 hb
  rw [decodeNat, h1, h2]
  show accept n [] [] (.scanMax (fieldBv n 16 8) (fieldBv n 8 8) (fieldBv n 0 8)) = _
  rw [ex0, ex1, ex2]
  exact accept_ok rfl

theorem Sys2Proof.Laws.DecodeEncode.reduceAdd (x0 : BitVec 8) (x1 : BitVec 8) : Statement (.reduceAdd x0 x1) := by
  intro w _ h; cases h
  refine decode_three 58 x0.toNat x1.toNat 0 (by decide) x0.isLt x1.isLt (by decide) _ fun n h1 h2 hd ha hb => ?_
  have ex0 : fieldBv n 16 8 = x0 := fieldBv_eq x0 hd
  have ex1 : fieldBv n 8 8 = x1 := fieldBv_eq x1 ha
  have r0 : field n 0 8 = 0 := hb
  rw [decodeNat, h1, h2]
  show accept n [(0, 8)] [] (.reduceAdd (fieldBv n 16 8) (fieldBv n 8 8)) = _
  rw [ex0, ex1]
  exact accept_ok (by simp [r0])

theorem Sys2Proof.Laws.DecodeEncode.reduceMin (x0 : BitVec 8) (x1 : BitVec 8) : Statement (.reduceMin x0 x1) := by
  intro w _ h; cases h
  refine decode_three 59 x0.toNat x1.toNat 0 (by decide) x0.isLt x1.isLt (by decide) _ fun n h1 h2 hd ha hb => ?_
  have ex0 : fieldBv n 16 8 = x0 := fieldBv_eq x0 hd
  have ex1 : fieldBv n 8 8 = x1 := fieldBv_eq x1 ha
  have r0 : field n 0 8 = 0 := hb
  rw [decodeNat, h1, h2]
  show accept n [(0, 8)] [] (.reduceMin (fieldBv n 16 8) (fieldBv n 8 8)) = _
  rw [ex0, ex1]
  exact accept_ok (by simp [r0])

theorem Sys2Proof.Laws.DecodeEncode.reduceMax (x0 : BitVec 8) (x1 : BitVec 8) : Statement (.reduceMax x0 x1) := by
  intro w _ h; cases h
  refine decode_three 60 x0.toNat x1.toNat 0 (by decide) x0.isLt x1.isLt (by decide) _ fun n h1 h2 hd ha hb => ?_
  have ex0 : fieldBv n 16 8 = x0 := fieldBv_eq x0 hd
  have ex1 : fieldBv n 8 8 = x1 := fieldBv_eq x1 ha
  have r0 : field n 0 8 = 0 := hb
  rw [decodeNat, h1, h2]
  show accept n [(0, 8)] [] (.reduceMax (fieldBv n 16 8) (fieldBv n 8 8)) = _
  rw [ex0, ex1]
  exact accept_ok (by simp [r0])

theorem Sys2Proof.Laws.DecodeEncode.fadd (x0 : BitVec 8) (x1 : BitVec 8) (x2 : BitVec 8) : Statement (.fadd x0 x1 x2) := by
  intro w _ h; cases h
  refine decode_three 64 x0.toNat x1.toNat x2.toNat (by decide) x0.isLt x1.isLt x2.isLt _ fun n h1 h2 hd ha hb => ?_
  have ex0 : fieldBv n 16 8 = x0 := fieldBv_eq x0 hd
  have ex1 : fieldBv n 8 8 = x1 := fieldBv_eq x1 ha
  have ex2 : fieldBv n 0 8 = x2 := fieldBv_eq x2 hb
  rw [decodeNat, h1, h2]
  show accept n [] [] (.fadd (fieldBv n 16 8) (fieldBv n 8 8) (fieldBv n 0 8)) = _
  rw [ex0, ex1, ex2]
  exact accept_ok rfl

theorem Sys2Proof.Laws.DecodeEncode.fsub (x0 : BitVec 8) (x1 : BitVec 8) (x2 : BitVec 8) : Statement (.fsub x0 x1 x2) := by
  intro w _ h; cases h
  refine decode_three 65 x0.toNat x1.toNat x2.toNat (by decide) x0.isLt x1.isLt x2.isLt _ fun n h1 h2 hd ha hb => ?_
  have ex0 : fieldBv n 16 8 = x0 := fieldBv_eq x0 hd
  have ex1 : fieldBv n 8 8 = x1 := fieldBv_eq x1 ha
  have ex2 : fieldBv n 0 8 = x2 := fieldBv_eq x2 hb
  rw [decodeNat, h1, h2]
  show accept n [] [] (.fsub (fieldBv n 16 8) (fieldBv n 8 8) (fieldBv n 0 8)) = _
  rw [ex0, ex1, ex2]
  exact accept_ok rfl

theorem Sys2Proof.Laws.DecodeEncode.fmul (x0 : BitVec 8) (x1 : BitVec 8) (x2 : BitVec 8) : Statement (.fmul x0 x1 x2) := by
  intro w _ h; cases h
  refine decode_three 66 x0.toNat x1.toNat x2.toNat (by decide) x0.isLt x1.isLt x2.isLt _ fun n h1 h2 hd ha hb => ?_
  have ex0 : fieldBv n 16 8 = x0 := fieldBv_eq x0 hd
  have ex1 : fieldBv n 8 8 = x1 := fieldBv_eq x1 ha
  have ex2 : fieldBv n 0 8 = x2 := fieldBv_eq x2 hb
  rw [decodeNat, h1, h2]
  show accept n [] [] (.fmul (fieldBv n 16 8) (fieldBv n 8 8) (fieldBv n 0 8)) = _
  rw [ex0, ex1, ex2]
  exact accept_ok rfl

theorem Sys2Proof.Laws.DecodeEncode.fma (x0 : BitVec 8) (x1 : BitVec 8) (x2 : BitVec 8) : Statement (.fma x0 x1 x2) := by
  intro w _ h; cases h
  refine decode_three 67 x0.toNat x1.toNat x2.toNat (by decide) x0.isLt x1.isLt x2.isLt _ fun n h1 h2 hd ha hb => ?_
  have ex0 : fieldBv n 16 8 = x0 := fieldBv_eq x0 hd
  have ex1 : fieldBv n 8 8 = x1 := fieldBv_eq x1 ha
  have ex2 : fieldBv n 0 8 = x2 := fieldBv_eq x2 hb
  rw [decodeNat, h1, h2]
  show accept n [] [] (.fma (fieldBv n 16 8) (fieldBv n 8 8) (fieldBv n 0 8)) = _
  rw [ex0, ex1, ex2]
  exact accept_ok rfl

theorem Sys2Proof.Laws.DecodeEncode.fms (x0 : BitVec 8) (x1 : BitVec 8) (x2 : BitVec 8) : Statement (.fms x0 x1 x2) := by
  intro w _ h; cases h
  refine decode_three 68 x0.toNat x1.toNat x2.toNat (by decide) x0.isLt x1.isLt x2.isLt _ fun n h1 h2 hd ha hb => ?_
  have ex0 : fieldBv n 16 8 = x0 := fieldBv_eq x0 hd
  have ex1 : fieldBv n 8 8 = x1 := fieldBv_eq x1 ha
  have ex2 : fieldBv n 0 8 = x2 := fieldBv_eq x2 hb
  rw [decodeNat, h1, h2]
  show accept n [] [] (.fms (fieldBv n 16 8) (fieldBv n 8 8) (fieldBv n 0 8)) = _
  rw [ex0, ex1, ex2]
  exact accept_ok rfl

theorem Sys2Proof.Laws.DecodeEncode.fdiv (x0 : BitVec 8) (x1 : BitVec 8) (x2 : BitVec 8) : Statement (.fdiv x0 x1 x2) := by
  intro w _ h; cases h
  refine decode_three 69 x0.toNat x1.toNat x2.toNat (by decide) x0.isLt x1.isLt x2.isLt _ fun n h1 h2 hd ha hb => ?_
  have ex0 : fieldBv n 16 8 = x0 := fieldBv_eq x0 hd
  have ex1 : fieldBv n 8 8 = x1 := fieldBv_eq x1 ha
  have ex2 : fieldBv n 0 8 = x2 := fieldBv_eq x2 hb
  rw [decodeNat, h1, h2]
  show accept n [] [] (.fdiv (fieldBv n 16 8) (fieldBv n 8 8) (fieldBv n 0 8)) = _
  rw [ex0, ex1, ex2]
  exact accept_ok rfl

theorem Sys2Proof.Laws.DecodeEncode.fsqrt (x0 : BitVec 8) (x1 : BitVec 8) : Statement (.fsqrt x0 x1) := by
  intro w _ h; cases h
  refine decode_three 70 x0.toNat x1.toNat 0 (by decide) x0.isLt x1.isLt (by decide) _ fun n h1 h2 hd ha hb => ?_
  have ex0 : fieldBv n 16 8 = x0 := fieldBv_eq x0 hd
  have ex1 : fieldBv n 8 8 = x1 := fieldBv_eq x1 ha
  have r0 : field n 0 8 = 0 := hb
  rw [decodeNat, h1, h2]
  show accept n [(0, 8)] [] (.fsqrt (fieldBv n 16 8) (fieldBv n 8 8)) = _
  rw [ex0, ex1]
  exact accept_ok (by simp [r0])

theorem Sys2Proof.Laws.DecodeEncode.frcp (x0 : BitVec 8) (x1 : BitVec 8) : Statement (.frcp x0 x1) := by
  intro w _ h; cases h
  refine decode_three 71 x0.toNat x1.toNat 0 (by decide) x0.isLt x1.isLt (by decide) _ fun n h1 h2 hd ha hb => ?_
  have ex0 : fieldBv n 16 8 = x0 := fieldBv_eq x0 hd
  have ex1 : fieldBv n 8 8 = x1 := fieldBv_eq x1 ha
  have r0 : field n 0 8 = 0 := hb
  rw [decodeNat, h1, h2]
  show accept n [(0, 8)] [] (.frcp (fieldBv n 16 8) (fieldBv n 8 8)) = _
  rw [ex0, ex1]
  exact accept_ok (by simp [r0])

theorem Sys2Proof.Laws.DecodeEncode.frsq (x0 : BitVec 8) (x1 : BitVec 8) : Statement (.frsq x0 x1) := by
  intro w _ h; cases h
  refine decode_three 72 x0.toNat x1.toNat 0 (by decide) x0.isLt x1.isLt (by decide) _ fun n h1 h2 hd ha hb => ?_
  have ex0 : fieldBv n 16 8 = x0 := fieldBv_eq x0 hd
  have ex1 : fieldBv n 8 8 = x1 := fieldBv_eq x1 ha
  have r0 : field n 0 8 = 0 := hb
  rw [decodeNat, h1, h2]
  show accept n [(0, 8)] [] (.frsq (fieldBv n 16 8) (fieldBv n 8 8)) = _
  rw [ex0, ex1]
  exact accept_ok (by simp [r0])

theorem Sys2Proof.Laws.DecodeEncode.fmin (x0 : BitVec 8) (x1 : BitVec 8) (x2 : BitVec 8) : Statement (.fmin x0 x1 x2) := by
  intro w _ h; cases h
  refine decode_three 73 x0.toNat x1.toNat x2.toNat (by decide) x0.isLt x1.isLt x2.isLt _ fun n h1 h2 hd ha hb => ?_
  have ex0 : fieldBv n 16 8 = x0 := fieldBv_eq x0 hd
  have ex1 : fieldBv n 8 8 = x1 := fieldBv_eq x1 ha
  have ex2 : fieldBv n 0 8 = x2 := fieldBv_eq x2 hb
  rw [decodeNat, h1, h2]
  show accept n [] [] (.fmin (fieldBv n 16 8) (fieldBv n 8 8) (fieldBv n 0 8)) = _
  rw [ex0, ex1, ex2]
  exact accept_ok rfl

theorem Sys2Proof.Laws.DecodeEncode.fmax (x0 : BitVec 8) (x1 : BitVec 8) (x2 : BitVec 8) : Statement (.fmax x0 x1 x2) := by
  intro w _ h; cases h
  refine decode_three 74 x0.toNat x1.toNat x2.toNat (by decide) x0.isLt x1.isLt x2.isLt _ fun n h1 h2 hd ha hb => ?_
  have ex0 : fieldBv n 16 8 = x0 := fieldBv_eq x0 hd
  have ex1 : fieldBv n 8 8 = x1 := fieldBv_eq x1 ha
  have ex2 : fieldBv n 0 8 = x2 := fieldBv_eq x2 hb
  rw [decodeNat, h1, h2]
  show accept n [] [] (.fmax (fieldBv n 16 8) (fieldBv n 8 8) (fieldBv n 0 8)) = _
  rw [ex0, ex1, ex2]
  exact accept_ok rfl

theorem Sys2Proof.Laws.DecodeEncode.fabs (x0 : BitVec 8) (x1 : BitVec 8) : Statement (.fabs x0 x1) := by
  intro w _ h; cases h
  refine decode_three 75 x0.toNat x1.toNat 0 (by decide) x0.isLt x1.isLt (by decide) _ fun n h1 h2 hd ha hb => ?_
  have ex0 : fieldBv n 16 8 = x0 := fieldBv_eq x0 hd
  have ex1 : fieldBv n 8 8 = x1 := fieldBv_eq x1 ha
  have r0 : field n 0 8 = 0 := hb
  rw [decodeNat, h1, h2]
  show accept n [(0, 8)] [] (.fabs (fieldBv n 16 8) (fieldBv n 8 8)) = _
  rw [ex0, ex1]
  exact accept_ok (by simp [r0])

theorem Sys2Proof.Laws.DecodeEncode.fneg (x0 : BitVec 8) (x1 : BitVec 8) : Statement (.fneg x0 x1) := by
  intro w _ h; cases h
  refine decode_three 76 x0.toNat x1.toNat 0 (by decide) x0.isLt x1.isLt (by decide) _ fun n h1 h2 hd ha hb => ?_
  have ex0 : fieldBv n 16 8 = x0 := fieldBv_eq x0 hd
  have ex1 : fieldBv n 8 8 = x1 := fieldBv_eq x1 ha
  have r0 : field n 0 8 = 0 := hb
  rw [decodeNat, h1, h2]
  show accept n [(0, 8)] [] (.fneg (fieldBv n 16 8) (fieldBv n 8 8)) = _
  rw [ex0, ex1]
  exact accept_ok (by simp [r0])

theorem Sys2Proof.Laws.DecodeEncode.fcmpeq (x0 : BitVec 3) (x1 : BitVec 8) (x2 : BitVec 8) : Statement (.fcmpeq x0 x1 x2) := by
  intro w _ h; cases h
  have lx0 := x0.isLt
  have lx1 := x1.isLt
  have lx2 := x2.isLt
  refine decode_three 77 x0.toNat x1.toNat x2.toNat (by decide) (by omega) x1.isLt x2.isLt _ fun n h1 h2 hd ha hb => ?_
  have ex0 : fieldBv n 16 3 = x0 := fieldBv_eq x0 (by omega)
  have ex1 : fieldBv n 8 8 = x1 := fieldBv_eq x1 ha
  have ex2 : fieldBv n 0 8 = x2 := fieldBv_eq x2 hb
  have r0 : field n 19 5 = 0 := by unfold field; omega
  rw [decodeNat, h1, h2]
  show accept n [] [(19, 5)] (.fcmpeq (fieldBv n 16 3) (fieldBv n 8 8) (fieldBv n 0 8)) = _
  rw [ex0, ex1, ex2]
  exact accept_ok (by simp [r0])

theorem Sys2Proof.Laws.DecodeEncode.fcmplt (x0 : BitVec 3) (x1 : BitVec 8) (x2 : BitVec 8) : Statement (.fcmplt x0 x1 x2) := by
  intro w _ h; cases h
  have lx0 := x0.isLt
  have lx1 := x1.isLt
  have lx2 := x2.isLt
  refine decode_three 78 x0.toNat x1.toNat x2.toNat (by decide) (by omega) x1.isLt x2.isLt _ fun n h1 h2 hd ha hb => ?_
  have ex0 : fieldBv n 16 3 = x0 := fieldBv_eq x0 (by omega)
  have ex1 : fieldBv n 8 8 = x1 := fieldBv_eq x1 ha
  have ex2 : fieldBv n 0 8 = x2 := fieldBv_eq x2 hb
  have r0 : field n 19 5 = 0 := by unfold field; omega
  rw [decodeNat, h1, h2]
  show accept n [] [(19, 5)] (.fcmplt (fieldBv n 16 3) (fieldBv n 8 8) (fieldBv n 0 8)) = _
  rw [ex0, ex1, ex2]
  exact accept_ok (by simp [r0])

theorem Sys2Proof.Laws.DecodeEncode.fcmple (x0 : BitVec 3) (x1 : BitVec 8) (x2 : BitVec 8) : Statement (.fcmple x0 x1 x2) := by
  intro w _ h; cases h
  have lx0 := x0.isLt
  have lx1 := x1.isLt
  have lx2 := x2.isLt
  refine decode_three 79 x0.toNat x1.toNat x2.toNat (by decide) (by omega) x1.isLt x2.isLt _ fun n h1 h2 hd ha hb => ?_
  have ex0 : fieldBv n 16 3 = x0 := fieldBv_eq x0 (by omega)
  have ex1 : fieldBv n 8 8 = x1 := fieldBv_eq x1 ha
  have ex2 : fieldBv n 0 8 = x2 := fieldBv_eq x2 hb
  have r0 : field n 19 5 = 0 := by unfold field; omega
  rw [decodeNat, h1, h2]
  show accept n [] [(19, 5)] (.fcmple (fieldBv n 16 3) (fieldBv n 8 8) (fieldBv n 0 8)) = _
  rw [ex0, ex1, ex2]
  exact accept_ok (by simp [r0])

theorem Sys2Proof.Laws.DecodeEncode.fcmpun (x0 : BitVec 3) (x1 : BitVec 8) (x2 : BitVec 8) : Statement (.fcmpun x0 x1 x2) := by
  intro w _ h; cases h
  have lx0 := x0.isLt
  have lx1 := x1.isLt
  have lx2 := x2.isLt
  refine decode_three 80 x0.toNat x1.toNat x2.toNat (by decide) (by omega) x1.isLt x2.isLt _ fun n h1 h2 hd ha hb => ?_
  have ex0 : fieldBv n 16 3 = x0 := fieldBv_eq x0 (by omega)
  have ex1 : fieldBv n 8 8 = x1 := fieldBv_eq x1 ha
  have ex2 : fieldBv n 0 8 = x2 := fieldBv_eq x2 hb
  have r0 : field n 19 5 = 0 := by unfold field; omega
  rw [decodeNat, h1, h2]
  show accept n [] [(19, 5)] (.fcmpun (fieldBv n 16 3) (fieldBv n 8 8) (fieldBv n 0 8)) = _
  rw [ex0, ex1, ex2]
  exact accept_ok (by simp [r0])

theorem Sys2Proof.Laws.DecodeEncode.cvtfi (x0 : BitVec 8) (x1 : BitVec 8) : Statement (.cvtfi x0 x1) := by
  intro w _ h; cases h
  refine decode_three 81 x0.toNat x1.toNat 0 (by decide) x0.isLt x1.isLt (by decide) _ fun n h1 h2 hd ha hb => ?_
  have ex0 : fieldBv n 16 8 = x0 := fieldBv_eq x0 hd
  have ex1 : fieldBv n 8 8 = x1 := fieldBv_eq x1 ha
  have r0 : field n 0 8 = 0 := hb
  rw [decodeNat, h1, h2]
  show accept n [(0, 8)] [] (.cvtfi (fieldBv n 16 8) (fieldBv n 8 8)) = _
  rw [ex0, ex1]
  exact accept_ok (by simp [r0])

theorem Sys2Proof.Laws.DecodeEncode.cvtif (x0 : BitVec 8) (x1 : BitVec 8) : Statement (.cvtif x0 x1) := by
  intro w _ h; cases h
  refine decode_three 82 x0.toNat x1.toNat 0 (by decide) x0.isLt x1.isLt (by decide) _ fun n h1 h2 hd ha hb => ?_
  have ex0 : fieldBv n 16 8 = x0 := fieldBv_eq x0 hd
  have ex1 : fieldBv n 8 8 = x1 := fieldBv_eq x1 ha
  have r0 : field n 0 8 = 0 := hb
  rw [decodeNat, h1, h2]
  show accept n [(0, 8)] [] (.cvtif (fieldBv n 16 8) (fieldBv n 8 8)) = _
  rw [ex0, ex1]
  exact accept_ok (by simp [r0])

theorem Sys2Proof.Laws.DecodeEncode.fwiden (x0 : BitVec 8) (x1 : BitVec 8) : Statement (.fwiden x0 x1) := by
  intro w _ h; cases h
  refine decode_three 83 x0.toNat x1.toNat 0 (by decide) x0.isLt x1.isLt (by decide) _ fun n h1 h2 hd ha hb => ?_
  have ex0 : fieldBv n 16 8 = x0 := fieldBv_eq x0 hd
  have ex1 : fieldBv n 8 8 = x1 := fieldBv_eq x1 ha
  have r0 : field n 0 8 = 0 := hb
  rw [decodeNat, h1, h2]
  show accept n [(0, 8)] [] (.fwiden (fieldBv n 16 8) (fieldBv n 8 8)) = _
  rw [ex0, ex1]
  exact accept_ok (by simp [r0])

theorem Sys2Proof.Laws.DecodeEncode.fnarrow (x0 : BitVec 8) (x1 : BitVec 8) : Statement (.fnarrow x0 x1) := by
  intro w _ h; cases h
  refine decode_three 84 x0.toNat x1.toNat 0 (by decide) x0.isLt x1.isLt (by decide) _ fun n h1 h2 hd ha hb => ?_
  have ex0 : fieldBv n 16 8 = x0 := fieldBv_eq x0 hd
  have ex1 : fieldBv n 8 8 = x1 := fieldBv_eq x1 ha
  have r0 : field n 0 8 = 0 := hb
  rw [decodeNat, h1, h2]
  show accept n [(0, 8)] [] (.fnarrow (fieldBv n 16 8) (fieldBv n 8 8)) = _
  rw [ex0, ex1]
  exact accept_ok (by simp [r0])

theorem Sys2Proof.Laws.DecodeEncode.fclass (x0 : BitVec 8) (x1 : BitVec 8) : Statement (.fclass x0 x1) := by
  intro w _ h; cases h
  refine decode_three 85 x0.toNat x1.toNat 0 (by decide) x0.isLt x1.isLt (by decide) _ fun n h1 h2 hd ha hb => ?_
  have ex0 : fieldBv n 16 8 = x0 := fieldBv_eq x0 hd
  have ex1 : fieldBv n 8 8 = x1 := fieldBv_eq x1 ha
  have r0 : field n 0 8 = 0 := hb
  rw [decodeNat, h1, h2]
  show accept n [(0, 8)] [] (.fclass (fieldBv n 16 8) (fieldBv n 8 8)) = _
  rw [ex0, ex1]
  exact accept_ok (by simp [r0])

theorem Sys2Proof.Laws.DecodeEncode.quant (x0 : BitVec 8) (x1 : BitVec 8) (x2 : BitVec 8) : Statement (.quant x0 x1 x2) := by
  intro w _ h; cases h
  refine decode_three 86 x0.toNat x1.toNat x2.toNat (by decide) x0.isLt x1.isLt x2.isLt _ fun n h1 h2 hd ha hb => ?_
  have ex0 : fieldBv n 16 8 = x0 := fieldBv_eq x0 hd
  have ex1 : fieldBv n 8 8 = x1 := fieldBv_eq x1 ha
  have ex2 : fieldBv n 0 8 = x2 := fieldBv_eq x2 hb
  rw [decodeNat, h1, h2]
  show accept n [] [] (.quant (fieldBv n 16 8) (fieldBv n 8 8) (fieldBv n 0 8)) = _
  rw [ex0, ex1, ex2]
  exact accept_ok rfl

theorem Sys2Proof.Laws.DecodeEncode.deq (x0 : BitVec 8) (x1 : BitVec 8) (x2 : BitVec 8) : Statement (.deq x0 x1 x2) := by
  intro w _ h; cases h
  refine decode_three 87 x0.toNat x1.toNat x2.toNat (by decide) x0.isLt x1.isLt x2.isLt _ fun n h1 h2 hd ha hb => ?_
  have ex0 : fieldBv n 16 8 = x0 := fieldBv_eq x0 hd
  have ex1 : fieldBv n 8 8 = x1 := fieldBv_eq x1 ha
  have ex2 : fieldBv n 0 8 = x2 := fieldBv_eq x2 hb
  rw [decodeNat, h1, h2]
  show accept n [] [] (.deq (fieldBv n 16 8) (fieldBv n 8 8) (fieldBv n 0 8)) = _
  rw [ex0, ex1, ex2]
  exact accept_ok rfl

theorem Sys2Proof.Laws.DecodeEncode.tfence : Statement (.tfence) := by
  intro w _ h; cases h
  refine decode_three 88 0 0 0 (by decide) (by decide) (by decide) (by decide) _ fun n h1 h2 hd ha hb => ?_
  have r0 : field n 16 8 = 0 := hd
  have r1 : field n 8 8 = 0 := ha
  have r2 : field n 0 8 = 0 := hb
  rw [decodeNat, h1, h2]
  show accept n [(16, 8), (8, 8), (0, 8)] [] .tfence = _
  exact accept_ok (by simp [r0, r1, r2])

theorem Sys2Proof.Laws.DecodeEncode.fflags (x0 : BitVec 8) (x1 : BitVec 8) : Statement (.fflags x0 x1) := by
  intro w _ h; cases h
  refine decode_three 89 x0.toNat x1.toNat 0 (by decide) x0.isLt x1.isLt (by decide) _ fun n h1 h2 hd ha hb => ?_
  have ex0 : fieldBv n 16 8 = x0 := fieldBv_eq x0 hd
  have ex1 : fieldBv n 8 8 = x1 := fieldBv_eq x1 ha
  have r0 : field n 0 8 = 0 := hb
  rw [decodeNat, h1, h2]
  show accept n [(0, 8)] [] (.fflags (fieldBv n 16 8) (fieldBv n 8 8)) = _
  rw [ex0, ex1]
  exact accept_ok (by simp [r0])

theorem Sys2Proof.Laws.DecodeEncode.dadd (x0 : BitVec 8) (x1 : BitVec 8) (x2 : BitVec 8) : Statement (.dadd x0 x1 x2) := by
  intro w _ h; cases h
  refine decode_three 90 x0.toNat x1.toNat x2.toNat (by decide) x0.isLt x1.isLt x2.isLt _ fun n h1 h2 hd ha hb => ?_
  have ex0 : fieldBv n 16 8 = x0 := fieldBv_eq x0 hd
  have ex1 : fieldBv n 8 8 = x1 := fieldBv_eq x1 ha
  have ex2 : fieldBv n 0 8 = x2 := fieldBv_eq x2 hb
  rw [decodeNat, h1, h2]
  show accept n [] [] (.dadd (fieldBv n 16 8) (fieldBv n 8 8) (fieldBv n 0 8)) = _
  rw [ex0, ex1, ex2]
  exact accept_ok rfl

theorem Sys2Proof.Laws.DecodeEncode.dsub (x0 : BitVec 8) (x1 : BitVec 8) (x2 : BitVec 8) : Statement (.dsub x0 x1 x2) := by
  intro w _ h; cases h
  refine decode_three 91 x0.toNat x1.toNat x2.toNat (by decide) x0.isLt x1.isLt x2.isLt _ fun n h1 h2 hd ha hb => ?_
  have ex0 : fieldBv n 16 8 = x0 := fieldBv_eq x0 hd
  have ex1 : fieldBv n 8 8 = x1 := fieldBv_eq x1 ha
  have ex2 : fieldBv n 0 8 = x2 := fieldBv_eq x2 hb
  rw [decodeNat, h1, h2]
  show accept n [] [] (.dsub (fieldBv n 16 8) (fieldBv n 8 8) (fieldBv n 0 8)) = _
  rw [ex0, ex1, ex2]
  exact accept_ok rfl

theorem Sys2Proof.Laws.DecodeEncode.dmul (x0 : BitVec 8) (x1 : BitVec 8) (x2 : BitVec 8) : Statement (.dmul x0 x1 x2) := by
  intro w _ h; cases h
  refine decode_three 92 x0.toNat x1.toNat x2.toNat (by decide) x0.isLt x1.isLt x2.isLt _ fun n h1 h2 hd ha hb => ?_
  have ex0 : fieldBv n 16 8 = x0 := fieldBv_eq x0 hd
  have ex1 : fieldBv n 8 8 = x1 := fieldBv_eq x1 ha
  have ex2 : fieldBv n 0 8 = x2 := fieldBv_eq x2 hb
  rw [decodeNat, h1, h2]
  show accept n [] [] (.dmul (fieldBv n 16 8) (fieldBv n 8 8) (fieldBv n 0 8)) = _
  rw [ex0, ex1, ex2]
  exact accept_ok rfl

theorem Sys2Proof.Laws.DecodeEncode.dfma (x0 : BitVec 8) (x1 : BitVec 8) (x2 : BitVec 8) : Statement (.dfma x0 x1 x2) := by
  intro w _ h; cases h
  refine decode_three 93 x0.toNat x1.toNat x2.toNat (by decide) x0.isLt x1.isLt x2.isLt _ fun n h1 h2 hd ha hb => ?_
  have ex0 : fieldBv n 16 8 = x0 := fieldBv_eq x0 hd
  have ex1 : fieldBv n 8 8 = x1 := fieldBv_eq x1 ha
  have ex2 : fieldBv n 0 8 = x2 := fieldBv_eq x2 hb
  rw [decodeNat, h1, h2]
  show accept n [] [] (.dfma (fieldBv n 16 8) (fieldBv n 8 8) (fieldBv n 0 8)) = _
  rw [ex0, ex1, ex2]
  exact accept_ok rfl

theorem Sys2Proof.Laws.DecodeEncode.ddiv (x0 : BitVec 8) (x1 : BitVec 8) (x2 : BitVec 8) : Statement (.ddiv x0 x1 x2) := by
  intro w _ h; cases h
  refine decode_three 94 x0.toNat x1.toNat x2.toNat (by decide) x0.isLt x1.isLt x2.isLt _ fun n h1 h2 hd ha hb => ?_
  have ex0 : fieldBv n 16 8 = x0 := fieldBv_eq x0 hd
  have ex1 : fieldBv n 8 8 = x1 := fieldBv_eq x1 ha
  have ex2 : fieldBv n 0 8 = x2 := fieldBv_eq x2 hb
  rw [decodeNat, h1, h2]
  show accept n [] [] (.ddiv (fieldBv n 16 8) (fieldBv n 8 8) (fieldBv n 0 8)) = _
  rw [ex0, ex1, ex2]
  exact accept_ok rfl

theorem Sys2Proof.Laws.DecodeEncode.dcvt (x0 : BitVec 8) (x1 : BitVec 8) (x2 : BitVec 8) : Statement (.dcvt x0 x1 x2) := by
  intro w _ h; cases h
  refine decode_three 95 x0.toNat x1.toNat x2.toNat (by decide) x0.isLt x1.isLt x2.isLt _ fun n h1 h2 hd ha hb => ?_
  have ex0 : fieldBv n 16 8 = x0 := fieldBv_eq x0 hd
  have ex1 : fieldBv n 8 8 = x1 := fieldBv_eq x1 ha
  have ex2 : fieldBv n 0 8 = x2 := fieldBv_eq x2 hb
  rw [decodeNat, h1, h2]
  show accept n [] [] (.dcvt (fieldBv n 16 8) (fieldBv n 8 8) (fieldBv n 0 8)) = _
  rw [ex0, ex1, ex2]
  exact accept_ok rfl

theorem Sys2Proof.Laws.DecodeEncode.ldItype (x0 : BitVec 8) (x1 : BitVec 3) (x2 : BitVec 8) : Statement (.ldItype x0 x1 x2) := by
  intro w _ h; cases h
  have lx0 := x0.isLt
  have lx1 := x1.isLt
  have lx2 := x2.isLt
  refine decode_three 96 x0.toNat x1.toNat x2.toNat (by decide) x0.isLt (by omega) x2.isLt _ fun n h1 h2 hd ha hb => ?_
  have ex0 : fieldBv n 16 8 = x0 := fieldBv_eq x0 hd
  have ex1 : fieldBv n 8 3 = x1 := fieldBv_eq x1 (by omega)
  have ex2 : fieldBv n 0 8 = x2 := fieldBv_eq x2 hb
  have r0 : field n 11 5 = 0 := by unfold field; omega
  rw [decodeNat, h1, h2]
  show accept n [] [(11, 5)] (.ldItype (fieldBv n 16 8) (fieldBv n 8 3) (fieldBv n 0 8)) = _
  rw [ex0, ex1, ex2]
  exact accept_ok (by simp [r0])

theorem Sys2Proof.Laws.DecodeEncode.ldFtype (x0 : BitVec 8) (x1 : BitVec 3) (x2 : BitVec 8) : Statement (.ldFtype x0 x1 x2) := by
  intro w _ h; cases h
  have lx0 := x0.isLt
  have lx1 := x1.isLt
  have lx2 := x2.isLt
  refine decode_three 97 x0.toNat x1.toNat x2.toNat (by decide) x0.isLt (by omega) x2.isLt _ fun n h1 h2 hd ha hb => ?_
  have ex0 : fieldBv n 16 8 = x0 := fieldBv_eq x0 hd
  have ex1 : fieldBv n 8 3 = x1 := fieldBv_eq x1 (by omega)
  have ex2 : fieldBv n 0 8 = x2 := fieldBv_eq x2 hb
  have r0 : field n 11 5 = 0 := by unfold field; omega
  rw [decodeNat, h1, h2]
  show accept n [] [(11, 5)] (.ldFtype (fieldBv n 16 8) (fieldBv n 8 3) (fieldBv n 0 8)) = _
  rw [ex0, ex1, ex2]
  exact accept_ok (by simp [r0])

theorem Sys2Proof.Laws.DecodeEncode.stItype (x0 : BitVec 8) (x1 : BitVec 3) (x2 : BitVec 8) : Statement (.stItype x0 x1 x2) := by
  intro w _ h; cases h
  have lx0 := x0.isLt
  have lx1 := x1.isLt
  have lx2 := x2.isLt
  refine decode_three 98 x0.toNat x1.toNat x2.toNat (by decide) x0.isLt (by omega) x2.isLt _ fun n h1 h2 hd ha hb => ?_
  have ex0 : fieldBv n 16 8 = x0 := fieldBv_eq x0 hd
  have ex1 : fieldBv n 8 3 = x1 := fieldBv_eq x1 (by omega)
  have ex2 : fieldBv n 0 8 = x2 := fieldBv_eq x2 hb
  have r0 : field n 11 5 = 0 := by unfold field; omega
  rw [decodeNat, h1, h2]
  show accept n [] [(11, 5)] (.stItype (fieldBv n 16 8) (fieldBv n 8 3) (fieldBv n 0 8)) = _
  rw [ex0, ex1, ex2]
  exact accept_ok (by simp [r0])

theorem Sys2Proof.Laws.DecodeEncode.stFtype (x0 : BitVec 8) (x1 : BitVec 3) (x2 : BitVec 8) : Statement (.stFtype x0 x1 x2) := by
  intro w _ h; cases h
  have lx0 := x0.isLt
  have lx1 := x1.isLt
  have lx2 := x2.isLt
  refine decode_three 99 x0.toNat x1.toNat x2.toNat (by decide) x0.isLt (by omega) x2.isLt _ fun n h1 h2 hd ha hb => ?_
  have ex0 : fieldBv n 16 8 = x0 := fieldBv_eq x0 hd
  have ex1 : fieldBv n 8 3 = x1 := fieldBv_eq x1 (by omega)
  have ex2 : fieldBv n 0 8 = x2 := fieldBv_eq x2 hb
  have r0 : field n 11 5 = 0 := by unfold field; omega
  rw [decodeNat, h1, h2]
  show accept n [] [(11, 5)] (.stFtype (fieldBv n 16 8) (fieldBv n 8 3) (fieldBv n 0 8)) = _
  rw [ex0, ex1, ex2]
  exact accept_ok (by simp [r0])

theorem Sys2Proof.Laws.DecodeEncode.ldsItype (x0 : BitVec 8) (x1 : BitVec 8) (x2 : BitVec 8) : Statement (.ldsItype x0 x1 x2) := by
  intro w _ h; cases h
  refine decode_three 100 x0.toNat x1.toNat x2.toNat (by decide) x0.isLt x1.isLt x2.isLt _ fun n h1 h2 hd ha hb => ?_
  have ex0 : fieldBv n 16 8 = x0 := fieldBv_eq x0 hd
  have ex1 : fieldBv n 8 8 = x1 := fieldBv_eq x1 ha
  have ex2 : fieldBv n 0 8 = x2 := fieldBv_eq x2 hb
  rw [decodeNat, h1, h2]
  show accept n [] [] (.ldsItype (fieldBv n 16 8) (fieldBv n 8 8) (fieldBv n 0 8)) = _
  rw [ex0, ex1, ex2]
  exact accept_ok rfl

theorem Sys2Proof.Laws.DecodeEncode.ldsFtype (x0 : BitVec 8) (x1 : BitVec 8) (x2 : BitVec 8) : Statement (.ldsFtype x0 x1 x2) := by
  intro w _ h; cases h
  refine decode_three 101 x0.toNat x1.toNat x2.toNat (by decide) x0.isLt x1.isLt x2.isLt _ fun n h1 h2 hd ha hb => ?_
  have ex0 : fieldBv n 16 8 = x0 := fieldBv_eq x0 hd
  have ex1 : fieldBv n 8 8 = x1 := fieldBv_eq x1 ha
  have ex2 : fieldBv n 0 8 = x2 := fieldBv_eq x2 hb
  rw [decodeNat, h1, h2]
  show accept n [] [] (.ldsFtype (fieldBv n 16 8) (fieldBv n 8 8) (fieldBv n 0 8)) = _
  rw [ex0, ex1, ex2]
  exact accept_ok rfl

theorem Sys2Proof.Laws.DecodeEncode.stsItype (x0 : BitVec 8) (x1 : BitVec 8) (x2 : BitVec 8) : Statement (.stsItype x0 x1 x2) := by
  intro w _ h; cases h
  refine decode_three 102 x0.toNat x1.toNat x2.toNat (by decide) x0.isLt x1.isLt x2.isLt _ fun n h1 h2 hd ha hb => ?_
  have ex0 : fieldBv n 16 8 = x0 := fieldBv_eq x0 hd
  have ex1 : fieldBv n 8 8 = x1 := fieldBv_eq x1 ha
  have ex2 : fieldBv n 0 8 = x2 := fieldBv_eq x2 hb
  rw [decodeNat, h1, h2]
  show accept n [] [] (.stsItype (fieldBv n 16 8) (fieldBv n 8 8) (fieldBv n 0 8)) = _
  rw [ex0, ex1, ex2]
  exact accept_ok rfl

theorem Sys2Proof.Laws.DecodeEncode.stsFtype (x0 : BitVec 8) (x1 : BitVec 8) (x2 : BitVec 8) : Statement (.stsFtype x0 x1 x2) := by
  intro w _ h; cases h
  refine decode_three 103 x0.toNat x1.toNat x2.toNat (by decide) x0.isLt x1.isLt x2.isLt _ fun n h1 h2 hd ha hb => ?_
  have ex0 : fieldBv n 16 8 = x0 := fieldBv_eq x0 hd
  have ex1 : fieldBv n 8 8 = x1 := fieldBv_eq x1 ha
  have ex2 : fieldBv n 0 8 = x2 := fieldBv_eq x2 hb
  rw [decodeNat, h1, h2]
  show accept n [] [] (.stsFtype (fieldBv n 16 8) (fieldBv n 8 8) (fieldBv n 0 8)) = _
  rw [ex0, ex1, ex2]
  exact accept_ok rfl

theorem Sys2Proof.Laws.DecodeEncode.ldt (x0 : BitVec 8) (x1 : BitVec 3) (x2 : BitVec 8) : Statement (.ldt x0 x1 x2) := by
  intro w _ h; cases h
  have lx0 := x0.isLt
  have lx1 := x1.isLt
  have lx2 := x2.isLt
  refine decode_three 104 x0.toNat x1.toNat x2.toNat (by decide) x0.isLt (by omega) x2.isLt _ fun n h1 h2 hd ha hb => ?_
  have ex0 : fieldBv n 16 8 = x0 := fieldBv_eq x0 hd
  have ex1 : fieldBv n 8 3 = x1 := fieldBv_eq x1 (by omega)
  have ex2 : fieldBv n 0 8 = x2 := fieldBv_eq x2 hb
  have r0 : field n 11 5 = 0 := by unfold field; omega
  rw [decodeNat, h1, h2]
  show accept n [] [(11, 5)] (.ldt (fieldBv n 16 8) (fieldBv n 8 3) (fieldBv n 0 8)) = _
  rw [ex0, ex1, ex2]
  exact accept_ok (by simp [r0])

theorem Sys2Proof.Laws.DecodeEncode.ldtTr8 (x0 : BitVec 8) (x1 : BitVec 3) (x2 : BitVec 8) : Statement (.ldtTr8 x0 x1 x2) := by
  intro w _ h; cases h
  have lx0 := x0.isLt
  have lx1 := x1.isLt
  have lx2 := x2.isLt
  refine decode_three 105 x0.toNat x1.toNat x2.toNat (by decide) x0.isLt (by omega) x2.isLt _ fun n h1 h2 hd ha hb => ?_
  have ex0 : fieldBv n 16 8 = x0 := fieldBv_eq x0 hd
  have ex1 : fieldBv n 8 3 = x1 := fieldBv_eq x1 (by omega)
  have ex2 : fieldBv n 0 8 = x2 := fieldBv_eq x2 hb
  have r0 : field n 11 5 = 0 := by unfold field; omega
  rw [decodeNat, h1, h2]
  show accept n [] [(11, 5)] (.ldtTr8 (fieldBv n 16 8) (fieldBv n 8 3) (fieldBv n 0 8)) = _
  rw [ex0, ex1, ex2]
  exact accept_ok (by simp [r0])

theorem Sys2Proof.Laws.DecodeEncode.ldtTr16 (x0 : BitVec 8) (x1 : BitVec 3) (x2 : BitVec 8) : Statement (.ldtTr16 x0 x1 x2) := by
  intro w _ h; cases h
  have lx0 := x0.isLt
  have lx1 := x1.isLt
  have lx2 := x2.isLt
  refine decode_three 106 x0.toNat x1.toNat x2.toNat (by decide) x0.isLt (by omega) x2.isLt _ fun n h1 h2 hd ha hb => ?_
  have ex0 : fieldBv n 16 8 = x0 := fieldBv_eq x0 hd
  have ex1 : fieldBv n 8 3 = x1 := fieldBv_eq x1 (by omega)
  have ex2 : fieldBv n 0 8 = x2 := fieldBv_eq x2 hb
  have r0 : field n 11 5 = 0 := by unfold field; omega
  rw [decodeNat, h1, h2]
  show accept n [] [(11, 5)] (.ldtTr16 (fieldBv n 16 8) (fieldBv n 8 3) (fieldBv n 0 8)) = _
  rw [ex0, ex1, ex2]
  exact accept_ok (by simp [r0])

theorem Sys2Proof.Laws.DecodeEncode.stt (x0 : BitVec 8) (x1 : BitVec 3) (x2 : BitVec 8) : Statement (.stt x0 x1 x2) := by
  intro w _ h; cases h
  have lx0 := x0.isLt
  have lx1 := x1.isLt
  have lx2 := x2.isLt
  refine decode_three 107 x0.toNat x1.toNat x2.toNat (by decide) x0.isLt (by omega) x2.isLt _ fun n h1 h2 hd ha hb => ?_
  have ex0 : fieldBv n 16 8 = x0 := fieldBv_eq x0 hd
  have ex1 : fieldBv n 8 3 = x1 := fieldBv_eq x1 (by omega)
  have ex2 : fieldBv n 0 8 = x2 := fieldBv_eq x2 hb
  have r0 : field n 11 5 = 0 := by unfold field; omega
  rw [decodeNat, h1, h2]
  show accept n [] [(11, 5)] (.stt (fieldBv n 16 8) (fieldBv n 8 3) (fieldBv n 0 8)) = _
  rw [ex0, ex1, ex2]
  exact accept_ok (by simp [r0])

theorem Sys2Proof.Laws.DecodeEncode.xlt (x0 : BitVec 3) (x1 : BitVec 8) : Statement (.xlt x0 x1) := by
  intro w _ h; cases h
  have lx0 := x0.isLt
  have lx1 := x1.isLt
  refine decode_three 108 x0.toNat x1.toNat 0 (by decide) (by omega) x1.isLt (by decide) _ fun n h1 h2 hd ha hb => ?_
  have ex0 : fieldBv n 16 3 = x0 := fieldBv_eq x0 (by omega)
  have ex1 : fieldBv n 8 8 = x1 := fieldBv_eq x1 ha
  have r0 : field n 0 8 = 0 := hb
  have r1 : field n 19 5 = 0 := by unfold field; omega
  rw [decodeNat, h1, h2]
  show accept n [(0, 8)] [(19, 5)] (.xlt (fieldBv n 16 3) (fieldBv n 8 8)) = _
  rw [ex0, ex1]
  exact accept_ok (by simp [r0, r1])

theorem Sys2Proof.Laws.DecodeEncode.xlinv (x0 : BitVec 3) : Statement (.xlinv x0) := by
  intro w _ h; cases h
  have lx0 := x0.isLt
  refine decode_three 109 x0.toNat 0 0 (by decide) (by omega) (by decide) (by decide) _ fun n h1 h2 hd ha hb => ?_
  have ex0 : fieldBv n 16 3 = x0 := fieldBv_eq x0 (by omega)
  have r0 : field n 8 8 = 0 := ha
  have r1 : field n 0 8 = 0 := hb
  have r2 : field n 19 5 = 0 := by unfold field; omega
  rw [decodeNat, h1, h2]
  show accept n [(8, 8), (0, 8)] [(19, 5)] (.xlinv (fieldBv n 16 3)) = _
  rw [ex0]
  exact accept_ok (by simp [r0, r1, r2])

theorem Sys2Proof.Laws.DecodeEncode.pref (x0 : BitVec 3) (x1 : BitVec 8) : Statement (.pref x0 x1) := by
  intro w _ h; cases h
  have lx0 := x0.isLt
  have lx1 := x1.isLt
  refine decode_three 110 0 x0.toNat x1.toNat (by decide) (by decide) (by omega) x1.isLt _ fun n h1 h2 hd ha hb => ?_
  have ex0 : fieldBv n 8 3 = x0 := fieldBv_eq x0 (by omega)
  have ex1 : fieldBv n 0 8 = x1 := fieldBv_eq x1 hb
  have r0 : field n 16 8 = 0 := hd
  have r1 : field n 11 5 = 0 := by unfold field; omega
  rw [decodeNat, h1, h2]
  show accept n [(16, 8)] [(11, 5)] (.pref (fieldBv n 8 3) (fieldBv n 0 8)) = _
  rw [ex0, ex1]
  exact accept_ok (by simp [r0, r1])

theorem Sys2Proof.Laws.DecodeEncode.waitmem (x0 : BitVec 8) (x1 : BitVec 3) (x2 : BitVec 8) : Statement (.waitmem x0 x1 x2) := by
  intro w _ h; cases h
  have lx0 := x0.isLt
  have lx1 := x1.isLt
  have lx2 := x2.isLt
  refine decode_three 111 x0.toNat x1.toNat x2.toNat (by decide) x0.isLt (by omega) x2.isLt _ fun n h1 h2 hd ha hb => ?_
  have ex0 : fieldBv n 16 8 = x0 := fieldBv_eq x0 hd
  have ex1 : fieldBv n 8 3 = x1 := fieldBv_eq x1 (by omega)
  have ex2 : fieldBv n 0 8 = x2 := fieldBv_eq x2 hb
  have r0 : field n 11 5 = 0 := by unfold field; omega
  rw [decodeNat, h1, h2]
  show accept n [] [(11, 5)] (.waitmem (fieldBv n 16 8) (fieldBv n 8 3) (fieldBv n 0 8)) = _
  rw [ex0, ex1, ex2]
  exact accept_ok (by simp [r0])

theorem Sys2Proof.Laws.DecodeEncode.discard (x0 : BitVec 3) (x1 : BitVec 8) : Statement (.discard x0 x1) := by
  intro w _ h; cases h
  have lx0 := x0.isLt
  have lx1 := x1.isLt
  refine decode_three 112 0 x0.toNat x1.toNat (by decide) (by decide) (by omega) x1.isLt _ fun n h1 h2 hd ha hb => ?_
  have ex0 : fieldBv n 8 3 = x0 := fieldBv_eq x0 (by omega)
  have ex1 : fieldBv n 0 8 = x1 := fieldBv_eq x1 hb
  have r0 : field n 16 8 = 0 := hd
  have r1 : field n 11 5 = 0 := by unfold field; omega
  rw [decodeNat, h1, h2]
  show accept n [(16, 8)] [(11, 5)] (.discard (fieldBv n 8 3) (fieldBv n 0 8)) = _
  rw [ex0, ex1]
  exact accept_ok (by simp [r0, r1])

theorem Sys2Proof.Laws.DecodeEncode.clean (x0 : BitVec 3) (x1 : BitVec 8) : Statement (.clean x0 x1) := by
  intro w _ h; cases h
  have lx0 := x0.isLt
  have lx1 := x1.isLt
  refine decode_three 113 0 x0.toNat x1.toNat (by decide) (by decide) (by omega) x1.isLt _ fun n h1 h2 hd ha hb => ?_
  have ex0 : fieldBv n 8 3 = x0 := fieldBv_eq x0 (by omega)
  have ex1 : fieldBv n 0 8 = x1 := fieldBv_eq x1 hb
  have r0 : field n 16 8 = 0 := hd
  have r1 : field n 11 5 = 0 := by unfold field; omega
  rw [decodeNat, h1, h2]
  show accept n [(16, 8)] [(11, 5)] (.clean (fieldBv n 8 3) (fieldBv n 0 8)) = _
  rw [ex0, ex1]
  exact accept_ok (by simp [r0, r1])

theorem Sys2Proof.Laws.DecodeEncode.invl1 (x0 : BitVec 3) (x1 : BitVec 8) : Statement (.invl1 x0 x1) := by
  intro w _ h; cases h
  have lx0 := x0.isLt
  have lx1 := x1.isLt
  refine decode_three 114 0 x0.toNat x1.toNat (by decide) (by decide) (by omega) x1.isLt _ fun n h1 h2 hd ha hb => ?_
  have ex0 : fieldBv n 8 3 = x0 := fieldBv_eq x0 (by omega)
  have ex1 : fieldBv n 0 8 = x1 := fieldBv_eq x1 hb
  have r0 : field n 16 8 = 0 := hd
  have r1 : field n 11 5 = 0 := by unfold field; omega
  rw [decodeNat, h1, h2]
  show accept n [(16, 8)] [(11, 5)] (.invl1 (fieldBv n 8 3) (fieldBv n 0 8)) = _
  rw [ex0, ex1]
  exact accept_ok (by simp [r0, r1])

theorem Sys2Proof.Laws.DecodeEncode.atomAdd (x0 : BitVec 8) (x1 : BitVec 3) (x2 : BitVec 8) : Statement (.atomAdd x0 x1 x2) := by
  intro w _ h; cases h
  have lx0 := x0.isLt
  have lx1 := x1.isLt
  have lx2 := x2.isLt
  refine decode_three 128 x0.toNat x1.toNat x2.toNat (by decide) x0.isLt (by omega) x2.isLt _ fun n h1 h2 hd ha hb => ?_
  have ex0 : fieldBv n 16 8 = x0 := fieldBv_eq x0 hd
  have ex1 : fieldBv n 8 3 = x1 := fieldBv_eq x1 (by omega)
  have ex2 : fieldBv n 0 8 = x2 := fieldBv_eq x2 hb
  have r0 : field n 11 5 = 0 := by unfold field; omega
  rw [decodeNat, h1, h2]
  show accept n [] [(11, 5)] (.atomAdd (fieldBv n 16 8) (fieldBv n 8 3) (fieldBv n 0 8)) = _
  rw [ex0, ex1, ex2]
  exact accept_ok (by simp [r0])

theorem Sys2Proof.Laws.DecodeEncode.atomMin (x0 : BitVec 8) (x1 : BitVec 3) (x2 : BitVec 8) : Statement (.atomMin x0 x1 x2) := by
  intro w _ h; cases h
  have lx0 := x0.isLt
  have lx1 := x1.isLt
  have lx2 := x2.isLt
  refine decode_three 129 x0.toNat x1.toNat x2.toNat (by decide) x0.isLt (by omega) x2.isLt _ fun n h1 h2 hd ha hb => ?_
  have ex0 : fieldBv n 16 8 = x0 := fieldBv_eq x0 hd
  have ex1 : fieldBv n 8 3 = x1 := fieldBv_eq x1 (by omega)
  have ex2 : fieldBv n 0 8 = x2 := fieldBv_eq x2 hb
  have r0 : field n 11 5 = 0 := by unfold field; omega
  rw [decodeNat, h1, h2]
  show accept n [] [(11, 5)] (.atomMin (fieldBv n 16 8) (fieldBv n 8 3) (fieldBv n 0 8)) = _
  rw [ex0, ex1, ex2]
  exact accept_ok (by simp [r0])

theorem Sys2Proof.Laws.DecodeEncode.atomMax (x0 : BitVec 8) (x1 : BitVec 3) (x2 : BitVec 8) : Statement (.atomMax x0 x1 x2) := by
  intro w _ h; cases h
  have lx0 := x0.isLt
  have lx1 := x1.isLt
  have lx2 := x2.isLt
  refine decode_three 130 x0.toNat x1.toNat x2.toNat (by decide) x0.isLt (by omega) x2.isLt _ fun n h1 h2 hd ha hb => ?_
  have ex0 : fieldBv n 16 8 = x0 := fieldBv_eq x0 hd
  have ex1 : fieldBv n 8 3 = x1 := fieldBv_eq x1 (by omega)
  have ex2 : fieldBv n 0 8 = x2 := fieldBv_eq x2 hb
  have r0 : field n 11 5 = 0 := by unfold field; omega
  rw [decodeNat, h1, h2]
  show accept n [] [(11, 5)] (.atomMax (fieldBv n 16 8) (fieldBv n 8 3) (fieldBv n 0 8)) = _
  rw [ex0, ex1, ex2]
  exact accept_ok (by simp [r0])

theorem Sys2Proof.Laws.DecodeEncode.atomAnd (x0 : BitVec 8) (x1 : BitVec 3) (x2 : BitVec 8) : Statement (.atomAnd x0 x1 x2) := by
  intro w _ h; cases h
  have lx0 := x0.isLt
  have lx1 := x1.isLt
  have lx2 := x2.isLt
  refine decode_three 131 x0.toNat x1.toNat x2.toNat (by decide) x0.isLt (by omega) x2.isLt _ fun n h1 h2 hd ha hb => ?_
  have ex0 : fieldBv n 16 8 = x0 := fieldBv_eq x0 hd
  have ex1 : fieldBv n 8 3 = x1 := fieldBv_eq x1 (by omega)
  have ex2 : fieldBv n 0 8 = x2 := fieldBv_eq x2 hb
  have r0 : field n 11 5 = 0 := by unfold field; omega
  rw [decodeNat, h1, h2]
  show accept n [] [(11, 5)] (.atomAnd (fieldBv n 16 8) (fieldBv n 8 3) (fieldBv n 0 8)) = _
  rw [ex0, ex1, ex2]
  exact accept_ok (by simp [r0])

theorem Sys2Proof.Laws.DecodeEncode.atomOr (x0 : BitVec 8) (x1 : BitVec 3) (x2 : BitVec 8) : Statement (.atomOr x0 x1 x2) := by
  intro w _ h; cases h
  have lx0 := x0.isLt
  have lx1 := x1.isLt
  have lx2 := x2.isLt
  refine decode_three 132 x0.toNat x1.toNat x2.toNat (by decide) x0.isLt (by omega) x2.isLt _ fun n h1 h2 hd ha hb => ?_
  have ex0 : fieldBv n 16 8 = x0 := fieldBv_eq x0 hd
  have ex1 : fieldBv n 8 3 = x1 := fieldBv_eq x1 (by omega)
  have ex2 : fieldBv n 0 8 = x2 := fieldBv_eq x2 hb
  have r0 : field n 11 5 = 0 := by unfold field; omega
  rw [decodeNat, h1, h2]
  show accept n [] [(11, 5)] (.atomOr (fieldBv n 16 8) (fieldBv n 8 3) (fieldBv n 0 8)) = _
  rw [ex0, ex1, ex2]
  exact accept_ok (by simp [r0])

theorem Sys2Proof.Laws.DecodeEncode.atomXor (x0 : BitVec 8) (x1 : BitVec 3) (x2 : BitVec 8) : Statement (.atomXor x0 x1 x2) := by
  intro w _ h; cases h
  have lx0 := x0.isLt
  have lx1 := x1.isLt
  have lx2 := x2.isLt
  refine decode_three 133 x0.toNat x1.toNat x2.toNat (by decide) x0.isLt (by omega) x2.isLt _ fun n h1 h2 hd ha hb => ?_
  have ex0 : fieldBv n 16 8 = x0 := fieldBv_eq x0 hd
  have ex1 : fieldBv n 8 3 = x1 := fieldBv_eq x1 (by omega)
  have ex2 : fieldBv n 0 8 = x2 := fieldBv_eq x2 hb
  have r0 : field n 11 5 = 0 := by unfold field; omega
  rw [decodeNat, h1, h2]
  show accept n [] [(11, 5)] (.atomXor (fieldBv n 16 8) (fieldBv n 8 3) (fieldBv n 0 8)) = _
  rw [ex0, ex1, ex2]
  exact accept_ok (by simp [r0])

theorem Sys2Proof.Laws.DecodeEncode.atomExch (x0 : BitVec 8) (x1 : BitVec 3) (x2 : BitVec 8) : Statement (.atomExch x0 x1 x2) := by
  intro w _ h; cases h
  have lx0 := x0.isLt
  have lx1 := x1.isLt
  have lx2 := x2.isLt
  refine decode_three 134 x0.toNat x1.toNat x2.toNat (by decide) x0.isLt (by omega) x2.isLt _ fun n h1 h2 hd ha hb => ?_
  have ex0 : fieldBv n 16 8 = x0 := fieldBv_eq x0 hd
  have ex1 : fieldBv n 8 3 = x1 := fieldBv_eq x1 (by omega)
  have ex2 : fieldBv n 0 8 = x2 := fieldBv_eq x2 hb
  have r0 : field n 11 5 = 0 := by unfold field; omega
  rw [decodeNat, h1, h2]
  show accept n [] [(11, 5)] (.atomExch (fieldBv n 16 8) (fieldBv n 8 3) (fieldBv n 0 8)) = _
  rw [ex0, ex1, ex2]
  exact accept_ok (by simp [r0])

theorem Sys2Proof.Laws.DecodeEncode.atomCas (x0 : BitVec 8) (x1 : BitVec 3) (x2 : BitVec 8) : Statement (.atomCas x0 x1 x2) := by
  intro w _ h; cases h
  have lx0 := x0.isLt
  have lx1 := x1.isLt
  have lx2 := x2.isLt
  refine decode_three 135 x0.toNat x1.toNat x2.toNat (by decide) x0.isLt (by omega) x2.isLt _ fun n h1 h2 hd ha hb => ?_
  have ex0 : fieldBv n 16 8 = x0 := fieldBv_eq x0 hd
  have ex1 : fieldBv n 8 3 = x1 := fieldBv_eq x1 (by omega)
  have ex2 : fieldBv n 0 8 = x2 := fieldBv_eq x2 hb
  have r0 : field n 11 5 = 0 := by unfold field; omega
  rw [decodeNat, h1, h2]
  show accept n [] [(11, 5)] (.atomCas (fieldBv n 16 8) (fieldBv n 8 3) (fieldBv n 0 8)) = _
  rw [ex0, ex1, ex2]
  exact accept_ok (by simp [r0])

theorem Sys2Proof.Laws.DecodeEncode.atomFadd (x0 : BitVec 8) (x1 : BitVec 3) (x2 : BitVec 8) : Statement (.atomFadd x0 x1 x2) := by
  intro w _ h; cases h
  have lx0 := x0.isLt
  have lx1 := x1.isLt
  have lx2 := x2.isLt
  refine decode_three 136 x0.toNat x1.toNat x2.toNat (by decide) x0.isLt (by omega) x2.isLt _ fun n h1 h2 hd ha hb => ?_
  have ex0 : fieldBv n 16 8 = x0 := fieldBv_eq x0 hd
  have ex1 : fieldBv n 8 3 = x1 := fieldBv_eq x1 (by omega)
  have ex2 : fieldBv n 0 8 = x2 := fieldBv_eq x2 hb
  have r0 : field n 11 5 = 0 := by unfold field; omega
  rw [decodeNat, h1, h2]
  show accept n [] [(11, 5)] (.atomFadd (fieldBv n 16 8) (fieldBv n 8 3) (fieldBv n 0 8)) = _
  rw [ex0, ex1, ex2]
  exact accept_ok (by simp [r0])

theorem Sys2Proof.Laws.DecodeEncode.redAdd (x0 : BitVec 8) (x1 : BitVec 3) (x2 : BitVec 8) : Statement (.redAdd x0 x1 x2) := by
  intro w _ h; cases h
  have lx0 := x0.isLt
  have lx1 := x1.isLt
  have lx2 := x2.isLt
  refine decode_three 137 x0.toNat x1.toNat x2.toNat (by decide) x0.isLt (by omega) x2.isLt _ fun n h1 h2 hd ha hb => ?_
  have ex0 : fieldBv n 16 8 = x0 := fieldBv_eq x0 hd
  have ex1 : fieldBv n 8 3 = x1 := fieldBv_eq x1 (by omega)
  have ex2 : fieldBv n 0 8 = x2 := fieldBv_eq x2 hb
  have r0 : field n 11 5 = 0 := by unfold field; omega
  rw [decodeNat, h1, h2]
  show accept n [] [(11, 5)] (.redAdd (fieldBv n 16 8) (fieldBv n 8 3) (fieldBv n 0 8)) = _
  rw [ex0, ex1, ex2]
  exact accept_ok (by simp [r0])

theorem Sys2Proof.Laws.DecodeEncode.redMin (x0 : BitVec 8) (x1 : BitVec 3) (x2 : BitVec 8) : Statement (.redMin x0 x1 x2) := by
  intro w _ h; cases h
  have lx0 := x0.isLt
  have lx1 := x1.isLt
  have lx2 := x2.isLt
  refine decode_three 138 x0.toNat x1.toNat x2.toNat (by decide) x0.isLt (by omega) x2.isLt _ fun n h1 h2 hd ha hb => ?_
  have ex0 : fieldBv n 16 8 = x0 := fieldBv_eq x0 hd
  have ex1 : fieldBv n 8 3 = x1 := fieldBv_eq x1 (by omega)
  have ex2 : fieldBv n 0 8 = x2 := fieldBv_eq x2 hb
  have r0 : field n 11 5 = 0 := by unfold field; omega
  rw [decodeNat, h1, h2]
  show accept n [] [(11, 5)] (.redMin (fieldBv n 16 8) (fieldBv n 8 3) (fieldBv n 0 8)) = _
  rw [ex0, ex1, ex2]
  exact accept_ok (by simp [r0])

theorem Sys2Proof.Laws.DecodeEncode.redMax (x0 : BitVec 8) (x1 : BitVec 3) (x2 : BitVec 8) : Statement (.redMax x0 x1 x2) := by
  intro w _ h; cases h
  have lx0 := x0.isLt
  have lx1 := x1.isLt
  have lx2 := x2.isLt
  refine decode_three 139 x0.toNat x1.toNat x2.toNat (by decide) x0.isLt (by omega) x2.isLt _ fun n h1 h2 hd ha hb => ?_
  have ex0 : fieldBv n 16 8 = x0 := fieldBv_eq x0 hd
  have ex1 : fieldBv n 8 3 = x1 := fieldBv_eq x1 (by omega)
  have ex2 : fieldBv n 0 8 = x2 := fieldBv_eq x2 hb
  have r0 : field n 11 5 = 0 := by unfold field; omega
  rw [decodeNat, h1, h2]
  show accept n [] [(11, 5)] (.redMax (fieldBv n 16 8) (fieldBv n 8 3) (fieldBv n 0 8)) = _
  rw [ex0, ex1, ex2]
  exact accept_ok (by simp [r0])

theorem Sys2Proof.Laws.DecodeEncode.redFadd (x0 : BitVec 8) (x1 : BitVec 3) (x2 : BitVec 8) : Statement (.redFadd x0 x1 x2) := by
  intro w _ h; cases h
  have lx0 := x0.isLt
  have lx1 := x1.isLt
  have lx2 := x2.isLt
  refine decode_three 140 x0.toNat x1.toNat x2.toNat (by decide) x0.isLt (by omega) x2.isLt _ fun n h1 h2 hd ha hb => ?_
  have ex0 : fieldBv n 16 8 = x0 := fieldBv_eq x0 hd
  have ex1 : fieldBv n 8 3 = x1 := fieldBv_eq x1 (by omega)
  have ex2 : fieldBv n 0 8 = x2 := fieldBv_eq x2 hb
  have r0 : field n 11 5 = 0 := by unfold field; omega
  rw [decodeNat, h1, h2]
  show accept n [] [(11, 5)] (.redFadd (fieldBv n 16 8) (fieldBv n 8 3) (fieldBv n 0 8)) = _
  rw [ex0, ex1, ex2]
  exact accept_ok (by simp [r0])

theorem Sys2Proof.Laws.DecodeEncode.barInit (x0 : BitVec 8) (x1 : BitVec 8) : Statement (.barInit x0 x1) := by
  intro w _ h; cases h
  refine decode_three 144 0 x0.toNat x1.toNat (by decide) (by decide) x0.isLt x1.isLt _ fun n h1 h2 hd ha hb => ?_
  have ex0 : fieldBv n 8 8 = x0 := fieldBv_eq x0 ha
  have ex1 : fieldBv n 0 8 = x1 := fieldBv_eq x1 hb
  have r0 : field n 16 8 = 0 := hd
  rw [decodeNat, h1, h2]
  show accept n [(16, 8)] [] (.barInit (fieldBv n 8 8) (fieldBv n 0 8)) = _
  rw [ex0, ex1]
  exact accept_ok (by simp [r0])

theorem Sys2Proof.Laws.DecodeEncode.barArrive (x0 : BitVec 8) (x1 : BitVec 8) : Statement (.barArrive x0 x1) := by
  intro w _ h; cases h
  refine decode_three 145 x0.toNat x1.toNat 0 (by decide) x0.isLt x1.isLt (by decide) _ fun n h1 h2 hd ha hb => ?_
  have ex0 : fieldBv n 16 8 = x0 := fieldBv_eq x0 hd
  have ex1 : fieldBv n 8 8 = x1 := fieldBv_eq x1 ha
  have r0 : field n 0 8 = 0 := hb
  rw [decodeNat, h1, h2]
  show accept n [(0, 8)] [] (.barArrive (fieldBv n 16 8) (fieldBv n 8 8)) = _
  rw [ex0, ex1]
  exact accept_ok (by simp [r0])

theorem Sys2Proof.Laws.DecodeEncode.barWait (x0 : BitVec 8) (x1 : BitVec 8) (x2 : BitVec 8) : Statement (.barWait x0 x1 x2) := by
  intro w _ h; cases h
  refine decode_three 146 x0.toNat x1.toNat x2.toNat (by decide) x0.isLt x1.isLt x2.isLt _ fun n h1 h2 hd ha hb => ?_
  have ex0 : fieldBv n 16 8 = x0 := fieldBv_eq x0 hd
  have ex1 : fieldBv n 8 8 = x1 := fieldBv_eq x1 ha
  have ex2 : fieldBv n 0 8 = x2 := fieldBv_eq x2 hb
  rw [decodeNat, h1, h2]
  show accept n [] [] (.barWait (fieldBv n 16 8) (fieldBv n 8 8) (fieldBv n 0 8)) = _
  rw [ex0, ex1, ex2]
  exact accept_ok rfl

theorem Sys2Proof.Laws.DecodeEncode.barInval (x0 : BitVec 8) : Statement (.barInval x0) := by
  intro w _ h; cases h
  refine decode_three 147 0 x0.toNat 0 (by decide) (by decide) x0.isLt (by decide) _ fun n h1 h2 hd ha hb => ?_
  have ex0 : fieldBv n 8 8 = x0 := fieldBv_eq x0 ha
  have r0 : field n 16 8 = 0 := hd
  have r1 : field n 0 8 = 0 := hb
  rw [decodeNat, h1, h2]
  show accept n [(16, 8), (0, 8)] [] (.barInval (fieldBv n 8 8)) = _
  rw [ex0]
  exact accept_ok (by simp [r0, r1])

theorem Sys2Proof.Laws.DecodeEncode.barExpect (x0 : BitVec 8) (x1 : BitVec 8) : Statement (.barExpect x0 x1) := by
  intro w _ h; cases h
  refine decode_three 148 0 x0.toNat x1.toNat (by decide) (by decide) x0.isLt x1.isLt _ fun n h1 h2 hd ha hb => ?_
  have ex0 : fieldBv n 8 8 = x0 := fieldBv_eq x0 ha
  have ex1 : fieldBv n 0 8 = x1 := fieldBv_eq x1 hb
  have r0 : field n 16 8 = 0 := hd
  rw [decodeNat, h1, h2]
  show accept n [(16, 8)] [] (.barExpect (fieldBv n 8 8) (fieldBv n 0 8)) = _
  rw [ex0, ex1]
  exact accept_ok (by simp [r0])

theorem Sys2Proof.Laws.DecodeEncode.close (x0 : BitVec 8) : Statement (.close x0) := by
  intro w _ h; cases h
  refine decode_three 149 x0.toNat 0 0 (by decide) x0.isLt (by decide) (by decide) _ fun n h1 h2 hd ha hb => ?_
  have ex0 : fieldBv n 16 8 = x0 := fieldBv_eq x0 hd
  have r0 : field n 8 8 = 0 := ha
  have r1 : field n 0 8 = 0 := hb
  rw [decodeNat, h1, h2]
  show accept n [(8, 8), (0, 8)] [] (.close (fieldBv n 16 8)) = _
  rw [ex0]
  exact accept_ok (by simp [r0, r1])

theorem Sys2Proof.Laws.DecodeEncode.waitb (x0 : BitVec 8) (x1 : BitVec 8) (x2 : BitVec 8) : Statement (.waitb x0 x1 x2) := by
  intro w _ h; cases h
  refine decode_three 150 x0.toNat x1.toNat x2.toNat (by decide) x0.isLt x1.isLt x2.isLt _ fun n h1 h2 hd ha hb => ?_
  have ex0 : fieldBv n 16 8 = x0 := fieldBv_eq x0 hd
  have ex1 : fieldBv n 8 8 = x1 := fieldBv_eq x1 ha
  have ex2 : fieldBv n 0 8 = x2 := fieldBv_eq x2 hb
  rw [decodeNat, h1, h2]
  show accept n [] [] (.waitb (fieldBv n 16 8) (fieldBv n 8 8) (fieldBv n 0 8)) = _
  rw [ex0, ex1, ex2]
  exact accept_ok rfl

theorem Sys2Proof.Laws.DecodeEncode.fence (x0 : BitVec 8) (x1 : BitVec 8) (x2 : BitVec 8) : Statement (.fence x0 x1 x2) := by
  intro w _ h; cases h
  refine decode_three 151 x0.toNat x1.toNat x2.toNat (by decide) x0.isLt x1.isLt x2.isLt _ fun n h1 h2 hd ha hb => ?_
  have ex0 : fieldBv n 16 8 = x0 := fieldBv_eq x0 hd
  have ex1 : fieldBv n 8 8 = x1 := fieldBv_eq x1 ha
  have ex2 : fieldBv n 0 8 = x2 := fieldBv_eq x2 hb
  rw [decodeNat, h1, h2]
  show accept n [] [] (.fence (fieldBv n 16 8) (fieldBv n 8 8) (fieldBv n 0 8)) = _
  rw [ex0, ex1, ex2]
  exact accept_ok rfl

theorem Sys2Proof.Laws.DecodeEncode.acq : Statement (.acq) := by
  intro w _ h; cases h
  refine decode_three 152 0 0 0 (by decide) (by decide) (by decide) (by decide) _ fun n h1 h2 hd ha hb => ?_
  have r0 : field n 16 8 = 0 := hd
  have r1 : field n 8 8 = 0 := ha
  have r2 : field n 0 8 = 0 := hb
  rw [decodeNat, h1, h2]
  show accept n [(16, 8), (8, 8), (0, 8)] [] .acq = _
  exact accept_ok (by simp [r0, r1, r2])

theorem Sys2Proof.Laws.DecodeEncode.rel : Statement (.rel) := by
  intro w _ h; cases h
  refine decode_three 153 0 0 0 (by decide) (by decide) (by decide) (by decide) _ fun n h1 h2 hd ha hb => ?_
  have r0 : field n 16 8 = 0 := hd
  have r1 : field n 8 8 = 0 := ha
  have r2 : field n 0 8 = 0 := hb
  rw [decodeNat, h1, h2]
  show accept n [(16, 8), (8, 8), (0, 8)] [] .rel = _
  exact accept_ok (by simp [r0, r1, r2])

theorem Sys2Proof.Laws.DecodeEncode.acqRem (x0 : BitVec 8) (x1 : BitVec 8) (x2 : BitVec 8) : Statement (.acqRem x0 x1 x2) := by
  intro w _ h; cases h
  refine decode_three 154 x0.toNat x1.toNat x2.toNat (by decide) x0.isLt x1.isLt x2.isLt _ fun n h1 h2 hd ha hb => ?_
  have ex0 : fieldBv n 16 8 = x0 := fieldBv_eq x0 hd
  have ex1 : fieldBv n 8 8 = x1 := fieldBv_eq x1 ha
  have ex2 : fieldBv n 0 8 = x2 := fieldBv_eq x2 hb
  rw [decodeNat, h1, h2]
  show accept n [] [] (.acqRem (fieldBv n 16 8) (fieldBv n 8 8) (fieldBv n 0 8)) = _
  rw [ex0, ex1, ex2]
  exact accept_ok rfl

theorem Sys2Proof.Laws.DecodeEncode.qsend (x0 : BitVec 8) (x1 : BitVec 8) (x2 : BitVec 8) : Statement (.qsend x0 x1 x2) := by
  intro w _ h; cases h
  refine decode_three 155 x0.toNat x1.toNat x2.toNat (by decide) x0.isLt x1.isLt x2.isLt _ fun n h1 h2 hd ha hb => ?_
  have ex0 : fieldBv n 16 8 = x0 := fieldBv_eq x0 hd
  have ex1 : fieldBv n 8 8 = x1 := fieldBv_eq x1 ha
  have ex2 : fieldBv n 0 8 = x2 := fieldBv_eq x2 hb
  rw [decodeNat, h1, h2]
  show accept n [] [] (.qsend (fieldBv n 16 8) (fieldBv n 8 8) (fieldBv n 0 8)) = _
  rw [ex0, ex1, ex2]
  exact accept_ok rfl

theorem Sys2Proof.Laws.DecodeEncode.qrecv (x0 : BitVec 8) (x1 : BitVec 8) (x2 : BitVec 8) : Statement (.qrecv x0 x1 x2) := by
  intro w _ h; cases h
  refine decode_three 156 x0.toNat x1.toNat x2.toNat (by decide) x0.isLt x1.isLt x2.isLt _ fun n h1 h2 hd ha hb => ?_
  have ex0 : fieldBv n 16 8 = x0 := fieldBv_eq x0 hd
  have ex1 : fieldBv n 8 8 = x1 := fieldBv_eq x1 ha
  have ex2 : fieldBv n 0 8 = x2 := fieldBv_eq x2 hb
  rw [decodeNat, h1, h2]
  show accept n [] [] (.qrecv (fieldBv n 16 8) (fieldBv n 8 8) (fieldBv n 0 8)) = _
  rw [ex0, ex1, ex2]
  exact accept_ok rfl

theorem Sys2Proof.Laws.DecodeEncode.qcredit (x0 : BitVec 8) (x1 : BitVec 8) (x2 : BitVec 8) : Statement (.qcredit x0 x1 x2) := by
  intro w _ h; cases h
  refine decode_three 157 x0.toNat x1.toNat x2.toNat (by decide) x0.isLt x1.isLt x2.isLt _ fun n h1 h2 hd ha hb => ?_
  have ex0 : fieldBv n 16 8 = x0 := fieldBv_eq x0 hd
  have ex1 : fieldBv n 8 8 = x1 := fieldBv_eq x1 ha
  have ex2 : fieldBv n 0 8 = x2 := fieldBv_eq x2 hb
  rw [decodeNat, h1, h2]
  show accept n [] [] (.qcredit (fieldBv n 16 8) (fieldBv n 8 8) (fieldBv n 0 8)) = _
  rw [ex0, ex1, ex2]
  exact accept_ok rfl

theorem Sys2Proof.Laws.DecodeEncode.waitf (x0 : BitVec 8) (x1 : BitVec 8) (x2 : BitVec 8) : Statement (.waitf x0 x1 x2) := by
  intro w _ h; cases h
  refine decode_three 158 x0.toNat x1.toNat x2.toNat (by decide) x0.isLt x1.isLt x2.isLt _ fun n h1 h2 hd ha hb => ?_
  have ex0 : fieldBv n 16 8 = x0 := fieldBv_eq x0 hd
  have ex1 : fieldBv n 8 8 = x1 := fieldBv_eq x1 ha
  have ex2 : fieldBv n 0 8 = x2 := fieldBv_eq x2 hb
  rw [decodeNat, h1, h2]
  show accept n [] [] (.waitf (fieldBv n 16 8) (fieldBv n 8 8) (fieldBv n 0 8)) = _
  rw [ex0, ex1, ex2]
  exact accept_ok rfl

theorem Sys2Proof.Laws.DecodeEncode.spawn (x0 : BitVec 8) (x1 : BitVec 8) (x2 : BitVec 8) : Statement (.spawn x0 x1 x2) := by
  intro w _ h; cases h
  refine decode_three 160 x0.toNat x1.toNat x2.toNat (by decide) x0.isLt x1.isLt x2.isLt _ fun n h1 h2 hd ha hb => ?_
  have ex0 : fieldBv n 16 8 = x0 := fieldBv_eq x0 hd
  have ex1 : fieldBv n 8 8 = x1 := fieldBv_eq x1 ha
  have ex2 : fieldBv n 0 8 = x2 := fieldBv_eq x2 hb
  rw [decodeNat, h1, h2]
  show accept n [] [] (.spawn (fieldBv n 16 8) (fieldBv n 8 8) (fieldBv n 0 8)) = _
  rw [ex0, ex1, ex2]
  exact accept_ok rfl

theorem Sys2Proof.Laws.DecodeEncode.fork (x0 : BitVec 8) (x1 : BitVec 8) (x2 : BitVec 8) : Statement (.fork x0 x1 x2) := by
  intro w _ h; cases h
  refine decode_three 161 x0.toNat x1.toNat x2.toNat (by decide) x0.isLt x1.isLt x2.isLt _ fun n h1 h2 hd ha hb => ?_
  have ex0 : fieldBv n 16 8 = x0 := fieldBv_eq x0 hd
  have ex1 : fieldBv n 8 8 = x1 := fieldBv_eq x1 ha
  have ex2 : fieldBv n 0 8 = x2 := fieldBv_eq x2 hb
  rw [decodeNat, h1, h2]
  show accept n [] [] (.fork (fieldBv n 16 8) (fieldBv n 8 8) (fieldBv n 0 8)) = _
  rw [ex0, ex1, ex2]
  exact accept_ok rfl

theorem Sys2Proof.Laws.DecodeEncode.join (x0 : BitVec 8) (x1 : BitVec 8) : Statement (.join x0 x1) := by
  intro w _ h; cases h
  refine decode_three 162 x0.toNat 0 x1.toNat (by decide) x0.isLt (by decide) x1.isLt _ fun n h1 h2 hd ha hb => ?_
  have ex0 : fieldBv n 16 8 = x0 := fieldBv_eq x0 hd
  have ex1 : fieldBv n 0 8 = x1 := fieldBv_eq x1 hb
  have r0 : field n 8 8 = 0 := ha
  rw [decodeNat, h1, h2]
  show accept n [(8, 8)] [] (.join (fieldBv n 16 8) (fieldBv n 0 8)) = _
  rw [ex0, ex1]
  exact accept_ok (by simp [r0])

theorem Sys2Proof.Laws.DecodeEncode.tcbNew (x0 : BitVec 8) (x1 : BitVec 8) (x2 : BitVec 8) : Statement (.tcbNew x0 x1 x2) := by
  intro w _ h; cases h
  refine decode_three 163 x0.toNat x1.toNat x2.toNat (by decide) x0.isLt x1.isLt x2.isLt _ fun n h1 h2 hd ha hb => ?_
  have ex0 : fieldBv n 16 8 = x0 := fieldBv_eq x0 hd
  have ex1 : fieldBv n 8 8 = x1 := fieldBv_eq x1 ha
  have ex2 : fieldBv n 0 8 = x2 := fieldBv_eq x2 hb
  rw [decodeNat, h1, h2]
  show accept n [] [] (.tcbNew (fieldBv n 16 8) (fieldBv n 8 8) (fieldBv n 0 8)) = _
  rw [ex0, ex1, ex2]
  exact accept_ok rfl

theorem Sys2Proof.Laws.DecodeEncode.tcbSucc (x0 : BitVec 8) (x1 : BitVec 8) (x2 : BitVec 8) : Statement (.tcbSucc x0 x1 x2) := by
  intro w _ h; cases h
  refine decode_three 164 x0.toNat x1.toNat x2.toNat (by decide) x0.isLt x1.isLt x2.isLt _ fun n h1 h2 hd ha hb => ?_
  have ex0 : fieldBv n 16 8 = x0 := fieldBv_eq x0 hd
  have ex1 : fieldBv n 8 8 = x1 := fieldBv_eq x1 ha
  have ex2 : fieldBv n 0 8 = x2 := fieldBv_eq x2 hb
  rw [decodeNat, h1, h2]
  show accept n [] [] (.tcbSucc (fieldBv n 16 8) (fieldBv n 8 8) (fieldBv n 0 8)) = _
  rw [ex0, ex1, ex2]
  exact accept_ok rfl

theorem Sys2Proof.Laws.DecodeEncode.tcbSubmit (x0 : BitVec 8) (x1 : BitVec 8) : Statement (.tcbSubmit x0 x1) := by
  intro w _ h; cases h
  refine decode_three 165 x0.toNat x1.toNat 0 (by decide) x0.isLt x1.isLt (by decide) _ fun n h1 h2 hd ha hb => ?_
  have ex0 : fieldBv n 16 8 = x0 := fieldBv_eq x0 hd
  have ex1 : fieldBv n 8 8 = x1 := fieldBv_eq x1 ha
  have r0 : field n 0 8 = 0 := hb
  rw [decodeNat, h1, h2]
  show accept n [(0, 8)] [] (.tcbSubmit (fieldBv n 16 8) (fieldBv n 8 8)) = _
  rw [ex0, ex1]
  exact accept_ok (by simp [r0])

theorem Sys2Proof.Laws.DecodeEncode.tcbDone (x0 : BitVec 8) (x1 : BitVec 8) : Statement (.tcbDone x0 x1) := by
  intro w _ h; cases h
  refine decode_three 166 x0.toNat x1.toNat 0 (by decide) x0.isLt x1.isLt (by decide) _ fun n h1 h2 hd ha hb => ?_
  have ex0 : fieldBv n 16 8 = x0 := fieldBv_eq x0 hd
  have ex1 : fieldBv n 8 8 = x1 := fieldBv_eq x1 ha
  have r0 : field n 0 8 = 0 := hb
  rw [decodeNat, h1, h2]
  show accept n [(0, 8)] [] (.tcbDone (fieldBv n 16 8) (fieldBv n 8 8)) = _
  rw [ex0, ex1]
  exact accept_ok (by simp [r0])

theorem Sys2Proof.Laws.DecodeEncode.bintime (x0 : BitVec 8) (x1 : BitVec 8) (x2 : BitVec 8) : Statement (.bintime x0 x1 x2) := by
  intro w _ h; cases h
  refine decode_three 167 x0.toNat x1.toNat x2.toNat (by decide) x0.isLt x1.isLt x2.isLt _ fun n h1 h2 hd ha hb => ?_
  have ex0 : fieldBv n 16 8 = x0 := fieldBv_eq x0 hd
  have ex1 : fieldBv n 8 8 = x1 := fieldBv_eq x1 ha
  have ex2 : fieldBv n 0 8 = x2 := fieldBv_eq x2 hb
  rw [decodeNat, h1, h2]
  show accept n [] [] (.bintime (fieldBv n 16 8) (fieldBv n 8 8) (fieldBv n 0 8)) = _
  rw [ex0, ex1, ex2]
  exact accept_ok rfl

theorem Sys2Proof.Laws.DecodeEncode.yield (x0 : BitVec 8) : Statement (.yield x0) := by
  intro w _ h; cases h
  refine decode_three 168 x0.toNat 0 0 (by decide) x0.isLt (by decide) (by decide) _ fun n h1 h2 hd ha hb => ?_
  have ex0 : fieldBv n 16 8 = x0 := fieldBv_eq x0 hd
  have r0 : field n 8 8 = 0 := ha
  have r1 : field n 0 8 = 0 := hb
  rw [decodeNat, h1, h2]
  show accept n [(8, 8), (0, 8)] [] (.yield (fieldBv n 16 8)) = _
  rw [ex0]
  exact accept_ok (by simp [r0, r1])

theorem Sys2Proof.Laws.DecodeEncode.exit (x0 : BitVec 8) : Statement (.exit x0) := by
  intro w _ h; cases h
  refine decode_three 176 0 x0.toNat 0 (by decide) (by decide) x0.isLt (by decide) _ fun n h1 h2 hd ha hb => ?_
  have ex0 : fieldBv n 8 8 = x0 := fieldBv_eq x0 ha
  have r0 : field n 16 8 = 0 := hd
  have r1 : field n 0 8 = 0 := hb
  rw [decodeNat, h1, h2]
  show accept n [(16, 8), (0, 8)] [] (.exit (fieldBv n 8 8)) = _
  rw [ex0]
  exact accept_ok (by simp [r0, r1])

theorem Sys2Proof.Laws.DecodeEncode.trap (x0 : BitVec 8) : Statement (.trap x0) := by
  intro w _ h; cases h
  refine decode_three 177 0 x0.toNat 0 (by decide) (by decide) x0.isLt (by decide) _ fun n h1 h2 hd ha hb => ?_
  have ex0 : fieldBv n 8 8 = x0 := fieldBv_eq x0 ha
  have r0 : field n 16 8 = 0 := hd
  have r1 : field n 0 8 = 0 := hb
  rw [decodeNat, h1, h2]
  show accept n [(16, 8), (0, 8)] [] (.trap (fieldBv n 8 8)) = _
  rw [ex0]
  exact accept_ok (by simp [r0, r1])

theorem Sys2Proof.Laws.DecodeEncode.tret (x0 : BitVec 8) : Statement (.tret x0) := by
  intro w _ h; cases h
  refine decode_three 178 0 x0.toNat 0 (by decide) (by decide) x0.isLt (by decide) _ fun n h1 h2 hd ha hb => ?_
  have ex0 : fieldBv n 8 8 = x0 := fieldBv_eq x0 ha
  have r0 : field n 16 8 = 0 := hd
  have r1 : field n 0 8 = 0 := hb
  rw [decodeNat, h1, h2]
  show accept n [(16, 8), (0, 8)] [] (.tret (fieldBv n 8 8)) = _
  rw [ex0]
  exact accept_ok (by simp [r0, r1])

theorem Sys2Proof.Laws.DecodeEncode.beat : Statement (.beat) := by
  intro w _ h; cases h
  refine decode_three 179 0 0 0 (by decide) (by decide) (by decide) (by decide) _ fun n h1 h2 hd ha hb => ?_
  have r0 : field n 16 8 = 0 := hd
  have r1 : field n 8 8 = 0 := ha
  have r2 : field n 0 8 = 0 := hb
  rw [decodeNat, h1, h2]
  show accept n [(16, 8), (8, 8), (0, 8)] [] .beat = _
  exact accept_ok (by simp [r0, r1, r2])

theorem Sys2Proof.Laws.DecodeEncode.pidx (x0 : BitVec 8) (x1 : BitVec 8) : Statement (.pidx x0 x1) := by
  intro w _ h; cases h
  refine decode_three 180 x0.toNat x1.toNat 0 (by decide) x0.isLt x1.isLt (by decide) _ fun n h1 h2 hd ha hb => ?_
  have ex0 : fieldBv n 16 8 = x0 := fieldBv_eq x0 hd
  have ex1 : fieldBv n 8 8 = x1 := fieldBv_eq x1 ha
  have r0 : field n 0 8 = 0 := hb
  rw [decodeNat, h1, h2]
  show accept n [(0, 8)] [] (.pidx (fieldBv n 16 8) (fieldBv n 8 8)) = _
  rw [ex0, ex1]
  exact accept_ok (by simp [r0])

theorem Sys2Proof.Laws.DecodeEncode.modeRd (x0 : BitVec 8) : Statement (.modeRd x0) := by
  intro w _ h; cases h
  refine decode_three 181 x0.toNat 0 0 (by decide) x0.isLt (by decide) (by decide) _ fun n h1 h2 hd ha hb => ?_
  have ex0 : fieldBv n 16 8 = x0 := fieldBv_eq x0 hd
  have r0 : field n 8 8 = 0 := ha
  have r1 : field n 0 8 = 0 := hb
  rw [decodeNat, h1, h2]
  show accept n [(8, 8), (0, 8)] [] (.modeRd (fieldBv n 16 8)) = _
  rw [ex0]
  exact accept_ok (by simp [r0, r1])

theorem Sys2Proof.Laws.DecodeEncode.modeWr (x0 : BitVec 8) : Statement (.modeWr x0) := by
  intro w _ h; cases h
  refine decode_three 182 0 x0.toNat 0 (by decide) (by decide) x0.isLt (by decide) _ fun n h1 h2 hd ha hb => ?_
  have ex0 : fieldBv n 8 8 = x0 := fieldBv_eq x0 ha
  have r0 : field n 16 8 = 0 := hd
  have r1 : field n 0 8 = 0 := hb
  rw [decodeNat, h1, h2]
  show accept n [(16, 8), (0, 8)] [] (.modeWr (fieldBv n 8 8)) = _
  rw [ex0]
  exact accept_ok (by simp [r0, r1])

theorem Sys2Proof.Laws.DecodeEncode.winrd (x0 : BitVec 8) (x1 : BitVec 8) (x2 : BitVec 8) : Statement (.winrd x0 x1 x2) := by
  intro w _ h; cases h
  refine decode_three 183 x0.toNat x1.toNat x2.toNat (by decide) x0.isLt x1.isLt x2.isLt _ fun n h1 h2 hd ha hb => ?_
  have ex0 : fieldBv n 16 8 = x0 := fieldBv_eq x0 hd
  have ex1 : fieldBv n 8 8 = x1 := fieldBv_eq x1 ha
  have ex2 : fieldBv n 0 8 = x2 := fieldBv_eq x2 hb
  rw [decodeNat, h1, h2]
  show accept n [] [] (.winrd (fieldBv n 16 8) (fieldBv n 8 8) (fieldBv n 0 8)) = _
  rw [ex0, ex1, ex2]
  exact accept_ok rfl

theorem Sys2Proof.Laws.DecodeEncode.winwr (x0 : BitVec 8) (x1 : BitVec 8) (x2 : BitVec 8) : Statement (.winwr x0 x1 x2) := by
  intro w _ h; cases h
  refine decode_three 184 x0.toNat x1.toNat x2.toNat (by decide) x0.isLt x1.isLt x2.isLt _ fun n h1 h2 hd ha hb => ?_
  have ex0 : fieldBv n 16 8 = x0 := fieldBv_eq x0 hd
  have ex1 : fieldBv n 8 8 = x1 := fieldBv_eq x1 ha
  have ex2 : fieldBv n 0 8 = x2 := fieldBv_eq x2 hb
  rw [decodeNat, h1, h2]
  show accept n [] [] (.winwr (fieldBv n 16 8) (fieldBv n 8 8) (fieldBv n 0 8)) = _
  rw [ex0, ex1, ex2]
  exact accept_ok rfl

theorem Sys2Proof.Laws.DecodeEncode.sregRd (x0 : BitVec 8) (x1 : BitVec 8) : Statement (.sregRd x0 x1) := by
  intro w _ h; cases h
  refine decode_three 185 x0.toNat x1.toNat 0 (by decide) x0.isLt x1.isLt (by decide) _ fun n h1 h2 hd ha hb => ?_
  have ex0 : fieldBv n 16 8 = x0 := fieldBv_eq x0 hd
  have ex1 : fieldBv n 8 8 = x1 := fieldBv_eq x1 ha
  have r0 : field n 0 8 = 0 := hb
  rw [decodeNat, h1, h2]
  show accept n [(0, 8)] [] (.sregRd (fieldBv n 16 8) (fieldBv n 8 8)) = _
  rw [ex0, ex1]
  exact accept_ok (by simp [r0])

theorem Sys2Proof.Laws.DecodeEncode.sregWr (x0 : BitVec 8) (x1 : BitVec 8) : Statement (.sregWr x0 x1) := by
  intro w _ h; cases h
  refine decode_three 186 0 x0.toNat x1.toNat (by decide) (by decide) x0.isLt x1.isLt _ fun n h1 h2 hd ha hb => ?_
  have ex0 : fieldBv n 8 8 = x0 := fieldBv_eq x0 ha
  have ex1 : fieldBv n 0 8 = x1 := fieldBv_eq x1 hb
  have r0 : field n 16 8 = 0 := hd
  rw [decodeNat, h1, h2]
  show accept n [(16, 8)] [] (.sregWr (fieldBv n 8 8) (fieldBv n 0 8)) = _
  rw [ex0, ex1]
  exact accept_ok (by simp [r0])

theorem Sys2Proof.Laws.DecodeEncode.shoot (x0 : BitVec 8) (x1 : BitVec 8) (x2 : BitVec 8) : Statement (.shoot x0 x1 x2) := by
  intro w _ h; cases h
  refine decode_three 187 x0.toNat x1.toNat x2.toNat (by decide) x0.isLt x1.isLt x2.isLt _ fun n h1 h2 hd ha hb => ?_
  have ex0 : fieldBv n 16 8 = x0 := fieldBv_eq x0 hd
  have ex1 : fieldBv n 8 8 = x1 := fieldBv_eq x1 ha
  have ex2 : fieldBv n 0 8 = x2 := fieldBv_eq x2 hb
  rw [decodeNat, h1, h2]
  show accept n [] [] (.shoot (fieldBv n 16 8) (fieldBv n 8 8) (fieldBv n 0 8)) = _
  rw [ex0, ex1, ex2]
  exact accept_ok rfl

theorem Sys2Proof.Laws.DecodeEncode.snet (x0 : BitVec 8) (x1 : BitVec 8) : Statement (.snet x0 x1) := by
  intro w _ h; cases h
  refine decode_three 188 0 x0.toNat x1.toNat (by decide) (by decide) x0.isLt x1.isLt _ fun n h1 h2 hd ha hb => ?_
  have ex0 : fieldBv n 8 8 = x0 := fieldBv_eq x0 ha
  have ex1 : fieldBv n 0 8 = x1 := fieldBv_eq x1 hb
  have r0 : field n 16 8 = 0 := hd
  rw [decodeNat, h1, h2]
  show accept n [(16, 8)] [] (.snet (fieldBv n 8 8) (fieldBv n 0 8)) = _
  rw [ex0, ex1]
  exact accept_ok (by simp [r0])

theorem Sys2Proof.Laws.DecodeEncode.clock (x0 : BitVec 8) (x1 : BitVec 8) : Statement (.clock x0 x1) := by
  intro w _ h; cases h
  refine decode_three 189 x0.toNat x1.toNat 0 (by decide) x0.isLt x1.isLt (by decide) _ fun n h1 h2 hd ha hb => ?_
  have ex0 : fieldBv n 16 8 = x0 := fieldBv_eq x0 hd
  have ex1 : fieldBv n 8 8 = x1 := fieldBv_eq x1 ha
  have r0 : field n 0 8 = 0 := hb
  rw [decodeNat, h1, h2]
  show accept n [(0, 8)] [] (.clock (fieldBv n 16 8) (fieldBv n 8 8)) = _
  rw [ex0, ex1]
  exact accept_ok (by simp [r0])

theorem Sys2Proof.Laws.DecodeEncode.brk : Statement (.brk) := by
  intro w _ h; cases h
  refine decode_three 190 0 0 0 (by decide) (by decide) (by decide) (by decide) _ fun n h1 h2 hd ha hb => ?_
  have r0 : field n 16 8 = 0 := hd
  have r1 : field n 8 8 = 0 := ha
  have r2 : field n 0 8 = 0 := hb
  rw [decodeNat, h1, h2]
  show accept n [(16, 8), (8, 8), (0, 8)] [] .brk = _
  exact accept_ok (by simp [r0, r1, r2])

theorem Sys2Proof.Laws.DecodeEncode.halt (x0 : BitVec 8) : Statement (.halt x0) := by
  intro w _ h; cases h
  refine decode_three 191 0 x0.toNat 0 (by decide) (by decide) x0.isLt (by decide) _ fun n h1 h2 hd ha hb => ?_
  have ex0 : fieldBv n 8 8 = x0 := fieldBv_eq x0 ha
  have r0 : field n 16 8 = 0 := hd
  have r1 : field n 0 8 = 0 := hb
  rw [decodeNat, h1, h2]
  show accept n [(16, 8), (0, 8)] [] (.halt (fieldBv n 8 8)) = _
  rw [ex0]
  exact accept_ok (by simp [r0, r1])

theorem Sys2Proof.Laws.DecodeEncode.copyVv (x0 : BitVec 8) (x1 : BitVec 8) (x2 : BitVec 7) : Statement (.copyVv x0 x1 x2) := by
  intro w _ h; cases h
  refine decode_co 0 x0.toNat x1.toNat x2.toNat (by decide) x0.isLt x1.isLt x2.isLt _ fun n h1 h2 ha hb hr => ?_
  have ex0 : fieldBv n 15 8 = x0 := fieldBv_eq x0 ha
  have ex1 : fieldBv n 7 8 = x1 := fieldBv_eq x1 hb
  have ex2 : fieldBv n 0 7 = x2 := fieldBv_eq x2 hr
  rw [decodeNat, h1, h2]
  show accept n [] [] (.copyVv (fieldBv n 15 8) (fieldBv n 7 8) (fieldBv n 0 7)) = _
  rw [ex0, ex1, ex2]
  exact accept_ok rfl

theorem Sys2Proof.Laws.DecodeEncode.copyVt (x0 : BitVec 8) (x1 : BitVec 8) (x2 : BitVec 7) : Statement (.copyVt x0 x1 x2) := by
  intro w _ h; cases h
  refine decode_co 1 x0.toNat x1.toNat x2.toNat (by decide) x0.isLt x1.isLt x2.isLt _ fun n h1 h2 ha hb hr => ?_
  have ex0 : fieldBv n 15 8 = x0 := fieldBv_eq x0 ha
  have ex1 : fieldBv n 7 8 = x1 := fieldBv_eq x1 hb
  have ex2 : fieldBv n 0 7 = x2 := fieldBv_eq x2 hr
  rw [decodeNat, h1, h2]
  show accept n [] [] (.copyVt (fieldBv n 15 8) (fieldBv n 7 8) (fieldBv n 0 7)) = _
  rw [ex0, ex1, ex2]
  exact accept_ok rfl

theorem Sys2Proof.Laws.DecodeEncode.copyTv (x0 : BitVec 8) (x1 : BitVec 8) (x2 : BitVec 7) : Statement (.copyTv x0 x1 x2) := by
  intro w _ h; cases h
  refine decode_co 2 x0.toNat x1.toNat x2.toNat (by decide) x0.isLt x1.isLt x2.isLt _ fun n h1 h2 ha hb hr => ?_
  have ex0 : fieldBv n 15 8 = x0 := fieldBv_eq x0 ha
  have ex1 : fieldBv n 7 8 = x1 := fieldBv_eq x1 hb
  have ex2 : fieldBv n 0 7 = x2 := fieldBv_eq x2 hr
  rw [decodeNat, h1, h2]
  show accept n [] [] (.copyTv (fieldBv n 15 8) (fieldBv n 7 8) (fieldBv n 0 7)) = _
  rw [ex0, ex1, ex2]
  exact accept_ok rfl

theorem Sys2Proof.Laws.DecodeEncode.copyTt (x0 : BitVec 8) (x1 : BitVec 8) (x2 : BitVec 7) : Statement (.copyTt x0 x1 x2) := by
  intro w _ h; cases h
  refine decode_co 3 x0.toNat x1.toNat x2.toNat (by decide) x0.isLt x1.isLt x2.isLt _ fun n h1 h2 ha hb hr => ?_
  have ex0 : fieldBv n 15 8 = x0 := fieldBv_eq x0 ha
  have ex1 : fieldBv n 7 8 = x1 := fieldBv_eq x1 hb
  have ex2 : fieldBv n 0 7 = x2 := fieldBv_eq x2 hr
  rw [decodeNat, h1, h2]
  show accept n [] [] (.copyTt (fieldBv n 15 8) (fieldBv n 7 8) (fieldBv n 0 7)) = _
  rw [ex0, ex1, ex2]
  exact accept_ok rfl

theorem Sys2Proof.Laws.DecodeEncode.copyMc (x0 : BitVec 8) (x1 : BitVec 8) (x2 : BitVec 7) : Statement (.copyMc x0 x1 x2) := by
  intro w _ h; cases h
  refine decode_co 4 x0.toNat x1.toNat x2.toNat (by decide) x0.isLt x1.isLt x2.isLt _ fun n h1 h2 ha hb hr => ?_
  have ex0 : fieldBv n 15 8 = x0 := fieldBv_eq x0 ha
  have ex1 : fieldBv n 7 8 = x1 := fieldBv_eq x1 hb
  have ex2 : fieldBv n 0 7 = x2 := fieldBv_eq x2 hr
  rw [decodeNat, h1, h2]
  show accept n [] [] (.copyMc (fieldBv n 15 8) (fieldBv n 7 8) (fieldBv n 0 7)) = _
  rw [ex0, ex1, ex2]
  exact accept_ok rfl

theorem Sys2Proof.Laws.DecodeEncode.copy2d (x0 : BitVec 8) (x1 : BitVec 8) (x2 : BitVec 7) : Statement (.copy2d x0 x1 x2) := by
  intro w _ h; cases h
  refine decode_co 5 x0.toNat x1.toNat x2.toNat (by decide) x0.isLt x1.isLt x2.isLt _ fun n h1 h2 ha hb hr => ?_
  have ex0 : fieldBv n 15 8 = x0 := fieldBv_eq x0 ha
  have ex1 : fieldBv n 7 8 = x1 := fieldBv_eq x1 hb
  have ex2 : fieldBv n 0 7 = x2 := fieldBv_eq x2 hr
  rw [decodeNat, h1, h2]
  show accept n [] [] (.copy2d (fieldBv n 15 8) (fieldBv n 7 8) (fieldBv n 0 7)) = _
  rw [ex0, ex1, ex2]
  exact accept_ok rfl

theorem Sys2Proof.Laws.DecodeEncode.copyGath (x0 : BitVec 8) (x1 : BitVec 8) (x2 : BitVec 7) : Statement (.copyGath x0 x1 x2) := by
  intro w _ h; cases h
  refine decode_co 6 x0.toNat x1.toNat x2.toNat (by decide) x0.isLt x1.isLt x2.isLt _ fun n h1 h2 ha hb hr => ?_
  have ex0 : fieldBv n 15 8 = x0 := fieldBv_eq x0 ha
  have ex1 : fieldBv n 7 8 = x1 := fieldBv_eq x1 hb
  have ex2 : fieldBv n 0 7 = x2 := fieldBv_eq x2 hr
  rw [decodeNat, h1, h2]
  show accept n [] [] (.copyGath (fieldBv n 15 8) (fieldBv n 7 8) (fieldBv n 0 7)) = _
  rw [ex0, ex1, ex2]
  exact accept_ok rfl

theorem Sys2Proof.Laws.DecodeEncode.copyFill (x0 : BitVec 8) (x1 : BitVec 8) (x2 : BitVec 7) : Statement (.copyFill x0 x1 x2) := by
  intro w _ h; cases h
  refine decode_co 7 x0.toNat x1.toNat x2.toNat (by decide) x0.isLt x1.isLt x2.isLt _ fun n h1 h2 ha hb hr => ?_
  have ex0 : fieldBv n 15 8 = x0 := fieldBv_eq x0 ha
  have ex1 : fieldBv n 7 8 = x1 := fieldBv_eq x1 hb
  have ex2 : fieldBv n 0 7 = x2 := fieldBv_eq x2 hr
  rw [decodeNat, h1, h2]
  show accept n [] [] (.copyFill (fieldBv n 15 8) (fieldBv n 7 8) (fieldBv n 0 7)) = _
  rw [ex0, ex1, ex2]
  exact accept_ok rfl

theorem Sys2Proof.Laws.DecodeEncode.copyOv (x0 : BitVec 8) (x1 : BitVec 8) (x2 : BitVec 7) : Statement (.copyOv x0 x1 x2) := by
  intro w _ h; cases h
  refine decode_co 8 x0.toNat x1.toNat x2.toNat (by decide) x0.isLt x1.isLt x2.isLt _ fun n h1 h2 ha hb hr => ?_
  have ex0 : fieldBv n 15 8 = x0 := fieldBv_eq x0 ha
  have ex1 : fieldBv n 7 8 = x1 := fieldBv_eq x1 hb
  have ex2 : fieldBv n 0 7 = x2 := fieldBv_eq x2 hr
  rw [decodeNat, h1, h2]
  show accept n [] [] (.copyOv (fieldBv n 15 8) (fieldBv n 7 8) (fieldBv n 0 7)) = _
  rw [ex0, ex1, ex2]
  exact accept_ok rfl

theorem Sys2Proof.Laws.DecodeEncode.xfTr (x0 : BitVec 8) (x1 : BitVec 8) (x2 : BitVec 7) : Statement (.xfTr x0 x1 x2) := by
  intro w _ h; cases h
  refine decode_co 9 x0.toNat x1.toNat x2.toNat (by decide) x0.isLt x1.isLt x2.isLt _ fun n h1 h2 ha hb hr => ?_
  have ex0 : fieldBv n 15 8 = x0 := fieldBv_eq x0 ha
  have ex1 : fieldBv n 7 8 = x1 := fieldBv_eq x1 hb
  have ex2 : fieldBv n 0 7 = x2 := fieldBv_eq x2 hr
  rw [decodeNat, h1, h2]
  show accept n [] [] (.xfTr (fieldBv n 15 8) (fieldBv n 7 8) (fieldBv n 0 7)) = _
  rw [ex0, ex1, ex2]
  exact accept_ok rfl

theorem Sys2Proof.Laws.DecodeEncode.xfPlane (x0 : BitVec 8) (x1 : BitVec 8) (x2 : BitVec 7) : Statement (.xfPlane x0 x1 x2) := by
  intro w _ h; cases h
  refine decode_co 10 x0.toNat x1.toNat x2.toNat (by decide) x0.isLt x1.isLt x2.isLt _ fun n h1 h2 ha hb hr => ?_
  have ex0 : fieldBv n 15 8 = x0 := fieldBv_eq x0 ha
  have ex1 : fieldBv n 7 8 = x1 := fieldBv_eq x1 hb
  have ex2 : fieldBv n 0 7 = x2 := fieldBv_eq x2 hr
  rw [decodeNat, h1, h2]
  show accept n [] [] (.xfPlane (fieldBv n 15 8) (fieldBv n 7 8) (fieldBv n 0 7)) = _
  rw [ex0, ex1, ex2]
  exact accept_ok rfl

theorem Sys2Proof.Laws.DecodeEncode.xfDeq (x0 : BitVec 8) (x1 : BitVec 8) (x2 : BitVec 7) : Statement (.xfDeq x0 x1 x2) := by
  intro w _ h; cases h
  refine decode_co 11 x0.toNat x1.toNat x2.toNat (by decide) x0.isLt x1.isLt x2.isLt _ fun n h1 h2 ha hb hr => ?_
  have ex0 : fieldBv n 15 8 = x0 := fieldBv_eq x0 ha
  have ex1 : fieldBv n 7 8 = x1 := fieldBv_eq x1 hb
  have ex2 : fieldBv n 0 7 = x2 := fieldBv_eq x2 hr
  rw [decodeNat, h1, h2]
  show accept n [] [] (.xfDeq (fieldBv n 15 8) (fieldBv n 7 8) (fieldBv n 0 7)) = _
  rw [ex0, ex1, ex2]
  exact accept_ok rfl

theorem Sys2Proof.Laws.DecodeEncode.dcmp (x0 : BitVec 8) (x1 : BitVec 8) (x2 : BitVec 7) : Statement (.dcmp x0 x1 x2) := by
  intro w _ h; cases h
  refine decode_co 12 x0.toNat x1.toNat x2.toNat (by decide) x0.isLt x1.isLt x2.isLt _ fun n h1 h2 ha hb hr => ?_
  have ex0 : fieldBv n 15 8 = x0 := fieldBv_eq x0 ha
  have ex1 : fieldBv n 7 8 = x1 := fieldBv_eq x1 hb
  have ex2 : fieldBv n 0 7 = x2 := fieldBv_eq x2 hr
  rw [decodeNat, h1, h2]
  show accept n [] [] (.dcmp (fieldBv n 15 8) (fieldBv n 7 8) (fieldBv n 0 7)) = _
  rw [ex0, ex1, ex2]
  exact accept_ok rfl

theorem Sys2Proof.Laws.DecodeEncode.copyStat (x0 : BitVec 8) (x1 : BitVec 7) : Statement (.copyStat x0 x1) := by
  intro w _ h; cases h
  refine decode_co 13 x0.toNat 0 x1.toNat (by decide) x0.isLt (by decide) x1.isLt _ fun n h1 h2 ha hb hr => ?_
  have ex0 : fieldBv n 15 8 = x0 := fieldBv_eq x0 ha
  have ex1 : fieldBv n 0 7 = x1 := fieldBv_eq x1 hr
  have r0 : field n 7 8 = 0 := hb
  rw [decodeNat, h1, h2]
  show accept n [(7, 8)] [] (.copyStat (fieldBv n 15 8) (fieldBv n 0 7)) = _
  rw [ex0, ex1]
  exact accept_ok (by simp [r0])

theorem Sys2Proof.Laws.DecodeEncode.ovFmt (x0 : BitVec 8) (x1 : BitVec 7) : Statement (.ovFmt x0 x1) := by
  intro w _ h; cases h
  refine decode_co 32 x0.toNat 0 x1.toNat (by decide) x0.isLt (by decide) x1.isLt _ fun n h1 h2 ha hb hr => ?_
  have ex0 : fieldBv n 15 8 = x0 := fieldBv_eq x0 ha
  have ex1 : fieldBv n 0 7 = x1 := fieldBv_eq x1 hr
  have r0 : field n 7 8 = 0 := hb
  rw [decodeNat, h1, h2]
  show accept n [(7, 8)] [] (.ovFmt (fieldBv n 15 8) (fieldBv n 0 7)) = _
  rw [ex0, ex1]
  exact accept_ok (by simp [r0])

theorem Sys2Proof.Laws.DecodeEncode.ovA (x0 : BitVec 8) (x1 : BitVec 7) : Statement (.ovA x0 x1) := by
  intro w _ h; cases h
  refine decode_co 33 x0.toNat 0 x1.toNat (by decide) x0.isLt (by decide) x1.isLt _ fun n h1 h2 ha hb hr => ?_
  have ex0 : fieldBv n 15 8 = x0 := fieldBv_eq x0 ha
  have ex1 : fieldBv n 0 7 = x1 := fieldBv_eq x1 hr
  have r0 : field n 7 8 = 0 := hb
  rw [decodeNat, h1, h2]
  show accept n [(7, 8)] [] (.ovA (fieldBv n 15 8) (fieldBv n 0 7)) = _
  rw [ex0, ex1]
  exact accept_ok (by simp [r0])

theorem Sys2Proof.Laws.DecodeEncode.ovB (x0 : BitVec 8) (x1 : BitVec 7) : Statement (.ovB x0 x1) := by
  intro w _ h; cases h
  refine decode_co 34 x0.toNat 0 x1.toNat (by decide) x0.isLt (by decide) x1.isLt _ fun n h1 h2 ha hb hr => ?_
  have ex0 : fieldBv n 15 8 = x0 := fieldBv_eq x0 ha
  have ex1 : fieldBv n 0 7 = x1 := fieldBv_eq x1 hr
  have r0 : field n 7 8 = 0 := hb
  rw [decodeNat, h1, h2]
  show accept n [(7, 8)] [] (.ovB (fieldBv n 15 8) (fieldBv n 0 7)) = _
  rw [ex0, ex1]
  exact accept_ok (by simp [r0])

theorem Sys2Proof.Laws.DecodeEncode.ovIdx (x0 : BitVec 8) (x1 : BitVec 7) : Statement (.ovIdx x0 x1) := by
  intro w _ h; cases h
  refine decode_co 35 x0.toNat 0 x1.toNat (by decide) x0.isLt (by decide) x1.isLt _ fun n h1 h2 ha hb hr => ?_
  have ex0 : fieldBv n 15 8 = x0 := fieldBv_eq x0 ha
  have ex1 : fieldBv n 0 7 = x1 := fieldBv_eq x1 hr
  have r0 : field n 7 8 = 0 := hb
  rw [decodeNat, h1, h2]
  show accept n [(7, 8)] [] (.ovIdx (fieldBv n 15 8) (fieldBv n 0 7)) = _
  rw [ex0, ex1]
  exact accept_ok (by simp [r0])

theorem Sys2Proof.Laws.DecodeEncode.ovTile (x0 : BitVec 8) (x1 : BitVec 8) (x2 : BitVec 7) : Statement (.ovTile x0 x1 x2) := by
  intro w _ h; cases h
  refine decode_co 36 x0.toNat x1.toNat x2.toNat (by decide) x0.isLt x1.isLt x2.isLt _ fun n h1 h2 ha hb hr => ?_
  have ex0 : fieldBv n 15 8 = x0 := fieldBv_eq x0 ha
  have ex1 : fieldBv n 7 8 = x1 := fieldBv_eq x1 hb
  have ex2 : fieldBv n 0 7 = x2 := fieldBv_eq x2 hr
  rw [decodeNat, h1, h2]
  show accept n [] [] (.ovTile (fieldBv n 15 8) (fieldBv n 7 8) (fieldBv n 0 7)) = _
  rw [ex0, ex1, ex2]
  exact accept_ok rfl

theorem Sys2Proof.Laws.DecodeEncode.ovChain (x0 : BitVec 8) (x1 : BitVec 8) (x2 : BitVec 7) : Statement (.ovChain x0 x1 x2) := by
  intro w _ h; cases h
  refine decode_co 37 x0.toNat x1.toNat x2.toNat (by decide) x0.isLt x1.isLt x2.isLt _ fun n h1 h2 ha hb hr => ?_
  have ex0 : fieldBv n 15 8 = x0 := fieldBv_eq x0 ha
  have ex1 : fieldBv n 7 8 = x1 := fieldBv_eq x1 hb
  have ex2 : fieldBv n 0 7 = x2 := fieldBv_eq x2 hr
  rw [decodeNat, h1, h2]
  show accept n [] [] (.ovChain (fieldBv n 15 8) (fieldBv n 7 8) (fieldBv n 0 7)) = _
  rw [ex0, ex1, ex2]
  exact accept_ok rfl

theorem Sys2Proof.Laws.DecodeEncode.ovStat (x0 : BitVec 8) (x1 : BitVec 7) : Statement (.ovStat x0 x1) := by
  intro w _ h; cases h
  refine decode_co 38 x0.toNat 0 x1.toNat (by decide) x0.isLt (by decide) x1.isLt _ fun n h1 h2 ha hb hr => ?_
  have ex0 : fieldBv n 15 8 = x0 := fieldBv_eq x0 ha
  have ex1 : fieldBv n 0 7 = x1 := fieldBv_eq x1 hr
  have r0 : field n 7 8 = 0 := hb
  rw [decodeNat, h1, h2]
  show accept n [(7, 8)] [] (.ovStat (fieldBv n 15 8) (fieldBv n 0 7)) = _
  rw [ex0, ex1]
  exact accept_ok (by simp [r0])

theorem Sys2Proof.Laws.DecodeEncode.ovToken (x0 : BitVec 8) (x1 : BitVec 7) : Statement (.ovToken x0 x1) := by
  intro w _ h; cases h
  refine decode_co 39 x0.toNat 0 x1.toNat (by decide) x0.isLt (by decide) x1.isLt _ fun n h1 h2 ha hb hr => ?_
  have ex0 : fieldBv n 15 8 = x0 := fieldBv_eq x0 ha
  have ex1 : fieldBv n 0 7 = x1 := fieldBv_eq x1 hr
  have r0 : field n 7 8 = 0 := hb
  rw [decodeNat, h1, h2]
  show accept n [(7, 8)] [] (.ovToken (fieldBv n 15 8) (fieldBv n 0 7)) = _
  rw [ex0, ex1]
  exact accept_ok (by simp [r0])

theorem Sys2Proof.Laws.DecodeEncode.accAlloc (x0 : BitVec 8) (x1 : BitVec 8) (x2 : BitVec 7) : Statement (.accAlloc x0 x1 x2) := by
  intro w _ h; cases h
  refine decode_co 40 x0.toNat x1.toNat x2.toNat (by decide) x0.isLt x1.isLt x2.isLt _ fun n h1 h2 ha hb hr => ?_
  have ex0 : fieldBv n 15 8 = x0 := fieldBv_eq x0 ha
  have ex1 : fieldBv n 7 8 = x1 := fieldBv_eq x1 hb
  have ex2 : fieldBv n 0 7 = x2 := fieldBv_eq x2 hr
  rw [decodeNat, h1, h2]
  show accept n [] [] (.accAlloc (fieldBv n 15 8) (fieldBv n 7 8) (fieldBv n 0 7)) = _
  rw [ex0, ex1, ex2]
  exact accept_ok rfl

theorem Sys2Proof.Laws.DecodeEncode.accFree (x0 : BitVec 8) (x1 : BitVec 7) : Statement (.accFree x0 x1) := by
  intro w _ h; cases h
  refine decode_co 41 x0.toNat 0 x1.toNat (by decide) x0.isLt (by decide) x1.isLt _ fun n h1 h2 ha hb hr => ?_
  have ex0 : fieldBv n 15 8 = x0 := fieldBv_eq x0 ha
  have ex1 : fieldBv n 0 7 = x1 := fieldBv_eq x1 hr
  have r0 : field n 7 8 = 0 := hb
  rw [decodeNat, h1, h2]
  show accept n [(7, 8)] [] (.accFree (fieldBv n 15 8) (fieldBv n 0 7)) = _
  rw [ex0, ex1]
  exact accept_ok (by simp [r0])

theorem Sys2Proof.Laws.DecodeEncode.accZero (x0 : BitVec 8) (x1 : BitVec 7) : Statement (.accZero x0 x1) := by
  intro w _ h; cases h
  refine decode_co 42 x0.toNat 0 x1.toNat (by decide) x0.isLt (by decide) x1.isLt _ fun n h1 h2 ha hb hr => ?_
  have ex0 : fieldBv n 15 8 = x0 := fieldBv_eq x0 ha
  have ex1 : fieldBv n 0 7 = x1 := fieldBv_eq x1 hr
  have r0 : field n 7 8 = 0 := hb
  rw [decodeNat, h1, h2]
  show accept n [(7, 8)] [] (.accZero (fieldBv n 15 8) (fieldBv n 0 7)) = _
  rw [ex0, ex1]
  exact accept_ok (by simp [r0])

theorem Sys2Proof.Laws.DecodeEncode.accRd (x0 : BitVec 8) (x1 : BitVec 7) : Statement (.accRd x0 x1) := by
  intro w _ h; cases h
  refine decode_co 43 x0.toNat 0 x1.toNat (by decide) x0.isLt (by decide) x1.isLt _ fun n h1 h2 ha hb hr => ?_
  have ex0 : fieldBv n 15 8 = x0 := fieldBv_eq x0 ha
  have ex1 : fieldBv n 0 7 = x1 := fieldBv_eq x1 hr
  have r0 : field n 7 8 = 0 := hb
  rw [decodeNat, h1, h2]
  show accept n [(7, 8)] [] (.accRd (fieldBv n 15 8) (fieldBv n 0 7)) = _
  rw [ex0, ex1]
  exact accept_ok (by simp [r0])

theorem Sys2Proof.Laws.DecodeEncode.accWr (x0 : BitVec 8) (x1 : BitVec 8) (x2 : BitVec 7) : Statement (.accWr x0 x1 x2) := by
  intro w _ h; cases h
  refine decode_co 44 x0.toNat x1.toNat x2.toNat (by decide) x0.isLt x1.isLt x2.isLt _ fun n h1 h2 ha hb hr => ?_
  have ex0 : fieldBv n 15 8 = x0 := fieldBv_eq x0 ha
  have ex1 : fieldBv n 7 8 = x1 := fieldBv_eq x1 hb
  have ex2 : fieldBv n 0 7 = x2 := fieldBv_eq x2 hr
  rw [decodeNat, h1, h2]
  show accept n [] [] (.accWr (fieldBv n 15 8) (fieldBv n 7 8) (fieldBv n 0 7)) = _
  rw [ex0, ex1, ex2]
  exact accept_ok rfl

theorem Sys2Proof.Laws.DecodeEncode.accSt (x0 : BitVec 8) (x1 : BitVec 8) (x2 : BitVec 7) : Statement (.accSt x0 x1 x2) := by
  intro w _ h; cases h
  refine decode_co 45 x0.toNat x1.toNat x2.toNat (by decide) x0.isLt x1.isLt x2.isLt _ fun n h1 h2 ha hb hr => ?_
  have ex0 : fieldBv n 15 8 = x0 := fieldBv_eq x0 ha
  have ex1 : fieldBv n 7 8 = x1 := fieldBv_eq x1 hb
  have ex2 : fieldBv n 0 7 = x2 := fieldBv_eq x2 hr
  rw [decodeNat, h1, h2]
  show accept n [] [] (.accSt (fieldBv n 15 8) (fieldBv n 7 8) (fieldBv n 0 7)) = _
  rw [ex0, ex1, ex2]
  exact accept_ok rfl

theorem Sys2Proof.Laws.DecodeEncode.accDrain (x0 : BitVec 8) (x1 : BitVec 8) (x2 : BitVec 7) : Statement (.accDrain x0 x1 x2) := by
  intro w _ h; cases h
  refine decode_co 46 x0.toNat x1.toNat x2.toNat (by decide) x0.isLt x1.isLt x2.isLt _ fun n h1 h2 ha hb hr => ?_
  have ex0 : fieldBv n 15 8 = x0 := fieldBv_eq x0 ha
  have ex1 : fieldBv n 7 8 = x1 := fieldBv_eq x1 hb
  have ex2 : fieldBv n 0 7 = x2 := fieldBv_eq x2 hr
  rw [decodeNat, h1, h2]
  show accept n [] [] (.accDrain (fieldBv n 15 8) (fieldBv n 7 8) (fieldBv n 0 7)) = _
  rw [ex0, ex1, ex2]
  exact accept_ok rfl

theorem Sys2Proof.Laws.DecodeEncode.accMap (x0 : BitVec 8) (x1 : BitVec 7) : Statement (.accMap x0 x1) := by
  intro w _ h; cases h
  refine decode_co 47 x0.toNat 0 x1.toNat (by decide) x0.isLt (by decide) x1.isLt _ fun n h1 h2 ha hb hr => ?_
  have ex0 : fieldBv n 15 8 = x0 := fieldBv_eq x0 ha
  have ex1 : fieldBv n 0 7 = x1 := fieldBv_eq x1 hr
  have r0 : field n 7 8 = 0 := hb
  rw [decodeNat, h1, h2]
  show accept n [(7, 8)] [] (.accMap (fieldBv n 15 8) (fieldBv n 0 7)) = _
  rw [ex0, ex1]
  exact accept_ok (by simp [r0])

theorem Sys2Proof.Laws.DecodeEncode.tmAdd (x0 : BitVec 8) (x1 : BitVec 8) (x2 : BitVec 7) : Statement (.tmAdd x0 x1 x2) := by
  intro w _ h; cases h
  refine decode_co 64 x0.toNat x1.toNat x2.toNat (by decide) x0.isLt x1.isLt x2.isLt _ fun n h1 h2 ha hb hr => ?_
  have ex0 : fieldBv n 15 8 = x0 := fieldBv_eq x0 ha
  have ex1 : fieldBv n 7 8 = x1 := fieldBv_eq x1 hb
  have ex2 : fieldBv n 0 7 = x2 := fieldBv_eq x2 hr
  rw [decodeNat, h1, h2]
  show accept n [] [] (.tmAdd (fieldBv n 15 8) (fieldBv n 7 8) (fieldBv n 0 7)) = _
  rw [ex0, ex1, ex2]
  exact accept_ok rfl

theorem Sys2Proof.Laws.DecodeEncode.tmMin (x0 : BitVec 8) (x1 : BitVec 8) (x2 : BitVec 7) : Statement (.tmMin x0 x1 x2) := by
  intro w _ h; cases h
  refine decode_co 65 x0.toNat x1.toNat x2.toNat (by decide) x0.isLt x1.isLt x2.isLt _ fun n h1 h2 ha hb hr => ?_
  have ex0 : fieldBv n 15 8 = x0 := fieldBv_eq x0 ha
  have ex1 : fieldBv n 7 8 = x1 := fieldBv_eq x1 hb
  have ex2 : fieldBv n 0 7 = x2 := fieldBv_eq x2 hr
  rw [decodeNat, h1, h2]
  show accept n [] [] (.tmMin (fieldBv n 15 8) (fieldBv n 7 8) (fieldBv n 0 7)) = _
  rw [ex0, ex1, ex2]
  exact accept_ok rfl

theorem Sys2Proof.Laws.DecodeEncode.tmMax (x0 : BitVec 8) (x1 : BitVec 8) (x2 : BitVec 7) : Statement (.tmMax x0 x1 x2) := by
  intro w _ h; cases h
  refine decode_co 66 x0.toNat x1.toNat x2.toNat (by decide) x0.isLt x1.isLt x2.isLt _ fun n h1 h2 ha hb hr => ?_
  have ex0 : fieldBv n 15 8 = x0 := fieldBv_eq x0 ha
  have ex1 : fieldBv n 7 8 = x1 := fieldBv_eq x1 hb
  have ex2 : fieldBv n 0 7 = x2 := fieldBv_eq x2 hr
  rw [decodeNat, h1, h2]
  show accept n [] [] (.tmMax (fieldBv n 15 8) (fieldBv n 7 8) (fieldBv n 0 7)) = _
  rw [ex0, ex1, ex2]
  exact accept_ok rfl

theorem Sys2Proof.Laws.DecodeEncode.tmCas (x0 : BitVec 8) (x1 : BitVec 8) (x2 : BitVec 7) : Statement (.tmCas x0 x1 x2) := by
  intro w _ h; cases h
  refine decode_co 67 x0.toNat x1.toNat x2.toNat (by decide) x0.isLt x1.isLt x2.isLt _ fun n h1 h2 ha hb hr => ?_
  have ex0 : fieldBv n 15 8 = x0 := fieldBv_eq x0 ha
  have ex1 : fieldBv n 7 8 = x1 := fieldBv_eq x1 hb
  have ex2 : fieldBv n 0 7 = x2 := fieldBv_eq x2 hr
  rw [decodeNat, h1, h2]
  show accept n [] [] (.tmCas (fieldBv n 15 8) (fieldBv n 7 8) (fieldBv n 0 7)) = _
  rw [ex0, ex1, ex2]
  exact accept_ok rfl

theorem Sys2Proof.Laws.DecodeEncode.tmSacc (x0 : BitVec 8) (x1 : BitVec 8) (x2 : BitVec 7) : Statement (.tmSacc x0 x1 x2) := by
  intro w _ h; cases h
  refine decode_co 68 x0.toNat x1.toNat x2.toNat (by decide) x0.isLt x1.isLt x2.isLt _ fun n h1 h2 ha hb hr => ?_
  have ex0 : fieldBv n 15 8 = x0 := fieldBv_eq x0 ha
  have ex1 : fieldBv n 7 8 = x1 := fieldBv_eq x1 hb
  have ex2 : fieldBv n 0 7 = x2 := fieldBv_eq x2 hr
  rw [decodeNat, h1, h2]
  show accept n [] [] (.tmSacc (fieldBv n 15 8) (fieldBv n 7 8) (fieldBv n 0 7)) = _
  rw [ex0, ex1, ex2]
  exact accept_ok rfl

theorem Sys2Proof.Laws.DecodeEncode.carAcq (x0 : BitVec 8) (x1 : BitVec 8) (x2 : BitVec 7) : Statement (.carAcq x0 x1 x2) := by
  intro w _ h; cases h
  refine decode_co 80 x0.toNat x1.toNat x2.toNat (by decide) x0.isLt x1.isLt x2.isLt _ fun n h1 h2 ha hb hr => ?_
  have ex0 : fieldBv n 15 8 = x0 := fieldBv_eq x0 ha
  have ex1 : fieldBv n 7 8 = x1 := fieldBv_eq x1 hb
  have ex2 : fieldBv n 0 7 = x2 := fieldBv_eq x2 hr
  rw [decodeNat, h1, h2]
  show accept n [] [] (.carAcq (fieldBv n 15 8) (fieldBv n 7 8) (fieldBv n 0 7)) = _
  rw [ex0, ex1, ex2]
  exact accept_ok rfl

theorem Sys2Proof.Laws.DecodeEncode.carRel (x0 : BitVec 7) : Statement (.carRel x0) := by
  intro w _ h; cases h
  refine decode_co 81 0 0 x0.toNat (by decide) (by decide) (by decide) x0.isLt _ fun n h1 h2 ha hb hr => ?_
  have ex0 : fieldBv n 0 7 = x0 := fieldBv_eq x0 hr
  have r0 : field n 15 8 = 0 := ha
  have r1 : field n 7 8 = 0 := hb
  rw [decodeNat, h1, h2]
  show accept n [(15, 8), (7, 8)] [] (.carRel (fieldBv n 0 7)) = _
  rw [ex0]
  exact accept_ok (by simp [r0, r1])

theorem Sys2Proof.Laws.DecodeEncode.carClr (x0 : BitVec 8) (x1 : BitVec 7) : Statement (.carClr x0 x1) := by
  intro w _ h; cases h
  refine decode_co 82 x0.toNat 0 x1.toNat (by decide) x0.isLt (by decide) x1.isLt _ fun n h1 h2 ha hb hr => ?_
  have ex0 : fieldBv n 15 8 = x0 := fieldBv_eq x0 ha
  have ex1 : fieldBv n 0 7 = x1 := fieldBv_eq x1 hr
  have r0 : field n 7 8 = 0 := hb
  rw [decodeNat, h1, h2]
  show accept n [(7, 8)] [] (.carClr (fieldBv n 15 8) (fieldBv n 0 7)) = _
  rw [ex0, ex1]
  exact accept_ok (by simp [r0])

theorem Sys2Proof.Laws.DecodeEncode.carCell (x0 : BitVec 8) (x1 : BitVec 7) : Statement (.carCell x0 x1) := by
  intro w _ h; cases h
  refine decode_co 83 x0.toNat 0 x1.toNat (by decide) x0.isLt (by decide) x1.isLt _ fun n h1 h2 ha hb hr => ?_
  have ex0 : fieldBv n 15 8 = x0 := fieldBv_eq x0 ha
  have ex1 : fieldBv n 0 7 = x1 := fieldBv_eq x1 hr
  have r0 : field n 7 8 = 0 := hb
  rw [decodeNat, h1, h2]
  show accept n [(7, 8)] [] (.carCell (fieldBv n 15 8) (fieldBv n 0 7)) = _
  rw [ex0, ex1]
  exact accept_ok (by simp [r0])

theorem Sys2Proof.Laws.DecodeEncode.carCol (x0 : BitVec 8) (x1 : BitVec 8) (x2 : BitVec 7) : Statement (.carCol x0 x1 x2) := by
  intro w _ h; cases h
  refine decode_co 84 x0.toNat x1.toNat x2.toNat (by decide) x0.isLt x1.isLt x2.isLt _ fun n h1 h2 ha hb hr => ?_
  have ex0 : fieldBv n 15 8 = x0 := fieldBv_eq x0 ha
  have ex1 : fieldBv n 7 8 = x1 := fieldBv_eq x1 hb
  have ex2 : fieldBv n 0 7 = x2 := fieldBv_eq x2 hr
  rw [decodeNat, h1, h2]
  show accept n [] [] (.carCol (fieldBv n 15 8) (fieldBv n 7 8) (fieldBv n 0 7)) = _
  rw [ex0, ex1, ex2]
  exact accept_ok rfl

theorem Sys2Proof.Laws.DecodeEncode.carDecide (x0 : BitVec 8) (x1 : BitVec 7) : Statement (.carDecide x0 x1) := by
  intro w _ h; cases h
  refine decode_co 85 x0.toNat 0 x1.toNat (by decide) x0.isLt (by decide) x1.isLt _ fun n h1 h2 ha hb hr => ?_
  have ex0 : fieldBv n 15 8 = x0 := fieldBv_eq x0 ha
  have ex1 : fieldBv n 0 7 = x1 := fieldBv_eq x1 hr
  have r0 : field n 7 8 = 0 := hb
  rw [decodeNat, h1, h2]
  show accept n [(7, 8)] [] (.carDecide (fieldBv n 15 8) (fieldBv n 0 7)) = _
  rw [ex0, ex1]
  exact accept_ok (by simp [r0])

theorem Sys2Proof.Laws.DecodeEncode.carProp (x0 : BitVec 8) (x1 : BitVec 8) (x2 : BitVec 7) : Statement (.carProp x0 x1 x2) := by
  intro w _ h; cases h
  refine decode_co 86 x0.toNat x1.toNat x2.toNat (by decide) x0.isLt x1.isLt x2.isLt _ fun n h1 h2 ha hb hr => ?_
  have ex0 : fieldBv n 15 8 = x0 := fieldBv_eq x0 ha
  have ex1 : fieldBv n 7 8 = x1 := fieldBv_eq x1 hb
  have ex2 : fieldBv n 0 7 = x2 := fieldBv_eq x2 hr
  rw [decodeNat, h1, h2]
  show accept n [] [] (.carProp (fieldBv n 15 8) (fieldBv n 7 8) (fieldBv n 0 7)) = _
  rw [ex0, ex1, ex2]
  exact accept_ok rfl

theorem Sys2Proof.Laws.DecodeEncode.carBack (x0 : BitVec 8) (x1 : BitVec 7) : Statement (.carBack x0 x1) := by
  intro w _ h; cases h
  refine decode_co 87 x0.toNat 0 x1.toNat (by decide) x0.isLt (by decide) x1.isLt _ fun n h1 h2 ha hb hr => ?_
  have ex0 : fieldBv n 15 8 = x0 := fieldBv_eq x0 ha
  have ex1 : fieldBv n 0 7 = x1 := fieldBv_eq x1 hr
  have r0 : field n 7 8 = 0 := hb
  rw [decodeNat, h1, h2]
  show accept n [(7, 8)] [] (.carBack (fieldBv n 15 8) (fieldBv n 0 7)) = _
  rw [ex0, ex1]
  exact accept_ok (by simp [r0])

theorem Sys2Proof.Laws.DecodeEncode.carLearn (x0 : BitVec 8) (x1 : BitVec 8) (x2 : BitVec 7) : Statement (.carLearn x0 x1 x2) := by
  intro w _ h; cases h
  refine decode_co 88 x0.toNat x1.toNat x2.toNat (by decide) x0.isLt x1.isLt x2.isLt _ fun n h1 h2 ha hb hr => ?_
  have ex0 : fieldBv n 15 8 = x0 := fieldBv_eq x0 ha
  have ex1 : fieldBv n 7 8 = x1 := fieldBv_eq x1 hb
  have ex2 : fieldBv n 0 7 = x2 := fieldBv_eq x2 hr
  rw [decodeNat, h1, h2]
  show accept n [] [] (.carLearn (fieldBv n 15 8) (fieldBv n 7 8) (fieldBv n 0 7)) = _
  rw [ex0, ex1, ex2]
  exact accept_ok rfl

theorem Sys2Proof.Laws.DecodeEncode.carTrail (x0 : BitVec 8) (x1 : BitVec 7) : Statement (.carTrail x0 x1) := by
  intro w _ h; cases h
  refine decode_co 89 x0.toNat 0 x1.toNat (by decide) x0.isLt (by decide) x1.isLt _ fun n h1 h2 ha hb hr => ?_
  have ex0 : fieldBv n 15 8 = x0 := fieldBv_eq x0 ha
  have ex1 : fieldBv n 0 7 = x1 := fieldBv_eq x1 hr
  have r0 : field n 7 8 = 0 := hb
  rw [decodeNat, h1, h2]
  show accept n [(7, 8)] [] (.carTrail (fieldBv n 15 8) (fieldBv n 0 7)) = _
  rw [ex0, ex1]
  exact accept_ok (by simp [r0])

theorem Sys2Proof.Laws.DecodeEncode.carVar (x0 : BitVec 8) (x1 : BitVec 7) : Statement (.carVar x0 x1) := by
  intro w _ h; cases h
  refine decode_co 90 x0.toNat 0 x1.toNat (by decide) x0.isLt (by decide) x1.isLt _ fun n h1 h2 ha hb hr => ?_
  have ex0 : fieldBv n 15 8 = x0 := fieldBv_eq x0 ha
  have ex1 : fieldBv n 0 7 = x1 := fieldBv_eq x1 hr
  have r0 : field n 7 8 = 0 := hb
  rw [decodeNat, h1, h2]
  show accept n [(7, 8)] [] (.carVar (fieldBv n 15 8) (fieldBv n 0 7)) = _
  rw [ex0, ex1]
  exact accept_ok (by simp [r0])

theorem Sys2Proof.Laws.DecodeEncode.carStat (x0 : BitVec 7) : Statement (.carStat x0) := by
  intro w _ h; cases h
  refine decode_co 91 0 0 x0.toNat (by decide) (by decide) (by decide) x0.isLt _ fun n h1 h2 ha hb hr => ?_
  have ex0 : fieldBv n 0 7 = x0 := fieldBv_eq x0 hr
  have r0 : field n 15 8 = 0 := ha
  have r1 : field n 7 8 = 0 := hb
  rw [decodeNat, h1, h2]
  show accept n [(15, 8), (7, 8)] [] (.carStat (fieldBv n 0 7)) = _
  rw [ex0]
  exact accept_ok (by simp [r0, r1])

theorem Sys2Proof.Laws.DecodeEncode.producerDelivers (x0 : Nat) : Statement (.producerDelivers x0) := fun _ _ h => nomatch h

theorem Sys2Proof.Laws.DecodeEncode.registerWaitExpired (x0 : Nat) : Statement (.registerWaitExpired x0) := fun _ _ h => nomatch h

theorem Sys2Proof.Laws.DecodeEncode.waitTimeout (x0 : Nat) : Statement (.waitTimeout x0) := fun _ _ h => nomatch h

theorem Sys2Proof.Laws.DecodeEncode.commandAccepted (x0 : Nat) : Statement (.commandAccepted x0) := fun _ _ h => nomatch h

theorem Sys2Proof.Laws.DecodeEncode.engineUnitMoved (x0 : Nat) : Statement (.engineUnitMoved x0) := fun _ _ h => nomatch h

theorem Sys2Proof.Laws.DecodeEncode.commandComplete (x0 : Nat) : Statement (.commandComplete x0) := fun _ _ h => nomatch h

theorem Sys2Proof.Laws.DecodeEncode.ovenTurn (x0 : Nat) (x1 : Nat) : Statement (.ovenTurn x0 x1) := fun _ _ h => nomatch h

theorem Sys2Proof.Laws.DecodeEncode.tmLineOperation (x0 : Nat) : Statement (.tmLineOperation x0) := fun _ _ h => nomatch h

theorem Sys2Proof.Laws.DecodeEncode.leaseExpired (x0 : Nat) : Statement (.leaseExpired x0) := fun _ _ h => nomatch h

theorem Sys2Proof.Laws.DecodeEncode.binTimerExpired (x0 : Nat) (x1 : Nat) : Statement (.binTimerExpired x0 x1) := fun _ _ h => nomatch h

theorem Sys2Proof.Laws.DecodeEncode.watchdogExpired (x0 : Nat) : Statement (.watchdogExpired x0) := fun _ _ h => nomatch h

theorem Sys2Proof.Laws.DecodeEncode.watchdogTrap (x0 : Nat) : Statement (.watchdogTrap x0) := fun _ _ h => nomatch h

theorem Sys2Proof.Laws.DecodeEncode.turnstileAudit : Statement (.turnstileAudit) := fun _ _ h => nomatch h

theorem Sys2Proof.Laws.DecodeEncode.lostPermitTrap (x0 : Nat) : Statement (.lostPermitTrap x0) := fun _ _ h => nomatch h

theorem Sys2Proof.Laws.DecodeEncode.placement (x0 : Nat) : Statement (.placement x0) := fun _ _ h => nomatch h

theorem Sys2Proof.Laws.DecodeEncode.teamStart (x0 : Nat) : Statement (.teamStart x0) := fun _ _ h => nomatch h

theorem Sys2Proof.Laws.DecodeEncode.retirement (x0 : Nat) : Statement (.retirement x0) := fun _ _ h => nomatch h

theorem Sys2Proof.Laws.DecodeEncode.eventRingAgeInterrupt (x0 : Nat) : Statement (.eventRingAgeInterrupt x0) := fun _ _ h => nomatch h

theorem Sys2Proof.Laws.DecodeEncode.preemption (x0 : Nat) : Statement (.preemption x0) := fun _ _ h => nomatch h

theorem Sys2Proof.Laws.DecodeEncode.groupRestore (x0 : Nat) : Statement (.groupRestore x0) := fun _ _ h => nomatch h

theorem Sys2Proof.Laws.DecodeEncode.backingStorePageIn (x0 : Nat) (x1 : BitVec 64) : Statement (.backingStorePageIn x0 x1) := fun _ _ h => nomatch h

theorem Sys2Proof.Laws.DecodeEncode.eviction : Statement (.eviction) := fun _ _ h => nomatch h

theorem Sys2Proof.Laws.DecodeEncode.contextRemoval : Statement (.contextRemoval) := fun _ _ h => nomatch h

theorem Sys2Proof.Laws.DecodeEncode.contextReturn : Statement (.contextReturn) := fun _ _ h => nomatch h

theorem Sys2Proof.Laws.DecodeEncode.shootdownComplete (x0 : Nat) : Statement (.shootdownComplete x0) := fun _ _ h => nomatch h

theorem Sys2Proof.Laws.DecodeEncode.promotionComplete (x0 : Nat) : Statement (.promotionComplete x0) := fun _ _ h => nomatch h

theorem Sys2Proof.Laws.DecodeEncode.permitLands (x0 : Nat) : Statement (.permitLands x0) := fun _ _ h => nomatch h

theorem Sys2Proof.Laws.DecodeEncode.appendLands (x0 : Nat) : Statement (.appendLands x0) := fun _ _ h => nomatch h

theorem Sys2Proof.Laws.DecodeEncode.softErrorCorrected : Statement (.softErrorCorrected) := fun _ _ h => nomatch h

theorem Sys2Proof.Laws.DecodeEncode.uncorrectableError : Statement (.uncorrectableError) := fun _ _ h => nomatch h

theorem Sys2Proof.Laws.DecodeEncode.overTemperature : Statement (.overTemperature) := fun _ _ h => nomatch h

theorem Sys2Proof.Laws.DecodeEncode.heatRefillHalved : Statement (.heatRefillHalved) := fun _ _ h => nomatch h

theorem Sys2Proof.Laws.DecodeEncode.safetyNetUnfreeze : Statement (.safetyNetUnfreeze) := fun _ _ h => nomatch h

theorem Sys2Proof.Laws.DecodeEncode.rlfree (x0 : Nat) (x1 : Nat) : Statement (.rlfree x0 x1) := fun _ _ h => nomatch h

theorem Sys2Proof.Laws.DecodeEncode.deviceRegisterWrite : Statement (.deviceRegisterWrite) := fun _ _ h => nomatch h

theorem Sys2Proof.Laws.DecodeEncode.debugResume : Statement (.debugResume) := fun _ _ h => nomatch h

theorem Sys2Proof.Laws.DecodeEncode.coldReset : Statement (.coldReset) := fun _ _ h => nomatch h

theorem Sys2Proof.Laws.DecodeEncode.warmReset : Statement (.warmReset) := fun _ _ h => nomatch h

theorem Sys2Proof.Laws.DecodeEncode.standbySupplyLoss : Statement (.standbySupplyLoss) := fun _ _ h => nomatch h

theorem Sys2Proof.Laws.DecodeEncode.flashRecoveryWrite : Statement (.flashRecoveryWrite) := fun _ _ h => nomatch h

theorem Sys2Proof.Laws.DecodeEncode.flashRecoveryCommit : Statement (.flashRecoveryCommit) := fun _ _ h => nomatch h

theorem Sys2Proof.Laws.DecodeEncode.loadObject : Statement (.loadObject) := fun _ _ h => nomatch h

theorem Sys2Proof.Laws.DecodeEncode.allocate : Statement (.allocate) := fun _ _ h => nomatch h

theorem Sys2Proof.Laws.DecodeEncode.write : Statement (.write) := fun _ _ h => nomatch h

theorem Sys2Proof.Laws.DecodeEncode.launch : Statement (.launch) := fun _ _ h => nomatch h

theorem Sys2Proof.Laws.DecodeEncode.read : Statement (.read) := fun _ _ h => nomatch h

theorem Sys2Proof.Laws.DecodeEncode.attest : Statement (.attest) := fun _ _ h => nomatch h

theorem Sys2Proof.Laws.DecodeEncode.packetDropped : Statement (.packetDropped) := fun _ _ h => nomatch h

theorem Sys2Proof.Laws.DecodeEncode.timeSync : Statement (.timeSync) := fun _ _ h => nomatch h

theorem Sys2Proof.Laws.DecodeEncode.launchPacket : Statement (.launchPacket) := fun _ _ h => nomatch h

theorem Sys2Proof.Laws.DecodeEncode.gangStart (x0 : Nat) : Statement (.gangStart x0) := fun _ _ h => nomatch h

theorem Sys2Proof.Laws.DecodeEncode.gangSliceExpired (x0 : Nat) : Statement (.gangSliceExpired x0) := fun _ _ h => nomatch h

theorem Sys2Proof.Laws.DecodeEncode.portEnable : Statement (.portEnable) := fun _ _ h => nomatch h

theorem Sys2Proof.Laws.DecodeEncode.portStateAdvance : Statement (.portStateAdvance) := fun _ _ h => nomatch h

theorem Sys2Proof.Laws.DecodeEncode.portStateLimit : Statement (.portStateLimit) := fun _ _ h => nomatch h

theorem Sys2Proof.Laws.DecodeEncode.flitReplay : Statement (.flitReplay) := fun _ _ h => nomatch h

theorem Sys2Proof.Laws.DecodeEncode.laneLost : Statement (.laneLost) := fun _ _ h => nomatch h

theorem Sys2Proof.Laws.DecodeEncode.unassignedOpcode (x0 : BitVec 32) : Statement (.unassignedOpcode x0) := unassigned_decodes x0

theorem Sys2Proof.Laws.DecodeEncode.storePerformed (x0 : Nat) : Statement (.storePerformed x0) := fun _ _ h => nomatch h

theorem Sys2Proof.Laws.DecodeEncode.reductionRequestEnds (x0 : Nat) : Statement (.reductionRequestEnds x0) := fun _ _ h => nomatch h

theorem Sys2Proof.Laws.DecodeEncode.spuriousFiring (x0 : Nat) : Statement (.spuriousFiring x0) := fun _ _ h => nomatch h

theorem Sys2Proof.Laws.DecodeEncode.carouselCommandPerformed (x0 : Nat) : Statement (.carouselCommandPerformed x0) := fun _ _ h => nomatch h

theorem Sys2Proof.Laws.DecodeEncode.rangeBroughtIn (x0 : Nat) : Statement (.rangeBroughtIn x0) := fun _ _ h => nomatch h

theorem Sys2Proof.Laws.DecodeEncode.fabricRequest : Statement (.fabricRequest) := fun _ _ h => nomatch h

theorem Sys2Proof.Laws.DecodeEncode.connectionClosed : Statement (.connectionClosed) := fun _ _ h => nomatch h
end

