-- ==== Sys2Proof/Laws/State.lean ====
section
/-! SUPPORT. What the updates of the state leave alone, one lemma for each field and each update, and what a lookup finds
after an update. -/

namespace Sys2Proof.Machine

/-! ## Updates of the machine -/

@[simp] theorem State.putGroup_cur (s : State) (g : Group) : (s.putGroup g).cur = s.cur := rfl
@[simp] theorem State.putGroup_inputs (s : State) (g : Group) : (s.putGroup g).inputs = s.inputs := rfl
@[simp] theorem State.putGroup_draw (s : State) (g : Group) : (s.putGroup g).draw = s.draw := rfl
@[simp] theorem State.putGroup_nextId (s : State) (g : Group) : (s.putGroup g).nextId = s.nextId := rfl
@[simp] theorem State.putGroup_powered (s : State) (g : Group) : (s.putGroup g).powered = s.powered := rfl
@[simp] theorem State.putGroup_boot (s : State) (g : Group) : (s.putGroup g).boot = s.boot := rfl
@[simp] theorem State.putGroup_wall (s : State) (g : Group) : (s.putGroup g).wall = s.wall := rfl
@[simp] theorem State.putGroup_ppm (s : State) (g : Group) : (s.putGroup g).ppm = s.ppm := rfl
@[simp] theorem State.putGroup_ppmRest (s : State) (g : Group) : (s.putGroup g).ppmRest = s.ppmRest := rfl
@[simp] theorem State.putGroup_stepped (s : State) (g : Group) : (s.putGroup g).stepped = s.stepped := rfl
@[simp] theorem State.putGroup_mem (s : State) (g : Group) : (s.putGroup g).mem = s.mem := rfl
@[simp] theorem State.putGroup_past (s : State) (g : Group) : (s.putGroup g).past = s.past := rfl
@[simp] theorem State.putGroup_recent (s : State) (g : Group) : (s.putGroup g).recent = s.recent := rfl
@[simp] theorem State.putGroup_pageUses (s : State) (g : Group) : (s.putGroup g).pageUses = s.pageUses := rfl
@[simp] theorem State.putGroup_risers (s : State) (g : Group) : (s.putGroup g).risers = s.risers := rfl
@[simp] theorem State.putGroup_shots (s : State) (g : Group) : (s.putGroup g).shots = s.shots := rfl
@[simp] theorem State.putGroup_teams (s : State) (g : Group) : (s.putGroup g).teams = s.teams := rfl
@[simp] theorem State.putGroup_tasks (s : State) (g : Group) : (s.putGroup g).tasks = s.tasks := rfl
@[simp] theorem State.putGroup_contexts (s : State) (g : Group) : (s.putGroup g).contexts = s.contexts := rfl
@[simp] theorem State.putGroup_clusters (s : State) (g : Group) : (s.putGroup g).clusters = s.clusters := rfl
@[simp] theorem State.putGroup_savedOvens (s : State) (g : Group) : (s.putGroup g).savedOvens = s.savedOvens := rfl
@[simp] theorem State.putGroup_dies (s : State) (g : Group) : (s.putGroup g).dies = s.dies := rfl
@[simp] theorem State.putGroup_cores (s : State) (g : Group) : (s.putGroup g).cores = s.cores := rfl
@[simp] theorem State.putGroup_cmds (s : State) (g : Group) : (s.putGroup g).cmds = s.cmds := rfl
@[simp] theorem State.putGroup_stores (s : State) (g : Group) : (s.putGroup g).stores = s.stores := rfl
@[simp] theorem State.putGroup_deliveries (s : State) (g : Group) : (s.putGroup g).deliveries = s.deliveries := rfl
@[simp] theorem State.putGroup_reductions (s : State) (g : Group) : (s.putGroup g).reductions = s.reductions := rfl
@[simp] theorem State.putGroup_shootdowns (s : State) (g : Group) : (s.putGroup g).shootdowns = s.shootdowns := rfl
@[simp] theorem State.putGroup_promotions (s : State) (g : Group) : (s.putGroup g).promotions = s.promotions := rfl
@[simp] theorem State.putGroup_appends (s : State) (g : Group) : (s.putGroup g).appends = s.appends := rfl
@[simp] theorem State.putGroup_permits (s : State) (g : Group) : (s.putGroup g).permits = s.permits := rfl
@[simp] theorem State.putGroup_safety (s : State) (g : Group) : (s.putGroup g).safety = s.safety := rfl
@[simp] theorem State.putGroup_serr (s : State) (g : Group) : (s.putGroup g).serr = s.serr := rfl
@[simp] theorem State.putGroup_meas (s : State) (g : Group) : (s.putGroup g).meas = s.meas := rfl
@[simp] theorem State.putGroup_flash (s : State) (g : Group) : (s.putGroup g).flash = s.flash := rfl
@[simp] theorem State.putGroup_erased (s : State) (g : Group) : (s.putGroup g).erased = s.erased := rfl
@[simp] theorem State.putGroup_config (s : State) (g : Group) : (s.putGroup g).config = s.config := rfl
@[simp] theorem State.putGroup_leafNext (s : State) (g : Group) : (s.putGroup g).leafNext = s.leafNext := rfl
@[simp] theorem State.putGroup_leafEnd (s : State) (g : Group) : (s.putGroup g).leafEnd = s.leafEnd := rfl
@[simp] theorem State.putGroup_frames (s : State) (g : Group) : (s.putGroup g).frames = s.frames := rfl
@[simp] theorem State.putGroup_sct (s : State) (g : Group) : (s.putGroup g).sct = s.sct := rfl
@[simp] theorem State.putGroup_ports (s : State) (g : Group) : (s.putGroup g).ports = s.ports := rfl
@[simp] theorem State.putGroup_links (s : State) (g : Group) : (s.putGroup g).links = s.links := rfl
@[simp] theorem State.putGroup_drops (s : State) (g : Group) : (s.putGroup g).drops = s.drops := rfl
@[simp] theorem State.putGroup_connections (s : State) (g : Group) : (s.putGroup g).connections = s.connections := rfl
@[simp] theorem State.putGroup_replies (s : State) (g : Group) : (s.putGroup g).replies = s.replies := rfl
@[simp] theorem State.putGroup_launchWaits (s : State) (g : Group) : (s.putGroup g).launchWaits = s.launchWaits := rfl
@[simp] theorem State.putGroup_gangs (s : State) (g : Group) : (s.putGroup g).gangs = s.gangs := rfl
@[simp] theorem State.putGroup_reports (s : State) (g : Group) : (s.putGroup g).reports = s.reports := rfl
@[simp] theorem State.putGroup_responses (s : State) (g : Group) : (s.putGroup g).responses = s.responses := rfl
@[simp] theorem State.putGroup_hearthEvents (s : State) (g : Group) : (s.putGroup g).hearthEvents = s.hearthEvents := rfl

@[simp] theorem State.putTeam_cur (s : State) (t : Team) : (s.putTeam t).cur = s.cur := rfl
@[simp] theorem State.putTeam_inputs (s : State) (t : Team) : (s.putTeam t).inputs = s.inputs := rfl
@[simp] theorem State.putTeam_draw (s : State) (t : Team) : (s.putTeam t).draw = s.draw := rfl
@[simp] theorem State.putTeam_nextId (s : State) (t : Team) : (s.putTeam t).nextId = s.nextId := rfl
@[simp] theorem State.putTeam_powered (s : State) (t : Team) : (s.putTeam t).powered = s.powered := rfl
@[simp] theorem State.putTeam_boot (s : State) (t : Team) : (s.putTeam t).boot = s.boot := rfl
@[simp] theorem State.putTeam_wall (s : State) (t : Team) : (s.putTeam t).wall = s.wall := rfl
@[simp] theorem State.putTeam_ppm (s : State) (t : Team) : (s.putTeam t).ppm = s.ppm := rfl
@[simp] theorem State.putTeam_ppmRest (s : State) (t : Team) : (s.putTeam t).ppmRest = s.ppmRest := rfl
@[simp] theorem State.putTeam_stepped (s : State) (t : Team) : (s.putTeam t).stepped = s.stepped := rfl
@[simp] theorem State.putTeam_mem (s : State) (t : Team) : (s.putTeam t).mem = s.mem := rfl
@[simp] theorem State.putTeam_past (s : State) (t : Team) : (s.putTeam t).past = s.past := rfl
@[simp] theorem State.putTeam_recent (s : State) (t : Team) : (s.putTeam t).recent = s.recent := rfl
@[simp] theorem State.putTeam_pageUses (s : State) (t : Team) : (s.putTeam t).pageUses = s.pageUses := rfl
@[simp] theorem State.putTeam_risers (s : State) (t : Team) : (s.putTeam t).risers = s.risers := rfl
@[simp] theorem State.putTeam_shots (s : State) (t : Team) : (s.putTeam t).shots = s.shots := rfl
@[simp] theorem State.putTeam_groups (s : State) (t : Team) : (s.putTeam t).groups = s.groups := rfl
@[simp] theorem State.putTeam_tasks (s : State) (t : Team) : (s.putTeam t).tasks = s.tasks := rfl
@[simp] theorem State.putTeam_contexts (s : State) (t : Team) : (s.putTeam t).contexts = s.contexts := rfl
@[simp] theorem State.putTeam_clusters (s : State) (t : Team) : (s.putTeam t).clusters = s.clusters := rfl
@[simp] theorem State.putTeam_savedOvens (s : State) (t : Team) : (s.putTeam t).savedOvens = s.savedOvens := rfl
@[simp] theorem State.putTeam_dies (s : State) (t : Team) : (s.putTeam t).dies = s.dies := rfl
@[simp] theorem State.putTeam_cores (s : State) (t : Team) : (s.putTeam t).cores = s.cores := rfl
@[simp] theorem State.putTeam_cmds (s : State) (t : Team) : (s.putTeam t).cmds = s.cmds := rfl
@[simp] theorem State.putTeam_stores (s : State) (t : Team) : (s.putTeam t).stores = s.stores := rfl
@[simp] theorem State.putTeam_deliveries (s : State) (t : Team) : (s.putTeam t).deliveries = s.deliveries := rfl
@[simp] theorem State.putTeam_reductions (s : State) (t : Team) : (s.putTeam t).reductions = s.reductions := rfl
@[simp] theorem State.putTeam_shootdowns (s : State) (t : Team) : (s.putTeam t).shootdowns = s.shootdowns := rfl
@[simp] theorem State.putTeam_promotions (s : State) (t : Team) : (s.putTeam t).promotions = s.promotions := rfl
@[simp] theorem State.putTeam_appends (s : State) (t : Team) : (s.putTeam t).appends = s.appends := rfl
@[simp] theorem State.putTeam_permits (s : State) (t : Team) : (s.putTeam t).permits = s.permits := rfl
@[simp] theorem State.putTeam_safety (s : State) (t : Team) : (s.putTeam t).safety = s.safety := rfl
@[simp] theorem State.putTeam_serr (s : State) (t : Team) : (s.putTeam t).serr = s.serr := rfl
@[simp] theorem State.putTeam_meas (s : State) (t : Team) : (s.putTeam t).meas = s.meas := rfl
@[simp] theorem State.putTeam_flash (s : State) (t : Team) : (s.putTeam t).flash = s.flash := rfl
@[simp] theorem State.putTeam_erased (s : State) (t : Team) : (s.putTeam t).erased = s.erased := rfl
@[simp] theorem State.putTeam_config (s : State) (t : Team) : (s.putTeam t).config = s.config := rfl
@[simp] theorem State.putTeam_leafNext (s : State) (t : Team) : (s.putTeam t).leafNext = s.leafNext := rfl
@[simp] theorem State.putTeam_leafEnd (s : State) (t : Team) : (s.putTeam t).leafEnd = s.leafEnd := rfl
@[simp] theorem State.putTeam_frames (s : State) (t : Team) : (s.putTeam t).frames = s.frames := rfl
@[simp] theorem State.putTeam_sct (s : State) (t : Team) : (s.putTeam t).sct = s.sct := rfl
@[simp] theorem State.putTeam_ports (s : State) (t : Team) : (s.putTeam t).ports = s.ports := rfl
@[simp] theorem State.putTeam_links (s : State) (t : Team) : (s.putTeam t).links = s.links := rfl
@[simp] theorem State.putTeam_drops (s : State) (t : Team) : (s.putTeam t).drops = s.drops := rfl
@[simp] theorem State.putTeam_connections (s : State) (t : Team) : (s.putTeam t).connections = s.connections := rfl
@[simp] theorem State.putTeam_replies (s : State) (t : Team) : (s.putTeam t).replies = s.replies := rfl
@[simp] theorem State.putTeam_launchWaits (s : State) (t : Team) : (s.putTeam t).launchWaits = s.launchWaits := rfl
@[simp] theorem State.putTeam_gangs (s : State) (t : Team) : (s.putTeam t).gangs = s.gangs := rfl
@[simp] theorem State.putTeam_reports (s : State) (t : Team) : (s.putTeam t).reports = s.reports := rfl
@[simp] theorem State.putTeam_responses (s : State) (t : Team) : (s.putTeam t).responses = s.responses := rfl
@[simp] theorem State.putTeam_hearthEvents (s : State) (t : Team) : (s.putTeam t).hearthEvents = s.hearthEvents := rfl

@[simp] theorem State.putTask_cur (s : State) (t : Task) : (s.putTask t).cur = s.cur := rfl
@[simp] theorem State.putTask_inputs (s : State) (t : Task) : (s.putTask t).inputs = s.inputs := rfl
@[simp] theorem State.putTask_draw (s : State) (t : Task) : (s.putTask t).draw = s.draw := rfl
@[simp] theorem State.putTask_nextId (s : State) (t : Task) : (s.putTask t).nextId = s.nextId := rfl
@[simp] theorem State.putTask_powered (s : State) (t : Task) : (s.putTask t).powered = s.powered := rfl
@[simp] theorem State.putTask_boot (s : State) (t : Task) : (s.putTask t).boot = s.boot := rfl
@[simp] theorem State.putTask_wall (s : State) (t : Task) : (s.putTask t).wall = s.wall := rfl
@[simp] theorem State.putTask_ppm (s : State) (t : Task) : (s.putTask t).ppm = s.ppm := rfl
@[simp] theorem State.putTask_ppmRest (s : State) (t : Task) : (s.putTask t).ppmRest = s.ppmRest := rfl
@[simp] theorem State.putTask_stepped (s : State) (t : Task) : (s.putTask t).stepped = s.stepped := rfl
@[simp] theorem State.putTask_mem (s : State) (t : Task) : (s.putTask t).mem = s.mem := rfl
@[simp] theorem State.putTask_past (s : State) (t : Task) : (s.putTask t).past = s.past := rfl
@[simp] theorem State.putTask_recent (s : State) (t : Task) : (s.putTask t).recent = s.recent := rfl
@[simp] theorem State.putTask_pageUses (s : State) (t : Task) : (s.putTask t).pageUses = s.pageUses := rfl
@[simp] theorem State.putTask_risers (s : State) (t : Task) : (s.putTask t).risers = s.risers := rfl
@[simp] theorem State.putTask_shots (s : State) (t : Task) : (s.putTask t).shots = s.shots := rfl
@[simp] theorem State.putTask_groups (s : State) (t : Task) : (s.putTask t).groups = s.groups := rfl
@[simp] theorem State.putTask_teams (s : State) (t : Task) : (s.putTask t).teams = s.teams := rfl
@[simp] theorem State.putTask_contexts (s : State) (t : Task) : (s.putTask t).contexts = s.contexts := rfl
@[simp] theorem State.putTask_clusters (s : State) (t : Task) : (s.putTask t).clusters = s.clusters := rfl
@[simp] theorem State.putTask_savedOvens (s : State) (t : Task) : (s.putTask t).savedOvens = s.savedOvens := rfl
@[simp] theorem State.putTask_dies (s : State) (t : Task) : (s.putTask t).dies = s.dies := rfl
@[simp] theorem State.putTask_cores (s : State) (t : Task) : (s.putTask t).cores = s.cores := rfl
@[simp] theorem State.putTask_cmds (s : State) (t : Task) : (s.putTask t).cmds = s.cmds := rfl
@[simp] theorem State.putTask_stores (s : State) (t : Task) : (s.putTask t).stores = s.stores := rfl
@[simp] theorem State.putTask_deliveries (s : State) (t : Task) : (s.putTask t).deliveries = s.deliveries := rfl
@[simp] theorem State.putTask_reductions (s : State) (t : Task) : (s.putTask t).reductions = s.reductions := rfl
@[simp] theorem State.putTask_shootdowns (s : State) (t : Task) : (s.putTask t).shootdowns = s.shootdowns := rfl
@[simp] theorem State.putTask_promotions (s : State) (t : Task) : (s.putTask t).promotions = s.promotions := rfl
@[simp] theorem State.putTask_appends (s : State) (t : Task) : (s.putTask t).appends = s.appends := rfl
@[simp] theorem State.putTask_permits (s : State) (t : Task) : (s.putTask t).permits = s.permits := rfl
@[simp] theorem State.putTask_safety (s : State) (t : Task) : (s.putTask t).safety = s.safety := rfl
@[simp] theorem State.putTask_serr (s : State) (t : Task) : (s.putTask t).serr = s.serr := rfl
@[simp] theorem State.putTask_meas (s : State) (t : Task) : (s.putTask t).meas = s.meas := rfl
@[simp] theorem State.putTask_flash (s : State) (t : Task) : (s.putTask t).flash = s.flash := rfl
@[simp] theorem State.putTask_erased (s : State) (t : Task) : (s.putTask t).erased = s.erased := rfl
@[simp] theorem State.putTask_config (s : State) (t : Task) : (s.putTask t).config = s.config := rfl
@[simp] theorem State.putTask_leafNext (s : State) (t : Task) : (s.putTask t).leafNext = s.leafNext := rfl
@[simp] theorem State.putTask_leafEnd (s : State) (t : Task) : (s.putTask t).leafEnd = s.leafEnd := rfl
@[simp] theorem State.putTask_frames (s : State) (t : Task) : (s.putTask t).frames = s.frames := rfl
@[simp] theorem State.putTask_sct (s : State) (t : Task) : (s.putTask t).sct = s.sct := rfl
@[simp] theorem State.putTask_ports (s : State) (t : Task) : (s.putTask t).ports = s.ports := rfl
@[simp] theorem State.putTask_links (s : State) (t : Task) : (s.putTask t).links = s.links := rfl
@[simp] theorem State.putTask_drops (s : State) (t : Task) : (s.putTask t).drops = s.drops := rfl
@[simp] theorem State.putTask_connections (s : State) (t : Task) : (s.putTask t).connections = s.connections := rfl
@[simp] theorem State.putTask_replies (s : State) (t : Task) : (s.putTask t).replies = s.replies := rfl
@[simp] theorem State.putTask_launchWaits (s : State) (t : Task) : (s.putTask t).launchWaits = s.launchWaits := rfl
@[simp] theorem State.putTask_gangs (s : State) (t : Task) : (s.putTask t).gangs = s.gangs := rfl
@[simp] theorem State.putTask_reports (s : State) (t : Task) : (s.putTask t).reports = s.reports := rfl
@[simp] theorem State.putTask_responses (s : State) (t : Task) : (s.putTask t).responses = s.responses := rfl
@[simp] theorem State.putTask_hearthEvents (s : State) (t : Task) : (s.putTask t).hearthEvents = s.hearthEvents := rfl

@[simp] theorem State.putContext_cur (s : State) (c : Context) : (s.putContext c).cur = s.cur := rfl
@[simp] theorem State.putContext_inputs (s : State) (c : Context) : (s.putContext c).inputs = s.inputs := rfl
@[simp] theorem State.putContext_draw (s : State) (c : Context) : (s.putContext c).draw = s.draw := rfl
@[simp] theorem State.putContext_nextId (s : State) (c : Context) : (s.putContext c).nextId = s.nextId := rfl
@[simp] theorem State.putContext_powered (s : State) (c : Context) : (s.putContext c).powered = s.powered := rfl
@[simp] theorem State.putContext_boot (s : State) (c : Context) : (s.putContext c).boot = s.boot := rfl
@[simp] theorem State.putContext_wall (s : State) (c : Context) : (s.putContext c).wall = s.wall := rfl
@[simp] theorem State.putContext_ppm (s : State) (c : Context) : (s.putContext c).ppm = s.ppm := rfl
@[simp] theorem State.putContext_ppmRest (s : State) (c : Context) : (s.putContext c).ppmRest = s.ppmRest := rfl
@[simp] theorem State.putContext_stepped (s : State) (c : Context) : (s.putContext c).stepped = s.stepped := rfl
@[simp] theorem State.putContext_mem (s : State) (c : Context) : (s.putContext c).mem = s.mem := rfl
@[simp] theorem State.putContext_past (s : State) (c : Context) : (s.putContext c).past = s.past := rfl
@[simp] theorem State.putContext_recent (s : State) (c : Context) : (s.putContext c).recent = s.recent := rfl
@[simp] theorem State.putContext_pageUses (s : State) (c : Context) : (s.putContext c).pageUses = s.pageUses := rfl
@[simp] theorem State.putContext_risers (s : State) (c : Context) : (s.putContext c).risers = s.risers := rfl
@[simp] theorem State.putContext_shots (s : State) (c : Context) : (s.putContext c).shots = s.shots := rfl
@[simp] theorem State.putContext_groups (s : State) (c : Context) : (s.putContext c).groups = s.groups := rfl
@[simp] theorem State.putContext_teams (s : State) (c : Context) : (s.putContext c).teams = s.teams := rfl
@[simp] theorem State.putContext_tasks (s : State) (c : Context) : (s.putContext c).tasks = s.tasks := rfl
@[simp] theorem State.putContext_clusters (s : State) (c : Context) : (s.putContext c).clusters = s.clusters := rfl
@[simp] theorem State.putContext_savedOvens (s : State) (c : Context) : (s.putContext c).savedOvens = s.savedOvens := rfl
@[simp] theorem State.putContext_dies (s : State) (c : Context) : (s.putContext c).dies = s.dies := rfl
@[simp] theorem State.putContext_cores (s : State) (c : Context) : (s.putContext c).cores = s.cores := rfl
@[simp] theorem State.putContext_cmds (s : State) (c : Context) : (s.putContext c).cmds = s.cmds := rfl
@[simp] theorem State.putContext_stores (s : State) (c : Context) : (s.putContext c).stores = s.stores := rfl
@[simp] theorem State.putContext_deliveries (s : State) (c : Context) : (s.putContext c).deliveries = s.deliveries := rfl
@[simp] theorem State.putContext_reductions (s : State) (c : Context) : (s.putContext c).reductions = s.reductions := rfl
@[simp] theorem State.putContext_shootdowns (s : State) (c : Context) : (s.putContext c).shootdowns = s.shootdowns := rfl
@[simp] theorem State.putContext_promotions (s : State) (c : Context) : (s.putContext c).promotions = s.promotions := rfl
@[simp] theorem State.putContext_appends (s : State) (c : Context) : (s.putContext c).appends = s.appends := rfl
@[simp] theorem State.putContext_permits (s : State) (c : Context) : (s.putContext c).permits = s.permits := rfl
@[simp] theorem State.putContext_safety (s : State) (c : Context) : (s.putContext c).safety = s.safety := rfl
@[simp] theorem State.putContext_serr (s : State) (c : Context) : (s.putContext c).serr = s.serr := rfl
@[simp] theorem State.putContext_meas (s : State) (c : Context) : (s.putContext c).meas = s.meas := rfl
@[simp] theorem State.putContext_flash (s : State) (c : Context) : (s.putContext c).flash = s.flash := rfl
@[simp] theorem State.putContext_erased (s : State) (c : Context) : (s.putContext c).erased = s.erased := rfl
@[simp] theorem State.putContext_config (s : State) (c : Context) : (s.putContext c).config = s.config := rfl
@[simp] theorem State.putContext_leafNext (s : State) (c : Context) : (s.putContext c).leafNext = s.leafNext := rfl
@[simp] theorem State.putContext_leafEnd (s : State) (c : Context) : (s.putContext c).leafEnd = s.leafEnd := rfl
@[simp] theorem State.putContext_frames (s : State) (c : Context) : (s.putContext c).frames = s.frames := rfl
@[simp] theorem State.putContext_sct (s : State) (c : Context) : (s.putContext c).sct = s.sct := rfl
@[simp] theorem State.putContext_ports (s : State) (c : Context) : (s.putContext c).ports = s.ports := rfl
@[simp] theorem State.putContext_links (s : State) (c : Context) : (s.putContext c).links = s.links := rfl
@[simp] theorem State.putContext_drops (s : State) (c : Context) : (s.putContext c).drops = s.drops := rfl
@[simp] theorem State.putContext_connections (s : State) (c : Context) : (s.putContext c).connections = s.connections := rfl
@[simp] theorem State.putContext_replies (s : State) (c : Context) : (s.putContext c).replies = s.replies := rfl
@[simp] theorem State.putContext_launchWaits (s : State) (c : Context) : (s.putContext c).launchWaits = s.launchWaits := rfl
@[simp] theorem State.putContext_gangs (s : State) (c : Context) : (s.putContext c).gangs = s.gangs := rfl
@[simp] theorem State.putContext_reports (s : State) (c : Context) : (s.putContext c).reports = s.reports := rfl
@[simp] theorem State.putContext_responses (s : State) (c : Context) : (s.putContext c).responses = s.responses := rfl
@[simp] theorem State.putContext_hearthEvents (s : State) (c : Context) : (s.putContext c).hearthEvents = s.hearthEvents := rfl

@[simp] theorem State.putCmd_cur (s : State) (c : Cmd) : (s.putCmd c).cur = s.cur := rfl
@[simp] theorem State.putCmd_inputs (s : State) (c : Cmd) : (s.putCmd c).inputs = s.inputs := rfl
@[simp] theorem State.putCmd_draw (s : State) (c : Cmd) : (s.putCmd c).draw = s.draw := rfl
@[simp] theorem State.putCmd_nextId (s : State) (c : Cmd) : (s.putCmd c).nextId = s.nextId := rfl
@[simp] theorem State.putCmd_powered (s : State) (c : Cmd) : (s.putCmd c).powered = s.powered := rfl
@[simp] theorem State.putCmd_boot (s : State) (c : Cmd) : (s.putCmd c).boot = s.boot := rfl
@[simp] theorem State.putCmd_wall (s : State) (c : Cmd) : (s.putCmd c).wall = s.wall := rfl
@[simp] theorem State.putCmd_ppm (s : State) (c : Cmd) : (s.putCmd c).ppm = s.ppm := rfl
@[simp] theorem State.putCmd_ppmRest (s : State) (c : Cmd) : (s.putCmd c).ppmRest = s.ppmRest := rfl
@[simp] theorem State.putCmd_stepped (s : State) (c : Cmd) : (s.putCmd c).stepped = s.stepped := rfl
@[simp] theorem State.putCmd_mem (s : State) (c : Cmd) : (s.putCmd c).mem = s.mem := rfl
@[simp] theorem State.putCmd_past (s : State) (c : Cmd) : (s.putCmd c).past = s.past := rfl
@[simp] theorem State.putCmd_recent (s : State) (c : Cmd) : (s.putCmd c).recent = s.recent := rfl
@[simp] theorem State.putCmd_pageUses (s : State) (c : Cmd) : (s.putCmd c).pageUses = s.pageUses := rfl
@[simp] theorem State.putCmd_risers (s : State) (c : Cmd) : (s.putCmd c).risers = s.risers := rfl
@[simp] theorem State.putCmd_shots (s : State) (c : Cmd) : (s.putCmd c).shots = s.shots := rfl
@[simp] theorem State.putCmd_groups (s : State) (c : Cmd) : (s.putCmd c).groups = s.groups := rfl
@[simp] theorem State.putCmd_teams (s : State) (c : Cmd) : (s.putCmd c).teams = s.teams := rfl
@[simp] theorem State.putCmd_tasks (s : State) (c : Cmd) : (s.putCmd c).tasks = s.tasks := rfl
@[simp] theorem State.putCmd_contexts (s : State) (c : Cmd) : (s.putCmd c).contexts = s.contexts := rfl
@[simp] theorem State.putCmd_clusters (s : State) (c : Cmd) : (s.putCmd c).clusters = s.clusters := rfl
@[simp] theorem State.putCmd_savedOvens (s : State) (c : Cmd) : (s.putCmd c).savedOvens = s.savedOvens := rfl
@[simp] theorem State.putCmd_dies (s : State) (c : Cmd) : (s.putCmd c).dies = s.dies := rfl
@[simp] theorem State.putCmd_cores (s : State) (c : Cmd) : (s.putCmd c).cores = s.cores := rfl
@[simp] theorem State.putCmd_stores (s : State) (c : Cmd) : (s.putCmd c).stores = s.stores := rfl
@[simp] theorem State.putCmd_deliveries (s : State) (c : Cmd) : (s.putCmd c).deliveries = s.deliveries := rfl
@[simp] theorem State.putCmd_reductions (s : State) (c : Cmd) : (s.putCmd c).reductions = s.reductions := rfl
@[simp] theorem State.putCmd_shootdowns (s : State) (c : Cmd) : (s.putCmd c).shootdowns = s.shootdowns := rfl
@[simp] theorem State.putCmd_promotions (s : State) (c : Cmd) : (s.putCmd c).promotions = s.promotions := rfl
@[simp] theorem State.putCmd_appends (s : State) (c : Cmd) : (s.putCmd c).appends = s.appends := rfl
@[simp] theorem State.putCmd_permits (s : State) (c : Cmd) : (s.putCmd c).permits = s.permits := rfl
@[simp] theorem State.putCmd_safety (s : State) (c : Cmd) : (s.putCmd c).safety = s.safety := rfl
@[simp] theorem State.putCmd_serr (s : State) (c : Cmd) : (s.putCmd c).serr = s.serr := rfl
@[simp] theorem State.putCmd_meas (s : State) (c : Cmd) : (s.putCmd c).meas = s.meas := rfl
@[simp] theorem State.putCmd_flash (s : State) (c : Cmd) : (s.putCmd c).flash = s.flash := rfl
@[simp] theorem State.putCmd_erased (s : State) (c : Cmd) : (s.putCmd c).erased = s.erased := rfl
@[simp] theorem State.putCmd_config (s : State) (c : Cmd) : (s.putCmd c).config = s.config := rfl
@[simp] theorem State.putCmd_leafNext (s : State) (c : Cmd) : (s.putCmd c).leafNext = s.leafNext := rfl
@[simp] theorem State.putCmd_leafEnd (s : State) (c : Cmd) : (s.putCmd c).leafEnd = s.leafEnd := rfl
@[simp] theorem State.putCmd_frames (s : State) (c : Cmd) : (s.putCmd c).frames = s.frames := rfl
@[simp] theorem State.putCmd_sct (s : State) (c : Cmd) : (s.putCmd c).sct = s.sct := rfl
@[simp] theorem State.putCmd_ports (s : State) (c : Cmd) : (s.putCmd c).ports = s.ports := rfl
@[simp] theorem State.putCmd_links (s : State) (c : Cmd) : (s.putCmd c).links = s.links := rfl
@[simp] theorem State.putCmd_drops (s : State) (c : Cmd) : (s.putCmd c).drops = s.drops := rfl
@[simp] theorem State.putCmd_connections (s : State) (c : Cmd) : (s.putCmd c).connections = s.connections := rfl
@[simp] theorem State.putCmd_replies (s : State) (c : Cmd) : (s.putCmd c).replies = s.replies := rfl
@[simp] theorem State.putCmd_launchWaits (s : State) (c : Cmd) : (s.putCmd c).launchWaits = s.launchWaits := rfl
@[simp] theorem State.putCmd_gangs (s : State) (c : Cmd) : (s.putCmd c).gangs = s.gangs := rfl
@[simp] theorem State.putCmd_reports (s : State) (c : Cmd) : (s.putCmd c).reports = s.reports := rfl
@[simp] theorem State.putCmd_responses (s : State) (c : Cmd) : (s.putCmd c).responses = s.responses := rfl
@[simp] theorem State.putCmd_hearthEvents (s : State) (c : Cmd) : (s.putCmd c).hearthEvents = s.hearthEvents := rfl

@[simp] theorem State.onGroup_cur (s : State) (id : Nat) (f : Group → Group) : (s.onGroup id f).cur = s.cur := rfl
@[simp] theorem State.onGroup_inputs (s : State) (id : Nat) (f : Group → Group) : (s.onGroup id f).inputs = s.inputs := rfl
@[simp] theorem State.onGroup_draw (s : State) (id : Nat) (f : Group → Group) : (s.onGroup id f).draw = s.draw := rfl
@[simp] theorem State.onGroup_nextId (s : State) (id : Nat) (f : Group → Group) : (s.onGroup id f).nextId = s.nextId := rfl
@[simp] theorem State.onGroup_powered (s : State) (id : Nat) (f : Group → Group) : (s.onGroup id f).powered = s.powered := rfl
@[simp] theorem State.onGroup_boot (s : State) (id : Nat) (f : Group → Group) : (s.onGroup id f).boot = s.boot := rfl
@[simp] theorem State.onGroup_wall (s : State) (id : Nat) (f : Group → Group) : (s.onGroup id f).wall = s.wall := rfl
@[simp] theorem State.onGroup_ppm (s : State) (id : Nat) (f : Group → Group) : (s.onGroup id f).ppm = s.ppm := rfl
@[simp] theorem State.onGroup_ppmRest (s : State) (id : Nat) (f : Group → Group) : (s.onGroup id f).ppmRest = s.ppmRest := rfl
@[simp] theorem State.onGroup_stepped (s : State) (id : Nat) (f : Group → Group) : (s.onGroup id f).stepped = s.stepped := rfl
@[simp] theorem State.onGroup_mem (s : State) (id : Nat) (f : Group → Group) : (s.onGroup id f).mem = s.mem := rfl
@[simp] theorem State.onGroup_past (s : State) (id : Nat) (f : Group → Group) : (s.onGroup id f).past = s.past := rfl
@[simp] theorem State.onGroup_recent (s : State) (id : Nat) (f : Group → Group) : (s.onGroup id f).recent = s.recent := rfl
@[simp] theorem State.onGroup_pageUses (s : State) (id : Nat) (f : Group → Group) : (s.onGroup id f).pageUses = s.pageUses := rfl
@[simp] theorem State.onGroup_risers (s : State) (id : Nat) (f : Group → Group) : (s.onGroup id f).risers = s.risers := rfl
@[simp] theorem State.onGroup_shots (s : State) (id : Nat) (f : Group → Group) : (s.onGroup id f).shots = s.shots := rfl
@[simp] theorem State.onGroup_teams (s : State) (id : Nat) (f : Group → Group) : (s.onGroup id f).teams = s.teams := rfl
@[simp] theorem State.onGroup_tasks (s : State) (id : Nat) (f : Group → Group) : (s.onGroup id f).tasks = s.tasks := rfl
@[simp] theorem State.onGroup_contexts (s : State) (id : Nat) (f : Group → Group) : (s.onGroup id f).contexts = s.contexts := rfl
@[simp] theorem State.onGroup_clusters (s : State) (id : Nat) (f : Group → Group) : (s.onGroup id f).clusters = s.clusters := rfl
@[simp] theorem State.onGroup_savedOvens (s : State) (id : Nat) (f : Group → Group) : (s.onGroup id f).savedOvens = s.savedOvens := rfl
@[simp] theorem State.onGroup_dies (s : State) (id : Nat) (f : Group → Group) : (s.onGroup id f).dies = s.dies := rfl
@[simp] theorem State.onGroup_cores (s : State) (id : Nat) (f : Group → Group) : (s.onGroup id f).cores = s.cores := rfl
@[simp] theorem State.onGroup_cmds (s : State) (id : Nat) (f : Group → Group) : (s.onGroup id f).cmds = s.cmds := rfl
@[simp] theorem State.onGroup_stores (s : State) (id : Nat) (f : Group → Group) : (s.onGroup id f).stores = s.stores := rfl
@[simp] theorem State.onGroup_deliveries (s : State) (id : Nat) (f : Group → Group) : (s.onGroup id f).deliveries = s.deliveries := rfl
@[simp] theorem State.onGroup_reductions (s : State) (id : Nat) (f : Group → Group) : (s.onGroup id f).reductions = s.reductions := rfl
@[simp] theorem State.onGroup_shootdowns (s : State) (id : Nat) (f : Group → Group) : (s.onGroup id f).shootdowns = s.shootdowns := rfl
@[simp] theorem State.onGroup_promotions (s : State) (id : Nat) (f : Group → Group) : (s.onGroup id f).promotions = s.promotions := rfl
@[simp] theorem State.onGroup_appends (s : State) (id : Nat) (f : Group → Group) : (s.onGroup id f).appends = s.appends := rfl
@[simp] theorem State.onGroup_permits (s : State) (id : Nat) (f : Group → Group) : (s.onGroup id f).permits = s.permits := rfl
@[simp] theorem State.onGroup_safety (s : State) (id : Nat) (f : Group → Group) : (s.onGroup id f).safety = s.safety := rfl
@[simp] theorem State.onGroup_serr (s : State) (id : Nat) (f : Group → Group) : (s.onGroup id f).serr = s.serr := rfl
@[simp] theorem State.onGroup_meas (s : State) (id : Nat) (f : Group → Group) : (s.onGroup id f).meas = s.meas := rfl
@[simp] theorem State.onGroup_flash (s : State) (id : Nat) (f : Group → Group) : (s.onGroup id f).flash = s.flash := rfl
@[simp] theorem State.onGroup_erased (s : State) (id : Nat) (f : Group → Group) : (s.onGroup id f).erased = s.erased := rfl
@[simp] theorem State.onGroup_config (s : State) (id : Nat) (f : Group → Group) : (s.onGroup id f).config = s.config := rfl
@[simp] theorem State.onGroup_leafNext (s : State) (id : Nat) (f : Group → Group) : (s.onGroup id f).leafNext = s.leafNext := rfl
@[simp] theorem State.onGroup_leafEnd (s : State) (id : Nat) (f : Group → Group) : (s.onGroup id f).leafEnd = s.leafEnd := rfl
@[simp] theorem State.onGroup_frames (s : State) (id : Nat) (f : Group → Group) : (s.onGroup id f).frames = s.frames := rfl
@[simp] theorem State.onGroup_sct (s : State) (id : Nat) (f : Group → Group) : (s.onGroup id f).sct = s.sct := rfl
@[simp] theorem State.onGroup_ports (s : State) (id : Nat) (f : Group → Group) : (s.onGroup id f).ports = s.ports := rfl
@[simp] theorem State.onGroup_links (s : State) (id : Nat) (f : Group → Group) : (s.onGroup id f).links = s.links := rfl
@[simp] theorem State.onGroup_drops (s : State) (id : Nat) (f : Group → Group) : (s.onGroup id f).drops = s.drops := rfl
@[simp] theorem State.onGroup_connections (s : State) (id : Nat) (f : Group → Group) : (s.onGroup id f).connections = s.connections := rfl
@[simp] theorem State.onGroup_replies (s : State) (id : Nat) (f : Group → Group) : (s.onGroup id f).replies = s.replies := rfl
@[simp] theorem State.onGroup_launchWaits (s : State) (id : Nat) (f : Group → Group) : (s.onGroup id f).launchWaits = s.launchWaits := rfl
@[simp] theorem State.onGroup_gangs (s : State) (id : Nat) (f : Group → Group) : (s.onGroup id f).gangs = s.gangs := rfl
@[simp] theorem State.onGroup_reports (s : State) (id : Nat) (f : Group → Group) : (s.onGroup id f).reports = s.reports := rfl
@[simp] theorem State.onGroup_responses (s : State) (id : Nat) (f : Group → Group) : (s.onGroup id f).responses = s.responses := rfl
@[simp] theorem State.onGroup_hearthEvents (s : State) (id : Nat) (f : Group → Group) : (s.onGroup id f).hearthEvents = s.hearthEvents := rfl

@[simp] theorem State.onTeam_cur (s : State) (id : Nat) (f : Team → Team) : (s.onTeam id f).cur = s.cur := rfl
@[simp] theorem State.onTeam_inputs (s : State) (id : Nat) (f : Team → Team) : (s.onTeam id f).inputs = s.inputs := rfl
@[simp] theorem State.onTeam_draw (s : State) (id : Nat) (f : Team → Team) : (s.onTeam id f).draw = s.draw := rfl
@[simp] theorem State.onTeam_nextId (s : State) (id : Nat) (f : Team → Team) : (s.onTeam id f).nextId = s.nextId := rfl
@[simp] theorem State.onTeam_powered (s : State) (id : Nat) (f : Team → Team) : (s.onTeam id f).powered = s.powered := rfl
@[simp] theorem State.onTeam_boot (s : State) (id : Nat) (f : Team → Team) : (s.onTeam id f).boot = s.boot := rfl
@[simp] theorem State.onTeam_wall (s : State) (id : Nat) (f : Team → Team) : (s.onTeam id f).wall = s.wall := rfl
@[simp] theorem State.onTeam_ppm (s : State) (id : Nat) (f : Team → Team) : (s.onTeam id f).ppm = s.ppm := rfl
@[simp] theorem State.onTeam_ppmRest (s : State) (id : Nat) (f : Team → Team) : (s.onTeam id f).ppmRest = s.ppmRest := rfl
@[simp] theorem State.onTeam_stepped (s : State) (id : Nat) (f : Team → Team) : (s.onTeam id f).stepped = s.stepped := rfl
@[simp] theorem State.onTeam_mem (s : State) (id : Nat) (f : Team → Team) : (s.onTeam id f).mem = s.mem := rfl
@[simp] theorem State.onTeam_past (s : State) (id : Nat) (f : Team → Team) : (s.onTeam id f).past = s.past := rfl
@[simp] theorem State.onTeam_recent (s : State) (id : Nat) (f : Team → Team) : (s.onTeam id f).recent = s.recent := rfl
@[simp] theorem State.onTeam_pageUses (s : State) (id : Nat) (f : Team → Team) : (s.onTeam id f).pageUses = s.pageUses := rfl
@[simp] theorem State.onTeam_risers (s : State) (id : Nat) (f : Team → Team) : (s.onTeam id f).risers = s.risers := rfl
@[simp] theorem State.onTeam_shots (s : State) (id : Nat) (f : Team → Team) : (s.onTeam id f).shots = s.shots := rfl
@[simp] theorem State.onTeam_groups (s : State) (id : Nat) (f : Team → Team) : (s.onTeam id f).groups = s.groups := rfl
@[simp] theorem State.onTeam_tasks (s : State) (id : Nat) (f : Team → Team) : (s.onTeam id f).tasks = s.tasks := rfl
@[simp] theorem State.onTeam_contexts (s : State) (id : Nat) (f : Team → Team) : (s.onTeam id f).contexts = s.contexts := rfl
@[simp] theorem State.onTeam_clusters (s : State) (id : Nat) (f : Team → Team) : (s.onTeam id f).clusters = s.clusters := rfl
@[simp] theorem State.onTeam_savedOvens (s : State) (id : Nat) (f : Team → Team) : (s.onTeam id f).savedOvens = s.savedOvens := rfl
@[simp] theorem State.onTeam_dies (s : State) (id : Nat) (f : Team → Team) : (s.onTeam id f).dies = s.dies := rfl
@[simp] theorem State.onTeam_cores (s : State) (id : Nat) (f : Team → Team) : (s.onTeam id f).cores = s.cores := rfl
@[simp] theorem State.onTeam_cmds (s : State) (id : Nat) (f : Team → Team) : (s.onTeam id f).cmds = s.cmds := rfl
@[simp] theorem State.onTeam_stores (s : State) (id : Nat) (f : Team → Team) : (s.onTeam id f).stores = s.stores := rfl
@[simp] theorem State.onTeam_deliveries (s : State) (id : Nat) (f : Team → Team) : (s.onTeam id f).deliveries = s.deliveries := rfl
@[simp] theorem State.onTeam_reductions (s : State) (id : Nat) (f : Team → Team) : (s.onTeam id f).reductions = s.reductions := rfl
@[simp] theorem State.onTeam_shootdowns (s : State) (id : Nat) (f : Team → Team) : (s.onTeam id f).shootdowns = s.shootdowns := rfl
@[simp] theorem State.onTeam_promotions (s : State) (id : Nat) (f : Team → Team) : (s.onTeam id f).promotions = s.promotions := rfl
@[simp] theorem State.onTeam_appends (s : State) (id : Nat) (f : Team → Team) : (s.onTeam id f).appends = s.appends := rfl
@[simp] theorem State.onTeam_permits (s : State) (id : Nat) (f : Team → Team) : (s.onTeam id f).permits = s.permits := rfl
@[simp] theorem State.onTeam_safety (s : State) (id : Nat) (f : Team → Team) : (s.onTeam id f).safety = s.safety := rfl
@[simp] theorem State.onTeam_serr (s : State) (id : Nat) (f : Team → Team) : (s.onTeam id f).serr = s.serr := rfl
@[simp] theorem State.onTeam_meas (s : State) (id : Nat) (f : Team → Team) : (s.onTeam id f).meas = s.meas := rfl
@[simp] theorem State.onTeam_flash (s : State) (id : Nat) (f : Team → Team) : (s.onTeam id f).flash = s.flash := rfl
@[simp] theorem State.onTeam_erased (s : State) (id : Nat) (f : Team → Team) : (s.onTeam id f).erased = s.erased := rfl
@[simp] theorem State.onTeam_config (s : State) (id : Nat) (f : Team → Team) : (s.onTeam id f).config = s.config := rfl
@[simp] theorem State.onTeam_leafNext (s : State) (id : Nat) (f : Team → Team) : (s.onTeam id f).leafNext = s.leafNext := rfl
@[simp] theorem State.onTeam_leafEnd (s : State) (id : Nat) (f : Team → Team) : (s.onTeam id f).leafEnd = s.leafEnd := rfl
@[simp] theorem State.onTeam_frames (s : State) (id : Nat) (f : Team → Team) : (s.onTeam id f).frames = s.frames := rfl
@[simp] theorem State.onTeam_sct (s : State) (id : Nat) (f : Team → Team) : (s.onTeam id f).sct = s.sct := rfl
@[simp] theorem State.onTeam_ports (s : State) (id : Nat) (f : Team → Team) : (s.onTeam id f).ports = s.ports := rfl
@[simp] theorem State.onTeam_links (s : State) (id : Nat) (f : Team → Team) : (s.onTeam id f).links = s.links := rfl
@[simp] theorem State.onTeam_drops (s : State) (id : Nat) (f : Team → Team) : (s.onTeam id f).drops = s.drops := rfl
@[simp] theorem State.onTeam_connections (s : State) (id : Nat) (f : Team → Team) : (s.onTeam id f).connections = s.connections := rfl
@[simp] theorem State.onTeam_replies (s : State) (id : Nat) (f : Team → Team) : (s.onTeam id f).replies = s.replies := rfl
@[simp] theorem State.onTeam_launchWaits (s : State) (id : Nat) (f : Team → Team) : (s.onTeam id f).launchWaits = s.launchWaits := rfl
@[simp] theorem State.onTeam_gangs (s : State) (id : Nat) (f : Team → Team) : (s.onTeam id f).gangs = s.gangs := rfl
@[simp] theorem State.onTeam_reports (s : State) (id : Nat) (f : Team → Team) : (s.onTeam id f).reports = s.reports := rfl
@[simp] theorem State.onTeam_responses (s : State) (id : Nat) (f : Team → Team) : (s.onTeam id f).responses = s.responses := rfl
@[simp] theorem State.onTeam_hearthEvents (s : State) (id : Nat) (f : Team → Team) : (s.onTeam id f).hearthEvents = s.hearthEvents := rfl

@[simp] theorem State.onContext_cur (s : State) (num : Nat) (f : Context → Context) : (s.onContext num f).cur = s.cur := rfl
@[simp] theorem State.onContext_inputs (s : State) (num : Nat) (f : Context → Context) : (s.onContext num f).inputs = s.inputs := rfl
@[simp] theorem State.onContext_draw (s : State) (num : Nat) (f : Context → Context) : (s.onContext num f).draw = s.draw := rfl
@[simp] theorem State.onContext_nextId (s : State) (num : Nat) (f : Context → Context) : (s.onContext num f).nextId = s.nextId := rfl
@[simp] theorem State.onContext_powered (s : State) (num : Nat) (f : Context → Context) : (s.onContext num f).powered = s.powered := rfl
@[simp] theorem State.onContext_boot (s : State) (num : Nat) (f : Context → Context) : (s.onContext num f).boot = s.boot := rfl
@[simp] theorem State.onContext_wall (s : State) (num : Nat) (f : Context → Context) : (s.onContext num f).wall = s.wall := rfl
@[simp] theorem State.onContext_ppm (s : State) (num : Nat) (f : Context → Context) : (s.onContext num f).ppm = s.ppm := rfl
@[simp] theorem State.onContext_ppmRest (s : State) (num : Nat) (f : Context → Context) : (s.onContext num f).ppmRest = s.ppmRest := rfl
@[simp] theorem State.onContext_stepped (s : State) (num : Nat) (f : Context → Context) : (s.onContext num f).stepped = s.stepped := rfl
@[simp] theorem State.onContext_mem (s : State) (num : Nat) (f : Context → Context) : (s.onContext num f).mem = s.mem := rfl
@[simp] theorem State.onContext_past (s : State) (num : Nat) (f : Context → Context) : (s.onContext num f).past = s.past := rfl
@[simp] theorem State.onContext_recent (s : State) (num : Nat) (f : Context → Context) : (s.onContext num f).recent = s.recent := rfl
@[simp] theorem State.onContext_pageUses (s : State) (num : Nat) (f : Context → Context) : (s.onContext num f).pageUses = s.pageUses := rfl
@[simp] theorem State.onContext_risers (s : State) (num : Nat) (f : Context → Context) : (s.onContext num f).risers = s.risers := rfl
@[simp] theorem State.onContext_shots (s : State) (num : Nat) (f : Context → Context) : (s.onContext num f).shots = s.shots := rfl
@[simp] theorem State.onContext_groups (s : State) (num : Nat) (f : Context → Context) : (s.onContext num f).groups = s.groups := rfl
@[simp] theorem State.onContext_teams (s : State) (num : Nat) (f : Context → Context) : (s.onContext num f).teams = s.teams := rfl
@[simp] theorem State.onContext_tasks (s : State) (num : Nat) (f : Context → Context) : (s.onContext num f).tasks = s.tasks := rfl
@[simp] theorem State.onContext_clusters (s : State) (num : Nat) (f : Context → Context) : (s.onContext num f).clusters = s.clusters := rfl
@[simp] theorem State.onContext_savedOvens (s : State) (num : Nat) (f : Context → Context) : (s.onContext num f).savedOvens = s.savedOvens := rfl
@[simp] theorem State.onContext_dies (s : State) (num : Nat) (f : Context → Context) : (s.onContext num f).dies = s.dies := rfl
@[simp] theorem State.onContext_cores (s : State) (num : Nat) (f : Context → Context) : (s.onContext num f).cores = s.cores := rfl
@[simp] theorem State.onContext_cmds (s : State) (num : Nat) (f : Context → Context) : (s.onContext num f).cmds = s.cmds := rfl
@[simp] theorem State.onContext_stores (s : State) (num : Nat) (f : Context → Context) : (s.onContext num f).stores = s.stores := rfl
@[simp] theorem State.onContext_deliveries (s : State) (num : Nat) (f : Context → Context) : (s.onContext num f).deliveries = s.deliveries := rfl
@[simp] theorem State.onContext_reductions (s : State) (num : Nat) (f : Context → Context) : (s.onContext num f).reductions = s.reductions := rfl
@[simp] theorem State.onContext_shootdowns (s : State) (num : Nat) (f : Context → Context) : (s.onContext num f).shootdowns = s.shootdowns := rfl
@[simp] theorem State.onContext_promotions (s : State) (num : Nat) (f : Context → Context) : (s.onContext num f).promotions = s.promotions := rfl
@[simp] theorem State.onContext_appends (s : State) (num : Nat) (f : Context → Context) : (s.onContext num f).appends = s.appends := rfl
@[simp] theorem State.onContext_permits (s : State) (num : Nat) (f : Context → Context) : (s.onContext num f).permits = s.permits := rfl
@[simp] theorem State.onContext_safety (s : State) (num : Nat) (f : Context → Context) : (s.onContext num f).safety = s.safety := rfl
@[simp] theorem State.onContext_serr (s : State) (num : Nat) (f : Context → Context) : (s.onContext num f).serr = s.serr := rfl
@[simp] theorem State.onContext_meas (s : State) (num : Nat) (f : Context → Context) : (s.onContext num f).meas = s.meas := rfl
@[simp] theorem State.onContext_flash (s : State) (num : Nat) (f : Context → Context) : (s.onContext num f).flash = s.flash := rfl
@[simp] theorem State.onContext_erased (s : State) (num : Nat) (f : Context → Context) : (s.onContext num f).erased = s.erased := rfl
@[simp] theorem State.onContext_config (s : State) (num : Nat) (f : Context → Context) : (s.onContext num f).config = s.config := rfl
@[simp] theorem State.onContext_leafNext (s : State) (num : Nat) (f : Context → Context) : (s.onContext num f).leafNext = s.leafNext := rfl
@[simp] theorem State.onContext_leafEnd (s : State) (num : Nat) (f : Context → Context) : (s.onContext num f).leafEnd = s.leafEnd := rfl
@[simp] theorem State.onContext_frames (s : State) (num : Nat) (f : Context → Context) : (s.onContext num f).frames = s.frames := rfl
@[simp] theorem State.onContext_sct (s : State) (num : Nat) (f : Context → Context) : (s.onContext num f).sct = s.sct := rfl
@[simp] theorem State.onContext_ports (s : State) (num : Nat) (f : Context → Context) : (s.onContext num f).ports = s.ports := rfl
@[simp] theorem State.onContext_links (s : State) (num : Nat) (f : Context → Context) : (s.onContext num f).links = s.links := rfl
@[simp] theorem State.onContext_drops (s : State) (num : Nat) (f : Context → Context) : (s.onContext num f).drops = s.drops := rfl
@[simp] theorem State.onContext_connections (s : State) (num : Nat) (f : Context → Context) : (s.onContext num f).connections = s.connections := rfl
@[simp] theorem State.onContext_replies (s : State) (num : Nat) (f : Context → Context) : (s.onContext num f).replies = s.replies := rfl
@[simp] theorem State.onContext_launchWaits (s : State) (num : Nat) (f : Context → Context) : (s.onContext num f).launchWaits = s.launchWaits := rfl
@[simp] theorem State.onContext_gangs (s : State) (num : Nat) (f : Context → Context) : (s.onContext num f).gangs = s.gangs := rfl
@[simp] theorem State.onContext_reports (s : State) (num : Nat) (f : Context → Context) : (s.onContext num f).reports = s.reports := rfl
@[simp] theorem State.onContext_responses (s : State) (num : Nat) (f : Context → Context) : (s.onContext num f).responses = s.responses := rfl
@[simp] theorem State.onContext_hearthEvents (s : State) (num : Nat) (f : Context → Context) : (s.onContext num f).hearthEvents = s.hearthEvents := rfl

@[simp] theorem State.onCmd_cur (s : State) (id : Nat) (f : Cmd → Cmd) : (s.onCmd id f).cur = s.cur := rfl
@[simp] theorem State.onCmd_inputs (s : State) (id : Nat) (f : Cmd → Cmd) : (s.onCmd id f).inputs = s.inputs := rfl
@[simp] theorem State.onCmd_draw (s : State) (id : Nat) (f : Cmd → Cmd) : (s.onCmd id f).draw = s.draw := rfl
@[simp] theorem State.onCmd_nextId (s : State) (id : Nat) (f : Cmd → Cmd) : (s.onCmd id f).nextId = s.nextId := rfl
@[simp] theorem State.onCmd_powered (s : State) (id : Nat) (f : Cmd → Cmd) : (s.onCmd id f).powered = s.powered := rfl
@[simp] theorem State.onCmd_boot (s : State) (id : Nat) (f : Cmd → Cmd) : (s.onCmd id f).boot = s.boot := rfl
@[simp] theorem State.onCmd_wall (s : State) (id : Nat) (f : Cmd → Cmd) : (s.onCmd id f).wall = s.wall := rfl
@[simp] theorem State.onCmd_ppm (s : State) (id : Nat) (f : Cmd → Cmd) : (s.onCmd id f).ppm = s.ppm := rfl
@[simp] theorem State.onCmd_ppmRest (s : State) (id : Nat) (f : Cmd → Cmd) : (s.onCmd id f).ppmRest = s.ppmRest := rfl
@[simp] theorem State.onCmd_stepped (s : State) (id : Nat) (f : Cmd → Cmd) : (s.onCmd id f).stepped = s.stepped := rfl
@[simp] theorem State.onCmd_mem (s : State) (id : Nat) (f : Cmd → Cmd) : (s.onCmd id f).mem = s.mem := rfl
@[simp] theorem State.onCmd_past (s : State) (id : Nat) (f : Cmd → Cmd) : (s.onCmd id f).past = s.past := rfl
@[simp] theorem State.onCmd_recent (s : State) (id : Nat) (f : Cmd → Cmd) : (s.onCmd id f).recent = s.recent := rfl
@[simp] theorem State.onCmd_pageUses (s : State) (id : Nat) (f : Cmd → Cmd) : (s.onCmd id f).pageUses = s.pageUses := rfl
@[simp] theorem State.onCmd_risers (s : State) (id : Nat) (f : Cmd → Cmd) : (s.onCmd id f).risers = s.risers := rfl
@[simp] theorem State.onCmd_shots (s : State) (id : Nat) (f : Cmd → Cmd) : (s.onCmd id f).shots = s.shots := rfl
@[simp] theorem State.onCmd_groups (s : State) (id : Nat) (f : Cmd → Cmd) : (s.onCmd id f).groups = s.groups := rfl
@[simp] theorem State.onCmd_teams (s : State) (id : Nat) (f : Cmd → Cmd) : (s.onCmd id f).teams = s.teams := rfl
@[simp] theorem State.onCmd_tasks (s : State) (id : Nat) (f : Cmd → Cmd) : (s.onCmd id f).tasks = s.tasks := rfl
@[simp] theorem State.onCmd_contexts (s : State) (id : Nat) (f : Cmd → Cmd) : (s.onCmd id f).contexts = s.contexts := rfl
@[simp] theorem State.onCmd_clusters (s : State) (id : Nat) (f : Cmd → Cmd) : (s.onCmd id f).clusters = s.clusters := rfl
@[simp] theorem State.onCmd_savedOvens (s : State) (id : Nat) (f : Cmd → Cmd) : (s.onCmd id f).savedOvens = s.savedOvens := rfl
@[simp] theorem State.onCmd_dies (s : State) (id : Nat) (f : Cmd → Cmd) : (s.onCmd id f).dies = s.dies := rfl
@[simp] theorem State.onCmd_cores (s : State) (id : Nat) (f : Cmd → Cmd) : (s.onCmd id f).cores = s.cores := rfl
@[simp] theorem State.onCmd_stores (s : State) (id : Nat) (f : Cmd → Cmd) : (s.onCmd id f).stores = s.stores := rfl
@[simp] theorem State.onCmd_deliveries (s : State) (id : Nat) (f : Cmd → Cmd) : (s.onCmd id f).deliveries = s.deliveries := rfl
@[simp] theorem State.onCmd_reductions (s : State) (id : Nat) (f : Cmd → Cmd) : (s.onCmd id f).reductions = s.reductions := rfl
@[simp] theorem State.onCmd_shootdowns (s : State) (id : Nat) (f : Cmd → Cmd) : (s.onCmd id f).shootdowns = s.shootdowns := rfl
@[simp] theorem State.onCmd_promotions (s : State) (id : Nat) (f : Cmd → Cmd) : (s.onCmd id f).promotions = s.promotions := rfl
@[simp] theorem State.onCmd_appends (s : State) (id : Nat) (f : Cmd → Cmd) : (s.onCmd id f).appends = s.appends := rfl
@[simp] theorem State.onCmd_permits (s : State) (id : Nat) (f : Cmd → Cmd) : (s.onCmd id f).permits = s.permits := rfl
@[simp] theorem State.onCmd_safety (s : State) (id : Nat) (f : Cmd → Cmd) : (s.onCmd id f).safety = s.safety := rfl
@[simp] theorem State.onCmd_serr (s : State) (id : Nat) (f : Cmd → Cmd) : (s.onCmd id f).serr = s.serr := rfl
@[simp] theorem State.onCmd_meas (s : State) (id : Nat) (f : Cmd → Cmd) : (s.onCmd id f).meas = s.meas := rfl
@[simp] theorem State.onCmd_flash (s : State) (id : Nat) (f : Cmd → Cmd) : (s.onCmd id f).flash = s.flash := rfl
@[simp] theorem State.onCmd_erased (s : State) (id : Nat) (f : Cmd → Cmd) : (s.onCmd id f).erased = s.erased := rfl
@[simp] theorem State.onCmd_config (s : State) (id : Nat) (f : Cmd → Cmd) : (s.onCmd id f).config = s.config := rfl
@[simp] theorem State.onCmd_leafNext (s : State) (id : Nat) (f : Cmd → Cmd) : (s.onCmd id f).leafNext = s.leafNext := rfl
@[simp] theorem State.onCmd_leafEnd (s : State) (id : Nat) (f : Cmd → Cmd) : (s.onCmd id f).leafEnd = s.leafEnd := rfl
@[simp] theorem State.onCmd_frames (s : State) (id : Nat) (f : Cmd → Cmd) : (s.onCmd id f).frames = s.frames := rfl
@[simp] theorem State.onCmd_sct (s : State) (id : Nat) (f : Cmd → Cmd) : (s.onCmd id f).sct = s.sct := rfl
@[simp] theorem State.onCmd_ports (s : State) (id : Nat) (f : Cmd → Cmd) : (s.onCmd id f).ports = s.ports := rfl
@[simp] theorem State.onCmd_links (s : State) (id : Nat) (f : Cmd → Cmd) : (s.onCmd id f).links = s.links := rfl
@[simp] theorem State.onCmd_drops (s : State) (id : Nat) (f : Cmd → Cmd) : (s.onCmd id f).drops = s.drops := rfl
@[simp] theorem State.onCmd_connections (s : State) (id : Nat) (f : Cmd → Cmd) : (s.onCmd id f).connections = s.connections := rfl
@[simp] theorem State.onCmd_replies (s : State) (id : Nat) (f : Cmd → Cmd) : (s.onCmd id f).replies = s.replies := rfl
@[simp] theorem State.onCmd_launchWaits (s : State) (id : Nat) (f : Cmd → Cmd) : (s.onCmd id f).launchWaits = s.launchWaits := rfl
@[simp] theorem State.onCmd_gangs (s : State) (id : Nat) (f : Cmd → Cmd) : (s.onCmd id f).gangs = s.gangs := rfl
@[simp] theorem State.onCmd_reports (s : State) (id : Nat) (f : Cmd → Cmd) : (s.onCmd id f).reports = s.reports := rfl
@[simp] theorem State.onCmd_responses (s : State) (id : Nat) (f : Cmd → Cmd) : (s.onCmd id f).responses = s.responses := rfl
@[simp] theorem State.onCmd_hearthEvents (s : State) (id : Nat) (f : Cmd → Cmd) : (s.onCmd id f).hearthEvents = s.hearthEvents := rfl

@[simp] theorem State.onGroup_groups (s : State) (id : Nat) (f : Group → Group) :
    (s.onGroup id f).groups = updateWhere (·.id == id) f s.groups := rfl
@[simp] theorem State.onTeam_teams (s : State) (id : Nat) (f : Team → Team) :
    (s.onTeam id f).teams = updateWhere (·.id == id) f s.teams := rfl
@[simp] theorem State.onContext_contexts (s : State) (num : Nat) (f : Context → Context) :
    (s.onContext num f).contexts = updateWhere (·.num == num) f s.contexts := rfl
@[simp] theorem State.onCmd_cmds (s : State) (id : Nat) (f : Cmd → Cmd) :
    (s.onCmd id f).cmds = updateWhere (·.id == id) f s.cmds := rfl
theorem State.putGroup_eq (s : State) (g : Group) : s.putGroup g = s.onGroup g.id fun _ => g := rfl
theorem State.putTeam_eq (s : State) (t : Team) : s.putTeam t = s.onTeam t.id fun _ => t := rfl

theorem State.putCore_eq (s : State) (c : Core) : s.putCore c = { s with cores := (s.putCore c).cores } := by
  unfold State.putCore
  split <;> rfl

@[simp] theorem State.putCore_cur (s : State) (c : Core) : (s.putCore c).cur = s.cur := by rw [State.putCore_eq]
@[simp] theorem State.putCore_inputs (s : State) (c : Core) : (s.putCore c).inputs = s.inputs := by rw [State.putCore_eq]
@[simp] theorem State.putCore_draw (s : State) (c : Core) : (s.putCore c).draw = s.draw := by rw [State.putCore_eq]
@[simp] theorem State.putCore_nextId (s : State) (c : Core) : (s.putCore c).nextId = s.nextId := by rw [State.putCore_eq]
@[simp] theorem State.putCore_powered (s : State) (c : Core) : (s.putCore c).powered = s.powered := by rw [State.putCore_eq]
@[simp] theorem State.putCore_boot (s : State) (c : Core) : (s.putCore c).boot = s.boot := by rw [State.putCore_eq]
@[simp] theorem State.putCore_wall (s : State) (c : Core) : (s.putCore c).wall = s.wall := by rw [State.putCore_eq]
@[simp] theorem State.putCore_ppm (s : State) (c : Core) : (s.putCore c).ppm = s.ppm := by rw [State.putCore_eq]
@[simp] theorem State.putCore_ppmRest (s : State) (c : Core) : (s.putCore c).ppmRest = s.ppmRest := by rw [State.putCore_eq]
@[simp] theorem State.putCore_stepped (s : State) (c : Core) : (s.putCore c).stepped = s.stepped := by rw [State.putCore_eq]
@[simp] theorem State.putCore_mem (s : State) (c : Core) : (s.putCore c).mem = s.mem := by rw [State.putCore_eq]
@[simp] theorem State.putCore_past (s : State) (c : Core) : (s.putCore c).past = s.past := by rw [State.putCore_eq]
@[simp] theorem State.putCore_recent (s : State) (c : Core) : (s.putCore c).recent = s.recent := by rw [State.putCore_eq]
@[simp] theorem State.putCore_pageUses (s : State) (c : Core) : (s.putCore c).pageUses = s.pageUses := by rw [State.putCore_eq]
@[simp] theorem State.putCore_risers (s : State) (c : Core) : (s.putCore c).risers = s.risers := by rw [State.putCore_eq]
@[simp] theorem State.putCore_shots (s : State) (c : Core) : (s.putCore c).shots = s.shots := by rw [State.putCore_eq]
@[simp] theorem State.putCore_groups (s : State) (c : Core) : (s.putCore c).groups = s.groups := by rw [State.putCore_eq]
@[simp] theorem State.putCore_teams (s : State) (c : Core) : (s.putCore c).teams = s.teams := by rw [State.putCore_eq]
@[simp] theorem State.putCore_tasks (s : State) (c : Core) : (s.putCore c).tasks = s.tasks := by rw [State.putCore_eq]
@[simp] theorem State.putCore_contexts (s : State) (c : Core) : (s.putCore c).contexts = s.contexts := by rw [State.putCore_eq]
@[simp] theorem State.putCore_clusters (s : State) (c : Core) : (s.putCore c).clusters = s.clusters := by rw [State.putCore_eq]
@[simp] theorem State.putCore_savedOvens (s : State) (c : Core) : (s.putCore c).savedOvens = s.savedOvens := by rw [State.putCore_eq]
@[simp] theorem State.putCore_dies (s : State) (c : Core) : (s.putCore c).dies = s.dies := by rw [State.putCore_eq]
@[simp] theorem State.putCore_cmds (s : State) (c : Core) : (s.putCore c).cmds = s.cmds := by rw [State.putCore_eq]
@[simp] theorem State.putCore_stores (s : State) (c : Core) : (s.putCore c).stores = s.stores := by rw [State.putCore_eq]
@[simp] theorem State.putCore_deliveries (s : State) (c : Core) : (s.putCore c).deliveries = s.deliveries := by rw [State.putCore_eq]
@[simp] theorem State.putCore_reductions (s : State) (c : Core) : (s.putCore c).reductions = s.reductions := by rw [State.putCore_eq]
@[simp] theorem State.putCore_shootdowns (s : State) (c : Core) : (s.putCore c).shootdowns = s.shootdowns := by rw [State.putCore_eq]
@[simp] theorem State.putCore_promotions (s : State) (c : Core) : (s.putCore c).promotions = s.promotions := by rw [State.putCore_eq]
@[simp] theorem State.putCore_appends (s : State) (c : Core) : (s.putCore c).appends = s.appends := by rw [State.putCore_eq]
@[simp] theorem State.putCore_permits (s : State) (c : Core) : (s.putCore c).permits = s.permits := by rw [State.putCore_eq]
@[simp] theorem State.putCore_safety (s : State) (c : Core) : (s.putCore c).safety = s.safety := by rw [State.putCore_eq]
@[simp] theorem State.putCore_serr (s : State) (c : Core) : (s.putCore c).serr = s.serr := by rw [State.putCore_eq]
@[simp] theorem State.putCore_meas (s : State) (c : Core) : (s.putCore c).meas = s.meas := by rw [State.putCore_eq]
@[simp] theorem State.putCore_flash (s : State) (c : Core) : (s.putCore c).flash = s.flash := by rw [State.putCore_eq]
@[simp] theorem State.putCore_erased (s : State) (c : Core) : (s.putCore c).erased = s.erased := by rw [State.putCore_eq]
@[simp] theorem State.putCore_config (s : State) (c : Core) : (s.putCore c).config = s.config := by rw [State.putCore_eq]
@[simp] theorem State.putCore_leafNext (s : State) (c : Core) : (s.putCore c).leafNext = s.leafNext := by rw [State.putCore_eq]
@[simp] theorem State.putCore_leafEnd (s : State) (c : Core) : (s.putCore c).leafEnd = s.leafEnd := by rw [State.putCore_eq]
@[simp] theorem State.putCore_frames (s : State) (c : Core) : (s.putCore c).frames = s.frames := by rw [State.putCore_eq]
@[simp] theorem State.putCore_sct (s : State) (c : Core) : (s.putCore c).sct = s.sct := by rw [State.putCore_eq]
@[simp] theorem State.putCore_ports (s : State) (c : Core) : (s.putCore c).ports = s.ports := by rw [State.putCore_eq]
@[simp] theorem State.putCore_links (s : State) (c : Core) : (s.putCore c).links = s.links := by rw [State.putCore_eq]
@[simp] theorem State.putCore_drops (s : State) (c : Core) : (s.putCore c).drops = s.drops := by rw [State.putCore_eq]
@[simp] theorem State.putCore_connections (s : State) (c : Core) : (s.putCore c).connections = s.connections := by rw [State.putCore_eq]
@[simp] theorem State.putCore_replies (s : State) (c : Core) : (s.putCore c).replies = s.replies := by rw [State.putCore_eq]
@[simp] theorem State.putCore_launchWaits (s : State) (c : Core) : (s.putCore c).launchWaits = s.launchWaits := by rw [State.putCore_eq]
@[simp] theorem State.putCore_gangs (s : State) (c : Core) : (s.putCore c).gangs = s.gangs := by rw [State.putCore_eq]
@[simp] theorem State.putCore_reports (s : State) (c : Core) : (s.putCore c).reports = s.reports := by rw [State.putCore_eq]
@[simp] theorem State.putCore_responses (s : State) (c : Core) : (s.putCore c).responses = s.responses := by rw [State.putCore_eq]
@[simp] theorem State.putCore_hearthEvents (s : State) (c : Core) : (s.putCore c).hearthEvents = s.hearthEvents := by rw [State.putCore_eq]

theorem State.putDie_eq (s : State) (d : Die) : s.putDie d = { s with dies := (s.putDie d).dies } := by
  unfold State.putDie
  split <;> rfl

@[simp] theorem State.putDie_cur (s : State) (d : Die) : (s.putDie d).cur = s.cur := by rw [State.putDie_eq]
@[simp] theorem State.putDie_inputs (s : State) (d : Die) : (s.putDie d).inputs = s.inputs := by rw [State.putDie_eq]
@[simp] theorem State.putDie_draw (s : State) (d : Die) : (s.putDie d).draw = s.draw := by rw [State.putDie_eq]
@[simp] theorem State.putDie_nextId (s : State) (d : Die) : (s.putDie d).nextId = s.nextId := by rw [State.putDie_eq]
@[simp] theorem State.putDie_powered (s : State) (d : Die) : (s.putDie d).powered = s.powered := by rw [State.putDie_eq]
@[simp] theorem State.putDie_boot (s : State) (d : Die) : (s.putDie d).boot = s.boot := by rw [State.putDie_eq]
@[simp] theorem State.putDie_wall (s : State) (d : Die) : (s.putDie d).wall = s.wall := by rw [State.putDie_eq]
@[simp] theorem State.putDie_ppm (s : State) (d : Die) : (s.putDie d).ppm = s.ppm := by rw [State.putDie_eq]
@[simp] theorem State.putDie_ppmRest (s : State) (d : Die) : (s.putDie d).ppmRest = s.ppmRest := by rw [State.putDie_eq]
@[simp] theorem State.putDie_stepped (s : State) (d : Die) : (s.putDie d).stepped = s.stepped := by rw [State.putDie_eq]
@[simp] theorem State.putDie_mem (s : State) (d : Die) : (s.putDie d).mem = s.mem := by rw [State.putDie_eq]
@[simp] theorem State.putDie_past (s : State) (d : Die) : (s.putDie d).past = s.past := by rw [State.putDie_eq]
@[simp] theorem State.putDie_recent (s : State) (d : Die) : (s.putDie d).recent = s.recent := by rw [State.putDie_eq]
@[simp] theorem State.putDie_pageUses (s : State) (d : Die) : (s.putDie d).pageUses = s.pageUses := by rw [State.putDie_eq]
@[simp] theorem State.putDie_risers (s : State) (d : Die) : (s.putDie d).risers = s.risers := by rw [State.putDie_eq]
@[simp] theorem State.putDie_shots (s : State) (d : Die) : (s.putDie d).shots = s.shots := by rw [State.putDie_eq]
@[simp] theorem State.putDie_groups (s : State) (d : Die) : (s.putDie d).groups = s.groups := by rw [State.putDie_eq]
@[simp] theorem State.putDie_teams (s : State) (d : Die) : (s.putDie d).teams = s.teams := by rw [State.putDie_eq]
@[simp] theorem State.putDie_tasks (s : State) (d : Die) : (s.putDie d).tasks = s.tasks := by rw [State.putDie_eq]
@[simp] theorem State.putDie_contexts (s : State) (d : Die) : (s.putDie d).contexts = s.contexts := by rw [State.putDie_eq]
@[simp] theorem State.putDie_clusters (s : State) (d : Die) : (s.putDie d).clusters = s.clusters := by rw [State.putDie_eq]
@[simp] theorem State.putDie_savedOvens (s : State) (d : Die) : (s.putDie d).savedOvens = s.savedOvens := by rw [State.putDie_eq]
@[simp] theorem State.putDie_cores (s : State) (d : Die) : (s.putDie d).cores = s.cores := by rw [State.putDie_eq]
@[simp] theorem State.putDie_cmds (s : State) (d : Die) : (s.putDie d).cmds = s.cmds := by rw [State.putDie_eq]
@[simp] theorem State.putDie_stores (s : State) (d : Die) : (s.putDie d).stores = s.stores := by rw [State.putDie_eq]
@[simp] theorem State.putDie_deliveries (s : State) (d : Die) : (s.putDie d).deliveries = s.deliveries := by rw [State.putDie_eq]
@[simp] theorem State.putDie_reductions (s : State) (d : Die) : (s.putDie d).reductions = s.reductions := by rw [State.putDie_eq]
@[simp] theorem State.putDie_shootdowns (s : State) (d : Die) : (s.putDie d).shootdowns = s.shootdowns := by rw [State.putDie_eq]
@[simp] theorem State.putDie_promotions (s : State) (d : Die) : (s.putDie d).promotions = s.promotions := by rw [State.putDie_eq]
@[simp] theorem State.putDie_appends (s : State) (d : Die) : (s.putDie d).appends = s.appends := by rw [State.putDie_eq]
@[simp] theorem State.putDie_permits (s : State) (d : Die) : (s.putDie d).permits = s.permits := by rw [State.putDie_eq]
@[simp] theorem State.putDie_safety (s : State) (d : Die) : (s.putDie d).safety = s.safety := by rw [State.putDie_eq]
@[simp] theorem State.putDie_serr (s : State) (d : Die) : (s.putDie d).serr = s.serr := by rw [State.putDie_eq]
@[simp] theorem State.putDie_meas (s : State) (d : Die) : (s.putDie d).meas = s.meas := by rw [State.putDie_eq]
@[simp] theorem State.putDie_flash (s : State) (d : Die) : (s.putDie d).flash = s.flash := by rw [State.putDie_eq]
@[simp] theorem State.putDie_erased (s : State) (d : Die) : (s.putDie d).erased = s.erased := by rw [State.putDie_eq]
@[simp] theorem State.putDie_config (s : State) (d : Die) : (s.putDie d).config = s.config := by rw [State.putDie_eq]
@[simp] theorem State.putDie_leafNext (s : State) (d : Die) : (s.putDie d).leafNext = s.leafNext := by rw [State.putDie_eq]
@[simp] theorem State.putDie_leafEnd (s : State) (d : Die) : (s.putDie d).leafEnd = s.leafEnd := by rw [State.putDie_eq]
@[simp] theorem State.putDie_frames (s : State) (d : Die) : (s.putDie d).frames = s.frames := by rw [State.putDie_eq]
@[simp] theorem State.putDie_sct (s : State) (d : Die) : (s.putDie d).sct = s.sct := by rw [State.putDie_eq]
@[simp] theorem State.putDie_ports (s : State) (d : Die) : (s.putDie d).ports = s.ports := by rw [State.putDie_eq]
@[simp] theorem State.putDie_links (s : State) (d : Die) : (s.putDie d).links = s.links := by rw [State.putDie_eq]
@[simp] theorem State.putDie_drops (s : State) (d : Die) : (s.putDie d).drops = s.drops := by rw [State.putDie_eq]
@[simp] theorem State.putDie_connections (s : State) (d : Die) : (s.putDie d).connections = s.connections := by rw [State.putDie_eq]
@[simp] theorem State.putDie_replies (s : State) (d : Die) : (s.putDie d).replies = s.replies := by rw [State.putDie_eq]
@[simp] theorem State.putDie_launchWaits (s : State) (d : Die) : (s.putDie d).launchWaits = s.launchWaits := by rw [State.putDie_eq]
@[simp] theorem State.putDie_gangs (s : State) (d : Die) : (s.putDie d).gangs = s.gangs := by rw [State.putDie_eq]
@[simp] theorem State.putDie_reports (s : State) (d : Die) : (s.putDie d).reports = s.reports := by rw [State.putDie_eq]
@[simp] theorem State.putDie_responses (s : State) (d : Die) : (s.putDie d).responses = s.responses := by rw [State.putDie_eq]
@[simp] theorem State.putDie_hearthEvents (s : State) (d : Die) : (s.putDie d).hearthEvents = s.hearthEvents := by rw [State.putDie_eq]

theorem State.putCluster_eq (s : State) (c : Cluster) : s.putCluster c = { s with clusters := (s.putCluster c).clusters } := by
  unfold State.putCluster
  split <;> rfl

@[simp] theorem State.putCluster_cur (s : State) (c : Cluster) : (s.putCluster c).cur = s.cur := by rw [State.putCluster_eq]
@[simp] theorem State.putCluster_inputs (s : State) (c : Cluster) : (s.putCluster c).inputs = s.inputs := by rw [State.putCluster_eq]
@[simp] theorem State.putCluster_draw (s : State) (c : Cluster) : (s.putCluster c).draw = s.draw := by rw [State.putCluster_eq]
@[simp] theorem State.putCluster_nextId (s : State) (c : Cluster) : (s.putCluster c).nextId = s.nextId := by rw [State.putCluster_eq]
@[simp] theorem State.putCluster_powered (s : State) (c : Cluster) : (s.putCluster c).powered = s.powered := by rw [State.putCluster_eq]
@[simp] theorem State.putCluster_boot (s : State) (c : Cluster) : (s.putCluster c).boot = s.boot := by rw [State.putCluster_eq]
@[simp] theorem State.putCluster_wall (s : State) (c : Cluster) : (s.putCluster c).wall = s.wall := by rw [State.putCluster_eq]
@[simp] theorem State.putCluster_ppm (s : State) (c : Cluster) : (s.putCluster c).ppm = s.ppm := by rw [State.putCluster_eq]
@[simp] theorem State.putCluster_ppmRest (s : State) (c : Cluster) : (s.putCluster c).ppmRest = s.ppmRest := by rw [State.putCluster_eq]
@[simp] theorem State.putCluster_stepped (s : State) (c : Cluster) : (s.putCluster c).stepped = s.stepped := by rw [State.putCluster_eq]
@[simp] theorem State.putCluster_mem (s : State) (c : Cluster) : (s.putCluster c).mem = s.mem := by rw [State.putCluster_eq]
@[simp] theorem State.putCluster_past (s : State) (c : Cluster) : (s.putCluster c).past = s.past := by rw [State.putCluster_eq]
@[simp] theorem State.putCluster_recent (s : State) (c : Cluster) : (s.putCluster c).recent = s.recent := by rw [State.putCluster_eq]
@[simp] theorem State.putCluster_pageUses (s : State) (c : Cluster) : (s.putCluster c).pageUses = s.pageUses := by rw [State.putCluster_eq]
@[simp] theorem State.putCluster_risers (s : State) (c : Cluster) : (s.putCluster c).risers = s.risers := by rw [State.putCluster_eq]
@[simp] theorem State.putCluster_shots (s : State) (c : Cluster) : (s.putCluster c).shots = s.shots := by rw [State.putCluster_eq]
@[simp] theorem State.putCluster_groups (s : State) (c : Cluster) : (s.putCluster c).groups = s.groups := by rw [State.putCluster_eq]
@[simp] theorem State.putCluster_teams (s : State) (c : Cluster) : (s.putCluster c).teams = s.teams := by rw [State.putCluster_eq]
@[simp] theorem State.putCluster_tasks (s : State) (c : Cluster) : (s.putCluster c).tasks = s.tasks := by rw [State.putCluster_eq]
@[simp] theorem State.putCluster_contexts (s : State) (c : Cluster) : (s.putCluster c).contexts = s.contexts := by rw [State.putCluster_eq]
@[simp] theorem State.putCluster_savedOvens (s : State) (c : Cluster) : (s.putCluster c).savedOvens = s.savedOvens := by rw [State.putCluster_eq]
@[simp] theorem State.putCluster_dies (s : State) (c : Cluster) : (s.putCluster c).dies = s.dies := by rw [State.putCluster_eq]
@[simp] theorem State.putCluster_cores (s : State) (c : Cluster) : (s.putCluster c).cores = s.cores := by rw [State.putCluster_eq]
@[simp] theorem State.putCluster_cmds (s : State) (c : Cluster) : (s.putCluster c).cmds = s.cmds := by rw [State.putCluster_eq]
@[simp] theorem State.putCluster_stores (s : State) (c : Cluster) : (s.putCluster c).stores = s.stores := by rw [State.putCluster_eq]
@[simp] theorem State.putCluster_deliveries (s : State) (c : Cluster) : (s.putCluster c).deliveries = s.deliveries := by rw [State.putCluster_eq]
@[simp] theorem State.putCluster_reductions (s : State) (c : Cluster) : (s.putCluster c).reductions = s.reductions := by rw [State.putCluster_eq]
@[simp] theorem State.putCluster_shootdowns (s : State) (c : Cluster) : (s.putCluster c).shootdowns = s.shootdowns := by rw [State.putCluster_eq]
@[simp] theorem State.putCluster_promotions (s : State) (c : Cluster) : (s.putCluster c).promotions = s.promotions := by rw [State.putCluster_eq]
@[simp] theorem State.putCluster_appends (s : State) (c : Cluster) : (s.putCluster c).appends = s.appends := by rw [State.putCluster_eq]
@[simp] theorem State.putCluster_permits (s : State) (c : Cluster) : (s.putCluster c).permits = s.permits := by rw [State.putCluster_eq]
@[simp] theorem State.putCluster_safety (s : State) (c : Cluster) : (s.putCluster c).safety = s.safety := by rw [State.putCluster_eq]
@[simp] theorem State.putCluster_serr (s : State) (c : Cluster) : (s.putCluster c).serr = s.serr := by rw [State.putCluster_eq]
@[simp] theorem State.putCluster_meas (s : State) (c : Cluster) : (s.putCluster c).meas = s.meas := by rw [State.putCluster_eq]
@[simp] theorem State.putCluster_flash (s : State) (c : Cluster) : (s.putCluster c).flash = s.flash := by rw [State.putCluster_eq]
@[simp] theorem State.putCluster_erased (s : State) (c : Cluster) : (s.putCluster c).erased = s.erased := by rw [State.putCluster_eq]
@[simp] theorem State.putCluster_config (s : State) (c : Cluster) : (s.putCluster c).config = s.config := by rw [State.putCluster_eq]
@[simp] theorem State.putCluster_leafNext (s : State) (c : Cluster) : (s.putCluster c).leafNext = s.leafNext := by rw [State.putCluster_eq]
@[simp] theorem State.putCluster_leafEnd (s : State) (c : Cluster) : (s.putCluster c).leafEnd = s.leafEnd := by rw [State.putCluster_eq]
@[simp] theorem State.putCluster_frames (s : State) (c : Cluster) : (s.putCluster c).frames = s.frames := by rw [State.putCluster_eq]
@[simp] theorem State.putCluster_sct (s : State) (c : Cluster) : (s.putCluster c).sct = s.sct := by rw [State.putCluster_eq]
@[simp] theorem State.putCluster_ports (s : State) (c : Cluster) : (s.putCluster c).ports = s.ports := by rw [State.putCluster_eq]
@[simp] theorem State.putCluster_links (s : State) (c : Cluster) : (s.putCluster c).links = s.links := by rw [State.putCluster_eq]
@[simp] theorem State.putCluster_drops (s : State) (c : Cluster) : (s.putCluster c).drops = s.drops := by rw [State.putCluster_eq]
@[simp] theorem State.putCluster_connections (s : State) (c : Cluster) : (s.putCluster c).connections = s.connections := by rw [State.putCluster_eq]
@[simp] theorem State.putCluster_replies (s : State) (c : Cluster) : (s.putCluster c).replies = s.replies := by rw [State.putCluster_eq]
@[simp] theorem State.putCluster_launchWaits (s : State) (c : Cluster) : (s.putCluster c).launchWaits = s.launchWaits := by rw [State.putCluster_eq]
@[simp] theorem State.putCluster_gangs (s : State) (c : Cluster) : (s.putCluster c).gangs = s.gangs := by rw [State.putCluster_eq]
@[simp] theorem State.putCluster_reports (s : State) (c : Cluster) : (s.putCluster c).reports = s.reports := by rw [State.putCluster_eq]
@[simp] theorem State.putCluster_responses (s : State) (c : Cluster) : (s.putCluster c).responses = s.responses := by rw [State.putCluster_eq]
@[simp] theorem State.putCluster_hearthEvents (s : State) (c : Cluster) : (s.putCluster c).hearthEvents = s.hearthEvents := by rw [State.putCluster_eq]

/-! ## Updates of a group -/

@[simp] theorem Group.onArch_id (g : Group) (f : Arch → Arch) : (g.onArch f).id = g.id := rfl
@[simp] theorem Group.onArch_team (g : Group) (f : Arch → Arch) : (g.onArch f).team = g.team := rfl
@[simp] theorem Group.onArch_gix (g : Group) (f : Arch → Arch) : (g.onArch f).gix = g.gix := rfl
@[simp] theorem Group.onArch_phase (g : Group) (f : Arch → Arch) : (g.onArch f).phase = g.phase := rfl
@[simp] theorem Group.onArch_place (g : Group) (f : Arch → Arch) : (g.onArch f).place = g.place := rfl
@[simp] theorem Group.onArch_saved (g : Group) (f : Arch → Arch) : (g.onArch f).saved = g.saved := rfl
@[simp] theorem Group.onArch_cclk (g : Group) (f : Arch → Arch) : (g.onArch f).cclk = g.cclk := rfl
@[simp] theorem Group.onArch_super (g : Group) (f : Arch → Arch) : (g.onArch f).super = g.super := rfl
@[simp] theorem Group.onArch_rwLimit (g : Group) (f : Arch → Arch) : (g.onArch f).rwLimit = g.rwLimit := rfl
@[simp] theorem Group.onArch_firstIssue (g : Group) (f : Arch → Arch) : (g.onArch f).firstIssue = g.firstIssue := rfl
@[simp] theorem Group.onArch_wait (g : Group) (f : Arch → Arch) : (g.onArch f).wait = g.wait := rfl
@[simp] theorem Group.onArch_replay (g : Group) (f : Arch → Arch) : (g.onArch f).replay = g.replay := rfl
@[simp] theorem Group.onArch_pend (g : Group) (f : Arch → Arch) : (g.onArch f).pend = g.pend := rfl
@[simp] theorem Group.onArch_trapped (g : Group) (f : Arch → Arch) : (g.onArch f).trapped = g.trapped := rfl
@[simp] theorem Group.onArch_keptWait (g : Group) (f : Arch → Arch) : (g.onArch f).keptWait = g.keptWait := rfl
@[simp] theorem Group.onArch_keptLimit (g : Group) (f : Arch → Arch) : (g.onArch f).keptLimit = g.keptLimit := rfl
@[simp] theorem Group.onArch_keptIssue (g : Group) (f : Arch → Arch) : (g.onArch f).keptIssue = g.keptIssue := rfl
@[simp] theorem Group.onArch_keptReplay (g : Group) (f : Arch → Arch) : (g.onArch f).keptReplay = g.keptReplay := rfl
@[simp] theorem Group.onArch_emergency (g : Group) (f : Arch → Arch) : (g.onArch f).emergency = g.emergency := rfl
@[simp] theorem Group.onArch_stalled (g : Group) (f : Arch → Arch) : (g.onArch f).stalled = g.stalled := rfl
@[simp] theorem Group.onArch_stopAt (g : Group) (f : Arch → Arch) : (g.onArch f).stopAt = g.stopAt := rfl
@[simp] theorem Group.onArch_winWrites (g : Group) (f : Arch → Arch) : (g.onArch f).winWrites = g.winWrites := rfl
@[simp] theorem Group.onArch_himage (g : Group) (f : Arch → Arch) : (g.onArch f).himage = g.himage := rfl
@[simp] theorem Group.onArch_overflow (g : Group) (f : Arch → Arch) : (g.onArch f).overflow = g.overflow := rfl
@[simp] theorem Group.onArch_opens (g : Group) (f : Arch → Arch) : (g.onArch f).opens = g.opens := rfl
@[simp] theorem Group.onArch_batches (g : Group) (f : Arch → Arch) : (g.onArch f).batches = g.batches := rfl
@[simp] theorem Group.onArch_nextBatch (g : Group) (f : Arch → Arch) : (g.onArch f).nextBatch = g.nextBatch := rfl
@[simp] theorem Group.onArch_mcrumbs (g : Group) (f : Arch → Arch) : (g.onArch f).mcrumbs = g.mcrumbs := rfl
@[simp] theorem Group.onArch_status (g : Group) (f : Arch → Arch) : (g.onArch f).status = g.status := rfl
@[simp] theorem Group.onArch_detail (g : Group) (f : Arch → Arch) : (g.onArch f).detail = g.detail := rfl
@[simp] theorem Group.onArch_traps (g : Group) (f : Arch → Arch) : (g.onArch f).traps = g.traps := rfl
@[simp] theorem Group.onArch_acqFloor (g : Group) (f : Arch → Arch) : (g.onArch f).acqFloor = g.acqFloor := rfl
@[simp] theorem Group.onArch_relFloor (g : Group) (f : Arch → Arch) : (g.onArch f).relFloor = g.relFloor := rfl
@[simp] theorem Group.onArch_arch (g : Group) (f : Arch → Arch) : (g.onArch f).arch = f g.arch := rfl

@[simp] theorem Group.setM_id (g : Group) (n : Nat) (v : Word) : (g.setM n v).id = g.id := rfl
@[simp] theorem Group.setM_team (g : Group) (n : Nat) (v : Word) : (g.setM n v).team = g.team := rfl
@[simp] theorem Group.setM_gix (g : Group) (n : Nat) (v : Word) : (g.setM n v).gix = g.gix := rfl
@[simp] theorem Group.setM_arch (g : Group) (n : Nat) (v : Word) : (g.setM n v).arch = g.arch := rfl
@[simp] theorem Group.setM_phase (g : Group) (n : Nat) (v : Word) : (g.setM n v).phase = g.phase := rfl
@[simp] theorem Group.setM_place (g : Group) (n : Nat) (v : Word) : (g.setM n v).place = g.place := rfl
@[simp] theorem Group.setM_saved (g : Group) (n : Nat) (v : Word) : (g.setM n v).saved = g.saved := rfl
@[simp] theorem Group.setM_cclk (g : Group) (n : Nat) (v : Word) : (g.setM n v).cclk = g.cclk := rfl
@[simp] theorem Group.setM_super (g : Group) (n : Nat) (v : Word) : (g.setM n v).super = g.super := rfl
@[simp] theorem Group.setM_rwLimit (g : Group) (n : Nat) (v : Word) : (g.setM n v).rwLimit = g.rwLimit := rfl
@[simp] theorem Group.setM_firstIssue (g : Group) (n : Nat) (v : Word) : (g.setM n v).firstIssue = g.firstIssue := rfl
@[simp] theorem Group.setM_wait (g : Group) (n : Nat) (v : Word) : (g.setM n v).wait = g.wait := rfl
@[simp] theorem Group.setM_replay (g : Group) (n : Nat) (v : Word) : (g.setM n v).replay = g.replay := rfl
@[simp] theorem Group.setM_pend (g : Group) (n : Nat) (v : Word) : (g.setM n v).pend = g.pend := rfl
@[simp] theorem Group.setM_trapped (g : Group) (n : Nat) (v : Word) : (g.setM n v).trapped = g.trapped := rfl
@[simp] theorem Group.setM_keptWait (g : Group) (n : Nat) (v : Word) : (g.setM n v).keptWait = g.keptWait := rfl
@[simp] theorem Group.setM_keptLimit (g : Group) (n : Nat) (v : Word) : (g.setM n v).keptLimit = g.keptLimit := rfl
@[simp] theorem Group.setM_keptIssue (g : Group) (n : Nat) (v : Word) : (g.setM n v).keptIssue = g.keptIssue := rfl
@[simp] theorem Group.setM_keptReplay (g : Group) (n : Nat) (v : Word) : (g.setM n v).keptReplay = g.keptReplay := rfl
@[simp] theorem Group.setM_emergency (g : Group) (n : Nat) (v : Word) : (g.setM n v).emergency = g.emergency := rfl
@[simp] theorem Group.setM_stalled (g : Group) (n : Nat) (v : Word) : (g.setM n v).stalled = g.stalled := rfl
@[simp] theorem Group.setM_stopAt (g : Group) (n : Nat) (v : Word) : (g.setM n v).stopAt = g.stopAt := rfl
@[simp] theorem Group.setM_winWrites (g : Group) (n : Nat) (v : Word) : (g.setM n v).winWrites = g.winWrites := rfl
@[simp] theorem Group.setM_himage (g : Group) (n : Nat) (v : Word) : (g.setM n v).himage = g.himage := rfl
@[simp] theorem Group.setM_overflow (g : Group) (n : Nat) (v : Word) : (g.setM n v).overflow = g.overflow := rfl
@[simp] theorem Group.setM_opens (g : Group) (n : Nat) (v : Word) : (g.setM n v).opens = g.opens := rfl
@[simp] theorem Group.setM_batches (g : Group) (n : Nat) (v : Word) : (g.setM n v).batches = g.batches := rfl
@[simp] theorem Group.setM_nextBatch (g : Group) (n : Nat) (v : Word) : (g.setM n v).nextBatch = g.nextBatch := rfl
@[simp] theorem Group.setM_status (g : Group) (n : Nat) (v : Word) : (g.setM n v).status = g.status := rfl
@[simp] theorem Group.setM_detail (g : Group) (n : Nat) (v : Word) : (g.setM n v).detail = g.detail := rfl
@[simp] theorem Group.setM_traps (g : Group) (n : Nat) (v : Word) : (g.setM n v).traps = g.traps := rfl
@[simp] theorem Group.setM_acqFloor (g : Group) (n : Nat) (v : Word) : (g.setM n v).acqFloor = g.acqFloor := rfl
@[simp] theorem Group.setM_relFloor (g : Group) (n : Nat) (v : Word) : (g.setM n v).relFloor = g.relFloor := rfl

@[simp] theorem Group.setGs_id (g : Group) (n : Nat) (vs : List Word) : (g.setGs n vs).id = g.id := rfl
@[simp] theorem Group.setGs_team (g : Group) (n : Nat) (vs : List Word) : (g.setGs n vs).team = g.team := rfl
@[simp] theorem Group.setGs_gix (g : Group) (n : Nat) (vs : List Word) : (g.setGs n vs).gix = g.gix := rfl
@[simp] theorem Group.setGs_phase (g : Group) (n : Nat) (vs : List Word) : (g.setGs n vs).phase = g.phase := rfl
@[simp] theorem Group.setGs_place (g : Group) (n : Nat) (vs : List Word) : (g.setGs n vs).place = g.place := rfl
@[simp] theorem Group.setGs_saved (g : Group) (n : Nat) (vs : List Word) : (g.setGs n vs).saved = g.saved := rfl
@[simp] theorem Group.setGs_cclk (g : Group) (n : Nat) (vs : List Word) : (g.setGs n vs).cclk = g.cclk := rfl
@[simp] theorem Group.setGs_super (g : Group) (n : Nat) (vs : List Word) : (g.setGs n vs).super = g.super := rfl
@[simp] theorem Group.setGs_rwLimit (g : Group) (n : Nat) (vs : List Word) : (g.setGs n vs).rwLimit = g.rwLimit := rfl
@[simp] theorem Group.setGs_firstIssue (g : Group) (n : Nat) (vs : List Word) : (g.setGs n vs).firstIssue = g.firstIssue := rfl
@[simp] theorem Group.setGs_wait (g : Group) (n : Nat) (vs : List Word) : (g.setGs n vs).wait = g.wait := rfl
@[simp] theorem Group.setGs_replay (g : Group) (n : Nat) (vs : List Word) : (g.setGs n vs).replay = g.replay := rfl
@[simp] theorem Group.setGs_pend (g : Group) (n : Nat) (vs : List Word) : (g.setGs n vs).pend = g.pend := rfl
@[simp] theorem Group.setGs_trapped (g : Group) (n : Nat) (vs : List Word) : (g.setGs n vs).trapped = g.trapped := rfl
@[simp] theorem Group.setGs_keptWait (g : Group) (n : Nat) (vs : List Word) : (g.setGs n vs).keptWait = g.keptWait := rfl
@[simp] theorem Group.setGs_keptLimit (g : Group) (n : Nat) (vs : List Word) : (g.setGs n vs).keptLimit = g.keptLimit := rfl
@[simp] theorem Group.setGs_keptIssue (g : Group) (n : Nat) (vs : List Word) : (g.setGs n vs).keptIssue = g.keptIssue := rfl
@[simp] theorem Group.setGs_keptReplay (g : Group) (n : Nat) (vs : List Word) : (g.setGs n vs).keptReplay = g.keptReplay := rfl
@[simp] theorem Group.setGs_emergency (g : Group) (n : Nat) (vs : List Word) : (g.setGs n vs).emergency = g.emergency := rfl
@[simp] theorem Group.setGs_stalled (g : Group) (n : Nat) (vs : List Word) : (g.setGs n vs).stalled = g.stalled := rfl
@[simp] theorem Group.setGs_stopAt (g : Group) (n : Nat) (vs : List Word) : (g.setGs n vs).stopAt = g.stopAt := rfl
@[simp] theorem Group.setGs_winWrites (g : Group) (n : Nat) (vs : List Word) : (g.setGs n vs).winWrites = g.winWrites := rfl
@[simp] theorem Group.setGs_himage (g : Group) (n : Nat) (vs : List Word) : (g.setGs n vs).himage = g.himage := rfl
@[simp] theorem Group.setGs_overflow (g : Group) (n : Nat) (vs : List Word) : (g.setGs n vs).overflow = g.overflow := rfl
@[simp] theorem Group.setGs_opens (g : Group) (n : Nat) (vs : List Word) : (g.setGs n vs).opens = g.opens := rfl
@[simp] theorem Group.setGs_batches (g : Group) (n : Nat) (vs : List Word) : (g.setGs n vs).batches = g.batches := rfl
@[simp] theorem Group.setGs_nextBatch (g : Group) (n : Nat) (vs : List Word) : (g.setGs n vs).nextBatch = g.nextBatch := rfl
@[simp] theorem Group.setGs_mcrumbs (g : Group) (n : Nat) (vs : List Word) : (g.setGs n vs).mcrumbs = g.mcrumbs := rfl
@[simp] theorem Group.setGs_status (g : Group) (n : Nat) (vs : List Word) : (g.setGs n vs).status = g.status := rfl
@[simp] theorem Group.setGs_detail (g : Group) (n : Nat) (vs : List Word) : (g.setGs n vs).detail = g.detail := rfl
@[simp] theorem Group.setGs_traps (g : Group) (n : Nat) (vs : List Word) : (g.setGs n vs).traps = g.traps := rfl
@[simp] theorem Group.setGs_acqFloor (g : Group) (n : Nat) (vs : List Word) : (g.setGs n vs).acqFloor = g.acqFloor := rfl
@[simp] theorem Group.setGs_relFloor (g : Group) (n : Nat) (vs : List Word) : (g.setGs n vs).relFloor = g.relFloor := rfl

@[simp] theorem Group.advance_id (g : Group) : (g.advance).id = g.id := rfl
@[simp] theorem Group.advance_team (g : Group) : (g.advance).team = g.team := rfl
@[simp] theorem Group.advance_gix (g : Group) : (g.advance).gix = g.gix := rfl
@[simp] theorem Group.advance_phase (g : Group) : (g.advance).phase = .ready := rfl
@[simp] theorem Group.advance_place (g : Group) : (g.advance).place = g.place := rfl
@[simp] theorem Group.advance_saved (g : Group) : (g.advance).saved = g.saved := rfl
@[simp] theorem Group.advance_cclk (g : Group) : (g.advance).cclk = g.cclk := rfl
@[simp] theorem Group.advance_super (g : Group) : (g.advance).super = g.super := rfl
@[simp] theorem Group.advance_rwLimit (g : Group) : (g.advance).rwLimit = none := rfl
@[simp] theorem Group.advance_firstIssue (g : Group) : (g.advance).firstIssue = none := rfl
@[simp] theorem Group.advance_wait (g : Group) : (g.advance).wait = none := rfl
@[simp] theorem Group.advance_replay (g : Group) : (g.advance).replay = none := rfl
@[simp] theorem Group.advance_pend (g : Group) : (g.advance).pend = g.pend := rfl
@[simp] theorem Group.advance_trapped (g : Group) : (g.advance).trapped = g.trapped := rfl
@[simp] theorem Group.advance_keptWait (g : Group) : (g.advance).keptWait = g.keptWait := rfl
@[simp] theorem Group.advance_keptLimit (g : Group) : (g.advance).keptLimit = g.keptLimit := rfl
@[simp] theorem Group.advance_keptIssue (g : Group) : (g.advance).keptIssue = g.keptIssue := rfl
@[simp] theorem Group.advance_keptReplay (g : Group) : (g.advance).keptReplay = g.keptReplay := rfl
@[simp] theorem Group.advance_emergency (g : Group) : (g.advance).emergency = g.emergency := rfl
@[simp] theorem Group.advance_stalled (g : Group) : (g.advance).stalled = g.stalled := rfl
@[simp] theorem Group.advance_stopAt (g : Group) : (g.advance).stopAt = g.stopAt := rfl
@[simp] theorem Group.advance_winWrites (g : Group) : (g.advance).winWrites = g.winWrites := rfl
@[simp] theorem Group.advance_himage (g : Group) : (g.advance).himage = g.himage := rfl
@[simp] theorem Group.advance_overflow (g : Group) : (g.advance).overflow = g.overflow := rfl
@[simp] theorem Group.advance_opens (g : Group) : (g.advance).opens = g.opens := rfl
@[simp] theorem Group.advance_batches (g : Group) : (g.advance).batches = g.batches := rfl
@[simp] theorem Group.advance_nextBatch (g : Group) : (g.advance).nextBatch = g.nextBatch := rfl
@[simp] theorem Group.advance_mcrumbs (g : Group) : (g.advance).mcrumbs = g.mcrumbs := rfl
@[simp] theorem Group.advance_status (g : Group) : (g.advance).status = g.status := rfl
@[simp] theorem Group.advance_detail (g : Group) : (g.advance).detail = g.detail := rfl
@[simp] theorem Group.advance_traps (g : Group) : (g.advance).traps = g.traps := rfl
@[simp] theorem Group.advance_acqFloor (g : Group) : (g.advance).acqFloor = g.acqFloor := rfl
@[simp] theorem Group.advance_relFloor (g : Group) : (g.advance).relFloor = g.relFloor := rfl
@[simp] theorem Group.advance_arch_pc (g : Group) : (g.advance).arch.pc = g.arch.pc + 4 := rfl
@[simp] theorem Group.advance_arch_mode (g : Group) : (g.advance).arch.mode = g.arch.mode := rfl
@[simp] theorem Group.advance_arch_mask (g : Group) : (g.advance).arch.mask = g.arch.mask := rfl
@[simp] theorem Group.advance_arch_sticky (g : Group) : (g.advance).arch.sticky = g.arch.sticky := rfl
@[simp] theorem Group.advance_arch_ix (g : Group) : (g.advance).arch.ix = g.arch.ix := rfl
@[simp] theorem Group.advance_arch_pidx (g : Group) : (g.advance).arch.pidx = 0 := rfl
@[simp] theorem Group.advance_arch_esc (g : Group) : (g.advance).arch.esc = g.arch.esc := rfl
@[simp] theorem Group.advance_arch_timeouts (g : Group) : (g.advance).arch.timeouts = g.arch.timeouts := rfl
@[simp] theorem Group.advance_arch_lastObj (g : Group) : (g.advance).arch.lastObj = g.arch.lastObj := rfl
@[simp] theorem Group.advance_arch_stack (g : Group) : (g.advance).arch.stack = g.arch.stack := rfl
@[simp] theorem Group.advance_arch_xl (g : Group) : (g.advance).arch.xl = g.arch.xl := rfl
@[simp] theorem Group.advance_arch_g (g : Group) : (g.advance).arch.g = g.arch.g := rfl
@[simp] theorem Group.advance_arch_t (g : Group) : (g.advance).arch.t = g.arch.t := rfl
@[simp] theorem Group.advance_arch_p (g : Group) : (g.advance).arch.p = g.arch.p := rfl
@[simp] theorem Group.advance_arch_snap (g : Group) : (g.advance).arch.snap = [] := rfl

@[simp] theorem Group.goto_id (g : Group) (pc : DWord) : (g.goto pc).id = g.id := rfl
@[simp] theorem Group.goto_team (g : Group) (pc : DWord) : (g.goto pc).team = g.team := rfl
@[simp] theorem Group.goto_gix (g : Group) (pc : DWord) : (g.goto pc).gix = g.gix := rfl
@[simp] theorem Group.goto_phase (g : Group) (pc : DWord) : (g.goto pc).phase = .ready := rfl
@[simp] theorem Group.goto_place (g : Group) (pc : DWord) : (g.goto pc).place = g.place := rfl
@[simp] theorem Group.goto_saved (g : Group) (pc : DWord) : (g.goto pc).saved = g.saved := rfl
@[simp] theorem Group.goto_cclk (g : Group) (pc : DWord) : (g.goto pc).cclk = g.cclk := rfl
@[simp] theorem Group.goto_super (g : Group) (pc : DWord) : (g.goto pc).super = g.super := rfl
@[simp] theorem Group.goto_rwLimit (g : Group) (pc : DWord) : (g.goto pc).rwLimit = none := rfl
@[simp] theorem Group.goto_firstIssue (g : Group) (pc : DWord) : (g.goto pc).firstIssue = none := rfl
@[simp] theorem Group.goto_wait (g : Group) (pc : DWord) : (g.goto pc).wait = none := rfl
@[simp] theorem Group.goto_replay (g : Group) (pc : DWord) : (g.goto pc).replay = none := rfl
@[simp] theorem Group.goto_pend (g : Group) (pc : DWord) : (g.goto pc).pend = g.pend := rfl
@[simp] theorem Group.goto_trapped (g : Group) (pc : DWord) : (g.goto pc).trapped = g.trapped := rfl
@[simp] theorem Group.goto_keptWait (g : Group) (pc : DWord) : (g.goto pc).keptWait = g.keptWait := rfl
@[simp] theorem Group.goto_keptLimit (g : Group) (pc : DWord) : (g.goto pc).keptLimit = g.keptLimit := rfl
@[simp] theorem Group.goto_keptIssue (g : Group) (pc : DWord) : (g.goto pc).keptIssue = g.keptIssue := rfl
@[simp] theorem Group.goto_keptReplay (g : Group) (pc : DWord) : (g.goto pc).keptReplay = g.keptReplay := rfl
@[simp] theorem Group.goto_emergency (g : Group) (pc : DWord) : (g.goto pc).emergency = g.emergency := rfl
@[simp] theorem Group.goto_stalled (g : Group) (pc : DWord) : (g.goto pc).stalled = g.stalled := rfl
@[simp] theorem Group.goto_stopAt (g : Group) (pc : DWord) : (g.goto pc).stopAt = g.stopAt := rfl
@[simp] theorem Group.goto_winWrites (g : Group) (pc : DWord) : (g.goto pc).winWrites = g.winWrites := rfl
@[simp] theorem Group.goto_himage (g : Group) (pc : DWord) : (g.goto pc).himage = g.himage := rfl
@[simp] theorem Group.goto_overflow (g : Group) (pc : DWord) : (g.goto pc).overflow = g.overflow := rfl
@[simp] theorem Group.goto_opens (g : Group) (pc : DWord) : (g.goto pc).opens = g.opens := rfl
@[simp] theorem Group.goto_batches (g : Group) (pc : DWord) : (g.goto pc).batches = g.batches := rfl
@[simp] theorem Group.goto_nextBatch (g : Group) (pc : DWord) : (g.goto pc).nextBatch = g.nextBatch := rfl
@[simp] theorem Group.goto_mcrumbs (g : Group) (pc : DWord) : (g.goto pc).mcrumbs = g.mcrumbs := rfl
@[simp] theorem Group.goto_status (g : Group) (pc : DWord) : (g.goto pc).status = g.status := rfl
@[simp] theorem Group.goto_detail (g : Group) (pc : DWord) : (g.goto pc).detail = g.detail := rfl
@[simp] theorem Group.goto_traps (g : Group) (pc : DWord) : (g.goto pc).traps = g.traps := rfl
@[simp] theorem Group.goto_acqFloor (g : Group) (pc : DWord) : (g.goto pc).acqFloor = g.acqFloor := rfl
@[simp] theorem Group.goto_relFloor (g : Group) (pc : DWord) : (g.goto pc).relFloor = g.relFloor := rfl
@[simp] theorem Group.goto_arch_pc (g : Group) (pc : DWord) : (g.goto pc).arch.pc = pc := rfl
@[simp] theorem Group.goto_arch_mode (g : Group) (pc : DWord) : (g.goto pc).arch.mode = g.arch.mode := rfl
@[simp] theorem Group.goto_arch_mask (g : Group) (pc : DWord) : (g.goto pc).arch.mask = g.arch.mask := rfl
@[simp] theorem Group.goto_arch_sticky (g : Group) (pc : DWord) : (g.goto pc).arch.sticky = g.arch.sticky := rfl
@[simp] theorem Group.goto_arch_ix (g : Group) (pc : DWord) : (g.goto pc).arch.ix = g.arch.ix := rfl
@[simp] theorem Group.goto_arch_pidx (g : Group) (pc : DWord) : (g.goto pc).arch.pidx = 0 := rfl
@[simp] theorem Group.goto_arch_esc (g : Group) (pc : DWord) : (g.goto pc).arch.esc = g.arch.esc := rfl
@[simp] theorem Group.goto_arch_timeouts (g : Group) (pc : DWord) : (g.goto pc).arch.timeouts = g.arch.timeouts := rfl
@[simp] theorem Group.goto_arch_lastObj (g : Group) (pc : DWord) : (g.goto pc).arch.lastObj = g.arch.lastObj := rfl
@[simp] theorem Group.goto_arch_stack (g : Group) (pc : DWord) : (g.goto pc).arch.stack = g.arch.stack := rfl
@[simp] theorem Group.goto_arch_xl (g : Group) (pc : DWord) : (g.goto pc).arch.xl = g.arch.xl := rfl
@[simp] theorem Group.goto_arch_g (g : Group) (pc : DWord) : (g.goto pc).arch.g = g.arch.g := rfl
@[simp] theorem Group.goto_arch_t (g : Group) (pc : DWord) : (g.goto pc).arch.t = g.arch.t := rfl
@[simp] theorem Group.goto_arch_p (g : Group) (pc : DWord) : (g.goto pc).arch.p = g.arch.p := rfl
@[simp] theorem Group.goto_arch_snap (g : Group) (pc : DWord) : (g.goto pc).arch.snap = [] := rfl

/-! ## Updates of a program's registers -/

@[simp] theorem Arch.setG_pc (a : Arch) (n : Nat) (v : Word) : (a.setG n v).pc = a.pc := rfl
@[simp] theorem Arch.setG_mode (a : Arch) (n : Nat) (v : Word) : (a.setG n v).mode = a.mode := rfl
@[simp] theorem Arch.setG_mask (a : Arch) (n : Nat) (v : Word) : (a.setG n v).mask = a.mask := rfl
@[simp] theorem Arch.setG_sticky (a : Arch) (n : Nat) (v : Word) : (a.setG n v).sticky = a.sticky := rfl
@[simp] theorem Arch.setG_ix (a : Arch) (n : Nat) (v : Word) : (a.setG n v).ix = a.ix := rfl
@[simp] theorem Arch.setG_pidx (a : Arch) (n : Nat) (v : Word) : (a.setG n v).pidx = a.pidx := rfl
@[simp] theorem Arch.setG_esc (a : Arch) (n : Nat) (v : Word) : (a.setG n v).esc = a.esc := rfl
@[simp] theorem Arch.setG_timeouts (a : Arch) (n : Nat) (v : Word) : (a.setG n v).timeouts = a.timeouts := rfl
@[simp] theorem Arch.setG_lastObj (a : Arch) (n : Nat) (v : Word) : (a.setG n v).lastObj = a.lastObj := rfl
@[simp] theorem Arch.setG_stack (a : Arch) (n : Nat) (v : Word) : (a.setG n v).stack = a.stack := rfl
@[simp] theorem Arch.setG_xl (a : Arch) (n : Nat) (v : Word) : (a.setG n v).xl = a.xl := rfl
@[simp] theorem Arch.setG_t (a : Arch) (n : Nat) (v : Word) : (a.setG n v).t = a.t := rfl
@[simp] theorem Arch.setG_p (a : Arch) (n : Nat) (v : Word) : (a.setG n v).p = a.p := rfl
@[simp] theorem Arch.setG_snap (a : Arch) (n : Nat) (v : Word) : (a.setG n v).snap = a.snap := rfl

@[simp] theorem Arch.setFull_pc (a : Arch) (n : Nat) (x : Bool) : (a.setFull n x).pc = a.pc := rfl
@[simp] theorem Arch.setFull_mode (a : Arch) (n : Nat) (x : Bool) : (a.setFull n x).mode = a.mode := rfl
@[simp] theorem Arch.setFull_mask (a : Arch) (n : Nat) (x : Bool) : (a.setFull n x).mask = a.mask := rfl
@[simp] theorem Arch.setFull_sticky (a : Arch) (n : Nat) (x : Bool) : (a.setFull n x).sticky = a.sticky := rfl
@[simp] theorem Arch.setFull_ix (a : Arch) (n : Nat) (x : Bool) : (a.setFull n x).ix = a.ix := rfl
@[simp] theorem Arch.setFull_pidx (a : Arch) (n : Nat) (x : Bool) : (a.setFull n x).pidx = a.pidx := rfl
@[simp] theorem Arch.setFull_esc (a : Arch) (n : Nat) (x : Bool) : (a.setFull n x).esc = a.esc := rfl
@[simp] theorem Arch.setFull_timeouts (a : Arch) (n : Nat) (x : Bool) : (a.setFull n x).timeouts = a.timeouts := rfl
@[simp] theorem Arch.setFull_lastObj (a : Arch) (n : Nat) (x : Bool) : (a.setFull n x).lastObj = a.lastObj := rfl
@[simp] theorem Arch.setFull_stack (a : Arch) (n : Nat) (x : Bool) : (a.setFull n x).stack = a.stack := rfl
@[simp] theorem Arch.setFull_xl (a : Arch) (n : Nat) (x : Bool) : (a.setFull n x).xl = a.xl := rfl
@[simp] theorem Arch.setFull_t (a : Arch) (n : Nat) (x : Bool) : (a.setFull n x).t = a.t := rfl
@[simp] theorem Arch.setFull_p (a : Arch) (n : Nat) (x : Bool) : (a.setFull n x).p = a.p := rfl
@[simp] theorem Arch.setFull_snap (a : Arch) (n : Nat) (x : Bool) : (a.setFull n x).snap = a.snap := rfl

@[simp] theorem Arch.onT_pc (a : Arch) (n : Nat) (f : Ranked → Ranked) : (a.onT n f).pc = a.pc := rfl
@[simp] theorem Arch.onT_mode (a : Arch) (n : Nat) (f : Ranked → Ranked) : (a.onT n f).mode = a.mode := rfl
@[simp] theorem Arch.onT_mask (a : Arch) (n : Nat) (f : Ranked → Ranked) : (a.onT n f).mask = a.mask := rfl
@[simp] theorem Arch.onT_sticky (a : Arch) (n : Nat) (f : Ranked → Ranked) : (a.onT n f).sticky = a.sticky := rfl
@[simp] theorem Arch.onT_ix (a : Arch) (n : Nat) (f : Ranked → Ranked) : (a.onT n f).ix = a.ix := rfl
@[simp] theorem Arch.onT_pidx (a : Arch) (n : Nat) (f : Ranked → Ranked) : (a.onT n f).pidx = a.pidx := rfl
@[simp] theorem Arch.onT_esc (a : Arch) (n : Nat) (f : Ranked → Ranked) : (a.onT n f).esc = a.esc := rfl
@[simp] theorem Arch.onT_timeouts (a : Arch) (n : Nat) (f : Ranked → Ranked) : (a.onT n f).timeouts = a.timeouts := rfl
@[simp] theorem Arch.onT_lastObj (a : Arch) (n : Nat) (f : Ranked → Ranked) : (a.onT n f).lastObj = a.lastObj := rfl
@[simp] theorem Arch.onT_stack (a : Arch) (n : Nat) (f : Ranked → Ranked) : (a.onT n f).stack = a.stack := rfl
@[simp] theorem Arch.onT_xl (a : Arch) (n : Nat) (f : Ranked → Ranked) : (a.onT n f).xl = a.xl := rfl
@[simp] theorem Arch.onT_g (a : Arch) (n : Nat) (f : Ranked → Ranked) : (a.onT n f).g = a.g := rfl
@[simp] theorem Arch.onT_p (a : Arch) (n : Nat) (f : Ranked → Ranked) : (a.onT n f).p = a.p := rfl
@[simp] theorem Arch.onT_snap (a : Arch) (n : Nat) (f : Ranked → Ranked) : (a.onT n f).snap = a.snap := rfl

@[simp] theorem Arch.onP_pc (a : Arch) (n : Nat) (f : Ranked → Ranked) : (a.onP n f).pc = a.pc := rfl
@[simp] theorem Arch.onP_mode (a : Arch) (n : Nat) (f : Ranked → Ranked) : (a.onP n f).mode = a.mode := rfl
@[simp] theorem Arch.onP_mask (a : Arch) (n : Nat) (f : Ranked → Ranked) : (a.onP n f).mask = a.mask := rfl
@[simp] theorem Arch.onP_sticky (a : Arch) (n : Nat) (f : Ranked → Ranked) : (a.onP n f).sticky = a.sticky := rfl
@[simp] theorem Arch.onP_ix (a : Arch) (n : Nat) (f : Ranked → Ranked) : (a.onP n f).ix = a.ix := rfl
@[simp] theorem Arch.onP_pidx (a : Arch) (n : Nat) (f : Ranked → Ranked) : (a.onP n f).pidx = a.pidx := rfl
@[simp] theorem Arch.onP_esc (a : Arch) (n : Nat) (f : Ranked → Ranked) : (a.onP n f).esc = a.esc := rfl
@[simp] theorem Arch.onP_timeouts (a : Arch) (n : Nat) (f : Ranked → Ranked) : (a.onP n f).timeouts = a.timeouts := rfl
@[simp] theorem Arch.onP_lastObj (a : Arch) (n : Nat) (f : Ranked → Ranked) : (a.onP n f).lastObj = a.lastObj := rfl
@[simp] theorem Arch.onP_stack (a : Arch) (n : Nat) (f : Ranked → Ranked) : (a.onP n f).stack = a.stack := rfl
@[simp] theorem Arch.onP_xl (a : Arch) (n : Nat) (f : Ranked → Ranked) : (a.onP n f).xl = a.xl := rfl
@[simp] theorem Arch.onP_g (a : Arch) (n : Nat) (f : Ranked → Ranked) : (a.onP n f).g = a.g := rfl
@[simp] theorem Arch.onP_t (a : Arch) (n : Nat) (f : Ranked → Ranked) : (a.onP n f).t = a.t := rfl
@[simp] theorem Arch.onP_snap (a : Arch) (n : Nat) (f : Ranked → Ranked) : (a.onP n f).snap = a.snap := rfl

/-! ## Lookups after an update -/

/-- A search by a key finds the updated element where the update keeps the key. -/
theorem find?_updateWhere {α : Type} (p q : α → Bool) (f : α → α) (hf : ∀ x, p (f x) = p x) (l : List α) :
    (updateWhere q f l).find? p = (l.find? p).map fun x => if q x then f x else x := by
  induction l with
  | nil => rfl
  | cons x xs ih =>
    have e : p (if q x then f x else x) = p x := by split <;> simp [hf]
    simp only [updateWhere, List.map_cons, List.find?_cons, e] at ih ⊢
    cases p x <;> simp [ih]

/-- The group that was put in the place of the one with its identifier is found there. -/
theorem State.group?_putGroup {s : State} {g h : Group} (hg : s.group? h.id = some g) : (s.putGroup h).group? h.id = some h := by
  have e := find?_updateWhere (fun x : Group => x.id == h.id) (fun x => x.id == h.id)
    (fun x => if x.id == h.id then h else x) (fun x => by by_cases c : x.id = h.id <;> simp [c]) s.groups
  have d : updateWhere (fun x : Group => x.id == h.id) (fun x => if x.id == h.id then h else x) s.groups =
      updateWhere (fun x : Group => x.id == h.id) (fun _ => h) s.groups := by
    unfold updateWhere
    congr 1
    funext x
    by_cases c : x.id = h.id <;> simp [c]
  have k := List.find?_some hg
  rw [d] at e
  change List.find? _ (updateWhere _ _ _) = _
  rw [e]
  change Option.map _ (s.group? h.id) = _
  rw [hg]
  simp only [Option.map_some, k, if_true]

/-- Another group is found as before. -/
theorem State.group?_putGroup_ne {s : State} {h : Group} {id : Nat} (hne : id ≠ h.id) : (s.putGroup h).group? id = s.group? id := by
  change List.find? _ (List.map _ s.groups) = List.find? _ s.groups
  induction s.groups with
  | nil => rfl
  | cons x xs ih =>
    rw [List.map_cons, List.find?_cons, List.find?_cons, ih]
    by_cases c : x.id = h.id
    · have n : (x.id == id) = false := by simp [c, Ne.symm hne]
      have m : (h.id == id) = false := by simp [Ne.symm hne]
      simp [c, m]
    · simp [c]

end Sys2Proof.Machine
end

