-- ==== Sys2Proof/Tests/Slice0.lean ====
section
/-! SUPPORT. Tests: the words of the spec, ill-formed terms, single steps on a small state, and for every statement a state
and operands that meet its hypotheses. Expected values come from the spec's own examples, its tables, or a calculation by
hand from them. -/

namespace Sys2Proof.Tests

set_option Elab.async false

open Sys2Proof.Machine Sys2Proof.Claims

/-! ## A small state: one context, one team, one group of 16 threads, ready at its entry -/

/-- The state, with g registers set. -/
def base (l : List (Nat × Word) := []) : State :=
  let s := { State.reset.harness 0x01000000 with cur := 2 }
  l.foldl (fun (s : State) x => s.onGroup 2 fun g => g.onArch fun a => a.setG x.1 x.2) s

/-- The group. -/
def gp (s : State) : Group := (s.group? s.cur).getD (Group.start Team.none 0 0 ⟨0, 0, 0⟩)

/-- The group's handler runs, at supervisor level. -/
def sup (s : State) : State := s.onGroup 2 fun g => { g with super := true }

/-- The state after an instruction. -/
def after (i : Instr) (s : State) : State :=
  match exec i s with
  | .next t => t
  | _ => State.reset

/-- A g register of the group. -/
def reg (s : State) (n : Nat) : Word := (gp s).gval n

/-- The CAUSE word of the trap that a group's handler entered, or of the group that the standard routine ended. -/
def causeOf (s : State) : Word := (gp s).detail

/-- Runs, as a check. -/
def runsB (s : State) (f : Form) (reads : Ctx → Reads := Ctx.activeReads) (late : Ctx → Option Nat := fun _ => none) : Bool :=
  let g := gp s
  s.group? s.cur == some g && f.wordCheck == none && decide (f.level ≤ g.priv) && f.outOfBounds (s.issueOf f g) == false &&
    f.ranksIllegal (s.issueOf f g).mode == false && s.logBlocks f g == false && f.oddPair (s.issueOf f g).mode == false &&
    late (s.ctxOf f g) == none && (!f.guarded || (s.issueOf f g).active != 0) &&
    f.emptySlot (s.ctxOf f g) (reads (s.ctxOf f g)) (f.holds g) == none && (g.arch.pidx == 0 || g.replay.isSome) &&
    g.stopAt == none

theorem runs_of {s : State} {f : Form} {reads : Ctx → Reads} {late : Ctx → Option Nat} (h : runsB s f reads late = true) :
    Runs s (gp s) f late reads := by
  simp only [runsB, Bool.and_eq_true, beq_iff_eq, decide_eq_true_eq, Bool.or_eq_true, Bool.not_eq_true', bne_iff_ne, ne_eq] at h
  obtain ⟨⟨⟨⟨⟨⟨⟨⟨⟨⟨⟨h1, h2⟩, h3⟩, h4⟩, h5⟩, h6⟩, h7⟩, h8⟩, h9⟩, h10⟩, h11⟩, h12⟩ := h
  exact ⟨⟨h1, h2, h3, h4, h5, h6, h7, h8, fun e => by
    rcases h9 with h9 | h9
    · rw [e] at h9; cases h9
    · exact h9⟩, h10, h11, h12⟩

/-- No operand of the group has crumbs. -/
theorem clear_of {c : Ctx} {o : Operand} (h : (c.g.arch.t ++ c.g.arch.p).all (fun r => r.crumbs.isEmpty) = true) : c.crumbsClear o := by
  have key : ∀ (l : List Ranked) (n : Nat), (∀ r ∈ l, r.crumbs.isEmpty = true) → (l.getD n Ranked.zero).crumbs = [] := by
    intro l n hl
    by_cases e : n < l.length
    · rw [List.getD_eq_getElem _ _ e]
      exact List.isEmpty_iff.mp (hl _ (List.getElem_mem e))
    · rw [List.getD_eq_default _ _ (by omega)]; rfl
  rw [List.all_append, Bool.and_eq_true, List.all_eq_true, List.all_eq_true] at h
  intro _ k hk
  cases o with
  | t n => simp only [key _ n h.1] at hk; cases hk
  | pred n _ => simp only [key _ n h.2] at hk; cases hk
  | _ => cases hk

/-- The state meets what Computes asks of a form. -/
def meetsB (s : State) (f : Form) (reads : Ctx → Reads := Ctx.activeReads) : Bool :=
  runsB s f reads && ((gp s).arch.t ++ (gp s).arch.p).all (fun r => r.crumbs.isEmpty)

theorem meets_of {s : State} {f : Form} {reads : Ctx → Reads} (h : meetsB s f reads = true) :
    Runs s (gp s) f (reads := reads) ∧ ∀ o, (s.ctxOf f (gp s)).crumbsClear o := by
  rw [meetsB, Bool.and_eq_true] at h
  exact ⟨runs_of h.1, fun o => clear_of h.2⟩

/-! ## Witnesses: results in registers -/

theorem witness_IntegerResults :
    (arithmetic.all fun e => meetsB (base [(3, 7), (4, 5)]) (typed2 e.2.1 0x05 0x83 0x84)) = true ∧
    (unary.all fun e => meetsB (base [(3, 7)]) (typed1 e.2.1 0xC1 0x83)) = true ∧
    (compares.all fun e => meetsB (base [(3, 7)]) (compareForm e.2.1 7 0x83 0xF9)) = true := by
  refine ⟨?_, ?_, ?_⟩ <;> decide +kernel

theorem witness_IntegerDivision :
    (division.all fun e => meetsB (base [(3, 7), (4, 0)]) (typed2 e.2.1 0x85 0x83 0x84) &&
      meetsB (base [(3, 7), (4, 2)]) (typed2 e.2.1 0xF8 0x83 0x84)) = true := by decide +kernel

theorem witness_ShiftAndRotate :
    (shifts.all fun e => meetsB (base [(3, 7), (4, 32)]) (plain2 e.2.1 0x05 0x83 0x84)) = true := by decide +kernel

theorem witness_BitFields :
    meetsB (base [(4, 0x12020)]) (plain2 0x24 0x05 0x83 0x84) = true ∧ meetsB (base [(4, 0x1F00)]) (bfiForm 0x05 0x83 0x84) = true := by
  decide +kernel

theorem witness_SelectMoveAddress :
    meetsB base (selForm 0x05 0x83 0x84) = true ∧ meetsB base (formI 0x2B 0x84 0xFFFF (.dst .one .any)) = true ∧
    meetsB base (formI 0x2C 0x84 0x4E20 (.acc .one .any)) = true ∧
    meetsB base (form3 0x2D 0x85 0xF8 0 (.dst .one .any) (.src .one .any) .unused) = true ∧
    meetsB base (addaForm 0x06 0x82 0xF9) = true ∧ meetsB base (subaForm 0x86 0x82 0x84) = true := by decide +kernel

theorem witness_LaneExchange :
    (shuffles.all fun e => meetsB (base [(4, 15)]) (laneForm e.2.1 0x05 0xF9 0x84 (.dst .one .t) (.src .one .lane) (.src .one e.2.2.1))
      (shuffleReads e.2.2.2)) = true ∧
    meetsB (base [(4, 15)]) (laneForm 0x34 0x85 0xF9 0x84 (.dst .one .any) (.src .one .lane) (.src .one .uniform)) bcastReads = true ∧
    meetsB base (voteForm 0x35 0x85 0xF9 .one) = true ∧ meetsB base (voteForm 0x36 0x85 0xF9 .one) = true ∧
    meetsB base (voteForm 0x37 0x86 0xF9 (.regs 2 true)) = true := by
  refine ⟨?_, ?_, ?_, ?_, ?_⟩ <;> decide +kernel

/-- A ballot of the threads whose lane operand is not 0 exists. -/
theorem witness_ballot : ∃ ballot : Ctx → DWord, ∀ c, threadsOf (ballot c) = voters c := by
  refine ⟨fun c => c.active &&& BitVec.ofNat 64 (Nat.ofBits (n := 64) fun i => c.read c.a i != 0), fun c => ?_⟩
  simp only [threadsOf, voters, List.filter_filter]
  apply List.filter_congr
  intro i hi
  have hi : i < 64 := by simpa using hi
  simp only [inMask, BitVec.getLsbD_and, BitVec.getLsbD_ofNat, hi, decide_true, Bool.true_and, Nat.testBit_ofBits_lt _ _ hi]
  rw [Bool.and_comm]

theorem witness_ReductionsAndScans :
    (reductions.all fun e => meetsB base (reduceForm e.2.1 0x85 0xF9)) = true ∧
    (scans.all fun e => meetsB (base [(4, 1)]) (scanForm e.2.1 0x05 0xF9 0x84)) = true := by decide +kernel

theorem witness_FloatResults :
    (floats2.all fun e => meetsB base (plain2 e.2.1 0x05 0x83 0x84)) = true ∧
    (fused.all fun e => meetsB base (fmaForm e.2.1 0x05 0x83 0x84)) = true ∧
    (floats1.all fun e => meetsB base (plain1 e.2.1 0x85 0x83)) = true ∧
    (floatCompares.all fun e => meetsB base (fcompareForm e.2.1 0 0x83 0x84)) = true ∧
    meetsB base (cvtfiForm 0x85 0x83) = true ∧ meetsB base (cvtifForm 0x85 0x83) = true := by
  refine ⟨?_, ?_, ?_, ?_, ?_, ?_⟩ <;> decide +kernel

/-! ## Witnesses: state of results and control -/

theorem witness_QuantAndDeq :
    (let s := base [(4, 0x04), (5, 0x44)]
     runsB s (quantForm 0x06 0x02 0x84) descriptorReads && runsB s (deqForm 0x06 0x82 0x85) descriptorReads &&
      quantBad (desc (s.ctxOf (quantForm 0x06 0x02 0x84) (gp s))) 16 == false &&
      deqBad (desc (s.ctxOf (deqForm 0x06 0x82 0x85) (gp s))) == false &&
      (s.ctxOf (quantForm 0x06 0x02 0x84) (gp s)).beyond (.t 2) (quantElements (s.ctxOf (quantForm 0x06 0x02 0x84) (gp s))) == false &&
      (s.ctxOf (deqForm 0x06 0x82 0x85) (gp s)).beyond (.t 6) (deqElements (s.ctxOf (deqForm 0x06 0x82 0x85) (gp s))) == false) = true ∧
    (let s := base [(4, 0xFFFFFFFF)]
     runsB s (quantForm 0x06 0x02 0x84) descriptorReads && runsB s (deqForm 0x06 0x82 0x84) descriptorReads &&
      quantBad (desc (s.ctxOf (quantForm 0x06 0x02 0x84) (gp s))) 16 && deqBad (desc (s.ctxOf (deqForm 0x06 0x82 0x84) (gp s)))) = true := by
  decide +kernel

/-- Invalid set and enabled. -/
def flagged (s : State) : State :=
  s.onGroup 2 fun g => g.onArch fun a => { a with sticky := 1, mode := a.mode ||| 0x0000800000000000#64 }

theorem witness_StickyAndWideFloat :
    (runsB base tfenceForm && (gp base).arch.sticky.toNat &&& modeTen (gp base).arch.mode == 0) = true ∧
    (runsB (flagged base) tfenceForm && (gp (flagged base)).arch.sticky.toNat &&& modeTen (gp (flagged base)).arch.mode != 0) = true ∧
    (runsB base (fflagsForm 0x85 0x83) && runsB base (fflagsForm 0xF8 0xF8)) = true ∧ base.group? base.cur = some (gp base) := by
  decide +kernel

theorem witness_NopModeSetix :
    (runsB base nopForm && runsB base (modeForm 0 0x70) && runsB base (modeForm 8 1) && runsB base (setixForm 1 0x83) &&
      runsB base (setixForm 3 0xFD)) = true := by decide +kernel

theorem witness_RankAndPredicates :
    (meetsB base (rankForm 0x85 0x03) (fun c => { c.activeReads with a := [] }) &&
      meetsB base (rankForm 0x05 0x03) (fun c => { c.activeReads with a := [] }) && meetsB base (psetForm 7 0xF9) &&
      meetsB base (predForm 0x0D 1 0 9) && meetsB base (predForm 0x0E 1 0 15)) = true := by decide +kernel

theorem witness_BranchesAndCalls :
    (let s := base [(2, 0x20010)]
     runsB s (brForm 0xFFFF) && runsB s (condForm 0x06 0x82 5) && runsB s (condForm 0x07 0xF8 5) && runsB s (callForm 0x84 5) &&
      runsB s (retForm 0x82) && runsB s (retForm 0x84)) = true ∧
    (let s := base [(2, 0x20012)]
     runsB s (retForm 0x82) && decide ((s.ctxOf (retForm 0x82) (gp s)).readPair (.g 2) 0 % 4 ≠ 0)) = true := by decide +kernel

/-- Predicate 0 holds for the threads of a mask. -/
def voting (m : DWord) (s : State) : State :=
  s.onGroup 2 fun g => g.onArch fun a =>
    { a with p := a.p.set 0 (.perThread ((List.range 16).map fun i => (if inMask m i then 1 else 0, true))) }

theorem witness_DivergenceReconverges :
    (let s := voting 0x00FF base
     runsB s (brdForm 0 5) && (gp s).arch.stack.isEmpty &&
      (let x := s.ctxOf (brdForm 0 5) (gp s)
       maskOf 64 (fun t => x.read x.d t != 0) &&& (gp s).arch.mask == 0x00FF#64) &&
      runsB (after (.brd 0 5) s) reconvForm && runsB (after .reconv (after (.brd 0 5) s)) reconvForm) = true := by decide +kernel

theorem witness_ThreadMerge :
    (let s := voting 0x00FF base
     runsB s (mergeForm 0x05 0) && runsB s (mergeForm 0 0x800) && runsB s (mergeForm 0x05 0x5000) && runsB s (mergeForm 0x06 1)) = true := by
  decide +kernel

/-- Two arrivals at a merge of m3. -/
def arrived (pol : Nat) (v w : Word) : List (Group × Arrival) :=
  [(gp base, ⟨2, 3, pol, false, false, [v], 0, 0⟩), ({ gp base with id := 3, gix := 1 }, ⟨3, 3, 0, false, false, [w], 0, 0⟩)]

theorem witness_TeamMerge :
    ((arrived 0 7 7).head?.isSome && (base.team? 1).isSome &&
      ((arrived 1 7 7).filter fun x => x.2.pol != 1).length == 1 && ((arrived 0 7 8).filter fun x => x.2.val != [7]).length == 1) = true := by
  decide +kernel

theorem witness_CrumbWrites :
    ((0x00FF#64 != 0) && (0x00FF#64 != lowMask 16) && (threadsOf 0x00FF#64).all (fun i => decide (i < 16))) = true ∧
    (∀ i, inMask 0x00FF#64 i = true → i < 16) := by
  refine ⟨by decide +kernel, fun i h => ?_⟩
  by_contra hn
  rw [inMask, BitVec.getLsbD] at h
  have : (0x00FF#64).toNat < 2 ^ i := Nat.lt_of_lt_of_le (by decide : _ < 2 ^ 16) (Nat.pow_le_pow_right (by decide) (by omega))
  rw [Nat.testBit_lt_two_pow this] at h
  cases h

/-! ## Witnesses: memory -/

theorem witness_ReadsOnlyMark : base.mem.wf = true := by decide +kernel

theorem witness_AccessChecks :
    ((base.teamOf (gp base)).launch.tmem == 2048 && decide (5 % 4 ≠ 0) && decide (2048 < 2048 + 4) && decide (2044 + 4 ≤ 2048) &&
      !((base.teamOf (gp base)).tags.any fun t => t.1 == 2044 / 16)) = true ∧
    (let s := base.onTeam 1 fun t => { t with tags := [(4, .barrier)] }
     (s.teamOf (gp s)).tags.any fun t => t.1 == 64 / 16) = true := by decide +kernel

def loadMeets (s : State) (f : Form) (float : Bool) (tgt : Ctx → Nat → Target7) : Bool :=
  runsB s f && (failures (loadTries s (gp s) (s.ctxOf f (gp s)) float tgt).2).isEmpty

def storeMeets (s : State) (f : Form) (float : Bool) (tgt : Ctx → Nat → Target7) : Bool :=
  runsB s f && (failures (storeTries s (gp s) (s.ctxOf f (gp s)) float tgt).2).isEmpty

theorem witness_LoadsStart :
    (let s := base [(4, 0x40000), (6, 2044)]
     loadMeets s (loadForm 0x60 false 0x05 0 0x84) false (globalTarget 0) && loadMeets s (loadForm 0x61 true 0x85 7 0x84) true (globalTarget 7) &&
      loadMeets s (loadForm 0x60 false 0xC1 0 0x84) false (globalTarget 0) && loadMeets s (loadForm 0x60 false 0xF8 0 0x84) false (globalTarget 0) &&
      loadMeets s (teamForm 0x64 (.dst .typed .any) 0x85 0x86 0xF8) false Ctx.teamTarget &&
      loadMeets s (teamForm 0x65 (.dst .one .any) 0x05 0x86 0xF8) true Ctx.teamTarget) = true := by decide +kernel

theorem witness_StoresStart :
    (let s := base [(4, 0x40000), (6, 2044)]
     storeMeets s (storeForm 0x62 false 0x05 0 0x84) false (globalTarget 0) && storeMeets s (storeForm 0x63 true 0x85 7 0x84) true (globalTarget 7) &&
      storeMeets s (teamForm 0x66 (.src .typed .any) 0x85 0x86 0xF8) false Ctx.teamTarget &&
      storeMeets s (teamForm 0x67 (.src .one .any) 0x05 0x86 0xF8) true Ctx.teamTarget) = true := by decide +kernel

/-- A tile descriptor in g8 to g11: offset 64, 2 rows of 16 bytes, 64 apart, pitch 16. -/
def tiled : State := base [(4, 0x40000), (8, 64), (9, 0x100002), (10, 64), (11, 16)]

/-- Translation register 1 holds the page of the address in g4; g6 is an offset in it. -/
def framed (s : State) : State := after (.xlt 1 0x84) s

def byFrameB (s : State) (g : Group) (x : BitVec 3) (off : Word) (w : Nat) (write : Bool) : Bool :=
  let r := g.arch.xl.getD x.toNat XReg.zero
  r.framePath off w write && decide (r.va off < 2 ^ 52) && s.routeLost (r.frame.toNat + off.toNat) == false &&
    r.frame.toNat % pageSize r.pgsz.toNat == r.vbase.toNat % pageSize r.pgsz.toNat && Pte.ck r.pte.toNat == 0 &&
    (!write || Pte.z r.pte.toNat == false)

theorem byFrame_of {s : State} {g : Group} {x : BitVec 3} {off : Word} {w : Nat} {write : Bool} (h : byFrameB s g x off w write = true) :
    byFrame s g x off w write := by
  simp only [byFrameB, Bool.and_eq_true, beq_iff_eq, decide_eq_true_eq, Bool.or_eq_true, Bool.not_eq_true'] at h
  obtain ⟨⟨⟨⟨⟨h1, h2⟩, h3⟩, h4⟩, h5⟩, h6⟩ := h
  refine ⟨h1, h2, h3, h4, h5, fun e => ?_⟩
  rcases h6 with h6 | h6
  · rw [e] at h6; cases h6
  · exact h6

def rowsByFrameB (s : State) (c : Ctx) (x : BitVec 3) (t : Tile) (write : Bool) : Bool :=
  (List.range t.rows).all fun i => decide (0 ≤ rowOffset c t i) && decide (rowOffset c t i < 2 ^ 31) &&
    byFrameB s c.g x (BitVec.ofInt 32 (rowOffset c t i)) t.rowBytes write &&
    decide (((c.g.arch.xl.getD x.toNat XReg.zero).va (BitVec.ofInt 32 (rowOffset c t i))) % 0x10000 + t.rowBytes ≤ 0x10000)

theorem rowsByFrame_of {s : State} {c : Ctx} {x : BitVec 3} {t : Tile} {write : Bool} (h : rowsByFrameB s c x t write = true) :
    rowsByFrame s c x t write := by
  intro i hi
  have h := List.all_eq_true.mp h i (List.mem_range.mpr hi)
  simp only [Bool.and_eq_true, decide_eq_true_eq] at h
  exact ⟨h.1.1.1, h.1.1.2, byFrame_of h.1.2, h.2⟩

/-- The tile instruction meets what TilesStart asks, with its rows translated, or by the frame path. -/
def tileMeets (s : State) (f : Form) (x : BitVec 3) (e : Nat) (tr load frame : Bool) : Bool :=
  let g := gp s
  let c := s.ctxOf f g
  let t := tileDesc c e tr
  let r := tileTries (s.putGroup (g.markEmpty c c.d 1)) g c (if load then .read else .write) x t
  runsB s f && g.replay.isNone && (t.check c.tm load).isNone &&
    if frame then rowsByFrameB s c x t (!load)
    else r.2.fault.isNone && (!load ||
      (r.1.allSources (t.rowVa ((g.arch.xl.getD x.toNat XReg.zero).va (c.read c.b 0))) 0 r.2.done).2.isNone)

theorem witness_TilesStart :
    (tileLoads.all fun e => tileMeets tiled (tileForm e.2.1 0x88 0 0x84) 0 e.2.2.1 e.2.2.2 true false &&
      tileMeets (framed tiled) (tileForm e.2.1 0x88 1 0x86) 1 e.2.2.1 e.2.2.2 true true) = true ∧
    (tileMeets tiled (tileForm 0x6B 0x88 0 0x84) 0 1 false false false &&
      tileMeets (framed tiled) (tileForm 0x6B 0x88 1 0x86) 1 1 false false true) = true := by
  refine ⟨?_, ?_⟩ <;> decide +kernel

/-- Addresses whose translation passes, and does not. -/
def translates (s : State) (va : Nat) : Bool :=
  match (s.translate (s.teamOf (gp s)).ctx (s.coreOf (gp s)) (gp s).priv va .read).2 with
  | .ok _ => true
  | .error _ => false

theorem witness_TranslationRegisters :
    (let s := base [(4, 0x40000), (6, 0x90000)]
     runsB s (xltForm 0 0x84) && runsB s (xltForm 7 0x86) && runsB s (xlinvForm 7) && translates s 0x40000 && !translates s 0x90000) = true := by
  decide +kernel

theorem witness_CachesAndDiscard :
    (let s := base [(4, 0x40000)]
     runsB s (lineForm 0x6E 0 0x84) && runsB s (lineForm 0x71 0 0x84) && runsB s (lineForm 0x72 0 0x84) && s.mem.wf &&
      runsB s (discardForm 0 0x84) && (gp s).wait.isNone && !bitAt (s.contextOf (s.teamOf (gp s))).flags.toNat 0) = true ∧
    (let s := framed (base [(4, 0x40000), (6, 8)])
     s.reductions.isEmpty && s.mem.wf && ([0x71, 0x72].all fun op =>
      runsB s (lineForm op 1 0x86) && (gp s).replay.isNone && (threadsOf (s.ctxOf (lineForm op 1 0x86) (gp s)).active).all fun i =>
        byFrameB s (gp s) 1 ((s.ctxOf (lineForm op 1 0x86) (gp s)).read (s.ctxOf (lineForm op 1 0x86) (gp s)).b i) 1 false)) = true ∧
    (let s := (framed (base [(4, 0x40000), (6, 8)])).onContext 1 fun c => { c with flags := 1 }
     let c := s.ctxOf (discardForm 1 0x86) (gp s)
     runsB s (discardForm 1 0x86) && bitAt (s.contextOf (s.teamOf (gp s))).flags.toNat 0 && (gp s).wait.isNone && (gp s).replay.isNone &&
      byFrameB s (gp s) 1 (c.read c.b 0) 1 true && s.reductions.isEmpty && s.mem.wf &&
      (match s.walk c.tm.ctx (c.xlTarget 1 0 (c.read c.b 0)).addr with
        | .ok _ => true
        | .error _ => false) &&
      (match (s.spot Memo.none (gp s) (c.xlTarget 1 0 (c.read c.b 0)) 1 .drop false).2.2 with
        | .ok _ => true
        | .error _ => false) &&
      (let t := after (.discard 1 0x86) s
       let u := { t with shootdowns := [] }
       runsB u (discardForm 1 0x86) && (gp u).wait.any fun w => w.result.isNone)) = true := by
  refine ⟨?_, ?_, ?_⟩ <;> decide +kernel

/-- A WAITMEM whose expected word is in g9, with its limit in g10: 0 the word differs, 1 it is as expected before the limit, 2 at it. -/
def waiting (expect ticks : Word) : Nat :=
  let s := base [(4, 0x40000), (9, expect), (10, ticks)]
  let f := waitmemForm 0x88 0 0x84
  let g := gp s
  let c := s.ctxOf f g
  if !runsB s f || g.wait.isSome then 9
  else
    match s.arm g (pairOf (c.read (.g 10) 0) (c.read (.g 11) 0)) with
    | none => 9
    | some dl =>
      let w := wordWait s c 0 dl
      let k := { g with wait := some w }
      let r := ({ s with nextId := s.nextId + 1 }.putGroup k).spot Memo.none g (c.xlTarget 0 0 (c.read c.b 0)) 4 .read true
      match r.2.2 with
      | .error _ => 9
      | .ok p =>
        match r.1.spotSource p 4 with
        | .error _ => 9
        | .ok src =>
          let q := watching r.1 k p.loc
          if wordOf (ofBytes (q.srcBytes k q.nextId src)) != expect then 0
          else if !s.expired g w then 1
          else if !g.arch.esc && decide (g.arch.timeouts < 15) then 2 else 9

theorem witness_WaitmemReturns : [waiting 1 100, waiting 0 100, waiting 0 0] = [0, 1, 2] := by decide +kernel

/-! ## Witnesses: what lands -/

/-- The oldest delivery of a state may land in its group. -/
def lands (s : State) : Bool :=
  match s.deliveries with
  | d :: _ =>
    s.deliveries.find? (·.id == d.id) == some d && s.group? d.gid == some (gp s) && s.mayDeliver d && (gp s).live && !(gp s).inImage &&
      (gp s).super == d.super &&
      match d.product with
      | .load ts _ _ => decide ts.Nodup && ((landing s (gp s) d).map (·.1)) == ts
      | .tile n _ _ e tr rows => decide (n < 64) && s.stores.all (fun x => x.gid != (gp s).id) &&
          (s.team? (gp s).team).any (fun tm => Memory.wf tm.mem) && (!tr || decide (1 ≤ e) && rows.all fun l =>
            (l.flatMap (s.srcBytes (gp s) d.id)).length % e == 0)
      | .full _ => true
      | .values _ => true
  | [] => false

theorem witness_ResultsLand :
    lands (after (.ldItype 0x85 0 0x84) (base [(4, 0x40000)])) = true ∧ lands (after (.ldItype 0x05 0 0x84) (base [(4, 0x40000)])) = true ∧
    lands (after (.ldt 0x88 0 0x84) tiled) = true ∧ lands (after (.ldtTr16 0x88 0 0x84) tiled) = true ∧
    lands (after (.stt 0x88 0 0x84) tiled) = true ∧
    ((base.team? 1).any fun tm => Memory.wf tm.mem) = true := by
  refine ⟨?_, ?_, ?_, ?_, ?_, ?_⟩ <;> decide +kernel

/-- A store is on its way and may be performed. -/
def stored (s : State) (reaches : Bool) : Bool :=
  match s.stores with
  | e :: _ =>
    s.mem.wf && s.flash.wf && s.teams.all (fun tm => Memory.wf tm.mem) && s.stores.find? (·.id == e.id) == some e && s.storeReady e &&
      e.reachesMemory (((s.team? e.team).map (·.launch.pair)).getD false) == reaches && e.seenAt.isNone &&
      s.stores.all (fun x => x.seenAt.isNone)
  | [] => false

theorem witness_StoresReachMemory :
    stored (after (.stItype 0x85 0 0x84) (base [(4, 0x40000), (5, 7)])) false = true ∧
    stored (after (.stItype 0x85 0 0x84) ((base [(4, 0x40000), (5, 7)]).onGroup 2 fun g => g.onArch fun a =>
      { a with mode := 0x00007FFF80032000#64 })) true = true ∧
    stored (after (.stsItype 0x85 0x86 0xF8) (base [(5, 7), (6, 64)])) true = true := by
  refine ⟨?_, ?_, ?_⟩ <;> decide +kernel

/-- An atomic of one address meets what AtomCompletes asks. -/
def atomMeets (s : State) (f : Form) (late : Ctx → Option Nat) (w : Ctx → Nat) : Bool :=
  let c := s.ctxOf f (gp s)
  let r := s.tryAll (gp s) ((atomThreads c).map fun k => (k, globalTarget 0 c k)) (w c) .write true
  runsB s f Ctx.activeReads late && (failures r.2).isEmpty && r.1.stores.isEmpty && decide (modeUse c.mode < 3) &&
    match byAddress (passes r.2) with
    | [(p, _)] => Pte.dom p.hit.pte != 2 && p.loc == .phys p.hit.pa
    | _ => false

theorem witness_AtomicsComplete :
    (let s := base [(4, 0x40000), (5, 1)]
     (intAtomics.all fun e => atomMeets s (atomForm e.2.1 .typed 0x05 0 0x84) (atomLate false) intWidth) &&
      atomMeets s (atomForm 0x80 .typed 0x85 0 0x84) (atomLate false) intWidth &&
      atomMeets s (atomForm 0x87 .twoTyped 0x06 0 0x84) (atomLate false) intWidth &&
      atomMeets s (atomForm 0x88 .one 0x05 0 0x84) (fun _ => none) floatWidth) = true := by decide +kernel

theorem witness_Reductions :
    (let s := base [(4, 0x40000), (5, 1)]
     reds.all fun e =>
      let f := redForm e.2.1 (if e.2.2.float then .one else .typed) 0x85 0 0x84
      let c := s.ctxOf f (gp s)
      let s1 := s.atomicReady (gp s) (modeUse c.mode == 4)
      runsB s f Ctx.activeReads (if e.2.2.float then fun _ => none else atomLate false) &&
        ((redTargets c 0).all fun y => y.2.addr == 0x40000) && decide (s1.reserved c.tm.ctx + (redTargets c 0).length ≤ 256)) = true ∧
    (let s := after (.redAdd 0x85 0 0x84) (base [(4, 0x40000), (5, 1)])
     match s.reductions with
     | r :: _ => s.reductions.find? (·.id == r.id) == some r && s.stores.isEmpty && s.mayEnd r && r.fault.isNone && r.dom != 2 &&
        (match r.loc with
          | .phys _ => true
          | .team _ _ => false)
     | [] => false) = true ∧
    (let s := after (.redAdd 0x85 0 0x84) (base [(4, 0x90000), (5, 1)])
     match s.reductions with
     | r :: _ => s.reductions.find? (·.id == r.id) == some r && s.stores.isEmpty && s.mayEnd r && r.fault.isSome &&
        (s.context? r.ctx).isSome
     | [] => false) = true := by
  refine ⟨?_, ?_, ?_⟩ <;> decide +kernel

/-! ## Witnesses: barriers, queues and waits -/

/-- The state with a barrier word at offset 64. -/
def barred (expect arrived : Nat) (pend : Int) (s : State) : State :=
  s.onTeam 1 fun tm =>
    let tm := tm.initBarrier (64, expect)
    { tm with mem := tm.mem.write 64 (BarWord.bytes ⟨expect, arrived, 0, pend⟩) }

def canonicalB (s : State) : Bool := s.mem.wf && s.flash.wf && s.teams.all fun tm => Memory.wf tm.mem

/-- The offset of a barrier instruction is good, and its team and group are there after the release. -/
def offsetB (s : State) (f : Form) : Bool :=
  let c := s.ctxOf f (gp s)
  let r := (s.ownWrite (gp s) (offA c) 16).release (gp s) 1
  s.team? c.g.team == some c.tm && offA c % 16 == 0 && decide (offA c + 16 ≤ c.tm.launch.tmem) &&
    r.team? c.tm.id == some c.tm && (r.group? 2).isSome

theorem witness_Barriers :
    (let s := base [(4, 64), (5, 2)]
     runsB s (barInitForm 0x84 0x85) && canonicalB s && offsetB s (barInitForm 0x84 0x85) && !(s.teamOf (gp s)).tagged 64 &&
      runsB s (barInvalForm 0x84) && !(s.teamOf (gp s)).isBarrier 64) = true ∧
    (let s := barred 2 0 0 (base [(4, 64), (5, 2)])
     runsB s (barInvalForm 0x84) && canonicalB s && offsetB s (barInvalForm 0x84) && (s.teamOf (gp s)).isBarrier 64 &&
      runsB s (barArriveForm 0x88 0x84) && offsetB s (barArriveForm 0x88 0x84) && ((s.teamOf (gp s)).barWord 64).arrived == 0 &&
      runsB s (barExpectForm 0x84 0x85) && offsetB s (barExpectForm 0x84 0x85)) = true ∧
    (let s := barred 2 2 7 (base [(4, 64), (5, 2)])
     runsB s (barArriveForm 0x88 0x84) && ((s.teamOf (gp s)).barWord 64).arrived == 2 && ((s.teamOf (gp s)).barWord 64).expect == 2) = true ∧
    (let s := barred 2 2 (2 ^ 39 - 1) (base [(4, 64), (5, 1)])
     runsB s (barExpectForm 0x84 0x85) && canonicalB s && decide (2 ^ 39 ≤ ((s.teamOf (gp s)).barWord 64).pend + 1)) = true ∧
    (let s := barred 2 0 0 (base [(4, 64), (5, 2)])
     runsB s (barInitForm 0x84 0x85) && canonicalB s && offsetB s (barInitForm 0x84 0x85) && (s.teamOf (gp s)).tagged 64 &&
      (s.reductions.isEmpty && s.stores.isEmpty && s.deliveries.isEmpty)) = true := by
  refine ⟨?_, ?_, ?_, ?_, ?_⟩ <;> decide +kernel

/-- Offsets that are no multiple of 16, and that end past team memory. -/
theorem witness_barrier_faults :
    ((barriers 0x88 0x84 0x85).all fun e =>
      runsB (base [(4, 72), (5, 2)]) e.2 && offA ((base [(4, 72), (5, 2)]).ctxOf e.2 (gp (base [(4, 72), (5, 2)]))) % 16 != 0 &&
      (let s := base [(4, 2048), (5, 2)]
       runsB s e.2 && offA (s.ctxOf e.2 (gp s)) % 16 == 0 && decide ((s.teamOf (gp s)).launch.tmem < offA (s.ctxOf e.2 (gp s)) + 16))) = true := by
  decide +kernel

/-- A command of the group that is on its way. -/
def pending : Cmd :=
  { base.teamOf (gp base) |>.prooferCmd 0 0x40000 [0, 0, 0, 0] with id := 7, gid := 2, team := 1, ctx := 1, phase := .accepted }

/-- The group has closed a batch with it. -/
def batched (s : State) : State :=
  ({ s with cmds := [pending] }).onGroup 2 fun g => { g with batches := [⟨1, [7], false⟩], nextBatch := 2 }

/-- 64 batches are not reported. -/
def crowded (s : State) : State :=
  s.onGroup 2 fun g => { g with batches := List.replicate 64 ⟨1, [7], false⟩, nextBatch := 65 }

theorem witness_BatchesAndOrder :
    (runsB base (closeForm 0x88) && decide ((unreported (gp base)).length < 64) && runsB (crowded base) (closeForm 0x88) &&
      decide (64 ≤ (unreported (gp (crowded base))).length) && runsB base acqForm && runsB base relForm) = true := by decide +kernel

/-- Queue 0 with its header at offset 128 and a ring of 4 slots at 256, messages taken and not returned, and send entry 0 with
permits. -/
def queued (held permits head tail : Nat) (s : State) : State :=
  s.onTeam 1 fun tm =>
    let tm := tm.initQueue (0, 128, 256, 4)
    { tm with
      mem := ((tm.mem.write 136 (bytesOf 4 head)).write 140 (bytesOf 4 tail)).write 144 (bytesOf 4 held)
      queues := [⟨0, 128, 4⟩], sends := ⟨true, 0, 0, permits⟩ :: List.replicate 15 ⟨false, 0, 0, 0⟩ }

def qCase (s : State) (q : Word) : Bool := (s.openQueue 1 q.toNat).isSome

def asking (o : WaitObj) : Wait := ⟨o, [], 8, 0, false, false, 0, none⟩

theorem witness_Queues :
    (let s := queued 2 1 0 0 (base [(5, 3), (4, 0), (6, 9)])
     runsB s (qcreditForm 0x88 0x84 0x85) && canonicalB s && s.team? (gp s).team == some (s.teamOf (gp s)) && qCase s 0 &&
      runsB s (qcreditForm 0x88 0x86 0x85) && !qCase s 9) = true ∧
    (let s := queued 2 1 0 0 base
     let tm := s.teamOf (gp s)
     (tm.sends[0]?).any (fun e => e.declared && e.permits == 1 && (s.targetTeam tm e.mix).any (fun t => t.holds && (s.openQueue t.id e.queue).isSome)) &&
      (s.openQueue 1 0).any (fun x => x.2.head == x.2.tail)) = true ∧
    (let s := queued 2 0 0 1 base
     (s.teamOf (gp s)).sends[0]?.any (fun e => e.permits == 0) && (s.openQueue 1 0).any (fun x => x.2.head != x.2.tail)) = true ∧
    (let s := queued 2 1 0 0 base
     let tm := s.teamOf (gp s)
     tm.sends[1]?.any (fun e => !e.declared) && tm.sends[16]?.isNone &&
      (let u := s.onTeam 1 fun tm => { tm with sends := ⟨true, 5, 0, 1⟩ :: List.replicate 15 ⟨false, 0, 0, 0⟩ }
       (u.teamOf (gp u)).sends[0]?.any fun e => e.declared && (u.targetTeam (u.teamOf (gp u)) e.mix).isNone) &&
      (let u := s.onTeam 1 fun tm => { tm with life := .stopped }
       let v := u.teamOf (gp u)
       v.sends[0]?.any fun e => e.declared && (u.targetTeam v e.mix).any fun t => !t.holds) &&
      (let u := s.onTeam 1 fun tm => { tm with queues := [] }
       let v := u.teamOf (gp u)
       v.sends[0]?.any fun e => e.declared && (u.targetTeam v e.mix).any fun t => t.holds && (u.openQueue t.id e.queue).isNone)) = true ∧
    open' (asking (.send 0 [1, 2, 3, 4])) (.send 0 [1, 2, 3, 4]) ∧ open' (asking (.receive 0)) (.receive 0) := by
  refine ⟨?_, ?_, ?_, ?_, ⟨rfl, rfl⟩, ⟨rfl, rfl⟩⟩ <;> decide +kernel

/-- Which clause of WaitClaim a state meets: 0 satisfied, 1 waits, 2 times out, 9 none. -/
def waitCase (s : State) (f : Form) (k : WaitSpec) : Nat :=
  let g := gp s
  let c := s.ctxOf f g
  if !runsB s f || g.wait.isSome then 9
  else
    match s.arm g (k.pair c) with
    | none => 9
    | some dl =>
      let s1 := k.started s c
      let w := k.wait s c dl
      match s1.satisfied g w with
      | some (s2, ws) => if (s2.group? g.id).isSome ∧ (ws.map (·.1)).Nodup then 0 else 9
      | none =>
        if s1.expired g w then
          (if !g.arch.esc ∧ g.arch.timeouts < 15 ∧ ((s1.withdraw g w).2.map (·.1)).Nodup then 2 else 9)
        else 1

/-- The deadline is in g6, g7: 100 ticks of the context clock, or none. -/
def within (l : List (Nat × Word)) : State := base ([(6, 100)] ++ l)

theorem witness_barrier_waits :
    (let f := waitfForm 0x88 0x84 0x86
     (waitCase (barred 2 0 0 (within [(4, 64), (9, 1)])) f waitfSpec, waitCase (barred 2 0 0 (within [(4, 64), (9, 0)])) f waitfSpec,
      waitCase (barred 2 0 0 (base [(4, 64), (9, 0)])) f waitfSpec)) = (0, 1, 2) ∧
    offsetB (barred 2 0 0 (within [(4, 64)])) (waitfForm 0x88 0x84 0x86) = true ∧
    (let f := barWaitForm 0x88 0x84 0x86
     (waitCase (barred 1 0 0 (within [(4, 64)])) f barWaitSpec, waitCase (barred 2 0 0 (within [(4, 64)])) f barWaitSpec,
      waitCase (barred 2 0 0 (base [(4, 64)])) f barWaitSpec)) = (0, 1, 2) ∧
    offsetB (barred 2 0 0 (within [(4, 64)])) (barWaitForm 0x88 0x84 0x86) = true := by
  refine ⟨?_, ?_, ?_, ?_⟩ <;> decide +kernel

theorem witness_order_waits :
    (let f := waitbForm 0x88 0x84 0x86
     (waitCase (within [(4, 1)]) f waitbSpec, waitCase (batched (within [(4, 1)])) f waitbSpec, waitCase (batched (base [(4, 1)])) f waitbSpec)) =
      (0, 1, 2) ∧
    (let f := fenceForm 0x88 0x84 0x86
     (waitCase (within [(4, 1)]) f fenceSpec, waitCase (after (.ldItype 0x85 0 0x8A) (within [(4, 1), (10, 0x40000)])) f fenceSpec,
      waitCase (after (.ldItype 0x85 0 0x8A) (base [(4, 1), (10, 0x40000)])) f fenceSpec)) = (0, 1, 2) ∧
    (let f := acqRemForm 0x88 0x84 0x86
     (waitCase (within [(4, 1)]) f acqRemSpec, waitCase (base [(4, 1)]) f acqRemSpec)) = (1, 2) := by
  refine ⟨?_, ?_, ?_⟩ <;> decide +kernel

theorem witness_queue_waits :
    (let f := qsendForm 0x88 0x84 0x8C
     (waitCase (queued 0 1 0 0 (base [(10, 100)])) f qsendSpec, waitCase (queued 0 0 0 0 (base [(10, 100)])) f qsendSpec,
      waitCase (queued 0 0 0 0 base) f qsendSpec)) = (0, 1, 2) ∧
    (let f := qrecvForm 0x88 0x84 0x86
     (waitCase (queued 0 1 0 1 (within [])) f qrecvSpec, waitCase (queued 0 0 0 0 (within [])) f qrecvSpec,
      waitCase (queued 0 0 0 0 base) f qrecvSpec)) = (0, 1, 2) := by
  refine ⟨?_, ?_⟩ <;> decide +kernel

/-- The team has a child that has not retired. -/
def parent (s : State) : State := s.onTeam 1 fun tm => { tm with joinSet := [⟨0x40000, none, false⟩] }

/-- Accumulator name 3 holds bank 5, which a command of the team uses. -/
def draining (s : State) : State :=
  { s with
    cmds := [{ pending with func := 0x24, banks := [5] }], nextId := 9
    clusters := [⟨0, (0, 0), { Oven.free with maps := [⟨1, [[], [], [], [5]]⟩] }, Carousel.free⟩] }

theorem witness_other_waits :
    (let f := joinForm 0x88 0x86
     (waitCase (within []) f joinSpec, waitCase (parent (within [])) f joinSpec, waitCase (parent base) f joinSpec)) = (0, 1, 2) ∧
    (let f := shootForm 0x88 0x84 0x86
     (waitCase (sup (within [(4, 0x40000)])) f shootSpec, waitCase (sup (base [(4, 0x40000)])) f shootSpec)) = (1, 2) ∧
    (let f := accDrainForm 0x84 0x86 0x48
     (waitCase (within [(4, 3)]) f accDrainSpec, waitCase (draining (within [(4, 3)])) f accDrainSpec,
      waitCase (draining (base [(4, 3)])) f accDrainSpec)) = (0, 1, 2) := by
  refine ⟨?_, ?_, ?_⟩ <;> decide +kernel

/-- What the wait of the group gives on an object: the words, or nothing while it is not satisfied. -/
def gives (s : State) (o : WaitObj) : Option (List (Nat × Word)) := (s.satisfied (gp s) (asking o)).map (·.2)

/-- The command of batch 1 is over, with a status. -/
def ended (st : Word) (s : State) : State :=
  let s := batched s
  { s with cmds := s.cmds.map fun c => { c with phase := .done, status := st } }

/-- The children of the team: one ended with a status, one was refused. -/
def childrenEnded (s : State) : State :=
  s.onTeam 1 fun tm => { tm with joinSet := [⟨0x40000, some 7, false⟩, ⟨0x50000, some 0, false⟩] }

/-- Each object satisfied and not satisfied, with the words that the rules give. -/
theorem witness_WaitObjects :
    [gives base (.barrier 64 0 false), gives (barred 2 0 0 base) (.barrier 64 1 false), gives (barred 2 0 0 base) (.barrier 64 0 false)] =
      [some [(8, 2)], some [(8, 0)], none] ∧
    [gives (ended 0 base) (.batches 1), gives (ended 4 base) (.batches 1), gives (batched base) (.batches 1)] =
      [some [(8, 0)], some [(8, 4)], none] ∧
    (let s := after (.ldItype 0x85 0 0x8A) (base [(10, 0x40000)])
     [gives s (.fence 2 1000), gives s (.fence 1 1000)]) = [some [(8, 2)], none] ∧
    [gives base (.promote none 3), gives { base with promotions := [⟨3, 2, []⟩] } (.promote none 3)] = [some [(8, 0)], none] ∧
    (let s := { base with shootdowns := [⟨3, 1, 0x40000, 2⟩] }
     [gives base (.shoot 0x40000 3), gives s (.shoot 0x40000 3), gives base (.discard 0x40000 3), gives s (.discard 0x40000 3)]) =
      [some [(8, 0)], none, some [], none] ∧
    [gives (childrenEnded base) .join, gives (parent base) .join] = [some [(8, 7), (9, 1)], none] ∧
    [gives base (.drain 3 [7]), gives (draining base) (.drain 3 [7])] = [some [(8, 0)], none] ∧
    [gives base .yielded, gives (base.onTeam 1 fun tm => { tm with life := .stopping }) .yielded] = [some [(8, 1)], none] ∧
    [gives base (.merge 3), gives base (.word 0x40000 0 0 0), gives base .swap, gives base (.carAcq 3), gives base (.carProp 3)] =
      [none, none, none, none, none] ∧
    (base.satisfied (gp base) { asking .swap with result := some [(8, 1)] }).map (·.2) = some [(8, 1)] := by
  refine ⟨?_, ?_, ?_, ?_, ?_, ?_, ?_, ?_, ?_, ?_⟩ <;> decide +kernel

/-! ## Witnesses: tasks and traps -/

/-- The group is found after a task operation. -/
def taskMeets (s : State) (f : Form) (op : State → Ctx → State × Nat) : Bool :=
  runsB s f && ((op s (s.ctxOf f (gp s))).1.group? 2).isSome

theorem witness_Tasks :
    (let s := base [(4, 0x40000), (6, 0x40080), (8, 0x40800), (10, 0), (12, 1000)]
     taskMeets s (tcbNewForm 0x8E 0x84 0x88) (fun s c => tcbNew c.g (vaA c) (c.readPair c.b 0) (c.read (c.b.above 2) 0) (c.read (c.b.above 3) 0) s) &&
      taskMeets s (tcbSuccForm 0x8E 0x84 0x86) (fun s c => tcbSucc c.g (vaA c) (vaB c) s) &&
      taskMeets s (tcbSubmitForm 0x8E 0x84) (fun s c => submitTcb c.g (vaA c) s) &&
      taskMeets s (tcbDoneForm 0x8E 0x84) (fun s c => tcbDone c.g (vaA c) s) &&
      taskMeets s (bintimeForm 0x8E 0x88 0x8C) bintimeOp) = true ∧
    (let s := base
     let b := ((s.bringIn 1 0x40000 128).settleVa (gp s) 0x40000 128).readTcb 1 0x40000
     (match b.2 with
      | .ok x => fieldOf x 0x14 1 == 0 && fieldOf x 0x10 4 == 0
      | .error _ => false) && (submitTcb (gp s) 0x40000 s).2 == 0) = true ∧
    (let s := (submitTcb (gp base) 0x40000 base).1
     match (((s.settleVa (gp s) 0x40000 128).readTcb 1 0x40000)).2 with
     | .ok x => fieldOf x 0x14 1 == 1
     | .error _ => false) = true := by
  refine ⟨?_, ?_, ?_⟩ <;> decide +kernel

/-- Bytes of the page at VA 0x40000, which lies at 0x120000. -/
def noted (l : List (Nat × List Byte)) (s : State) : State :=
  { s with mem := l.foldl (fun (m : Memory) x => m.write (0x120000 + x.1) x.2) s.mem }

/-- What a TCB at VA 0x40000 + off says: its STATE, PREDS, room for successors beyond eight, and how many it lists. -/
def tcbSays (s : State) (off : Nat) : Option (Nat × Nat × Nat × Nat) :=
  match (tcbRead s (gp s) (dwordOf (0x40000 + off))).2 with
  | .ok b => some (fieldOf b 0x14 1, fieldOf b 0x10 4, fieldOf b 0x20 2, fieldOf b 0x16 2)
  | .error _ => none

theorem witness_TaskStatuses :
    [tcbSays base 0, tcbSays (noted [(0x14, [2])] base) 0, tcbSays (noted [(0x10, [1])] base) 0, tcbSays base 0x50000] =
      [some (0, 0, 0, 0), some (2, 0, 0, 0), some (0, 1, 0, 0), none] ∧
    (submitTcb (gp base) 0x40000 base).2 = 0 ∧
    [tcbSays (noted [(0x14, [4])] base) 0, tcbSays (noted [(0x16, [8])] base) 0] = [some (4, 0, 0, 0), some (0, 0, 0, 8)] ∧
    (let s := noted [(0x14, [4])] base
     let t := (tcbRead s (gp s) 0x40000).1
     (tcbSays t 0x80, tcbSays t 0x50000)) = (some (0, 0, 0, 0), none) := by
  refine ⟨?_, ?_, ?_, ?_⟩ <;> decide +kernel

/-- A launch record at VA 0x40800 of one team of a number of groups of 16 threads, for SPAWN or not. -/
def recorded (groups : Nat) (spawn : Byte) (s : State := base [(4, 0x40800)]) : State :=
  noted [(0x800, bytesOf 8 0x20000 ++ [1, 0] ++ bytesOf 2 groups ++ [16, spawn, 0, 1, 8, 8, 0, 0] ++ bytesOf 4 2048 ++ zeroBytes 52 ++
    bytesOf 4 0x10000 ++ zeroBytes 176)] s

/-- Die 0 has 64 bins. -/
def binsFull (s : State) : State :=
  { s with dies := [{ s.dieRec 0 with
    bins := (List.range 64).map fun n => ⟨9, dwordOf n, 0x40000, (s.teamOf (gp s)).launch, [], 5, none, 0, true⟩ }] }

/-- What BINTIME finds: 0 an unreadable record, 1 a bad one, 2 one that is no spawn record of one group, 3 no bin left, 4 a bin. -/
def binCase (s : State) (va : DWord) : Nat :=
  match s.readRecord 1 0 false va with
  | (_, .unreadable) => 0
  | (_, .fails _) => 1
  | (t, .good x) =>
    if !(x.spawn && x.groups == 1) then 2
    else if (t.bin? 0 (1, x.entry)).isNone && decide (64 ≤ (t.dieRec 0).bins.length) then 3 else 4

theorem witness_BinTimeStatuses :
    [binCase base 0x90000, binCase base 0x40800, binCase (recorded 1 0) 0x40800, binCase (binsFull (recorded 1 2)) 0x40800,
      binCase (recorded 1 2) 0x40800] = [0, 1, 2, 3, 4] := by decide +kernel

theorem witness_SpawnThreads :
    (let f := spawnForm 0x05 0x84 0xF9
     runsB (base [(4, 0x40800)]) f && runsB (base [(5, 0x100000)]) f && runsB (base [(4, 0x40801)]) f &&
      ((spawnOp (base [(4, 0x40800)]) ((base [(4, 0x40800)]).ctxOf f (gp (base [(4, 0x40800)])))).1.group? 2).isSome) = true := by
  decide +kernel

/-- A FORK of n children listed at offset 64, STAY in bit 31; the team has m children. -/
def forking (n : Word) (stay : Word) (m : Nat) : State :=
  (base [(8, n), (4, 64 + stay), (6, 100)]).onTeam 1 fun tm => { tm with joinSet := List.replicate m ⟨0x40000, none, false⟩ }

def forkMeets (s : State) : Bool :=
  let f := forkForm 0x88 0x84 0x86
  let c := s.ctxOf f (gp s)
  let r := s.forkAll (gp s) (forkList s c)
  runsB s f && (gp s).wait.isNone && bits (offA c) 18 13 == 0 && c.read c.d 0 != 0 && decide ((c.read c.d 0).toNat ≤ 64) &&
    decide (bits (offA c) 0 18 + 8 * (c.read c.d 0).toNat ≤ c.tm.launch.tmem) && (r.1.group? 2).isSome &&
    (r.1.team? 1).any (fun tm => tm.life == .running) && (s.arm (gp s) 100).isSome

/-- A team waits in the placement queue that fits on the core only without the group's team. -/
def crowdedCore (s : State) : State :=
  let tm := s.teamOf (gp s)
  let q : Team := { tm with id := 5, mix := 1, life := .queued, core := none, launch := { tm.launch with tmem := 126976 } }
  { s with teams := s.teams ++ [q], dies := [{ s.dieRec 0 with fresh := [5] }] }

theorem witness_ChildrenAndYield :
    (forkMeets (forking 2 0x80000000 63) && forkMeets (forking 2 0x80000000 62) && forkMeets (forking 64 0 0)) = true ∧
    (runsB base (yieldForm 0x88) && (gp base).wait.isNone && !base.mustYield (base.teamOf (gp base)) 0) = true ∧
    (let s := crowdedCore base
     runsB s (yieldForm 0x88) && s.mustYield (s.teamOf (gp s)) 0 && (s.team? 1).any (fun tm => tm.life == .running)) = true := by
  refine ⟨?_, ?_, ?_⟩ <;> decide +kernel

/-- The context with flags and a handler. -/
def handled (flags : Word) (s : State) : State := s.onContext 1 fun c => { c with flags, trapVec := 0x20000 }

/-- The save area of the group can be written. -/
def savable (s : State) : Bool :=
  match (s.span 1 0 1 .write ((s.teamOf (gp s)).groupSave 0) 0xE000).2 with
  | .ok _ => true
  | .error _ => false

/-- Core 0 is using its emergency area, which lies where no access reaches. -/
def urgent (s : State) : State := { s with cores := [{ s.coreRec 0 with emergUse := some 9, emerg := 0x700000000000 }] }

/-- The context has no page for the save area. -/
def unsaved (s : State) : State := s.onContext 1 fun c => { c with root := 0x900000 }

theorem witness_ExitAndTrap :
    (let s := base [(4, 7)]
     runsB s (exitForm 0x84) && runsB s (exitForm 0xF8) && runsB s (trapForm' 0x84) && runsB s brkForm &&
      !bitAt (s.contextOf (s.teamOf (gp s))).flags.toNat 1 && !(gp s).super) = true ∧
    (let s := handled 2 base
     runsB s brkForm && bitAt (s.contextOf (s.teamOf (gp s))).flags.toNat 1 && savable s && !(gp s).super) = true ∧
    (let s := unsaved (handled 2 base)
     runsB s brkForm && !savable s && (s.coreRec 0).emergUse.isNone && s.trapVec (gp s) != 0) = true ∧
    (let s := unsaved ((base).onContext 1 fun c => { c with flags := 2 })
     runsB s brkForm && !savable s && (s.coreRec 0).emergUse.isNone && s.trapVec (gp s) == 0) = true := by
  refine ⟨?_, ?_, ?_, ?_⟩ <;> decide +kernel

/-- A translation faults, and the core's emergency area is still in use. -/
def lost (r : State × Stale × Except MFault Hit) : Bool :=
  match r with
  | (s, _, .error _) => (s.coreRec 0).emergUse.isSome
  | (_, _, .ok _) => false

/-- BRK under DEBUG where the image cannot be written and the emergency area is in use. -/
theorem witness_brk_stalls :
    let s := urgent (unsaved (handled 2 base))
    runsB s brkForm = true ∧ bitAt (s.contextOf (s.teamOf (gp s))).flags.toNat 1 = true ∧ (gp s).super = false ∧
    ∃ u e, { s with hearthEvents := s.hearthEvents + 1 }.span 1 0 1 .write ((s.teamOf (gp s)).groupSave 0) 0xE000 = (u, .error e) ∧
      (u.coreRec 0).emergUse ≠ none := by
  intro s
  refine ⟨by decide +kernel, by decide +kernel, by decide +kernel, ?_⟩
  have key : lost ({ s with hearthEvents := s.hearthEvents + 1 }.translateOn [] 1 0 1 ((s.teamOf (gp s)).groupSave 0 + 0) .write) = true := by
    have hu : (s.coreRec 0).emergUse = some 9 := by decide +kernel
    have hu' : ({ s with hearthEvents := s.hearthEvents + 1 }.coreRec 0) = s.coreRec 0 := rfl
    have hc : Leaf.check ⟨Pte.frame (s.coreRec 0).emerg.toNat + 0xD5, 0, 0⟩ 1 .write = some ⟨0x0B, 0, Pte.frame (s.coreRec 0).emerg.toNat + 0xD5⟩ := by
      decide +kernel
    by_cases hv : (s.teamOf (gp s)).groupSave 0 + 0 < Config.emergVa 0 ∨ Config.emergVa 0 + 0x10000 ≤ (s.teamOf (gp s)).groupSave 0 + 0
    · have h : { s with hearthEvents := s.hearthEvents + 1 }.emergencyHit 0 1 ((s.teamOf (gp s)).groupSave 0 + 0) .write = none := by
        simp only [State.emergencyHit, hu', hu, if_pos hv]
      rw [State.translateOn, h]
      decide +kernel
    · have h : { s with hearthEvents := s.hearthEvents + 1 }.emergencyHit 0 1 ((s.teamOf (gp s)).groupSave 0 + 0) .write =
          some (.error ⟨0x0B, 0, Pte.frame (s.coreRec 0).emerg.toNat + 0xD5⟩) := by
        simp only [State.emergencyHit, hu', hu, if_neg hv, hc]
      rw [State.translateOn, h]
      decide +kernel
  simp only [State.span, State.spanFrom, State.translate]
  rw [if_neg (by decide)]
  generalize State.translateOn _ [] 1 0 1 ((s.teamOf (gp s)).groupSave 0 + 0) .write = r at key
  obtain ⟨u, k, e | x⟩ := r
  · refine ⟨u, (e, _), rfl, fun h => ?_⟩
    simp [lost, h] at key
  · cases key

theorem witness_TrapTaken :
    (savable base && savable (handled 0 base) && (base.trapVec (gp base) == 0) && (handled 0 base).trapVec (gp base) != 0 &&
      (gp (sup base)).super && (gp base).arch.ix.length == 3) = true := by decide +kernel

/-- A handler runs after a trap of a cause, with an image in the save area; g6 to g8 hold 1, 2 and 3. -/
def inHandlerOf (cause : Nat) (s : State := base [(6, 1), (7, 2), (8, 3)]) : State := (handled 0 s).onGroup 2 fun g =>
  { g with super := true, trapped := some ⟨0x20000, cause, 0, [none, none, none]⟩ }

def inHandler : State := inHandlerOf 0x0A

/-- A byte of the group's image, which lies at 0x112000, is set. -/
def imaged (off : Nat) (b : Byte) (s : State) : State := { s with mem := s.mem.write (0x112000 + off) [b] }

/-- The trapped load has threads 0 and 1 left to do. -/
def halfDone (s : State) : State := s.onGroup 2 fun g => { g with keptReplay := some ⟨3, 0, [0, 0, 0], [], []⟩ }

/-- What the group's image says: 0 it restores no program; else one more than the low bit of the threads that are left, the address
that the record names being good or (2 more) not. -/
def imageSays (s : State) : Nat :=
  match (s.flush (gp s)).imageSpan (gp s) .read with
  | (s1, .ok segs) =>
    if (s1.restoreFrom (gp s) segs 0).isNone then 0
    else 1 + s1.spanValue segs 0x0120 8 % 2 + (if s1.spanValue segs 0x0100 8 % 4 = 0 then 0 else 2)
  | (_, .error _) => 9

theorem witness_TrapReturn :
    ([0xF8, 0x86, 0x87, 0x88].all fun a => runsB inHandler (tretForm a)) = true ∧
    ((gp inHandler).trapped.any (fun t => t.cause != 0x02) && (gp inHandler).emergency.isNone) = true ∧
    [imageSays inHandler, imageSays (imaged 0x12 1 inHandler), imageSays (imaged 0x100 2 inHandler)] = [1, 0, 3] ∧
    [imageSays (halfDone (inHandlerOf 0x02)), imageSays (imaged 0x120 1 (halfDone (inHandlerOf 0x02)))] = [1, 2] := by
  refine ⟨?_, ?_, ?_, ?_⟩ <;> decide +kernel


theorem witness_HaltStopsContext :
    (runsB (sup (base [(4, 0x30)])) (haltForm 0x84) && (base.context? 1).isSome && !base.safety.frozen) = true := by decide +kernel

theorem witness_PrivilegeTraps :
    ((supervisor 0x88 0x84 0x8C).all (fun e => e.2.wordCheck.isNone) && base.group? base.cur == some (gp base) && !(gp base).super) = true := by
  decide +kernel

theorem witness_ClocksModesAndMarks :
    (let s := base [(4, 0x80012000), (5, 0x7FFF), (6, 0x60), (8, 1)]
     runsB s beatForm && runsB s (clockForm 0x8A 0x88) && runsB s (clockForm 0x8A 0xF8) && runsB s (modeRdForm 0x8A) &&
      runsB s (modeWrForm 0x84) && modeLegal ((s.ctxOf (modeWrForm 0x84) (gp s)).readPair (.g 4) 0 % 2 ^ 54) &&
      runsB s (modeWrForm 0x86) && !modeLegal ((s.ctxOf (modeWrForm 0x86) (gp s)).readPair (.g 6) 0 % 2 ^ 54) &&
      runsB s (snetForm 0x84 0x84) && (s.team? (gp s).team).isSome && !s.safety.frozen) = true ∧
    (let s := { base with safety := ⟨[], 0, true, 0⟩ }
     runsB s (snetForm 0x84 0x84) && s.safety.frozen) = true := by decide +kernel

theorem witness_SystemRegisters :
    ([0, 3, 0x40, 0x10, 0x31, 0x27, 0x41].all fun (n : Word) => let s := base [(4, n)]
      runsB s (sregRdForm 0x88 0x84) && runsB s (sregWrForm 0x84 0x85) && runsB (sup s) (sregRdForm 0x88 0x84) &&
        runsB (sup s) (sregWrForm 0x84 0x85)) = true ∧
    userSreg 0 ∧ userSreg 3 ∧ userSreg 0x40 ∧ superSreg 0x10 ∧ superSreg 0x31 ∧ superSreg 0x27 ∧ ¬ userSreg 0x41 ∧ ¬ superSreg 0x41 := by
  refine ⟨by decide +kernel, ?_⟩
  simp [userSreg, superSreg]

/-- A handler whose trapped instruction named a register, or a predicate, in slot d; the window has written t5 in thread 15. -/
def inWindow (sel : Word) (reg : Nat := 5) : State := (handled 0 (base [(4, sel), (8, 0x32000)])).onGroup 2 fun g =>
  { g with super := true, trapped := some ⟨0x20000, 0x06, 0, [some (reg, false), none, none]⟩, winWrites := [⟨5, 15, 7⟩] }

/-- What the window finds for the selector in g4. -/
def windowOf (sel : Word) (reg : Nat := 5) : Except Nat (Nat × Nat) :=
  let s := inWindow sel reg
  windowTarget (gp s) 16 sel.toNat ((s.ctxOf (winrdForm 0x8A 0x84 0x88) (gp s)).readPair (.g 8) 0 == s.windowHandle (gp s))

/-- The image of the handler's group is there. -/
def imageThere (s : State) (need : Need) : Bool :=
  match s.imageSpan (gp s) need with
  | (s1, .ok _) => (s1.group? 2).isSome
  | (_, .error _) => false

theorem witness_TrappedImage :
    (runsB (inWindow 15) (pidxForm 0x8A 0xF8) && runsB (inWindow 15) (pidxForm 0x8A 0x84) && imageThere (inWindow 15) .write &&
      imageThere (inWindow 15) .read) = true ∧
    ([5, 6, 0x83, 0xC1, 0xE1, 0xF8, 0x101].all fun r => runsB (inWindow 3 r) (winrdForm 0x8A 0x84 0x88) &&
      runsB (inWindow 3 r) (winwrForm 0x8A 0x84 0x88) && match windowOf 3 r with
        | .ok x => x == (r, 3)
        | .error _ => false) = true ∧
    (match windowOf 15, windowOf 16, windowOf 0x100 with
      | .ok (5, 15), .error 2, .error 3 => true
      | _, _, _ => false) = true := by
  refine ⟨?_, ?_, ?_⟩ <;> decide +kernel

/-! ## Witnesses: commands -/

/-- Accumulator names 0 to 15 of the team: name 0 holds bank 5. -/
def baked (s : State) : State :=
  { s with clusters := [⟨0, (0, 0), { Oven.free with maps := [⟨1, [5] :: List.replicate 15 []⟩] }, Carousel.free⟩] }

/-- n commands of the group are running. -/
def busy (n func : Nat) (s : State) : State := { s with cmds := List.replicate n { pending with func } }

/-- Two bf16 formats with a pitch of 16 at offset 0 of team memory; VA in g4, words in g8 to g11, an offset in g6, a tile's key in g7, an OV.TILE of g6, g7 without a reply in g15. -/
def commanding : State :=
  (baked (base [(4, 0x40000), (7, 1), (15, 0xD24343FF)])).onTeam 1 fun t =>
    { t with mem := Memory.write (Memory.write t.mem 0x14 [16]) 0x34 [16] }

theorem witness_EngineIssue :
    (copies.all fun e =>
      let f := coForm e.2.1 0x84 0x88 0x4E (.reply 1) (if e.2.2.1 then .va else .uniform) (blockKind e.2.2.2.1 e.2.2.2.2)
      runsB commanding f Ctx.replyReads && runsB (busy 32 0 commanding) f Ctx.replyReads) = true ∧
    (towers.all fun e =>
      let f := coForm e.2.1 0x84 0x88 0x7F (.reply 1) .va (blockKind e.2.2.1 e.2.2.2)
      runsB commanding f Ctx.replyReads && runsB (busy 32 0x40 commanding) f Ctx.replyReads) = true ∧
    ((busy 32 0 commanding).running 2 3 == 32 && (busy 32 0x40 commanding).running 2 5 == 32 && commanding.running 2 3 == 0) = true ∧
    (runsB commanding (copyOvForm 0x84 0x88 0x7F) Ctx.replyReads && followBad 0 &&
      runsB commanding (copyStatForm 0x84 0x48) Ctx.replyReads) = true ∧
    (let s := commanding
     let f := copyOvForm 0x84 0x8D 0x7F
     let w : Word := 0xD24343FF
     let x := s.issueOf (followForm w) (gp s)
     let oc := x.ctx w (s.ctxOf f (gp s)).room
     runsB s f Ctx.replyReads && (s.ctxOf f (gp s)).read (.g 15) 0 == w && !followBad w && (followForm w).wordCheck.isNone &&
      !(followForm w).outOfBounds x && !(followForm w).ranksIllegal x.mode && ((followForm w).emptySlot oc oc.activeReads false).isNone &&
      !tileBad (oc.read oc.a 0) (oc.read oc.b 0)) = true := by
  refine ⟨?_, ?_, ?_, ?_, ?_⟩ <;> decide +kernel

/-- Every queue of the Oven is another group's. -/
def unbindable (s : State) : State := s.onOven 0 fun o =>
  { o with queues := (List.range 64).map fun k => ⟨k, 100 + k, [900 + k], none, none, none, none, 0, [0, 0, 0, 0], []⟩ }

/-- A tile that follows a copy of the group waits for the number of queued commands to fall. -/
def behind (s : State) : State :=
  { s with cmds := [{ pending with func := 0x08, phase := .finishing, follow := some 8 }, { pending with id := 8, func := 0x24, phase := .dormant }] }

/-- A queued command that passes its checks, with a queue to bind; without one; with 16 queued; and behind a tile. -/
def queueMeets (f : Form) (reads : Ctx → Reads := Ctx.replyReads) : Bool :=
  let s := commanding
  let u := unbindable s
  let b := busy 16 0x24 s
  let stalls (s : State) : Bool := decide (16 ≤ s.running 2 4) || s.cmds.any fun x => x.gid == 2 && (s.followWaits x).isSome
  [s, u, b, behind s].all (fun x => runsB x f reads) && !stalls s && ((s.flush (gp s)).bindQueue (s.clusterOf (gp s)) 2).2 &&
    !stalls u && !((u.flush (gp u)).bindQueue (u.clusterOf (gp u)) 2).2 && stalls b && stalls (behind s)

theorem witness_OvenIssue :
    (queueMeets (ovenForm 0x20 0x86 0 0x4E .uniform .unused) && queueMeets (ovenForm 0x21 0x84 0 0x7F .va .unused) &&
      queueMeets (ovenForm 0x22 0x84 0 0x7F .va .unused) && queueMeets (ovenForm 0x23 0x86 0 0x7F .uniform .unused) &&
      queueMeets (ovenForm 0x24 0x86 0x87 0x7F .uniform .uniform) && queueMeets (ovenForm 0x25 0x86 0x87 0x7F .uniform .uniform) &&
      queueMeets (ovenForm 0x2A 0x86 0 0x7F .uniform .unused) && queueMeets (ovenForm 0x2C 0x86 0x88 0x7F .uniform (blockKind 3 true)) &&
      queueMeets (ovenForm 0x2D 0x86 0x88 0x7F .uniform (blockKind 3 true)) && queueMeets (accRdForm 0x86 0x05) Ctx.activeReads &&
      queueMeets (accRdForm 0x86 0x45) Ctx.activeReads) = true ∧
    (ovenFormats (commanding.view (gp commanding) 9 (.team 1 0) 64)).isSome = true ∧ tileBad 0 1 = false ∧
    accBad 0x2A 0 = false ∧ accBad 0x2B 0 = false ∧ accBad 0x2C 0 = false ∧ accBad 0x2D 0 = false ∧
    ((commanding.ovenOf 0).banksOf 1 0).length = 1 ∧ 0 + 16 * 0 + (tileWord 0 1).m ≤ 16 ∧ (accWord 0).c0 + highest 0xFFFF#64 ≤ 63 ∧
    (runsB commanding (atOnceForm 0x26 0x86 0x48 false) && runsB commanding (atOnceForm 0x27 0x86 0x48 false) &&
      runsB commanding (atOnceForm 0x2F 0x86 0x48 false) && runsB commanding (atOnceForm 0x29 0x86 0x7F true) &&
      runsB commanding (allocForm 0x86 0x87 0x48)) = true := by
  refine ⟨?_, ?_, ?_, ?_, ?_, ?_, ?_, ?_, ?_, ?_, ?_⟩ <;> decide +kernel

/-- A command of the team may stand in the Carousel's order, and a team may hold it. -/
def queuedCar (order : List Nat) (holder : Option Nat) (s : State) : State :=
  { s with cmds := [{ pending with func := 0x53 }], nextId := 9, clusters := [⟨0, (0, 0), Oven.free, { Carousel.free with holder, order }⟩] }

theorem witness_CarouselCommands :
    (let s := base [(5, 0xFFFFFFFF), (6, 100), (7, 1)]
     (carOnes.all fun e => runsB s (carOneForm e.2.1 0x84 0x48) Ctx.replyReads && !e.2.2 0 && runsB s (carOneForm e.2.1 0x85 0x48) Ctx.replyReads &&
        e.2.2 0xFFFFFFFF) &&
      (carTwos.all fun e => runsB s (carTwoForm e.2.1 0x87 0x84 0x48) Ctx.replyReads && !e.2.2 1 &&
        runsB s (carTwoForm e.2.1 0x85 0x84 0x48) Ctx.replyReads && e.2.2 0xFFFFFFFF) &&
      runsB s (carZeroForm 0x51 0x48) Ctx.replyReads && runsB s (carZeroForm 0x5B 0x48) Ctx.replyReads &&
      runsB s (carWaitForm 0x50 0x84 0x8A 0x48) Ctx.replyReads && runsB s (carWaitForm 0x56 0x84 0x8A 0x48) Ctx.replyReads &&
      decide (s.carOpen 2 < 8) && (s.arm (gp s) 100).any (fun dl => decide ((gp s).cclk < dl.limit))) = true ∧
    decide (8 ≤ (busy 8 0x53 base).carOpen 2) = true ∧
    (let s := busy 8 0x53 (base [(5, 1025), (6, 100), (10, 0x40000000), (11, 0x100)])
     runsB s (carWaitForm 0x50 0x84 0x86 0x48) Ctx.replyReads && runsB s (carWaitForm 0x56 0x84 0x86 0x48) Ctx.replyReads &&
      runsB s (carWaitForm 0x56 0x85 0x86 0x48) Ctx.replyReads && runsB s (carWaitForm 0x50 0x84 0x8A 0x48) Ctx.replyReads &&
      runsB s (carWaitForm 0x56 0x84 0x8A 0x48) Ctx.replyReads && (gp s).wait.isNone && (s.arm (gp s) 100).isSome &&
      (s.arm (gp s) (pairOf 0x40000000 0x100)).isNone) = true ∧
    (let s := queuedCar [] (some 5) base
     ((s.flush (gp s)).cmd? s.nextId).isNone && (carOf s (gp s)).order.isEmpty && (carOf s (gp s)).holder == some 5 && (s.teamOf (gp s)).id != 5 &&
      !(s.flush (gp s)).leaseOver ((s.flush (gp s)).clusterRec (s.clusterOf (gp s)))) = true ∧
    (let free := queuedCar [] none base
     let held := queuedCar [] (some 1) base
     let done (s : State) := (s.flush (gp s)).leaseOver ((s.flush (gp s)).clusterRec (s.clusterOf (gp s)))
     let car (s : State) := carOf s (gp s)
     (car free).order.isEmpty && (car free).holder.isNone && (car free).requests.isEmpty && ((free.flush (gp free)).cmd? free.nextId).isNone &&
      !done free && !done held &&
      (car held).order.isEmpty && (car held).holder == some 1 && runsB (base [(6, 0)]) (carWaitForm 0x50 0x84 0x86 0x48) Ctx.replyReads &&
      (base.arm (gp base) 0).isSome) = true := by
  refine ⟨?_, ?_, ?_, ?_, ?_⟩ <;> decide +kernel

/-! ## Witnesses: events -/

/-- The group in a phase. -/
def phased (p : Phase) (s : State) : State := s.onGroup 2 fun g => { g with phase := p }

/-- The group waits on an object, with a limit on the context clock. -/
def waitsOn (o : WaitObj) (s : State) : State := (phased .waiting s).onGroup 2 fun g => { g with wait := some (asking o) }

/-- The group's wait times out. -/
def timesOut (s : State) : Bool :=
  (s.group? 2).any fun g => s.timedWait g && g.wait.any fun w =>
    !w.onWord && (s.satisfied g w).isNone && !w.obj.timeless && !s.propAtHead w && (!w.obj.onCarousel || s.tryCar g w == s) &&
      decide ((s.withdraw g w).2.map (·.1)).Nodup

/-- The group waits for a CAR.ACQ, behind another team's hold. -/
def acquiring : State :=
  waitsOn (.carAcq 7) { base with
    cmds := [{ pending with func := 0x50, phase := .accepted }], nextId := 9
    clusters := [⟨0, (0, 0), Oven.free, { Carousel.free with holder := some 5, order := [], requests := [⟨2, 1, 1000, 0⟩] }⟩] }

theorem witness_WaitEvents :
    (let s := (phased .blocked base).onGroup 2 fun g => { g with rwLimit := some 0 }
     (s.group? 2).any Group.readExpired && (base.group? 2).any fun g => !g.readExpired) = true ∧
    (let s := waitsOn (.word 0x40000 0 0 1) base
     s.inputs.isEmpty && (s.group? 2).any fun g => g.watches && s.timedWait g && g.wait.any (·.onWord)) = true ∧
    (let s := waitsOn .join (parent base)
     timesOut s && (s.group? 2).any fun g => !g.arch.esc && decide (g.arch.timeouts < 15)) = true ∧
    (let s := (waitsOn .join (parent base)).onGroup 2 fun g => g.onArch fun a => { a with esc := true }
     timesOut s && (s.group? 2).any fun g => g.arch.esc) = true ∧
    (timesOut acquiring && (acquiring.group? 2).any fun g => g.wait.any fun w => w.obj.onCarousel) = true := by
  refine ⟨?_, ?_, ?_, ?_, ?_⟩ <;> decide +kernel

/-- A message of four words to queue 0 of the team, sent by thread 0 of the group. -/
def message : Append := ⟨5, 2, 1, 0, [1, 2, 3, 4], 0, 1, 0⟩

/-- The stores on their way are performed at `grp`, and a promotion takes them. -/
def promoting (s : State) : State :=
  { s with
    promotions := [⟨5, 2, s.stores.map (·.id)⟩]
    stores := s.stores.map fun (e : PendingStore) => { e with seenAt := some 0 } }

theorem witness_MemoryEvents :
    (let s := { base with shootdowns := [⟨5, 1, 0x40000, 2⟩] }
     s.shootdowns.find? (·.id == 5) == some ⟨5, 1, 0x40000, 2⟩ && !s.shotBusy 1 0x40000 &&
      s.groups.all fun g => (s.teamOf g).ctx == 1 && g.live && g.here && !g.super && !g.inImage) = true ∧
    (let s := promoting (after (.stItype 0x85 0 0x84) (base [(4, 0x40000), (5, 7)]))
     (s.promotions.find? (·.id == 5)).any s.mayPromote && decide (s.stores.map (·.id)).Nodup && !s.stores.isEmpty &&
      s.reductions.isEmpty) = true ∧
    (let s := { queued 0 1 0 0 base with permits := [⟨5, 1, 0⟩] }
     s.permits.find? (·.id == 5) == some ⟨5, 1, 0⟩ && (s.team? 1).any fun tm => (tm.sends[0]?).isSome) = true ∧
    (let s := { queued 0 1 0 0 base with appends := [message] }
     canonicalB s && s.appends.find? (·.id == 5) == some message && s.mayAppend message &&
      (s.openQueue 1 0).any fun x => let slot := x.2.ring + 32 * (x.2.tail % x.2.slots)
        decide (x.1.hdr + 0x10 ≤ slot)) = true ∧
    (base.context? 1).isSome = true := by
  refine ⟨?_, ?_, ?_, ?_, ?_⟩ <;> decide +kernel

/-- The state with a command of the group. -/
def ordered (c : Cmd) (s : State) : State := { s with cmds := [c], nextId := 9 }

/-- A copy of 16 bytes at VA 0x40000 to offset 64 of team memory. -/
def copying : Cmd := { pending with func := 0x01, a := 0x40000, b := [64, 16], phase := .issued }

/-- A command with one unit of two bytes, which moves next. -/
def moving (dest : Dest) (s : State) : State × Cmd :=
  let c := { copying with phase := .accepted, started := true, units := [⟨0, 0, dest, [1, 2], [0xFF, 0xFF]⟩] }
  (ordered c s, c)

theorem witness_commands_accepted :
    (let s := ordered copying base
     (s.team? 1).any fun tm => s.mayAccept copying && (copying.named tm).isNone && (copying.acceptance tm).isNone &&
      funcClass copying.func == 3) = true ∧
    (let c := { copying with b := [64, 0x1000] }
     let s := ordered c base
     (s.team? 1).any fun tm => s.mayAccept c && (c.named tm).isNone && (c.acceptance tm).isSome) = true ∧
    ([(0x05, 64), (0x0C, 64)].map fun (x : Nat × DWord) =>
      let c := { copying with func := x.1, a := x.2, b := [64] }
      let s := ordered c base
      (s.team? 1).any fun tm => s.mayAccept c && (c.named tm).isSome && !c.cardLeft.isEmpty) = [true, true] ∧
    (let c := { copying with func := 0x43, a := 1 }
     (ordered c base).mayAccept c && funcClass c.func == 5 && c.tmBad) = true ∧
    (let c := { copying with func := 0x43, a := 0x40000, b := [0, 1] }
     let s := ordered c base
     s.mayAccept c && !c.tmBad && (s.team? 1).isSome) = true ∧
    ([(0x100000, 1), (64, 0x80000001), (0x100000, 0x80000001)].map fun (x : Word × Word) =>
      let c := { copying with func := 0x40, a := 0x40000, b := [x.1, 0, x.2] }
      let s := ordered c base
      (s.mayAccept c && !c.tmBad, (s.team? 1).any fun tm => !c.tmSt || decide (c.tmSource + 64 * c.tmLines ≤ tm.launch.tmem))) =
        [(true, true), (true, true), (true, false)] := by
  refine ⟨?_, ?_, ?_, ?_, ?_, ?_⟩ <;> decide +kernel

theorem witness_CopyEvents :
    (let c := { copying with phase := .accepted }
     let s := ordered c base
     s.mayMove c && !c.started && c.follow.isNone && ((s.countTurn c).planCmd c).2.1.units.length == 1) = true ∧
    (let m := moving (.team 64) base
     m.1.mayMove m.2 && m.2.barrier.isNone && ((m.1.team? 1).any fun tm => tm.mem.wf && !tm.meetsTag 64 2) &&
      (ordered { m.2 with units := [] } base).mayMove { m.2 with units := [] }) = true ∧
    (let m := moving (.team 64) (barred 1 0 0 base)
     m.1.mayMove m.2 && (m.1.team? 1).any fun tm => tm.mem.wf && tm.meetsTag 64 2) = true ∧
    (let m := moving (.va 0x40000) base
     m.1.mayMove m.2 && match ((m.1.countTurn m.2).engineWrite m.2.ctx m.2.core m.2.priv 0x40000 [1, 2] [0xFF, 0xFF]).2 with
       | .ok _ => true
       | .error _ => false) = true ∧
    (let c := { copying with phase := .finishing, started := true, reply := .g 8 }
     let s := ordered c base
     s.mayComplete c && c.follow.isNone && c.barrier.isNone && (s.group? 2).any fun g =>
      g.team == c.team && g.live && !g.inImage && g.super == (c.priv == 1)) = true := by
  refine ⟨?_, ?_, ?_, ?_, ?_⟩ <;> decide +kernel

/-- The cluster's Oven has one queue, of the group, with a command at its head. -/
def turning (c : Cmd) : State :=
  { ordered c base with
    clusters := [⟨0, (0, 0), { Oven.free with queues := [⟨3, 2, [7], none, none, none, none, 0, [0, 0, 0, 0], []⟩] }, Carousel.free⟩] }

/-- The command stands at the head of the queue whose turn is next. -/
def turnOf (c : Cmd) : Bool :=
  let s := turning c
  (s.nextTurn (s.ovenOf 0)).any fun q => q.num == 3 && s.headOf q == some c && c.cluster == 0 && c.gid == q.gid &&
    (!c.isTile || tileUnready q c)

theorem witness_OvenEvents :
    ([0x20, 0x21, 0x22, 0x23, 0x2A, 0x24, 0x25].all fun (f : Nat) => turnOf { pending with func := f, phase := .issued }) = true ∧
    (let c := { pending with func := 0x2B, phase := .issued, reply := .g 8 }
     turnOf c && ((turning c).group? 2).any fun g => g.live && !g.inImage && g.super == (c.priv == 1)) = true ∧
    ([0x40, 0x43].all fun (f : Nat) =>
      let u : CopyUnit := ⟨0, 0, .va 0x400000000, zeroBytes 64, []⟩
      let c := { pending with func := f, next := 0x40000, units := [u], b := [0, 1] }
      let s := ordered c base
      s.cmd? 7 == some c && s.lineReady c && !s.stoppedCtx c.ctx && s.lineMoves c == [some u] && s.homePa 0x400000000 == 0x400000000 &&
        s.stores.isEmpty && c.use != 4 && (s.team? c.team).isSome && (s.group? 2).any fun g =>
          g.team == c.team && g.live && !g.inImage && g.super == (c.priv == 1)) = true := by
  refine ⟨?_, ?_, ?_⟩ <;> decide +kernel

/-- The Carousel performs a command of the team next. -/
def propelled (func : Nat) (a : DWord) (holder : Option Nat) : State :=
  let c := { pending with func, a, b := [0, 0, 0, 0], phase := .accepted }
  { ordered c base with clusters := [⟨0, (0, 0), Oven.free, { Carousel.free with holder, order := [7] }⟩] }

theorem witness_CarouselEvents :
    (let s := propelled 0x55 3 (some 1)
     (s.carMoves 0).map (fun x => (x.1.id, x.2)) == [(7, true)] && ((s.clusterRec 0).car.value 3).isNone &&
      (s.team? 1).any (fun tm => !tm.lapsed) && !s.leaseOver (s.clusterRec 0) &&
      (propelled 0x55 3 none).carMoves 0 == s.carMoves 0) = true ∧
    (let s := propelled 0x50 5000 none
     (s.carMoves 0).map (fun x => (x.1.id, x.2)) == [(7, true)] && (s.clusterRec 0).car.holder.isNone &&
      (s.clusterRec 0).car.requests.isEmpty) = true ∧
    (let s := { base with wall := 1, clusters := [⟨0, (0, 0), Oven.free, { Carousel.free with holder := some 1, leaseEnd := some 0 }⟩] }
     s.leaseOver (s.clusterRec 0) && (s.clusterRec 0).car.holder == some 1 && (s.clusterRec 0).car.requests.isEmpty &&
      (s.team? 1).isSome) = true := by
  refine ⟨?_, ?_, ?_⟩ <;> decide +kernel

/-! ## Witnesses: the Ringmaster -/

/-- The team waits at the head of die 0's placement queue, and its group is gone. -/
def waiting1 (s : State) : State :=
  { s.onTeam 1 (fun tm => { tm with life := .queued, core := none }) with groups := [], dies := [{ s.dieRec 0 with fresh := [1] }] }

/-- The Proofer works on the team, whose first transform copies from a virtual address. -/
def proofing (va : Nat) (s : State) : State :=
  s.onTeam 1 fun tm => { tm with
    life := .proofing
    launch := { tm.launch with xforms := [bytesOf 4 1 ++ bytesOf 4 0 ++ bytesOf 4 16 ++ bytesOf 4 0 ++ bytesOf 8 va ++ zeroBytes 40], imlen := 0 } }

/-- A bin of die 0 with one thread, whose time of 0 has run out. -/
def binned (s : State) : State :=
  let b : Bin := ⟨1, 0x20000, 0x20000, { (s.teamOf (gp s)).launch with spawn := true }, [5], 0, some 0, 0, true⟩
  { s with dies := [{ s.dieRec 0 with bins := [b] }] }

/-- A task of the team's TCB, submitted and not queued, with ranges to bring in. -/
def asked (s : State) (ranges : List (DWord × DWord)) : Task :=
  ⟨4, 1, 0x40000, 0, (s.teamOf (gp s)).launch, true, ranges, false, 1, none, none, 0, 0⟩

theorem witness_RingmasterEvents :
    (let s := waiting1 base
     (s.dieRec 0).head == some 1 && (s.groupsOf 1).isEmpty && (s.team? 1).any fun tm => (s.chooseHead tm (s.dieRec 0).freed).isSome) = true ∧
    (let s := waiting1 ((base).onTeam 1 fun tm => { tm with launch := { tm.launch with tmem := 2 ^ 30 } })
     (s.dieRec 0).head == some 1 && (s.team? 1).any fun tm => (s.chooseHead tm (s.dieRec 0).freed).isNone) = true ∧
    (let s := base.onGroup 2 fun g => { g with phase := .ended }
     (s.team? 1).any (fun tm => s.mayRetire tm) && s.tasks.isEmpty) = true ∧
    (let s := binned base
     ((s.dieRec 0).bins[0]?).any (fun b => b.expired s.wall && !s.stoppedCtx b.ctx && !b.args.isEmpty) &&
      decide (s.pendingTeams (s.dieRec 0) < 4096)) = true ∧
    (let s := { base with dies := [{ base.dieRec 0 with ring := { (base.dieRec 0).ring with age := 5, fresh := [0] } }], wall := 5 }
     (s.dieRec 0).ring.aged s.wall) = true := by
  refine ⟨?_, ?_, ?_, ?_, ?_⟩ <;> decide +kernel

/-- The range that a task waits for comes back, and it leaves none absent; or one absent; or the task is a gang's. -/
theorem witness_ranges :
    ([(base, true), (base.onContext 1 fun c => { c with backing := [(0x50000, 0, 0, [])] }, false)].map fun x =>
      let t := { asked x.1 [(0x40000, 16)] with launch := { (x.1.teamOf (gp x.1)).launch with ranges := [(0x40000, 16), (0x50000, 16)] } }
      let s := { x.1 with tasks := [t] }
      (s.inputs.isEmpty && s.headWaiters.isEmpty, (s.rangeWaiters.head?.map (·.id)),
        (t.pendingRanges ++ s.absentRanges t.ctx t.launch).head? == some (0x40000, 16),
        ((s.bringIn 1 0x40000 16).absentRanges 1 t.launch).isEmpty, (s.bringIn 1 0x40000 16).isGang 1 0x40000)) =
          [(true, some 4, true, true, false), (true, some 4, true, false, false)] ∧
    (let s := (waiting1 (base.onTeam 1 fun tm => { tm with launch := { tm.launch with ranges := [(0x50000, 16)] } })).onContext 1
        fun c => { c with backing := [(0x50000, 0, 0, [])] }
     s.inputs.isEmpty && s.headWaiters.head?.any fun tm => tm.id == 1 && !(s.absentRanges tm.ctx tm.launch).isEmpty) = true := by
  refine ⟨?_, ?_⟩ <;> decide +kernel

/-- The Proofer goes through, and fails. -/
theorem witness_team_start :
    (let s := proofing 0x40000 base
     (s.team? 1).any fun tm => s.mayStart tm && match s.proofer tm with
       | (u, none) => (u.team? 1).isSome
       | _ => false) = true ∧
    (let s := proofing 0x90000 base
     (s.team? 1).any fun tm => s.mayStart tm && match s.proofer tm with
       | (u, some _) => (u.team? 1).isSome
       | _ => false) = true := by
  refine ⟨?_, ?_⟩ <;> decide +kernel

/-- A gang of the task of a packet, with START and SLICE. -/
def ganged (start slice : Nat) (placed : Option Nat) (s : State) : State :=
  { s with tasks := [asked s []], gangs := [⟨4, 0, 1, 0x40000, true, false, start, slice, placed, false, false, none⟩], wall := 10 }

theorem witness_gangs :
    (let s := ganged 20 0 none base
     (s.gangs.head?).any fun k => (s.gangWaits k).any fun x => s.gangFits x && decide (s.wall < k.start)) = true ∧
    (let s := ganged 5 0 none { (base : State) with teams := [], groups := [] }
     let l := (base.teamOf (gp base)).launch
     let s := { s with tasks := s.tasks.map fun (t : Task) => { t with launch := l } }
     (s.gangs.head?).any fun k => (s.gangWaits k).any fun x => s.gangFits x && !s.gangStopping x && (s.absentRanges x.ctx x.launch).isEmpty &&
      (s.placeGang x).isSome) = true ∧
    (let s := ganged 5 0 none (base.onTeam 1 fun tm => { tm with life := .stopping })
     (s.gangs.head?).any fun k => (s.gangWaits k).any fun x => s.gangFits x && s.gangStopping x && !k.strict && !k.late) = true ∧
    ([0, 9].map fun placed =>
      let s := (ganged 0 5 (some 0) base).onTeam 1 fun tm => { tm with tcb := 0x40000, placed }
      let s := { s with gangs := s.gangs.map fun (k : Gang) => { k with sliced := some 9 } }
      ((s.gangs.head?).any (fun k => s.sliceOver k) && (s.team? 1).any (fun tm => tm.ctx == 1 && tm.life == .running) &&
        decide (s.teams.map (·.id)).Nodup, (s.team? 1).any fun tm => decide (tm.placed < 9))) = [(true, true), (true, false)] := by
  refine ⟨?_, ?_, ?_, ?_⟩ <;> decide +kernel

theorem witness_watchdogs :
    (let s := base.onTeam 1 fun tm => { tm with wdog := 9, launch := { tm.launch with wdog := 9 } }
     (s.team? 1).any Team.wdogDue) = true ∧
    (let s := base.onTeam 1 fun tm => { tm with wdogTrap := true }
     (s.team? 1).any fun tm => tm.wdogTrap && (s.asyncTarget tm).isSome) = true ∧
    (let s := base.onTeam 1 fun tm => { tm with permitTraps := [1] }
     (s.team? 1).any fun tm => tm.permitTraps == [1] && !tm.wdogTrap && (s.asyncTarget tm).isSome) = true ∧
    (let s := queued 0 0 0 0 base
     canonicalB s && s.links.isEmpty && s.teams.length == 1 && !s.safety.frozen &&
      (s.openQueue 1 0).any fun x => (s.teamOf (gp s)).queues == [x.1] && s.permitSum (s.teamOf (gp s)) x.1 x.2 != x.2.total) = true ∧
    (let s := queued 0 4 0 0 base
     let total := (s.openQueue 1 0).map fun x => (s.permitSum (s.teamOf (gp s)) x.1 x.2, x.2.total)
     total.any fun x => x.1 == x.2) = true := by
  refine ⟨?_, ?_, ?_, ?_, ?_⟩ <;> decide +kernel

/-- An audit of one link, whose credits are all there, or one is missing, before the draw that may take one more. -/
theorem witness_links :
    (let s (free : Nat) : State := { base with teams := [], links := [⟨0, 0, 8, free, 0⟩] }
     let after (free : Nat) := if Config.pick base.draw 2 % 2 = 1 then free - 1 else free
     (s 8).teams.isEmpty && after 0 + 0 != 8 && (after 8 + 0 == 8 || after 9 + 0 == 8)) = true := by
  by_cases h : Config.pick base.draw 2 % 2 = 1 <;> simp [h]

/-! ## Witnesses: stops and contexts -/

def input (i : Input) (s : State) : State := { s with inputs := [i] }

/-- The group must stop, in a phase, in the state in which its image is written. -/
def stops (p : Phase) (super : Bool) : State :=
  ((phased p base).onTeam 1 fun tm => { tm with life := .stopping }).onGroup 2 fun g => { g with super }

theorem witness_stops :
    ([(stops .ready false), (stops .blocked false), (stops .blocked true)].all fun s => s.inputs.isEmpty &&
      (s.group? 2).any fun g => s.mustStop g && g.stopAt.isNone) = true ∧
    (let s := stops .blocked false
     (s.group? 2).any fun g => !g.super && g.phase != .ready &&
      match (({ s with draw := s.draw + 1, cores := s.cores.map fun (c : Core) => { c with monitors := c.monitors.filter (·.1 != 2) } }).span
        (s.teamOf g).ctx (s.coreOf g) 1 .write ((s.teamOf g).groupSave g.gix) 0xE000).2 with
      | .ok _ => true
      | .error _ => false) = true ∧
    ([true, false].all fun super =>
      let s := base.onGroup 2 fun g => { g with saved := true, super }
      s.inputs.isEmpty && (s.group? 2).any fun g => s.mayRestore g && g.super == super &&
        (super || match ((s.cancelLease 1 0).group? 2).map fun k => ((s.cancelLease 1 0).imageSpan k .read, k) with
          | some ((u, .ok segs), k) => (u.readImage segs 16 128 k).isSome && (u.group? 2).isSome
          | _ => false)) = true := by
  refine ⟨?_, ?_, ?_⟩ <;> decide +kernel

theorem searchFrom_isSome (ok : Nat → Bool) (n : Nat) : ∀ left start j, j < left → ok ((start + j) % n) = true →
    (searchFrom ok n start left).isSome = true
  | 0, _, _, h, _ => absurd h (Nat.not_lt_zero _)
  | left + 1, start, 0, _, h => by simp_all [searchFrom]
  | left + 1, start, j + 1, hj, h => by
    simp only [searchFrom]
    split
    · rfl
    · exact searchFrom_isSome ok n left (start + 1) j (by omega) (by rwa [Nat.add_assoc, Nat.add_comm 1 j])

theorem searchFrom_finds (ok : Nat → Bool) (n start k : Nat) (hk : k < n) (h : ok k = true) : (searchFrom ok n start n).isSome = true := by
  refine searchFrom_isSome ok n n start ((k + n - start % n) % n) (Nat.mod_lt _ (by omega)) ?_
  have := Nat.mod_lt start (show n > 0 by omega)
  rw [Nat.add_mod_mod, ← Nat.mod_add_mod, show start % n + (k + n - start % n) = k + n by omega, Nat.add_mod_right,
    Nat.mod_eq_of_lt hk]
  exact h

theorem takeFrame_isSome (s : State) (hbm : Bool) (size k : Nat) (hk : k < frameCount hbm size)
    (h : s.frameFree (frameBase hbm size k) size = true) : (s.takeFrame hbm size).isSome = true := by
  obtain ⟨j, hj⟩ := Option.isSome_iff_exists.mp
    (searchFrom_finds (fun k => s.frameFree (frameBase hbm size k) size) (frameCount hbm size) (Config.place s.draw) k hk h)
  simp only [State.takeFrame, hj, Option.isSome_some]

/-- A page of 64 KB at VA 0x40000 is in the backing store. -/
def paged (s : State) : State := s.onContext 1 fun c => { c with backing := [(0x40000, 0, 0, [])] }

theorem witness_contexts :
    (let s := paged base
     s.inputs.isEmpty && ((s.context? 1).any fun x => x.backing.length == 1) && decide (0x40000 < 0x40000 + pageSize 0) &&
      (entryAddr s.mem 0x40000 0 3 (s.rootOf 1)).isSome) = true ∧
    (((paged base).context? 1).any fun x => x.backing == [(0x40000, 0, 0, [])]) = true ∧
    ((paged base).pageFrame (0x40000, 0, 0, [])).isSome = true ∧
    ((paged base).pageFrame (0x40000, 0, 0x800000000000, [])).isSome = true ∧
    (let s := input (.contextRemoval 1) { (base : State) with clusters := [], groups := [] }
     (s.context? 1).isSome && !s.stoppedCtx 1 && s.groups.all fun g => !g.stoppable) = true ∧
    (let s := input (.contextReturn 1) (base.onContext 1 fun c => { c with removed := true })
     ((s.context? 1).any (·.removed)) && s.savedOvens.isEmpty) = true := by
  refine ⟨by decide +kernel, by decide +kernel, ?_, by decide +kernel, by decide +kernel, by decide +kernel⟩
  rw [State.pageFrame, if_neg (by decide)]
  exact takeFrame_isSome _ _ _ 40 (by decide) (by decide +kernel)

theorem witness_eviction :
    (let s := input (.eviction 1) { (base : State) with teams := [], groups := [] }
     s.stores.isEmpty && (s.victim 1).any fun r =>
      ((s.userPages 1).filter fun y => r.meets ((y.1, pageSize y.2.1) : Range)).length == 1 && !s.shotBusy 1 r.1 &&
        (entryAddr s.mem r.1 0 3 (s.rootOf 1)).isSome) = true ∧
    (let s := input (.eviction 1) { (base : State) with mem := [] }
     (s.victim 1).isNone) = true := by
  refine ⟨?_, ?_⟩ <;> decide +kernel

/-! ## Witnesses: the device -/

/-- What the image of a held group names as its next address, past the low bits. -/
def heldImage (s : State) : Nat :=
  match s.group? 2 with
  | none => 9
  | some g =>
    if g.phase != .held || !g.here || g.stalled || g.emergency.isSome then 9
    else
      match s.pop.imageSpan g .read with
      | (u, .ok segs) => if (u.restoreFrom g segs 0).isSome then u.spanValue segs 0x0100 8 % 4 else 8
      | _ => 7

theorem witness_DeviceEvents :
    (let s := base
     !s.safety.frozen && s.inputs.isEmpty && (s.context? 1).any (fun x => x.halted.isNone) && (s.ports[0]?).isSome &&
      [0, 1, 2, 3].all fun code => heldImage (input (.debugResume 2 code) (phased .held s)) == 0) = true := by
  decide +kernel

/-- The device is in recovery. -/
def recovering (erased : Bool) (i : Input) : State := input i { (base : State) with boot := .recovery, erased }

theorem witness_ResetEvents :
    (base.inputs.isEmpty && base.flash.wf && base.boot != .recovery) = true ∧
    ([true, false].all fun e =>
      let s := recovering e (.flashRecoveryWrite (2, 5) 1 8 [0x12])
      s.boot == .recovery && s.erased == e && s.flash.wf) = true ∧
    ((∃ d : List Byte, d.length ≠ 8) ∧ ofBytes (bytesOf 8 0) ≤ base.bankSeq (1 - base.recoveryBank)) ∧
    (let s := recovering true (.flashRecoveryCommit (2, 5) 1 (bytesOf 8 3))
     decide ((bytesOf 8 3).length = 8) && decide (s.bankSeq (1 - s.recoveryBank) < ofBytes (bytesOf 8 3)) &&
      decide (ofBytes (bytesOf 8 3) ≠ 2 ^ 64 - 1)) = true := by
  refine ⟨?_, ?_, ⟨⟨[], by decide⟩, ?_⟩, ?_⟩ <;> decide +kernel

/-- A request of an operation, with a body. -/
def requested (op : Nat) (body : List Byte) (s : State := base) : State := input (.request (2, 5) op 1 (wordOf body.length) 7 body) s

theorem asks_requested (op : Nat) (body : List Byte) (h : body.length ≤ 0x100000 - 16) (s : State) (hs : s.boot = .running) :
    asks (requested op body s) (2, 5) op 1 (wordOf body.length) 7 body ∧ (wordOf body.length).toNat = body.length := by
  refine ⟨⟨hs, rfl⟩, ?_⟩
  simp only [wordOf, BitVec.toNat_ofNat]
  omega

/-- A request whose connection is open, one that opens its connection, and one that is dropped. -/
theorem witness_taken :
    [(taken { base with connections := [(2, 5)] } (2, 5)).isSome, (taken base (2, 5)).isSome, (taken base (9, 5)).isSome] =
      [true, true, false] ∧
    ({ base with launchWaits := [⟨(2, 5), 1, 7, 0x40000, []⟩] } : State).launchWaits = [] ++ ⟨(2, 5), 1, 7, 0x40000, []⟩ :: [] := by
  refine ⟨?_, rfl⟩
  decide +kernel

theorem witness_requests :
    (let s := requested 1 (zeroBytes 16 ++ bytesOf 8 24)
     (s.context? 1).isSome && s.boot == .running && match s.pop.loadObject 1 (zeroBytes 16 ++ bytesOf 8 24) with
      | .error _ => true
      | .ok _ => false) = true ∧
    (let b := bytesOf 8 0x40000 ++ [1, 2, 3]
     ((requested 3 b).pop.serviceWrite 1 (fieldOf b 0 8) (b.drop 8)).isSome) = true ∧
    (let b := bytesOf 8 0x90000 ++ [1, 2, 3]
     ((requested 3 b).pop.serviceWrite 1 (fieldOf b 0 8) (b.drop 8)).isNone) = true := by
  refine ⟨?_, ?_, ?_⟩ <;> decide +kernel

/-! A page of tower memory can always be allocated at VA 0x70000, wherever the service puts it. -/

theorem mapLeaf_isSome (leaf : Nat) (s : State) (h : s.mem = base.mem) : (mapLeaf 0x70000 0 leaf 3 0x10000 s).isSome = true := by
  have step : ∀ n table, Pte.v (base.mem.value (table + 8 * bits 0x70000 (16 + 9 * (n + 1)) 9) 8) = true →
      Pte.leaf (base.mem.value (table + 8 * bits 0x70000 (16 + 9 * (n + 1)) 9) 8) = false →
      mapLeaf 0x70000 0 leaf (n + 1) table s =
        mapLeaf 0x70000 0 leaf n (Pte.frame (base.mem.value (table + 8 * bits 0x70000 (16 + 9 * (n + 1)) 9) 8)) s := by
    intro n table hv hl
    simp [mapLeaf, h, hv, hl]
  rw [step 2 _ (by decide +kernel) (by decide +kernel), step 1 _ (by decide +kernel) (by decide +kernel),
    step 0 _ (by decide +kernel) (by decide +kernel)]
  simp [mapLeaf]

theorem allocate_isSome (s : State) (hf : s.frames = base.frames) (hm : s.mem = base.mem) (hc : s.contexts = base.contexts)
    (hr : s.rangeFree 1 0x70000 0x10000 = true) : (s.allocate 1 0x70000 0x10000 0 0 ⟨true, true, false⟩).isSome = true := by
  obtain ⟨k, hk⟩ := Option.isSome_iff_exists.mp (searchFrom_finds
    (fun k => s.frameFree (frameBase false 0x10000 k) 0x10000) (frameCount false 0x10000) (Config.place (s.draw + 1)) 40 (by decide)
      (by simp only [State.frameFree, hf]; decide +kernel))
  have ht : ({ s with draw := s.draw + 1 } : State).takePlaced 0 0x10000 = some (frameBase false 0x10000 k,
      { s with draw := s.draw + 1 + 1, frames := s.frames ++ [(frameBase false 0x10000 k, 0x10000)] }) := by
    simp only [State.takePlaced, if_true, State.takeFrame]
    exact congrArg (fun (o : Option Nat) => match o with
      | none => none
      | some k => some (frameBase false 0x10000 k,
        { s with draw := s.draw + 1 + 1, frames := s.frames ++ [(frameBase false 0x10000 k, 0x10000)] })) hk
  have hroot : s.rootOf 1 = 0x10000 := by
    have : base.rootOf 1 = 0x10000 := by decide +kernel
    simpa only [State.rootOf, State.context?, hc] using this
  have step : ∀ t : State, t.mem = base.mem → t.contexts = base.contexts → ∀ f : Nat,
      (match mapLeaf 0x70000 0 ((⟨true, true, false⟩ : Rights).leaf f) 3 (t.rootOf 1) t with
        | none => none
        | some u => mapPages 1 0 0 ⟨true, true, false⟩ 0 (0x70000 + pageSize 0) u).isSome = true := by
    intro t h1 h2 f
    have hroot : t.rootOf 1 = 0x10000 := by
      have : base.rootOf 1 = 0x10000 := by decide +kernel
      simpa only [State.rootOf, State.context?, h2] using this
    obtain ⟨u, hu⟩ := Option.isSome_iff_exists.mp (mapLeaf_isSome ((⟨true, true, false⟩ : Rights).leaf f) t h1)
    rw [hroot, hu]
    rfl
  obtain ⟨u, hu⟩ := Option.isSome_iff_exists.mp (step { s with draw := s.draw + 1 + 1, frames := s.frames ++ [(frameBase false 0x10000 k, 0x10000)] }
    hm hc (frameBase false 0x10000 k))
  have hp : mapPages 1 0 0 ⟨true, true, false⟩ 1 0x70000 { s with draw := s.draw + 1 } = some u := by
    rw [mapPages, show pageSize 0 = 0x10000 from rfl, ht]
    exact hu
  rw [State.allocate, if_neg (by decide), if_pos hr]
  change (match mapPages 1 0 0 ⟨true, true, false⟩ 1 0x70000 { s with draw := s.draw + 1 } with
    | none => none
    | some s => some (0x70000, s)).isSome = true
  rw [hp]
  rfl

/-- The body of an allocate request: VA 0x70000, one page of 64 KiB, in tower memory, writable. -/
def allocBody : List Byte := bytesOf 8 0x70000 ++ bytesOf 8 0x10000 ++ [0, 0, 1] ++ zeroBytes 13

theorem witness_allocate :
    (Request.badAllocate ⟨(2, 5), 2, 1, allocBody.length, 7, allocBody⟩ = false ∧ fieldOf allocBody 8 8 ≠ 0) ∧
    ((requested 2 allocBody).pop.allocate 1 0x70000 0x10000 0 0 ⟨true, true, false⟩).isSome = true := by
  refine ⟨by decide +kernel, allocate_isSome _ rfl rfl rfl ?_⟩
  decide +kernel

theorem witness_service_reads :
    (let b := bytesOf 8 0x40000 ++ bytesOf 8 16
     let u := (requested 5 b).pop.bringIn 1 (fieldOf b 0 8) (fieldOf b 8 8)
     (u.serviceRead 1 (fieldOf b 0 8) (fieldOf b 8 8)).isSome && decide (fieldOf b 8 8 ≤ 0x100000 - 24)) = true ∧
    (let b := bytesOf 8 0 ++ bytesOf 8 0 ++ bytesOf 4 1 ++ bytesOf 4 0
     b.length == 24 && fieldOf b 0x10 4 == 1 && ((base.onContext 1 fun c => { c with halted := some 1 }).context? 1).any (·.halted.isSome)) = true ∧
    decide (base.leafNext < 2 ^ 25) = true := by
  refine ⟨?_, ?_, ?_⟩ <;> decide +kernel

/-- A launch record of one team of one group of 16 threads on core 0. -/
def record : List Byte :=
  bytesOf 8 0x20000 ++ [1, 0, 1, 0, 16, 0, 0, 1, 8, 8, 0, 0] ++ bytesOf 4 2048 ++ zeroBytes 52 ++ bytesOf 4 0x10000 ++ zeroBytes 176

theorem witness_launch :
    (let s := { (base : State) with mem := base.mem.write 0x120800 record }
     match (s.readRecord 1 0 true 0x40800).2 with
     | .good r => !r.spawn && r.entry == 0x20000 && r.width == 16 && r.ncores == 1
     | _ => false) = true ∧
    (match (base.readRecord 1 0 true 0x40800).2 with
     | .good _ => false
     | _ => true) = true := by
  refine ⟨?_, ?_⟩ <;> decide +kernel

/-- A launch packet that names the context and a TCB, and one that is too short. -/
theorem witness_packets :
    (let p := zeroBytes 8 ++ bytesOf 4 1 ++ zeroBytes 4 ++ bytesOf 8 0x40000 ++ zeroBytes 40
     packetGood p && (gangOf 3 p).ctx == 1 && (base.ports.all fun p => p.state != .up) &&
      (({ base with ports := base.ports.modify 0 fun p => { p with state := .up } } : State).ports.any fun p => p.state == .up) && (base.context? 1).any (·.halted.isNone) &&
      (({ (base : State) with gangs := [gangOf 3 p] }).submitFrom 1 0x40000).2 == 0) = true ∧
    (let p := zeroBytes 8 ++ bytesOf 4 1
     !packetGood p && (gangOf 3 p).ctx == 1) = true := by
  refine ⟨?_, ?_⟩ <;> decide +kernel

/-- Port 0 in a state since a time, at wall clock 20,000,000. -/
def ported (x : PortState) (since : Nat) (replays : List Nat := []) : State :=
  { base with wall := 20000000, ports := base.ports.modify 0 fun p => { p with state := x, since, replays } }

theorem witness_PortEvents :
    (base.ports.length == 16 && (base.ports[0]?).any (fun x => x.state == .off && decide (16 ≤ ((List.range 32).filter x.lanes.getLsbD).length)) &&
      localMemory (base.homePa 0x120000) && base.mem.wf && ((ported .up 0).ports.any fun p => p.state == .up) &&
      !(base.ports.any fun p => p.state == .up) && !localMemory (base.homePa 0x500000000) && (base.group? base.cur).isSome &&
      !base.safety.frozen && decide (3 < 32) && base.config.timePort != 4) = true ∧
    (let late := ported .light 0
     let inTime := ported .light 19999999
     late.inputs.isEmpty && late.latePort == some 0 && inTime.latePort.isNone &&
      ((inTime.ports[0]?).any fun x => !x.late inTime.wall)) = true ∧
    (let s := { base with ports := base.ports.modify 0 fun p => { p with lanes := 0xFFFE } }
     (s.ports[0]?).any fun x => x.state == .off && decide (((List.range 32).filter x.lanes.getLsbD).length < 16)) = true ∧
    (let s := { base with ports := base.ports.modify 0 fun p => { p with state := .up, lanes := 0xFFFF } }
     (s.ports[0]?).any fun x => x.state != .off && decide (((List.range 32).filter (fun n => x.lanes.getLsbD n && n != 3)).length < 16)) = true := by
  refine ⟨?_, ?_, ?_, ?_⟩ <;> decide +kernel

/-- A replay on a port that is not UP, and the fourth within 1 ms on one that is: more than any number of flits that it carried allows. -/
theorem witness_FlitReplay :
    ((base.ports[0]?).any fun x => x.state != .up) = true ∧
    (let s := ported .up 0 [19999990, 19999991, 19999992]
     (s.ports[0]?).any fun x => x.state == .up && (x.replays.filter (fun w => decide (s.wall < w + 1000000)) ++ [s.wall]).length == 4) = true ∧
    ∀ w : Word, w.toNat % 3937501 < 4 * 1000000 := by
  refine ⟨by decide +kernel, by decide +kernel, fun w => ?_⟩
  omega

/-! ## Witnesses: issue, merge, steps -/

/-- Which check of Checked stops an issue: 0 the word, 1 level, 2 bounds, 3 ranks, 4 the log, 5 pairs, 6 the mode, 7 no thread,
8 an empty slot, 9 none. -/
def stopOf (s : State) (f : Form) (late : Ctx → Option Nat := fun _ => none) : Nat :=
  let g := gp s
  if f.wordCheck.isSome then 0 else if g.priv < f.level then 1 else if f.outOfBounds (s.issueOf f g) then 2
  else if f.ranksIllegal (s.issueOf f g).mode then 3 else if s.logBlocks f g then 4 else if f.oddPair (s.issueOf f g).mode then 5
  else if (late (s.ctxOf f g)).isSome then 6 else if f.guarded && (s.issueOf f g).active == 0 then 7
  else if (f.emptySlot (s.ctxOf f g) (Ctx.activeReads (s.ctxOf f g)) (f.holds g)).isSome then 8 else 9

/-- Every thread is masked off; and a g register that is empty. -/
def idle (s : State) : State := s.onGroup 2 fun g => g.onArch fun a => { a with mask := 0 }
def emptied (n : Nat) (s : State) : State :=
  s.onGroup 2 fun g => g.onArch fun a => { a with g := a.g.set n ⟨0, false⟩ }

/-- The mode register of the group. -/
def moded (m : DWord) (s : State) : State := s.onGroup 2 fun g => g.onArch fun a => { a with mode := m }

theorem witness_IssueChecks :
    [stopOf base (plain2 0x1E 0xF9 0x83 0x84), stopOf base (haltForm 0x84),
      stopOf (base.onTeam 1 fun tm => { tm with launch := { tm.launch with tregs := 4 } }) (plain2 0x1E 0x0A 0x83 0x84),
      stopOf base (plain2 0x1E 0x85 0x03 0x84), stopOf (base.onContext 1 fun c => { c with rlog := [3] }) (fenceForm 0x88 0x84 0x86),
      stopOf (moded 0x00007FFF80013000#64 base) (typed2 0x10 0x05 0x83 0x84),
      stopOf (moded 0x00007FFF80010000#64 base) (atomForm 0x81 .typed 0x05 0 0x84) (atomLate false),
      stopOf (idle base) (plain2 0x1E 0x05 0x83 0x84), stopOf (emptied 3 base) (plain2 0x1E 0x05 0x83 0x84),
      stopOf base (plain2 0x1E 0x05 0x83 0x84)] = [0, 1, 2, 3, 4, 5, 6, 7, 8, 9] := by decide +kernel

/-- The one move is the issue of the group's NOP, which its fetch finds. -/
theorem witness_StepRunsDecoded :
    (let s := base
     s.powered && s.boot == .running && s.moves == [.issue 2] &&
      match s.fetch (gp s) with
      | (_, .ok w) => w == 0x01000000 && decode w == .ok .nop
      | _ => false) = true := by decide +kernel

/-- A stop falls inside the group's next issue. -/
theorem witness_stop_inside :
    (let s := base.onGroup 2 fun g => { g with stopAt := some 3 }
     (s.group? 2).any fun g => g.stopAt == some 3 && g.stoppable) = true ∧
    (let s := base.onGroup 2 fun g => { g with stopAt := some 3, phase := .parked }
     (s.group? 2).any fun g => g.stopAt == some 3) = true := by
  refine ⟨?_, ?_⟩ <;> decide +kernel

theorem witness_fetch_fault :
    (let s := base.onGroup 2 fun g => g.onArch fun a => { a with pc := 0x900000 }
     match s.fetch (gp s) with
     | (_, .error _) => true
     | _ => false) = true := by decide +kernel

/-- A canonical state from which a step answers a next state. -/
theorem witness_CanonicalKept : canonicalB base = true ∧ (match exec .nop base with | .next _ => true | _ => false) = true := by
  refine ⟨?_, ?_⟩ <;> decide +kernel

/-! ## Decoding: for every instruction a word written out from the fields of its row and of 03 Tables 3.1, 3.9 -/

theorem test_decode_control :
    ([(0x01000000, .nop), (0x02844E25, .mode 0x84 0x4E25), (0x03849600, .rank 0x84 0x96), (0x04849C4A, .merge 0x84 0x4E25),
      (0x05004E25, .br 0x4E25), (0x06FA4E25, .bz 0xFA 0x4E25), (0x07FA4E25, .bnz 0xFA 0x4E25), (0x080A4E25, .brd 0xA 0x4E25),
      (0x09000000, .reconv), (0x0AFA4E25, .call 0xFA 0x4E25), (0x0B009600, .ret 0x96), (0x0C049600, .pset 0x4 0x96),
      (0x0D04060A, .pand 0x4 0x6 0xA), (0x0E04060A, .por 0x4 0x6 0xA), (0x0F009600, .setix 0x0 0x96)] : List (Word × Instr)).all (fun x => decode x.1 == .ok x.2) = true := by decide +kernel

theorem test_decode_integer :
    ([(0x1084968A, .add 0x84 0x96 0x8A), (0x1184968A, .sub 0x84 0x96 0x8A), (0x1284968A, .mul 0x84 0x96 0x8A),
      (0x1384968A, .mulh 0x84 0x96 0x8A), (0x1484968A, .div 0x84 0x96 0x8A), (0x1584968A, .rem 0x84 0x96 0x8A),
      (0x1684968A, .min 0x84 0x96 0x8A), (0x1784968A, .max 0x84 0x96 0x8A), (0x18849600, .abs 0x84 0x96),
      (0x19849600, .neg 0x84 0x96), (0x1A84968A, .and 0x84 0x96 0x8A), (0x1B84968A, .or 0x84 0x96 0x8A),
      (0x1C84968A, .xor 0x84 0x96 0x8A), (0x1D849600, .not 0x84 0x96), (0x1E84968A, .shl 0x84 0x96 0x8A),
      (0x1F84968A, .shr 0x84 0x96 0x8A), (0x2084968A, .sar 0x84 0x96 0x8A), (0x2184968A, .rot 0x84 0x96 0x8A),
      (0x22849600, .popc 0x84 0x96), (0x23849600, .clz 0x84 0x96), (0x2484968A, .bfx 0x84 0x96 0x8A),
      (0x2584968A, .bfi 0x84 0x96 0x8A), (0x2604968A, .cmpeq 0x4 0x96 0x8A), (0x2704968A, .cmpne 0x4 0x96 0x8A),
      (0x2804968A, .cmplt 0x4 0x96 0x8A), (0x2904968A, .cmple 0x4 0x96 0x8A), (0x2A84968A, .sel 0x84 0x96 0x8A),
      (0x2B844E25, .li 0x84 0x4E25), (0x2C844E25, .lih 0x84 0x4E25), (0x2D849600, .mov 0x84 0x96),
      (0x2E84968A, .adda 0x84 0x96 0x8A), (0x2F84968A, .suba 0x84 0x96 0x8A)] : List (Word × Instr)).all (fun x => decode x.1 == .ok x.2) = true := by decide +kernel

theorem test_decode_lane :
    ([(0x3084968A, .shfl 0x84 0x96 0x8A), (0x3184968A, .shflUp 0x84 0x96 0x8A), (0x3284968A, .shflDn 0x84 0x96 0x8A),
      (0x3384968A, .shflXor 0x84 0x96 0x8A), (0x3484968A, .bcast 0x84 0x96 0x8A), (0x35849600, .voteAny 0x84 0x96),
      (0x36849600, .voteAll 0x84 0x96), (0x37849600, .voteBal 0x84 0x96), (0x3884968A, .scanAdd 0x84 0x96 0x8A),
      (0x3984968A, .scanMax 0x84 0x96 0x8A), (0x3A849600, .reduceAdd 0x84 0x96), (0x3B849600, .reduceMin 0x84 0x96),
      (0x3C849600, .reduceMax 0x84 0x96)] : List (Word × Instr)).all (fun x => decode x.1 == .ok x.2) = true := by decide +kernel

theorem test_decode_float :
    ([(0x4084968A, .fadd 0x84 0x96 0x8A), (0x4184968A, .fsub 0x84 0x96 0x8A), (0x4284968A, .fmul 0x84 0x96 0x8A),
      (0x4384968A, .fma 0x84 0x96 0x8A), (0x4484968A, .fms 0x84 0x96 0x8A), (0x4584968A, .fdiv 0x84 0x96 0x8A),
      (0x46849600, .fsqrt 0x84 0x96), (0x47849600, .frcp 0x84 0x96), (0x48849600, .frsq 0x84 0x96),
      (0x4984968A, .fmin 0x84 0x96 0x8A), (0x4A84968A, .fmax 0x84 0x96 0x8A), (0x4B849600, .fabs 0x84 0x96),
      (0x4C849600, .fneg 0x84 0x96), (0x4D04968A, .fcmpeq 0x4 0x96 0x8A), (0x4E04968A, .fcmplt 0x4 0x96 0x8A),
      (0x4F04968A, .fcmple 0x4 0x96 0x8A), (0x5004968A, .fcmpun 0x4 0x96 0x8A), (0x51849600, .cvtfi 0x84 0x96),
      (0x52849600, .cvtif 0x84 0x96), (0x53849600, .fwiden 0x84 0x96), (0x54849600, .fnarrow 0x84 0x96),
      (0x55849600, .fclass 0x84 0x96), (0x5684968A, .quant 0x84 0x96 0x8A), (0x5784968A, .deq 0x84 0x96 0x8A),
      (0x58000000, .tfence), (0x59849600, .fflags 0x84 0x96), (0x5A84968A, .dadd 0x84 0x96 0x8A),
      (0x5B84968A, .dsub 0x84 0x96 0x8A), (0x5C84968A, .dmul 0x84 0x96 0x8A), (0x5D84968A, .dfma 0x84 0x96 0x8A),
      (0x5E84968A, .ddiv 0x84 0x96 0x8A), (0x5F84968A, .dcvt 0x84 0x96 0x8A)] : List (Word × Instr)).all (fun x => decode x.1 == .ok x.2) = true := by decide +kernel

theorem test_decode_memory :
    ([(0x6084058C, .ldItype 0x84 0x5 0x8C), (0x6184058C, .ldFtype 0x84 0x5 0x8C), (0x6284058C, .stItype 0x84 0x5 0x8C),
      (0x6384058C, .stFtype 0x84 0x5 0x8C), (0x6484058C, .ldsItype 0x84 0x5 0x8C), (0x6584058C, .ldsFtype 0x84 0x5 0x8C),
      (0x6684058C, .stsItype 0x84 0x5 0x8C), (0x6784058C, .stsFtype 0x84 0x5 0x8C), (0x6884058C, .ldt 0x84 0x5 0x8C),
      (0x6984058C, .ldtTr8 0x84 0x5 0x8C), (0x6A84058C, .ldtTr16 0x84 0x5 0x8C), (0x6B84058C, .stt 0x84 0x5 0x8C),
      (0x6C049600, .xlt 0x4 0x96), (0x6D040000, .xlinv 0x4), (0x6E00058C, .pref 0x5 0x8C),
      (0x6F84058C, .waitmem 0x84 0x5 0x8C), (0x7000058C, .discard 0x5 0x8C), (0x7100058C, .clean 0x5 0x8C),
      (0x7200058C, .invl1 0x5 0x8C)] : List (Word × Instr)).all (fun x => decode x.1 == .ok x.2) = true := by decide +kernel

theorem test_decode_atomic :
    ([(0x8084058C, .atomAdd 0x84 0x5 0x8C), (0x8184058C, .atomMin 0x84 0x5 0x8C), (0x8284058C, .atomMax 0x84 0x5 0x8C),
      (0x8384058C, .atomAnd 0x84 0x5 0x8C), (0x8484058C, .atomOr 0x84 0x5 0x8C), (0x8584058C, .atomXor 0x84 0x5 0x8C),
      (0x8684058C, .atomExch 0x84 0x5 0x8C), (0x8784058C, .atomCas 0x84 0x5 0x8C), (0x8884058C, .atomFadd 0x84 0x5 0x8C),
      (0x8984058C, .redAdd 0x84 0x5 0x8C), (0x8A84058C, .redMin 0x84 0x5 0x8C), (0x8B84058C, .redMax 0x84 0x5 0x8C),
      (0x8C84058C, .redFadd 0x84 0x5 0x8C)] : List (Word × Instr)).all (fun x => decode x.1 == .ok x.2) = true := by decide +kernel

theorem test_decode_sync :
    ([(0x9000968A, .barInit 0x96 0x8A), (0x91849600, .barArrive 0x84 0x96), (0x9284968A, .barWait 0x84 0x96 0x8A),
      (0x93009600, .barInval 0x96), (0x9400968A, .barExpect 0x96 0x8A), (0x95840000, .close 0x84),
      (0x9684968A, .waitb 0x84 0x96 0x8A), (0x9784968A, .fence 0x84 0x96 0x8A), (0x98000000, .acq), (0x99000000, .rel),
      (0x9A84968A, .acqRem 0x84 0x96 0x8A), (0x9B84968A, .qsend 0x84 0x96 0x8A), (0x9C84968A, .qrecv 0x84 0x96 0x8A),
      (0x9D84968A, .qcredit 0x84 0x96 0x8A), (0x9E84968A, .waitf 0x84 0x96 0x8A)] : List (Word × Instr)).all (fun x => decode x.1 == .ok x.2) = true := by decide +kernel

theorem test_decode_task :
    ([(0xA084968A, .spawn 0x84 0x96 0x8A), (0xA184968A, .fork 0x84 0x96 0x8A), (0xA284008A, .join 0x84 0x8A),
      (0xA384968A, .tcbNew 0x84 0x96 0x8A), (0xA484968A, .tcbSucc 0x84 0x96 0x8A), (0xA5849600, .tcbSubmit 0x84 0x96),
      (0xA6849600, .tcbDone 0x84 0x96), (0xA784968A, .bintime 0x84 0x96 0x8A), (0xA8840000, .yield 0x84)] : List (Word × Instr)).all (fun x => decode x.1 == .ok x.2) = true := by decide +kernel

theorem test_decode_system :
    ([(0xB0009600, .exit 0x96), (0xB1009600, .trap 0x96), (0xB2009600, .tret 0x96), (0xB3000000, .beat),
      (0xB4849600, .pidx 0x84 0x96), (0xB5840000, .modeRd 0x84), (0xB6009600, .modeWr 0x96),
      (0xB784968A, .winrd 0x84 0x96 0x8A), (0xB884968A, .winwr 0x84 0x96 0x8A), (0xB9849600, .sregRd 0x84 0x96),
      (0xBA00968A, .sregWr 0x96 0x8A), (0xBB84968A, .shoot 0x84 0x96 0x8A), (0xBC00968A, .snet 0x96 0x8A),
      (0xBD849600, .clock 0x84 0x96), (0xBE000000, .brk), (0xBF009600, .halt 0x96)] : List (Word × Instr)).all (fun x => decode x.1 == .ok x.2) = true := by decide +kernel

theorem test_decode_copy :
    ([(0xC04B454E, .copyVv 0x96 0x8A 0x4E), (0xC0CB454E, .copyVt 0x96 0x8A 0x4E), (0xC14B454E, .copyTv 0x96 0x8A 0x4E),
      (0xC1CB454E, .copyTt 0x96 0x8A 0x4E), (0xC24B454E, .copyMc 0x96 0x8A 0x4E), (0xC2CB454E, .copy2d 0x96 0x8A 0x4E),
      (0xC34B454E, .copyGath 0x96 0x8A 0x4E), (0xC3CB454E, .copyFill 0x96 0x8A 0x4E), (0xC44B454E, .copyOv 0x96 0x8A 0x4E),
      (0xC4CB454E, .xfTr 0x96 0x8A 0x4E), (0xC54B454E, .xfPlane 0x96 0x8A 0x4E), (0xC5CB454E, .xfDeq 0x96 0x8A 0x4E),
      (0xC64B454E, .dcmp 0x96 0x8A 0x4E), (0xC6CB004E, .copyStat 0x96 0x4E)] : List (Word × Instr)).all (fun x => decode x.1 == .ok x.2) = true := by decide +kernel

theorem test_decode_oven :
    ([(0xD04B004E, .ovFmt 0x96 0x4E), (0xD0CB004E, .ovA 0x96 0x4E), (0xD14B004E, .ovB 0x96 0x4E),
      (0xD1CB004E, .ovIdx 0x96 0x4E), (0xD24B454E, .ovTile 0x96 0x8A 0x4E), (0xD2CB454E, .ovChain 0x96 0x8A 0x4E),
      (0xD34B004E, .ovStat 0x96 0x4E), (0xD3CB004E, .ovToken 0x96 0x4E), (0xD44B454E, .accAlloc 0x96 0x8A 0x4E),
      (0xD4CB004E, .accFree 0x96 0x4E), (0xD54B004E, .accZero 0x96 0x4E), (0xD5CB004E, .accRd 0x96 0x4E),
      (0xD64B454E, .accWr 0x96 0x8A 0x4E), (0xD6CB454E, .accSt 0x96 0x8A 0x4E), (0xD74B454E, .accDrain 0x96 0x8A 0x4E),
      (0xD7CB004E, .accMap 0x96 0x4E)] : List (Word × Instr)).all (fun x => decode x.1 == .ok x.2) = true := by decide +kernel

theorem test_decode_tower :
    ([(0xE04B454E, .tmAdd 0x96 0x8A 0x4E), (0xE0CB454E, .tmMin 0x96 0x8A 0x4E), (0xE14B454E, .tmMax 0x96 0x8A 0x4E),
      (0xE1CB454E, .tmCas 0x96 0x8A 0x4E), (0xE24B454E, .tmSacc 0x96 0x8A 0x4E)] : List (Word × Instr)).all (fun x => decode x.1 == .ok x.2) = true := by decide +kernel

theorem test_decode_carousel :
    ([(0xE84B454E, .carAcq 0x96 0x8A 0x4E), (0xE880004E, .carRel 0x4E), (0xE94B004E, .carClr 0x96 0x4E),
      (0xE9CB004E, .carCell 0x96 0x4E), (0xEA4B454E, .carCol 0x96 0x8A 0x4E), (0xEACB004E, .carDecide 0x96 0x4E),
      (0xEB4B454E, .carProp 0x96 0x8A 0x4E), (0xEBCB004E, .carBack 0x96 0x4E), (0xEC4B454E, .carLearn 0x96 0x8A 0x4E),
      (0xECCB004E, .carTrail 0x96 0x4E), (0xED4B004E, .carVar 0x96 0x4E), (0xED80004E, .carStat 0x4E)] : List (Word × Instr)).all (fun x => decode x.1 == .ok x.2) = true := by decide +kernel

theorem test_decode_spec_words :
    ((specWords.all fun x => decode x.1 == .ok x.2) && refusedWords.all fun x => decode x.1 == x.2) = true := by decide +kernel

/-- Fields that must be zero and are not (03 Table 3.10, sub-cause 0x02): b of ABS, d of NOP, b of ACQ, d of TRAP. -/
theorem test_decode_reserved :
    ([0x1882_8301, 0x0140_0000, 0x9900_0001, 0xB101_0000] : List Word).all (fun w => decode w == .error .reservedBits) = true := by
  decide +kernel

/-! ## Ill-formed terms -/

/-- A word of an assigned opcode or function is no unassigned one, and an event is no word. -/
theorem test_illformed :
    ((Instr.unassignedOpcode 0x10000000).wellFormed = false ∧ (Instr.registerWaitExpired 2).wellFormed = false ∧
      (Instr.unassignedOpcode 0xC0000000).wellFormed = false) ∧
    ((Instr.unassignedOpcode 0x3D000000).wellFormed = true ∧ (Instr.unassignedOpcode 0xF0000000).wellFormed = true ∧ (Instr.add 0x84 0x85 0x86).wellFormed = true) := by decide +kernel

/-! ## Single steps: expected values from the tables of 04 to 06 and 09 -/

/-- g5 after an instruction on g3 and g4. -/
def out (i : Instr) (a b : Word) (s : State := base) : Word :=
  reg (after i (s.onGroup 2 fun g => g.onArch fun r => (r.setG 3 a).setG 4 b)) 5

/-- The predicate p1 of thread 0 after a compare. -/
def holds (i : Instr) (a b : Word) : Bool :=
  (((gp (after i (base [(3, a), (4, b)]))).arch.p.getD 1 Ranked.zero).at 0).1 != 0

/-- i8 and n64 as the integer type. -/
def typed8 : State := moded 0x00007FFF80010000#64 base

theorem test_add_wraps : out (.add 0x85 0x83 0x84) 0xFFFFFFFF 1 = 0 := by decide +kernel
theorem test_add_i8 : out (.add 0x85 0x83 0x84) 0x7F 1 typed8 = 0xFFFFFF80 := by decide +kernel
theorem test_sub : out (.sub 0x85 0x83 0x84) 3 5 = 0xFFFFFFFE := by decide +kernel
theorem test_mul : out (.mul 0x85 0x83 0x84) 0x10001 0x10001 = 0x20001 := by decide +kernel
theorem test_mulh_signed : out (.mulh 0x85 0x83 0x84) 0xFFFFFFFF 2 = 0xFFFFFFFF := by decide +kernel
theorem test_div_by_zero : out (.div 0x85 0x83 0x84) 7 0 = 0xFFFFFFFF := by decide +kernel
theorem test_div_truncates : out (.div 0x85 0x83 0x84) 0xFFFFFFF9 2 = 0xFFFFFFFD := by decide +kernel
theorem test_rem_sign : out (.rem 0x85 0x83 0x84) 0xFFFFFFF9 2 = 0xFFFFFFFF := by decide +kernel
theorem test_rem_by_zero : out (.rem 0x85 0x83 0x84) 7 0 = 7 := by decide +kernel
theorem test_min_signed : out (.min 0x85 0x83 0x84) 0x80000000 1 = 0x80000000 := by decide +kernel
theorem test_max_signed : out (.max 0x85 0x83 0x84) 0x80000000 1 = 1 := by decide +kernel
theorem test_abs : out (.abs 0x85 0x83) 0x80000000 0 = 0x80000000 ∧ out (.abs 0x85 0x83) 0xFFFFFFFB 0 = 5 := by decide +kernel
theorem test_logic : out (.and 0x85 0x83 0x84) 0xF0 0x3C = 0x30 ∧ out (.xor 0x85 0x83 0x84) 0xF0 0x3C = 0xCC := by decide +kernel
theorem test_or_not : out (.or 0x85 0x83 0x84) 0xF0 0x3C = 0xFC ∧ out (.not 0x85 0x83) 0xF0 0 = 0xFFFFFF0F := by decide +kernel
theorem test_shl_by_width : out (.shl 0x85 0x83 0x84) 1 32 = 0 ∧ out (.shl 0x85 0x83 0x84) 1 31 = 0x80000000 := by decide +kernel
theorem test_sar_by_width : out (.sar 0x85 0x83 0x84) 0x80000000 32 = 0xFFFFFFFF ∧ out (.shr 0x85 0x83 0x84) 0x80000000 31 = 1 := by decide +kernel
theorem test_rot : out (.rot 0x85 0x83 0x84) 0x80000001 33 = 3 := by decide +kernel
theorem test_counts : out (.popc 0x85 0x83) 0xF0F00001 0 = 9 ∧ out (.clz 0x85 0x83) 0 0 = 32 := by decide +kernel
theorem test_bfx_signed : out (.bfx 0x85 0x83 0x84) 0x00000F00 0x10408 = 0xFFFFFFFF ∧ out (.bfx 0x85 0x83 0x84) 0xF00 0x0820 = 0 := by decide +kernel
theorem test_bfi : reg (after (.bfi 0x85 0x83 0x84) (base [(3, 0xAB), (4, 0x0808), (5, 0x11111111)])) 5 = 0x1111AB11 := by decide +kernel
theorem test_compares :
    holds (.cmplt 1 0x83 0x84) 0x80000000 1 = true ∧ holds (.cmple 1 0x83 0x84) 1 1 = true ∧ holds (.cmpne 1 0x83 0x84) 1 1 = false := by
  decide +kernel
theorem test_li_lih : reg (after (.li 0x85 0xFFFE) base) 5 = 0xFFFFFFFE ∧ reg (after (.lih 0x85 0x1234) (base [(5, 0xFFFFFFFE)])) 5 = 0x1234FFFE := by
  decide +kernel

/-- ADDA carries into the upper word and extends the sign of b; SUBA borrows. -/
theorem test_address_pairs :
    (let s := base [(2, 0xFFFFFFFF), (3, 1), (4, 1), (5, 0)]
     let t := after (.adda 0x86 0x82 0x84) s
     let u := after (.suba 0x86 0x84 0x82) s
     (reg t 6, reg t 7, reg u 6, reg u 7)) = (0, 2, 2, 0xFFFFFFFE) := by decide +kernel

/-- Thread numbers in a t register: each thread reads its lane number from the special register tid (code 0xF9). -/
theorem test_lanes :
    (let sum := reg (after (.reduceAdd 0x85 0xF9) base) 5
     let vote := after (.voteBal 0x86 0xF9) base
     (sum, reg (after (.reduceMax 0x85 0xF9) base) 5, reg vote 6, reg vote 7)) = (120, 15, 0xFFFE, 0) := by decide +kernel

theorem test_shuffles :
    (let t := after (.shflXor 0x05 0xF9 0x84) (base [(4, 1)])
     let u := after (.shflUp 0x05 0xF9 0x84) (base [(4, 3)])
     [0, 1, 15].map (fun i => ((((gp t).arch.t.getD 5 Ranked.zero).at i).1, (((gp u).arch.t.getD 5 Ranked.zero).at i).1))) =
      [(1, 0), (0, 1), (14, 12)] := by decide +kernel

theorem test_scan :
    (let t := after (.scanAdd 0x05 0xF9 0x84) (base [(4, 100)])
     [0, 1, 15].map (fun i => (((gp t).arch.t.getD 5 Ranked.zero).at i).1)) = [100, 101, 220] := by decide +kernel

theorem test_fadd : out (.fadd 0x85 0x83 0x84) 0x3F800000 0x3F800000 = 0x40000000 := by decide +kernel
theorem test_fadd_cancels : out (.fsub 0x85 0x83 0x84) 0x3F800000 0x3F800000 = 0 := by decide +kernel
theorem test_fmul_overflow : out (.fmul 0x85 0x83 0x84) 0x7F000000 0x40800000 = 0x7F800000 := by decide +kernel
theorem test_fdiv_by_zero : out (.fdiv 0x85 0x83 0x84) 0xBF800000 0 = 0xFF800000 := by decide +kernel
theorem test_fdiv_third : out (.fdiv 0x85 0x83 0x84) 0x3F800000 0x40400000 = 0x3EAAAAAB := by decide +kernel
theorem test_fsqrt : out (.fsqrt 0x85 0x83) 0x40000000 0 = 0x3FB504F3 ∧ out (.fsqrt 0x85 0x83) 0x80000000 0 = 0x80000000 := by decide +kernel
theorem test_frcp_frsq : out (.frcp 0x85 0x83) 0xFF800000 0 = 0x80000000 ∧ out (.frsq 0x85 0x83) 0x80000000 0 = 0xFF800000 := by decide +kernel
theorem test_fma_one_rounding :
    reg (after (.fma 0x85 0x83 0x84) (base [(3, 0x3F800001), (4, 0x3F800001), (5, 0xBF800002)])) 5 = 0x28800000 := by decide +kernel
theorem test_fmin_zeros : out (.fmin 0x85 0x83 0x84) 0 0x80000000 = 0x80000000 ∧ out (.fmax 0x85 0x83 0x84) 0x7FC00000 0x3F800000 = 0x3F800000 := by
  decide +kernel
theorem test_fabs_fneg : out (.fabs 0x85 0x83) 0xFFC00001 0 = 0x7FC00001 ∧ out (.fneg 0x85 0x83) 0 0 = 0x80000000 := by decide +kernel
theorem test_fcompare : holds (.fcmpeq 1 0x83 0x84) 0 0x80000000 = true ∧ holds (.fcmplt 1 0x83 0x84) 0x7FC00000 0 = false ∧
    holds (.fcmpun 1 0x83 0x84) 0x7FC00000 0 = true := by decide +kernel
theorem test_fclass : out (.fclass 0x85 0x83) 0x80000001 0 = 4 ∧ out (.fclass 0x85 0x83) 0x7F800001 0 = 0x100 := by decide +kernel
theorem test_cvtfi : out (.cvtfi 0x85 0x83) 0x40200000 0 = 2 ∧ out (.cvtfi 0x85 0x83) 0x4F000000 0 = 0x7FFFFFFF := by decide +kernel
theorem test_cvtif : out (.cvtif 0x85 0x83) 0x01000001 0 = 0x4B800000 := by decide +kernel

/-- The flags of a division by zero: integer [5] and floating DZ; FFLAGS reads and clears. -/
theorem test_fflags :
    (let s := (base [(4, 0xFFFFFFFF)]).onGroup 2 fun g => g.onArch fun a => { a with sticky := 0x2A }
     let t := after (.fflags 0x85 0x84) s
     (reg t 5, (gp t).arch.sticky)) = (0x2A, 0) := by decide +kernel

/-- A branch goes to PC + 4 + 4 × imm16; a call keeps PC + 4 in its pair (04 R87, R88). -/
theorem test_branches :
    ((gp (after (.br 0xFFFF) base)).arch.pc, (gp (after (.bz 0x83 5) base)).arch.pc, (gp (after (.bnz 0x83 5) base)).arch.pc) =
      (0x20000, 0x20018, 0x20004) := by decide +kernel

theorem test_call_ret :
    (let s := after (.call 0x86 2) (base [(8, 0x20040)])
     ((gp s).arch.pc, reg s 6, reg s 7, (gp (after (.ret 0x88) (base [(8, 0x20040)]))).arch.pc)) = (0x2000C, 0x20004, 0, 0x20040) := by
  decide +kernel

/-- BAR.INIT writes EXPECT and the tag; the arrival that completes a phase moves PHASE on and returns the old one. -/
theorem test_barrier :
    (let s := after (.barInit 0x84 0x85) (base [(4, 64), (5, 1)])
     let t := after (.barArrive 0x88 0x84) s
     let w := (t.teamOf (gp t)).barWord 64
     (((s.teamOf (gp s)).barWord 64).expect, (s.teamOf (gp s)).isBarrier 64, reg t 8, reg t 9, w.phase, w.arrived)) = (1, true, 0, 0, 1, 0) := by
  decide +kernel

/-- MODE.WR with a reserved ITYPE code takes a trap, a legal one is written (03 R45). -/
theorem test_mode : ((gp (after (.modeWr 0x84) (base [(4, 0x80013000), (5, 0x7FFF)]))).arch.mode) = 0x00007FFF80013000#64 := by decide +kernel
end Sys2Proof.Tests
end

/-! # Canonical form: the parts of a state

What a canonical state is made of, and when a state that was built from one is canonical again.

The parts that follow hold one lemma for each function of the model that changes the state, `State.canonical.f` for
`State.f` and `State.canonical.ctxF` for `Ctx.f`, in the model's order: from a canonical state the function makes a
canonical one. The proofs follow the functions: a function that only calls others in turn is proved by the same chain of
their lemmas, and one that decides by a case split into such chains. What touches none of memory, flash and teams is
`State.canonical.frame`.

`Elab.async` is off in them since one thread for each of their theorems asks for more memory than a check has. -/

namespace Sys2Proof.Machine

set_option Elab.async false
variable {s t : State}

/-! ## The parts of a canonical state -/

/-- The memory of a team is in its canonical form. -/
def Team.canonical (tm : Team) : Prop := Memory.wf tm.mem = true

theorem State.canonical.mem (h : s.canonical) : s.mem.wf = true := h.1

theorem State.canonical.flash (h : s.canonical) : s.flash.wf = true := h.2.1

theorem State.canonical.teams (h : s.canonical) {tm : Team} (ht : tm ∈ s.teams) : tm.canonical := h.2.2 tm ht

theorem State.canonical.team? {id tm} (h : s.canonical) (ht : s.team? id = some tm) : tm.canonical :=
  h.teams (List.mem_of_find?_eq_some ht)

/-! ## A state that was built from a canonical one -/

/-- Memory, flash and teams are untouched. -/
theorem State.canonical.frame (h : s.canonical) (hm : t.mem = s.mem := by rfl) (hf : t.flash = s.flash := by rfl)
    (ht : t.teams = s.teams := by rfl) : t.canonical := ⟨hm ▸ h.mem, hf ▸ h.flash, ht ▸ h.2.2⟩

/-- Memory alone changes. -/
theorem State.canonical.withMem (h : s.canonical) (hm : t.mem.wf = true) (hf : t.flash = s.flash := by rfl)
    (ht : t.teams = s.teams := by rfl) : t.canonical := ⟨hm, hf ▸ h.flash, ht ▸ h.2.2⟩

/-- Flash alone changes. -/
theorem State.canonical.withFlash (h : s.canonical) (hf : t.flash.wf = true) (hm : t.mem = s.mem := by rfl)
    (ht : t.teams = s.teams := by rfl) : t.canonical := ⟨hm ▸ h.mem, hf, ht ▸ h.2.2⟩

/-- Teams alone change. -/
theorem State.canonical.withTeams (h : s.canonical) (ht : ∀ tm ∈ t.teams, tm.canonical) (hm : t.mem = s.mem := by rfl)
    (hf : t.flash = s.flash := by rfl) : t.canonical := ⟨hm ▸ h.mem, hf ▸ h.flash, ht⟩

/-- The state of a result that is a pair. -/
theorem State.canonical.fst {α : Type} {p : State × α} {x : α} (h : p.1.canonical) (e : p = (t, x)) :
    t.canonical := by
  subst e; exact h

/-- The state of an optional result that is a pair. -/
theorem State.canonical.inSome {α : Type} {x : α} (h : s.canonical) :
    ∀ {t y}, some (s, x) = some (t, y) → t.canonical := by
  rintro _ _ ⟨⟩; exact h

theorem State.canonical.ite {c : Prop} [Decidable c] (hs : s.canonical) (ht : t.canonical) :
    (if c then s else t).canonical := by
  split <;> assumption

/-- One state after another, each canonical if the one before is. -/
theorem State.canonical.foldl {α : Type} {f : State → α → State} {l : List α} (h : s.canonical)
    (hf : ∀ {s : State} {x : α}, s.canonical → (f s x).canonical) : (l.foldl f s).canonical := by
  induction l generalizing s with
  | nil => exact h
  | cons x l ih => exact ih (hf h)

/-- The same where each step carries a value along. -/
theorem State.canonical.foldlFst {α β : Type} {f : State × β → α → State × β} {l : List α} {p : State × β}
    (h : p.1.canonical) (hf : ∀ {p : State × β} {x : α}, p.1.canonical → (f p x).1.canonical) :
    (l.foldl f p).1.canonical := by
  induction l generalizing p with
  | nil => exact h
  | cons x l ih => exact ih (hf h)

/-- The state that an outcome goes on with, if it does, is canonical. -/
def outcomeCanonical (o : Host.Outcome State Fault Refusal) : Prop :=
  match o with
  | .next t => t.canonical
  | _ => True

/-! ## Teams -/

/-- A change of some teams that keeps the canonical form of a team's memory. -/
theorem updateWhere_canonical {p : Team → Bool} {f : Team → Team} {l : List Team} (hl : ∀ tm ∈ l, tm.canonical)
    (hf : ∀ tm, tm.canonical → (f tm).canonical) : ∀ tm ∈ updateWhere p f l, tm.canonical := by
  intro tm ht
  obtain ⟨x, hx, rfl⟩ := List.mem_map.mp ht
  split
  · exact hf x (hl x hx)
  · exact hl x hx

end Sys2Proof.Machine

/-! # Canonical form: memory

The functions that reach memory keep the canonical form. -/

namespace Sys2Proof.Machine

set_option Elab.async false
variable {s t : State}

/-! ## Teams, groups and registers -/

theorem State.canonical.putGroup {g} (h : s.canonical) : (s.putGroup g).canonical := h.frame

theorem State.canonical.putTeam {tm} (h : s.canonical) (ht : tm.canonical) : (s.putTeam tm).canonical :=
  h.withTeams (updateWhere_canonical h.2.2 fun _ _ => ht)

theorem State.canonical.putTask {t} (h : s.canonical) : (s.putTask t).canonical := h.frame

theorem State.canonical.putCmd {c} (h : s.canonical) : (s.putCmd c).canonical := h.frame

theorem State.canonical.onGroup {id f} (h : s.canonical) : (s.onGroup id f).canonical := h.frame

/-- A change of one team; its memory is untouched unless shown otherwise. -/
theorem State.canonical.onTeam {id f} (h : s.canonical)
    (hf : ∀ tm : Team, tm.canonical → (f tm).canonical := by exact fun _ ht => ht) : (s.onTeam id f).canonical :=
  h.withTeams (updateWhere_canonical h.2.2 hf)

/-- A write to the memory of one team. -/
theorem State.canonical.writeTeam {id f} (h : s.canonical)
    (hf : ∀ tm : Team, ∃ a bs, (f tm).mem = tm.mem.write a bs := by exact fun _ => ⟨_, _, rfl⟩) :
    (s.onTeam id f).canonical :=
  h.onTeam fun tm ht => by
    obtain ⟨a, bs, e⟩ := hf tm
    rw [Team.canonical, e]
    exact Memory.write_wf ht a bs

theorem State.canonical.onContext {num f} (h : s.canonical) : (s.onContext num f).canonical := h.frame

theorem State.canonical.onCmd {id f} (h : s.canonical) : (s.onCmd id f).canonical := h.frame

theorem State.canonical.putCore {c} (h : s.canonical) : (s.putCore c).canonical := by
  fun_cases State.putCore <;> exact h.frame

theorem State.canonical.putDie {d} (h : s.canonical) : (s.putDie d).canonical := by
  fun_cases State.putDie <;> exact h.frame

theorem State.canonical.putCluster {c} (h : s.canonical) : (s.putCluster c).canonical := by
  fun_cases State.putCluster <;> exact h.frame

/-! ## Translation -/

theorem State.canonical.written {a n} (h : s.canonical) : (s.written a n).canonical := h.frame

theorem State.canonical.writePhys {a bs} (h : s.canonical) : (s.writePhys a bs).canonical :=
  h.withMem (Memory.write_wf h.mem a bs)

theorem State.canonical.markLeaf {l write} (h : s.canonical) : (s.markLeaf l write).canonical := by
  fun_cases State.markLeaf
  · exact h
  · exact h.writePhys

theorem State.canonical.used {ctx va level frame} (h : s.canonical) : (s.used ctx va level frame).canonical :=
  h.frame

theorem State.canonical.fetchSidecar {pte} (h : s.canonical) : (s.fetchSidecar pte).canonical := by
  fun_cases State.fetchSidecar
  · exact h
  · exact h.frame

theorem State.canonical.shootCores {ctx va} (h : s.canonical) : (s.shootCores ctx va).canonical := h.frame

theorem State.canonical.zeroFill {ctx va l} (h : s.canonical) : (s.zeroFill ctx va l).canonical := by
  fun_cases State.zeroFill
  · next _ _ cleared zeroed _ =>
    have hc : cleared.canonical := h.withMem (Memory.clear_wf h.mem _ _)
    have hz : zeroed.canonical := hc.writePhys
    exact hz.frame
  · exact h

theorem State.canonical.translateOn {known ctx core priv va need} (h : s.canonical) :
    (s.translateOn known ctx core priv va need).1.canonical := by
  unfold State.translateOn
  split
  · exact h
  split
  · exact h
  extract_lets now c d stale
  clear_value stale now
  split
  next s' known' use e =>
  have hs : s'.canonical := by
    split at e
    · cases e; exact h
    · split at e
      · cases e; exact h
      · cases e; exact h.frame
  extract_lets use'
  clear_value use'
  split
  · extract_lets l
    split
    · exact hs
    · exact hs.used.fetchSidecar
  · split
    · exact hs
    · split
      · exact hs.markLeaf
      · extract_lets marked filled
        have hf : filled.canonical := hs.markLeaf.zeroFill.ite hs.markLeaf
        exact hf.putCore.putDie.used.fetchSidecar

theorem State.canonical.translate {ctx core priv va need} (h : s.canonical) :
    (s.translate ctx core priv va need).1.canonical := by
  fun_cases State.translate
  exact h.translateOn.fst ‹_›

theorem State.canonical.throughFrame {ctx x off need} (h : s.canonical) :
    (s.throughFrame ctx x off need).1.canonical := by
  fun_cases State.throughFrame
  · exact h
  · next filled =>
    have hf : filled.canonical := by
      unfold filled
      split
      · split
        · exact h.zeroFill
        · exact h
      · exact h
    exact hf.used.fetchSidecar

theorem State.canonical.translateXl {known g x off w need} (h : s.canonical) :
    (s.translateXl known g x off w need).1.canonical := by
  fun_cases State.translateXl
  · exact h.throughFrame.fst ‹_›
  · exact h.translateOn

/-! ## Frames -/

theorem State.canonical.takeFrame {hbm size} (h : s.canonical) :
    ∀ {n t}, s.takeFrame hbm size = some (n, t) → t.canonical := by
  fun_cases State.takeFrame
  · rintro _ _ ⟨⟩
  · rintro _ _ ⟨⟩; exact h.frame

theorem State.canonical.takePlaced {place size} (h : s.canonical) :
    ∀ {n t}, s.takePlaced place size = some (n, t) → t.canonical := by
  fun_cases State.takePlaced
  · exact h.takeFrame
  · exact h.takeFrame
  · next drawn _ e =>
    have hd : drawn.canonical := h.frame
    rintro _ _ ⟨⟩
    exact hd.takeFrame e
  · exact h.frame.takeFrame

theorem State.canonical.freeFrame {base size} (h : s.canonical) : (s.freeFrame base size).canonical := h.frame

/-! ## Stores on their way -/

theorem State.canonical.put {l bs} (h : s.canonical) : (s.put l bs).canonical := by
  fun_cases State.put
  · exact h.writePhys
  · exact h.writeTeam

theorem State.canonical.takeLoads {gid id l n} (h : s.canonical) : (s.takeLoads gid id l n).canonical := by
  fun_cases State.takeLoads
  · exact h
  · exact h.frame

theorem State.canonical.ownWrite {g off n} (h : s.canonical) : (s.ownWrite g off n).canonical := h.takeLoads

theorem State.canonical.writeOut {x} (h : s.canonical) : (s.writeOut x).canonical := by
  fun_cases State.writeOut
  · exact h.takeLoads.put.frame
  · exact h

theorem State.canonical.commitStores {e} (h : s.canonical) : (s.commitStores e).canonical :=
  h.foldl fun h => h.writeOut

theorem State.canonical.touched {l n} (h : s.canonical) : (s.touched l n).canonical := by
  fun_cases State.touched
  · exact h.written
  · exact h

theorem State.canonical.replaced {cluster l old} (h : s.canonical) : (s.replaced cluster l old).canonical := by
  fun_cases State.replaced
  · exact h.frame
  · exact h

theorem State.canonical.performStep {scope e} (h : s.canonical) : (s.performStep scope e).canonical := by
  fun_cases State.performStep
  · exact h
  · exact h.commitStores
  · exact h.frame
  · exact h
  · next taken performed _ =>
    have ht : taken.canonical := h.takeLoads
    have hp : performed.canonical := by
      unfold performed
      split
      · exact ht.replaced.ite ht.touched
      · exact ht.touched
    exact hp.frame

theorem State.canonical.performOn {scope e} (h : s.canonical) : (s.performOn scope e).canonical :=
  h.foldl fun h => h.performStep

theorem State.canonical.issueStore {g scope cp dom l bs} (h : s.canonical) :
    (s.issueStore g scope cp dom l bs).canonical :=
  h.frame

theorem State.canonical.issueProduct {g fenced p} (h : s.canonical) : (s.issueProduct g fenced p).canonical :=
  h.frame

/-! ## Saved images -/

theorem State.canonical.spanFrom {s : State} {ctx core priv need va fuel off len acc} (h : s.canonical) :
    (s.spanFrom ctx core priv need va fuel off len acc).1.canonical := by
  fun_cases State.spanFrom
  · exact h
  · exact h
  · exact h.translate.fst ‹_›
  · exact (h.translate.fst ‹_›).spanFrom

theorem State.canonical.span {ctx core priv need va len} (h : s.canonical) :
    (s.span ctx core priv need va len).1.canonical :=
  h.spanFrom

theorem State.canonical.putSpan {segs off bs} (h : s.canonical) : (s.putSpan segs off bs).canonical :=
  h.foldl fun h => h.put.ite h

theorem State.canonical.clearSpan {segs} (h : s.canonical) : (s.clearSpan segs).canonical :=
  h.foldl fun h => h.withMem (Memory.clear_wf h.mem _ _)

theorem State.canonical.putImage {segs fields} (h : s.canonical) : (s.putImage segs fields).canonical :=
  h.clearSpan.foldl fun h => h.ite h.putSpan

end Sys2Proof.Machine

/-! # Canonical form: what ends things

The functions that end things keep the canonical form. -/

namespace Sys2Proof.Machine

set_option Elab.async false
variable {s t : State}

/-! ## The Safety Net and the event rings -/

theorem State.canonical.netRecord {kind src data fatal} (h : s.canonical) :
    (s.netRecord kind src data fatal).canonical :=
  h.frame

theorem State.canonical.pushEvent {die rcd} (h : s.canonical) : (s.pushEvent die rcd).canonical := by
  fun_cases State.pushEvent
  · exact h.putDie
  · exact (h.withMem (Memory.write_wf h.mem _ _)).putDie

/-! ## Memory of a context, and records in it -/

theorem State.canonical.readVa {ctx core priv va n} (h : s.canonical) : (s.readVa ctx core priv va n).1.canonical := by
  fun_cases State.readVa
  · exact h
  · exact h.span.fst ‹_›
  · exact h.span.fst ‹_›
  · exact h.span.fst ‹_›

theorem State.canonical.writeVa {ctx core priv va bs} (h : s.canonical) :
    (s.writeVa ctx core priv va bs).1.canonical := by
  fun_cases State.writeVa
  · exact h.span.fst ‹_›
  · exact (h.span.fst ‹_›).putSpan

theorem State.canonical.readLists {s : State} {ctx core l} (h : s.canonical) :
    (s.readLists ctx core l).1.canonical := by
  fun_cases State.readLists
  · exact h
  · exact h.readVa.fst ‹_›
  · exact (h.readVa.fst ‹_›).readLists.fst ‹_›
  · exact (h.readVa.fst ‹_›).readLists.fst ‹_›

theorem State.canonical.readRecord {ctx core task va} (h : s.canonical) :
    (s.readRecord ctx core task va).1.canonical := by
  fun_cases State.readRecord
  · exact h
  · exact h.readVa.fst ‹_›
  · exact (h.readVa.fst ‹_›).readLists.fst ‹_›
  · exact (h.readVa.fst ‹_›).readLists.fst ‹_›
  · exact (h.readVa.fst ‹_›).readLists.fst ‹_›
  · exact (h.readVa.fst ‹_›).readLists.fst ‹_›

/-! ## Reductions -/

theorem State.canonical.settleStores {g upTo dom l n} (h : s.canonical) : (s.settleStores g upTo dom l n).canonical :=
  h.foldl fun h => h.performOn.ite (h.commitStores.ite h)

theorem State.canonical.putCoherent {g id cp dom l bs} (h : s.canonical) :
    (s.putCoherent g id cp dom l bs).canonical := by
  fun_cases State.putCoherent
  · exact h.takeLoads.replaced.frame
  · exact h.takeLoads.put

theorem State.canonical.logReduction {r sub} (h : s.canonical) : (s.logReduction r sub).canonical := by
  fun_cases State.logReduction
  · exact h.frame
  · exact h.frame.writeVa.onContext

theorem State.canonical.endReduction {r} (h : s.canonical) : (s.endReduction r).canonical := by
  fun_cases State.endReduction
  · exact h.logReduction
  · exact h.frame.settleStores.putCoherent

theorem State.canonical.logFaults {ctx} (h : s.canonical) : (s.logFaults ctx).canonical :=
  h.foldl fun h => h.endReduction

theorem State.canonical.endReds {gid below} (h : s.canonical) : (s.endReds gid below).canonical :=
  h.foldl fun h => h.endReduction

theorem State.canonical.clearWay {gid id l n} (h : s.canonical) : (s.clearWay gid id l n).canonical := by
  fun_cases State.clearWay
  · exact h.endReds
  · exact h

/-! ## Releases -/

theorem State.canonical.commit {e} (h : s.canonical) : (s.commit e).canonical :=
  h.foldl fun h => h.clearWay.writeOut

theorem State.canonical.performStore {e} (h : s.canonical) : (s.performStore e).canonical := by
  fun_cases State.performStore
  · exact h.commit
  · exact h.clearWay.performOn

theorem State.canonical.performAll {scope l} (h : s.canonical) : (s.performAll scope l).canonical :=
  h.foldl fun h => h.clearWay.performOn

theorem State.canonical.clearLoads {l} (h : s.canonical) : (s.clearLoads l).canonical :=
  h.foldl fun h => h.foldl fun h => by
    split
    · exact h.clearWay
    · exact h

theorem State.canonical.freeze {g below} (h : s.canonical) : (s.freeze g below).canonical :=
  h.clearLoads.frame

theorem State.canonical.readyToRead {g l n} (h : s.canonical) : (s.readyToRead g l n).canonical :=
  h.freeze.clearLoads.frame.clearWay

theorem State.canonical.settleTeam {g id off n} (h : s.canonical) : (s.settleTeam g id off n).canonical :=
  h.takeLoads.foldl fun h => h.commit

theorem landRow_wf {soff spitch e tr r bs} {m : Memory} (h : m.wf = true) :
    Memory.wf (landRow soff spitch e tr r bs m) = true := by
  fun_cases landRow
  · generalize List.range _ = cols
    induction cols generalizing m with
    | nil => exact h
    | cons c cols ih => exact ih (Memory.write_wf h _ _)
  · exact Memory.write_wf h _ _

theorem State.canonical.landTile {g id soff spitch e tr rows} (h : s.canonical) :
    (s.landTile g id soff spitch e tr rows).canonical :=
  h.settleTeam.foldl fun h => h.onTeam fun _ ht => landRow_wf ht

theorem State.canonical.landNow {g d} (h : s.canonical) : (s.landNow g d).canonical := by
  fun_cases State.landNow
  · exact h.freeze.clearLoads.landTile.frame
  · exact h

theorem State.canonical.landTiles {g below} (h : s.canonical) : (s.landTiles g below).canonical :=
  h.foldl fun h => h.landNow

theorem State.canonical.enterCarousels {gid} (h : s.canonical) : (s.enterCarousels gid).canonical :=
  h.foldl fun h => h.putCluster.putCmd

theorem State.canonical.finishOthers {g below} (h : s.canonical) : (s.finishOthers g below).canonical :=
  h.landTiles.freeze.endReds

theorem State.canonical.release {g scope} (h : s.canonical) : (s.release g scope).canonical :=
  h.enterCarousels.finishOthers.performAll

theorem State.canonical.flush {g} (h : s.canonical) : (s.flush g).canonical :=
  h.enterCarousels.finishOthers.foldl fun h => h.commit.ite h

theorem State.canonical.rel {g scope} (h : s.canonical) : (s.rel g scope).canonical :=
  h.enterCarousels.performAll.frame.performAll.onGroup

theorem State.canonical.orderedBefore {g} (h : s.canonical) : (s.orderedBefore g).canonical :=
  h.finishOthers.performAll

theorem State.canonical.performSince {g first} (h : s.canonical) : (s.performSince g first).canonical :=
  h.freeze.orderedBefore.performAll

theorem State.canonical.settleBytes {g l n} (h : s.canonical) : (s.settleBytes g l n).canonical :=
  h.clearWay.foldl fun h => h.commit

/-! ## Retirement -/

theorem State.canonical.pageFrame {p} (h : s.canonical) : ∀ {n t}, s.pageFrame p = some (n, t) → t.canonical := by
  fun_cases State.pageFrame
  · rintro _ _ ⟨⟩; exact h
  · exact h.takeFrame

theorem Memory.foldl_set_wf {m : Memory} (h : m.wf = true) (a : Nat) (l : List (Nat × Byte)) :
    Memory.wf (l.foldl (fun (m : Memory) c => m.set (a + c.1) c.2) m) = true := by
  induction l generalizing m with
  | nil => exact h
  | cons c l ih => exact ih (Memory.set_wf h _ _)

theorem State.canonical.pageIn {ctx p} (h : s.canonical) : (s.pageIn ctx p).canonical := by
  fun_cases State.pageIn
  · have hf := h.pageFrame ‹_›
    exact (hf.withMem (Memory.foldl_set_wf (Memory.clear_wf hf.mem _ _) _ _)).writePhys.onContext
  · exact h

theorem State.canonical.bringIn {ctx va n} (h : s.canonical) : (s.bringIn ctx va n).canonical :=
  h.foldl fun h => h.pageIn

theorem State.canonical.readTcb {ctx tcb} (h : s.canonical) : (s.readTcb ctx tcb).1.canonical :=
  h.bringIn.readVa

theorem State.canonical.putTcb {ctx tcb off bs} (h : s.canonical) : (s.putTcb ctx tcb off bs).canonical :=
  h.bringIn.writeVa

theorem State.canonical.successors {ctx tcb b} (h : s.canonical) : (s.successors ctx tcb b).1.canonical := by
  fun_cases State.successors
  · exact h
  · exact h.bringIn.readVa.fst ‹_›
  · exact h.bringIn.readVa.fst ‹_›

theorem State.canonical.latch {team p f} (h : s.canonical) : (s.latch team p f).canonical := h.frame

theorem State.canonical.dropCarousel {p} (h : s.canonical) : (s.dropCarousel p).canonical := h.frame

theorem State.canonical.passCarousel {cluster} (h : s.canonical) : (s.passCarousel cluster).canonical := by
  fun_cases State.passCarousel
  · exact h.putCluster
  · exact h.putCluster.dropCarousel.latch

theorem State.canonical.loseWaits {team} (h : s.canonical) : (s.loseWaits team).canonical := h.frame

theorem State.canonical.lapse {cluster} (h : s.canonical) : (s.lapse cluster).canonical := by
  fun_cases State.lapse
  · exact h
  · exact h.loseWaits.passCarousel.onTeam

theorem State.canonical.endLease {cluster} (h : s.canonical) : (s.endLease cluster).canonical := by
  fun_cases State.endLease
  · exact h.lapse
  · exact h

theorem State.canonical.leaveCarousels {team} (h : s.canonical) : (s.leaveCarousels team).canonical :=
  h.frame.foldl fun h => h.passCarousel

theorem State.canonical.leaveOvens {team gids} (h : s.canonical) : (s.leaveOvens team gids).canonical :=
  h.frame

theorem Team.remains_canonical {tm : Team} : tm.remains.canonical := Memory.nil_wf

theorem State.canonical.dropTeam {team} (h : s.canonical) : (s.dropTeam team).canonical := by
  fun_cases State.dropTeam
  next left =>
  have hl : left.canonical := h.leaveCarousels.leaveOvens
  refine hl.withTeams fun tm ht => ?_
  obtain ⟨x, hx, e⟩ := List.mem_filterMap.mp ht
  split at e
  · split at e
    · cases e; exact Team.remains_canonical
    · cases e
  · cases e; exact hl.teams hx

theorem State.canonical.sendReplies {ctx r} (h : s.canonical) : (s.sendReplies ctx r).canonical := by
  fun_cases State.sendReplies <;> exact h.frame

theorem State.canonical.answerLaunches {s : State} {p reply l} (h : s.canonical) :
    (answerLaunches p reply l s).canonical := by
  fun_cases Machine.answerLaunches
  · exact h
  · exact h.sendReplies.answerLaunches
  · exact h.frame.answerLaunches

theorem State.canonical.replyLaunches {ctx tcb status ran rcd} (h : s.canonical) :
    (s.replyLaunches ctx tcb status ran rcd).canonical :=
  h.frame.answerLaunches

theorem State.canonical.reportEnd {ctx tcb status} (h : s.canonical) : (s.reportEnd ctx tcb status).canonical :=
  h.frame

theorem State.canonical.decrement {ctx status succ} (h : s.canonical) : (s.decrement ctx status succ).1.canonical := by
  fun_cases State.decrement
  · exact h.readTcb.fst ‹_›
  · exact ((h.readTcb.fst ‹_›).putTcb.ite (h.readTcb.fst ‹_›)).putTcb

theorem State.canonical.retireTask {x o} (h : s.canonical) : (s.retireTask x o).1.canonical := by
  unfold State.retireTask
  extract_lets rcd a b c d e f retired
  have hf : f.canonical := h.putTcb.putTcb.putTcb.pushEvent.replyLaunches.reportEnd
  clear_value f
  have hr : retired.canonical := hf.withTeams fun tm ht => by
    obtain ⟨y, hy, rfl⟩ := List.mem_map.mp ht
    have hy : y.canonical := hf.teams (List.mem_of_mem_filter hy)
    split <;> exact hy
  clear_value retired
  split
  · exact hr.readTcb.fst ‹_›
  · split
    exact (hr.readTcb.fst ‹_›).successors.fst ‹_›

theorem LaunchRecord.team_canonical {r : LaunchRecord} {id ctx tcb tag mix} : (r.team id ctx tcb tag mix).canonical :=
  Memory.nil_wf

theorem State.canonical.addTeams {l : List Team} (h : s.canonical) (hl : ∀ tm ∈ l, tm.canonical) :
    ∀ tm ∈ s.teams ++ l, tm.canonical := by
  intro tm ht
  rcases List.mem_append.mp ht with ht | ht
  · exact h.teams ht
  · exact hl tm ht

theorem State.canonical.enqueueTask {x} (h : s.canonical) : (s.enqueueTask x).canonical := by
  fun_cases State.enqueueTask
  next added _ =>
  have ha : added.canonical := h.withTeams <| h.addTeams fun tm ht => by
    obtain ⟨m, -, rfl⟩ := List.mem_map.mp ht
    exact LaunchRecord.team_canonical
  exact (ha.ite ha.putDie).putTask

theorem State.canonical.readyOne {ctx tcb} (h : s.canonical) : (s.readyOne ctx tcb).1.canonical := by
  fun_cases State.readyOne
  · exact h
  · exact h
  · exact h.readTcb.fst ‹_›
  · exact (h.readTcb.fst ‹_›).putTcb.frame
  · next e₁ _ _ _ _ added _ _ _ e₂ =>
    have ha : added.canonical := (h.readTcb.fst e₁).putTcb.frame
    exact ha.readRecord.fst e₂
  · next e₁ _ _ _ _ added _ _ _ _ e₂ =>
    have ha : added.canonical := (h.readTcb.fst e₁).putTcb.frame
    exact ha.readRecord.fst e₂
  · next e₁ _ _ _ _ added _ _ _ _ e₂ _ _ counted =>
    have ha : added.canonical := (h.readTcb.fst e₁).putTcb.frame
    have hc : counted.canonical := (ha.readRecord.fst e₂).putTask.putTcb
    exact hc.enqueueTask.ite hc

theorem State.canonical.tcbWork {s : State} {fuel l} (h : s.canonical) : (tcbWork fuel l s).canonical := by
  fun_cases Machine.tcbWork
  · exact h
  · exact h
  · exact (h.decrement.fst ‹_›).tcbWork
  · exact (h.decrement.fst ‹_›).tcbWork
  · exact (h.readyOne.fst ‹_›).tcbWork
  · next e₂ e₁ => exact ((h.readyOne.fst e₁).retireTask.fst e₂).tcbWork

theorem State.canonical.makeReady {l} (h : s.canonical) : (s.makeReady l).canonical := h.tcbWork

theorem State.canonical.endTask {t o} (h : s.canonical) : (s.endTask t o).canonical := by
  fun_cases State.endTask
  exact (h.retireTask.fst ‹_›).tcbWork

theorem State.canonical.freeCores {tm} (h : s.canonical) : (s.freeCores tm).canonical := by
  fun_cases State.freeCores
  · exact h
  · exact h.putDie
  · exact h

theorem State.canonical.retireTeam {tm o} (h : s.canonical) : (s.retireTeam tm o).canonical := by
  fun_cases State.retireTeam
  · exact ((h.foldl fun h => h.flush).pushEvent.ite (h.foldl fun h => h.flush)).freeCores.dropTeam
  · exact
    ((h.foldl fun h => h.flush).pushEvent.ite (h.foldl fun h => h.flush)).freeCores.dropTeam.putTask.putTcb.endTask
  · exact ((h.foldl fun h => h.flush).pushEvent.ite (h.foldl fun h => h.flush)).freeCores.dropTeam.putTask.putTcb

theorem State.canonical.retireHalted {ctx reason who} (h : s.canonical) : (s.retireHalted ctx reason who).canonical :=
  (h.frame.foldl fun h => h.retireTeam).foldl fun h => h.endTask

theorem State.canonical.haltContext {ctx reason src who} (h : s.canonical) :
    (s.haltContext ctx reason src who).canonical :=
  (h.netRecord.onContext.foldl fun h => h.endReduction).frame.retireHalted

theorem State.canonical.haltBy {g reason} (h : s.canonical) : (s.haltBy g reason).canonical := by
  unfold State.haltBy
  exact h.haltContext

theorem State.canonical.doubleTrap {g cause} (h : s.canonical) : (s.doubleTrap g cause).canonical :=
  h.netRecord.haltBy

end Sys2Proof.Machine

/-! # Canonical form: issue

What issues an instruction, and what only computes a result, keeps the canonical form. -/

namespace Sys2Proof.Machine

set_option Elab.async false
variable {s t : State}

/-! ## Issue -/

theorem State.canonical.startLease {team} (h : s.canonical) : (s.startLease team).canonical := by
  fun_cases State.startLease
  · exact h
  · exact h.frame

theorem State.canonical.leaseAtEnd {gid} (h : s.canonical) : (s.leaseAtEnd gid).canonical := by
  fun_cases State.leaseAtEnd
  · exact h
  · exact h.startLease
  · exact h

theorem State.canonical.endGroup {gid status detail} (h : s.canonical) : (s.endGroup gid status detail).canonical :=
  h.frame.leaseAtEnd

theorem State.canonical.standardEnd {gid cause} (h : s.canonical) : (s.standardEnd gid cause).canonical :=
  h.endGroup

theorem State.canonical.startHandler {g area cause t} (h : s.canonical) :
    (s.startHandler g area cause t).canonical := by
  fun_cases State.startHandler
  · exact h.putGroup.standardEnd
  · exact h.putGroup

theorem State.canonical.emergencySave {g record t why f} (h : s.canonical) :
    (s.emergencySave g record t why f).canonical := by
  fun_cases State.emergencySave
  · exact h.putGroup
  · exact h.putGroup
  · exact h.putGroup
  · exact h.putImage.putSpan.putCore.startHandler.onGroup

theorem State.canonical.deliver {g record t} (h : s.canonical) : (s.deliver g record t).canonical := by
  fun_cases State.deliver
  · exact h.doubleTrap
  · exact (h.span.fst ‹_›).emergencySave
  · exact (h.span.fst ‹_›).putImage.startHandler

theorem State.canonical.trap {g word cause sub detail guarded slots pairs} (h : s.canonical) :
    (s.trap g word cause sub detail guarded slots pairs).canonical :=
  h.deliver

theorem State.canonical.plainTrap {g cause sub detail} (h : s.canonical) : (s.plainTrap g cause sub detail).canonical :=
  h.trap

theorem State.canonical.emulatePlace {g team store a} (h : s.canonical) :
    (s.emulatePlace g team store a).1.canonical := by
  fun_cases State.emulatePlace
  · exact h
  · exact h
  · exact h.translate.fst ‹_›
  · exact h.translate.fst ‹_›

theorem State.canonical.emulateStore {s : State} {g e a bs} (h : s.canonical) :
    (s.emulateStore g e a bs).1.canonical := by
  fun_cases State.emulateStore
  · exact h
  · exact h.emulatePlace.fst ‹_›
  · exact (h.emulatePlace.fst ‹_›).issueStore.emulateStore

theorem State.canonical.emulateLoad {s : State} {g e a n acc} (h : s.canonical) :
    (s.emulateLoad g e a n acc).1.canonical := by
  fun_cases State.emulateLoad
  · exact h
  · exact h.emulatePlace.fst ‹_›
  · exact h.emulatePlace.fst ‹_›
  · exact (h.emulatePlace.fst ‹_›).readyToRead.emulateLoad

theorem State.canonical.emulate {s : State} {gid e rp l} (h : s.canonical) : (s.emulate gid e rp l).canonical := by
  fun_cases State.emulate
  · exact h.onGroup
  · exact h
  · exact h.emulate
  · exact (h.emulateStore.fst ‹_›).doubleTrap
  · exact (h.emulateStore.fst ‹_›).emulate
  · exact (h.emulateLoad.fst ‹_›).doubleTrap
  · exact (h.emulateLoad.fst ‹_›).putGroup.emulate

theorem State.canonical.memoryFault {g word rp f slots pairs emu} (h : s.canonical) :
    (s.memoryFault g word rp f slots pairs emu).canonical := by
  fun_cases State.memoryFault
  · exact h.putGroup
  · exact (h.span.fst ‹_›).emergencySave
  · exact (h.span.fst ‹_›).putImage.putGroup.emulate.performSince
  · exact h.deliver
  · exact h.deliver

theorem State.canonical.imageSpan {g need} (h : s.canonical) : (s.imageSpan g need).1.canonical := by
  fun_cases State.imageSpan
  · exact h
  · exact h.span

theorem State.canonical.leaveEmergency {g why t} (h : s.canonical) : (s.leaveEmergency g why t).canonical := by
  fun_cases State.leaveEmergency
  · exact (h.span.fst ‹_›).doubleTrap
  · exact (h.span.fst ‹_›).putSpan.putCore.startHandler
  · exact (h.span.fst ‹_›).putSpan.putCore.putSpan.putGroup.startLease
  · exact (h.span.fst ‹_›).putSpan.putCore.doubleTrap
  · exact (h.span.fst ‹_›).putSpan.putCore.putGroup

theorem State.canonical.trapReturn {g code} (h : s.canonical) : (s.trapReturn g code).canonical := by
  fun_cases State.trapReturn
  · exact h.flush.doubleTrap
  · exact h.flush.doubleTrap
  · exact h.flush.leaveEmergency
  · exact (h.flush.imageSpan.fst ‹_›).doubleTrap
  · exact (h.flush.imageSpan.fst ‹_›).doubleTrap
  · exact (h.flush.imageSpan.fst ‹_›).doubleTrap
  · exact ((h.flush.imageSpan.fst ‹_›).onTeam.ite (h.flush.imageSpan.fst ‹_›)).putGroup

/-! ## Results -/

theorem State.canonical.trapForm {f x cause sub detail} (h : s.canonical) :
    (s.trapForm f x cause sub detail).canonical :=
  h.trap

theorem State.canonical.trapReduction {f x} (h : s.canonical) : (s.trapReduction f x).canonical :=
  h.logFaults.trapForm

theorem State.canonical.onEmpty {f x slot} (h : s.canonical) : (s.onEmpty f x slot).canonical := by
  fun_cases State.onEmpty
  · exact h.trapForm
  · exact h.trapForm
  · exact h.putGroup

theorem State.canonical.laneCommit {c val flags} (h : s.canonical) : (laneCommit c val flags s).canonical := by
  fun_cases laneCommit <;> exact h.putGroup

theorem State.canonical.laneResume {n c} (h : s.canonical) : (laneResume n c s).canonical := h.laneCommit

theorem State.canonical.formRun {f body c} (h : s.canonical)
    (hb : ∀ {c : Ctx} {s : State}, s.canonical → (body c s).canonical) : (Form.run f body c s).canonical := by
  fun_cases Form.run
  · exact h.laneResume
  · exact hb h
  · exact hb h
  · exact (hb h).putGroup

theorem State.canonical.issueGroup {f late reads body g} (h : s.canonical)
    (hb : ∀ {c : Ctx} {s : State}, s.canonical → (body c s).canonical) :
    (s.issueGroup f late reads body g).canonical := by
  fun_cases State.issueGroup
  · exact h.trapForm
  · exact h.trapForm
  · exact h.trapForm
  · exact h.trapForm
  · exact h.trapReduction
  · exact h.trapForm
  · exact h.trapForm
  · exact h.putGroup
  · exact h.onEmpty
  · exact h.formRun hb

theorem State.canonical.issue {f body late reads} (h : s.canonical)
    (hb : ∀ {c : Ctx} {s : State}, s.canonical → (body c s).canonical) :
    outcomeCanonical (s.issue f body late reads) := by
  fun_cases State.issue
  · trivial
  · exact h.issueGroup hb

theorem State.canonical.ctxTrap {c f cause sub detail} (h : s.canonical) :
    (Ctx.trap c f s cause sub detail).canonical :=
  h.trapForm

theorem State.canonical.aluBody {uni val flags c} (h : s.canonical) : (aluBody uni val flags c s).canonical :=
  h.putGroup

/-! ## Lane instructions -/

theorem State.canonical.laneBody {val c} (h : s.canonical) : (laneBody val c s).canonical := h.laneCommit

theorem State.canonical.shuffle {op d a b rb pick} (h : s.canonical) :
    outcomeCanonical (shuffle op d a b rb pick s) := h.issue fun h => h.laneBody

theorem State.canonical.execShfl {d a b} (h : s.canonical) : outcomeCanonical (execShfl d a b s) := h.shuffle

theorem State.canonical.execShflUp {d a b} (h : s.canonical) : outcomeCanonical (execShflUp d a b s) :=
  h.shuffle

theorem State.canonical.execShflDn {d a b} (h : s.canonical) : outcomeCanonical (execShflDn d a b s) :=
  h.shuffle

theorem State.canonical.execShflXor {d a b} (h : s.canonical) : outcomeCanonical (execShflXor d a b s) :=
  h.shuffle

/-! ## Floating point -/

theorem State.canonical.floatBody {uni op a} (h : s.canonical) : (floatBody uni op a s).canonical := h.aluBody

theorem State.canonical.fmaBody {sub a} (h : s.canonical) : (fmaBody sub a s).canonical := h.floatBody

theorem State.canonical.fcompareBody {kind a} (h : s.canonical) : (fcompareBody kind a s).canonical :=
  h.floatBody

theorem State.canonical.ctxRangeTrap {c f slotA} (h : s.canonical) : (Ctx.rangeTrap c f slotA s).canonical :=
  h.trapForm

theorem State.canonical.quantBody {f c} (h : s.canonical) : (quantBody f c s).canonical := by
  fun_cases quantBody
  · exact h.ctxTrap
  · exact h.ctxRangeTrap
  · exact h.onEmpty
  · exact h.onEmpty
  · exact h.laneCommit

theorem State.canonical.deqBody {f c} (h : s.canonical) : (deqBody f c s).canonical := by
  fun_cases deqBody
  · exact h.ctxTrap
  · exact h.ctxRangeTrap
  · exact h.onEmpty
  · exact h.onEmpty
  · exact h.putGroup

theorem State.canonical.execTfence (h : s.canonical) : outcomeCanonical (execTfence s) :=
  h.issue fun h => h.putGroup.ite h.ctxTrap

theorem State.canonical.wideFloat {op d a b} (h : s.canonical) : outcomeCanonical (wideFloat op d a b s) := by
  fun_cases wideFloat
  · trivial
  · exact h.trapForm

end Sys2Proof.Machine

/-! # Canonical form: accesses and waits

Loads, stores, atomics and waits keep the canonical form. -/

namespace Sys2Proof.Machine

set_option Elab.async false
variable {s t : State}

/-! ## Deliveries -/

theorem State.canonical.setSpanBit {segs off i} (h : s.canonical) : (s.setSpanBit segs off i).canonical :=
  h.putSpan

theorem State.canonical.landImage {segs x} (h : s.canonical) : (s.landImage segs x).canonical := by
  fun_cases State.landImage <;> exact h.putSpan.setSpanBit

theorem State.canonical.landAll {gid super ws} (h : s.canonical) : (s.landAll gid super ws).canonical := by
  fun_cases State.landAll
  · exact h
  · exact h
  · exact h.putGroup
  · exact h.putGroup
  · exact h.imageSpan.fst ‹_›
  · exact (h.imageSpan.fst ‹_›).foldl fun h => h.landImage

theorem State.canonical.wake {gid} (h : s.canonical) : (s.wake gid).canonical := h.onGroup

theorem State.canonical.landFull {gid super n} (h : s.canonical) : (s.landFull gid super n).canonical := by
  fun_cases State.landFull
  · exact h
  · exact h
  · exact h.putGroup
  · exact h.putGroup
  · exact h.imageSpan.fst ‹_›
  · exact (h.imageSpan.fst ‹_›).setSpanBit

theorem State.canonical.deliverNow {g d} (h : s.canonical) : (s.deliverNow g d).canonical := by
  fun_cases State.deliverNow
  · exact h.clearLoads.landAll.frame.wake
  · exact h.clearLoads.landAll.frame.wake
  · exact (h.clearLoads.landTile.landFull.ite h.clearLoads.landTile).frame.wake
  · exact h.clearLoads.landFull.frame.wake

theorem State.canonical.landSince {g first} (h : s.canonical) : (s.landSince g first).canonical :=
  h.foldl fun h => by
    extract_lets ready
    have hr : ready.canonical := h.freeze.foldl fun h => by
      split
      · exact h.readyToRead
      · exact h
    split
    · exact hr.deliverNow
    · exact hr

/-! ## Accesses -/

theorem State.canonical.translateOnce {memo g x w need} (h : s.canonical) :
    (s.translateOnce memo g x w need).1.canonical := by
  fun_cases State.translateOnce
  · exact h
  · exact h
  all_goals
    next e =>
    split at e
    · exact h.translateXl.fst (Prod.mk.inj e).1
    · exact h.translateOn.fst (Prod.mk.inj e).1

theorem State.canonical.spot {memo g t w need align} (h : s.canonical) :
    (s.spot memo g t w need align).1.canonical := by
  fun_cases State.spot
  · exact h
  · exact h
  · exact h
  · exact h
  · exact h
  · exact h.translateOnce.fst ‹_›
  · exact h.translateOnce.fst ‹_›

theorem State.canonical.tryAll {g targets w need align} (h : s.canonical) :
    (s.tryAll g targets w need align).1.canonical :=
  State.canonical.foldlFst (p := (s, Memo.none, [])) h fun h => h.spot

theorem State.canonical.tryReads {g targets w align} (h : s.canonical) :
    (s.tryReads g targets w align).1.canonical := by
  fun_cases State.tryReads
  exact h.tryAll.fst ‹_›

theorem State.canonical.ctxPark {c f k fails addrs held pidx} (h : s.canonical) :
    (Ctx.park c f k fails addrs held pidx s).canonical := by
  fun_cases Ctx.park
  · exact h.memoryFault
  · exact h

theorem State.canonical.ctxFinishMem {α : Type} {c : Ctx} {f k addrs held first} {l : List (Tried α)}
    (h : s.canonical) :
    (c.finishMem f k l addrs held first s).canonical := by
  fun_cases Ctx.finishMem
  · exact h.onGroup
  · exact h.landSince.ctxPark

theorem State.canonical.shootImage {g va} (h : s.canonical) : (s.shootImage g va).canonical := by
  fun_cases State.shootImage
  · exact h
  · exact h.imageSpan.fst ‹_›
  · exact (h.imageSpan.fst ‹_›).foldl fun h => h.ite h.putSpan

theorem State.canonical.shootSaved {ctx va} (h : s.canonical) : (s.shootSaved ctx va).canonical :=
  h.foldl fun h => h.shootImage

theorem State.canonical.shootPage {ctx va} (h : s.canonical) : (s.shootPage ctx va).canonical :=
  h.shootCores.shootSaved

theorem State.canonical.settleShots (h : s.canonical) : s.settleShots.canonical :=
  h.frame.foldl fun h => h.shootSaved

/-! ## Waits -/

theorem State.canonical.finishWait {g w ws timeout} (h : s.canonical) : (s.finishWait g w ws timeout).canonical := by
  fun_cases State.finishWait
  · exact h.putGroup
  · exact h.plainTrap

theorem State.canonical.putBar {team off b} (h : s.canonical) : (s.putBar team off b).canonical := h.writeTeam

theorem State.canonical.clobber {team off ovf} (h : s.canonical) : (s.clobber team off ovf).canonical := by
  unfold State.clobber
  exact h.writeTeam.latch

theorem State.canonical.barComplete {team off} (h : s.canonical) : (s.barComplete team off).canonical := by
  fun_cases State.barComplete
  · exact h
  · exact h.putBar.latch
  · exact h

theorem State.canonical.arrive {team off} (h : s.canonical) : (s.arrive team off).1.canonical := by
  fun_cases State.arrive
  · exact h
  · exact h
  · exact h.clobber
  · exact h.putBar.barComplete

theorem State.canonical.barPend {team off n} (h : s.canonical) : (s.barPend team off n).canonical := by
  fun_cases State.barPend
  · exact h
  · exact h
  · exact h.clobber
  · exact h.putBar.barComplete

theorem State.canonical.barWithdraw {team off token} (h : s.canonical) : (s.barWithdraw team off token).canonical := by
  fun_cases State.barWithdraw
  · exact h
  · exact h.putBar
  · exact h

theorem State.canonical.putHeader {team hdr off bs} (h : s.canonical) : (s.putHeader team hdr off bs).canonical :=
  h.writeTeam

theorem State.canonical.trySend {g w entry msg} (h : s.canonical) :
    ∀ {t x}, s.trySend g w entry msg = some (t, x) → t.canonical := by
  fun_cases State.trySend
  · exact h.inSome
  · exact h.inSome
  · exact h.inSome
  · exact h.inSome
  · exact nofun
  · next sent _ _ =>
    have hs : sent.canonical := h.release.onTeam
    rintro _ _ ⟨⟩
    exact hs.frame

theorem State.canonical.takeEntry {g w queue} (h : s.canonical) : (s.takeEntry g w queue).1.canonical := by
  fun_cases State.takeEntry
  · exact h
  · exact h.ownWrite.putHeader.putHeader

theorem State.canonical.grantEntry {g w queue} (h : s.canonical) : (s.grantEntry g w queue).canonical := by
  fun_cases State.grantEntry
  exact (h.takeEntry.fst ‹_›).onGroup

theorem State.canonical.tryReceive {g w queue} (h : s.canonical) :
    ∀ {t x}, s.tryReceive g w queue = some (t, x) → t.canonical := by
  fun_cases State.tryReceive
  · rintro _ _ ⟨⟩; exact h
  · rintro _ _ ⟨⟩
  · intro t x e
    exact (h.foldl fun h => h.grantEntry).takeEntry.fst (Option.some.inj e)

theorem State.canonical.satisfied {g w} (h : s.canonical) : ∀ {t x}, s.satisfied g w = some (t, x) → t.canonical := by
  fun_cases State.satisfied
  · exact h.inSome
  · exact h.inSome
  · exact h.inSome
  · exact nofun
  · exact h.onGroup.inSome
  · exact nofun
  · exact h.inSome
  · exact nofun
  · exact nofun
  · exact h.inSome
  · exact h.trySend
  · exact h.tryReceive
  · exact nofun
  · exact nofun
  · exact nofun
  · exact h.inSome
  · exact h.onTeam.inSome
  · exact nofun
  · exact nofun
  · exact nofun
  · exact h.inSome
  · exact nofun
  · exact h.inSome
  · exact nofun
  · exact nofun
  · exact h.inSome
  · exact nofun

theorem State.canonical.withdraw {g w} (h : s.canonical) : (s.withdraw g w).1.canonical := by
  fun_cases State.withdraw
  · exact h.barWithdraw.ite h
  · exact h
  · exact h.onTeam
  · exact h.dropCarousel
  · exact h.dropCarousel
  · exact h

theorem State.canonical.checkWait {g w} (h : s.canonical) : (s.checkWait g w).canonical := by
  fun_cases State.checkWait
  · exact h.satisfied ‹_›
  · exact (h.satisfied ‹_›).finishWait
  · exact (h.withdraw.fst ‹_›).finishWait
  · exact h.putGroup

theorem State.canonical.beginWait {g obj dst onTimeout a} (h : s.canonical) :
    (s.beginWait g obj dst onTimeout a).canonical :=
  h.frame.checkWait

theorem State.canonical.settleWaits (h : s.canonical) : s.settleWaits.canonical :=
  h.foldl fun h => by
    split
    · exact h
    · split
      · exact h
      · split
        · exact h
        · split
          · exact h.satisfied ‹_›
          · exact (h.satisfied ‹_›).finishWait

/-! ## Loads and stores -/

theorem State.canonical.ctxStartLoad {c n signed i src} (h : s.canonical) :
    (Ctx.startLoad c n signed s i src).canonical := by
  fun_cases Ctx.startLoad
  · exact h
  · next read =>
    have hr : read.canonical := by
      unfold read
      split
      · exact h.readyToRead
      · exact h.freeze
    exact hr.putGroup
  · exact h.issueProduct
  · exact h.issueProduct
  · exact h

theorem State.canonical.loadBody {f float team target c} (h : s.canonical) :
    (loadBody f float team target c s).canonical := by
  fun_cases loadBody
  exact ((h.tryReads.fst ‹_›).putGroup.foldl fun h => h.ctxStartLoad).ctxFinishMem

theorem State.canonical.storeBody {f float team target c} (h : s.canonical) :
    (storeBody f float team target c s).canonical := by
  fun_cases Machine.storeBody
  next e _ _ issued performed =>
  have hi : issued.canonical := (h.tryAll.fst e).foldl fun h => h.issueStore
  have hp : performed.canonical := hi.ite hi.performSince
  exact hp.ctxFinishMem

theorem State.canonical.rowSpots {g memo need va via n} (h : s.canonical) :
    (s.rowSpots g memo need va via n).1.canonical :=
  h.foldlFst (p := (s, _)) fun h => by
    split
    · exact h
    · dsimp only
      split
      · exact State.canonical.fst h.spot ‹_›
      · exact h.spot.fst ‹_›

theorem State.canonical.tileRows {g need base xl x first last} (h : s.canonical) :
    (s.tileRows g need base xl x first last).1.canonical :=
  h.foldlFst (p := (s, _)) fun h => by
    split
    · exact h
    · dsimp only
      split
      · exact h.rowSpots.fst ‹_›
      · exact h.rowSpots.fst ‹_›

theorem State.canonical.ctxParkTile {c f kind base words row va m} (h : s.canonical) :
    (Ctx.parkTile c f kind base words row va m s).canonical :=
  h.ctxPark

theorem State.canonical.landRows {g t rows} (h : s.canonical) : (s.landRows g t rows).canonical :=
  h.frame.freeze.clearLoads.landTile

theorem State.canonical.ldtBody {f e tr xl c} (h : s.canonical) : (ldtBody f e tr xl c s).canonical := by
  fun_cases ldtBody
  · exact h.putGroup.ctxParkTile
  · exact ((h.putGroup.tileRows.fst ‹_›).landRows.ite (h.putGroup.tileRows.fst ‹_›).issueProduct).onGroup
  · exact (h.putGroup.tileRows.fst ‹_›).landRows.ctxParkTile

theorem State.canonical.sttBody {f xl c} (h : s.canonical) : (sttBody f xl c s).canonical := by
  unfold Machine.sttBody
  split
  split
  extract_lets n first last marked
  have hm : marked.canonical := h.putGroup
  clear_value marked
  split
  · exact hm.ctxParkTile
  · split
    next e =>
    extract_lets ready before stored
    have hs : stored.canonical := (hm.tileRows.fst e).readyToRead.foldl fun h =>
      h.foldlFst (p := (_, _)) fun h => h.issueStore
    split
    · exact (hs.ite hs.issueProduct).onGroup
    · exact hs.performSince.ctxParkTile

theorem State.canonical.xltReg {g old va} (h : s.canonical) : (s.xltReg g old va).1.canonical := by
  fun_cases State.xltReg
  · exact h
  · exact h.translate.fst ‹_›
  · exact h.translate.fst ‹_›

theorem State.canonical.execXlt {d a} (h : s.canonical) : outcomeCanonical (execXlt d a s) :=
  h.issue fun h => by
    split
    exact (h.xltReg.fst ‹_›).putGroup

theorem State.canonical.lineOf {memo c xl i} (h : s.canonical) : (s.lineOf memo c xl i).1.canonical := by
  fun_cases State.lineOf <;> exact h.spot.fst ‹_›

theorem State.canonical.writeBack {g line l2} (h : s.canonical) : (s.writeBack g line l2).canonical :=
  h.foldl fun h => h.ite (h.commit.ite h.frame)

theorem State.canonical.lineBody {xl act c} (h : s.canonical)
    (ha : ∀ {s : State} {g line}, s.canonical → (act s g line).canonical) : (lineBody xl act c s).canonical := by
  unfold Machine.lineBody
  extract_lets lines
  have hl : lines.1.canonical := h.foldlFst (p := (s, Memo.none)) fun h => by
    split
    · exact h.lineOf.fst ‹_›
    · exact ha (h.lineOf.fst ‹_›)
  exact hl.onGroup

theorem State.canonical.armMonitor {g line} (h : s.canonical) : (s.armMonitor g line).canonical := h.putCore

theorem State.canonical.disarm {gid} (h : s.canonical) : (s.disarm gid).canonical := h.frame

theorem State.canonical.waitmemPass {f c w x expect} (h : s.canonical) : (s.waitmemPass f c w x expect).canonical := by
  unfold State.waitmemPass
  extract_lets park _ waiting
  have hw : waiting.canonical := h.putGroup
  clear_value waiting
  split
  · exact (hw.spot.fst ‹_›).ctxPark
  · next s₁ _ p e =>
    have h₁ : s₁.canonical := hw.spot.fst e
    split
    · exact h₁.ctxPark
    · exact h₁
    · extract_lets armed ready v
      have ha : armed.canonical := by
        unfold armed
        split
        · exact h₁.armMonitor
        · exact h₁
      have hr : ready.canonical := ha.readyToRead
      exact hr.disarm.finishWait.ite (hr.disarm.finishWait.ite hr.putGroup)

theorem State.canonical.waitmemBody {f xl c} (h : s.canonical) : (waitmemBody f xl c s).canonical := by
  fun_cases waitmemBody
  · exact h.waitmemPass
  · exact h.checkWait
  · exact h.ctxTrap
  · exact h.frame.waitmemPass

theorem State.canonical.discardPage {g va} (h : s.canonical) : (s.discardPage g va).canonical := by
  fun_cases State.discardPage
  · exact h
  · exact h.frame.writePhys

theorem State.canonical.discardBody {f xl c} (h : s.canonical) : (discardBody f xl c s).canonical := by
  fun_cases discardBody
  · exact h.checkWait
  · exact h.ctxPark
  · exact (h.spot.fst ‹_›).ctxPark
  · exact (h.spot.fst ‹_›).freeze.discardPage.frame
  · exact (h.spot.fst ‹_›).freeze.discardPage.frame.beginWait

/-! ## Atomics -/

theorem State.canonical.atomicReady {g spec} (h : s.canonical) : (s.atomicReady g spec).canonical :=
  (h.ite h.freeze).orderedBefore

theorem State.canonical.settledValue {g p w} (h : s.canonical) : (s.settledValue g p w).1.canonical :=
  h.clearWay.settleStores

theorem State.canonical.putAtomic {g p bs} (h : s.canonical) : (s.putAtomic g p bs).canonical :=
  h.frame.putCoherent

theorem State.canonical.atomRequest {c op exch p threads} (h : s.canonical) :
    (s.atomRequest c op exch p threads).1.canonical := by
  fun_cases State.atomRequest
  exact ((h.settledValue.fst ‹_›).frame.ite (h.settledValue.fst ‹_›)).putAtomic

theorem State.canonical.atomBody {f op exch xl c} (h : s.canonical) : (atomBody f op exch xl c s).canonical := by
  unfold Machine.atomBody
  extract_lets w n use threads held words targets
  split
  next e =>
  extract_lets _ ready first sent
  have hr : ready.canonical := (h.tryAll.fst e).onGroup.atomicReady
  have hs : sent.canonical := hr.foldl fun h => by
    split
    refine (h.atomRequest.fst ‹_›).foldl fun h => ?_
    split
    · exact h
    · exact h.issueProduct
  exact hs.ctxFinishMem

theorem State.canonical.intAtomic {opc op exch d x o} (h : s.canonical) :
    outcomeCanonical (intAtomic opc op exch d x o s) := h.issue fun h => h.atomBody

theorem State.canonical.ctxSendRequest {c op w memo q} (h : s.canonical) :
    (Ctx.sendRequest c op w memo q s).1.canonical := by
  fun_cases Ctx.sendRequest
  exact (h.spot.fst ‹_›).frame

theorem State.canonical.ctxSendRequests {s : State} {c op w stop memo l} (h : s.canonical) :
    (Ctx.sendRequests c op w stop memo l s).1.canonical := by
  fun_cases Ctx.sendRequests
  · exact h
  · exact h
  · exact (h.ctxSendRequest.fst ‹_›).ctxSendRequests

theorem State.canonical.redBody {f op xl c} (h : s.canonical) : (redBody f op xl c s).canonical := by
  fun_cases redBody
  · exact h.ctxPark
  · exact (h.atomicReady.ctxSendRequests.fst ‹_›).onGroup
  · exact (h.atomicReady.ctxSendRequests.fst ‹_›).onGroup

/-! ## Barriers, queues and fences -/

theorem State.canonical.ctxArmed {c : Ctx} {f go} (h : s.canonical)
    (hg : ∀ {a} {s : State}, s.canonical → (go a s).canonical) : (c.armed f s go).canonical := by
  fun_cases Ctx.armed
  · exact h.ctxTrap
  · exact hg h

theorem State.canonical.ctxWaiting {c : Ctx} {first} (h : s.canonical)
    (hf : ∀ {s : State}, s.canonical → (first s).canonical) : (c.waiting s first).canonical := by
  fun_cases Ctx.waiting
  · exact h.checkWait
  · exact hf h

theorem State.canonical.ctxAnswer {c ws} (h : s.canonical) : (Ctx.answer c ws s).canonical := h.onGroup

theorem State.canonical.ctxOnBarrier {c : Ctx} {f init go} (h : s.canonical)
    (hg : ∀ {off} {s : State}, s.canonical → (go off s).canonical) : (c.onBarrier f init go s).canonical := by
  unfold Ctx.onBarrier
  extract_lets off bad
  clear_value bad
  split
  · exact h.ctxPark
  · exact hg h.ownWrite

theorem State.canonical.settleLine {team off} (h : s.canonical) : (s.settleLine team off).canonical := by
  refine State.canonical.foldl (h.foldl fun h => ?_) fun h => h.commit
  split
  · exact h
  · exact h.landNow.ite h

theorem State.canonical.execBarInit {a b} (h : s.canonical) : outcomeCanonical (execBarInit a b s) :=
  h.issue fun h => h.ctxOnBarrier fun h => h.settleLine.putBar.onTeam.onGroup

theorem State.canonical.execBarArrive {d a} (h : s.canonical) : outcomeCanonical (execBarArrive d a s) :=
  h.issue fun h => h.ctxOnBarrier fun h => by
    split
    refine State.canonical.ctxAnswer ?_
    exact (h.release.arrive.fst ‹_›).frame

theorem State.canonical.execBarWait {d a b} (h : s.canonical) : outcomeCanonical (execBarWait d a b s) :=
  h.issue fun h => h.ctxWaiting fun h => h.ctxArmed fun h => h.ctxOnBarrier fun h => by
    split
    exact (h.release.arrive.fst ‹_›).beginWait

theorem State.canonical.execBarInval {a} (h : s.canonical) : outcomeCanonical (execBarInval a s) :=
  h.issue fun h => h.ctxOnBarrier fun h => (h.clobber.ite h).onGroup

theorem State.canonical.execBarExpect {a b} (h : s.canonical) : outcomeCanonical (execBarExpect a b s) :=
  h.issue fun h => h.ctxOnBarrier fun h => h.barPend.onGroup

theorem State.canonical.execWaitf {d a b} (h : s.canonical) : outcomeCanonical (execWaitf d a b s) :=
  h.issue fun h => h.ctxWaiting fun h => h.ctxArmed fun h => h.ctxOnBarrier fun h => h.beginWait

theorem State.canonical.closeBody {c} (h : s.canonical) : (closeBody c s).canonical := by
  fun_cases closeBody
  · exact h.ctxAnswer
  · exact h.onGroup.ctxAnswer

theorem State.canonical.execWaitb {d a b} (h : s.canonical) : outcomeCanonical (execWaitb d a b s) :=
  h.issue fun h => h.ctxWaiting fun h => h.ctxArmed fun h => h.beginWait

theorem State.canonical.widen {g scope} (h : s.canonical) : (s.widen g scope).canonical := h.frame.performAll

theorem State.canonical.execFence {d a b} (h : s.canonical) : outcomeCanonical (execFence d a b s) :=
  h.issue fun h => h.ctxWaiting fun h => h.ctxArmed fun h => h.widen.beginWait

theorem State.canonical.execRel (h : s.canonical) : outcomeCanonical (execRel s) :=
  h.issue fun h => h.rel.onGroup

theorem State.canonical.execAcqRem {d a b} (h : s.canonical) : outcomeCanonical (execAcqRem d a b s) :=
  h.issue fun h => h.ctxWaiting fun h => h.ctxArmed fun h => State.canonical.beginWait (by exact h.frame)

theorem State.canonical.promote {p} (h : s.canonical) : (s.promote p).canonical := h.performAll.frame

theorem State.canonical.execQsend {d a b} (h : s.canonical) : outcomeCanonical (execQsend d a b s) :=
  h.issue fun h => h.ctxWaiting fun h => by
    split
    · exact h.ctxTrap
    · exact h.beginWait

theorem State.canonical.execQrecv {d a b} (h : s.canonical) : outcomeCanonical (execQrecv d a b s) :=
  h.issue fun h => h.ctxWaiting fun h => h.ctxArmed fun h => h.beginWait

theorem State.canonical.returnPermits {tm q hd n} (h : s.canonical) : (s.returnPermits tm q hd n).canonical :=
  h.foldl fun h => by
    dsimp only
    split
    · exact h
    · exact h.frame

theorem State.canonical.execQcredit {d a b} (h : s.canonical) : outcomeCanonical (execQcredit d a b s) :=
  h.issue fun h => by
    split
    · exact h.ctxAnswer
    · exact h.returnPermits.ownWrite.putHeader.ctxAnswer

end Sys2Proof.Machine

/-! # Canonical form: units

The units beside the cores keep the canonical form. -/

namespace Sys2Proof.Machine

set_option Elab.async false
variable {s t : State}

/-! ## Coprocessor commands -/

theorem State.canonical.issueCmd {c cmd} (h : s.canonical) : (s.issueCmd c cmd).canonical :=
  h.flush.frame.onGroup

theorem State.canonical.completeCmd {c value} (h : s.canonical) : (s.completeCmd c value).canonical := by
  fun_cases State.completeCmd
  · exact h.putCmd
  · exact h.putCmd.landAll.wake

theorem State.canonical.engineRead {ctx core priv va n} (h : s.canonical) :
    (s.engineRead ctx core priv va n).1.canonical := by
  unfold State.engineRead
  split
  · exact h
  refine h.foldlFst (p := (s, _)) fun h => ?_
  split
  · exact h
  · split
    · exact State.canonical.translate h |>.fst ‹_›
    · next e =>
      have ht := (State.canonical.translate h).fst e
      split <;> exact ht

theorem State.canonical.engineWrite {ctx core priv va bs masks} (h : s.canonical) :
    (s.engineWrite ctx core priv va bs masks).1.canonical := by
  fun_cases State.engineWrite
  · exact h.span.fst ‹_›
  · exact (h.span.fst ‹_›).putSpan

/-! ## Copies and transforms -/

theorem State.canonical.streamFrom {s : State} {c va n fuel off acc} (h : s.canonical) :
    (s.streamFrom c va n fuel off acc).1.canonical := by
  fun_cases State.streamFrom
  · exact h
  · exact h
  · exact h.engineRead.fst ‹_›
  · exact (h.engineRead.fst ‹_›).streamFrom

theorem State.canonical.stream {c va n} (h : s.canonical) : (s.stream c va n).1.canonical := h.streamFrom

theorem State.canonical.planVa {c va n dest} (h : s.canonical) : (s.planVa c va n dest).1.canonical := by
  fun_cases State.planVa
  exact h.stream.fst ‹_›

theorem State.canonical.planRows {read dest rows n} (h : s.canonical)
    (hr : ∀ {s : State} {r}, s.canonical → (read s r).1.canonical) : (s.planRows read dest rows n).1.canonical :=
  h.foldlFst (p := (s, _)) fun h => by
    split
    · exact h
    · split
      exact (hr h).fst ‹_›

theorem State.canonical.plan2D {c d} (h : s.canonical) : (s.plan2D c d).1.canonical :=
  h.planRows fun h => by
    dsimp only
    split
    · exact h
    · exact h.stream

theorem State.canonical.planGather {c} (h : s.canonical) : (s.planGather c).1.canonical :=
  h.planRows fun h => h.stream

theorem State.canonical.rowsOf {c base pitch rows n} (h : s.canonical) :
    (s.rowsOf c base pitch rows n).1.canonical :=
  h.foldlFst (p := (s, _)) fun h => by
    split
    · exact h
    · split
      exact State.canonical.stream h |>.fst ‹_›

theorem State.canonical.planTranspose {c} (h : s.canonical) : (s.planTranspose c).1.canonical := by
  fun_cases State.planTranspose
  exact h.rowsOf.fst ‹_›

theorem State.canonical.planeRows {c d k r} (h : s.canonical) : (s.planeRows c d k r).1.canonical :=
  h.foldlFst (p := (s, _)) fun h => h.stream

theorem State.canonical.planExtract {c d} (h : s.canonical) : (s.planExtract c d).1.canonical :=
  h.planRows fun h => by
    split <;> exact h.stream.fst ‹_›

theorem State.canonical.planValues {c d size row} (h : s.canonical)
    (hr : ∀ {s : State} {r x}, s.canonical → (row s r x).1.canonical) : (s.planValues c d size row).1.canonical :=
  h.planRows fun h => by
    split
    dsimp only
    split <;> exact hr (h.planeRows.fst ‹_›)

theorem State.canonical.deqRow {c d scale len r x} (h : s.canonical) : (s.deqRow c d scale len r x).1.canonical := by
  fun_cases State.deqRow
  exact h.stream.fst ‹_›

theorem State.canonical.planCmd {c} (h : s.canonical) : (s.planCmd c).1.canonical := by
  fun_cases State.planCmd
  · exact h.stream
  · exact h.stream
  · exact h.stream
  · exact h
  · exact h
  · exact h.stream.fst ‹_›
  · exact h.plan2D
  · exact h.planGather
  · exact h
  · exact h.planTranspose
  · exact h
  · exact h
  · exact h.planExtract
  · exact h.planValues fun h => h
  · exact h
  · exact h.planValues fun h => h.deqRow
  · exact h.stream.fst ‹_›
  · exact h

theorem State.canonical.readCard {c tm off} (h : s.canonical) : (s.readCard c tm off).1.canonical := h.frame

theorem State.canonical.decideCmd {c tm} (h : s.canonical) : (s.decideCmd c tm).canonical := by
  fun_cases State.decideCmd <;> exact h.putCmd

theorem State.canonical.acceptCmd {c} (h : s.canonical) : (s.acceptCmd c).canonical := by
  fun_cases State.acceptCmd
  · exact h.putCmd
  · exact h.decideCmd
  · exact (h.readCard.fst ‹_›).decideCmd
  · exact (h.readCard.fst ‹_›).putCmd
  · exact h.decideCmd

theorem State.canonical.writeUnit {c u} (h : s.canonical) : (s.writeUnit c u).1.canonical := by
  fun_cases State.writeUnit
  · exact h.engineWrite.fst ‹_›
  · exact h.engineWrite.fst ‹_›
  · exact h
  · exact h
  · exact h.writeTeam
  · exact h.writeTeam.barPend

theorem State.canonical.moveUnit {c} (h : s.canonical) : (s.moveUnit c).canonical := by
  fun_cases State.moveUnit
  · exact h.putCmd
  · exact (h.writeUnit.fst ‹_›).putCmd
  · exact (h.writeUnit.fst ‹_›).putCmd
  · exact (h.planCmd.fst ‹_›).putCmd

theorem State.canonical.closeCard {c} (h : s.canonical) : (s.closeCard c).canonical := by
  fun_cases State.closeCard
  · refine h.onTeam fun tm ht => ?_
    split
    · exact ht
    · exact Memory.write_wf ht _ _
  · exact h

theorem State.canonical.clobberNamed {c} (h : s.canonical) : (s.clobberNamed c).canonical := by
  fun_cases State.clobberNamed
  · exact h
  · exact h
  · exact h.clobber

theorem State.canonical.copyBody {func pair n r c} (h : s.canonical) : (copyBody func pair n r c s).canonical := by
  fun_cases copyBody
  · exact h
  · exact h.issueCmd

theorem State.canonical.copyCommand {func pair n va a b r} (h : s.canonical) :
    outcomeCanonical (copyCommand func pair n va a b r s) := h.issue fun h => h.copyBody

theorem State.canonical.execCopyStat {a r} (h : s.canonical) : outcomeCanonical (execCopyStat a r s) :=
  h.issue fun h => h.putGroup.issueProduct

/-! ## Sums in an Oven -/

theorem State.canonical.ovenBytes {c team addr n} (h : s.canonical) : (s.ovenBytes c team addr n).1.canonical := by
  fun_cases State.ovenBytes
  · exact h
  · exact h
  · exact h.stream.fst ‹_›
  · exact h.stream.fst ‹_›

theorem State.canonical.ovenRanges {c team l} (h : s.canonical) : (s.ovenRanges c team l).1.canonical :=
  h.foldlFst (p := (s, _)) fun h => by
    split
    · exact h
    · split <;> exact (State.canonical.ovenBytes h).fst ‹_›

theorem State.canonical.operandRow {c f base q ka n} (h : s.canonical) :
    (s.operandRow c f base q ka n).1.canonical := by
  fun_cases State.operandRow
  · exact h.ovenBytes.fst ‹_›
  · exact h.ovenBytes.fst ‹_›
  · exact h.ovenRanges.fst ‹_›
  · exact (h.ovenRanges.fst ‹_›).ovenBytes.fst ‹_›
  · exact (h.ovenRanges.fst ‹_›).ovenBytes.fst ‹_›

theorem State.canonical.operandRows {c f base rows ka n} (h : s.canonical) :
    (s.operandRows c f base rows ka n).1.canonical :=
  h.foldlFst (p := (s, _)) fun h => by
    split
    · exact h
    · split <;> exact (State.canonical.operandRow h).fst ‹_›

/-! ## Ovens -/

theorem State.canonical.onOven {cluster f} (h : s.canonical) : (s.onOven cluster f).canonical := h.putCluster

theorem State.canonical.bindQueue {cluster gid} (h : s.canonical) : (s.bindQueue cluster gid).1.canonical := by
  fun_cases State.bindQueue
  · exact h.onOven
  · exact h.onOven
  · exact h.onOven.onOven

theorem State.canonical.enqueue {cluster gid k} (h : s.canonical) : (s.enqueue cluster gid k).canonical :=
  h.onOven

theorem State.canonical.issueNoQueue {c cmd} (h : s.canonical) : (s.issueNoQueue c cmd).canonical := by
  fun_cases State.issueNoQueue
  · exact h.frame.onGroup.onGroup
  · exact h.frame.onGroup.landAll

theorem State.canonical.issueOven {c mk} (h : s.canonical) : (s.issueOven c mk).canonical := by
  fun_cases State.issueOven
  · exact h
  · exact (h.flush.bindQueue.fst ‹_›).issueNoQueue
  · exact (h.flush.bindQueue.fst ‹_›).frame.enqueue.onGroup

theorem State.canonical.ctxCapture {c f name row n mk} (h : s.canonical) :
    (Ctx.capture c f name row n mk s).canonical := by
  fun_cases Ctx.capture
  · exact h.ctxTrap
  · exact h.issueOven

theorem State.canonical.ctxReadBlock {c : Ctx} {f off n go} (h : s.canonical)
    (hg : ∀ {bs} {s : State}, s.canonical → (go bs s).canonical) : (c.readBlock f off n go s).canonical := by
  unfold Ctx.readBlock
  extract_lets bad
  clear_value bad
  split
  · exact h.ctxPark
  · exact hg h

theorem State.canonical.execOvFmt {a r} (h : s.canonical) : outcomeCanonical (execOvFmt a r s) :=
  h.issue fun h => h.ctxReadBlock fun h => h.ctxTrap.ite h.issueOven

theorem State.canonical.baseBody {func r c} (h : s.canonical) : (baseBody func r c s).canonical := h.issueOven

theorem State.canonical.execOvIdx {a r} (h : s.canonical) : outcomeCanonical (execOvIdx a r s) :=
  h.issue fun h => h.issueOven.ite (h.ctxReadBlock fun h => h.issueOven)

theorem State.canonical.tileBody {func f r c} (h : s.canonical) : (tileBody func f r c s).canonical := by
  fun_cases tileBody
  · exact h.ctxTrap
  · exact h.ctxCapture

theorem State.canonical.accBody {func n f r c} (h : s.canonical) : (accBody func n f r c s).canonical := by
  fun_cases accBody
  · exact h.ctxTrap
  · exact h.ctxCapture

theorem State.canonical.execAccRd {a r} (h : s.canonical) : outcomeCanonical (execAccRd a r s) :=
  h.issue fun h => h.ctxTrap.ite h.ctxCapture

theorem State.canonical.execOvStat {a r} (h : s.canonical) : outcomeCanonical (execOvStat a r s) :=
  h.issue fun h => h.onOven.ctxAnswer

theorem State.canonical.execOvToken {a r} (h : s.canonical) : outcomeCanonical (execOvToken a r s) :=
  h.issue fun h => h.ctxTrap.ite h.ctxAnswer

theorem State.canonical.ctxMaybeAnswer {c v} (h : s.canonical) : (Ctx.maybeAnswer c v s).canonical := by
  fun_cases Ctx.maybeAnswer
  · exact h.ctxAnswer
  · exact h.onGroup

theorem State.canonical.execAccAlloc {a b r} (h : s.canonical) : outcomeCanonical (execAccAlloc a b r s) :=
  h.issue fun h => h.ctxTrap.ite (h.ctxMaybeAnswer.ite h.onOven.ctxMaybeAnswer)

theorem State.canonical.execAccFree {a r} (h : s.canonical) : outcomeCanonical (execAccFree a r s) :=
  h.issue fun h => h.ctxTrap.ite h.onOven.ctxMaybeAnswer

theorem State.canonical.execAccMap {a r} (h : s.canonical) : outcomeCanonical (execAccMap a r s) :=
  h.issue fun h => h.ctxTrap.ite h.ctxAnswer

theorem State.canonical.execAccDrain {a b r} (h : s.canonical) : outcomeCanonical (execAccDrain a b r s) :=
  h.issue fun h => h.ctxWaiting fun h => h.ctxTrap.ite (h.ctxArmed fun h => h.beginWait)

theorem State.canonical.settleOvens (h : s.canonical) : s.settleOvens.canonical := h.frame

theorem State.canonical.popOven {c} (h : s.canonical) : (s.popOven c).canonical := h.onOven

theorem State.canonical.endOven {c st sub progress} (h : s.canonical) : (s.endOven c st sub progress).canonical :=
  h.popOven.completeCmd

theorem State.canonical.onQueue {c f} (h : s.canonical) : (s.onQueue c f).canonical := h.onOven

theorem State.canonical.runTile {c q fa fb aBase bBase} (h : s.canonical) :
    (s.runTile c q fa fb aBase bBase).canonical := by
  fun_cases State.runTile
  · exact (h.onOven.onQueue.operandRows.fst ‹_›).endOven
  · exact ((h.onOven.onQueue.operandRows.fst ‹_›).operandRows.fst ‹_›).endOven
  · exact ((h.onOven.onQueue.operandRows.fst ‹_›).operandRows.fst ‹_›).onOven.onQueue.putCmd
  · exact ((h.onOven.onQueue.operandRows.fst ‹_›).operandRows.fst ‹_›).onOven.onQueue.endOven
  · exact ((h.onOven.onQueue.operandRows.fst ‹_›).operandRows.fst ‹_›).onOven.onQueue.endOven

theorem State.canonical.accWrite {s : State} {c x n i} (h : s.canonical) : (s.accWrite c x n i).canonical := by
  fun_cases State.accWrite
  · exact h.endOven
  · next s' _ _ read e =>
    have hs : s'.canonical := by
      unfold read at e
      split at e
      · cases e; exact h
      · exact h.ovenBytes.fst e
    exact hs.endOven
  · next s' _ _ read e _ =>
    have hs : s'.canonical := by
      unfold read at e
      split at e
      · cases e
      · exact h.ovenBytes.fst e
    exact hs.onOven.accWrite

theorem State.canonical.accStore {s : State} {c x n i} (h : s.canonical) : (s.accStore c x n i).canonical := by
  fun_cases State.accStore
  · exact h.endOven
  · exact h.endOven
  · exact h.endOven
  · exact h.endOven
  · exact h.writeTeam.accStore
  · exact (h.engineWrite.fst ‹_›).endOven
  · exact (h.engineWrite.fst ‹_›).accStore

theorem State.canonical.accRead {c x} (h : s.canonical) : (s.accRead c x).canonical :=
  h.popOven.putCmd.landAll.wake

theorem State.canonical.serve {c q} (h : s.canonical) : (s.serve c q).canonical := by
  fun_cases State.serve
  · exact h.onQueue.endOven
  · exact h.onQueue.endOven
  · exact h.onQueue.endOven
  · exact h.onQueue.endOven
  · exact h.endOven
  · exact h.runTile
  · exact h.endOven
  · exact h.endOven
  · exact h.runTile
  · exact h.endOven
  · exact h.onOven.endOven
  · exact h.accRead
  · exact h.accWrite
  · exact h.accStore
  · exact h.endOven

theorem State.canonical.turn {cluster num} (h : s.canonical) : (s.turn cluster num).canonical := by
  fun_cases State.turn
  · exact h
  · exact h
  · exact h
  · exact h.onOven.serve

theorem State.canonical.enterFollow {c k} (h : s.canonical) : (s.enterFollow c k).canonical := by
  fun_cases State.enterFollow
  · exact (h.onCmd.bindQueue.fst ‹_›).enqueue
  · exact h.onCmd.bindQueue.fst ‹_›
  · exact (h.onCmd.bindQueue.fst ‹_›).completeCmd

theorem State.canonical.dropFollow {c k} (h : s.canonical) : (s.dropFollow c k).canonical := h.frame

theorem State.canonical.landFollow {c} (h : s.canonical) : (s.landFollow c).canonical := by
  fun_cases State.landFollow
  · exact h.enterFollow
  · exact h
  · exact h

theorem State.canonical.settleFollows (h : s.canonical) : s.settleFollows.canonical :=
  h.foldl fun h => h.landFollow

theorem State.canonical.moveCopy {c} (h : s.canonical) : (s.moveCopy c).canonical := by
  fun_cases State.moveCopy
  · exact h.moveUnit
  · exact h.moveUnit.landFollow

theorem State.canonical.finishCopy {c} (h : s.canonical) : (s.finishCopy c).canonical := by
  fun_cases State.finishCopy
  · exact h.closeCard.clobberNamed.completeCmd
  · exact h.closeCard.clobberNamed.putCmd
  · exact h.closeCard.clobberNamed.dropFollow.completeCmd

theorem State.canonical.issueFollow {c r w ctl k banks} (h : s.canonical) :
    (s.issueFollow c r w ctl k banks).canonical := by
  fun_cases State.issueFollow
  · exact h
  · next issued added =>
    have hi : issued.canonical := h.issueCmd
    have ha : added.canonical := hi.frame
    exact ha.onGroup

theorem State.canonical.copyOvBody {f r c} (h : s.canonical) : (copyOvBody f r c s).canonical := by
  fun_cases copyOvBody
  · exact h.ctxTrap
  · exact h.ctxTrap
  · exact h.ctxTrap
  · exact h.ctxTrap
  · exact h.onEmpty
  · exact h.ctxTrap
  · exact h.ctxTrap
  · exact h.issueFollow

/-! ## Tower memory operations -/

theorem State.canonical.acceptTm {c} (h : s.canonical) : (s.acceptTm c).canonical := by
  fun_cases State.acceptTm <;> exact h.putCmd

theorem State.canonical.tmTarget {c va} (h : s.canonical) : (s.tmTarget c va).1.canonical := by
  fun_cases State.tmTarget
  · exact h
  · exact h.translate.fst ‹_›
  · exact h.translate.fst ‹_›

theorem State.canonical.tmSourceOf {c i} (h : s.canonical) : (s.tmSourceOf c i).1.canonical := by
  fun_cases State.tmSourceOf
  · exact h
  · exact h
  · exact h.translate.fst ‹_›
  · exact h.translate.fst ‹_›
  · exact h.translate.fst ‹_›
  · exact h.translate.fst ‹_›

theorem State.canonical.issueLine {c} (h : s.canonical) : (s.issueLine c).canonical := by
  fun_cases State.issueLine
  · exact (h.tmSourceOf.fst ‹_›).putCmd
  · exact ((h.tmSourceOf.fst ‹_›).tmTarget.fst ‹_›).putCmd
  · exact ((h.tmSourceOf.fst ‹_›).tmTarget.fst ‹_›).putCmd

theorem State.canonical.dropCopies {cluster dom pa} (h : s.canonical) : (s.dropCopies cluster dom pa).canonical :=
  h.foldl fun h => h.commit

theorem State.canonical.tmExchange {c pa} (h : s.canonical) : (s.tmExchange c pa).1.canonical := by
  fun_cases State.tmExchange
  · exact (h.frame.ite h).put
  · exact h.frame.ite h

theorem State.canonical.performLine {c u} (h : s.canonical) : (s.performLine c u).canonical := by
  fun_cases State.performLine
  · exact h.putCmd
  · exact (h.dropCopies.tmExchange.fst ‹_›).putCmd.landAll.wake
  · exact h.dropCopies.put.putCmd

theorem State.canonical.lineMove {c} (h : s.canonical) : (s.lineMove c).canonical := by
  fun_cases State.lineMove
  · exact h.putCmd
  · exact h
  · exact (h.ite h.frame).issueLine
  · exact (h.ite h.frame).performLine

theorem State.canonical.finishTm {c} (h : s.canonical) : (s.finishTm c).canonical := by
  fun_cases State.finishTm
  · exact h.putCmd
  · exact h.putCmd.landAll.wake
  · exact h.completeCmd

theorem State.canonical.tmBody {func n r c} (h : s.canonical) : (tmBody func n r c s).canonical := by
  fun_cases tmBody
  · exact h
  · exact h.issueCmd

theorem State.canonical.tmCommand {func n va a b r} (h : s.canonical) :
    outcomeCanonical (tmCommand func n va a b r s) := h.issue fun h => h.tmBody

/-! ## Carousels -/

theorem State.canonical.onCarousel {cluster f} (h : s.canonical) : (s.onCarousel cluster f).canonical :=
  h.putCluster

theorem State.canonical.carAnswer {c ws} (h : s.canonical) : (s.carAnswer c ws).canonical := by
  fun_cases State.carAnswer
  · exact h.dropCarousel
  · exact h.dropCarousel.putGroup
  · exact h.dropCarousel.landAll.wake
  · exact h.dropCarousel

theorem State.canonical.acquire {c} (h : s.canonical) : (s.acquire c).canonical := by
  fun_cases State.acquire
  · exact h.onTeam.onCarousel.carAnswer
  · exact h.onTeam.putCmd.onCarousel.passCarousel
  · exact h.onTeam.putCmd.onCarousel

theorem State.canonical.relinquish {c lapsed} (h : s.canonical) : (s.relinquish c lapsed).canonical := by
  fun_cases State.relinquish
  · exact h.onTeam.carAnswer
  · exact h.passCarousel.carAnswer

theorem State.canonical.propLimit {c} (h : s.canonical) : (s.propLimit c).1.canonical := by
  fun_cases State.propLimit
  · exact h
  · exact h
  · exact h
  · exact h.frame
  · exact h

theorem State.canonical.runProp {c} (h : s.canonical) : (s.runProp c).canonical := by
  fun_cases State.runProp
  exact (h.propLimit.fst ‹_›).onCarousel.carAnswer

theorem State.canonical.arrayOp {c f} (h : s.canonical) : (s.arrayOp c f).canonical := h.onCarousel.carAnswer

theorem State.canonical.listOp {c count f} (h : s.canonical) : (s.listOp c count f).canonical := by
  fun_cases State.listOp
  · exact h.carAnswer
  · exact h.arrayOp

theorem State.canonical.runCar {c} (h : s.canonical) : (s.runCar c).canonical := by
  fun_cases State.runCar
  · exact h.acquire
  · exact h.relinquish
  · exact h.carAnswer
  · exact h.carAnswer
  · exact h.relinquish
  · exact h.arrayOp
  · exact h.arrayOp
  · exact h.arrayOp
  · exact h.listOp
  · exact h.arrayOp
  · exact h.runProp
  · exact h.arrayOp
  · exact h.listOp
  · exact h.arrayOp
  · exact h.arrayOp
  · exact h.arrayOp

theorem State.canonical.performCar {c} (h : s.canonical) : (s.performCar c).canonical := by
  fun_cases State.performCar
  · exact h.endLease.runCar
  · exact h.endLease

theorem State.canonical.carMove {cluster} (h : s.canonical) : (s.carMove cluster).canonical := by
  fun_cases State.carMove
  · exact h
  · exact (h.ite h.frame).performCar
  · exact (h.ite h.frame).enterCarousels

theorem State.canonical.issueCar {c cmd} (h : s.canonical) : (s.issueCar c cmd).canonical :=
  h.flush.frame.onGroup

theorem State.canonical.carBody {f func r bad hasA hasB c} (h : s.canonical) :
    (carBody f func r bad hasA hasB c s).canonical := by
  fun_cases carBody
  · exact h.ctxTrap
  · exact h
  · exact h.issueCar.onGroup

theorem State.canonical.performTo {s : State} {cluster k n} (h : s.canonical) :
    (State.performTo cluster k n s).canonical := by
  fun_cases State.performTo
  · exact h
  · exact h
  · exact h.performCar
  · exact h.performCar.performTo

theorem State.canonical.tryAcq {k} (h : s.canonical) : (s.tryAcq k).canonical := by
  fun_cases State.tryAcq
  · exact h
  · exact h.endLease
  · exact h.endLease.enterCarousels.performTo

theorem State.canonical.tryProp {k} (h : s.canonical) : (s.tryProp k).canonical := by
  fun_cases State.tryProp
  · exact h
  · exact h.enterCarousels.performCar
  · exact h
  · exact h

theorem State.canonical.tryCar {g w} (h : s.canonical) : (s.tryCar g w).canonical := by
  fun_cases State.tryCar
  · exact h.tryAcq
  · exact h.tryProp
  · exact h
  · exact h

theorem State.canonical.checkCar {gid} (h : s.canonical) : (s.checkCar gid).canonical := by
  unfold State.checkCar
  extract_lets looked
  have hl : looked.canonical := by
    unfold looked
    split
    · exact h
    · split
      · exact h
      · exact h.tryCar
  clear_value looked
  split
  · exact hl
  · split
    · exact hl
    · exact hl.checkWait

theorem State.canonical.beginCar {g obj dst onTimeout a} (h : s.canonical) :
    (s.beginCar g obj dst onTimeout a).canonical :=
  h.frame.putGroup.checkCar

theorem State.canonical.stallWait {g} (h : s.canonical) : (s.stallWait g).canonical := h.putGroup

theorem State.canonical.carWait {f func r bad obj c} (h : s.canonical) : (carWait f func r bad obj c s).canonical := by
  refine h.ctxWaiting fun h => ?_
  extract_lets a
  split
  · exact h.ctxTrap
  refine h.ctxArmed fun h => ?_
  split
  · exact h.stallWait
  extract_lets cmd issued
  have hi : issued.canonical := h.issueCar
  split
  · exact hi
  · exact hi.beginCar

theorem State.canonical.carOne {func bad a r} (h : s.canonical) : outcomeCanonical (carOne func bad a r s) :=
  h.issue fun h => h.carBody

theorem State.canonical.carTwo {func bad a b r} (h : s.canonical) : outcomeCanonical (carTwo func bad a b r s) :=
  h.issue fun h => h.carBody

end Sys2Proof.Machine

/-! # Canonical form: tasks and contexts

Mapping, placement, tasks, teams and contexts keep the canonical form. -/

namespace Sys2Proof.Machine

set_option Elab.async false
variable {s t : State}

/-! ## Page tables -/

theorem State.canonical.newTable (h : s.canonical) : ∀ {n t}, s.newTable = some (n, t) → t.canonical := by
  fun_cases State.newTable
  · exact nofun
  · next e =>
    have ht := h.takePlaced e
    rintro _ _ ⟨⟩
    exact ht.withMem (Memory.clear_wf ht.mem _ _)

theorem State.canonical.mapLeaf {s : State} {va level leaf lvl table} (h : s.canonical) :
    ∀ {t}, mapLeaf va level leaf lvl table s = some t → t.canonical := by
  fun_cases Machine.mapLeaf
  · rintro _ ⟨⟩; exact h.withMem (Memory.write_wf h.mem _ _)
  · exact nofun
  · exact nofun
  · exact h.mapLeaf
  · exact nofun
  · next e₁ _ _ =>
    have ht := h.newTable e₁
    intro _ e₂
    refine State.canonical.mapLeaf ?_ e₂
    exact ht.withMem (Memory.write_wf ht.mem _ _)

theorem State.canonical.mapPages {s : State} {ctx place level r n va} (h : s.canonical) :
    ∀ {t}, mapPages ctx place level r n va s = some t → t.canonical := by
  fun_cases Machine.mapPages
  · rintro _ ⟨⟩; exact h
  · exact nofun
  · exact nofun
  · next e₂ e₁ => exact ((h.takePlaced e₁).mapLeaf e₂).mapPages

theorem State.canonical.allocate {ctx va bytes place level r} (h : s.canonical) :
    ∀ {n t}, s.allocate ctx va bytes place level r = some (n, t) → t.canonical := by
  fun_cases State.allocate
  · exact nofun
  · exact nofun
  · next e =>
    have hm := h.frame.mapPages e
    rintro _ _ ⟨⟩
    exact hm

theorem State.canonical.allocateSystem {ctx bytes} (h : s.canonical) :
    ∀ {n t}, s.allocateSystem ctx bytes = some (n, t) → t.canonical := h.allocate

theorem State.canonical.takeSaveArea {ctx r} (h : s.canonical) : (s.takeSaveArea ctx r).2.canonical := by
  fun_cases State.takeSaveArea
  · exact h.allocateSystem ‹_›
  · exact h.frame

theorem State.canonical.newContext (h : s.canonical) : ∀ {n t}, s.newContext = some (n, t) → t.canonical := by
  fun_cases State.newContext
  · exact nofun
  · exact nofun
  · exact nofun
  · next rooted e₁ _ _ mapped e₂ =>
    have h₁ : rooted.canonical := by
      refine State.canonical.newTable ?_ e₁
      exact h.frame
    have h₂ : mapped.canonical := by
      refine State.canonical.allocateSystem ?_ e₂
      exact h₁.frame
    rintro _ _ ⟨⟩
    exact h₂.onContext

/-! ## Placement -/

theorem State.canonical.cancelLease {team cluster} (h : s.canonical) : (s.cancelLease team cluster).canonical := by
  fun_cases State.cancelLease
  · exact h.lapse
  · exact h.putCluster
  · exact h

theorem State.canonical.lapseElsewhere {team cluster} (h : s.canonical) : (s.lapseElsewhere team cluster).canonical :=
  h.foldl fun h => h.lapse

theorem State.canonical.taskStarts {tm} (h : s.canonical) : (s.taskStarts tm).canonical := by
  fun_cases State.taskStarts
  · exact h
  · exact h
  · next _ timed _ =>
    have ht : timed.canonical := h.putTask.putTcb.putTcb
    exact ht.frame

theorem State.canonical.placeFirst {tm core places} (h : s.canonical) (ht : tm.canonical) :
    (s.placeFirst tm core places).canonical := by
  unfold State.placeFirst
  extract_lets area taken placed gs added
  have ha : added.canonical := h.takeSaveArea.frame
  have hp : placed.canonical := ht
  exact (ha.putTeam hp).taskStarts

theorem State.canonical.givePlaces {team places} (h : s.canonical) : (s.givePlaces team places).canonical :=
  h.foldl fun h => h.onGroup

theorem State.canonical.readTeamImage {tm core} (h : s.canonical) : (s.readTeamImage tm core).1.canonical := by
  fun_cases State.readTeamImage
  · exact h.readVa.fst ‹_›
  · exact (h.readVa.fst ‹_›).onTeam fun _ _ => Memory.write_wf Memory.nil_wf _ _

theorem State.canonical.placeAgain {tm core places} (h : s.canonical) : (s.placeAgain tm core places).canonical := by
  fun_cases State.placeAgain
  · exact (h.readTeamImage.fst ‹_›).netRecord.haltContext
  · exact (h.readTeamImage.fst ‹_›).frame.onTeam.givePlaces.lapseElsewhere

theorem State.canonical.place {tm core places} (h : s.canonical) (ht : tm.canonical) :
    (s.place tm core places).canonical := by
  fun_cases State.place
  · exact h.placeFirst ht
  · exact h.placeAgain

theorem State.canonical.placeHead {die} (h : s.canonical) : (s.placeHead die).canonical := by
  fun_cases State.placeHead
  · exact h
  · exact h.putDie
  · exact h.putDie
  · exact h.putDie.place (h.team? ‹_›)

theorem State.canonical.saveGroup {g} (h : s.canonical) : (s.saveGroup g).canonical := by
  fun_cases State.saveGroup
  · exact h.frame.putGroup.startLease
  · next disarmed _ _ _ _ _ e =>
    have hd : disarmed.canonical := h.frame
    exact (hd.span.fst e).emergencySave
  · next disarmed _ _ _ _ _ e =>
    have hd : disarmed.canonical := h.frame
    exact (hd.span.fst e).putImage.putGroup.startLease

theorem State.canonical.restoreGroup {g} (h : s.canonical) : (s.restoreGroup g).canonical := by
  fun_cases State.restoreGroup
  · exact h.cancelLease.putGroup
  · exact (h.cancelLease.imageSpan.fst ‹_›).doubleTrap
  · exact (h.cancelLease.imageSpan.fst ‹_›).doubleTrap
  · exact (h.cancelLease.imageSpan.fst ‹_›).putGroup

theorem State.canonical.stopTeam {team} (h : s.canonical) : (s.stopTeam team).canonical :=
  h.onTeam fun tm ht => by split <;> exact ht

theorem State.canonical.finishStop {tm} (h : s.canonical) : (s.finishStop tm).canonical := by
  fun_cases State.finishStop
  · exact h.writeVa.fst ‹_›
  · exact (h.writeVa.fst ‹_›).frame.onTeam
  · exact (h.writeVa.fst ‹_›).frame.onTeam
  · exact (h.writeVa.fst ‹_›).frame.onTeam.putDie
  · exact (h.writeVa.fst ‹_›).frame.onTeam.putDie

theorem State.canonical.settleStops (h : s.canonical) : s.settleStops.canonical :=
  h.foldl fun h => h.finishStop.ite h

theorem State.canonical.settleSwap {tm} (h : s.canonical) : (s.settleSwap tm).canonical := by
  fun_cases State.settleSwap
  · exact h.latch.onTeam.onTeam.putDie
  · exact h.latch.onTeam.putDie
  · exact h
  · exact h

theorem State.canonical.settleSwaps (h : s.canonical) : s.settleSwaps.canonical :=
  h.foldl fun h => h.settleSwap

theorem State.canonical.deliverPending {g} (h : s.canonical) : (s.deliverPending g).canonical := by
  fun_cases State.deliverPending
  · exact h.putGroup
  · exact h.deliver

theorem State.canonical.settleTraps (h : s.canonical) : s.settleTraps.canonical :=
  h.foldl fun h => by
    split
    · exact h
    · exact h.deliverPending.ite h

/-! ## Windows, system registers and modes -/

theorem State.canonical.execExit {a} (h : s.canonical) : outcomeCanonical (execExit a s) :=
  h.issue fun h => h.endGroup

theorem State.canonical.execTret {a} (h : s.canonical) : outcomeCanonical (execTret a s) :=
  h.issue fun h => h.trapReturn

theorem State.canonical.holdImage {g} (h : s.canonical) : (s.holdImage g).canonical := by
  fun_cases State.holdImage
  · exact (h.span.fst ‹_›).emergencySave
  · exact (h.span.fst ‹_›).putImage.putGroup

theorem State.canonical.hold {g record} (h : s.canonical) : (s.hold g record).canonical := h.frame.holdImage

theorem State.canonical.execBrk (h : s.canonical) : outcomeCanonical (execBrk s) :=
  h.issue fun h => h.hold.ite h.ctxTrap

theorem State.canonical.execHalt {a} (h : s.canonical) : outcomeCanonical (execHalt a s) :=
  h.issue fun h => h.haltBy

theorem State.canonical.execBeat (h : s.canonical) : outcomeCanonical (execBeat s) :=
  h.issue fun h => State.canonical.onGroup (by exact h.onTeam)

theorem State.canonical.ctxOnImage {c : Ctx} {need go} (h : s.canonical)
    (hg : ∀ {segs} {s : State}, s.canonical → (go segs s).canonical) : (c.onImage need go s).canonical := by
  fun_cases Ctx.onImage
  · exact (h.imageSpan.fst ‹_›).doubleTrap
  · exact hg (h.imageSpan.fst ‹_›)

theorem State.canonical.execPidx {d a} (h : s.canonical) : outcomeCanonical (execPidx d a s) :=
  h.issue fun h => h.ctxOnImage fun h => (h.ite h.putSpan).ctxAnswer

theorem State.canonical.execWinrd {d a b} (h : s.canonical) : outcomeCanonical (execWinrd d a b s) :=
  h.issue fun h => by
    split
    · exact h.onGroup
    · exact h.ctxOnImage fun h => h.ctxAnswer

theorem State.canonical.ctxWindowWrite {c reg i v} (h : s.canonical) : (Ctx.windowWrite c reg i v s).canonical := by
  fun_cases Ctx.windowWrite
  · exact h.onGroup.ctxAnswer
  · exact h.onGroup.ctxAnswer
  · exact h.ctxOnImage fun h => h.putSpan.putSpan.ctxAnswer
  · exact h.onGroup.ctxAnswer
  · exact h.ctxAnswer

theorem State.canonical.execWinwr {d a b} (h : s.canonical) : outcomeCanonical (execWinwr d a b s) :=
  h.issue fun h => by
    split
    · exact h.ctxAnswer
    · exact h.ctxWindowWrite

theorem State.canonical.execModeWr {a} (h : s.canonical) : outcomeCanonical (execModeWr a s) :=
  h.issue fun h => h.putGroup.ite h.ctxTrap

theorem State.canonical.freeLog {ctx j} (h : s.canonical) : (s.freeLog ctx j).canonical := h.onContext

theorem State.canonical.putSreg {c n v} (h : s.canonical) : (s.putSreg c n v).canonical := by
  fun_cases State.putSreg
  · exact h.onGroup
  · exact h.freeLog
  · exact h

theorem State.canonical.ctxOnSreg {c : Ctx} {f write go} (h : s.canonical)
    (hg : ∀ {n} {s : State}, s.canonical → (go n s).canonical) : (c.onSreg f write go s).canonical := by
  fun_cases Ctx.onSreg
  · exact h.ctxTrap
  · exact hg h
  · exact h.ctxTrap

theorem State.canonical.execSregRd {d a} (h : s.canonical) : outcomeCanonical (execSregRd d a s) :=
  h.issue fun h => h.ctxOnSreg fun h => h.ctxAnswer

theorem State.canonical.execSregWr {a b} (h : s.canonical) : outcomeCanonical (execSregWr a b s) :=
  h.issue fun h => h.ctxOnSreg fun h => h.putSreg.onGroup

theorem State.canonical.execShoot {d a b} (h : s.canonical) : outcomeCanonical (execShoot d a b s) :=
  h.issue fun h => h.ctxWaiting fun h => h.ctxArmed fun h =>
    State.canonical.beginWait (by exact h.freeze.performAll.frame)

theorem State.canonical.execSnet {a b} (h : s.canonical) : outcomeCanonical (execSnet a b s) :=
  h.issue fun h => h.netRecord.onGroup

/-! ## Tasks -/

theorem State.canonical.settleVa {g va n} (h : s.canonical) : (s.settleVa g va n).canonical := by
  fun_cases State.settleVa
  · exact h.span.fst ‹_›
  · exact (h.span.fst ‹_›).foldl fun h => h.settleBytes

theorem State.canonical.onTcb {g tcb go} (h : s.canonical)
    (hg : ∀ {b} {s : State}, s.canonical → (go b s).1.canonical) : (s.onTcb g tcb go).1.canonical := by
  fun_cases State.onTcb
  · exact h
  · exact h.bringIn.settleVa.readTcb.fst ‹_›
  · exact hg (h.bringIn.settleVa.readTcb.fst ‹_›)

theorem State.canonical.writableAll {s : State} {ctx core l} (h : s.canonical) :
    (s.writableAll ctx core l).1.canonical := by
  fun_cases State.writableAll
  · exact h
  · exact h.bringIn.span.fst ‹_›
  · exact (h.bringIn.span.fst ‹_›).writableAll

theorem State.canonical.writeAll {g ws} (h : s.canonical) : (s.writeAll g ws).1.canonical := by
  fun_cases State.writeAll
  · exact h.writableAll.fst ‹_›
  · exact (h.writableAll.fst ‹_›).foldl fun h => h.writeVa

theorem State.canonical.tcbNew {g tcb launch ctl tag} (h : s.canonical) :
    (tcbNew g tcb launch ctl tag s).1.canonical :=
  h.onTcb fun h => by
    dsimp only
    split
    · exact h
    · exact h.writeAll

theorem State.canonical.tcbSucc {g a b} (h : s.canonical) : (tcbSucc g a b s).1.canonical := by
  fun_cases Machine.tcbSucc
  · exact h
  · exact h
  · exact h
  · refine h.onTcb fun h => ?_
    dsimp only
    split
    · exact h
    refine h.onTcb fun h => ?_
    split
    · exact h
    split
    · exact h
    · exact h.writeAll

theorem State.canonical.submitTcb {g tcb} (h : s.canonical) : (submitTcb g tcb s).1.canonical :=
  h.onTcb fun h => by
    split
    · exact h
    split
    · exact (h.flush.writeAll.fst ‹_›).frame
    · exact h.flush.writeAll

theorem State.canonical.readyIfFree {ctx tcb} (h : s.canonical) : (s.readyIfFree ctx tcb).canonical := by
  fun_cases State.readyIfFree
  · exact h.readTcb.fst ‹_›
  · exact (h.readTcb.fst ‹_›).makeReady
  · exact h.readTcb.fst ‹_›

theorem State.canonical.tcbDone {g tcb} (h : s.canonical) : (tcbDone g tcb s).1.canonical :=
  h.onTcb fun h => by
    dsimp only
    split
    · exact h
    · exact h.flush.writeAll

/-- A task operation that ends in a canonical state. -/
theorem State.canonical.ctxTaskOp {c : Ctx} {r : State × Nat} {after} (h : r.1.canonical)
    (ha : ∀ {s : State}, s.canonical → (after s).canonical := by exact fun h => h) : (c.taskOp r after).canonical := by
  fun_cases Ctx.taskOp
  · exact ha h.ctxAnswer
  · exact h.ctxAnswer

theorem State.canonical.execTcbNew {d a b} (h : s.canonical) : outcomeCanonical (execTcbNew d a b s) :=
  h.issue fun h => h.ctxTrap.ite h.tcbNew.ctxTaskOp

theorem State.canonical.execTcbSucc {d a b} (h : s.canonical) : outcomeCanonical (execTcbSucc d a b s) :=
  h.issue fun h => h.tcbSucc.ctxTaskOp

theorem State.canonical.execTcbSubmit {d a} (h : s.canonical) : outcomeCanonical (execTcbSubmit d a s) :=
  h.issue fun h => h.submitTcb.ctxTaskOp fun h => h.readyIfFree

theorem State.canonical.execTcbDone {d a} (h : s.canonical) : outcomeCanonical (execTcbDone d a s) :=
  h.issue fun h => h.tcbDone.ctxTaskOp fun h => h.readyIfFree

theorem State.canonical.putBin {die b} (h : s.canonical) : (s.putBin die b).canonical := by
  fun_cases State.putBin <;> exact h.putDie

theorem State.canonical.launchBin {die b} (h : s.canonical) : (s.launchBin die b).canonical := by
  fun_cases State.launchBin
  · exact h
  · next team added _ =>
    have ht : team.canonical := Memory.nil_wf
    have ha : added.canonical := h.withTeams <| h.addTeams fun tm hm => List.mem_singleton.mp hm ▸ ht
    exact ha.putDie.putBin

theorem State.canonical.spawnOne {die ctx va r arg} (h : s.canonical) : (s.spawnOne die ctx va r arg).1.canonical := by
  fun_cases State.spawnOne
  · exact h
  · exact h.launchBin.ite h
  · exact (h.launchBin.ite h).putBin.launchBin.ite (h.launchBin.ite h).putBin

theorem State.canonical.spawnRecord {ctx core va} (h : s.canonical) : (s.spawnRecord ctx core va).1.canonical := by
  fun_cases State.spawnRecord
  · exact h
  · exact h
  · exact h.readRecord.fst ‹_›
  · exact h.readRecord.fst ‹_›
  · exact h.readRecord.fst ‹_›
  · exact h.readRecord.fst ‹_›

theorem State.canonical.spawnAll {die ctx va r args} (h : s.canonical) : (s.spawnAll die ctx va r args).1.canonical :=
  h.foldlFst (p := (s, _)) fun h => by
    split
    exact h.spawnOne.fst ‹_›

theorem State.canonical.ctxThreadStatus {c sts} (h : s.canonical) : (Ctx.threadStatus c sts s).canonical :=
  h.onGroup

theorem State.canonical.execSpawn {d a b} (h : s.canonical) : outcomeCanonical (execSpawn d a b s) :=
  h.issue fun h => by
    dsimp only
    split
    · exact (h.release.spawnRecord.fst ‹_›).ctxThreadStatus
    next e =>
    have hr := h.release.spawnRecord.fst e
    split
    · exact hr.spawnAll.ctxThreadStatus
    · exact (hr.spawnAll.launchBin.ite hr.spawnAll).ctxThreadStatus

theorem State.canonical.setBinTime {ctx va r ns} (h : s.canonical) : (s.setBinTime ctx va r ns).1.canonical := by
  fun_cases State.setBinTime
  · exact h
  · exact h.putBin.launchBin.ite h.putBin

theorem State.canonical.execBintime {d a b} (h : s.canonical) : outcomeCanonical (execBintime d a b s) :=
  h.issue fun h => by
    dsimp only
    split
    · exact h.ctxTrap
    split
    · exact State.canonical.ctxTaskOp (h.spawnRecord.fst ‹_›)
    · exact (h.spawnRecord.fst ‹_›).setBinTime.ctxTaskOp

theorem State.canonical.settleBins (h : s.canonical) : s.settleBins.canonical :=
  h.foldl fun h => h.foldl fun h => h.launchBin

theorem State.canonical.forkOne {g tcb} (h : s.canonical) : (s.forkOne g tcb).1.canonical := by
  fun_cases State.forkOne
  · exact (h.submitTcb.fst ‹_›).onTeam.readyIfFree
  · exact (h.submitTcb.fst ‹_›).onTeam

theorem State.canonical.forkAll {g l} (h : s.canonical) : (s.forkAll g l).1.canonical :=
  h.foldlFst (p := (s, _)) fun h => by
    split <;> exact h.forkOne.fst ‹_›

theorem State.canonical.beginSwap {gid dst dl} (h : s.canonical) : (s.beginSwap gid dst dl).canonical := by
  fun_cases State.beginSwap
  · exact h
  · exact (h.putGroup.onTeam fun tm ht => by split <;> exact ht).stopTeam

theorem State.canonical.ctxFork {c f off n swap} (h : s.canonical) : (Ctx.fork c f off n swap s).canonical := by
  fun_cases Ctx.fork
  · exact h.ctxPark
  · exact h.ctxAnswer
  · exact (h.forkAll.fst ‹_›).ctxAnswer
  · exact (h.forkAll.fst ‹_›).beginSwap

theorem State.canonical.execFork {d a b} (h : s.canonical) : outcomeCanonical (execFork d a b s) :=
  h.issue fun h => h.ctxWaiting fun h => h.ctxTrap.ite (h.ctxFork.ite (h.ctxArmed fun h => h.ctxFork))

theorem State.canonical.execJoin {d b} (h : s.canonical) : outcomeCanonical (execJoin d b s) :=
  h.issue fun h => h.ctxWaiting fun h => h.ctxArmed fun h => h.beginWait

theorem State.canonical.execYield {d} (h : s.canonical) : outcomeCanonical (execYield d s) :=
  h.issue fun h => h.ctxWaiting fun h => State.canonical.ite (by exact h.putGroup.onTeam.stopTeam) h.ctxAnswer

/-! ## Engines and saved groups -/

theorem State.canonical.execProducerDelivers {k} (h : s.canonical) : outcomeCanonical (execProducerDelivers k s) := by
  fun_cases execProducerDelivers
  split
  · exact h
  · split
    · exact h.frame
    · exact h.deliverNow.ite h

theorem State.canonical.execRegisterWaitExpired {gid} (h : s.canonical) :
    outcomeCanonical (execRegisterWaitExpired gid s) := by
  fun_cases execRegisterWaitExpired
  split
  · exact h
  · exact h.putGroup.ite h

theorem State.canonical.execWaitTimeout {gid} (h : s.canonical) : outcomeCanonical (execWaitTimeout gid s) := by
  fun_cases execWaitTimeout
  split
  · exact h
  · split
    · exact h
    · exact h.ite (h.putGroup.ite (h.checkCar.ite h.checkWait))

theorem State.canonical.popInput {i} (h : s.canonical) : (s.popInput i).canonical := by
  fun_cases State.popInput
  · exact h.frame
  · exact h

theorem State.canonical.execSpuriousFiring {gid} (h : s.canonical) : outcomeCanonical (execSpuriousFiring gid s) := by
  fun_cases execSpuriousFiring
  split
  · exact h.popInput
  · exact h.popInput.putGroup.ite h.popInput

theorem State.canonical.settleMonitors (h : s.canonical) : s.settleMonitors.canonical :=
  h.foldl fun h => h.onGroup

theorem State.canonical.execStorePerformed {k} (h : s.canonical) : outcomeCanonical (execStorePerformed k s) := by
  fun_cases execStorePerformed
  split
  · exact h
  · exact h.performStore.ite h

theorem State.canonical.execReductionRequestEnds {k} (h : s.canonical) :
    outcomeCanonical (execReductionRequestEnds k s) := by
  fun_cases execReductionRequestEnds
  split
  · exact h
  · exact h.endReduction.ite h

theorem State.canonical.execRlfree {ctx j} (h : s.canonical) : outcomeCanonical (execRlfree ctx j s) :=
  h.freeLog.ite h

theorem State.canonical.execShootdownComplete {k} (h : s.canonical) : outcomeCanonical (execShootdownComplete k s) := by
  fun_cases execShootdownComplete
  split
  · exact h
  · exact h.ite h.shootPage.frame

theorem State.canonical.execPromotionComplete {k} (h : s.canonical) : outcomeCanonical (execPromotionComplete k s) := by
  fun_cases execPromotionComplete
  split
  · exact h
  · exact h.promote.ite h

theorem State.canonical.execPermitLands {k} (h : s.canonical) : outcomeCanonical (execPermitLands k s) := by
  fun_cases execPermitLands
  split
  · exact h
  · exact h.frame.onTeam

theorem State.canonical.append {a} (h : s.canonical) : (s.append a).canonical := by
  fun_cases State.append
  · exact h
  · exact h.writeTeam.putHeader

theorem State.canonical.execAppendLands {k} (h : s.canonical) : outcomeCanonical (execAppendLands k s) := by
  fun_cases execAppendLands
  split
  · exact h
  · exact h.append.frame.ite h

theorem State.canonical.execCommandAccepted {k} (h : s.canonical) : outcomeCanonical (execCommandAccepted k s) := by
  fun_cases execCommandAccepted
  split
  · exact h
  · exact (h.acceptTm.ite h.acceptCmd).ite h

theorem State.canonical.countTurn {c} (h : s.canonical) : (s.countTurn c).canonical := h.putCluster

theorem State.canonical.execEngineUnitMoved {k} (h : s.canonical) : outcomeCanonical (execEngineUnitMoved k s) := by
  fun_cases execEngineUnitMoved
  split
  · exact h
  · exact h.countTurn.moveCopy.ite h

theorem State.canonical.execCommandComplete {k} (h : s.canonical) : outcomeCanonical (execCommandComplete k s) := by
  fun_cases execCommandComplete
  split
  · exact h
  · exact (h.finishTm.ite h.finishCopy).ite h

theorem State.canonical.execOvenTurn {cluster queue} (h : s.canonical) :
    outcomeCanonical (execOvenTurn cluster queue s) :=
  h.turn

theorem State.canonical.execTmLineOperation {k} (h : s.canonical) : outcomeCanonical (execTmLineOperation k s) := by
  fun_cases execTmLineOperation
  split
  · exact h
  · exact h.lineMove.ite h

theorem State.canonical.execLeaseExpired {cluster} (h : s.canonical) : outcomeCanonical (execLeaseExpired cluster s) :=
  h.endLease

theorem State.canonical.execCarouselCommandPerformed {cluster} (h : s.canonical) :
    outcomeCanonical (execCarouselCommandPerformed cluster s) :=
  h.carMove

/-! ## The Proofer -/

theorem State.canonical.planBinding {c desc} (h : s.canonical) : (s.planBinding c desc).1.canonical := by
  fun_cases State.planBinding
  · exact h.planVa
  · exact h.planTranspose
  · exact h.planGather
  · exact h
  · exact h.planExtract
  · exact h.planValues fun h => h
  · exact h
  · exact h.planValues fun h => h.deqRow

theorem writeUnits_wf {l} {m : Memory} (h : m.wf = true) : Memory.wf (writeUnits l m) = true := by
  unfold writeUnits
  induction l generalizing m with
  | nil => exact h
  | cons u l ih =>
    refine ih ?_
    dsimp only
    split
    · exact Memory.write_wf h _ _
    · exact h

theorem State.canonical.runBinding {tm x c desc} (h : s.canonical) : (s.runBinding tm x c desc).1.canonical := by
  fun_cases State.runBinding
  · exact h
  · exact (h.planBinding.fst ‹_›).onTeam fun _ ht => writeUnits_wf (Memory.clear_wf ht _ _)

theorem State.canonical.transform {tm x} (h : s.canonical) : (s.transform tm x).1.canonical := by
  fun_cases State.transform
  · exact h
  · exact h.runBinding
  · exact h
  · exact h.stream.fst ‹_›
  · exact (h.stream.fst ‹_›).runBinding

theorem State.canonical.imageCopy {tm} (h : s.canonical) : (s.imageCopy tm).1.canonical := by
  fun_cases State.imageCopy
  · exact (h.stream.fst ‹_›).onTeam fun _ _ => Memory.write_wf Memory.nil_wf _ _
  · exact h.stream.fst ‹_›

theorem Team.canonical.initBarrier {tm : Team} {x} (h : tm.canonical) : (tm.initBarrier x).canonical :=
  Memory.write_wf h _ _

theorem Team.canonical.initQueue {tm : Team} {q} (h : tm.canonical) : (tm.initQueue q).canonical := by
  unfold Team.initQueue
  extract_lets hdr ring slots lines bytes
  clear_value bytes
  exact Memory.write_wf h _ _

theorem Team.canonical.foldl {α : Type} {f : Team → α → Team} {l : List α} {tm : Team} (h : tm.canonical)
    (hf : ∀ {tm : Team} {x : α}, tm.canonical → (f tm x).canonical) : (l.foldl f tm).canonical := by
  induction l generalizing tm with
  | nil => exact h
  | cons x l ih => exact ih (hf h)

theorem Team.canonical.initLines {tm : Team} (h : tm.canonical) : tm.initLines.canonical :=
  (h.foldl fun h => h.initBarrier).foldl fun h => h.initQueue

theorem State.canonical.transforms {s : State} {tm l} (h : s.canonical) : (s.transforms tm l).1.canonical := by
  fun_cases State.transforms
  · exact h
  · exact (h.transform.fst ‹_›).transforms
  · exact h.transform.fst ‹_›

theorem State.canonical.proofer {tm} (h : s.canonical) : (s.proofer tm).1.canonical := by
  fun_cases State.proofer
  · exact h.imageCopy.fst ‹_›
  · exact ((h.imageCopy.fst ‹_›).onTeam fun _ ht => ht.initLines).transforms

theorem State.canonical.failStart {tm step func e} (h : s.canonical) : (s.failStart tm step func e).canonical :=
  (h.foldl fun h => h.endGroup).onTeam

theorem State.canonical.startGroups {tm} (h : s.canonical) : (s.startGroups tm).canonical := h.frame.onTeam

theorem State.canonical.execTeamStart {id} (h : s.canonical) : outcomeCanonical (execTeamStart id s) := by
  fun_cases execTeamStart
  split
  · exact h
  · split
    · split
      · exact (h.proofer.fst ‹_›).startGroups
      · exact (h.proofer.fst ‹_›).failStart
    · exact h

/-! ## Teams and gangs -/

theorem State.canonical.execPlacement {die} (h : s.canonical) : outcomeCanonical (execPlacement die s) :=
  h.placeHead

theorem State.canonical.execRetirement {id} (h : s.canonical) : outcomeCanonical (execRetirement id s) := by
  fun_cases execRetirement
  split
  · exact h
  · exact h.retireTeam.ite h

theorem State.canonical.execBinTimerExpired {die bin} (h : s.canonical) :
    outcomeCanonical (execBinTimerExpired die bin s) := by
  fun_cases execBinTimerExpired
  split
  · exact h
  · exact h.launchBin.ite h

theorem State.canonical.execEventRingAgeInterrupt {die} (h : s.canonical) :
    outcomeCanonical (execEventRingAgeInterrupt die s) :=
  h.putDie.frame.ite h

theorem State.canonical.stopGroup {g} (h : s.canonical) : (s.stopGroup g).canonical := by
  fun_cases State.stopGroup
  · exact h.frame.putGroup
  · exact h.frame.saveGroup

theorem State.canonical.execPreemption {gid} (h : s.canonical) : outcomeCanonical (execPreemption gid s) := by
  fun_cases execPreemption
  split
  · exact h.popInput
  · exact h.popInput.stopGroup.ite h.popInput

theorem State.canonical.stopNow {gid} (h : s.canonical) : (s.stopNow gid).canonical := by
  fun_cases State.stopNow
  · exact h
  · exact h
  · exact h.saveGroup
  · exact h.putGroup

theorem State.canonical.settleStalled (h : s.canonical) : s.settleStalled.canonical :=
  h.foldl fun h => by
    split
    · exact h
    · exact h.ite (h.holdImage.ite h.saveGroup)

theorem State.canonical.execGroupRestore {gid} (h : s.canonical) : outcomeCanonical (execGroupRestore gid s) := by
  fun_cases execGroupRestore
  split
  · exact h.popInput
  · exact h.popInput.restoreGroup.ite h.popInput

theorem State.canonical.settleParked (h : s.canonical) : s.settleParked.canonical := h.frame

theorem State.canonical.execBackingStorePageIn {ctx va} (h : s.canonical) :
    outcomeCanonical (execBackingStorePageIn ctx va s) :=
  h.popInput.bringIn.settleParked

theorem State.canonical.rangeIn {t} (h : s.canonical) : (s.rangeIn t).canonical := by
  fun_cases State.rangeIn
  · exact h
  · exact h.bringIn.putTask.enqueueTask
  · exact h.bringIn.putTask

theorem State.canonical.headRangeIn {tm} (h : s.canonical) : (s.headRangeIn tm).canonical := by
  fun_cases State.headRangeIn
  · exact h
  · exact h.bringIn

theorem State.canonical.execRangeBroughtIn {k} (h : s.canonical) : outcomeCanonical (execRangeBroughtIn k s) := by
  fun_cases execRangeBroughtIn
  split
  · split
    · exact h.popInput.headRangeIn
    · exact h.popInput.rangeIn
    · exact h.popInput
  · exact h.popInput

theorem State.canonical.snapshot {tm g} (h : s.canonical) : (s.snapshot tm g).canonical := h.netRecord

theorem State.canonical.execWatchdogExpired {id} (h : s.canonical) : outcomeCanonical (execWatchdogExpired id s) := by
  fun_cases execWatchdogExpired
  split
  · exact h
  · exact (h.foldl fun h => h.snapshot).onTeam.stopTeam.ite h

theorem State.canonical.execWatchdogTrap {id} (h : s.canonical) : outcomeCanonical (execWatchdogTrap id s) := by
  fun_cases execWatchdogTrap
  split
  · exact h
  · split
    · split
      · exact h
      · exact h.onTeam.plainTrap
    · exact h

theorem State.canonical.execLostPermitTrap {id} (h : s.canonical) : outcomeCanonical (execLostPermitTrap id s) := by
  fun_cases execLostPermitTrap
  split
  · exact h
  · split
    · exact h
    · split
      · exact h
      · split
        · exact h
        · exact h.onTeam.plainTrap

theorem State.canonical.losePermit {tm q h' sum} (h : s.canonical) : (s.losePermit tm q h' sum).canonical := by
  fun_cases State.losePermit
  · exact h.netRecord.putHeader
  · exact h.netRecord.putHeader.onTeam

theorem State.canonical.auditQueue {team q} (h : s.canonical) : (s.auditQueue team q).canonical := by
  fun_cases State.auditQueue
  · exact h
  · exact h.losePermit
  · exact h

theorem State.canonical.auditLink {l} (h : s.canonical) : (s.auditLink l).canonical := by
  fun_cases State.auditLink
  · exact h
  · exact h.frame

theorem State.canonical.loseCredit (h : s.canonical) : s.loseCredit.canonical := h.frame

theorem State.canonical.execTurnstileAudit (h : s.canonical) : outcomeCanonical (execTurnstileAudit s) := by
  unfold Machine.execTurnstileAudit
  extract_lets queues links
  have hq : queues.canonical := h.foldl fun h => h.foldl fun h => h.auditQueue
  have hl : links.canonical := hq.ite hq.loseCredit
  exact hl.foldl fun h => h.auditLink

theorem State.canonical.placeAll {s : State} {l} (h : s.canonical) : ∀ {t}, s.placeAll l = some t → t.canonical := by
  fun_cases State.placeAll
  · rintro _ ⟨⟩; exact h
  · exact nofun
  · exact nofun
  · exact (h.place (h.team? ‹_›)).placeAll

theorem State.canonical.placeGang {x} (h : s.canonical) : ∀ {t}, s.placeGang x = some t → t.canonical := by
  unfold State.placeGang
  exact h.enqueueTask.putDie.placeAll

theorem State.canonical.prepareGang {t} (h : s.canonical) : (s.prepareGang t).canonical := by
  fun_cases State.prepareGang
  · exact h
  · exact h
  · exact h.stopTeam

theorem State.canonical.report {k status teams time} (h : s.canonical) : (s.report k status teams time).canonical :=
  h.frame

theorem State.canonical.putGang {k} (h : s.canonical) : (s.putGang k).canonical := h.frame

theorem State.canonical.startGang {k x} (h : s.canonical) : (s.startGang k x).canonical := by
  fun_cases State.startGang
  · next e _ =>
    split at e
    · cases e
    · exact (h.placeGang e).putGang.report
  · next reported =>
    have hr : reported.canonical := h.putGang
    exact hr.endTask
  · exact h.prepareGang
  · exact h.prepareGang.putGang.report

theorem State.canonical.execGangStart {id} (h : s.canonical) : outcomeCanonical (execGangStart id s) := by
  fun_cases execGangStart
  split
  · exact h
  · split
    · exact h
    · exact h.frame.endTask.ite (h.startGang.ite h.prepareGang)

theorem State.canonical.execGangSliceExpired {id} (h : s.canonical) : outcomeCanonical (execGangSliceExpired id s) := by
  fun_cases execGangSliceExpired
  split
  · exact h
  · exact (h.putGang.foldl fun h => h.stopTeam).ite h

/-! ## Contexts -/

theorem State.canonical.pop (h : s.canonical) : s.pop.canonical := h.frame

theorem State.canonical.saveOven {ctx cl} (h : s.canonical) : (s.saveOven ctx cl).canonical := by
  fun_cases State.saveOven
  · exact h.putCluster.frame
  · exact h

theorem State.canonical.putOven {x k} (h : s.canonical) : (s.putOven x k).canonical := h.onOven.frame

theorem State.canonical.restoreOvens {s : State} {l} (h : s.canonical) :
    ∀ {t}, s.restoreOvens l = some t → t.canonical := by
  fun_cases State.restoreOvens
  · rintro _ ⟨⟩; exact h
  · exact nofun
  · exact (State.canonical.putOven h.frame).restoreOvens

theorem State.canonical.growSave {ctx n} (h : s.canonical) : (s.growSave ctx n).canonical := by
  fun_cases State.growSave
  · exact h
  · exact h
  · exact (h.allocateSystem ‹_›).readVa.fst ‹_›
  · exact ((h.allocateSystem ‹_›).readVa.fst ‹_›).writeVa.onContext

theorem State.canonical.writeResume {ctx} (h : s.canonical) : (s.writeResume ctx).canonical := by
  fun_cases State.writeResume
  · exact h.growSave
  · exact h.growSave.writeVa

theorem State.canonical.stopDcmp {c} (h : s.canonical) : (s.stopDcmp c).canonical := by
  fun_cases State.stopDcmp
  · exact h.frame
  · next drawn _ _ e =>
    have hd : drawn.canonical := h.frame
    exact (hd.writeUnit.fst e).putCmd
  · exact h.frame
  · exact h

theorem State.canonical.wholeLine {s : State} {k stream n} (h : s.canonical) :
    (State.wholeLine k stream n s).canonical := by
  fun_cases State.wholeLine
  · exact h
  · exact h
  · exact h
  · exact h
  · exact h.performLine.wholeLine

theorem State.canonical.stopTm {c} (h : s.canonical) : (s.stopTm c).canonical := by
  fun_cases State.stopTm
  · exact (h.foldl fun h => h.wholeLine).onCmd
  · exact h

theorem State.canonical.stopCmds {ctx} (h : s.canonical) : (s.stopCmds ctx).canonical :=
  h.foldl fun h => h.stopDcmp.stopTm

theorem State.canonical.saveGroups {ctx} (h : s.canonical) : (s.saveGroups ctx).canonical :=
  h.foldl fun h => by
    split
    · exact h.saveGroup
    · exact h

theorem State.canonical.unplace {ctx} (h : s.canonical) : (s.unplace ctx).canonical :=
  h.withTeams (updateWhere_canonical h.2.2 fun _ _ => Memory.nil_wf)

theorem State.canonical.lapseContext {ctx} (h : s.canonical) : (s.lapseContext ctx).canonical :=
  h.foldl fun h => h.lapse

theorem State.canonical.removeContext {ctx} (h : s.canonical) : (s.removeContext ctx).canonical := by
  unfold State.removeContext
  extract_lets marked stop left emptied stopped
  have hl : left.canonical := h.stopCmds.onContext.saveGroups.unplace
  have he : emptied.canonical := hl.frame
  clear_value emptied
  have hs : stopped.canonical := he.withTeams fun tm ht => by
    obtain ⟨y, hy, rfl⟩ := List.mem_map.mp ht
    have hy : y.canonical := he.teams hy
    unfold stop
    split <;> exact hy
  exact (hs.lapseContext.foldl fun h => h.saveOven).writeResume

theorem State.canonical.execContextRemoval (h : s.canonical) : outcomeCanonical (execContextRemoval s) := by
  fun_cases execContextRemoval
  split
  · exact h.pop.ite h.pop.removeContext
  · exact h

theorem State.canonical.rejoin {tm} (h : s.canonical) : (s.rejoin tm).canonical := by
  fun_cases State.rejoin
  · exact h.putDie
  · exact h.putDie
  · exact h

theorem State.canonical.returnContext {ctx} (h : s.canonical) : (s.returnContext ctx).canonical := by
  fun_cases State.returnContext
  · exact h
  · exact (h.restoreOvens ‹_›).onContext.foldl fun h => h.rejoin

theorem State.canonical.execContextReturn (h : s.canonical) : outcomeCanonical (execContextReturn s) := by
  fun_cases execContextReturn
  split
  · exact h.pop.returnContext.ite h.pop
  · exact h

theorem State.canonical.evictPage {ctx p} (h : s.canonical) : (s.evictPage ctx p).canonical := by
  unfold State.evictPage
  extract_lets frame size landed bytes shot
  have hl : landed.canonical := h.foldl fun h => h.commit
  have hs : shot.canonical := hl.shootPage
  clear_value landed shot
  split
  · exact hl
  · extract_lets pte gone freed
    have hg : gone.canonical := hs.withMem (Memory.write_wf hs.mem _ _)
    exact (hg.freeFrame.ite hg).onContext

theorem State.canonical.evict {ctx} (h : s.canonical) : (s.evict ctx).canonical := by
  fun_cases State.evict
  · exact h.pop
  · exact h
  · exact h.pop.foldl fun h => h.evictPage

theorem State.canonical.execEviction (h : s.canonical) : outcomeCanonical (execEviction s) := by
  fun_cases execEviction
  split
  · exact h.evict
  · exact h

end Sys2Proof.Machine

/-! # Canonical form: the device

Resets, the host's requests and the ports keep the canonical form. -/

namespace Sys2Proof.Machine

set_option Elab.async false
variable {s t : State}

/-! ## Boot and reset -/

theorem State.canonical.flashPut {a bs} (h : s.canonical) : (s.flashPut a bs).canonical :=
  h.withFlash (Memory.write_wf h.flash _ _)

theorem State.canonical.flashProgram {a bs} (h : s.canonical) : (s.flashProgram a bs).canonical := h.flashPut

theorem State.canonical.flashErase {bank} (h : s.canonical) : (s.flashErase bank).canonical :=
  h.withFlash (Memory.clear_wf h.flash _ _)

theorem State.canonical.extend {i bs} (h : s.canonical) : (s.extend i bs).canonical := h.frame

theorem State.canonical.clearMeas (h : s.canonical) : s.clearMeas.canonical := h.frame

theorem State.canonical.measureItems {s : State} {bank l} (h : s.canonical) : (s.measureItems bank l).1.canonical := by
  fun_cases State.measureItems
  · exact h
  · exact h.frame
  · exact h.frame.extend
  · next drawn _ _ _ _ =>
    have hd : drawn.canonical := h.frame
    exact hd.extend.measureItems

theorem State.canonical.tryBank {bank} (h : s.canonical) : (s.tryBank bank).1.canonical := by
  fun_cases State.tryBank
  · exact h
  · exact h.measureItems

theorem State.canonical.bootFailure {f} (h : s.canonical) : (s.bootFailure f).canonical := h.netRecord

theorem State.canonical.enterRecovery (h : s.canonical) : s.enterRecovery.canonical := h.frame

theorem State.canonical.failBoot {fs} (h : s.canonical) : (s.failBoot fs).canonical :=
  (h.foldl fun h => h.bootFailure).enterRecovery

theorem State.canonical.applyImage {before bank} (h : s.canonical) : (s.applyImage before bank).canonical := by
  fun_cases State.applyImage
  · exact h.failBoot
  · exact h.frame

theorem State.canonical.bootRom (h : s.canonical) : s.bootRom.canonical := by
  unfold State.bootRom
  extract_lets measured b
  have hm : measured.canonical := State.canonical.extend h.frame
  clear_value measured
  split
  · exact (hm.tryBank.fst ‹_›).applyImage
  · next e₁ =>
    have h₁ := hm.tryBank.fst e₁
    split
    · exact (h₁.clearMeas.tryBank.fst ‹_›).applyImage
    · exact (h₁.clearMeas.tryBank.fst ‹_›).failBoot

theorem State.canonical.afterReset (h : s.canonical) : s.afterReset.canonical :=
  ⟨Memory.nil_wf, h.flash, fun _ ht => nomatch ht⟩

theorem State.canonical.recordReset {warm} (h : s.canonical) : (s.recordReset warm).canonical := h.netRecord

theorem State.canonical.coldReset (h : s.canonical) : s.coldReset.canonical :=
  h.afterReset.recordReset.bootRom

theorem State.canonical.warmReset (h : s.canonical) : s.warmReset.canonical := by
  unfold State.warmReset
  extract_lets _ kept
  have hk : kept.canonical := h.afterReset.withMem h.mem
  exact hk.recordReset.bootRom

theorem State.canonical.execColdReset (h : s.canonical) : outcomeCanonical (execColdReset s) :=
  h.popInput.coldReset

theorem State.canonical.execWarmReset (h : s.canonical) : outcomeCanonical (execWarmReset s) :=
  h.popInput.warmReset

theorem State.canonical.execStandbySupplyLoss (h : s.canonical) : outcomeCanonical (execStandbySupplyLoss s) :=
  h.popInput.frame

theorem State.canonical.reply {conn op ctx tag status detail body} (h : s.canonical) :
    (s.reply conn op ctx tag status detail body).canonical :=
  h.sendReplies

theorem State.canonical.onConn {conn go} (h : s.canonical)
    (hg : ∀ {s : State}, s.canonical → (go s).canonical) : (s.onConn conn go).canonical := by
  fun_cases State.onConn
  · exact hg h
  · exact hg h.frame
  · exact h.frame

theorem State.canonical.commitFlash {conn tag data} (h : s.canonical) : (s.commitFlash conn tag data).canonical := by
  fun_cases State.commitFlash
  · exact h.reply
  · exact h.flashPut.reply.warmReset
  · exact h.flashPut.flashPut.reply

theorem State.canonical.writeFlash {conn tag va data} (h : s.canonical) :
    (s.writeFlash conn tag va data).canonical := by
  fun_cases State.writeFlash
  · exact h.reply
  · exact h.reply
  · exact (h.ite h.flashErase.frame).flashProgram.reply

theorem State.canonical.recoveryWrite {conn tag va data} (h : s.canonical) :
    (s.recoveryWrite conn tag va data).canonical := by
  fun_cases State.recoveryWrite
  · exact h.reply
  · exact h.commitFlash
  · exact h.writeFlash

theorem State.canonical.execFlashRecoveryWrite (h : s.canonical) : outcomeCanonical (execFlashRecoveryWrite s) := by
  fun_cases Machine.execFlashRecoveryWrite
  split
  · exact h.pop.onConn fun h => h.recoveryWrite
  · exact h

theorem State.canonical.execFlashRecoveryCommit (h : s.canonical) : outcomeCanonical (execFlashRecoveryCommit s) := by
  fun_cases Machine.execFlashRecoveryCommit
  split
  · exact h.pop.onConn fun h => h.recoveryWrite
  · exact h

theorem State.canonical.execSoftErrorCorrected (h : s.canonical) : outcomeCanonical (execSoftErrorCorrected s) := by
  fun_cases execSoftErrorCorrected
  split
  · exact h.frame.netRecord
  · exact h

theorem State.canonical.haltHit {src hit} (h : s.canonical) : (s.haltHit src hit).canonical :=
  h.foldl fun h => by
    split
    · exact h
    · exact h.ite h.haltContext

theorem State.canonical.execUncorrectableError (h : s.canonical) : outcomeCanonical (execUncorrectableError s) := by
  fun_cases execUncorrectableError
  split
  · exact h.frame.netRecord.ite h.frame.netRecord.haltHit
  · exact h

theorem State.canonical.execOverTemperature (h : s.canonical) : outcomeCanonical (execOverTemperature s) := by
  fun_cases execOverTemperature
  split
  · exact h.frame
  · exact h

theorem State.canonical.execHeatRefillHalved (h : s.canonical) : outcomeCanonical (execHeatRefillHalved s) :=
  h.popInput.frame

theorem State.canonical.execSafetyNetUnfreeze (h : s.canonical) : outcomeCanonical (execSafetyNetUnfreeze s) :=
  h.popInput.frame

theorem State.canonical.onRing {die f} (h : s.canonical) : (s.onRing die f).canonical := h.putDie

theorem State.canonical.writeDevice {r v} (h : s.canonical) : (s.writeDevice r v).canonical := by
  fun_cases State.writeDevice
  · exact h.frame
  · exact h.putCore
  · exact h.frame
  · exact h.frame
  · exact h.frame
  · exact h.onRing
  · exact h.onRing
  · exact h.onRing
  · exact h.onRing
  · exact h.onRing
  · exact h.onContext
  · exact h.onContext
  · exact h.onContext
  · exact h.onContext
  · exact h.frame

theorem State.canonical.execDeviceRegisterWrite (h : s.canonical) : outcomeCanonical (execDeviceRegisterWrite s) := by
  fun_cases execDeviceRegisterWrite
  split
  · exact h.pop.writeDevice
  · exact h

theorem State.canonical.resumeHeld {g code} (h : s.canonical) : (s.resumeHeld g code).canonical := by
  fun_cases State.resumeHeld
  · exact (h.imageSpan.fst ‹_›).doubleTrap
  · exact (h.imageSpan.fst ‹_›).doubleTrap
  · exact (h.imageSpan.fst ‹_›).doubleTrap
  · exact (h.imageSpan.fst ‹_›).putGroup

theorem State.canonical.execDebugResume (h : s.canonical) : outcomeCanonical (execDebugResume s) := by
  fun_cases execDebugResume
  split
  · split
    · exact h.pop
    · exact h.pop.resumeHeld.ite h.pop
  · exact h

/-! ## Control flow -/

theorem State.canonical.branchIf {taken i c} (h : s.canonical) : (branchIf taken i c s).canonical :=
  h.putGroup

theorem State.canonical.execRet {a} (h : s.canonical) : outcomeCanonical (execRet a s) :=
  h.issue fun h => h.putGroup.ite h.ctxTrap

theorem State.canonical.spillEntry {g before} (h : s.canonical) : (s.spillEntry g before).canonical := by
  fun_cases State.spillEntry
  · exact h
  · exact h
  · exact h.span.fst ‹_›
  · exact (h.span.fst ‹_›).putSpan

theorem State.canonical.reloadEntry {g after} (h : s.canonical) : (s.reloadEntry g after).1.canonical := by
  fun_cases State.reloadEntry
  · exact h
  · exact h.span.fst ‹_›
  · exact h.span.fst ‹_›

theorem State.canonical.execBrd {d v} (h : s.canonical) : outcomeCanonical (execBrd d v s) :=
  h.issue fun h => by
    split
    · exact h.ctxTrap
    · exact (h.spillEntry.ite h).putGroup

theorem State.canonical.execReconv (h : s.canonical) : outcomeCanonical (execReconv s) :=
  h.issue fun h => by
    split
    · exact h.ctxTrap
    split
    next e =>
    split at e
    · exact (h.reloadEntry.fst e).putGroup
    · cases e; exact h.putGroup

/-! ## Requests of the host -/

theorem State.canonical.requestAnswer {r st body} (h : s.canonical) : (Request.answer r st body s).canonical :=
  h.reply

theorem State.canonical.serve' {op inRecovery go} (h : s.canonical)
    (hg : ∀ {r} {s : State}, s.canonical → (go r s).canonical) : (s.serve' op inRecovery go).canonical := by
  fun_cases State.serve'
  · exact h
  · exact h.pop.onConn fun h => hg h
  · refine h.pop.onConn fun h => ?_
    split
    · exact hg h
    · exact h
  · exact h.pop

theorem State.canonical.servicePut {ctx va bs} (h : s.canonical) : (s.servicePut ctx va bs).canonical := by
  fun_cases State.servicePut
  · exact h
  · exact h.markLeaf.zeroFill.put

theorem State.canonical.serviceWrite {ctx va bs} (h : s.canonical) :
    ∀ {t}, s.serviceWrite ctx va bs = some t → t.canonical := by
  fun_cases State.serviceWrite
  · rintro _ ⟨⟩
    exact h.bringIn.foldl fun h => h.servicePut
  · exact nofun

theorem State.canonical.serveAllocate {r} (h : s.canonical) : (State.serveAllocate r s).canonical := by
  have hc : ∀ {fresh : Bool} {n t}, (if fresh = true then s.newContext else some (r.ctx, s)) = some (n, t) →
    t.canonical := by
    intro fresh
    split
    · exact h.newContext
    · rintro _ _ ⟨⟩; exact h
  fun_cases State.serveAllocate
  · exact h.requestAnswer
  · exact h.requestAnswer
  · next e _ => exact (hc e).requestAnswer
  · exact h.requestAnswer
  · next e₁ _ _ _ e₂ => exact ((hc e₁).allocate e₂).requestAnswer

theorem State.canonical.execAllocate (h : s.canonical) :
    outcomeCanonical (execAllocate s) := h.serve' fun h => h.serveAllocate

theorem State.canonical.serveWrite {r} (h : s.canonical) : (State.serveWrite r s).canonical := by
  fun_cases State.serveWrite
  · exact h.requestAnswer
  · exact h.recoveryWrite
  · exact h.requestAnswer
  · exact h.requestAnswer
  · exact (h.serviceWrite ‹_›).requestAnswer

theorem State.canonical.execWrite (h : s.canonical) : outcomeCanonical (execWrite s) := h.serve' fun h => h.serveWrite

theorem State.canonical.serveRead {r} (h : s.canonical) : (State.serveRead r s).canonical := by
  fun_cases State.serveRead
  · exact h.requestAnswer
  · exact h.requestAnswer
  · exact h.bringIn.requestAnswer

theorem State.canonical.execRead (h : s.canonical) : outcomeCanonical (execRead s) := h.serve' fun h => h.serveRead

theorem State.canonical.submitFrom {ctx tcb} (h : s.canonical) : (s.submitFrom ctx tcb).1.canonical := by
  fun_cases State.submitFrom
  · exact h
  · exact h.readTcb.fst ‹_›
  · exact h.readTcb.fst ‹_›
  · exact (h.readTcb.fst ‹_›).writeVa.fst ‹_›
  · exact ((h.readTcb.fst ‹_›).writeVa.fst ‹_›).frame

theorem State.canonical.startLaunch {r launch tag async} (hs : s.canonical) (ht : t.canonical) :
    (State.startLaunch r launch tag async s t).canonical := by
  fun_cases State.startLaunch
  · exact hs.requestAnswer
  · exact hs.requestAnswer
  · next e₁ _ _ e₂ answered =>
    have hd := (ht.allocate e₁).writeVa.submitFrom.fst e₂
    have ha : answered.canonical := hd.requestAnswer.ite hd.frame
    exact ha.readyIfFree

theorem State.canonical.serveLaunch {r} (h : s.canonical) : (State.serveLaunch r s).canonical := by
  fun_cases State.serveLaunch
  · exact h.requestAnswer
  · exact h.requestAnswer
  · exact h.requestAnswer
  · exact (h.readRecord.fst ‹_›).startLaunch h
  · exact h.requestAnswer

theorem State.canonical.execLaunch (h : s.canonical) :
    outcomeCanonical (execLaunch s) := h.serve' fun h => h.serveLaunch

theorem State.canonical.takePacket {p} (h : s.canonical) : (State.takePacket p s).canonical := by
  fun_cases State.takePacket
  · exact h.report
  · exact h.report
  · next submitted e =>
    have hs : submitted.canonical := by
      refine State.canonical.fst ?_ e
      exact State.canonical.submitFrom h.frame
    exact hs.readyIfFree
  · exact h.report

theorem State.canonical.execLaunchPacket (h : s.canonical) : outcomeCanonical (execLaunchPacket s) := by
  fun_cases execLaunchPacket
  split
  · exact h.pop.takePacket.ite h.pop
  · exact h

theorem State.canonical.takeLeaf (h : s.canonical) : s.takeLeaf.canonical := h.frame

theorem State.canonical.serveAttest {r} (h : s.canonical) : (State.serveAttest r s).canonical := by
  fun_cases State.serveAttest
  · exact h.requestAnswer
  · exact h.requestAnswer
  · exact h.takeLeaf.requestAnswer

theorem State.canonical.execAttest (h : s.canonical) :
    outcomeCanonical (execAttest s) := h.serve' fun h => h.serveAttest

/-! ## Loading an object -/

theorem State.canonical.mapSections {s : State} {ctx l} (h : s.canonical) :
    ∀ {t l'}, s.mapSections ctx l = some (t, l') → t.canonical := by
  fun_cases State.mapSections
  · exact h.inSome
  · exact nofun
  · exact nofun
  · next e₁ _ _ e₂ => exact ((h.allocate e₁).mapSections e₂).inSome

theorem State.canonical.setHandler {ctx v} (h : s.canonical) : (s.setHandler ctx v).canonical :=
  h.onContext.extend

theorem State.canonical.finishLoad {ctx obj image notes l} (h : s.canonical) :
    ∀ {t l'}, s.finishLoad ctx obj image notes l = .ok (t, l') → t.canonical := by
  fun_cases State.finishLoad
  · exact nofun
  · exact nofun
  · next filled measured whole =>
    have hf : filled.canonical := h.foldl fun {s x} h => by
      cases e : s.serviceWrite ctx x.va x.bytes with
      | none => exact h
      | some t => exact h.serviceWrite e
    have hm : measured.canonical := hf.extend
    have hw : whole.canonical := hm.extend.ite hm
    rintro _ _ ⟨⟩
    exact hw.foldl fun h => h.setHandler

theorem State.canonical.loadObject {ctx obj} (h : s.canonical) :
    ∀ {t l}, s.loadObject ctx obj = .ok (t, l) → t.canonical := by
  fun_cases State.loadObject
  · exact nofun
  · exact nofun
  · exact nofun
  · exact nofun
  · exact nofun
  · exact (h.mapSections ‹_›).finishLoad

theorem State.canonical.serveLoad {r} (h : s.canonical) : (State.serveLoad r s).canonical := by
  fun_cases State.serveLoad
  · exact h.reply
  · exact h.reply
  · exact (h.loadObject ‹_›).reply

theorem State.canonical.execLoadObject (h : s.canonical) : outcomeCanonical (execLoadObject s) :=
  h.serve' fun h => h.serveLoad

/-! ## Fabric ports -/

theorem State.canonical.execPacketDropped (h : s.canonical) : outcomeCanonical (execPacketDropped s) := by
  fun_cases execPacketDropped
  split
  · exact h.frame
  · exact h

theorem State.canonical.execConnectionClosed (h : s.canonical) : outcomeCanonical (execConnectionClosed s) := by
  fun_cases execConnectionClosed
  split
  · exact h.frame
  · exact h

theorem State.canonical.synchronise {ppm step} (h : s.canonical) : (s.synchronise ppm step).canonical := by
  fun_cases State.synchronise
  next stepped =>
  have hs : stepped.canonical := State.canonical.ite h.frame h
  exact hs.frame

theorem State.canonical.execTimeSync (h : s.canonical) : outcomeCanonical (execTimeSync s) := by
  fun_cases execTimeSync
  split
  · exact h.pop.synchronise.ite h.pop
  · exact h

theorem State.canonical.onPort {n f} (h : s.canonical) : (s.onPort n f).canonical := h.frame

theorem State.canonical.setPort {n x} (h : s.canonical) : (s.setPort n x).canonical := h.onPort

theorem State.canonical.failPort {n reason} (h : s.canonical) : (s.failPort n reason).canonical := by
  fun_cases State.failPort
  · exact h
  · exact h.setPort.netRecord

theorem State.canonical.raisePort {n p x} (h : s.canonical) : (s.raisePort n p x).canonical := by
  fun_cases State.raisePort
  · exact h.setPort.failPort
  · exact h.setPort

theorem State.canonical.execPortEnable (h : s.canonical) : outcomeCanonical (execPortEnable s) := by
  fun_cases execPortEnable
  split
  · split
    · exact h.pop
    · exact h.pop.raisePort.ite h.pop
  · exact h

theorem State.canonical.execPortStateAdvance (h : s.canonical) : outcomeCanonical (execPortStateAdvance s) := by
  fun_cases execPortStateAdvance
  split
  · split
    · exact h.pop
    · exact h.pop.raisePort.ite h.pop
  · exact h

theorem State.canonical.execPortStateLimit (h : s.canonical) : outcomeCanonical (execPortStateLimit s) := by
  fun_cases execPortStateLimit
  split
  · split
    · exact h.pop
    · exact h.pop.failPort.ite h.pop
  · split
    · exact h
    · exact h.failPort

theorem State.canonical.execLaneLost (h : s.canonical) : outcomeCanonical (execLaneLost s) := by
  fun_cases Machine.execLaneLost
  split
  · extract_lets fallen
    have hp : fallen.canonical := h.pop.onPort
    clear_value fallen
    split
    · exact hp
    · exact hp.failPort.ite hp
  · exact h

theorem State.canonical.reroute {n} (h : s.canonical) : (s.reroute n).canonical := h.frame

theorem State.canonical.replayFlit {n} (h : s.canonical) : (s.replayFlit n).canonical := by
  fun_cases State.replayFlit
  · exact h.onPort
  · exact h.frame.failPort.reroute.onPort
  · exact h.frame

theorem State.canonical.execFlitReplay (h : s.canonical) : outcomeCanonical (execFlitReplay s) := by
  fun_cases execFlitReplay
  split
  · exact h.pop.replayFlit
  · exact h

theorem State.canonical.fabricOp {op pa data} (h : s.canonical) : (s.fabricOp op pa data).canonical := by
  fun_cases State.fabricOp
  · exact h.frame
  · exact h.put.frame
  · exact h.put.frame

theorem State.canonical.execFabricRequest (h : s.canonical) : outcomeCanonical (execFabricRequest s) := by
  fun_cases execFabricRequest
  split
  · exact h.pop.fabricOp.ite h.pop
  · exact h

end Sys2Proof.Machine

/-! # Canonical form: the step

Every instruction, every event, and so every step keeps the canonical form. -/

namespace Sys2Proof.Machine

set_option Elab.async false
variable {s t : State}

/-! ## Merges -/

theorem State.canonical.threadMerge {x n c} (h : s.canonical) : (threadMerge x n c s).canonical := h.putGroup

theorem State.canonical.orSticky {g fl} (h : s.canonical) : (s.orSticky g fl).canonical := by
  fun_cases State.orSticky
  · exact h
  · exact h.onGroup
  · exact h.imageSpan.fst ‹_›
  · exact (h.imageSpan.fst ‹_›).putSpan

theorem State.canonical.completeMerge {team m l} (h : s.canonical) : (s.completeMerge team m l).canonical := by
  unfold State.completeMerge
  split
  · exact h
  · extract_lets odd r n names drop value merged clear cleared flagged block mine
    have hm : merged.canonical := h.onTeam
    have hc : cleared.canonical := State.canonical.ite hm.frame hm
    have hf : flagged.canonical := hc.foldl fun h => h.orSticky
    exact hf.latch

theorem State.canonical.settleMerges {team} (h : s.canonical) : (s.settleMerges team).canonical := by
  fun_cases State.settleMerges
  · exact h
  · exact h.foldl fun h => h.completeMerge.ite h

theorem State.canonical.teamMerge {f x n c} (h : s.canonical) : (teamMerge f x n c s).canonical := by
  fun_cases teamMerge
  · exact h.checkWait
  · exact h.ctxTrap
  · exact h.release.onTeam.putGroup.settleMerges
  · exact h.release.onTeam.putGroup.settleMerges.checkWait
  · exact h

theorem State.canonical.execMerge {d v} (h : s.canonical) : outcomeCanonical (execMerge d v s) :=
  h.issue fun h => by
    dsimp only
    split
    · exact h.teamMerge
    · exact h.threadMerge

/-! ## Fetch -/

theorem State.canonical.execUnassignedOpcode {w} (h : s.canonical) : outcomeCanonical (execUnassignedOpcode w s) := by
  fun_cases execUnassignedOpcode
  · trivial
  · exact h.trap

theorem State.canonical.refusedWord {g w e} (h : s.canonical) : (s.refusedWord g w e).canonical := h.trapForm

theorem State.canonical.readWord {core pa} (h : s.canonical) : (s.readWord core pa).1.canonical := by
  fun_cases State.readWord
  · exact h
  · exact h.frame
  · exact h.putCore

theorem State.canonical.fetch {g} (h : s.canonical) : (s.fetch g).1.canonical := by
  fun_cases State.fetch
  · exact h.translate.fst ‹_›
  · exact h.translate.fst ‹_›
  · exact h.translate.fst ‹_›
  · exact (h.translate.fst ‹_›).readWord.fst ‹_›

theorem State.canonical.fetchFault {g f} (h : s.canonical) : (s.fetchFault g f).canonical :=
  h.memoryFault.onGroup

/-! ## Every instruction and event -/

/-- Every instruction and every event keeps the canonical form. -/
theorem State.canonical.exec {i} (h : s.canonical) : outcomeCanonical (exec i s) := by
  cases i with
  | nop | mode | br | call | setix | fflags | xlinv => exact h.issue fun h => h.putGroup
  | rank | pset | pand | por | add | sub | mul | mulh | div | rem | min | max | abs | neg | and
  | or | xor | not | shl | shr | sar | rot | popc | clz | bfx | bfi | cmpeq | cmpne | cmplt | cmple
  | sel | li | lih | mov | adda | suba | cvtfi => exact h.issue fun h => h.aluBody
  | merge => exact h.execMerge
  | bz | bnz => exact h.issue fun h => h.branchIf
  | brd => exact h.execBrd
  | reconv => exact h.execReconv
  | ret => exact h.execRet
  | shfl => exact h.execShfl
  | shflUp => exact h.execShflUp
  | shflDn => exact h.execShflDn
  | shflXor => exact h.execShflXor
  | bcast | voteAny | voteAll | voteBal | scanAdd | scanMax | reduceAdd | reduceMin | reduceMax =>
    exact h.issue fun h => h.laneBody
  | fadd | fsub | fmul | fdiv | fsqrt | frcp | frsq | fmin | fmax | fabs | fneg | cvtif | fwiden
  | fnarrow | fclass => exact h.issue fun h => h.floatBody
  | fma | fms => exact h.issue fun h => h.fmaBody
  | fcmpeq | fcmplt | fcmple | fcmpun => exact h.issue fun h => h.fcompareBody
  | quant => exact h.issue fun h => h.quantBody
  | deq => exact h.issue fun h => h.deqBody
  | tfence => exact h.execTfence
  | dadd | dsub | dmul | dfma | ddiv | dcvt => exact h.wideFloat
  | ldItype | ldFtype | ldsItype | ldsFtype => exact h.issue fun h => h.loadBody
  | stItype | stFtype | stsItype | stsFtype => exact h.issue fun h => h.storeBody
  | ldt | ldtTr8 | ldtTr16 => exact h.issue fun h => h.ldtBody
  | stt => exact h.issue fun h => h.sttBody
  | xlt => exact h.execXlt
  | pref => exact h.issue fun h => h.lineBody fun h => h
  | waitmem => exact h.issue fun h => h.waitmemBody
  | discard => exact h.issue fun h => h.discardBody
  | clean | invl1 => exact h.issue fun h => h.lineBody fun h => h.writeBack
  | atomAdd | atomMin | atomMax | atomAnd | atomOr | atomXor | atomExch => exact h.intAtomic
  | atomCas | atomFadd => exact h.issue fun h => h.atomBody
  | redAdd | redMin | redMax | redFadd => exact h.issue fun h => h.redBody
  | barInit => exact h.execBarInit
  | barArrive => exact h.execBarArrive
  | barWait => exact h.execBarWait
  | barInval => exact h.execBarInval
  | barExpect => exact h.execBarExpect
  | close => exact h.issue fun h => h.closeBody
  | waitb => exact h.execWaitb
  | fence => exact h.execFence
  | acq => exact h.issue fun h => h.onGroup
  | rel => exact h.execRel
  | acqRem => exact h.execAcqRem
  | qsend => exact h.execQsend
  | qrecv => exact h.execQrecv
  | qcredit => exact h.execQcredit
  | waitf => exact h.execWaitf
  | spawn => exact h.execSpawn
  | fork => exact h.execFork
  | join => exact h.execJoin
  | tcbNew => exact h.execTcbNew
  | tcbSucc => exact h.execTcbSucc
  | tcbSubmit => exact h.execTcbSubmit
  | tcbDone => exact h.execTcbDone
  | bintime => exact h.execBintime
  | yield => exact h.execYield
  | exit => exact h.execExit
  | trap => exact h.issue fun h => h.ctxTrap
  | tret => exact h.execTret
  | beat => exact h.execBeat
  | pidx => exact h.execPidx
  | modeRd | clock => exact h.issue fun h => h.ctxAnswer
  | modeWr => exact h.execModeWr
  | winrd => exact h.execWinrd
  | winwr => exact h.execWinwr
  | sregRd => exact h.execSregRd
  | sregWr => exact h.execSregWr
  | shoot => exact h.execShoot
  | snet => exact h.execSnet
  | brk => exact h.execBrk
  | halt => exact h.execHalt
  | copyVv | copyVt | copyTv | copyTt | copyMc | copy2d | copyGath | copyFill | xfTr | xfPlane
  | xfDeq | dcmp => exact h.copyCommand
  | copyOv => exact h.issue fun h => h.copyOvBody
  | copyStat => exact h.execCopyStat
  | ovFmt => exact h.execOvFmt
  | ovA | ovB => exact h.issue fun h => h.baseBody
  | ovIdx => exact h.execOvIdx
  | ovTile | ovChain => exact h.issue fun h => h.tileBody
  | ovStat => exact h.execOvStat
  | ovToken => exact h.execOvToken
  | accAlloc => exact h.execAccAlloc
  | accFree => exact h.execAccFree
  | accZero | accWr | accSt => exact h.issue fun h => h.accBody
  | accRd => exact h.execAccRd
  | accDrain => exact h.execAccDrain
  | accMap => exact h.execAccMap
  | tmAdd | tmMin | tmMax | tmCas | tmSacc => exact h.tmCommand
  | carAcq | carProp => exact h.issue fun h => h.carWait
  | carRel | carStat => exact h.issue fun h => h.carBody
  | carClr | carCell | carDecide | carBack | carTrail | carVar => exact h.carOne
  | carCol | carLearn => exact h.carTwo
  | producerDelivers => exact h.execProducerDelivers
  | registerWaitExpired => exact h.execRegisterWaitExpired
  | waitTimeout => exact h.execWaitTimeout
  | commandAccepted => exact h.execCommandAccepted
  | engineUnitMoved => exact h.execEngineUnitMoved
  | commandComplete => exact h.execCommandComplete
  | ovenTurn => exact h.execOvenTurn
  | tmLineOperation => exact h.execTmLineOperation
  | leaseExpired => exact h.execLeaseExpired
  | binTimerExpired => exact h.execBinTimerExpired
  | watchdogExpired => exact h.execWatchdogExpired
  | watchdogTrap => exact h.execWatchdogTrap
  | turnstileAudit => exact h.execTurnstileAudit
  | lostPermitTrap => exact h.execLostPermitTrap
  | placement => exact h.execPlacement
  | teamStart => exact h.execTeamStart
  | retirement => exact h.execRetirement
  | eventRingAgeInterrupt => exact h.execEventRingAgeInterrupt
  | preemption => exact h.execPreemption
  | groupRestore => exact h.execGroupRestore
  | backingStorePageIn => exact h.execBackingStorePageIn
  | eviction => exact h.execEviction
  | contextRemoval => exact h.execContextRemoval
  | contextReturn => exact h.execContextReturn
  | shootdownComplete => exact h.execShootdownComplete
  | promotionComplete => exact h.execPromotionComplete
  | permitLands => exact h.execPermitLands
  | appendLands => exact h.execAppendLands
  | softErrorCorrected => exact h.execSoftErrorCorrected
  | uncorrectableError => exact h.execUncorrectableError
  | overTemperature => exact h.execOverTemperature
  | heatRefillHalved => exact h.execHeatRefillHalved
  | safetyNetUnfreeze => exact h.execSafetyNetUnfreeze
  | rlfree => exact h.execRlfree
  | deviceRegisterWrite => exact h.execDeviceRegisterWrite
  | debugResume => exact h.execDebugResume
  | coldReset => exact h.execColdReset
  | warmReset => exact h.execWarmReset
  | standbySupplyLoss => exact h.execStandbySupplyLoss
  | flashRecoveryWrite => exact h.execFlashRecoveryWrite
  | flashRecoveryCommit => exact h.execFlashRecoveryCommit
  | loadObject => exact h.execLoadObject
  | allocate => exact h.execAllocate
  | write => exact h.execWrite
  | launch => exact h.execLaunch
  | read => exact h.execRead
  | attest => exact h.execAttest
  | packetDropped => exact h.execPacketDropped
  | timeSync => exact h.execTimeSync
  | launchPacket => exact h.execLaunchPacket
  | gangStart => exact h.execGangStart
  | gangSliceExpired => exact h.execGangSliceExpired
  | portEnable => exact h.execPortEnable
  | portStateAdvance => exact h.execPortStateAdvance
  | portStateLimit => exact h.execPortStateLimit
  | flitReplay => exact h.execFlitReplay
  | laneLost => exact h.execLaneLost
  | unassignedOpcode => exact h.execUnassignedOpcode
  | storePerformed => exact h.execStorePerformed
  | reductionRequestEnds => exact h.execReductionRequestEnds
  | spuriousFiring => exact h.execSpuriousFiring
  | carouselCommandPerformed => exact h.execCarouselCommandPerformed
  | rangeBroughtIn => exact h.execRangeBroughtIn
  | fabricRequest => exact h.execFabricRequest
  | connectionClosed => exact h.execConnectionClosed

/-! ## Time passes -/

theorem State.canonical.issueNext {gid} (h : s.canonical) : outcomeCanonical (s.issueNext gid) := by
  unfold State.issueNext
  extract_lets named
  have hn : named.canonical := h.frame
  clear_value named
  split
  · exact hn
  · split
    · exact (hn.fetch.fst ‹_›).fetchFault
    · split
      · exact (hn.fetch.fst ‹_›).exec
      · exact (hn.fetch.fst ‹_›).refusedWord

theorem outcomeCanonical.stopAfter {gid o} (h : outcomeCanonical o) : outcomeCanonical (stopAfter gid o) := by
  fun_cases Machine.stopAfter
  · exact State.canonical.stopNow h
  · trivial
  · trivial

theorem State.canonical.perform {m} (h : s.canonical) : outcomeCanonical (s.perform m) := by
  cases m with
  | issue gid => exact h.issueNext.stopAfter
  | event i => exact h.exec

theorem State.canonical.settleFreed (h : s.canonical) : s.settleFreed.canonical := h.frame

theorem State.canonical.settle (h : s.canonical) : s.settle.canonical := by
  unfold State.settle
  extract_lets merged waited
  have hm : merged.canonical := h.settleShots.foldl fun h => h.settleMerges
  have hw : waited.canonical :=
    hm.settleFollows.settleOvens.settleWaits.settleMonitors.settleParked.settleStops.settleSwaps
  exact hw.settleStalled.settleTraps.settleBins.settleFreed

theorem State.canonical.tick {n} (h : s.canonical) : (s.tick n).canonical := by
  unfold State.tick
  extract_lets parts w clock dog
  refine h.withTeams fun tm ht => ?_
  obtain ⟨y, hy, rfl⟩ := List.mem_map.mp ht
  have hy : y.canonical := h.teams hy
  unfold dog
  extract_lets lives
  split <;> exact hy

theorem State.canonical.elapse (h : s.canonical) : s.elapse.canonical := h.frame.tick

theorem State.canonical.after (h : s.canonical) : s.after.canonical := h.settle.elapse

theorem outcomeCanonical.afterMove {o} (h : outcomeCanonical o) : outcomeCanonical (afterMove o) := by
  fun_cases Machine.afterMove
  · exact State.canonical.after h
  · trivial
  · trivial

theorem State.canonical.choose (h : s.canonical) : s.choose.1.canonical := by
  fun_cases State.choose
  · exact h
  · exact h
  · exact h.frame

/-! ## The step -/

theorem State.canonical.step (h : s.canonical) : outcomeCanonical (step s) := by
  fun_cases Machine.step
  · trivial
  · exact h.exec.afterMove
  · exact (h.choose.fst ‹_›).after
  · exact (h.choose.fst ‹_›).perform.afterMove

/-- Settles O60: every function that a step is made of keeps the canonical form, whatever the instruction or
the event. -/
theorem canonicalKept : Obligations.CanonicalKept := fun s t h e => by
  have ht : outcomeCanonical (step s) := h.step
  rwa [e] at ht

end Sys2Proof.Machine

/-! # Control: one group moves on

NOP, MODE, SETIX, RANK, the predicates, branches and calls (04 R84 to R89, 03 R47, R49): each is one body that changes its
group alone, run by `State.issue_runs`. -/

namespace Sys2Proof.Machine

open Sys2Proof.Claims

/-! ## A state in which one group has changed -/

theorem onlyGroup_putGroup (s : State) (h : Group) : OnlyGroup s (s.putGroup h) h :=
  ⟨rfl, fun l => by cases l <;> rfl, fun _ => rfl⟩

/-! ## Bits of a field (03 R47) -/

/-- A number, split below and above a field. -/
theorem putBits_eq (n lo len v : Nat) :
    putBits n lo len v = 2 ^ lo * (2 ^ len * (n / 2 ^ lo / 2 ^ len) + v % 2 ^ len) + n % 2 ^ lo := by
  have low := Nat.div_add_mod n (2 ^ lo)
  have high := Nat.div_add_mod (n / 2 ^ lo) (2 ^ len)
  unfold putBits bits
  generalize n / 2 ^ lo % 2 ^ len = field at high ⊢
  generalize n / 2 ^ lo / 2 ^ len = top at high ⊢
  rw [← high] at low
  generalize v % 2 ^ len = new
  have : n - field * 2 ^ lo = 2 ^ lo * (2 ^ len * top) + n % 2 ^ lo := by
    have := Nat.mul_add (2 ^ lo) (2 ^ len * top) field
    have := Nat.mul_comm field (2 ^ lo)
    omega
  rw [this, Nat.mul_add, Nat.mul_comm new]
  omega

theorem testBit_putBits (n lo len v j : Nat) :
    (putBits n lo len v).testBit j = if lo ≤ j ∧ j < lo + len then v.testBit (j - lo) else n.testBit j := by
  rw [putBits_eq, Nat.testBit_two_pow_mul_add _ (Nat.mod_lt _ (Nat.two_pow_pos lo)),
    Nat.testBit_two_pow_mul_add _ (Nat.mod_lt _ (Nat.two_pow_pos len))]
  by_cases below : j < lo
  · simp [below, Nat.testBit_mod_two_pow, show ¬ lo ≤ j by omega]
  · by_cases inside : j < lo + len
    · simp [below, inside, Nat.testBit_mod_two_pow, show lo ≤ j by omega, show j - lo < len by omega]
    · have e : j - lo - len + len + lo = j := by omega
      simp [below, inside, show ¬ j - lo < len by omega, Nat.testBit_div_two_pow, e]

/-- Settles O11: each body is one update of its group, whose bits and registers `testBit_putBits` and `getD_putAt` read. -/
theorem nopModeSetix : Obligations.NopModeSetix := by
  refine ⟨fun s g h => ?_, fun d i s g h => ?_, fun d a s g h => ?_⟩
  · exact State.issue_runs _ h
  · refine ⟨_, dwordOf (putBits g.arch.mode.toNat (modeGroup d.toNat).1 (modeGroup d.toNat).2 i.toNat),
      State.issue_runs _ h, onlyGroup_putGroup s _, fun j hj => ?_⟩
    simp only [dwordOf, BitVec.getLsbD_ofNat, hj, decide_true, Bool.true_and, testBit_putBits]
    rfl
  · have hd : d.toNat ≠ 0 := by
      intro hd
      have hword := h.word
      simp [Form.wordCheck, setixForm, form3, Form.control, hd] at hword
    refine ⟨_, putAt g.arch.ix (d.toNat - 1) 0 ((s.ctxOf (setixForm d a) g).read (s.ctxOf (setixForm d a) g).a 0),
      State.issue_runs _ h, onlyGroup_putGroup s _, fun k => ?_⟩
    rw [getD_putAt]
    by_cases hk : k + 1 = d.toNat
    · rw [if_pos hk, if_pos (by omega)]
    · rw [if_neg hk, if_neg (by omega)]

/-! ## Results without flags (04 R84, R86) -/

theorem foldl_noFlags (c : Ctx) (l : List Nat) (fl : BitVec 6) : l.foldl (fun acc i => acc ||| noFlags c i) fl = fl := by
  induction l with
  | nil => rfl
  | cons x l ih => simp [noFlags]

/-- An instruction whose body computes one word for each thread and sets no flag. -/
theorem computes_one {i : Instr} {f : Form} {uni : Ctx → Bool} {val val' : Ctx → Nat → List Word} {reads : Ctx → Reads}
    (hexec : ∀ s, exec i s = s.issue f (aluBody uni val noFlags) (reads := reads))
    (hlen : ∀ c i, (val c i).length = 1)
    (hval : ∀ s g, val (State.ctxOf s f g) = val' (s.ctxOf f g))
    (huni : ∀ s g, uni (State.ctxOf s f g) = true → ∀ a b, val (s.ctxOf f g) a = val (s.ctxOf f g) b)
    (hpred : ∀ s g k inv, (State.ctxOf s f g).d = .pred k inv →
      inv = false ∧ ∀ i, (val (s.ctxOf f g) i).getD 0 0 = 0 ∨ (val (s.ctxOf f g) i).getD 0 0 = 1) :
    Computes i f one val' noSticky reads := by
  intro s g h hclear
  obtain ⟨k, hbody, hresult⟩ :=
    aluBody_result uni val noFlags (s.ctxOf f g) s 1 (.inl rfl) (hlen _) (huni s g) (hpred s g) hclear
  rw [foldl_noFlags, hval] at hresult
  exact ⟨_, k, by rw [hexec, State.issue_runs _ h, hbody], onlyGroup_putGroup s k, hresult⟩

/-- A predicate is read as 0 or 1 (03 R51). -/
theorem Ctx.read_pred_bit (c : Ctx) (n i : Nat) (inv : Bool) : c.read (.pred n inv) i = 0 ∨ c.read (.pred n inv) i = 1 := by
  simp only [Ctx.read, Ctx.copy_pred]
  split <;> simp

/-- A register code is no predicate. -/
theorem resolveReg_ne_pred (al : Allotment) (mode : DWord) (ix : List Word) (slot code n k : Nat) (pair inv : Bool) :
    (resolveReg al mode ix slot code n pair).o ≠ .pred k inv := by
  unfold resolveReg
  split
  · simp only [specialOf]
    split <;> simp
  · simp only [operandOf]
    split <;> simp

theorem rank_computes (d a : BitVec 8) : Computes (.rank d a) (rankForm d a) one
    (fun c i => match c.d with
      | .t _ => [wordOf (c.crumbCount c.a * 65536 + (c.copyKind c.a i).2 * 2048 + (c.copyKind c.a i).1 * 256 +
          rankByte c.g.arch c.a)]
      | _ => [wordOf (c.crumbCount c.a * 256 + rankByte c.g.arch c.a)]) noSticky
    (fun c => { c.activeReads with a := [] }) := by
  refine computes_one (fun _ => rfl) (fun c i => ?_) (fun s g => ?_) (fun s g hu => ?_) (fun s g k inv hd => ?_)
  · cases c.d <;> rfl
  · funext i
    cases (s.ctxOf (rankForm d a) g).d <;> rfl
  · cases hu
  · exact absurd hd (resolveReg_ne_pred _ _ _ _ _ _ _ _ _)

theorem pset_computes (d : BitVec 3) (a : BitVec 8) : Computes (.pset d a) (psetForm d a) one
    (fun c i => [if c.read c.a i = 0 then 0 else 1]) noSticky := by
  refine computes_one (fun _ => rfl) (fun c i => rfl) (fun s g => rfl) (fun s g hu x y => ?_) (fun s g k inv hd => ?_)
  · simp only [Ctx.read_uniform hu x y]
  · cases hd
    exact ⟨rfl, fun i => by simp only [List.getD_cons_zero]; split <;> simp⟩

/-- A predicate instruction of two sources: its word operation agrees with a connective on the values that a predicate reads. -/
theorem pred_computes {i : Instr} {op : Nat} {d : BitVec 3} {a b : BitVec 4} {f : Word → Word → Word}
    {holds : Word → Word → Prop} [∀ x y, Decidable (holds x y)]
    (hexec : ∀ s, exec i s = s.issue (predForm op d a b)
      (aluBody (fun c => c.resolvesUniform c.a && c.resolvesUniform c.b) (fun c i => [f (c.read c.a i) (c.read c.b i)]) noFlags))
    (hf : ∀ x y : Word, (x = 0 ∨ x = 1) → (y = 0 ∨ y = 1) → f x y = if holds x y then 1 else 0) :
    Computes i (predForm op d a b) one (fun c i => [if holds (c.read c.a i) (c.read c.b i) then 1 else 0]) noSticky := by
  have hbit : ∀ s g i, f ((State.ctxOf s (predForm op d a b) g).read (s.ctxOf (predForm op d a b) g).a i)
      ((s.ctxOf (predForm op d a b) g).read (s.ctxOf (predForm op d a b) g).b i) = _ :=
    fun s g i => hf _ _ (Ctx.read_pred_bit _ _ i _) (Ctx.read_pred_bit _ _ i _)
  refine computes_one hexec (fun c i => rfl) (fun s g => ?_) (fun s g hu x y => ?_) (fun s g k inv hd => ?_)
  · funext i
    rw [hbit]
  · obtain ⟨ha, hb⟩ := Bool.and_eq_true_iff.1 hu
    simp only [Ctx.read_uniform ha x y, Ctx.read_uniform hb x y]
  · cases hd
    refine ⟨rfl, fun i => ?_⟩
    simp only [List.getD_cons_zero, hbit]
    split <;> simp

/-- Settles O12: RANK and the predicates are bodies of one word without flags. -/
theorem rankAndPredicates : Obligations.RankAndPredicates := by
  refine ⟨rank_computes, pset_computes, fun d a b => ?_, fun d a b => ?_⟩
  · refine pred_computes (f := (· &&& ·)) (holds := fun x y => x ≠ 0 ∧ y ≠ 0) (fun _ => rfl) ?_
    rintro x y (rfl | rfl) (rfl | rfl) <;> rfl
  · refine pred_computes (f := (· ||| ·)) (holds := fun x y => x ≠ 0 ∨ y ≠ 0) (fun _ => rfl) ?_
    rintro x y (rfl | rfl) (rfl | rfl) <;> rfl

/-! ## Branches and calls (04 R87 to R89) -/

theorem branchTarget_eq_target (g : Group) (i : BitVec 16) : branchTarget g.arch.pc i = target g i := by
  rw [branchTarget, target, BitVec.ofInt_mul]
  rfl

/-- A branch on a condition of slot d goes to its target where the condition holds, else on. -/
theorem branchIf_eq (taken : Word → Bool) (i : BitVec 16) (c : Ctx) (s : State) :
    branchIf taken i c s =
      s.putGroup (at' c.g (if taken (c.read c.d 0) = true then target c.g i else c.g.arch.pc + 4)) := by
  unfold branchIf
  rw [branchTarget_eq_target]
  split <;> rfl

/-- A destination that must be a g register has a g code (04 Table 4.2). -/
theorem Slot.code_of_dst_g {w : Wd} {code : Nat} {wide : Bool} (h : (Slot.mk (.dst w .g) code).rankBad wide = false) :
    0x80 ≤ code ∧ code < 0xC0 := by
  simpa [Slot.rankBad] using h

/-- The pair of CALL is a pair of g registers (04 R88). -/
theorem call_dest {s : State} {g : Group} {c : BitVec 8} {i : BitVec 16} (h : Runs s g (callForm c i)) :
    ∃ n, (s.ctxOf (callForm c i) g).d = .g n := by
  have hrank : (callForm c i).d.rankBad (callForm c i).d.wide = false := by
    have hranks := h.ranks
    simp only [Form.ranksIllegal, Bool.or_eq_false_iff] at hranks
    exact hranks.1.1.2
  have hblock : blockOf c.toNat = some 1 := by
    have hcode := Slot.code_of_dst_g hrank
    simp only [blockOf]
    rw [if_neg (by omega), if_pos (by omega)]
  have e : (s.ctxOf (callForm c i) g).d = (resolveReg (g.allotment (s.teamOf g)) (s.issueOf (callForm c i) g).mode
    (s.issueOf (callForm c i) g).ix 0 c.toNat 2 true).o := rfl
  rw [e, resolveReg, hblock]
  exact ⟨_, rfl⟩

/-- The pair that holds a 64-bit value. -/
theorem pairWords_toNat (x : DWord) : pairWords x.toNat = [x.setWidth 32, (x >>> 32).setWidth 32] := by
  have low : wordOf x.toNat = x.setWidth 32 := BitVec.ofNat_toNat _ _
  have high : wordOf (x.toNat / 2 ^ 32) = (x >>> 32).setWidth 32 := by
    rw [← Nat.shiftRight_eq_div_pow, ← BitVec.toNat_ushiftRight]
    exact BitVec.ofNat_toNat _ _
  rw [pairWords, low, high]

/-- Settles O13: each word has one body; RET's tests its target, and CALL's destination is a pair of g registers. -/
theorem branchesAndCalls : Obligations.BranchesAndCalls := by
  refine ⟨fun i s g h => ?_, fun c i s g h => ?_, fun c i s g h => ?_, fun c i s g h => ?_,
    fun a s g h => ⟨fun hpc => ?_, fun hpc => ?_⟩⟩
  · rw [← branchTarget_eq_target]
    exact State.issue_runs _ h
  · refine (State.issue_runs (branchIf (· == 0) i) h).trans ?_
    simp only [branchIf_eq, beq_iff_eq]
    rfl
  · refine (State.issue_runs (branchIf (· != 0) i) h).trans ?_
    simp only [branchIf_eq, bne_iff_ne, ite_not]
    rfl
  · obtain ⟨n, hd⟩ := call_dest h
    refine ⟨n, hd, (State.issue_runs _ h).trans ?_⟩
    dsimp only
    rw [hd, pairWords_toNat, ← branchTarget_eq_target]
    rfl
  · refine (State.issue_runs _ h).trans ?_
    exact congrArg _ (if_pos hpc)
  · refine (State.issue_runs _ h).trans ?_
    exact congrArg _ (if_neg hpc)

end Sys2Proof.Machine

/-! # Control: divergence

BRD and RECONV (04 R90 to R93): what each does to a program's mask, pc and stack, said of `divergeArch` and
`reconvergeArch`; an entry beyond RDEPTH moves through memory, which leaves every group in its place. -/

namespace Sys2Proof.Machine

open Sys2Proof.Claims

/-! ## What memory does leaves the groups in their places -/

/-- The identifiers of a state's groups, in their order. -/
def State.groupIds (s : State) : List Nat := s.groups.map (·.id)

theorem State.mem_groupIds {s : State} {id : Nat} {g : Group} (h : s.group? id = some g) : g.id ∈ s.groupIds :=
  List.mem_map_of_mem (List.mem_of_find?_eq_some h)

theorem State.id_of_group? {s : State} {id : Nat} {g : Group} (h : s.group? id = some g) : g.id = id := by
  simpa using List.find?_some h

theorem State.group?_isSome {s : State} {id : Nat} (h : id ∈ s.groupIds) : ∃ g, s.group? id = some g := by
  obtain ⟨g, hg, e⟩ := List.mem_map.1 h
  exact Option.isSome_iff_exists.1 (List.find?_isSome.2 ⟨g, hg, by simpa using e⟩)

/-- A group that stands in a state is found there once it is put. -/
theorem State.group?_put {s : State} {h : Group} (hid : h.id ∈ s.groupIds) : (s.putGroup h).group? h.id = some h := by
  obtain ⟨g, hg⟩ := State.group?_isSome hid
  exact State.group?_putGroup hg

theorem updateWhere_map {α β : Type} {p : α → Bool} {f : α → α} {key : α → β} (hf : ∀ x, key (f x) = key x)
    (l : List α) :
    (updateWhere p f l).map key = l.map key := by
  rw [updateWhere, List.map_map]
  refine List.map_congr_left fun x _ => ?_
  simp only [Function.comp_apply]
  split
  · exact hf x
  · rfl

variable {s : State}

theorem State.groupIds_markLeaf {l write} : (s.markLeaf l write).groupIds = s.groupIds := by
  fun_cases State.markLeaf <;> rfl

theorem State.groupIds_fetchSidecar {pte} : (s.fetchSidecar pte).groupIds = s.groupIds := by
  fun_cases State.fetchSidecar <;> rfl

theorem State.groupIds_shootCores {ctx va} : (s.shootCores ctx va).groupIds = s.groupIds :=
  updateWhere_map (f := fun g : Group => { g with arch := g.arch.shot va, himage := g.himage.map (Arch.shot va) })
    (fun _ => rfl) s.groups

theorem State.groupIds_zeroFill {ctx va l} : (s.zeroFill ctx va l).groupIds = s.groupIds := by
  fun_cases State.zeroFill
  next zeroed _ => exact State.groupIds_shootCores (s := zeroed)
  · rfl

theorem State.groupIds_putCore {c} : (s.putCore c).groupIds = s.groupIds := by
  simp only [State.groupIds, State.putCore_groups]

theorem State.groupIds_putDie {d} : (s.putDie d).groupIds = s.groupIds := by
  simp only [State.groupIds, State.putDie_groups]

/-- The end of a translation: the use of the page is noted, and its sidecar line is there. -/
theorem State.groupIds_used_fetchSidecar {ctx va level frame pte} :
    ((s.used ctx va level frame).fetchSidecar pte).groupIds = s.groupIds :=
  State.groupIds_fetchSidecar

theorem State.groupIds_translate {ctx core priv va need} : (s.translate ctx core priv va need).1.groupIds = s.groupIds := by
  change (s.translateOn [] ctx core priv va need).1.groupIds = s.groupIds
  unfold State.translateOn
  split
  · rfl
  split
  · rfl
  extract_lets now c d stale
  clear_value stale now
  split
  next s' known' use e =>
  have hs : s'.groupIds = s.groupIds := by
    split at e
    · cases e; rfl
    · split at e <;> cases e <;> rfl
  extract_lets use'
  clear_value use'
  split
  · extract_lets l
    split
    · exact hs
    · exact State.groupIds_used_fetchSidecar.trans hs
  · split
    · exact hs
    · split
      · exact State.groupIds_markLeaf.trans hs
      · extract_lets marked filled
        have hf : filled.groupIds = s.groupIds := by
          unfold filled
          split
          · exact State.groupIds_zeroFill.trans (State.groupIds_markLeaf.trans hs)
          · exact State.groupIds_markLeaf.trans hs
        exact State.groupIds_used_fetchSidecar.trans (State.groupIds_putDie.trans (State.groupIds_putCore.trans hf))

theorem State.groupIds_span {ctx core priv need va len} : (s.span ctx core priv need va len).1.groupIds = s.groupIds := by
  unfold State.span
  generalize len / 0x10000 + 2 = fuel
  generalize 0 = off
  generalize ([] : List Seg) = acc
  induction fuel generalizing s off acc with
  | zero => rfl
  | succ fuel ih =>
    have step := State.groupIds_translate (s := s) (ctx := ctx) (core := core) (priv := priv) (va := va + off) (need := need)
    unfold State.spanFrom
    split
    · rfl
    dsimp only
    split
    next e => rw [e] at step; exact step
    next e => rw [e] at step; exact (ih _ _).trans step

theorem State.groupIds_putSpan {segs off bs} : (s.putSpan segs off bs).groupIds = s.groupIds := by
  unfold State.putSpan
  induction segs generalizing s with
  | nil => rfl
  | cons x segs ih =>
    rw [List.foldl_cons, ih]
    dsimp only
    split <;> rfl

theorem State.groupIds_spillEntry {g before} : (s.spillEntry g before).groupIds = s.groupIds := by
  fun_cases State.spillEntry
  · rfl
  · rfl
  next e => exact (congrArg (State.groupIds ·.1) e).symm.trans State.groupIds_span
  next e => exact State.groupIds_putSpan.trans ((congrArg (State.groupIds ·.1) e).symm.trans State.groupIds_span)

theorem State.groupIds_reloadEntry {g after} : (s.reloadEntry g after).1.groupIds = s.groupIds := by
  fun_cases State.reloadEntry
  · rfl
  next e => exact (congrArg (State.groupIds ·.1) e).symm.trans State.groupIds_span
  next e => exact (congrArg (State.groupIds ·.1) e).symm.trans State.groupIds_span

/-! ## Entries beyond RDEPTH (04 R93) -/

/-- A handler spills no entry, and neither does a stack that still has room in its core. -/
theorem State.spillEntry_within {g : Group} {before : List Recon}
    (h : g.super = true ∨ before.length < (s.teamOf g).launch.rdepth) : s.spillEntry g before = s := by
  unfold State.spillEntry
  dsimp only
  split
  · rfl
  · rename_i hsuper
    have hlen := h.resolve_left hsuper
    rw [List.getElem?_eq_none (by omega)]

theorem State.reloadEntry_within {g : Group} {after : List Recon}
    (h : g.super = true ∨ after.length < (s.teamOf g).launch.rdepth) : s.reloadEntry g after = (s, after) := by
  unfold State.reloadEntry
  exact if_pos (by simpa using h)

theorem State.reloadEntry_length {g : Group} {after : List Recon} : (s.reloadEntry g after).2.length = after.length := by
  fun_cases State.reloadEntry
  · rfl
  · rfl
  · exact List.length_set

/-! ## The branch (04 R91) -/

/-- The entry that a divergent branch pushes: the threads that run later, and where. -/
def Arch.deferred (a : Arch) (taken target : DWord) (backward : Bool) : Recon :=
  ⟨a.pc, false, if backward then a.pc + 4 else target, if backward then a.mask &&& ~~~ taken else taken, a.mask⟩

/-- The program after a divergent branch: the threads that run first, and where. -/
def Arch.diverged (a : Arch) (taken target : DWord) (backward : Bool) : Arch :=
  { a with
    stack := a.deferred taken target backward :: a.stack
    mask := if backward then taken else a.mask &&& ~~~ taken
    pc := if backward then target else a.pc + 4 }

/-- A branch that both sides take pushes an entry where its address is not the origin of an open one. -/
theorem divergeArch_both {a : Arch} {limit : Nat} {holds : Nat → Bool} {target : DWord} {backward : Bool}
    (hroom : a.stack.length < limit) (hopen : ∀ top, a.stack.head? = some top → ¬ (top.origin = a.pc ∧ top.phase = false))
    (htaken : a.mask &&& maskOf 64 holds ≠ 0) (hstays : a.mask &&& ~~~ (a.mask &&& maskOf 64 holds) ≠ 0) :
    divergeArch a limit holds target backward = some (a.diverged (a.mask &&& maskOf 64 holds) target backward) := by
  have hrun : (if backward then (a.mask &&& maskOf 64 holds, target)
      else (a.mask &&& ~~~ (a.mask &&& maskOf 64 holds), a.pc + 4)).1 ≠ 0 := by
    cases backward
    · exact hstays
    · exact htaken
  unfold divergeArch
  cases hstack : a.stack with
  | nil =>
    dsimp only
    rw [if_pos hrun]
    cases backward <;> simp only [Arch.diverged, Arch.deferred, hstack] <;> rfl
  | cons top rest =>
    have hnew := hopen top (by rw [hstack]; rfl)
    have hfits : ¬ limit ≤ (top :: rest).length := by rw [hstack] at hroom; omega
    dsimp only
    rw [if_neg hnew, if_neg hfits]
    dsimp only
    rw [if_pos hrun]
    cases backward <;> simp only [Arch.diverged, Arch.deferred, hstack] <;> rfl

/-- The word of a BRD that pushes an entry: the bottom entry may leave for the save area. -/
theorem brd_pushes {g : Group} {c : BitVec 4} {i : BitVec 16} {a : Arch} (h : Runs s g (brdForm c i))
    (hdiv : divergeArch g.arch g.stackLimit (fun t => (s.ctxOf (brdForm c i) g).read (s.ctxOf (brdForm c i) g).d t != 0)
      (branchTarget g.arch.pc i) (i.slt 0) = some a) (hlen : g.arch.stack.length < a.stack.length) :
    exec (.brd c i) s = .next ((s.spillEntry g g.arch.stack).putGroup ({ g with arch := a }.goto a.pc)) := by
  refine (State.issue_runs _ h).trans (congrArg Host.Outcome.next ?_)
  have hg : (s.ctxOf (brdForm c i) g).g = g := rfl
  simp only [hg, hdiv, if_pos hlen]

/-! ## Reconvergence (04 R92) -/

/-- The first RECONV runs the threads of the entry, which stays. -/
theorem reconv_runs_deferred {g : Group} {e : Recon} {rest : List Recon} (h : Runs s g reconvForm)
    (hstack : g.arch.stack = e :: rest) (hphase : e.phase = false) (hmask : e.dmask ≠ 0) :
    exec .reconv s = .next (s.putGroup
      ({ g with arch := { g.arch with stack := { e with phase := true } :: rest, mask := e.dmask } }.goto e.dpc)) := by
  refine (State.issue_runs _ h).trans (congrArg Host.Outcome.next ?_)
  have hg : (s.ctxOf reconvForm g).g = g := rfl
  have hsame : ¬ ({ e with phase := true } :: rest).length < (e :: rest).length := by simp
  simp only [hg, reconvergeArch, hstack, if_pos (And.intro hphase hmask), if_neg hsame]
  rfl

/-- The second RECONV pops the entry; an entry of the save area may come back. -/
theorem reconv_pops {g : Group} {e : Recon} {rest : List Recon} (h : Runs s g reconvForm)
    (hstack : g.arch.stack = e :: rest) (hphase : e.phase = true) :
    exec .reconv s = .next ((s.reloadEntry g rest).1.putGroup
      ({ g with arch := { g.arch with stack := (s.reloadEntry g rest).2, mask := e.full } }.goto (g.arch.pc + 4))) := by
  refine (State.issue_runs _ h).trans (congrArg Host.Outcome.next ?_)
  have hg : (s.ctxOf reconvForm g).g = g := rfl
  have hdone : ¬ (e.phase = false ∧ e.dmask ≠ 0) := by simp [hphase]
  have hless : rest.length < (e :: rest).length := by simp
  simp only [hg, reconvergeArch, hstack, if_neg hdone, if_pos hless]
  rfl

/-- Settles O14: a divergent branch pushes one entry, which the first RECONV turns to its deferred side and the second
pops. -/
theorem divergenceReconverges : Obligations.DivergenceReconverges := by
  intro c i s g h x taken stays within hroom hopen htaken hstays
  have hdiv := divergeArch_both (target := branchTarget g.arch.pc i) (backward := i.slt 0) hroom hopen htaken hstays
  have hbrd := brd_pushes h hdiv (Nat.lt_succ_self _)
  have hid : g.id ∈ (s.spillEntry g g.arch.stack).groupIds := by
    rw [State.groupIds_spillEntry]
    exact State.mem_groupIds h.current
  refine ⟨_, _, hbrd, State.group?_put hid, fun hw => ?_, rfl, ?_, rfl, fun s' k hk hrec => ?_⟩
  · rw [State.spillEntry_within hw]
  · rw [← branchTarget_eq_target]
    rfl
  have hdeferred : (g.arch.deferred taken (branchTarget g.arch.pc i) (i.slt 0)).dmask ≠ 0 := by
    unfold Arch.deferred
    dsimp only
    split
    · exact hstays
    · exact htaken
  refine ⟨_, reconv_runs_deferred hrec hk rfl hdeferred, rfl, ?_, fun s'' l hl hrec' => ?_⟩
  · rw [← branchTarget_eq_target]
    rfl
  have hid' : l.id ∈ (s''.reloadEntry l g.arch.stack).1.groupIds := by
    rw [State.groupIds_reloadEntry]
    exact State.mem_groupIds hrec'.current
  refine ⟨_, _, reconv_pops hrec' hl rfl, State.group?_put hid', rfl, rfl, State.reloadEntry_length, fun hw => ?_⟩
  rw [State.reloadEntry_within hw]
  exact ⟨rfl, rfl⟩

end Sys2Proof.Machine

/-! # Ranks: writes and thread merges

A write of one value by some threads of a group (04 R69 to R72), and MERGE of a thread-rank name (04 R75 to R78): what its
policy makes of the holders' values, and the group that it leaves. -/

namespace Sys2Proof.Machine

open Sys2Proof.Claims

/-! ## A write to a crumb (04 R70) -/

theorem inMask_of_crumbAt {cs : List Crumb} {i : Nat} {c : Crumb} (h : crumbAt cs i = some c) : inMask c.mask i = true :=
  (List.mem_filter.1 (leastBy_mem h)).2

/-- An update that keeps masks keeps which crumb a thread reads. -/
theorem crumbAt_updateWhere {p : Crumb → Bool} {f : Crumb → Crumb} (hf : ∀ c, (f c).mask = c.mask) (cs : List Crumb)
    (i : Nat) :
    crumbAt (updateWhere p f cs) i = (crumbAt cs i).map fun c => if p c then f c else c := by
  have hmask : ∀ c, (if p c then f c else c).mask = c.mask := fun c => by split <;> simp [hf]
  unfold crumbAt updateWhere
  rw [List.filter_map]
  simp only [Function.comp_def, hmask]
  exact leastBy_map _ (fun c => by rw [hmask]) _

/-- Where a crumb has the write's mask, it takes the value; threads of deeper crumbs read what they read before. -/
theorem Ranked.split_at_ownCrumb (width : Nat) (room : Room) (W : DWord) (v gv : Word) (gf : Bool) (cs : List Crumb) (i : Nat)
    (hown : cs.any (fun c => c.mask == W) = true) :
    ((Ranked.widened gv gf cs).split width room W v).at i =
      if (crumbAt cs i).any (fun c => c.mask == W) = true then (v, true) else (Ranked.widened gv gf cs).at i := by
  have hsplit : (Ranked.widened gv gf cs).split width room W v =
      .widened gv gf (updateWhere (fun c => c.mask == W) (fun c => { c with val := v, full := true }) cs) := if_pos hown
  have hcrumb := crumbAt_updateWhere (p := fun c => c.mask == W) (f := fun c : Crumb => { c with val := v, full := true })
    (fun _ => rfl) cs i
  simp only [hsplit, Ranked.at, hcrumb]
  cases crumbAt cs i with
  | none => simp
  | some c => by_cases hc : c.mask = W <;> simp [hc]

/-- What a split leaves each thread to read, whatever crumbs the name has. -/
theorem Ranked.split_at_any (width : Nat) (room : Room) (W : DWord) (v : Word) (r : Ranked) (i : Nat) (hi : i < width) :
    (inMask W i = false → (r.split width room W v).at i = r.at i) ∧
    (inMask W i = true → (r.split width room W v).at i =
      if (r.crumbs.any fun c => c.mask == W) = true then
        (if (crumbAt r.crumbs i).any (fun c => c.mask == W) = true then (v, true) else r.at i)
      else (v, true)) := by
  cases hown : r.crumbs.any fun c => c.mask == W with
  | false =>
    rw [Ranked.split_at width room W v r i hi (fun h => absurd h (by simp [hown]))]
    exact ⟨fun h => by simp [h], fun h => by simp [h]⟩
  | true =>
    cases r with
    | perThread vals => cases hown
    | widened gv gf cs =>
      rw [Ranked.split_at_ownCrumb width room W v gv gf cs i hown]
      refine ⟨fun hout => if_neg fun h => ?_, fun _ => (if_pos rfl).symm⟩
      obtain ⟨c, hc, hW⟩ := Option.any_eq_true _ _ |>.1 h
      have hin := inMask_of_crumbAt hc
      rw [eq_of_beq hW, hout] at hin
      cases hin

/-- Settles O54: a write by the whole group widens the name, one by fewer threads is a split, and per-thread values are
stored. -/
theorem crumbWrites : Obligations.CrumbWrites := by
  intro width room W val r _ hW _
  have h0 : ¬ (W == 0) = true := by simpa using hW
  refine ⟨fun hfull => ?_, fun hpart i hi => ?_, fun i hi => ?_⟩
  · exact (if_neg h0).trans ((if_pos rfl).trans (if_pos (by simpa using hfull)))
  · have hsplit : r.write width room true W val = r.split width room W (val ((threadsOf W).headD 0)) := by
      rw [Ranked.write, if_neg h0, if_pos rfl, if_neg (by simpa using hpart)]
    rw [hsplit]
    exact Ranked.split_at_any width room W _ r i hi
  · have hstore : r.write width room false W val = r.store width W val := by
      rw [Ranked.write, if_neg h0]
      rfl
    rw [hstore]
    exact Ranked.store_at width r W val i hi

/-! ## Consecutive g registers -/

/-- The g registers after consecutive words are written, each full. -/
def putWords (regs : List GCopy) (n : Nat) (ws : List (Word × Nat)) : List GCopy :=
  ws.foldl (fun r x => putAt r (n + x.2) ⟨0, true⟩ ⟨x.1, true⟩) regs

theorem Group.setGs_eq (g : Group) (n : Nat) (ws : List Word) :
    g.setGs n ws = { g with arch := { g.arch with g := putWords g.arch.g n ws.zipIdx } } := by
  have hfold : ∀ (l : List (Word × Nat)) (a : Arch),
      l.foldl (fun a x => a.setG (n + x.2) x.1) a = { a with g := putWords a.g n l } := by
    intro l
    induction l with
    | nil => exact fun a => rfl
    | cons x l ih => exact fun a => ih _
  rw [Group.setGs, hfold]

theorem getD_putWords (regs : List GCopy) (n : Nat) (ws : List Word) (k j : Nat) :
    (putWords regs n (ws.zipIdx k)).getD j ⟨0, true⟩ =
      if n + k ≤ j ∧ j < n + k + ws.length then ⟨ws.getD (j - (n + k)) 0, true⟩ else regs.getD j ⟨0, true⟩ := by
  induction ws generalizing regs k with
  | nil => rw [if_neg (by simp)]; rfl
  | cons w ws ih =>
    have hcons : putWords regs n ((w :: ws).zipIdx k) =
        putWords (putAt regs (n + k) ⟨0, true⟩ ⟨w, true⟩) n (ws.zipIdx (k + 1)) := rfl
    rw [hcons, ih, getD_putAt]
    by_cases here : j = n + k
    · simp [here]
    · by_cases later : n + k < j ∧ j < n + k + (w :: ws).length
      · have e : j - (n + k) = j - (n + (k + 1)) + 1 := by omega
        rw [if_pos (by simp at later; omega), if_pos (by omega), e, List.getD_cons_succ]
      · simp only [List.length_cons] at later ⊢
        rw [if_neg (by omega), if_neg here, if_neg (by omega)]

/-- What g register j holds after consecutive words are written. -/
theorem Group.getD_setGs (g : Group) (n : Nat) (ws : List Word) (j : Nat) :
    (g.setGs n ws).arch.g.getD j ⟨0, true⟩ =
      if n ≤ j ∧ j < n + ws.length then ⟨ws.getD (j - n) 0, true⟩ else g.arch.g.getD j ⟨0, true⟩ := by
  rw [Group.setGs_eq]
  exact getD_putWords g.arch.g n ws 0 j

theorem Group.advance_setGs (g : Group) (n : Nat) (ws : List Word) : (g.setGs n ws).advance = g.advance.setGs n ws := by
  rw [Group.setGs_eq, Group.setGs_eq]
  rfl

/-! ## The policy of a merge (04 R76) -/

/-- A property of the holders' values that a combining step keeps holds of the value that a merge gives. -/
theorem mergeOf_value {P : List Word → Prop} {pol : Nat} {f pred : Bool} {mode : DWord} {vals : List (Nat × List Word)}
    {v : List Word} (hne : vals ≠ []) (hvals : ∀ x ∈ vals, P x.2)
    (hstep : pol ≠ 0 → pol ≠ 1 → pol ≠ 5 → ∀ x y, P x → P y → P (mergeStep pol f pred mode x y).1)
    (h : (mergeOf pol f pred mode vals).value = some v) : P v := by
  obtain ⟨x, rest, rfl⟩ := List.exists_cons_of_ne_nil hne
  have hx : P x.2 := hvals x List.mem_cons_self
  unfold mergeOf at h
  dsimp only at h
  split at h
  · split at h
    · cases h; exact hx
    · cases h
  · cases h; exact hx
  · cases h
  next h0 h1 h5 =>
    cases h
    exact List.foldlRecOn rest _ (motive := fun acc : List Word × BitVec 6 => P acc.1) hx fun acc hacc y hy =>
      hstep h0 h1 h5 _ _ hacc (hvals y (List.mem_cons_of_mem _ hy))

/-- A merge that drops crumbs writes no value and sets no flag. -/
theorem mergeOf_drop {pol : Nat} {f pred : Bool} {mode : DWord} {vals : List (Nat × List Word)}
    (h : (mergeOf pol f pred mode vals).drop = true) :
    (mergeOf pol f pred mode vals).value = none ∧ (mergeOf pol f pred mode vals).flags = 0 := by
  by_cases hpol : pol = 5
  · subst hpol
    exact ⟨rfl, rfl⟩
  · have hkeeps : (mergeOf pol f pred mode vals).drop = false := by
      unfold mergeOf
      dsimp only
      split
      · split <;> rfl
      · rfl
      · exact absurd rfl hpol
      · rfl
    rw [hkeeps] at h
    cases h

theorem statusBlock_length (status : Nat) (dm : List Nat) : (statusBlock status dm).length = 4 := by
  unfold statusBlock
  split <;> rfl

theorem IType.words_length (t : IType) (n : Nat) : (t.words n).length = if t.w = 64 then 2 else 1 := by
  unfold IType.words
  split <;> rfl

/-- A combining step of predicates or of floating values gives one word, one of integers as many as their type has. -/
theorem mergeStep_length (pol : Nat) (f pred : Bool) (mode : DWord) (x y : List Word) :
    (mergeStep pol f pred mode x y).1.length =
      if !pred && !f && itypeWidth (modeItype mode) == 64 then 2 else 1 := by
  unfold mergeStep
  cases pred
  · cases f
    · simp [IType.words_length, itypeOf]
    · rfl
  · rfl

/-- AND and OR of words that are 0 or 1. -/
theorem mergeStep_bit (pol : Nat) (f : Bool) (mode : DWord) {x y : List Word} (hx : x.getD 0 0 = 0 ∨ x.getD 0 0 = 1)
    (hy : y.getD 0 0 = 0 ∨ y.getD 0 0 = 1) :
    (mergeStep pol f true mode x y).1.getD 0 0 = 0 ∨ (mergeStep pol f true mode x y).1.getD 0 0 = 1 := by
  have hstep : (mergeStep pol f true mode x y).1.getD 0 0 =
      if pol = 3 then x.headD 0 &&& y.headD 0 else x.headD 0 ||| y.headD 0 := rfl
  rw [← List.headD_eq_getD] at hx hy
  rw [hstep]
  rcases hx with hx | hx <;> rcases hy with hy | hy <;> rw [hx, hy] <;> split <;> simp

/-! ## A thread merge (04 R77, R78) -/

/-- The group after a thread merge, but for its status block. -/
def Ctx.merged (c : Ctx) (n : Nat) (r : MergeResult) : Group :=
  ((match r.value with
    | some v => if c.active = 0 then c.g else c.write c.d true (fun _ => v) c.g
    | none => if r.drop then c.g.onArch (·.dropName c.d n c.active) else c.g).onArch
    fun a => { a with sticky := a.sticky ||| r.flags }).advance

theorem threadMerge_eq (x : MergeImm) (n : Nat) (c : Ctx) (s : State) :
    threadMerge x n c s =
      let r := mergeOf x.pol x.f x.pred c.mode ((threadsOf c.active).map fun i => (i, c.nameWords c.d n i))
      s.putGroup ((c.merged n r).setGs (4 * x.stat) (statusBlock r.status r.dm)) := by
  dsimp only
  unfold Ctx.merged
  rw [← Group.advance_setGs]
  rfl

/-- A name that nothing is written to reads as before. -/
theorem Ctx.result_none (c : Ctx) (val : Nat → List Word) (fl : BitVec 6) :
    Result c 0 val fl (c.g.onArch fun a => { a with sticky := a.sticky ||| fl }).advance where
  dest := fun _ hk => absurd hk (Nat.not_lt_zero _)
  others := fun o _ i => by cases o <;> rfl
  pc := rfl
  sticky := rfl
  rest := rfl

/-- A name of one register or two that the threads of Active write. -/
theorem Ctx.result_write (c : Ctx) (n : Nat) (uni : Bool) (val : Nat → List Word) (fl : BitVec 6) (hn : n = 1 ∨ n = 2)
    (hlen : ∀ i, (val i).length = n) (hu : uni = true → ∀ a b, val a = val b)
    (hp : ∀ k inv, c.d = .pred k inv → inv = false ∧ ∀ i, (val i).getD 0 0 = 0 ∨ (val i).getD 0 0 = 1)
    (hc : ∀ k, k < n → c.crumbsClear (c.d.nth k)) :
    Result c n val fl ((c.write c.d uni val c.g).onArch fun a => { a with sticky := a.sticky ||| fl }).advance where
  dest := fun k hk hd i hi h64 => c.write_dest n uni val hn hlen hu hp hc k hk hd i hi h64
  others := fun o ho i => c.write_other n uni val hn hlen o ho i
  pc := by rw [Ctx.write_rest]; rfl
  sticky := by rw [Ctx.write_rest]; rfl
  rest := by
    have hw := c.write_rest c.d uni val c.g
    generalize c.write c.d uni val c.g = w at hw ⊢
    rw [hw]
    rfl

/-- Dropping the crumbs of a name leaves the pc. -/
theorem Arch.dropName_pc (a : Arch) (o : Operand) (n : Nat) (H : DWord) : (a.dropName o n H).pc = a.pc := by
  refine List.foldlRecOn (List.range n) _ (motive := fun b : Arch => b.pc = a.pc) rfl fun b hb k _ => ?_
  split <;> exact hb

theorem Ctx.merged_drop_arch (c : Ctx) (n : Nat) (r : MergeResult) (hdrop : r.drop = true) (hvalue : r.value = none)
    (hflags : r.flags = 0) :
    (c.merged n r).arch = { c.g.arch.dropName c.d n c.active with pc := c.g.arch.pc + 4, pidx := 0, snap := [] } := by
  have hsticky : ∀ x : BitVec 6, x ||| 0 = x := fun _ => BitVec.or_zero
  unfold Ctx.merged
  rw [hvalue, hflags]
  simp only [hdrop, if_true, hsticky]
  rw [← c.g.arch.dropName_pc c.d n c.active]
  rfl

theorem Ctx.merged_result (c : Ctx) (n : Nat) (r : MergeResult) (hdrop : r.drop = false) (hn : n = 1 ∨ n = 2)
    (hlen : ∀ v, r.value = some v → c.active ≠ 0 → v.length = n)
    (hp : ∀ v, r.value = some v → c.active ≠ 0 →
      ∀ k inv, c.d = .pred k inv → inv = false ∧ (v.getD 0 0 = 0 ∨ v.getD 0 0 = 1))
    (hc : ∀ k, k < (if r.value.isSome && c.active != 0 then n else 0) → c.crumbsClear (c.d.nth k)) :
    Result c (if r.value.isSome && c.active != 0 then n else 0) (fun _ => r.value.getD []) r.flags (c.merged n r) := by
  unfold Ctx.merged
  cases hvalue : r.value with
  | none =>
    simp only [hdrop]
    exact c.result_none _ _
  | some v =>
    by_cases hactive : c.active = 0
    · simp only [hactive]
      exact c.result_none _ _
    · have hwrites : (r.value.isSome && c.active != 0) = true := by
        rw [hvalue]
        exact bne_iff_ne.2 hactive
      rw [if_pos hwrites] at hc
      rw [← hvalue, if_pos hwrites, hvalue]
      simp only [hactive, if_false]
      exact c.result_write n true _ _ hn (fun _ => hlen v hvalue hactive) (fun _ _ _ => rfl)
        (fun k inv hd => (hp v hvalue hactive k inv hd).imp_right fun h _ => h) hc

/-! ## The word of a thread merge (04 R75) -/

theorem Form.bad2_of_wordCheck {f : Form} (h : f.wordCheck = none) : f.bad2 = false := by
  unfold Form.wordCheck at h
  split at h
  · cases h
  · exact Bool.eq_false_of_not_eq_true ‹_›

/-- A MERGE that combines values is of one register, or typed; its word would else be no instruction. -/
theorem merge_combines {d : BitVec 8} {i : BitVec 15} (hword : (mergeForm d i).wordCheck = none)
    (h0 : (mergeImm i).pol ≠ 0) (h1 : (mergeImm i).pol ≠ 1) (h5 : (mergeImm i).pol ≠ 5) :
    (mergeImm i).combines = true ∧ (mergeImm i).w = false := by
  have hbad := Form.bad2_of_wordCheck hword
  simp only [mergeForm, Bool.or_eq_false_iff, decide_eq_false_iff_not, Bool.and_eq_false_imp] at hbad
  obtain ⟨⟨⟨⟨hpol, -⟩, hwide⟩, -⟩, -⟩ := hbad
  have hcombines : (mergeImm i).combines = true := by
    simp only [MergeImm.combines, Bool.or_eq_true, beq_iff_eq]
    omega
  refine ⟨hcombines, Bool.eq_false_of_not_eq_true fun hw => ?_⟩
  rw [hwide hw] at hcombines
  cases hcombines

/-- The registers of the merged name, by the fields of the word. -/
theorem mergeRegs_eq (d : BitVec 8) (i : BitVec 15) (c : Ctx) :
    mergeRegs d i c =
      if (mergeImm i).pred then 1
      else if (mergeImm i).w then 2
      else if (mergeImm i).combines && !(mergeImm i).f && itypeWidth (modeItype c.mode) == 64 then 2 else 1 := by
  unfold mergeRegs mergeForm
  dsimp only
  cases (mergeImm i).pred
  · cases (mergeImm i).w
    · cases (mergeImm i).combines
      · rfl
      · cases (mergeImm i).f
        · simp [Kind.wd, Wd.count]
        · rfl
    · rfl
  · rfl

theorem mergeRegs_one_or_two (d : BitVec 8) (i : BitVec 15) (c : Ctx) : mergeRegs d i c = 1 ∨ mergeRegs d i c = 2 := by
  rw [mergeRegs_eq]
  split
  · exact .inl rfl
  · split
    · exact .inr rfl
    · split
      · exact .inr rfl
      · exact .inl rfl

/-- Slot d of a MERGE is a predicate where P is set, which is never inverted. -/
theorem merge_dest_pred {s : State} {g : Group} {d : BitVec 8} {i : BitVec 15} {k : Nat} {inv : Bool}
    (h : (s.ctxOf (mergeForm d i) g).d = .pred k inv) : (mergeImm i).pred = true ∧ inv = false := by
  have hresolve : (s.ctxOf (mergeForm d i) g).d =
    ((mergeForm d i).d.resolve (g.allotment (s.teamOf g)) (s.issueOf (mergeForm d i) g).mode
      (s.issueOf (mergeForm d i) g).ix 0).o := rfl
  generalize (s.issueOf (mergeForm d i) g).mode = mode at hresolve
  generalize (s.issueOf (mergeForm d i) g).ix = ix at hresolve
  rw [h] at hresolve
  unfold mergeForm Slot.resolve at hresolve
  dsimp only at hresolve
  cases hp : (mergeImm i).pred
  · rw [hp] at hresolve
    exact absurd hresolve.symm (resolveReg_ne_pred _ _ _ _ _ _ _ _ _)
  · rw [hp] at hresolve
    cases hresolve
    exact ⟨rfl, rfl⟩

theorem Ctx.nameWords_length (c : Ctx) (o : Operand) (n k : Nat) (hn : n = 1 ∨ n = 2)
    (hpred : ∀ j inv, o = .pred j inv → n = 1) :
    (c.nameWords o n k).length = n := by
  unfold Ctx.nameWords
  split
  · exact (hpred _ _ rfl).symm
  · rcases hn with rfl | rfl <;> rfl

theorem threadsOf_ne_nil {m : DWord} (h : m ≠ 0) : threadsOf m ≠ [] := by
  intro hnil
  refine h (mask_ext fun i => ?_)
  have hout : inMask m i = false :=
    Bool.eq_false_of_not_eq_true fun hi => List.not_mem_nil (hnil ▸ mem_threadsOf.2 hi)
  rw [hout]
  simp [inMask]

section

variable {s : State} {g : Group} {d : BitVec 8} {i : BitVec 15} {v : List Word}

/-- The value of a merge has as many words as the name has registers. -/
theorem mergeOutcome_length (hword : (mergeForm d i).wordCheck = none) (hactive : (s.ctxOf (mergeForm d i) g).active ≠ 0)
    (hv : (mergeOutcome d i (s.ctxOf (mergeForm d i) g)).value = some v) :
    v.length = mergeRegs d i (s.ctxOf (mergeForm d i) g) := by
  refine mergeOf_value (P := fun w => w.length = mergeRegs d i (s.ctxOf (mergeForm d i) g)) ?_ (fun x hx => ?_)
    (fun h0 h1 h5 x y _ _ => ?_) hv
  · exact fun h => threadsOf_ne_nil hactive (List.map_eq_nil_iff.1 h)
  · obtain ⟨k, -, rfl⟩ := List.mem_map.1 hx
    exact Ctx.nameWords_length _ _ _ k (mergeRegs_one_or_two d i _) fun j inv hd => by
      rw [mergeRegs_eq, if_pos (merge_dest_pred hd).1]
  · obtain ⟨hcombines, hw⟩ := merge_combines hword h0 h1 h5
    rw [mergeStep_length, mergeRegs_eq, hcombines, hw]
    cases (mergeImm i).pred <;> simp

/-- The value of a merge of a predicate is 0 or 1. -/
theorem mergeOutcome_bit {k : Nat} {inv : Bool} (hd : (s.ctxOf (mergeForm d i) g).d = .pred k inv)
    (hactive : (s.ctxOf (mergeForm d i) g).active ≠ 0)
    (hv : (mergeOutcome d i (s.ctxOf (mergeForm d i) g)).value = some v) : v.getD 0 0 = 0 ∨ v.getD 0 0 = 1 := by
  refine mergeOf_value (P := fun w => w.getD 0 0 = 0 ∨ w.getD 0 0 = 1) ?_ (fun x hx => ?_) (fun _ _ _ x y hx hy => ?_) hv
  · exact fun h => threadsOf_ne_nil hactive (List.map_eq_nil_iff.1 h)
  · obtain ⟨j, -, rfl⟩ := List.mem_map.1 hx
    rw [hd]
    exact Ctx.read_pred_bit _ k j inv
  · rw [(merge_dest_pred hd).1]
    exact mergeStep_bit _ _ _ hx hy

theorem merge_runs_thread (h : Runs s g (mergeForm d i)) (hm : ∀ m, (s.ctxOf (mergeForm d i) g).d ≠ .m m) :
    exec (.merge d i) s =
      .next (threadMerge (mergeImm i) (mergeRegs d i (s.ctxOf (mergeForm d i) g)) (s.ctxOf (mergeForm d i) g) s) := by
  refine (State.issue_runs _ h).trans (congrArg Host.Outcome.next ?_)
  dsimp only
  split
  next m hd => exact absurd hd (hm m)
  next => rfl

end

end Sys2Proof.Machine

/-! ## The statement

Its name is that of the model's function too, so it has a namespace of its own. -/

namespace Sys2Proof.Merge

open Sys2Proof.Machine Sys2Proof.Claims

/-- Settles O15: the merged group is written, left or cleared of crumbs as the policy says, and then takes the status
block. -/
theorem threadMerge : Obligations.ThreadMerge := by
  intro d i s g h c r n hm hclear
  refine ⟨c.merged (mergeRegs d i c) r, ?_, fun hdrop => ?_, fun hdrop => ?_, fun j hj => ?_, fun j hj => ?_⟩
  · rw [merge_runs_thread h hm, threadMerge_eq]
    rfl
  · exact c.merged_result _ r hdrop (mergeRegs_one_or_two d i c) (fun v hv ha => mergeOutcome_length h.word ha hv)
      (fun v hv ha k inv hd => ⟨(merge_dest_pred hd).2, mergeOutcome_bit hd ha hv⟩) hclear
  · obtain ⟨hvalue, hflags⟩ := mergeOf_drop hdrop
    exact c.merged_drop_arch _ r hdrop hvalue hflags
  · rw [Group.getD_setGs, statusBlock_length, if_pos (by omega), Nat.add_sub_cancel_left]
  · rw [Group.getD_setGs, statusBlock_length, if_neg (by omega)]

end Sys2Proof.Merge

/-! # Ranks: team merges

MERGE of an m name whose arrivals are all there (04 R79): what its policy makes of the holders' values, the team copy, and
the result that every waiting group of the team receives. -/

namespace Sys2Proof.Machine

/-! ## Latched results (09 R192) -/

/-- A waiting group of the team whose object is accepted has the result. -/
theorem State.latch_answers {s : State} {team : Nat} {p : WaitObj → Bool} {f : Wait → List (Nat × Word)} {g : Group} {w : Wait}
    (hg : g ∈ s.groups) (hteam : g.team = team) (hw : g.wait = some w) (hp : p w.obj = true) (hnone : w.result = none) :
    ∃ h ∈ (s.latch team p f).groups, h.id = g.id ∧ h.wait = some { w with result := some (f w) } := by
  refine ⟨_, List.mem_map_of_mem hg, ?_⟩
  simp [hteam, hw, hp, hnone]

/-- A latch changes no group but in its waits. -/
theorem State.mem_latch {s : State} {team : Nat} {p : WaitObj → Bool} {f : Wait → List (Nat × Word)} {h : Group}
    (hh : h ∈ (s.latch team p f).groups) : ∃ g ∈ s.groups, h = { g with wait := h.wait, keptWait := h.keptWait } := by
  obtain ⟨g, hg, rfl⟩ := List.mem_map.1 hh
  refine ⟨g, hg, ?_⟩
  split <;> rfl

theorem State.latch_map {s : State} {team : Nat} {p : WaitObj → Bool} {f : Wait → List (Nat × Word)} {α : Type}
    {key : Group → α}
    (hkey : ∀ (g : Group) (w kept : Option Wait), key { g with wait := w, keptWait := kept } = key g) :
    (s.latch team p f).groups.map key = s.groups.map key :=
  updateWhere_map (fun g => hkey g _ _) s.groups

/-! ## The outcome of a team merge (04 R76) -/

/-- The groups that ask for another policy than the first. -/
def oddHolders (l : List (Group × Arrival)) (a : Arrival) : List Nat :=
  (l.filter fun x => x.2.pol != a.pol || x.2.f != a.f || x.2.w != a.w).map (·.1.gix)

/-- What a team merge comes to: DIFFER where the policies differ, else what the policy makes of the values. -/
def teamMergeOutcome (l : List (Group × Arrival)) (a : Arrival) : MergeResult :=
  if (oddHolders l a).isEmpty then mergeOf a.pol a.f false a.mode (l.map fun x => (x.1.gix, x.2.val))
  else ⟨Status.differ, oddHolders l a, none, false, 0⟩

/-- The result of a merge, in a wait's registers. -/
def blockAt (r : MergeResult) (w : Wait) : List (Nat × Word) :=
  (statusBlock r.status r.dm).zipIdx.map fun x => (w.dst + x.2, x.1)

/-- The team whose arrivals at an m name are done. -/
def Team.arrivalsDone (m : Nat) (tm : Team) : Team := { tm with arrivals := tm.arrivals.filter (·.m != m) }

theorem State.orSticky_zero (s : State) (g : Group) : s.orSticky g 0 = s := if_pos rfl

/-- A team merge that gives no value and drops nothing changes no copy. -/
theorem State.completeMerge_keeps {s : State} {team m : Nat} {first : Group × Arrival} {rest : List (Group × Arrival)}
    {st : Nat} {dm : List Nat}
    (hr : teamMergeOutcome (first :: rest) first.2 = ⟨st, dm, none, false, 0⟩) :
    s.completeMerge team m (first :: rest) =
      (s.onTeam team (Team.arrivalsDone m)).latch team (· == .merge m) (blockAt ⟨st, dm, none, false, 0⟩) := by
  unfold State.completeMerge
  split
  · exact absurd ‹_› (List.cons_ne_nil _ _)
  next e =>
  cases e
  extract_lets odd r n names drop value merged clear cleared flagged block mine
  have hr : r = ⟨st, dm, none, false, 0⟩ := hr
  have hcleared : cleared = merged := if_neg (by simp [drop, hr])
  have hflagged : flagged = cleared := by
    unfold flagged
    rw [hr]
    exact List.foldl_fixed' (fun x => State.orSticky_zero _ _) _
  have hmerged : merged = s.onTeam team (Team.arrivalsDone m) := by
    simp only [merged, value, hr]
    rfl
  have hblock : block = statusBlock st dm := by simp only [block, hr]
  rw [hflagged, hcleared, hmerged, hblock]
  rfl

/-- The state in which a word is the team copy of an m name, and no group of the team has a crumb of it. -/
def State.mergeWritten (s : State) (team m : Nat) (v : Word) : State :=
  { s.onTeam team (fun tm => { tm.arrivalsDone m with mcopies := putAt tm.mcopies m 0 v }) with
    groups := updateWhere (·.team == team) (fun g => { g with mcrumbs := g.mcrumbs.set m none }) s.groups }

theorem State.team?_onTeam {s : State} {id : Nat} {f : Team → Team} {tm : Team} (hf : ∀ x, (f x).id = x.id)
    (h : s.team? id = some tm) : (s.onTeam id f).team? id = some (f tm) := by
  have hfind := find?_updateWhere (fun x : Team => x.id == id) (fun x => x.id == id) f (fun x => by rw [hf]) s.teams
  have htm : (tm.id == id) = true := List.find?_some (p := fun x : Team => x.id == id) h
  refine hfind.trans ?_
  rw [show s.teams.find? (fun x => x.id == id) = some tm from h, Option.map_some, if_pos htm]

theorem State.mergeWritten_crumbs {s : State} {team m : Nat} {v : Word} {h : Group} (hh : h ∈ (s.mergeWritten team m v).groups)
    (hteam : h.team = team) : h.mcrumbs.getD m none = none := by
  obtain ⟨g, -, rfl⟩ := List.mem_map.1 hh
  split
  · rw [List.getD_eq_getElem?_getD, List.getElem?_set_self']
    cases g.mcrumbs[m]? <;> rfl
  next hne =>
    rw [if_neg hne] at hteam
    exact absurd (beq_iff_eq.2 hteam) hne

theorem State.mem_mergeWritten {s : State} {team m : Nat} {v : Word} {g : Group} (hg : g ∈ s.groups) (hteam : g.team = team) :
    { g with mcrumbs := g.mcrumbs.set m none } ∈ (s.mergeWritten team m v).groups :=
  List.mem_map.2 ⟨g, hg, if_pos (beq_iff_eq.2 hteam)⟩

/-- A team merge that gives one word writes it to the team copy, and the group crumbs of the name go. -/
theorem State.completeMerge_writes {s : State} {team m : Nat} {first : Group × Arrival} {rest : List (Group × Arrival)} {v : Word}
    (hr : teamMergeOutcome (first :: rest) first.2 = ⟨Status.done, [], some [v], false, 0⟩) (hone : first.2.val.length = 1) :
    s.completeMerge team m (first :: rest) =
      (s.mergeWritten team m v).latch team (· == .merge m) (blockAt ⟨Status.done, [], some [v], false, 0⟩) := by
  unfold State.completeMerge
  split
  · exact absurd ‹_› (List.cons_ne_nil _ _)
  next e =>
  cases e
  extract_lets odd r n names drop value merged clear cleared flagged block mine
  have hr : r = ⟨Status.done, [], some [v], false, 0⟩ := hr
  have hcleared : cleared = { merged with groups := updateWhere (·.team == team) clear merged.groups } :=
    if_pos (by simp [drop, hr])
  have hflagged : flagged = cleared := by
    unfold flagged
    rw [hr]
    exact List.foldl_fixed' (fun x => State.orSticky_zero _ _) _
  have hclear : clear = fun g => { g with mcrumbs := g.mcrumbs.set m none } := by
    simp only [clear, names, n, hone]
    rfl
  have hmerged : merged = s.onTeam team (fun tm => { tm.arrivalsDone m with mcopies := putAt tm.mcopies m 0 v }) := by
    simp only [merged, value, hr]
    rfl
  have hblock : block = statusBlock Status.done [] := by simp only [block, hr]
  rw [hflagged, hcleared, hclear, hmerged, hblock]
  rfl

/-- The holders whose value differs from the first one's, in a list of arrivals. -/
theorem differing_arrivals (first : Group × Arrival) (rest : List (Group × Arrival)) :
    differing ((first :: rest).map fun x => (x.1.gix, x.2.val)) =
      ((first :: rest).filter fun x => x.2.val != first.2.val).map (·.1.gix) := by
  change ((((first :: rest).map fun x => (x.1.gix, x.2.val)).filter fun x => x.2 != first.2.val).map (·.1)) = _
  rw [List.filter_map, List.map_map]
  rfl

/-- One policy, SAME: done where the values agree, else DIFFER. -/
theorem teamMergeOutcome_same {first : Group × Arrival} {rest : List (Group × Arrival)}
    (hodd : oddHolders (first :: rest) first.2 = []) (hpol : first.2.pol = 0) :
    teamMergeOutcome (first :: rest) first.2 =
      let other := ((first :: rest).filter fun x => x.2.val != first.2.val).map (·.1.gix)
      if other.isEmpty then ⟨Status.done, [], some first.2.val, false, 0⟩ else ⟨Status.differ, other, none, false, 0⟩ := by
  rw [teamMergeOutcome, hodd, hpol, ← differing_arrivals]
  rfl

theorem teamMergeOutcome_odd {l : List (Group × Arrival)} {a : Arrival} (hodd : oddHolders l a ≠ []) :
    teamMergeOutcome l a = ⟨Status.differ, oddHolders l a, none, false, 0⟩ :=
  if_neg fun h => hodd (List.isEmpty_iff.1 h)

end Sys2Proof.Machine

/-! ## The statement

Its name is that of the model's function too, so it has a namespace of its own. -/

namespace Sys2Proof.Merge

open Sys2Proof.Machine

/-- Settles O55: DIFFER and SAME are the two outcomes, `completeMerge_keeps` and `completeMerge_writes` say what they do to the
copies, and `latch_answers` gives every waiting group its block. -/
theorem teamMerge : Obligations.TeamMerge := by
  intro s team m l tm first hfirst hteam odd other t answers unchanged differ
  obtain ⟨rest, rfl⟩ := List.head?_eq_some_iff.1 hfirst
  have hdiffer : ∀ dm, teamMergeOutcome (first :: rest) first.2 = ⟨Status.differ, dm, none, false, 0⟩ → differ dm := by
    intro dm hr
    have ht : t = _ := State.completeMerge_keeps hr
    refine ⟨⟨?_, ?_⟩, fun g hg hgt w hw hobj hnone => ?_⟩
    · rw [ht]
      refine List.map_congr_left fun x _ => ?_
      simp only [beq_iff_eq]
      rfl
    · rw [ht]
      exact State.latch_map fun _ _ _ => rfl
    · obtain ⟨h, hh, hid, hwait⟩ := State.latch_answers (s := s.onTeam team (Team.arrivalsDone m))
        (p := (· == .merge m)) (f := blockAt ⟨Status.differ, dm, none, false, 0⟩) hg hgt hw (by simp [hobj]) hnone
      exact ⟨h, ht ▸ hh, hid, _, rfl, hwait⟩
  refine ⟨fun hodd => hdiffer odd (teamMergeOutcome_odd hodd), fun hodd hpol hother => hdiffer other ?_,
    fun hodd hpol hother v hv => ?_⟩
  · rw [teamMergeOutcome_same hodd hpol]
    exact if_neg fun h => hother (List.isEmpty_iff.1 h)
  have hr : teamMergeOutcome (first :: rest) first.2 = ⟨Status.done, [], some [v], false, 0⟩ := by
    rw [teamMergeOutcome_same hodd hpol, ← hv]
    exact if_pos (List.isEmpty_iff.2 hother)
  have ht : t = _ := State.completeMerge_writes hr (by rw [hv]; rfl)
  refine ⟨?_, ?_, fun g hg hgt w hw hobj hnone => ?_⟩
  · rw [ht]
    exact ⟨_, State.team?_onTeam (fun _ => rfl) hteam, rfl, rfl⟩
  · intro h hh hteam'
    rw [ht] at hh
    obtain ⟨k, hk, e⟩ := State.mem_latch hh
    rw [e] at hteam' ⊢
    exact State.mergeWritten_crumbs (h := k) hk hteam'
  · obtain ⟨h, hh, hid, hwait⟩ := State.latch_answers (s := s.mergeWritten team m v) (p := (· == .merge m))
      (f := blockAt ⟨Status.done, [], some [v], false, 0⟩) (State.mem_mergeWritten hg hgt) hgt hw (by simp [hobj]) hnone
    exact ⟨h, ht ▸ hh, hid, _, rfl, hwait⟩

end Sys2Proof.Merge

/-! # Integer and lane instructions: exact results and their words

Every instruction of 05 R99 to R113 is one body that computes words. How such a body completes is proved here once, and that
the words of a typed result depend on the exact integer modulo 2^w alone (05 R95). -/

namespace Sys2Proof.Machine

open Sys2Proof.Claims

/-! ## An instruction that computes words for each thread -/

/-- A slot that is written as a register names no predicate. -/
theorem ctxOf_dest_ne_pred {f : Form} (hdest : f.d.kind.writes = true) (s : State) (g : Group) (k : Nat) (inv : Bool) :
    (s.ctxOf f g).d ≠ .pred k inv := by
  have hd : (s.ctxOf f g).d = (f.d.resolve (g.allotment (s.teamOf g)) (s.issueOf f g).mode (s.issueOf f g).ix 0).o := rfl
  rw [hd, Slot.resolve]
  cases hk : f.d.kind with
  | dst w r => exact resolveReg_ne_pred _ _ _ _ _ _ _ _ _
  | acc w r => exact resolveReg_ne_pred _ _ _ _ _ _ _ _ _
  | _ => simp [hk, Kind.writes] at hdest

/-- An instruction whose body computes words for a register destination, the same for every thread where it may be widened,
completes with them. -/
theorem computes_alu {i : Instr} {f : Form} {n : Ctx → Nat} {uni : Ctx → Bool} {val val' : Ctx → Nat → List Word}
    {fl : Ctx → Nat → BitVec 6} {flags : Ctx → BitVec 6} {reads : Ctx → Reads}
    (hexec : ∀ s, exec i s = s.issue f (aluBody uni val fl) (reads := reads)) (hdest : f.d.kind.writes = true)
    (hn : ∀ c, n c = 1 ∨ n c = 2) (hlen : ∀ c i, (val c i).length = n c) (hval : ∀ c i, val c i = val' c i)
    (huni : ∀ c, uni c = true → ∀ x y, val c x = val c y) (hflags : ∀ c, c.flagsOf (fl c) = flags c) :
    Computes i f n val' flags reads := by
  obtain rfl : val = val' := funext fun c => funext (hval c)
  intro s g h hclear
  obtain ⟨k, hbody, hresult⟩ := aluBody_result uni val fl (s.ctxOf f g) s _ (hn _) (hlen _) (huni _)
    (fun m inv hd => absurd hd (ctxOf_dest_ne_pred hdest s g m inv)) hclear
  refine ⟨_, k, by rw [hexec, State.issue_runs _ h, hbody], onlyGroup_putGroup s k, ?_⟩
  rw [← hflags]
  exact hresult

theorem Ctx.flagsOf_noFlags (c : Ctx) : c.flagsOf (noFlags c) = noSticky c := foldl_noFlags c c.runs 0

/-- The same where the body computes the stated words themselves and sets no flag. -/
theorem computes_words {i : Instr} {f : Form} {n : Ctx → Nat} {uni : Ctx → Bool} {val : Ctx → Nat → List Word}
    (hexec : ∀ s, exec i s = s.issue f (aluBody uni val noFlags)) (hdest : f.d.kind.writes = true)
    (hn : ∀ c, n c = 1 ∨ n c = 2) (hlen : ∀ c i, (val c i).length = n c)
    (huni : ∀ c, uni c = true → ∀ x y, val c x = val c y) : Computes i f n val noSticky :=
  computes_alu hexec hdest hn hlen (fun _ _ => rfl) huni Ctx.flagsOf_noFlags

/-- The same for a lane instruction: it is never widened, sets no flag, and has an active thread when it runs (05 R108). -/
theorem computes_lane {i : Instr} {f : Form} {n : Ctx → Nat} {val val' : Ctx → Nat → List Word} {reads : Ctx → Reads}
    (hexec : ∀ s, exec i s = s.issue f (laneBody val) (reads := reads)) (hdest : f.d.kind.writes = true)
    (hguard : f.guarded = true) (hn : ∀ c, n c = 1 ∨ n c = 2) (hlen : ∀ c i, (val c i).length = n c)
    (hval : ∀ c, c.active ≠ 0 → ∀ i, val c i = val' c i) : Computes i f n val' noSticky reads := by
  intro s g h hclear
  obtain ⟨k, hbody, hresult⟩ := aluBody_result (fun _ => false) val noFlags (s.ctxOf f g) s _ (hn _) (hlen _) (by simp)
    (fun m inv hd => absurd hd (ctxOf_dest_ne_pred hdest s g m inv)) hclear
  have hwhole : laneBody val (s.ctxOf f g) s = aluBody (fun _ => false) val noFlags (s.ctxOf f g) s :=
    laneCommit_whole _ _ _ s h.whole
  refine ⟨_, k, by rw [hexec, State.issue_runs _ h, hwhole, hbody], onlyGroup_putGroup s k, ?_⟩
  rw [← funext (hval _ (h.active hguard)), ← Ctx.flagsOf_noFlags]
  exact hresult

/-! ## Exact integers modulo 2^w (05 R95) -/

theorem wrap_cast (z : Int) (w : Nat) : (wrap z w : Int) = z % 2 ^ w := by
  rw [wrap, Int.toNat_of_nonneg (Int.emod_nonneg _ (by positivity))]
  push_cast
  rfl

theorem wrap_modEq (z : Int) (w : Nat) : (wrap z w : Int) ≡ z [ZMOD 2 ^ w] := by
  rw [wrap_cast]
  exact Int.mod_modEq _ _

/-- Raw bits and their value under a type agree modulo 2^w. -/
theorem IType.value_modEq (t : IType) (n : Nat) : t.value n ≡ n [ZMOD 2 ^ t.w] := by
  have hmod : ((n % 2 ^ t.w : Nat) : Int) ≡ n [ZMOD 2 ^ t.w] := by
    push_cast
    exact Int.mod_modEq _ _
  unfold IType.value
  split
  · simp only [signedOf]
    split
    · exact hmod
    · push_cast at hmod ⊢
      exact Int.sub_modulus_modEq_iff.2 hmod
  · exact Int.ModEq.rfl

theorem pairWords_mod (n : Nat) : pairWords (n % 2 ^ 64) = pairWords n := by
  have low : n % 2 ^ 64 % 2 ^ 32 = n % 2 ^ 32 := by omega
  have high : n % 2 ^ 64 / 2 ^ 32 % 2 ^ 32 = n / 2 ^ 32 % 2 ^ 32 := by omega
  simp only [pairWords, wordOf, List.cons.injEq, BitVec.toNat_inj.symm, BitVec.toNat_ofNat, low, high, and_self]

/-- The words of a typed result hold its low w bits. -/
theorem IType.words_mod (t : IType) (n : Nat) : t.words (n % 2 ^ t.w) = t.words n := by
  unfold IType.words
  split
  next h => rw [h, pairWords_mod]
  · rw [Nat.mod_mod]

/-- A result that agrees with the exact one modulo 2^w has its words. -/
theorem IType.words_eq_of_modEq {t : IType} {n : Nat} {z : Int} (h : (n : Int) ≡ z [ZMOD 2 ^ t.w]) :
    t.words n = t.words (wrap z t.w) := by
  have hmod : n % 2 ^ t.w = wrap z t.w % 2 ^ t.w := by
    have := h.trans (wrap_modEq z t.w).symm
    exact Int.natCast_modEq_iff.1 (by exact_mod_cast this)
  rw [← t.words_mod n, hmod, t.words_mod]

theorem regsOfType_cases (c : Ctx) : regsOfType c = 1 ∨ regsOfType c = 2 := by
  unfold regsOfType
  split <;> simp

/-! ## Sources have w bits -/

theorem Ctx.readPair_lt (c : Ctx) (o : Operand) (i : Nat) : c.readPair o i < 2 ^ 64 := by
  have hpair : ∀ lo hi : Word, pairOf lo hi < 2 ^ 64 := fun lo hi => by
    have := lo.isLt
    have := hi.isLt
    unfold pairOf
    omega
  have hword : (c.read o i).toNat < 2 ^ 64 := Nat.lt_trans (c.read o i).isLt (by decide)
  unfold Ctx.readPair
  split
  case h_5 => exact hword
  all_goals exact hpair _ _

theorem Ctx.readBits_lt (c : Ctx) (o : Operand) (w i : Nat) : c.readBits o w i < 2 ^ w := by
  unfold Ctx.readBits
  split
  next h => exact h ▸ c.readPair_lt o i
  · exact Nat.mod_lt _ (Nat.two_pow_pos w)

end Sys2Proof.Machine

/-! # Integer arithmetic, division and compares (05 R99, R100, R103)

Each operation of Table 5.1 agrees with its exact result modulo 2^w, which is all that `IType.words_eq_of_modEq` asks. -/

namespace Sys2Proof.Machine

open Sys2Proof.Claims

/-! ## Typed instructions -/

/-- A row of Table 5.1 with two sources: its operation agrees with the exact one modulo 2^w. -/
theorem typed2_computes {e : Three × Nat × (IType → Nat → Nat → Int)} {f : IType → Nat → Nat → Nat}
    {fl : Ctx → Nat → BitVec 6} {flags : Ctx → BitVec 6}
    (hexec : ∀ d a b s, exec (e.1 d a b) s = s.issue (typed2 e.2.1 d a b) (typedBody f fl))
    (hflags : ∀ c, c.flagsOf (fl c) = flags c)
    (hop : ∀ (t : IType) (x y : Nat), (f t x y : Int) ≡ e.2.2 t x y [ZMOD 2 ^ t.w])
    (d a b : BitVec 8) : Computes (e.1 d a b) (typed2 e.2.1 d a b) regsOfType
      (fun c i => c.itype.words (wrap (e.2.2 c.itype (srcA c i) (srcB c i)) c.itype.w)) flags := by
  refine computes_alu (hexec d a b) rfl regsOfType_cases (fun c i => IType.words_length _ _) (fun c i => ?_)
    (fun c hu x y => ?_) hflags
  · exact IType.words_eq_of_modEq (hop c.itype _ _)
  · obtain ⟨ha, hb⟩ := Bool.and_eq_true_iff.1 hu
    simp only [Ctx.readBits_uniform ha x y, Ctx.readBits_uniform hb x y]

/-- A row of Table 5.1 with one source. -/
theorem typed1_computes {e : Two × Nat × (IType → Nat → Int)} {f : IType → Nat → Nat}
    (hexec : ∀ d a s, exec (e.1 d a) s = s.issue (typed1 e.2.1 d a) (typedBody1 f))
    (hop : ∀ (t : IType) (x : Nat), x < 2 ^ t.w → (f t x : Int) ≡ e.2.2 t x [ZMOD 2 ^ t.w])
    (d a : BitVec 8) : Computes (e.1 d a) (typed1 e.2.1 d a) regsOfType
      (fun c i => c.itype.words (wrap (e.2.2 c.itype (srcA c i)) c.itype.w)) noSticky := by
  refine computes_alu (hexec d a) rfl regsOfType_cases (fun c i => IType.words_length _ _) (fun c i => ?_)
    (fun c hu x y => ?_) Ctx.flagsOf_noFlags
  · exact IType.words_eq_of_modEq (hop c.itype _ (c.readBits_lt _ _ _))
  · simp only [Ctx.readBits_uniform hu x y]

/-! ## The operations of Table 5.1 -/

theorem mulh_modEq (t : IType) (x y : Nat) :
    ((wrap (t.value x * t.value y) (2 * t.w) / 2 ^ t.w : Nat) : Int) ≡ t.value x * t.value y / 2 ^ t.w [ZMOD 2 ^ t.w] := by
  generalize t.value x * t.value y = z
  have hdouble : (2 : Int) ^ (2 * t.w) = 2 ^ t.w * 2 ^ t.w := by rw [two_mul, pow_add]
  have hsplit := Int.emod_add_mul_ediv z (2 ^ (2 * t.w))
  push_cast
  rw [wrap_cast]
  conv_rhs => rw [← hsplit, hdouble, mul_assoc, Int.add_mul_ediv_left _ _ (by positivity)]
  exact Int.modEq_add_modulus_mul_iff.2 (by rw [hdouble])

theorem minTyped_value (t : IType) (x y : Nat) : t.value (minTyped t x y) = min (t.value x) (t.value y) := by
  unfold minTyped
  split
  next h => exact (min_eq_left h).symm
  next h => exact (min_eq_right (by omega)).symm

theorem maxTyped_value (t : IType) (x y : Nat) : t.value (maxTyped t x y) = max (t.value x) (t.value y) := by
  unfold maxTyped
  split
  next h => exact (max_eq_right h).symm
  next h => exact (max_eq_left (by omega)).symm

theorem addTyped_modEq (t : IType) (x y : Nat) : (addTyped t x y : Int) ≡ t.value x + t.value y [ZMOD 2 ^ t.w] := by
  have hmod : (addTyped t x y : Int) ≡ x + y [ZMOD 2 ^ t.w] := by
    rw [addTyped]
    push_cast
    exact Int.mod_modEq _ _
  exact hmod.trans ((t.value_modEq x).symm.add (t.value_modEq y).symm)

theorem leadZeros_eq {n w : Nat} (h : n < 2 ^ w) : (leadZeros n w : Int) = w - n.size := by
  induction w with
  | zero =>
    obtain rfl : n = 0 := by omega
    rfl
  | succ w ih =>
    rw [leadZeros]
    split
    next hbit =>
      have hge : 2 ^ w ≤ n := by
        by_contra hlt
        simp [bitAt, Nat.div_eq_of_lt (Nat.not_le.1 hlt)] at hbit
      have := Nat.size_le.2 h
      have := Nat.lt_size.2 hge
      omega
    next hbit =>
      have hlt : n < 2 ^ w := by
        by_contra hge
        have := Nat.div_eq_of_lt_le (m := n) (n := 2 ^ w) (k := 1) (by omega) (by omega)
        simp [bitAt, this] at hbit
      push_cast
      rw [ih hlt]
      ring

/-- The complement of w bits, which of 0 is all ones, is the exact -1 - x modulo 2^w. -/
theorem complement_modEq {w x : Nat} (h : x < 2 ^ w) : ((2 ^ w - 1 - x : Nat) : Int) ≡ -1 - x [ZMOD 2 ^ w] := by
  have hcast : ((2 ^ w - 1 - x : Nat) : Int) = 2 ^ w + (-1 - x) := by
    have : ((2 ^ w : Nat) : Int) = 2 ^ w := by push_cast; rfl
    omega
  rw [hcast]
  exact Int.modulus_add_modEq_iff.2 Int.ModEq.rfl

theorem divTyped_modEq (t : IType) (x y : Nat) :
    (divTyped t x y : Int) ≡ (if y = 0 then -1 else Int.tdiv (t.value x) (t.value y)) [ZMOD 2 ^ t.w] := by
  unfold divTyped
  split
  · exact complement_modEq (Nat.two_pow_pos _)
  · exact wrap_modEq _ _

theorem remTyped_modEq (t : IType) (x y : Nat) :
    (remTyped t x y : Int) ≡ (if y = 0 then (x : Int) else Int.tmod (t.value x) (t.value y)) [ZMOD 2 ^ t.w] := by
  unfold remTyped
  split
  · exact Int.ModEq.rfl
  · exact wrap_modEq _ _

theorem integerArithmetic_computes : Claims.IntegerArithmetic := by
  intro e he
  simp only [arithmetic, List.mem_cons, List.not_mem_nil, or_false] at he
  rcases he with rfl | rfl | rfl | rfl | rfl | rfl | rfl | rfl | rfl <;>
    refine typed2_computes (fun _ _ _ _ => rfl) Ctx.flagsOf_noFlags fun t x y => ?_
  -- ADD, SUB, MUL, MULH
  · exact (wrap_modEq _ _).trans ((t.value_modEq x).symm.add (t.value_modEq y).symm)
  · exact (wrap_modEq _ _).trans ((t.value_modEq x).symm.sub (t.value_modEq y).symm)
  · push_cast
    exact (Int.mod_modEq _ _).trans ((t.value_modEq x).symm.mul (t.value_modEq y).symm)
  · exact mulh_modEq t x y
  -- MIN, MAX
  · exact (t.value_modEq _).symm.trans (congrArg (· % _) (minTyped_value t x y))
  · exact (t.value_modEq _).symm.trans (congrArg (· % _) (maxTyped_value t x y))
  -- AND, OR, XOR
  · exact Int.ModEq.rfl
  · exact Int.ModEq.rfl
  · exact Int.ModEq.rfl

theorem integerUnary_computes : Claims.IntegerUnary := by
  intro e he
  simp only [unary, List.mem_cons, List.not_mem_nil, or_false] at he
  rcases he with rfl | rfl | rfl | rfl | rfl <;> refine typed1_computes (fun _ _ _ => rfl) fun t x hx => ?_
  -- ABS, NEG, NOT
  · exact Int.natCast_natAbs (t.value x) ▸ wrap_modEq _ _
  · exact (wrap_modEq _ _).trans (t.value_modEq x).symm.neg
  · exact (complement_modEq hx).trans ((t.value_modEq x).symm.sub_left _)
  -- POPC, CLZ
  · exact Int.ModEq.rfl
  · exact congrArg (· % _) (leadZeros_eq hx)

/-- A compare writes 1 for the threads whose operands compare, else 0. -/
theorem compare_computes {e : (BitVec 3 → BitVec 8 → BitVec 8 → Instr) × Nat × (Int → Int → Prop)} {op : Int → Int → Bool}
    (hexec : ∀ d a b s, exec (e.1 d a b) s = s.issue (compareForm e.2.1 d a b) (compareBody op))
    (hop : ∀ x y, op x y = true ↔ e.2.2 x y) (d : BitVec 3) (a b : BitVec 8) (val : Ctx → Nat → List Word)
    (htrue : ∀ c i, e.2.2 (c.itype.value (srcA c i)) (c.itype.value (srcB c i)) → val c i = [1])
    (hfalse : ∀ c i, ¬ e.2.2 (c.itype.value (srcA c i)) (c.itype.value (srcB c i)) → val c i = [0]) :
    Computes (e.1 d a b) (compareForm e.2.1 d a b) one val noSticky := by
  refine computes_one (hexec d a b) (fun c i => rfl) (fun s g => funext fun i => ?_) (fun s g hu x y => ?_)
    (fun s g k inv hd => ?_)
  · split
    next h => exact (htrue _ i ((hop _ _).1 h)).symm
    next h => exact (hfalse _ i fun hc => h ((hop _ _).2 hc)).symm
  · obtain ⟨ha, hb⟩ := Bool.and_eq_true_iff.1 hu
    simp only [Ctx.readBits_uniform ha x y, Ctx.readBits_uniform hb x y]
  · cases hd
    refine ⟨rfl, fun i => ?_⟩
    rw [List.getD_cons_zero]
    split <;> simp

theorem integerCompare_computes : Claims.IntegerCompare := by
  intro e he
  simp only [compares, List.mem_cons, List.not_mem_nil, or_false] at he
  rcases he with rfl | rfl | rfl | rfl <;> refine compare_computes (fun _ _ _ _ => rfl) fun x y => ?_
  -- CMPEQ, CMPNE, CMPLT, CMPLE
  · exact beq_iff_eq
  · exact bne_iff_ne
  · exact decide_eq_true_iff
  · exact decide_eq_true_iff

/-- Settles O1: each row is a body whose operation agrees with the exact result modulo 2^w, or a compare. -/
theorem integerResults : Obligations.IntegerResults :=
  ⟨integerArithmetic_computes, integerUnary_computes, integerCompare_computes⟩

/-- A flag that some run sets is set once, whatever the number of runs (05 R100). -/
theorem foldl_flag (p : Nat → Bool) (v : BitVec 6) (l : List Nat) (acc : BitVec 6) :
    l.foldl (fun acc i => acc ||| if p i then v else 0) acc = acc ||| if l.any p then v else 0 := by
  induction l generalizing acc with
  | nil => simp
  | cons i l ih =>
    rw [List.foldl_cons, ih, List.any_cons]
    cases p i <;> cases l.any p <;> simp [BitVec.or_assoc]

theorem Ctx.flagsOf_divFlags (c : Ctx) :
    c.flagsOf (divFlags c) = if c.runs.any (fun i => srcB c i == 0) then 0x20#6 else 0 := by
  have hflag : divFlags c = fun i => if (srcB c i == 0) = true then flagIdz else 0 := by
    funext i
    simp only [divFlags, srcB, beq_iff_eq]
  rw [Ctx.flagsOf, hflag, foldl_flag]
  exact BitVec.zero_or

/-- Settles O2: DIV and REM agree with the rounded quotient and its remainder, and the divide flag is set once. -/
theorem integerDivision : Obligations.IntegerDivision := by
  intro e he
  simp only [division, List.mem_cons, List.not_mem_nil, or_false] at he
  rcases he with rfl | rfl <;> refine typed2_computes (fun _ _ _ _ => rfl) Ctx.flagsOf_divFlags fun t x y => ?_
  · exact divTyped_modEq t x y
  · exact remTyped_modEq t x y

end Sys2Proof.Machine

/-! # Shifts, bit fields, select, constants, moves and addresses (05 R101, R102, R104 to R107) -/

namespace Sys2Proof.Machine

open Sys2Proof.Claims

/-! ## Shifts and rotation (05 R101) -/

/-- A 32-bit operation of two sources completes with its word. -/
theorem plain2_computes {i : Instr} {op : Nat} {d a b : BitVec 8} {f f' : Word → Word → Word}
    (hexec : ∀ s, exec i s = s.issue (plain2 op d a b) (plainBody f)) (hop : ∀ x y, f x y = f' x y) :
    Computes i (plain2 op d a b) one (fun c i => [f' (c.read c.a i) (c.read c.b i)]) noSticky := by
  refine computes_alu hexec rfl (fun _ => .inl rfl) (fun c i => rfl) (fun c i => ?_) (fun c hu x y => ?_) Ctx.flagsOf_noFlags
  · rw [hop]
  · obtain ⟨ha, hb⟩ := Bool.and_eq_true_iff.1 hu
    simp only [Ctx.read_uniform ha x y, Ctx.read_uniform hb x y]

theorem shiftLeft_eq_ofInt (x : Word) (n : Nat) : x <<< n = BitVec.ofInt 32 (x.toNat * 2 ^ n) := by
  norm_cast
  rw [BitVec.ofInt_natCast, ← Nat.shiftLeft_eq]
  rfl

theorem ushiftRight_eq_ofInt (x : Word) (n : Nat) : x >>> n = BitVec.ofInt 32 (x.toNat / 2 ^ n) := by
  norm_cast
  rw [BitVec.ofInt_natCast, ← Nat.shiftRight_eq_div_pow, ← BitVec.toNat_ushiftRight, BitVec.ofNat_toNat, BitVec.setWidth_eq]

theorem sshiftRight_eq_ofInt (x : Word) (n : Nat) : x.sshiftRight n = BitVec.ofInt 32 (x.toInt / 2 ^ n) := by
  rw [BitVec.sshiftRight, Int.shiftRight_eq_div_pow]
  norm_cast

/-- A count from 32 on leaves nothing. -/
theorem ite_ofInt {p : Prop} [Decidable p] {x : Word} {z : Int} (h : x = BitVec.ofInt 32 z) :
    (if p then x else 0) = BitVec.ofInt 32 (if p then z else 0) := by
  split
  · exact h
  · rfl

/-- A rotation adds what leaves at the top to what is shifted: the two have no bit in common. -/
theorem rotateLeft_eq_ofInt (x : Word) {n : Nat} (hn : n < 32) :
    x.rotateLeft n = BitVec.ofInt 32 (x.toNat * 2 ^ n + x.toNat / 2 ^ (32 - n)) := by
  have hpow : 2 ^ n * 2 ^ (32 - n) = 2 ^ 32 := pow_mul_pow_sub 2 (by omega)
  have htop : x.toNat / 2 ^ (32 - n) < 2 ^ n := by
    rw [Nat.div_lt_iff_lt_mul (by positivity), hpow]
    exact x.isLt
  have hshifted : x.toNat * 2 ^ n % 2 ^ 32 = 2 ^ n * (x.toNat % 2 ^ (32 - n)) := by
    rw [← hpow, mul_comm x.toNat, Nat.mul_mod_mul_left]
  have hfit : 2 ^ n * (x.toNat % 2 ^ (32 - n)) + x.toNat / 2 ^ (32 - n) < 2 ^ 32 := by
    calc _ < 2 ^ n * (x.toNat % 2 ^ (32 - n) + 1) := by rw [Nat.mul_succ]; omega
      _ ≤ 2 ^ n * 2 ^ (32 - n) := Nat.mul_le_mul_left _ (Nat.mod_lt _ (by positivity))
      _ = 2 ^ 32 := hpow
  norm_cast
  rw [BitVec.ofInt_natCast]
  apply BitVec.eq_of_toNat_eq
  rw [BitVec.toNat_ofNat, ← Nat.mod_add_mod, BitVec.toNat_rotateLeft, Nat.mod_eq_of_lt hn, Nat.shiftLeft_eq, hshifted,
    Nat.shiftRight_eq_div_pow, ← Nat.two_pow_add_eq_or_of_lt htop, Nat.mod_eq_of_lt hfit]

/-- A row of R101: its word is the exact result of the operand and the count. -/
theorem shift_computes {e : Three × Nat × (Word → Nat → Int)} {f : Word → Word → Word}
    (hexec : ∀ d a b s, exec (e.1 d a b) s = s.issue (plain2 e.2.1 d a b) (plainBody f))
    (hop : ∀ x y, f x y = BitVec.ofInt 32 (e.2.2 x y.toNat)) (d a b : BitVec 8) :
    Computes (e.1 d a b) (plain2 e.2.1 d a b) one
      (fun c i => [BitVec.ofInt 32 (e.2.2 (c.read c.a i) (c.read c.b i).toNat)]) noSticky :=
  plain2_computes (f' := fun x y => BitVec.ofInt 32 (e.2.2 x y.toNat)) (hexec d a b) hop

theorem sat_eq_min (n bound : Nat) : sat n bound = min n bound := by
  unfold sat
  split <;> omega

/-- Settles O3: each shift is the word of its exact result, below a count of 32 and from there on. -/
theorem shiftAndRotate : Obligations.ShiftAndRotate := by
  intro e he
  simp only [shifts, List.mem_cons, List.not_mem_nil, or_false] at he
  rcases he with rfl | rfl | rfl | rfl <;> refine shift_computes (fun _ _ _ _ => rfl) fun x y => ?_
  -- SHL, SHR, SAR, ROT
  · exact ite_ofInt (shiftLeft_eq_ofInt x y.toNat)
  · exact ite_ofInt (ushiftRight_eq_ofInt x y.toNat)
  · exact sat_eq_min y.toNat 31 ▸ sshiftRight_eq_ofInt x _
  · exact rotateLeft_eq_ofInt x (Nat.mod_lt _ (by decide))

/-! ## Bit fields (05 R102) -/

theorem bitAt_eq_testBit (n i : Nat) : bitAt n i = n.testBit i := by
  rw [Nat.testBit_eq_decide_div_mod_eq]
  rfl

theorem testBit_bits (n lo len j : Nat) : (bits n lo len).testBit j = (decide (j < len) && n.testBit (lo + j)) := by
  rw [bits, Nat.testBit_mod_two_pow, Nat.testBit_div_two_pow, Nat.add_comm]

theorem getLsbD_wordOf {n j : Nat} (hj : j < 32) : (wordOf n).getLsbD j = n.testBit j := by
  rw [wordOf, BitVec.getLsbD_ofNat, decide_eq_true hj, Bool.true_and]

/-- The two's-complement reading of w bits is that of a bit vector. -/
theorem signedOf_eq_toInt (n w : Nat) : signedOf n w = (BitVec.ofNat w n).toInt := by
  rw [BitVec.toInt_eq_toNat_cond, BitVec.toNat_ofNat, signedOf]
  cases w with
  | zero => simp [Nat.mod_one]
  | succ w =>
    have hhalf : 2 ^ (w + 1) = 2 * 2 ^ w := Nat.pow_succ'
    have hiff : n % 2 ^ (w + 1) < 2 ^ (w + 1 - 1) ↔ 2 * (n % 2 ^ (w + 1)) < 2 ^ (w + 1) := by
      rw [Nat.add_sub_cancel]
      omega
    simp only [hiff]

theorem wordOf_wrap (z : Int) : wordOf (wrap z 32) = BitVec.ofInt 32 z := by
  have hnat : wrap z 32 = (BitVec.ofInt 32 z).toNat := BitVec.toNat_ofInt z |>.symm
  rw [wordOf, hnat, BitVec.ofNat_toNat, BitVec.setWidth_eq]

/-- A field of len bits, extended with its top bit. -/
theorem getLsbD_signExtended {f len j : Nat} (hj : j < 32) :
    (wordOf (wrap (signedOf f len) 32)).getLsbD j =
      if j < len then f.testBit j else decide (0 < len) && f.testBit (len - 1) := by
  rw [wordOf_wrap, signedOf_eq_toInt]
  change (BitVec.signExtend 32 _).getLsbD j = _
  rw [BitVec.getLsbD_signExtend, BitVec.msb_eq_getLsbD_last, BitVec.getLsbD_ofNat, BitVec.getLsbD_ofNat]
  by_cases hlen : j < len
  · simp [hj, hlen]
  · cases len <;> simp [hj, hlen]

/-- The position of a field, and its length, cut at bit 31 (05 R102). -/
def fieldPos (desc : Word) : Nat := desc.toNat % 256

def fieldLen (desc : Word) : Nat := min (desc.toNat / 256 % 256) (32 - fieldPos desc)

theorem bits_pos (desc : Word) : bits desc.toNat 0 8 = fieldPos desc := by simp [bits, fieldPos]

theorem sat_len (desc : Word) : sat (bits desc.toNat 8 8) (32 - fieldPos desc) = fieldLen desc := sat_eq_min _ _

theorem noField_iff (desc : Word) : bits desc.toNat 8 8 = 0 ∨ 32 ≤ fieldPos desc ↔ fieldLen desc = 0 := by
  rw [fieldLen, Nat.min_eq_zero_iff, Nat.sub_eq_zero_iff_le]
  rfl

/-- BFX gives 0 for an empty field, else the bits of the cut field, extended by S. -/
theorem bitExtract_eq (x desc : Word) : bitExtract x desc =
    if fieldLen desc = 0 then 0
    else
      let f := bits x.toNat (fieldPos desc) (fieldLen desc)
      wordOf (if bitAt desc.toNat 16 then wrap (signedOf f (fieldLen desc)) 32 else f) := by
  simp only [bitExtract, bits_pos, sat_len, noField_iff]

/-- BFI leaves the old value for an empty field, else it replaces the cut field. -/
theorem bitInsert_eq (old x desc : Word) : bitInsert old x desc =
    if fieldLen desc = 0 then old else wordOf (putBits old.toNat (fieldPos desc) (fieldLen desc) x.toNat) := by
  simp only [bitInsert, bits_pos, sat_len, noField_iff]

theorem getLsbD_bitExtract (x desc : Word) {j : Nat} (hj : j < 32) : (bitExtract x desc).getLsbD j =
    if j < fieldLen desc then x.getLsbD (fieldPos desc + j)
    else decide (0 < fieldLen desc) && desc.getLsbD 16 && x.getLsbD (fieldPos desc + fieldLen desc - 1) := by
  rw [bitExtract_eq]
  by_cases hempty : fieldLen desc = 0
  · simp [hempty]
  have hlen : 0 < fieldLen desc := Nat.pos_of_ne_zero hempty
  rw [if_neg hempty]
  have hsign : bitAt desc.toNat 16 = desc.getLsbD 16 := bitAt_eq_testBit _ _
  dsimp only
  rw [hsign]
  cases desc.getLsbD 16
  · rw [if_neg Bool.false_ne_true, getLsbD_wordOf hj, testBit_bits]
    by_cases hin : j < fieldLen desc <;> simp [hin, BitVec.getLsbD]
  · rw [if_pos rfl, getLsbD_signExtended hj, testBit_bits, testBit_bits, ← Nat.add_sub_assoc hlen]
    by_cases hin : j < fieldLen desc <;> simp [hin, hlen, BitVec.getLsbD]

theorem getLsbD_bitInsert (old x desc : Word) {j : Nat} (hj : j < 32) : (bitInsert old x desc).getLsbD j =
    if fieldPos desc ≤ j ∧ j < fieldPos desc + fieldLen desc then x.getLsbD (j - fieldPos desc) else old.getLsbD j := by
  rw [bitInsert_eq]
  split
  next hempty => rw [if_neg (by omega)]
  next => rw [getLsbD_wordOf hj, testBit_putBits]; rfl

theorem bfi_computes (d a b : BitVec 8) : Computes (.bfi d a b) (bfiForm d a b) one
    (fun c i => [bitInsert (c.read c.d i) (c.read c.a i) (c.read c.b i)]) noSticky := by
  refine computes_words (fun _ => rfl) rfl (fun _ => .inl rfl) (fun _ _ => rfl) fun c hu x y => ?_
  obtain ⟨hab, hd⟩ := Bool.and_eq_true_iff.1 hu
  obtain ⟨ha, hb⟩ := Bool.and_eq_true_iff.1 hab
  simp only [Ctx.read_uniform ha x y, Ctx.read_uniform hb x y, Ctx.read_uniform hd x y]

/-- Settles O4: both complete with their word, whose bits are those of the cut field. -/
theorem bitFields : Obligations.BitFields :=
  ⟨fun _ _ _ => plain2_computes (fun _ => rfl) fun _ _ => rfl, bfi_computes,
    fun x old desc _ hj => ⟨getLsbD_bitExtract x desc hj, getLsbD_bitInsert old x desc hj⟩⟩

/-! ## Select, constants, moves and addresses (05 R104 to R107) -/

theorem sel_computes (d a b : BitVec 8) : Computes (.sel d a b) (selForm d a b) one
    (fun c i => [if c.read (.pred 0 false) i = 0 then c.read c.b i else c.read c.a i]) noSticky := by
  refine computes_words (fun _ => rfl) rfl (fun _ => .inl rfl) (fun _ _ => rfl) fun c hu x y => ?_
  obtain ⟨hab, hp⟩ := Bool.and_eq_true_iff.1 hu
  obtain ⟨ha, hb⟩ := Bool.and_eq_true_iff.1 hab
  simp only [Ctx.read_uniform ha x y, Ctx.read_uniform hb x y, Ctx.read_uniform hp x y]

theorem li_computes (d : BitVec 8) (v : BitVec 16) : Computes (.li d v) (formI 0x2B d.toNat v.toNat (.dst .one .any)) one
    (fun _ _ => [BitVec.ofInt 32 v.toInt]) noSticky :=
  computes_words (fun _ => rfl) rfl (fun _ => .inl rfl) (fun _ _ => rfl) fun _ _ _ _ => rfl

theorem putBits_upperHalf (x : Word) (v : BitVec 16) : putBits x.toNat 16 16 v.toNat = v.toNat * 2 ^ 16 + x.toNat % 2 ^ 16 := by
  have hv : v.toNat % 2 ^ 16 = v.toNat := Nat.mod_eq_of_lt v.isLt
  have hx : x.toNat / 2 ^ 16 / 2 ^ 16 = 0 := by have := x.isLt; omega
  rw [putBits_eq, hv, hx, Nat.mul_zero, Nat.zero_add, Nat.mul_comm]

theorem lih_computes (d : BitVec 8) (v : BitVec 16) : Computes (.lih d v) (formI 0x2C d.toNat v.toNat (.acc .one .any)) one
    (fun c i => [BitVec.ofNat 32 (v.toNat * 2 ^ 16 + (c.read c.d i).toNat % 2 ^ 16)]) noSticky := by
  refine computes_alu (fun _ => rfl) rfl (fun _ => .inl rfl) (fun _ _ => rfl) (fun c i => ?_) (fun c hu x y => ?_)
    Ctx.flagsOf_noFlags
  · rw [putBits_upperHalf]
    rfl
  · simp only [Ctx.read_uniform hu x y]

theorem mov_computes (d a : BitVec 8) :
    Computes (.mov d a) (form3 0x2D d.toNat a.toNat 0 (.dst .one .any) (.src .one .any) .unused) one
      (fun c i => [c.read c.a i]) noSticky := by
  refine computes_words (fun _ => rfl) rfl (fun _ => .inl rfl) (fun _ _ => rfl) fun c hu x y => ?_
  simp only [Ctx.read_uniform hu x y]

theorem adda_computes (d a b : BitVec 8) : Computes (.adda d a b) (addaForm d a b) two
    (fun c i => pairWords (wrap ((c.readPair c.a i : Int) + (c.read c.b i).toInt) 64)) noSticky := by
  refine computes_words (fun _ => rfl) rfl (fun _ => .inr rfl) (fun _ _ => rfl) fun c hu x y => ?_
  obtain ⟨ha, hb⟩ := Bool.and_eq_true_iff.1 hu
  simp only [Ctx.readPair_uniform ha x y, Ctx.read_uniform hb x y]

theorem suba_computes (d a b : BitVec 8) : Computes (.suba d a b) (subaForm d a b) two
    (fun c i => pairWords (wrap ((c.readPair c.a i : Int) - c.readPair c.b i) 64)) noSticky := by
  refine computes_words (fun _ => rfl) rfl (fun _ => .inr rfl) (fun _ _ => rfl) fun c hu x y => ?_
  obtain ⟨ha, hb⟩ := Bool.and_eq_true_iff.1 hu
  simp only [Ctx.readPair_uniform ha x y, Ctx.readPair_uniform hb x y]

/-- Settles O5: each is a body whose words its row gives. -/
theorem selectMoveAddress : Obligations.SelectMoveAddress :=
  ⟨sel_computes, li_computes, lih_computes, mov_computes, adda_computes, suba_computes⟩

end Sys2Proof.Machine

/-! # Lane communication: shuffles, broadcast, votes, reductions and scans (05 R108 to R113) -/

namespace Sys2Proof.Machine

open Sys2Proof.Claims

/-! ## Shuffles and broadcast (05 R109, R110) -/

/-- A shuffle reads slot a in the threads that it names, and gives each thread the operand of its own. -/
theorem shuffle_computes {e : Three × Nat × Req × (Nat → Word → Int)}
    (hexec : ∀ d a b s, exec (e.1 d a b) s = shuffle e.2.1 d a b e.2.2.1 e.2.2.2 s) (d a b : BitVec 8) :
    Computes (e.1 d a b) (laneForm e.2.1 d.toNat a.toNat b.toNat (.dst .one .t) (.src .one .lane) (.src .one e.2.2.1)) one
      (fun c i =>
        let j := e.2.2.2 i (c.read c.b i)
        [c.read c.a (if 0 ≤ j ∧ j < (c.width : Int) then j.toNat else i)]) noSticky (shuffleReads e.2.2.2) :=
  computes_lane (hexec d a b) rfl rfl (fun _ => .inl rfl) (fun _ _ => rfl) fun _ _ _ => rfl

theorem laneShuffles : Claims.LaneShuffles := by
  intro e he
  simp only [shuffles, List.mem_cons, List.not_mem_nil, or_false] at he
  rcases he with rfl | rfl | rfl | rfl <;> exact shuffle_computes fun _ _ _ _ => rfl

theorem bcast_computes (d a b : BitVec 8) : Computes (.bcast d a b)
    (laneForm 0x34 d.toNat a.toNat b.toNat (.dst .one .any) (.src .one .lane) (.src .one .uniform)) one
    (fun c _ => [c.read c.a ((c.read c.b 0).toNat % c.width)]) noSticky bcastReads :=
  computes_lane (fun _ => rfl) rfl rfl (fun _ => .inl rfl) (fun _ _ => rfl) fun _ _ _ => rfl

/-! ## Votes (05 R111) -/

/-- Adding 2^w to a number below it sets bit w. -/
theorem testBit_add_two_pow {n w : Nat} (h : n < 2 ^ w) (i : Nat) : (n + 2 ^ w).testBit i = (decide (i = w) || n.testBit i) := by
  have hor : n + 2 ^ w = 2 ^ w ||| n := by
    have := Nat.two_pow_add_eq_or_of_lt h 1
    rwa [Nat.mul_one, Nat.add_comm] at this
  rw [hor, Nat.testBit_or, Nat.testBit_two_pow]
  simp only [eq_comm]

/-- The sum of the powers of two below 2^w for which p holds has those bits. -/
theorem maskSum_bits (w : Nat) (p : Nat → Bool) :
    let n := (List.range w).foldl (fun acc i => if p i then acc + 2 ^ i else acc) 0
    n < 2 ^ w ∧ ∀ i, n.testBit i = (decide (i < w) && p i) := by
  induction w with
  | zero => simp
  | succ w ih =>
    obtain ⟨hlt, hbit⟩ := ih
    simp only [List.range_succ, List.foldl_append, List.foldl_cons, List.foldl_nil]
    generalize (List.range w).foldl (fun acc i => if p i then acc + 2 ^ i else acc) 0 = n at hlt hbit ⊢
    have hpow : 2 ^ (w + 1) = 2 ^ w + 2 ^ w := Nat.two_pow_succ w
    refine ⟨by split <;> omega, fun i => ?_⟩
    have hlast : decide (i < w + 1) = (decide (i = w) || decide (i < w)) := by
      rw [← Bool.decide_or]
      exact decide_eq_decide.2 (by omega)
    rw [hlast]
    cases hp : p w
    · rw [if_neg Bool.false_ne_true, hbit]
      by_cases hi : i = w <;> simp [hi, hp]
    · rw [if_pos rfl, testBit_add_two_pow hlt, hbit]
      by_cases hi : i = w <;> simp [hi, hp]

theorem inMask_maskOf (p : Nat → Bool) (i : Nat) : inMask (maskOf 64 p) i = (decide (i < 64) && p i) := by
  rw [inMask, maskOf, dwordOf, BitVec.getLsbD_ofNat, (maskSum_bits 64 p).2]
  cases decide (i < 64) <;> rfl

theorem threadsOf_injective {x y : DWord} (h : threadsOf x = threadsOf y) : x = y :=
  mask_ext fun i => Bool.eq_iff_iff.2 (by rw [← mem_threadsOf, ← mem_threadsOf, h])

theorem threadsOf_eq_nil_iff {x : DWord} : threadsOf x = [] ↔ x = 0 :=
  ⟨fun h => threadsOf_injective (h.trans rfl), fun h => h ▸ rfl⟩

/-- The ballot is the mask of the voters. -/
theorem threadsOf_ballot (c : Ctx) : threadsOf c.ballot = voters c := by
  rw [voters, threadsOf, threadsOf, List.filter_filter]
  refine List.filter_congr fun i hi => ?_
  have hi : i < 64 := List.mem_range.1 hi
  rw [Ctx.ballot, inMask_and, inMask_maskOf, decide_eq_true hi, Bool.true_and, Bool.and_comm]

theorem voteAny_computes (d a : BitVec 8) : Computes (.voteAny d a) (voteForm 0x35 d a .one) one
    (fun c _ => [if voters c = [] then 0 else 1]) noSticky := by
  refine computes_lane (fun _ => rfl) rfl rfl (fun _ => .inl rfl) (fun _ _ => rfl) fun c _ i => ?_
  simp only [← threadsOf_ballot, threadsOf_eq_nil_iff]

theorem voteAll_computes (d a : BitVec 8) : Computes (.voteAll d a) (voteForm 0x36 d a .one) one
    (fun c _ => [if voters c = threadsOf c.active then 1 else 0]) noSticky := by
  refine computes_lane (fun _ => rfl) rfl rfl (fun _ => .inl rfl) (fun _ _ => rfl) fun c _ i => ?_
  have hall : threadsOf c.ballot = threadsOf c.active ↔ c.ballot = c.active := ⟨threadsOf_injective, congrArg _⟩
  simp only [← threadsOf_ballot, hall]

theorem voteBal_computes (d a : BitVec 8) (ballot : Ctx → DWord) (hballot : ∀ c, threadsOf (ballot c) = voters c) :
    Computes (.voteBal d a) (voteForm 0x37 d a (.regs 2 true)) two (fun c _ => pairWords (ballot c).toNat) noSticky := by
  refine computes_lane (fun _ => rfl) rfl rfl (fun _ => .inr rfl) (fun _ _ => rfl) fun c _ i => ?_
  rw [threadsOf_injective ((threadsOf_ballot c).trans (hballot c).symm)]

/-- Settles O6: a lane instruction reads before it writes, and the ballot is the mask of the voters. -/
theorem laneExchange : Obligations.LaneExchange :=
  ⟨laneShuffles, bcast_computes, voteAny_computes, voteAll_computes, voteBal_computes⟩

/-! ## Reductions and scans (05 R112, R113) -/

/-- An operation, folded over values after a first one, agrees modulo 2^w with an exact combination of them all. -/
def FoldsTo (op : IType → Nat → Nat → Nat) (total : IType → List Nat → Int) : Prop :=
  ∀ (t : IType) (x : Nat) (l : List Nat), ((l.foldl (op t) x : Nat) : Int) ≡ total t (x :: l) [ZMOD 2 ^ t.w]

theorem addTyped_folds : FoldsTo addTyped addAll := by
  intro t x l
  induction l generalizing x with
  | nil => simpa [addAll] using (t.value_modEq x).symm
  | cons y l ih =>
    have hstep := (t.value_modEq _).trans (addTyped_modEq t x y)
    have hsum := hstep.add_right (l.map t.value).sum
    simp only [addAll, List.map_cons, List.sum_cons, List.foldl_cons] at ih ⊢
    rw [← add_assoc]
    exact (ih _).trans hsum

/-- A fold of an operation that picks one of two values is the fold of the pick. -/
theorem value_foldl {t : IType} {op : Nat → Nat → Nat} {pick : Int → Int → Int}
    (h : ∀ x y, t.value (op x y) = pick (t.value x) (t.value y)) (x : Nat) (l : List Nat) :
    t.value (l.foldl op x) = (l.map t.value).foldl pick (t.value x) := by
  induction l generalizing x with
  | nil => rfl
  | cons y l ih => rw [List.foldl_cons, ih, h, List.map_cons, List.foldl_cons]

theorem minTyped_folds : FoldsTo minTyped minAll := by
  intro t x l
  have hfold : minAll t (x :: l) = t.value (l.foldl (minTyped t) x) := by
    rw [value_foldl (minTyped_value t), minAll, List.map_cons, List.foldl_cons, List.headD_cons, min_self]
  exact hfold ▸ (t.value_modEq _).symm

theorem maxTyped_folds : FoldsTo maxTyped maxAll := by
  intro t x l
  have hfold : maxAll t (x :: l) = t.value (l.foldl (maxTyped t) x) := by
    rw [value_foldl (maxTyped_value t), maxAll, List.map_cons, List.foldl_cons, List.headD_cons, max_self]
  exact hfold ▸ (t.value_modEq _).symm

/-- The words of operands that are combined in thread order. -/
theorem combine_words {op : IType → Nat → Nat → Nat} {total : IType → List Nat → Int} (h : FoldsTo op total) (c : Ctx)
    (x : Nat) (l : List Nat) : c.itype.words (combine op c x l) =
      c.itype.words (wrap (total c.itype (x :: l.map c.laneValue)) c.itype.w) := by
  rw [combine, ← List.foldl_map (f := c.laneValue) (g := op c.itype)]
  exact IType.words_eq_of_modEq (h c.itype x _)

theorem reduce_computes {e : Two × Nat × (IType → List Nat → Int)} {op : IType → Nat → Nat → Nat}
    (hexec : ∀ d a s, exec (e.1 d a) s = s.issue (reduceForm e.2.1 d a) (reduceBody op)) (hop : FoldsTo op e.2.2)
    (d a : BitVec 8) : Computes (e.1 d a) (reduceForm e.2.1 d a) regsOfType
      (fun c _ => c.itype.words (wrap (e.2.2 c.itype (laneValues c)) c.itype.w)) noSticky := by
  refine computes_lane (hexec d a) rfl rfl regsOfType_cases (fun _ _ => IType.words_length _ _) fun c hactive i => ?_
  obtain ⟨first, rest, hthreads⟩ := List.exists_cons_of_ne_nil (threadsOf_ne_nil hactive)
  rw [combine_words hop, laneValues, hthreads]
  rfl

theorem scan_computes {e : Three × Nat × (IType → List Nat → Int)} {op : IType → Nat → Nat → Nat}
    (hexec : ∀ d a b s, exec (e.1 d a b) s = s.issue (scanForm e.2.1 d a b) (scanBody op)) (hop : FoldsTo op e.2.2)
    (d a b : BitVec 8) : Computes (e.1 d a b) (scanForm e.2.1 d a b) regsOfType
      (fun c i => c.itype.words (wrap (e.2.2 c.itype (scanned c i)) c.itype.w)) noSticky :=
  computes_lane (hexec d a b) rfl rfl regsOfType_cases (fun _ _ => IType.words_length _ _)
    fun c _ _ => combine_words hop c _ _

/-- Settles O7: a fold in thread order agrees modulo 2^w with the exact sum, minimum or maximum. -/
theorem reductionsAndScans : Obligations.ReductionsAndScans := by
  refine ⟨fun e he => ?_, fun e he => ?_⟩
  · simp only [reductions, List.mem_cons, List.not_mem_nil, or_false] at he
    rcases he with rfl | rfl | rfl
    · exact reduce_computes (fun _ _ _ => rfl) addTyped_folds
    · exact reduce_computes (fun _ _ _ => rfl) minTyped_folds
    · exact reduce_computes (fun _ _ _ => rfl) maxTyped_folds
  · simp only [scans, List.mem_cons, List.not_mem_nil, or_false] at he
    rcases he with rfl | rfl
    · exact scan_computes (fun _ _ _ _ => rfl) addTyped_folds
    · exact scan_computes (fun _ _ _ _ => rfl) maxTyped_folds

end Sys2Proof.Machine

/-! # Floating point: results and their flags (06 R126 to R134)

A floating instruction is one body whose runs each give a bit pattern and flags; the flags of its runs are added. -/

namespace Sys2Proof.Machine

open Sys2Proof.Claims

/-! ## Instructions that give a floating pattern -/

/-- A floating instruction with a register destination completes with the pattern and the flags of each run. -/
theorem computes_float {i : Instr} {f : Form} {uni : Ctx → Bool} {op op' : Ctx → Nat → Nat × BitVec 6}
    (hexec : ∀ s, exec i s = s.issue f (floatBody uni op)) (hdest : f.d.kind.writes = true)
    (huni : ∀ c, uni c = true → ∀ x y, op c x = op c y) (hop : ∀ c i, op c i = op' c i) :
    Computes i f one (fun c i => [wordOf (op' c i).1]) (stickyOf fun c i => (op' c i).2) := by
  obtain rfl : op = op' := funext fun c => funext (hop c)
  exact computes_alu hexec hdest (fun _ => .inl rfl) (fun _ _ => rfl) (fun _ _ => rfl)
    (fun c hu x y => by rw [huni c hu x y]) (fun _ => rfl)

theorem float2_computes {e : Three × Nat × (FFormat → FMode → Nat → Nat → Nat × BitVec 6)}
    (hexec : ∀ d a b s, exec (e.1 d a b) s = s.issue (plain2 e.2.1 d a b) (float2 e.2.2)) (d a b : BitVec 8) :
    Computes (e.1 d a b) (plain2 e.2.1 d a b) one
      (fun c i => [wordOf (e.2.2 c.ffmt c.fmode (fltA c i) (fltB c i)).1])
      (stickyOf fun c i => (e.2.2 c.ffmt c.fmode (fltA c i) (fltB c i)).2) := by
  refine computes_float (op' := fun c i => e.2.2 c.ffmt c.fmode (fltA c i) (fltB c i)) (hexec d a b) rfl (fun c hu x y => ?_)
    fun _ _ => rfl
  obtain ⟨ha, hb⟩ := Bool.and_eq_true_iff.1 hu
  simp only [Ctx.fread, Ctx.read_uniform ha x y, Ctx.read_uniform hb x y]

theorem fused_computes {e : Three × Nat × Bool}
    (hexec : ∀ d a b s, exec (e.1 d a b) s = s.issue (fmaForm e.2.1 d a b) (fmaBody e.2.2)) (d a b : BitVec 8) :
    Computes (e.1 d a b) (fmaForm e.2.1 d a b) one
      (fun c i => [wordOf (fma e.2.2 c.ffmt c.fmode (fltA c i) (fltB c i) (fltD c i)).1])
      (stickyOf fun c i => (fma e.2.2 c.ffmt c.fmode (fltA c i) (fltB c i) (fltD c i)).2) := by
  refine computes_float (op' := fun c i => fma e.2.2 c.ffmt c.fmode (fltA c i) (fltB c i) (fltD c i)) (hexec d a b) rfl
    (fun c hu x y => ?_) fun _ _ => rfl
  obtain ⟨hab, hd⟩ := Bool.and_eq_true_iff.1 hu
  obtain ⟨ha, hb⟩ := Bool.and_eq_true_iff.1 hab
  simp only [Ctx.fread, Ctx.read_uniform ha x y, Ctx.read_uniform hb x y, Ctx.read_uniform hd x y]

/-- A row with one source: its operation agrees with the stated one in the format of FTYPE. -/
theorem float1_computes {e : Two × Nat × (FFormat → FMode → Nat → Nat × BitVec 6)}
    {f : FFormat → FMode → Nat → Nat × BitVec 6}
    (hexec : ∀ d a s, exec (e.1 d a) s = s.issue (plain1 e.2.1 d a) (float1 f))
    (hop : ∀ (c : Ctx) (x : Nat), f c.ffmt c.fmode x = e.2.2 c.ffmt c.fmode x) (d a : BitVec 8) :
    Computes (e.1 d a) (plain1 e.2.1 d a) one
      (fun c i => [wordOf (e.2.2 c.ffmt c.fmode (fltA c i)).1])
      (stickyOf fun c i => (e.2.2 c.ffmt c.fmode (fltA c i)).2) := by
  refine computes_float (op' := fun c i => e.2.2 c.ffmt c.fmode (fltA c i)) (hexec d a) rfl (fun c hu x y => ?_)
    fun c i => hop c _
  simp only [Ctx.fread, Ctx.read_uniform hu x y]

/-! ## The sign bit (06 R129) -/

theorem FFormat.ofCode_width_pos (code : Nat) : 0 < (FFormat.ofCode code).width := by
  unfold FFormat.ofCode
  split
  · decide
  · split <;> decide

/-- Flipping the top bit of w bits adds half of 2^w, modulo 2^w. -/
theorem flipSign_eq_add_half (f : FFormat) (hw : 0 < f.width) (x : Nat) :
    x % 2 ^ (f.width - 1) + f.signBit (!bitAt x (f.width - 1)) = (x + 2 ^ (f.width - 1)) % 2 ^ f.width := by
  have hwhole : 2 ^ f.width = 2 ^ (f.width - 1) * 2 := (Nat.pow_pred_mul hw).symm
  rw [hwhole, Nat.mod_mul, Nat.add_mod_right, Nat.add_div_right _ (Nat.two_pow_pos _), FFormat.signBit, bitAt]
  obtain htop | htop := Nat.mod_two_eq_zero_or_one (x / 2 ^ (f.width - 1))
  · have hflip : (x / 2 ^ (f.width - 1)).succ % 2 = 1 := by omega
    simp [htop, hflip]
  · have hflip : (x / 2 ^ (f.width - 1)).succ % 2 = 0 := by omega
    simp [htop, hflip]

theorem floatArithmetic_computes : Claims.FloatArithmetic := by
  refine ⟨fun e he => ?_, fun e he => ?_, fun e he => ?_⟩
  · simp only [floats2, List.mem_cons, List.not_mem_nil, or_false] at he
    rcases he with rfl | rfl | rfl | rfl | rfl | rfl <;> exact float2_computes fun _ _ _ _ => rfl
  · simp only [fused, List.mem_cons, List.not_mem_nil, or_false] at he
    rcases he with rfl | rfl <;> exact fused_computes fun _ _ _ _ => rfl
  · simp only [floats1, List.mem_cons, List.not_mem_nil, or_false] at he
    rcases he with rfl | rfl | rfl | rfl | rfl | rfl | rfl | rfl <;>
      refine float1_computes (fun _ _ _ => rfl) fun c x => ?_
    -- FNEG flips the sign bit, where its row adds half of 2^w; the other rows are the model's own operations.
    case inr.inr.inr.inr.inl => exact congrArg (·, 0) (flipSign_eq_add_half _ (FFormat.ofCode_width_pos _) x)
    all_goals rfl

/-! ## Compares and conversions (06 R130 to R132) -/

/-- An instruction whose body computes a bit for a predicate destination completes with it. -/
theorem computes_predicate {i : Instr} {f : Form} {uni : Ctx → Bool} {bit : Ctx → Nat → Bool}
    {fl : Ctx → Nat → BitVec 6} (hdest : f.d.kind = .pdst)
    (hexec : ∀ s, exec i s = s.issue f (aluBody uni (fun c i => [if bit c i then 1 else 0]) fl))
    (huni : ∀ c, uni c = true → ∀ x y, bit c x = bit c y) :
    Computes i f one (fun c i => [if bit c i then 1 else 0]) (stickyOf fl) := by
  intro s g h hclear
  have hd : (s.ctxOf f g).d = .pred f.d.code false := by
    change (f.d.resolve _ _ _ 0).o = _
    rw [Slot.resolve, hdest]
  have hbit : ∀ i, ([if bit (s.ctxOf f g) i then 1 else 0] : List Word).getD 0 0 = 0 ∨
      ([if bit (s.ctxOf f g) i then 1 else 0] : List Word).getD 0 0 = 1 := fun i => by cases bit (s.ctxOf f g) i <;> simp
  obtain ⟨k, hbody, hresult⟩ := aluBody_result uni (fun c i => [if bit c i then 1 else 0]) fl (s.ctxOf f g) s 1 (.inl rfl)
    (fun _ => rfl) (fun hu x y => by rw [huni _ hu x y])
    (fun n inv hpred => by cases hd.symm.trans hpred; exact ⟨rfl, hbit⟩) hclear
  exact ⟨_, k, by rw [hexec, State.issue_runs _ h, hbody], onlyGroup_putGroup s k, hresult⟩

theorem fcompareBody_eq (kind : Nat) : fcompareBody kind = aluBody (fun c => c.uniAB 32)
    (fun c i => [if (fcompare kind c.ffmt c.fmode (fltA c i) (fltB c i)).1 then 1 else 0])
    (fun c i => (fcompare kind c.ffmt c.fmode (fltA c i) (fltB c i)).2) := by
  have hword : ∀ p : Bool, (if p then 1 else 0 : Word) = wordOf (if p then 1 else 0) := by decide
  simp only [hword]
  rfl

theorem fcompare_computes {e : (BitVec 3 → BitVec 8 → BitVec 8 → Instr) × Nat × Nat}
    (hexec : ∀ d a b s, exec (e.1 d a b) s = s.issue (fcompareForm e.2.1 d a b) (fcompareBody e.2.2))
    (d : BitVec 3) (a b : BitVec 8) : Computes (e.1 d a b) (fcompareForm e.2.1 d a b) one
      (fun c i => [if (fcompare e.2.2 c.ffmt c.fmode (fltA c i) (fltB c i)).1 then 1 else 0])
      (stickyOf fun c i => (fcompare e.2.2 c.ffmt c.fmode (fltA c i) (fltB c i)).2) := by
  refine computes_predicate rfl (fun s => fcompareBody_eq e.2.2 ▸ hexec d a b s) fun c hu x y => ?_
  obtain ⟨ha, hb⟩ := Bool.and_eq_true_iff.1 hu
  simp only [fltA, fltB, Ctx.read_uniform ha x y, Ctx.read_uniform hb x y]

theorem cvtfi_computes (d a : BitVec 8) : Computes (.cvtfi d a) (cvtfiForm d a) regsOfType
    (fun c i => c.itype.words (toInteger c.ffmt c.fmode c.itype.w c.itype.signed (fltA c i)).1)
    (stickyOf fun c i => (toInteger c.ffmt c.fmode c.itype.w c.itype.signed (fltA c i)).2) := by
  refine computes_alu (fun _ => rfl) rfl regsOfType_cases (fun _ _ => IType.words_length _ _) (fun _ _ => rfl)
    (fun c hu x y => ?_) fun _ => rfl
  simp only [Ctx.fread, Ctx.read_uniform hu x y]

theorem cvtif_computes (d a : BitVec 8) : Computes (.cvtif d a) (cvtifForm d a) one
    (fun c i => [wordOf (c.ffmt.ofInt c.fmode (c.itype.value (srcA c i))).1])
    (stickyOf fun c i => (c.ffmt.ofInt c.fmode (c.itype.value (srcA c i))).2) := by
  refine computes_float (op' := fun c i => c.ffmt.ofInt c.fmode (c.itype.value (srcA c i))) (fun _ => rfl) rfl
    (fun c hu x y => ?_) fun _ _ => rfl
  simp only [Ctx.readBits_uniform hu x y]

theorem floatCompareConvert_computes : Claims.FloatCompareConvert := by
  refine ⟨fun e he => ?_, cvtfi_computes, cvtif_computes⟩
  simp only [floatCompares, List.mem_cons, List.not_mem_nil, or_false] at he
  rcases he with rfl | rfl | rfl | rfl <;> exact fcompare_computes fun _ _ _ _ => rfl

/-- Settles O8: each row is a body of one pattern, of a typed result, or of a predicate, with the flags of its runs added. -/
theorem floatResults : Obligations.FloatResults := ⟨floatArithmetic_computes, floatCompareConvert_computes⟩

end Sys2Proof.Machine

/-! # The sticky flags and the 64-bit floating words (06 R124, R125, 03 R58) -/

namespace Sys2Proof.Machine

open Sys2Proof.Claims

/-- A destination that must be a g register or `zero` names one of them (04 Table 4.2). -/
theorem ctxOf_dest_gz {s : State} {g : Group} {f : Form} {w : Wd} (hkind : f.d.kind = .dst w .gz)
    (hranks : f.ranksIllegal (s.issueOf f g).mode = false) :
    (∃ n, (s.ctxOf f g).d = .g n) ∨ (s.ctxOf f g).d = .zero := by
  have hrank : f.d.rankBad f.d.wide = false := by
    simp only [Form.ranksIllegal, Bool.or_eq_false_iff] at hranks
    exact hranks.1.1.2
  have hcode : 0x80 ≤ f.d.code ∧ f.d.code < 0xC0 ∨ f.d.code = 0xF8 := by
    simpa [Slot.rankBad, hkind, or_iff_not_imp_left] using hrank
  change (∃ n, (f.d.resolve _ _ _ 0).o = .g n) ∨ (f.d.resolve _ _ _ 0).o = .zero
  rw [Slot.resolve, hkind]
  dsimp only
  rcases hcode with ⟨hlo, hhi⟩ | hzero
  · left
    have hblock : blockOf f.d.code = some 1 := by rw [blockOf, if_neg (by omega), if_pos (by omega)]
    rw [resolveReg, hblock]
    exact ⟨_, rfl⟩
  · right
    rw [hzero]
    rfl

/-- The group with other sticky flags. -/
def Group.withSticky (g : Group) (flags : BitVec 6) : Group := g.onArch fun a => { a with sticky := flags }

/-- A write to a g register or `zero`, before new sticky flags or after them, is the body of a result without flags. -/
theorem aluBody_setGOperand {c : Ctx} (hd : (∃ n, c.d = .g n) ∨ c.d = .zero) (v : Word) (flags : BitVec 6) (s : State) :
    aluBody (fun _ => false) (fun _ _ => [v]) noFlags { c with g := c.g.withSticky flags } s =
      s.putGroup ((c.g.setGOperand c.d [v]).withSticky flags).advance := by
  have hnone : ∀ c : Ctx, c.flagsOf (noFlags c) = 0#6 := Ctx.flagsOf_noFlags
  simp only [aluBody, hnone, BitVec.or_zero]
  rcases hd with ⟨n, hd⟩ | hd <;> rw [hd] <;> rfl

/-- A word written to a g register or `zero`, with new sticky flags, is a result in the group that has those flags. -/
theorem setGOperand_result {c : Ctx} (hd : (∃ n, c.d = .g n) ∨ c.d = .zero) (v : Word) (flags : BitVec 6) (s : State) :
    ∃ h, s.putGroup ((c.g.setGOperand c.d [v]).withSticky flags).advance = s.putGroup h ∧ h.arch.sticky = flags ∧
      Result { c with g := c.g.withSticky flags } 1 (fun _ => [v]) 0 h := by
  have hclear : ∀ k, k < 1 → Ctx.crumbsClear { c with g := c.g.withSticky flags } (c.d.nth k) := by
    intro k hk
    obtain rfl : k = 0 := by omega
    rcases hd with ⟨n, hd⟩ | hd <;> simp [hd, Ctx.crumbsClear]
  obtain ⟨h, hbody, hresult⟩ := aluBody_result (fun _ => false) (fun _ _ => [v]) noFlags
    { c with g := c.g.withSticky flags } s 1 (.inl rfl) (fun _ => rfl) (fun hu => by cases hu)
    (fun n inv hp => by rcases hd with ⟨m, hd⟩ | hd <;> cases hd.symm.trans hp) hclear
  rw [foldl_noFlags] at hresult
  exact ⟨h, (aluBody_setGOperand hd v flags s).symm.trans hbody, hresult.sticky.trans BitVec.or_zero, hresult⟩

/-- FFLAGS is a result without flags in a group whose sticky flags are those that are left. -/
theorem fflags_result {d a : BitVec 8} {s : State} {g : Group} (h : Runs s g (fflagsForm d a)) :
    ∃ t h', exec (.fflags d a) s = .next t ∧ OnlyGroup s t h' ∧
      h'.arch.sticky = g.arch.sticky &&& ~~~ ((s.ctxOf (fflagsForm d a) g).read (s.ctxOf (fflagsForm d a) g).a 0).setWidth 6 ∧
      Result { s.ctxOf (fflagsForm d a) g with g := { g with arch := { g.arch with sticky := h'.arch.sticky } } } 1
        (fun _ => [g.arch.sticky.setWidth 32]) 0 h' := by
  obtain ⟨k, hput, hsticky, hresult⟩ := setGOperand_result (ctxOf_dest_gz rfl h.ranks) _ _ s
  refine ⟨_, k, (State.issue_runs _ h).trans (congrArg _ hput), onlyGroup_putGroup s k, hsticky, ?_⟩
  have hword : g.arch.sticky.setWidth 32 = wordOf g.arch.sticky.toNat := (BitVec.ofNat_toNat _ _).symm
  rw [hsticky, hword]
  exact hresult

theorem stickyFlags : Claims.StickyFlags := by
  refine ⟨fun s g h => ⟨fun hnone => ?_, fun hsome => ?_⟩, fun d a s g h => fflags_result h⟩
  · exact (State.issue_runs _ h).trans (congrArg _ (if_pos hnone))
  · exact (State.issue_runs _ h).trans (congrArg _ (if_neg hsome))

theorem exec_wideFloat {op : Nat} {d a b : BitVec 8} {s : State} {g : Group} (h : s.group? s.cur = some g) :
    ∃ f : Form, f.word = word3 op d.toNat a.toNat b.toNat ∧
      wideFloat op d a b s = .next (s.trapForm f (s.issueOf f g) 0x01 0x05 0) := by
  rw [wideFloat, h]
  exact ⟨form3 op d.toNat a.toNat b.toNat (.acc (.regs 2 true) .any) (.src (.regs 2 true) .any) (.src (.regs 2 true) .any),
    rfl, rfl⟩

theorem wideFloatTraps : Claims.WideFloatTraps := by
  intro e he d a b s g h
  simp only [wideFloats, List.mem_cons, List.not_mem_nil, or_false] at he
  rcases he with rfl | rfl | rfl | rfl | rfl | rfl <;> exact exec_wideFloat h

/-- Settles O10: TFENCE tests the enabled flags, FFLAGS writes a g register or discards, and a 64-bit word always traps. -/
theorem stickyAndWideFloat : Obligations.StickyAndWideFloat := ⟨stickyFlags, wideFloatTraps⟩

end Sys2Proof.Machine

/-! # QUANT and DEQ (06 R140 to R142, 02 R30)

O9 fails, and only in one check. Slot a of DEQ is a pair source, so that a special other than `zero` in it is a rank violation
(02 R30), which comes before the descriptor is read (03 R60). The model's form of DEQ has that check, and the statement's
`deqForm` lacks it. With the model's form what O9 says of DEQ holds, and so does what it says of QUANT. -/

namespace Sys2Proof.Machine

open Sys2Proof.Claims

/-! ## The two parts of O9 -/

/-- What O9 says of QUANT. -/
def QuantCompletes : Prop :=
  ∀ (d a b : BitVec 8) (s : State) (g : Group), Runs s g (quantForm d a b) (reads := descriptorReads) →
    let c := s.ctxOf (quantForm d a b) g
    (quantBad (desc c) c.width = true →
      exec (.quant d a b) s = .next (s.trapForm (quantForm d a b) (s.issueOf (quantForm d a b) g) 0x07 0x04 0)) ∧
    (quantBad (desc c) c.width = false → c.beyond c.a (quantElements c) = false →
      c.emptyIn c.a (quantElements c) (threadsOf c.active) = false → c.emptyIn c.d 2 (threadsOf c.active) = false →
      (∀ k, k < 2 → c.crumbsClear (c.d.nth k)) →
      ∃ t h, exec (.quant d a b) s = .next t ∧ OnlyGroup s t h ∧
        Result c 2 (fun i => [packCodes (c.quantOf (desc c) i).2.1, (c.quantOf (desc c) i).1])
          (stickyOf (fun c i => (c.quantOf (desc c) i).2.2) c) h)

/-- What O9 says of DEQ, for the form that the checks of its issue look at. -/
def DeqCompletes (form : BitVec 8 → BitVec 8 → BitVec 8 → Form) : Prop :=
  ∀ (d a b : BitVec 8) (s : State) (g : Group), Runs s g (form d a b) (reads := descriptorReads) →
    let c := s.ctxOf (form d a b) g
    (deqBad (desc c) = true →
      exec (.deq d a b) s = .next (s.trapForm (form d a b) (s.issueOf (form d a b) g) 0x07 0x04 0)) ∧
    (deqBad (desc c) = false → (c.d = .zero ∨ c.beyond c.d (deqElements c) = false) →
      c.emptyIn c.a 2 c.activeReads.a = false → c.emptyIn c.d (deqElements c) c.activeReads.d = false →
      (∀ k, k < deqElements c → c.crumbsClear (c.d.nth k)) →
      ∃ t h, exec (.deq d a b) s = .next t ∧ OnlyGroup s t h ∧
        Result c (deqElements c) (fun i => (List.range (deqElements c)).map fun e => wordOf (c.deqOf (desc c) i e).1)
          (stickyOf (fun c i => (List.range (deqElements c)).foldl (fun acc e => acc ||| (c.deqOf (desc c) i e).2) 0) c) h)

theorem quantAndDeq_iff : Obligations.QuantAndDeq ↔ QuantCompletes ∧ DeqCompletes deqForm := Iff.rfl

/-! ## QUANT -/

/-- A lane instruction that no stop cuts gives its result whole (05 R108). -/
theorem laneCommit_result {c : Ctx} {n : Nat} {val : Nat → List Word} (flags : Nat → BitVec 6) (s : State)
    (hwhole : c.g.stopAt = none) (hn : n = 1 ∨ n = 2) (hlen : ∀ i, (val i).length = n) (hd : ∀ k inv, c.d ≠ .pred k inv)
    (hclear : ∀ k, k < n → c.crumbsClear (c.d.nth k)) :
    ∃ h, laneCommit c val flags s = s.putGroup h ∧ Result c n val (c.flagsOf flags) h := by
  rw [laneCommit_whole c val flags s hwhole]
  exact aluBody_result (fun _ => false) (fun _ => val) (fun _ => flags) c s n hn hlen (fun hu => by cases hu)
    (fun k inv hpred => absurd hpred (hd k inv)) hclear

/-- The codes and the scale that QUANT writes for a thread, and the flags of its block. -/
def Ctx.quantWords (c : Ctx) (i : Nat) : List Word := [packCodes (c.quantOf (desc c) i).2.1, (c.quantOf (desc c) i).1]

def Ctx.quantFlags (c : Ctx) (i : Nat) : BitVec 6 := (c.quantOf (desc c) i).2.2

theorem Ctx.quantWords_length (c : Ctx) (i : Nat) : (c.quantWords i).length = 2 := rfl

/-- QUANT past its own checks writes codes and scale as a lane instruction. -/
theorem quantBody_writes (f : Form) {c : Ctx} (s : State) (hdesc : quantBad (desc c) c.width = false)
    (hrange : c.beyond c.a (quantElements c) = false)
    (ha : c.emptyIn c.a (quantElements c) (threadsOf c.active) = false) (hd : c.emptyIn c.d 2 (threadsOf c.active) = false) :
    quantBody f c s = laneCommit c c.quantWords c.quantFlags s := by
  rw [← Bool.not_eq_true] at hdesc hrange ha hd
  exact (if_neg hdesc).trans ((if_neg hrange).trans ((if_neg ha).trans (if_neg hd)))

theorem exec_quant (d a b : BitVec 8) (s : State) :
    exec (.quant d a b) s = s.issue (quantForm d a b) (quantBody (quantForm d a b)) (reads := descriptorReads) := rfl

theorem quantBody_traps (f : Form) {c : Ctx} (s : State) (hdesc : quantBad (desc c) c.width = true) :
    quantBody f c s = c.trap f s 0x07 0x04 0 := if_pos hdesc

theorem quantCompletes : QuantCompletes := by
  intro d a b s g h
  have hrun := (exec_quant d a b s).trans (State.issue_runs _ h)
  refine ⟨fun hbad => ?_, fun hdesc hrange ha hd hclear => ?_⟩
  · exact hrun.trans (congrArg _ (quantBody_traps _ s hbad))
  · obtain ⟨k, hlane, hresult⟩ := laneCommit_result (s.ctxOf (quantForm d a b) g).quantFlags s h.whole (.inr rfl)
      (Ctx.quantWords_length _) (ctxOf_dest_ne_pred rfl s g) hclear
    have hbody := (quantBody_writes (quantForm d a b) s hdesc hrange ha hd).trans hlane
    exact ⟨_, k, hrun.trans (congrArg _ hbody), onlyGroup_putGroup s k, hresult⟩

/-! ## A result in several registers -/

/-- A t, g or m register, whose next registers are of the same rank. -/
def Operand.isBlock (o : Operand) : Bool :=
  match o with
  | .t _ | .g _ | .m _ => true
  | _ => false

theorem Operand.nth_eq_above {o : Operand} (h : o.isBlock = true) (k : Nat) : o.nth k = o.above k := by
  unfold Operand.nth
  split
  next hk =>
    subst hk
    cases o with
    | t n | g n | m n => rfl
    | _ => cases h
  next => rfl

theorem Operand.nth_isBlock {o : Operand} (h : o.isBlock = true) (k : Nat) : (o.nth k).isBlock = true := by
  rw [nth_eq_above h]
  cases o with
  | t n | g n | m n => rfl
  | _ => cases h

theorem Operand.nth_not_same {o : Operand} (h : o.isBlock = true) {j k : Nat} (hjk : j ≠ k) :
    (o.nth j).same (o.nth k) = false := by
  rw [nth_eq_above h, nth_eq_above h]
  cases o with
  | t n | g n | m n => simp [Operand.same, Operand.above, hjk]
  | _ => cases h

theorem Operand.discards_of_isBlock {o : Operand} (h : o.isBlock = true) : o.discards = false := by
  cases o with
  | t n | g n | m n => rfl
  | _ => cases h

theorem Operand.ne_pred_of_isBlock {o : Operand} (h : o.isBlock = true) (n : Nat) (inv : Bool) : o ≠ .pred n inv := by
  rintro rfl
  cases h

/-- An operand that is no predicate is a block register, or every write to it and to the registers above it is discarded. -/
theorem Operand.isBlock_or_discards {o : Operand} (h : ∀ n inv, o ≠ .pred n inv) :
    o.isBlock = true ∨ ∀ k, (o.nth k).discards = true ∧ (o.above k).discards = true := by
  cases o with
  | t n | g n | m n => exact .inl rfl
  | pred n inv => exact absurd rfl (h n inv)
  | _ => exact .inr fun k => by cases k <;> exact ⟨rfl, rfl⟩

theorem Ctx.write1_of_discards (c : Ctx) {o : Operand} (h : o.discards = true) (uni : Bool) (val : Nat → Word) (g : Group) :
    c.write1 o uni val g = g := by
  cases o with
  | t n | g n | m n | pred n inv => cases h
  | _ => rfl

/-- A write to another name leaves the crumbs of a block register as they are. -/
theorem Ctx.crumbsClear_write1_other (c : Ctx) {o o' : Operand} (hblock : o'.isBlock = true) (h : o.same o' = false)
    (uni : Bool) (val : Nat → Word) (g : Group) (hclear : (c.later g).crumbsClear o') :
    (c.later (c.write1 o uni val g)).crumbsClear o' := by
  cases o' with
  | t m =>
    have hname : (c.write1 o uni val g).arch.t.getD m Ranked.zero = g.arch.t.getD m Ranked.zero := by
      cases o with
      | t n =>
        have hm : m ≠ n := by rintro rfl; simp [Operand.same] at h
        exact (getD_putAt _ _ _ _ _).trans (if_neg hm)
      | _ => rfl
    unfold crumbsClear at hclear ⊢
    rw [Ctx.later] at hclear ⊢
    dsimp only at hclear ⊢
    rw [hname]
    exact hclear
  | g m | m m => intro hany; cases hany
  | _ => cases hblock

/-- The group after a word for each of n consecutive registers from slot d is written. -/
def Ctx.writeRegs (c : Ctx) (uni : Bool) (val : Nat → Nat → Word) (n : Nat) : Group :=
  (List.range n).foldl (fun g e => (c.roomAfter c.g g).write1 (c.d.above e) uni (val e) g) c.g

theorem Ctx.writeRegs_succ (c : Ctx) (uni : Bool) (val : Nat → Nat → Word) (n : Nat) :
    c.writeRegs uni val (n + 1) = (c.roomAfter c.g (c.writeRegs uni val n)).write1 (c.d.above n) uni (val n)
      (c.writeRegs uni val n) := by
  rw [writeRegs, List.range_succ, List.foldl_append]
  rfl

theorem Ctx.writeRegs_of_discards (c : Ctx) (h : ∀ k, (c.d.above k).discards = true) (uni : Bool) (val : Nat → Nat → Word)
    (n : Nat) : c.writeRegs uni val n = c.g := by
  induction n with
  | zero => rfl
  | succ n ih => rw [writeRegs_succ, write1_of_discards _ (h n), ih]

/-- They change register copies and nothing else. -/
theorem Ctx.writeRegs_rest (c : Ctx) (uni : Bool) (val : Nat → Nat → Word) (n : Nat) :
    c.writeRegs uni val n =
      { c.g with
        arch := { c.g.arch with
          t := (c.writeRegs uni val n).arch.t, g := (c.writeRegs uni val n).arch.g, p := (c.writeRegs uni val n).arch.p }
        mcrumbs := (c.writeRegs uni val n).mcrumbs } := by
  induction n with
  | zero => rfl
  | succ n ih =>
    rw [writeRegs_succ]
    generalize c.writeRegs uni val n = w at ih ⊢
    rw [write1_rest, ih]

section BlockDestination

variable {c : Ctx} (hblock : c.d.isBlock = true)
include hblock

theorem Ctx.writeRegs_other (uni : Bool) (val : Nat → Nat → Word) (n : Nat) (o : Operand)
    (ho : ∀ k, k < n → (c.d.nth k).same o = false) (i : Nat) : (c.later (c.writeRegs uni val n)).copy o i = c.copy o i := by
  induction n with
  | zero => rfl
  | succ n ih =>
    rw [writeRegs_succ, ← Operand.nth_eq_above hblock]
    exact ((c.roomAfter c.g _).copy_write1_other _ o uni _ _ i (ho n n.lt_succ_self)).trans
      (ih fun k hk => ho k (Nat.lt_succ_of_lt hk))

theorem Ctx.writeRegs_crumbsClear (uni : Bool) (val : Nat → Nat → Word) {n m : Nat} (hm : n ≤ m)
    (hclear : c.crumbsClear (c.d.nth m)) : (c.later (c.writeRegs uni val n)).crumbsClear (c.d.nth m) := by
  induction n with
  | zero => exact hclear
  | succ n ih =>
    rw [writeRegs_succ, ← Operand.nth_eq_above hblock]
    exact (c.roomAfter c.g _).crumbsClear_write1_other (Operand.nth_isBlock hblock m)
      (Operand.nth_not_same hblock (by omega)) uni _ _ (ih (by omega))

/-- Each of the registers reads its word in the threads that it reaches. -/
theorem Ctx.writeRegs_dest (uni : Bool) (val : Nat → Nat → Word) (n : Nat)
    (hu : uni = true → ∀ e x y, val e x = val e y) (hclear : ∀ k, k < n → c.crumbsClear (c.d.nth k)) (k : Nat) (hk : k < n)
    (i : Nat) (hi : i < c.width) (h64 : i < 64) :
    (c.later (c.writeRegs uni val n)).copy (c.d.nth k) i = c.written (c.d.nth k) (val k) i := by
  induction n with
  | zero => omega
  | succ n ih =>
    rw [writeRegs_succ, ← Operand.nth_eq_above hblock]
    by_cases hlast : k = n
    · subst hlast
      have hblockNth := Operand.nth_isBlock hblock k
      have hwrite := (c.roomAfter c.g (c.writeRegs uni val k)).copy_write1 (c.d.nth k) uni (val k) (c.writeRegs uni val k) i
        (Operand.discards_of_isBlock hblockNth) hi h64 (fun h => hu h k)
        (fun n inv hpred => absurd hpred (Operand.ne_pred_of_isBlock hblockNth n inv))
        (writeRegs_crumbsClear hblock uni val (le_refl k) (hclear k hk))
      have hbefore := writeRegs_other hblock uni val k (c.d.nth k)
        (fun j hj => Operand.nth_not_same hblock (Nat.ne_of_lt hj)) i
      refine hwrite.trans ?_
      unfold Ctx.written
      exact congrArg (fun z => if (c.d.nth k).isUniform = true then (val k 0, true)
        else if inMask c.active i = true then (val k i, true) else z) hbefore
    · exact ((c.roomAfter c.g _).copy_write1_other _ _ uni _ _ i (Operand.nth_not_same hblock (Ne.symm hlast))).trans
        (ih (fun j hj => hclear j (Nat.lt_succ_of_lt hj)) (by omega))

end BlockDestination

/-- Words written to n consecutive registers, with flags added, are a result of n registers. -/
theorem writeRegs_result {c : Ctx} {uni : Bool} {val : Nat → Nat → Word} (n : Nat) (flags : BitVec 6)
    (hd : ∀ k inv, c.d ≠ .pred k inv) (hu : uni = true → ∀ e x y, val e x = val e y)
    (hclear : ∀ k, k < n → c.crumbsClear (c.d.nth k)) :
    Result c n (fun i => (List.range n).map fun e => val e i) flags
      ((c.writeRegs uni val n).onArch fun a => { a with sticky := a.sticky ||| flags }).advance := by
  have hword : ∀ k, k < n → ∀ i, ((List.range n).map fun e => val e i).getD k 0 = val k i := by
    intro k hk i
    simp [hk]
  refine { dest := ?_, others := ?_, pc := ?_, sticky := ?_, rest := ?_ }
  · intro k hk hkeeps i hi h64
    rcases Operand.isBlock_or_discards hd with hblock | hdiscards
    · rw [hword k hk, hword k hk]
      exact Ctx.writeRegs_dest hblock uni val n hu hclear k hk i hi h64
    · rw [(hdiscards k).1] at hkeeps
      cases hkeeps
  · intro o ho i
    rcases Operand.isBlock_or_discards hd with hblock | hdiscards
    · exact Ctx.writeRegs_other hblock uni val n o ho i
    · rw [Ctx.writeRegs_of_discards c fun k => (hdiscards k).2]
      rfl
  · rw [Ctx.writeRegs_rest]; rfl
  · rw [Ctx.writeRegs_rest]; rfl
  · have hrest := c.writeRegs_rest uni val n
    generalize c.writeRegs uni val n = w at hrest ⊢
    rw [hrest]
    rfl

/-! ## DEQ -/

/-- The form under which the model issues DEQ: that of the statement, with the rank check of its pair source (02 R30). -/
def deqPairForm (d a b : BitVec 8) : Form := (deqForm d a b).pairSource [(deqForm d a b).a]

theorem exec_deq (d a b : BitVec 8) (s : State) :
    exec (.deq d a b) s = s.issue (deqPairForm d a b) (deqBody (deqPairForm d a b)) (reads := descriptorReads) := rfl

/-- Element e of a thread, and the flags of a thread's elements. -/
def Ctx.deqWord (c : Ctx) (e i : Nat) : Word := wordOf (c.deqOf (desc c) i e).1

def Ctx.deqFlags (c : Ctx) (i : Nat) : BitVec 6 :=
  (List.range (deqElements c)).foldl (fun acc e => acc ||| (c.deqOf (desc c) i e).2) 0

/-- Every source of DEQ resolves to a wider copy (04 R69). -/
def Ctx.deqUniform (c : Ctx) : Bool := c.resolvesUniformW c.a 64 && c.resolvesUniform c.b

theorem Ctx.deqWord_uniform {c : Ctx} (h : c.deqUniform = true) (e x y : Nat) : c.deqWord e x = c.deqWord e y := by
  have hpair := Ctx.readPair_uniform (Bool.and_eq_true_iff.1 h).1 x y
  simp only [deqWord, deqOf, hpair]

theorem deqBody_traps (f : Form) {c : Ctx} (s : State) (hdesc : deqBad (desc c) = true) :
    deqBody f c s = c.trap f s 0x07 0x04 0 := if_pos hdesc

/-- DEQ past its own checks writes each element to its register. -/
theorem deqBody_writes (f : Form) {c : Ctx} (s : State) (hdesc : deqBad (desc c) = false)
    (hrange : c.d = .zero ∨ c.beyond c.d (deqElements c) = false) (ha : c.emptyIn c.a 2 c.activeReads.a = false)
    (hd : c.emptyIn c.d (deqElements c) c.activeReads.d = false) :
    deqBody f c s = s.putGroup ((c.writeRegs c.deqUniform c.deqWord (deqElements c)).onArch fun a =>
      { a with sticky := a.sticky ||| c.flagsOf c.deqFlags }).advance := by
  have hinside : ¬ (c.d != .zero && c.beyond c.d (deqElements c)) = true := by
    rcases hrange with hzero | hrange
    · simp [hzero]
    · simp [hrange]
  rw [← Bool.not_eq_true] at hdesc ha hd
  exact (if_neg hdesc).trans ((if_neg hinside).trans ((if_neg ha).trans (if_neg hd)))

/-- What O9 says of DEQ holds where the checks of its issue include that of its pair source. -/
theorem deqCompletes : DeqCompletes deqPairForm := by
  intro d a b s g h
  have hrun := (exec_deq d a b s).trans (State.issue_runs _ h)
  refine ⟨fun hbad => ?_, fun hdesc hrange ha hd hclear => ?_⟩
  · exact hrun.trans (congrArg _ (deqBody_traps _ s hbad))
  · exact ⟨_, _, hrun.trans (congrArg _ (deqBody_writes _ s hdesc hrange ha hd)), onlyGroup_putGroup s _,
      writeRegs_result _ _ (ctxOf_dest_ne_pred rfl s g) Ctx.deqWord_uniform hclear⟩

/-- A special other than `zero` in the pair source of DEQ is a rank violation, whatever the descriptor holds. -/
theorem exec_deq_special {d a b : BitVec 8} {s : State} {g : Group} (h : Runs s g (deqForm d a b) (reads := descriptorReads))
    (hspecial : 0xF9 ≤ a.toNat) :
    exec (.deq d a b) s = .next (s.trapForm (deqPairForm d a b) (s.issueOf (deqForm d a b) g) 0x06 0x00 0) := by
  have hpair : (deqPairForm d a b).badPair = true := by
    simpa [deqPairForm, Form.pairSource, deqForm, form3] using hspecial
  have hranks : (deqPairForm d a b).ranksIllegal (s.issueOf (deqPairForm d a b) g).mode = true := by
    rw [Form.ranksIllegal, hpair]
    rfl
  exact (exec_deq d a b s).trans (State.issue_rankViolation _ _ _ h.current h.word h.level h.bounds hranks)

/-! ## The state that refutes O9 -/

/-- `DEQ t6, gix, g4`. -/
def gixForm : Form := deqForm 0x06 0xFA 0x84

/-- A group whose g4 is a descriptor with reserved bits set. -/
def gixGroup : Group :=
  { Group.start (harnessTeam State.reset) (State.reset.nextId + 1) 0 ⟨0, 0, 0⟩ with phase := .ready }.onArch
    (·.setG 4 0xFFFFFFFF)

/-- The machine with that group alone, current. -/
def gixState : State := { State.reset.harness gixForm.word.toNat with groups := [gixGroup], cur := gixGroup.id }

/-- The CAUSE words of the traps that ended the groups. -/
def causes (s : State) : List Word := s.groups.map (·.detail)

theorem gixState_runs : Runs gixState gixGroup gixForm (reads := descriptorReads) where
  current := by decide +kernel
  word := by decide +kernel
  level := by decide +kernel
  bounds := by decide +kernel
  ranks := by decide +kernel
  log := by decide +kernel
  pairs := by decide +kernel
  mode := rfl
  active := fun _ => by decide +kernel
  full := by decide +kernel
  start := .inl rfl
  whole := rfl

theorem gixState_deqBad : deqBad (desc (gixState.ctxOf gixForm gixGroup)) = true := by decide +kernel

theorem causes_rankViolation :
    causes (gixState.trapForm (deqPairForm 0x06 0xFA 0x84) (gixState.issueOf gixForm gixGroup) 0x06 0x00 0) = [0x0600] := by
  decide +kernel

theorem causes_illegalFormat : causes (gixState.trapForm gixForm (gixState.issueOf gixForm gixGroup) 0x07 0x04 0) = [0x0704] := by
  decide +kernel

/-- Refutes O9: `DEQ t6, gix, g4` with a bad descriptor takes the rank violation of 02 R30, cause 0x06; the statement, whose
`deqForm` lacks that check, asks for the illegal-format trap, cause 0x07. -/
theorem not_quantAndDeq : ¬ Obligations.QuantAndDeq := by
  rw [quantAndDeq_iff]
  rintro ⟨-, hdeq⟩
  have hformat := (hdeq 0x06 0xFA 0x84 gixState gixGroup gixState_runs).1 gixState_deqBad
  have hrank := exec_deq_special gixState_runs (by decide)
  have htraps := Host.Outcome.next.inj (hrank.symm.trans hformat)
  have hcauses := causes_rankViolation.symm.trans ((congrArg causes htraps).trans causes_illegalFormat)
  exact absurd hcauses (by decide)

end Sys2Proof.Machine

/-! # Synchronisation: how a wait ends

What the waiting instructions share (09 R191 to R195): the answer in g registers, the check of a wait with its three
outcomes, and the first issue of a wait, said once for every instruction. -/

namespace Sys2Proof.Machine

open Sys2Proof.Claims

set_option Elab.async false
variable {s t : State} {g h b : Group} {w : Wait} {ws : List (Nat × Word)}

/-! ## Words in listed g registers (09 R194) -/

/-- The group with words in listed g registers, each full. -/
def Group.putRegs (g : Group) (ws : List (Nat × Word)) : Group := ws.foldl (fun g x => g.setGs x.1 [x.2]) g

theorem Group.putRegs_cons (g : Group) (x : Nat × Word) (ws : List (Nat × Word)) :
    g.putRegs (x :: ws) = (g.setGs x.1 [x.2]).putRegs ws := rfl

theorem Group.getD_setGs_one (g : Group) (n j : Nat) (v : Word) :
    (g.setGs n [v]).arch.g.getD j ⟨0, true⟩ = if j = n then ⟨v, true⟩ else g.arch.g.getD j ⟨0, true⟩ := by
  rw [Group.getD_setGs]
  by_cases here : j = n
  · simp [here]
  · rw [if_neg (by simp only [List.length_singleton]; omega), if_neg here]

theorem Group.getD_putRegs_other {j : Nat} (hj : ∀ x ∈ ws, x.1 ≠ j) :
    (g.putRegs ws).arch.g.getD j ⟨0, true⟩ = g.arch.g.getD j ⟨0, true⟩ := by
  induction ws generalizing g with
  | nil => rfl
  | cons x ws ih =>
    rw [Group.putRegs_cons, ih fun y hy => hj y (List.mem_cons_of_mem _ hy), Group.getD_setGs_one,
      if_neg (Ne.symm (hj x List.mem_cons_self))]

theorem Group.getD_putRegs {x : Nat × Word} (hn : (ws.map (·.1)).Nodup) (hx : x ∈ ws) :
    (g.putRegs ws).arch.g.getD x.1 ⟨0, true⟩ = ⟨x.2, true⟩ := by
  induction ws generalizing g with
  | nil => cases hx
  | cons y ws ih =>
    rw [List.map_cons, List.nodup_cons] at hn
    rcases List.mem_cons.1 hx with rfl | hx
    · rw [Group.putRegs_cons, Group.getD_putRegs_other, Group.getD_setGs_one, if_pos rfl]
      exact fun z hz e => hn.1 (e ▸ List.mem_map_of_mem hz)
    · exact ih hn.2 hx

theorem Group.putRegs_rest (g : Group) (ws : List (Nat × Word)) :
    g.putRegs ws = { g with arch := { g.arch with g := (g.putRegs ws).arch.g } } := by
  induction ws generalizing g with
  | nil => rfl
  | cons x ws ih =>
    refine (ih _).trans ?_
    rw [← Group.putRegs_cons]
    rfl

/-- Written registers and a move past the instruction are the answer of a wait, whatever became of its count of timeouts. -/
theorem Group.answeredAt_putRegs {a : Arch} (ha : a = { g.arch with timeouts := a.timeouts, lastObj := a.lastObj })
    (hn : (ws.map (·.1)).Nodup) : AnsweredAt g (({ g with arch := a }).putRegs ws).advance ws where
  regs := fun x hx => Group.getD_putRegs hn hx
  others := fun j hj => (Group.getD_putRegs_other hj).trans (by rw [ha])
  arch := by
    rw [Group.putRegs_rest]
    generalize (Group.putRegs _ ws).arch.g = regs
    rw [ha]
    rfl
  ready := ⟨rfl, rfl, rfl, rfl, rfl⟩

/-! ## The count of timeouts (09 R194) -/

theorem countTimeout_arch (a : Arch) (ident : DWord) (poll timeout : Bool) :
    (countTimeout a ident poll timeout).1 =
      { a with
        timeouts := (countTimeout a ident poll timeout).1.timeouts
        lastObj := (countTimeout a ident poll timeout).1.lastObj } := by
  fun_cases countTimeout
  all_goals cases poll <;> rfl

/-- A wait that did not time out does not escalate. -/
theorem countTimeout_done (a : Arch) (ident : DWord) (poll : Bool) : (countTimeout a ident poll false).2 = none := rfl

/-- Without the escalation bit, and with fewer than 15 timeouts before it, a timeout does not escalate. -/
theorem countTimeout_late {a : Arch} (ident : DWord) (poll : Bool) (hesc : a.esc = false) (hcount : a.timeouts < 15) :
    (countTimeout a ident poll true).2 = none := by
  have few : ¬ 16 ≤ (if a.lastObj = ident ∧ a.timeouts ≠ 0 then a.timeouts + 1 else 1) := by split <;> omega
  simp [countTimeout, hesc, few]

/-- A wait that does not escalate answers its group. -/
theorem State.finishWait_answers {timeout : Bool} (hn : (ws.map (·.1)).Nodup)
    (hcount : ∀ ident, (countTimeout g.arch ident w.poll timeout).2 = none) :
    ∃ h, s.finishWait g w ws timeout = s.putGroup h ∧ AnsweredAt g h ws := by
  refine ⟨_, ?_, Group.answeredAt_putRegs
    (countTimeout_arch g.arch (dwordOf (w.obj.identity (clusterOfCore (s.coreOf g)))) w.poll timeout) hn⟩
  unfold State.finishWait
  simp only [hcount]
  rfl

/-! ## The check of a wait (09 R192) -/

/-- An object with a deadline that its check reaches, and whose result is never a timeout of its own. -/
def WaitObj.timed (o : WaitObj) : Bool :=
  match o with
  | .swap | .yielded | .discard _ _ | .carProp _ => false
  | _ => true

theorem WaitObj.timeless_of_timed {o : WaitObj} (h : o.timed = true) : o.timeless = false := by
  cases o <;> simp_all [WaitObj.timed, WaitObj.timeless]

theorem Wait.timedOut_of_timed (h : w.obj.timed = true) : w.timedOut ws = false := by
  unfold Wait.timedOut
  split <;> simp_all [WaitObj.timed]

theorem State.propAtHead_of_timed (h : w.obj.timed = true) : s.propAtHead w = false := by
  unfold State.propAtHead
  split <;> simp_all [WaitObj.timed]

theorem State.checkWait_satisfied (hsat : s.satisfied g w = some (t, ws)) (hb : t.group? g.id = some b)
    (htimed : w.obj.timed = true) (hn : (ws.map (·.1)).Nodup) : ∃ h, s.checkWait g w = t.putGroup h ∧ AnsweredAt b h ws := by
  obtain ⟨h, hfinish, hanswer⟩ :=
    State.finishWait_answers (s := t) (g := b) (w := w) (timeout := false) hn fun ident => countTimeout_done b.arch ident w.poll
  refine ⟨h, ?_, hanswer⟩
  simp only [State.checkWait, hsat, hb, Wait.timedOut_of_timed htimed, hfinish]

theorem State.checkWait_open (hsat : s.satisfied g w = none) (hlimit : s.expired g w = false) :
    s.checkWait g w = s.putGroup { g with phase := .waiting, wait := some w } := by
  simp [State.checkWait, hsat, hlimit]

theorem State.checkWait_late (hsat : s.satisfied g w = none) (hlimit : s.expired g w = true) (htimed : w.obj.timed = true)
    (hesc : g.arch.esc = false) (hcount : g.arch.timeouts < 15) (hn : ((s.withdraw g w).2.map (·.1)).Nodup) :
    ∃ h, s.checkWait g w = (s.withdraw g w).1.putGroup h ∧ AnsweredAt g h (s.withdraw g w).2 := by
  obtain ⟨h, hfinish, hanswer⟩ := State.finishWait_answers (s := (s.withdraw g w).1) (g := g) (w := w) (timeout := true) hn
    fun ident => countTimeout_late ident w.poll hesc hcount
  refine ⟨h, ?_, hanswer⟩
  simp [State.checkWait, hsat, hlimit, WaitObj.timeless_of_timed htimed, State.propAtHead_of_timed htimed, hfinish]

/-! ## The first issue of a wait (09 R191) -/

/-- A waiting instruction that checks the wait of its specification when it is first issued meets its claim. -/
theorem waitClaim_of_check {i : Instr} {f : Form} {k : WaitSpec} (htimed : ∀ s c, (k.obj s c).timed = true)
    (hexec : ∀ (s : State) (g : Group) (dl : Armed), Runs s g f → g.wait = none → k.ready s (s.ctxOf f g) →
      s.arm g (k.pair (s.ctxOf f g)) = some dl →
      exec i s = .next ((k.started s (s.ctxOf f g)).checkWait g (k.wait s (s.ctxOf f g) dl))) : WaitClaim i f k := by
  intro s g hruns hwait c hready dl harm s1 w
  have hcheck := hexec s g dl hruns hwait hready harm
  have hobj : w.obj.timed = true := htimed s c
  refine ⟨fun s2 ws b hsat hb hn => ?_, fun hsat hlimit => ?_, fun hsat hlimit hesc hcount hn => ?_⟩
  · obtain ⟨h, hdone, hanswer⟩ := State.checkWait_satisfied hsat hb hobj hn
    exact ⟨h, hcheck.trans (congrArg _ hdone), hanswer⟩
  · exact hcheck.trans (congrArg _ (State.checkWait_open hsat hlimit))
  · obtain ⟨h, hdone, hanswer⟩ := State.checkWait_late hsat hlimit hobj hesc hcount hn
    exact ⟨h, hcheck.trans (congrArg _ hdone), hanswer⟩

theorem Ctx.waiting_first {c : Ctx} {first : State → State} (h : c.g.wait = none) : c.waiting s first = first s := by
  simp only [Ctx.waiting, h]

theorem Ctx.armed_good {c : Ctx} {f : Form} {go : Armed → State → State} {dl : Armed}
    (h : s.arm c.g (c.readPair c.b 0) = some dl) : c.armed f s go = go dl s := by
  simp only [Ctx.armed, h]

/-- The checks of a barrier instruction's offset pass (09 R202). -/
theorem barCheck_good {c : Ctx} (h : goodOffset s c) : barCheck c.tm (offA c) = none := by
  obtain ⟨-, haligned, hinside⟩ := h
  simp [barCheck, haligned, Nat.not_lt.2 hinside]

theorem Ctx.onBarrier_good {c : Ctx} {f : Form} {go : Nat → State → State} (h : goodOffset s c) :
    c.onBarrier f false go s = go (offA c) (s.ownWrite c.g (offA c) 16) := by
  have hcheck := barCheck_good h
  unfold offA at hcheck
  simp only [Ctx.onBarrier, hcheck, Bool.false_and]
  rfl

/-! ## The first issue of each waiting instruction -/

/-- An instruction whose deadline pair stands in slot b, and which begins its wait once that is armed. -/
theorem waitClaim_of_armed {i : Instr} {f : Form} {k : WaitSpec} (body : Ctx → Armed → State → State)
    (htimed : ∀ s c, (k.obj s c).timed = true) (hpair : k.pair = pairB)
    (hexec : ∀ s, exec i s = s.issue f fun c s => c.waiting s fun s => c.armed f s fun dl s => body c dl s)
    (hbody : ∀ s c dl, k.ready s c → body c dl s = (k.started s c).checkWait c.g (k.wait s c dl)) : WaitClaim i f k := by
  refine waitClaim_of_check htimed fun s g dl hruns hwait hready harm => ?_
  rw [hpair] at harm
  rw [hexec, State.issue_runs _ hruns, Ctx.waiting_first hwait, Ctx.armed_good harm]
  exact congrArg _ (hbody s _ dl hready)

theorem waitf_waits (d a b : BitVec 8) : WaitClaim (.waitf d a b) (waitfForm d a b) waitfSpec :=
  waitClaim_of_armed _ (fun _ _ => rfl) rfl (fun _ => rfl) fun _ _ _ hready => Ctx.onBarrier_good hready

/-- BAR.WAIT arrives before it waits. -/
theorem barWait_waits (d a b : BitVec 8) : WaitClaim (.barWait d a b) (barWaitForm d a b) barWaitSpec := by
  refine waitClaim_of_armed _ (fun _ _ => rfl) rfl (fun _ => rfl) fun s c dl hready => (Ctx.onBarrier_good hready).trans ?_
  simp only [WaitSpec.started, WaitSpec.wait, barWaitSpec, barArrival]
  generalize State.arrive _ _ _ = arrival
  rfl

theorem waitb_waits (d a b : BitVec 8) : WaitClaim (.waitb d a b) (waitbForm d a b) waitbSpec :=
  waitClaim_of_armed _ (fun _ _ => rfl) rfl (fun _ => rfl) fun _ _ _ _ => rfl

theorem fence_waits (d a b : BitVec 8) : WaitClaim (.fence d a b) (fenceForm d a b) fenceSpec :=
  waitClaim_of_armed _ (fun _ _ => rfl) rfl (fun _ => rfl) fun _ _ _ _ => rfl

theorem acqRem_waits (d a b : BitVec 8) : WaitClaim (.acqRem d a b) (acqRemForm d a b) acqRemSpec :=
  waitClaim_of_armed _ (fun _ _ => rfl) rfl (fun _ => rfl) fun _ _ _ _ => rfl

theorem qrecv_waits (d a b : BitVec 8) : WaitClaim (.qrecv d a b) (qrecvForm d a b) qrecvSpec :=
  waitClaim_of_armed _ (fun _ _ => rfl) rfl (fun _ => rfl) fun _ _ _ _ => rfl

theorem join_waits (d b : BitVec 8) : WaitClaim (.join d b) (joinForm d b) joinSpec :=
  waitClaim_of_armed _ (fun _ _ => rfl) rfl (fun _ => rfl) fun _ _ _ _ => rfl

theorem shoot_waits (d a b : BitVec 8) : WaitClaim (.shoot d a b) (shootForm d a b) shootSpec :=
  waitClaim_of_armed _ (fun _ _ => rfl) rfl (fun _ => rfl) fun _ _ _ _ => rfl

/-- QSEND takes its deadline pair from its data block. -/
theorem qsend_waits (d a b : BitVec 8) : WaitClaim (.qsend d a b) (qsendForm d a b) qsendSpec := by
  refine waitClaim_of_check (fun _ _ => rfl) fun s g dl hruns hwait _ harm => ?_
  refine (State.issue_runs _ hruns).trans (congrArg _ ((Ctx.waiting_first hwait).trans ?_))
  have harmed : s.arm (s.ctxOf (qsendForm d a b) g).g
      (pairOf ((s.ctxOf (qsendForm d a b) g).read ((s.ctxOf (qsendForm d a b) g).d.above 2) 0)
        ((s.ctxOf (qsendForm d a b) g).read ((s.ctxOf (qsendForm d a b) g).d.above 3) 0)) = some dl := harm
  simp only [harmed]
  rfl

/-- ACC.DRAIN looks at its name before its deadline. -/
theorem accDrain_waits (a b : BitVec 8) (r : BitVec 7) : WaitClaim (.accDrain a b r) (accDrainForm a b r) accDrainSpec := by
  refine waitClaim_of_check (fun _ _ => rfl) fun s g dl hruns hwait hready harm => ?_
  refine (State.issue_runs _ hruns).trans (congrArg _ ((Ctx.waiting_first hwait).trans ?_))
  exact (if_neg (Nat.not_le.2 hready)).trans (Ctx.armed_good harm)

/-- Settles O32: each waiting instruction checks the wait of its specification when it is first issued, and the check of a
wait has the three outcomes. -/
theorem waitsEnd : Obligations.WaitsEnd :=
  ⟨fun d a b => ⟨waitf_waits d a b, barWait_waits d a b, waitb_waits d a b, fence_waits d a b, acqRem_waits d a b⟩,
    fun d a b r => ⟨qsend_waits d a b, qrecv_waits d a b, join_waits d b, shoot_waits d a b, accDrain_waits a b r⟩⟩

end Sys2Proof.Machine

/-! # Synchronisation: the objects of waits

When the object of each kind of wait is satisfied and what it then gives (09 R195 to R200, 07 R173, 14 R291, 15 R321,
20 R377, R378): one lemma for each kind. -/

namespace Sys2Proof.Machine

open Sys2Proof.Claims

set_option Elab.async false
variable {s t : State} {g : Group} {w : Wait} {ws : List (Nat × Word)}

/-! ## Barriers -/

theorem State.satisfied_barrier {off : Nat} {token : Word} {arr : Bool} (h : open' w (.barrier off token arr)) :
    s.satisfied g w =
      if (s.teamOf g).isBarrier off = false then some (s, [(w.dst, 2)])
      else if ((s.teamOf g).barWord off).phase ≠ token.toNat then some (s, [(w.dst, 0)]) else none := by
  obtain ⟨hobj, hres⟩ := h
  simp only [State.satisfied, hobj, hres]
  cases (s.teamOf g).isBarrier off <;> rfl

/-! ## Batches -/

/-- The status of the earliest command that did not end DONE, or DONE. -/
def firstFailure (l : List Cmd) : Word :=
  match l.find? (·.status != 0) with
  | some x => x.status
  | none => 0

theorem firstFailure_append (l m : List Cmd) :
    firstFailure (l ++ m) = if firstFailure l = 0 then firstFailure m else firstFailure l := by
  unfold firstFailure
  rw [List.find?_append]
  cases hfind : l.find? (·.status != 0) with
  | none => rfl
  | some x =>
    have hx : x.status ≠ 0 := bne_iff_ne.1 (List.find?_some (p := fun c : Cmd => c.status != 0) hfind)
    exact (if_neg hx).symm

/-- The status of the earliest batch with a failure is that of the earliest command with one. -/
theorem firstFailure_batches (cover : List Batch) :
    (match cover.find? fun b => s.batchStatus b != 0 with
      | some b => s.batchStatus b
      | none => 0) = firstFailure (cover.flatMap s.batchCmds) := by
  induction cover with
  | nil => rfl
  | cons b cover ih =>
    rw [List.flatMap_cons, firstFailure_append, ← ih, List.find?_cons]
    have hstatus : s.batchStatus b = firstFailure (s.batchCmds b) := rfl
    by_cases hb : s.batchStatus b = 0
    · have hcond : (s.batchStatus b != 0) = false := by simp [hb]
      rw [hcond, if_pos (hstatus ▸ hb)]
    · have hcond : (s.batchStatus b != 0) = true := bne_iff_ne.2 hb
      rw [hcond, if_neg (hstatus ▸ hb)]
      exact hstatus

theorem State.batchesDone_iff (cover : List Batch) :
    cover.all s.batchDone = true ↔ ∀ x ∈ cover.flatMap s.batchCmds, x.phase = .done := by
  simp [State.batchDone, Cmd.isDone, List.mem_flatMap]
  grind

/-- The batches of a group with those of some numbers marked as reported. -/
def reportBatches (nums : List Word) (b : Batch) : Batch := if nums.contains b.num then { b with reported := true } else b

theorem State.satisfied_batches {n : Word} (h : open' w (.batches n)) :
    s.satisfied g w =
      if (g.covered n).all s.batchDone = true then
        some (s.onGroup g.id fun k => { k with batches := k.batches.map (reportBatches ((g.covered n).map (·.num))) },
          [(w.dst, firstFailure ((g.covered n).flatMap s.batchCmds))])
      else none := by
  obtain ⟨hobj, hres⟩ := h
  simp only [State.satisfied, hobj, hres, ← firstFailure_batches]
  rfl

theorem reported_of_mem_reportBatches {nums : List Word} {l : List Batch} {b : Batch}
    (hb : b ∈ l.map (reportBatches nums)) (hnum : b.num ∈ nums) : b.reported = true := by
  obtain ⟨x, -, rfl⟩ := List.mem_map.1 hb
  unfold reportBatches at hnum ⊢
  split
  · rfl
  next hx => rw [if_neg hx] at hnum; exact absurd (by simpa using hnum) hx

theorem waitObject_batches {n : Word} (h : open' w (.batches n)) :
    let cmds := (g.covered n).flatMap fun b => b.cmds.filterMap s.cmd?
    ((s.satisfied g w).isSome = true ↔ ∀ x ∈ cmds, x.phase = .done) ∧
    ∀ t ws, s.satisfied g w = some (t, ws) →
      ws = [(w.dst, match cmds.find? (·.status != 0) with | some x => x.status | none => 0)] ∧
      ∀ k, t.group? g.id = some k → ∀ b ∈ k.batches, (∃ y ∈ g.covered n, y.num = b.num) → b.reported = true := by
  intro cmds
  rw [State.satisfied_batches h]
  refine ⟨?_, fun t ws hsat => ?_⟩
  · refine Iff.trans ?_ (State.batchesDone_iff (g.covered n))
    split <;> simp_all
  · split at hsat
    · cases hsat
      refine ⟨rfl, fun k hk b hb hcover => ?_⟩
      obtain ⟨y, hy, hnum⟩ := hcover
      have hmem := List.mem_of_find?_eq_some hk
      obtain ⟨x, -, rfl⟩ := List.mem_map.1 hmem
      have hid : x.id = g.id := by
        have hkey := State.id_of_group? hk
        split at hkey
        · exact hkey
        · exact hkey
      rw [if_pos (by simpa using hid)] at hb
      exact reported_of_mem_reportBatches hb (hnum ▸ List.mem_map_of_mem hy)
    · cases hsat

/-! ## Fences -/

theorem State.fenceMask_eq_iff {classes : BitVec 8} {upTo : Nat} :
    s.fenceMask g classes upTo = classes.toNat ↔
      ∀ k, k < 8 → classes.getLsbD k = true → s.classDone g upTo k = true := by
  obtain ⟨-, hbit⟩ := maskSum_bits 8 fun k => classes.getLsbD k && s.classDone g upTo k
  change ∀ i, (s.fenceMask g classes upTo).testBit i = _ at hbit
  constructor
  · intro h k hk hclass
    have hk' := hbit k
    rw [h, BitVec.testBit_toNat, hclass] at hk'
    simpa [hk] using hk'
  · intro h
    refine Nat.eq_of_testBit_eq fun i => ?_
    rw [hbit, BitVec.testBit_toNat]
    by_cases hi : i < 8
    · cases hclass : classes.getLsbD i
      · simp
      · simp [hi, h i hi hclass]
    · simp [hi, BitVec.getLsbD_of_ge classes i (Nat.not_lt.1 hi)]

theorem State.satisfied_fence {classes : BitVec 8} {upTo : Nat} (h : open' w (.fence classes upTo)) :
    s.satisfied g w =
      if s.fenceMask g classes upTo = classes.toNat then some (s, [(w.dst, classes.setWidth 32)]) else none := by
  obtain ⟨hobj, hres⟩ := h
  simp only [State.satisfied, hobj, hres]
  have hword : wordOf classes.toNat = classes.setWidth 32 := by
    apply BitVec.eq_of_toNat_eq
    simp [wordOf]
  rw [hword]

/-! ## Promotions, shootdowns and discarded pages -/

theorem State.satisfied_promote {core : Option Nat} {k : Nat} (h : open' w (.promote core k)) :
    s.satisfied g w = if s.promotions.any (·.id == k) then none else some (s, [(w.dst, 0)]) := by
  obtain ⟨hobj, hres⟩ := h
  simp only [State.satisfied, hobj, hres]
  rfl

theorem State.satisfied_shoot {page : DWord} {k : Nat} (h : open' w (.shoot page k)) :
    s.satisfied g w =
      if s.shootdowns.any fun x => x.ctx == (s.teamOf g).ctx && x.va == page then none else some (s, [(w.dst, 0)]) := by
  obtain ⟨hobj, hres⟩ := h
  simp only [State.satisfied, hobj, hres]
  rfl

theorem State.satisfied_discard {page : DWord} {k : Nat} (h : open' w (.discard page k)) :
    s.satisfied g w = if s.shootdowns.any (·.id == k) then none else some (s, []) := by
  obtain ⟨hobj, hres⟩ := h
  simp only [State.satisfied, hobj, hres]

/-! ## Join sets -/

theorem joinResult_eq (l : List Child) :
    joinResult l =
      (if ∀ x ∈ l, x.failed = true then 0 else (l.filterMap fun x => x.done.filter (· != 0)).headD 0,
        wordOf (l.filterMap fun x => x.done.filter (· != 0)).length) := by
  have hfailure : Child.failure = fun x : Child => x.done.filter (· != 0) := by
    funext x
    unfold Child.failure
    cases x.done with
    | none => rfl
    | some v => by_cases hv : v = 0 <;> simp [Option.filter, hv]
  simp only [joinResult, hfailure, List.all_eq_true]

theorem waitObject_join (h : open' w .join) :
    let set := (s.teamOf g).joinSet
    let fails := set.filterMap fun x => x.done.filter (· != 0)
    let done : Prop := ∀ x ∈ set, x.failed = true ∨ x.done.isSome = true
    (done → ∃ t, s.satisfied g w = some (t, [(w.dst, if (∀ x ∈ set, x.failed = true) then 0 else fails.headD 0),
        (w.dst + 1, wordOf fails.length)]) ∧ t = { s with teams := t.teams } ∧
        ∀ tm, s.team? g.team = some tm → t.team? g.team = some { tm with joinSet := [] }) ∧
    (¬ done → s.satisfied g w = none) := by
  obtain ⟨hobj, hres⟩ := h
  intro set fails done
  have hdone : set.all Child.ended = true ↔ done := by
    simp only [List.all_eq_true, Child.ended, Bool.or_eq_true]
    rfl
  have hsat : s.satisfied g w =
      if set.all Child.ended then
        some (s.onTeam g.team fun t => { t with joinSet := [] }, [(w.dst, (joinResult set).1), (w.dst + 1, (joinResult set).2)])
      else none := by
    simp only [State.satisfied, hobj, hres]
    rfl
  rw [joinResult_eq] at hsat
  refine ⟨fun hd => ⟨_, hsat.trans (if_pos (hdone.2 hd)), rfl, fun tm htm => ?_⟩, fun hd =>
    hsat.trans (if_neg fun hall => hd (hdone.1 hall))⟩
  exact State.team?_onTeam (fun _ => rfl) htm

/-! ## Accumulator drains -/

theorem waitObject_drain {name : Nat} {cmds : List Nat} (h : open' w (.drain name cmds)) :
    let ov := (s.clusterRec (clusterOfCore (s.coreOf g))).oven
    let banks := (((ov.maps.find? (·.team == g.team)).map fun m => m.names.getD name []).getD []) ++
      (ov.draining.filter fun y => y.1 == g.team && y.2.1 == name).map (·.2.2)
    let left : Prop := ∃ x ∈ s.cmds, x.id ∈ cmds ∧ x.phase ≠ .done ∧ ∃ y ∈ x.banks, y ∈ banks
    (¬ left → s.satisfied g w = some (s, [(w.dst, 0)])) ∧ (left → s.satisfied g w = none) := by
  obtain ⟨hobj, hres⟩ := h
  intro ov banks left
  have hleft : (s.cmds.any fun c => cmds.contains c.id && !c.isDone && c.banks.any banks.contains) = true ↔ left := by
    simp [left, Cmd.isDone, and_assoc]
  have hsat : s.satisfied g w =
      if s.cmds.any fun c => cmds.contains c.id && !c.isDone && c.banks.any banks.contains then none
      else some (s, [(w.dst, 0)]) := by
    simp only [State.satisfied, hobj, hres]
    rfl
  exact ⟨fun hl => hsat.trans (if_neg fun hany => hl (hleft.1 hany)), fun hl => hsat.trans (if_pos (hleft.2 hl))⟩

/-! ## The objects whose result is put down for them -/

theorem State.satisfied_latched {o : WaitObj} (h : open' w o)
    (ho : (∃ m, o = .merge m) ∨ (∃ va x off e, o = .word va x off e) ∨ o = .swap ∨ (∃ k, o = .carAcq k) ∨ ∃ k, o = .carProp k) :
    s.satisfied g w = none := by
  obtain ⟨hobj, hres⟩ := h
  rcases ho with ⟨m, rfl⟩ | ⟨va, x, off, e, rfl⟩ | rfl | ⟨k, rfl⟩ | ⟨k, rfl⟩ <;> simp only [State.satisfied, hobj, hres]

theorem State.satisfied_yielded (h : open' w .yielded) :
    s.satisfied g w = if (s.teamOf g).life = .running then some (s, [(w.dst, 1)]) else none := by
  obtain ⟨hobj, hres⟩ := h
  simp only [State.satisfied, hobj, hres]

/-- Settles O31: the lemma of each kind of object. -/
theorem waitObjects : Obligations.WaitObjects := by
  intro s g w
  refine ⟨fun off token arr h => ?_, fun n h => waitObject_batches h, fun classes upTo h => ?_, fun core k h => ?_,
    fun page k h => ?_, fun page k h => ?_, fun h => waitObject_join h, fun name cmds h => waitObject_drain h, fun h => ?_,
    fun o h ho => State.satisfied_latched h ho, fun ws h => ?_⟩
  · rw [State.satisfied_barrier h]
    refine ⟨fun hno => if_pos hno, fun hbar hphase => ?_, fun hbar hphase => ?_⟩
    · rw [if_neg (by simp [hbar]), if_pos hphase]
    · rw [if_neg (by simp [hbar]), if_neg (not_not.2 hphase)]
  · rw [State.satisfied_fence h]
    exact ⟨fun hd => if_pos (State.fenceMask_eq_iff.2 hd), fun hd => if_neg fun hm => hd (State.fenceMask_eq_iff.1 hm)⟩
  · rw [State.satisfied_promote h]
    exact ⟨fun hno => if_neg (by simpa using hno), fun hyes => if_pos (by simpa using hyes)⟩
  · rw [State.satisfied_shoot h]
    exact ⟨fun hno => if_neg (by simpa using hno), fun hyes => if_pos (by simpa using hyes)⟩
  · rw [State.satisfied_discard h]
    exact ⟨fun hno => if_neg (by simpa using hno), fun hyes => if_pos (by simpa using hyes)⟩
  · rw [State.satisfied_yielded h]
    exact ⟨fun hrun => if_pos hrun, fun hrun => if_neg hrun⟩
  · simp only [State.satisfied, h]

end Sys2Proof.Machine

/-! # Synchronisation: what memory leaves alone

Translations, stores, loads and reductions on their way, and releases (07 R152 to R174, 09 R187 to R199, 10 R215 to R229):
the programs of the groups stay, and of the teams all but their memory; without a reduction in flight the groups stay as they
are, and no store's scope gets narrower. -/

namespace Sys2Proof.Machine

open Sys2Proof.Claims

set_option Elab.async false
variable {s t u : State}

/-! ## Translations -/

/-- A group without what a shootdown changes: its translation registers, and those in its handler's image (07 R153). -/
def Group.sansXl (g : Group) : Group := { g with arch := { g.arch with xl := [] }, himage := none }

/-- What translations, and writes to memory, do: memory and what is known of pages change, and of the groups no more than a
shootdown changes. -/
structure Translated (s t : State) : Prop where
  rest : t = { s with
    mem := t.mem, past := t.past, cores := t.cores, dies := t.dies, draw := t.draw, recent := t.recent
    pageUses := t.pageUses, risers := t.risers, shots := t.shots, groups := t.groups }
  groups : t.groups.map Group.sansXl = s.groups.map Group.sansXl

theorem Translated.refl : Translated s s := ⟨rfl, rfl⟩

theorem Translated.trans (h : Translated s t) (k : Translated t u) : Translated s u :=
  ⟨k.rest.trans (by rw [h.rest]), k.groups.trans h.groups⟩

theorem Translated.of_pair {α : Type} {p : State × α} {x : α} (h : Translated s p.1) (e : p = (t, x)) : Translated s t := by
  subst e; exact h

theorem translated_writePhys {a bs} : Translated s (s.writePhys a bs) := ⟨rfl, rfl⟩

theorem translated_markLeaf {l write} : Translated s (s.markLeaf l write) := by
  fun_cases State.markLeaf
  · exact .refl
  · exact translated_writePhys

theorem translated_fetchSidecar {pte} : Translated s (s.fetchSidecar pte) := by
  fun_cases State.fetchSidecar <;> exact ⟨rfl, rfl⟩

/-- The end of a translation: the use of the page is noted, and its sidecar line is there. -/
theorem translated_used_fetchSidecar {ctx va level frame pte} :
    Translated s ((s.used ctx va level frame).fetchSidecar pte) :=
  Translated.trans (t := s.used ctx va level frame) ⟨rfl, rfl⟩ translated_fetchSidecar

theorem translated_shootCores {ctx va} : Translated s (s.shootCores ctx va) :=
  ⟨rfl, updateWhere_map (f := fun g : Group => { g with arch := g.arch.shot va, himage := g.himage.map (Arch.shot va) })
    (fun _ => rfl) s.groups⟩

theorem translated_zeroFill {ctx va l} : Translated s (s.zeroFill ctx va l) := by
  fun_cases State.zeroFill
  next cleared zeroed _ =>
    have hwrite : Translated s cleared := ⟨rfl, rfl⟩
    refine hwrite.trans (translated_writePhys.trans (translated_shootCores.trans ⟨rfl, rfl⟩))
  · exact .refl

theorem translated_putCore {c} : Translated s (s.putCore c) := by
  fun_cases State.putCore <;> exact ⟨rfl, rfl⟩

theorem translated_putDie {d} : Translated s (s.putDie d) := by
  fun_cases State.putDie <;> exact ⟨rfl, rfl⟩

theorem translated_translateOn {known ctx core priv va need} :
    Translated s (s.translateOn known ctx core priv va need).1 := by
  unfold State.translateOn
  split
  · exact .refl
  split
  · exact .refl
  extract_lets now c d stale
  clear_value stale now
  split
  next s' known' use e =>
  have hs : Translated s s' := by
    split at e
    · cases e; exact .refl
    · split at e <;> cases e <;> exact ⟨rfl, rfl⟩
  extract_lets use'
  clear_value use'
  split
  · extract_lets l
    split
    · exact hs
    · exact hs.trans translated_used_fetchSidecar
  · split
    · exact hs
    · split
      · exact hs.trans translated_markLeaf
      · extract_lets marked filled
        have hf : Translated s filled := by
          unfold filled
          split
          · exact (hs.trans translated_markLeaf).trans translated_zeroFill
          · exact hs.trans translated_markLeaf
        exact ((hf.trans translated_putCore).trans translated_putDie).trans translated_used_fetchSidecar

theorem translated_translate {ctx core priv va need} : Translated s (s.translate ctx core priv va need).1 :=
  translated_translateOn

theorem translated_throughFrame {ctx x off need} : Translated s (s.throughFrame ctx x off need).1 := by
  unfold State.throughFrame
  extract_lets va pa
  split
  · exact .refl
  next filled _ =>
    have hf : Translated s filled := by
      unfold filled
      split
      · split
        · exact translated_zeroFill
        · exact .refl
      · exact .refl
    exact hf.trans translated_used_fetchSidecar

theorem translated_translateXl {known g x off w need} : Translated s (s.translateXl known g x off w need).1 := by
  unfold State.translateXl
  extract_lets ctx
  split
  · exact translated_throughFrame
  · exact translated_translateOn

theorem translated_translateOnce {memo g x w need} : Translated s (s.translateOnce memo g x w need).1 := by
  unfold State.translateOnce
  split
  · exact .refl
  · exact .refl
  · split
    next r page e =>
    have hr : Translated s r.1 := by
      split at e <;> cases e
      · exact translated_translateXl
      · exact translated_translateOn
    split <;> exact hr

theorem translated_spot {memo g x w need align} : Translated s (s.spot memo g x w need align).1 := by
  have once := translated_translateOnce (s := s) (memo := memo) (g := g) (x := x) (w := w) (need := need)
  unfold State.spot
  extract_lets tm
  split
  · exact .refl
  split
  · exact .refl
  split
  · split
    · exact .refl
    · split <;> exact .refl
  · split <;> exact once.of_pair ‹_›

theorem translated_tryAll {g targets w need align} : Translated s (s.tryAll g targets w need align).1 := by
  have hfold : ∀ (l : List (Nat × Target7)) (acc : State × Memo × List (Tried Spot)), Translated s acc.1 →
      Translated s (l.foldl (fun acc x =>
        match acc.1.spot acc.2.1 g x.2 w need align with
        | (s, memo, out) => (s, memo, acc.2.2 ++ [⟨x.1, x.2.addr, out⟩])) acc).1 := by
    intro l
    induction l with
    | nil => exact fun _ h => h
    | cons x l ih => exact fun acc h => ih _ (h.trans translated_spot)
  exact hfold targets _ .refl

theorem translated_span {ctx core priv need va len} : Translated s (s.span ctx core priv need va len).1 := by
  unfold State.span
  generalize len / 0x10000 + 2 = fuel
  generalize 0 = off
  generalize ([] : List Seg) = acc
  induction fuel generalizing s off acc with
  | zero => exact .refl
  | succ fuel ih =>
    have step := translated_translate (s := s) (ctx := ctx) (core := core) (priv := priv) (va := va + off) (need := need)
    unfold State.spanFrom
    split
    · exact .refl
    dsimp only
    split
    next e => exact step.of_pair e
    next e => exact (step.of_pair e).trans (ih _ _)

theorem translated_putSpan {segs off bs} : Translated s (s.putSpan segs off bs) := by
  unfold State.putSpan
  induction segs generalizing s with
  | nil => exact .refl
  | cons x segs ih =>
    rw [List.foldl_cons]
    refine Translated.trans ?_ ih
    dsimp only
    split
    · exact translated_writePhys
    · exact .refl

theorem translated_writeVa {ctx core priv va bs} : Translated s (s.writeVa ctx core priv va bs).1 := by
  fun_cases State.writeVa
  next e => exact translated_span.of_pair e
  next e => exact (translated_span.of_pair e).trans translated_putSpan

/-! ## Programs and teams -/

/-- A team without the bytes of its memory. -/
def Team.sansMem (tm : Team) : Team := { tm with mem := [] }

/-- The programs of the groups stay but for what a shootdown changes, the teams but for their memory, and no message is sent. -/
structure KeepsPrograms (s t : State) : Prop where
  groups : t.groups.map Group.sansXl = s.groups.map Group.sansXl
  teams : t.teams.map Team.sansMem = s.teams.map Team.sansMem
  appends : t.appends = s.appends

theorem KeepsPrograms.refl : KeepsPrograms s s := ⟨rfl, rfl, rfl⟩

theorem KeepsPrograms.trans (h : KeepsPrograms s t) (k : KeepsPrograms t u) : KeepsPrograms s u :=
  ⟨k.groups.trans h.groups, k.teams.trans h.teams, k.appends.trans h.appends⟩

theorem Translated.keepsPrograms (h : Translated s t) : KeepsPrograms s t :=
  ⟨h.groups, by rw [h.rest], by rw [h.rest]⟩

theorem KeepsPrograms.group? {id : Nat} (h : KeepsPrograms s t) :
    (t.group? id).map Group.sansXl = (s.group? id).map Group.sansXl := by
  have key : ∀ l : List Group, (l.find? (·.id == id)).map Group.sansXl = (l.map Group.sansXl).find? (·.id == id) :=
    fun l => by rw [List.find?_map]; rfl
  exact (key _).trans ((congrArg _ h.groups).trans (key _).symm)

theorem KeepsPrograms.team? {id : Nat} (h : KeepsPrograms s t) :
    (t.team? id).map Team.sansMem = (s.team? id).map Team.sansMem := by
  have key : ∀ l : List Team, (l.find? (·.id == id)).map Team.sansMem = (l.map Team.sansMem).find? (·.id == id) :=
    fun l => by rw [List.find?_map]; rfl
  exact (key _).trans ((congrArg _ h.teams).trans (key _).symm)

/-- A group of the state before is there afterwards, with its program. -/
theorem KeepsPrograms.group?_some {id : Nat} {g : Group} (h : KeepsPrograms s t) (hg : s.group? id = some g) :
    ∃ k, t.group? id = some k ∧ k.sansXl = g.sansXl := by
  have e := h.group? (id := id)
  rw [hg] at e
  exact Option.map_eq_some_iff.1 e

theorem KeepsPrograms.team?_some {id : Nat} {tm : Team} (h : KeepsPrograms s t) (ht : s.team? id = some tm) :
    ∃ v, t.team? id = some v ∧ v.sansMem = tm.sansMem := by
  have e := h.team? (id := id)
  rw [ht] at e
  exact Option.map_eq_some_iff.1 e

/-! ## Work of the memory -/

/-- No store's scope gets narrower, and none is added. -/
def KeepsScopes (s t : State) : Prop := ∀ e ∈ t.stores, ∃ x ∈ s.stores, x.gid = e.gid ∧ x.scope ≤ e.scope

theorem KeepsScopes.of_sublist {l : List PendingStore} (h : l ⊆ s.stores) :
    ∀ e ∈ l, ∃ x ∈ s.stores, x.gid = e.gid ∧ x.scope ≤ e.scope :=
  fun e he => ⟨e, h he, rfl, Nat.le_refl _⟩

theorem KeepsScopes.trans (h : KeepsScopes s t) (k : KeepsScopes t u) : KeepsScopes s u := by
  intro e he
  obtain ⟨x, hx, hgid, hscope⟩ := k e he
  obtain ⟨y, hy, hgid', hscope'⟩ := h x hx
  exact ⟨y, hy, hgid'.trans hgid, hscope'.trans hscope⟩

/-- Work of the memory: it keeps the programs, and with no reduction in flight the groups as they are. -/
structure MemoryWork (s t : State) : Prop extends KeepsPrograms s t where
  still : s.reductions = [] → t.groups = s.groups ∧ t.reductions = [] ∧ KeepsScopes s t

theorem MemoryWork.refl : MemoryWork s s := ⟨.refl, fun h => ⟨rfl, h, KeepsScopes.of_sublist fun _ h => h⟩⟩

theorem MemoryWork.trans (h : MemoryWork s t) (k : MemoryWork t u) : MemoryWork s u where
  toKeepsPrograms := h.toKeepsPrograms.trans k.toKeepsPrograms
  still := fun hnone => by
    obtain ⟨hgroups, hreds, hscopes⟩ := h.still hnone
    obtain ⟨kgroups, kreds, kscopes⟩ := k.still hreds
    exact ⟨kgroups.trans hgroups, kreds, hscopes.trans kscopes⟩

/-- A change of other parts of the state. -/
theorem MemoryWork.of_eq (hg : t.groups = s.groups := by rfl) (hr : t.reductions = s.reductions := by rfl)
    (ht : t.teams.map Team.sansMem = s.teams.map Team.sansMem := by rfl) (ha : t.appends = s.appends := by rfl)
    (hs : KeepsScopes s t := by exact KeepsScopes.of_sublist fun _ h => h) : MemoryWork s t :=
  ⟨⟨congrArg _ hg, ht, ha⟩, fun h => ⟨hg, hr.trans h, hs⟩⟩

/-- What reductions in flight do. -/
theorem KeepsPrograms.memoryWork (h : KeepsPrograms s t) (hne : s.reductions ≠ []) : MemoryWork s t :=
  ⟨h, fun hnone => absurd hnone hne⟩

theorem MemoryWork.ite {c : Prop} [Decidable c] (ht : MemoryWork s t) (hu : MemoryWork s u) : MemoryWork s (if c then t else u) := by
  split <;> assumption

theorem MemoryWork.foldl {α : Type} {f : State → α → State} {l : List α} (hf : ∀ {s x}, MemoryWork s (f s x)) :
    MemoryWork s (l.foldl f s) := by
  induction l generalizing s with
  | nil => exact .refl
  | cons x l ih => exact hf.trans ih

theorem KeepsPrograms.foldl {α : Type} {f : State → α → State} {l : List α} (hf : ∀ {s x}, KeepsPrograms s (f s x)) :
    KeepsPrograms s (l.foldl f s) := by
  induction l generalizing s with
  | nil => exact .refl
  | cons x l ih => exact hf.trans ih

/-! ## Stores -/

theorem memoryWork_onTeam_mem {id} {f : Memory → Memory} :
    MemoryWork s (s.onTeam id fun tm => { tm with mem := f tm.mem }) :=
  .of_eq (ht := updateWhere_map (f := fun tm : Team => { tm with mem := f tm.mem }) (fun _ => rfl) s.teams)

theorem memoryWork_put {l bs} : MemoryWork s (s.put l bs) := by
  cases l with
  | phys a => exact .of_eq
  | team i o => exact memoryWork_onTeam_mem (f := fun m => m.write o bs)

theorem memoryWork_takeLoads {gid id l n} : MemoryWork s (s.takeLoads gid id l n) := by
  fun_cases State.takeLoads
  · exact .refl
  · exact .of_eq

theorem memoryWork_ownWrite {g off n} : MemoryWork s (s.ownWrite g off n) := memoryWork_takeLoads

theorem memoryWork_writeOut {x} : MemoryWork s (s.writeOut x) := by
  fun_cases State.writeOut
  · refine (memoryWork_takeLoads.trans memoryWork_put).trans (.of_eq (hs := ?_))
    exact KeepsScopes.of_sublist fun _ h => List.mem_of_mem_filter h
  · exact .refl

theorem memoryWork_commitStores {e} : MemoryWork s (s.commitStores e) := .foldl memoryWork_writeOut

theorem memoryWork_touched {l n} : MemoryWork s (s.touched l n) := by
  cases l <;> exact .of_eq

theorem memoryWork_replaced {cl l old} : MemoryWork s (s.replaced cl l old) := by
  cases l <;> exact .of_eq

theorem keepsScopes_updateWhere {p : PendingStore → Bool} {f : PendingStore → PendingStore}
    (hf : ∀ e, (f e).gid = e.gid ∧ e.scope ≤ (f e).scope) :
    ∀ e ∈ updateWhere p f s.stores, ∃ x ∈ s.stores, x.gid = e.gid ∧ x.scope ≤ e.scope := by
  intro e he
  obtain ⟨x, hx, rfl⟩ := List.mem_map.1 he
  refine ⟨x, hx, ?_⟩
  split
  · exact ⟨(hf x).1.symm, (hf x).2⟩
  · exact ⟨rfl, Nat.le_refl _⟩

/-- A listed store takes the place of others, at a scope no narrower. -/
theorem keepsScopes_replace {x y : PendingStore} {p q r : PendingStore → Bool} (hx : x ∈ s.stores) (hgid : y.gid = x.gid)
    (hscope : x.scope ≤ y.scope) :
    ∀ e ∈ (s.stores.filter p).filter q ++ [y] ++ (s.stores.filter p).filter r,
      ∃ x ∈ s.stores, x.gid = e.gid ∧ x.scope ≤ e.scope := by
  intro e he
  simp only [List.mem_append, List.mem_filter, List.mem_singleton] at he
  rcases he with (⟨⟨he, -⟩, -⟩ | rfl) | ⟨⟨he, -⟩, -⟩
  · exact ⟨e, he, rfl, Nat.le_refl _⟩
  · exact ⟨x, hx, hgid.symm, hscope⟩
  · exact ⟨e, he, rfl, Nat.le_refl _⟩

theorem memoryWork_performStep {scope e} : MemoryWork s (s.performStep scope e) := by
  unfold State.performStep
  split
  · exact .refl
  next x hx =>
  have hmem := List.mem_of_find?_eq_some hx
  extract_lets y k
  split
  · exact memoryWork_commitStores
  split
  · split
    · refine .of_eq (hs := ?_)
      intro e he
      obtain ⟨z, hz, rfl⟩ := List.mem_map.1 he
      split
      · exact ⟨x, hmem, rfl, Nat.le_max_left _ _⟩
      · exact ⟨z, hz, rfl, Nat.le_refl _⟩
    · exact .refl
  next taken seen rest _ _ _ =>
    have htaken : MemoryWork s taken := memoryWork_takeLoads
    have hstores : taken.stores = s.stores := by
      unfold taken State.takeLoads
      split <;> rfl
    have hseen : MemoryWork taken seen ∧ seen.stores = taken.stores := by
      unfold seen
      split
      · split
        · exact ⟨memoryWork_replaced, by unfold State.replaced; split <;> rfl⟩
        · exact ⟨memoryWork_touched, by unfold State.touched; split <;> rfl⟩
      · exact ⟨memoryWork_touched, by unfold State.touched; split <;> rfl⟩
    refine (htaken.trans hseen.1).trans (.of_eq (hs := ?_))
    exact keepsScopes_replace (x := x) (by rw [hseen.2, hstores]; exact hmem) rfl (Nat.le_max_left _ _)

theorem memoryWork_performOn {scope e} : MemoryWork s (s.performOn scope e) := .foldl memoryWork_performStep

theorem memoryWork_settleStores {g upTo dom l n} : MemoryWork s (s.settleStores g upTo dom l n) :=
  .foldl (memoryWork_performOn.ite (memoryWork_commitStores.ite .refl))

/-! ## Reductions -/

theorem keepsPrograms_putCoherent {g id cp dom l bs} : KeepsPrograms s (s.putCoherent g id cp dom l bs) := by
  fun_cases State.putCoherent
  · exact (memoryWork_takeLoads.trans memoryWork_replaced).toKeepsPrograms.trans ⟨rfl, rfl, rfl⟩
  · exact (memoryWork_takeLoads.trans memoryWork_put).toKeepsPrograms

theorem keepsPrograms_logReduction {r sub} : KeepsPrograms s (s.logReduction r sub) := by
  fun_cases State.logReduction
  · exact ⟨rfl, rfl, rfl⟩
  next left _ _ _ written =>
    have hwritten : KeepsPrograms left written := translated_writeVa.keepsPrograms
    exact KeepsPrograms.trans (t := left) ⟨rfl, rfl, rfl⟩ (hwritten.trans ⟨rfl, rfl, rfl⟩)

theorem keepsPrograms_endReduction {r} : KeepsPrograms s (s.endReduction r) := by
  fun_cases State.endReduction
  · exact keepsPrograms_logReduction
  next left _ _ _ settled _ =>
    have hsettled : MemoryWork left settled := memoryWork_settleStores
    exact KeepsPrograms.trans (t := left) ⟨rfl, rfl, rfl⟩ (hsettled.toKeepsPrograms.trans keepsPrograms_putCoherent)

/-- Some of the reductions in flight end. -/
theorem memoryWork_endSome {p : Reduction → Bool} : MemoryWork s ((s.reductions.filter p).foldl State.endReduction s) := by
  by_cases hnone : s.reductions = []
  · rw [hnone]
    exact .refl
  · exact (KeepsPrograms.foldl keepsPrograms_endReduction).memoryWork hnone

theorem memoryWork_endReds {gid below} : MemoryWork s (s.endReds gid below) := memoryWork_endSome

theorem memoryWork_clearWay {gid id l n} : MemoryWork s (s.clearWay gid id l n) := by
  fun_cases State.clearWay
  · exact memoryWork_endReds
  · exact .refl

/-! ## Releases -/

theorem memoryWork_commit {e} : MemoryWork s (s.commit e) := .foldl (memoryWork_clearWay.trans memoryWork_writeOut)

theorem memoryWork_performAll {scope l} : MemoryWork s (s.performAll scope l) :=
  .foldl (memoryWork_clearWay.trans memoryWork_performOn)

theorem memoryWork_clearLoads {l} : MemoryWork s (s.clearLoads l) := 
  .foldl (.foldl (by
    intro _ _
    split
    · exact memoryWork_clearWay
    · exact .refl))

theorem memoryWork_freeze {g below} : MemoryWork s (s.freeze g below) := memoryWork_clearLoads.trans .of_eq

theorem memoryWork_settleTeam {g id off n} : MemoryWork s (s.settleTeam g id off n) :=
  memoryWork_takeLoads.trans (.foldl memoryWork_commit)

theorem memoryWork_landTile {g id soff spitch e tr rows} : MemoryWork s (s.landTile g id soff spitch e tr rows) :=
  memoryWork_settleTeam.trans (.foldl fun {_ x} => memoryWork_onTeam_mem (f := landRow soff spitch e tr x.2 x.1))

theorem memoryWork_landNow {g d} : MemoryWork s (s.landNow g d) := by
  fun_cases State.landNow
  · exact ((memoryWork_freeze.trans memoryWork_clearLoads).trans memoryWork_landTile).trans .of_eq
  · exact .refl

theorem memoryWork_landTiles {g below} : MemoryWork s (s.landTiles g below) := .foldl memoryWork_landNow

theorem memoryWork_enterCarousels {gid} : MemoryWork s (s.enterCarousels gid) :=
  .foldl (by
    intro _ _
    refine MemoryWork.trans (t := State.putCluster _ _) ?_ .of_eq
    unfold State.putCluster
    exact MemoryWork.ite .of_eq .of_eq)

theorem memoryWork_finishOthers {g below} : MemoryWork s (s.finishOthers g below) :=
  (memoryWork_landTiles.trans memoryWork_freeze).trans memoryWork_endReds

theorem memoryWork_release {g scope} : MemoryWork s (s.release g scope) :=
  (memoryWork_enterCarousels.trans memoryWork_finishOthers).trans memoryWork_performAll

theorem memoryWork_settleLine {team off} : MemoryWork s (s.settleLine team off) :=
  MemoryWork.trans (.foldl (by
    intro _ _
    split
    · exact .refl
    · exact memoryWork_landNow.ite .refl)) (.foldl memoryWork_commit)

end Sys2Proof.Machine

/-! # Synchronisation: barriers

The word of a barrier, its tag, and what the barrier instructions do to them (09 R201 to R207). -/

namespace Sys2Proof.Machine

open Sys2Proof.Claims

set_option Elab.async false
variable {s t u : State} {g k : Group}

/-! ## The issuing group -/

theorem Runs.group? {f : Form} {late : Ctx → Option Nat} {reads : Ctx → Reads} (h : Runs s g f late reads) :
    s.group? g.id = some g := by
  have hcur := h.current
  rwa [State.id_of_group? hcur]

theorem State.group?_onGroup {id : Nat} {f : Group → Group} (hf : ∀ x, (f x).id = x.id) (h : s.group? id = some g) :
    (s.onGroup id f).group? id = some (f g) := by
  have hfind := find?_updateWhere (fun x : Group => x.id == id) (fun x => x.id == id) f (fun x => by rw [hf]) s.groups
  have hg : (g.id == id) = true := List.find?_some (p := fun x : Group => x.id == id) h
  refine hfind.trans ?_
  rw [show s.groups.find? (fun x => x.id == id) = some g from h, Option.map_some, if_pos hg]

/-- Consecutive words written and a move past the instruction are its answer, in a group with the same registers. -/
theorem Group.answered_setGs {n : Nat} {ws : List Word} (harch : k.arch = g.arch) :
    Answered g (k.setGs n ws).advance n ws where
  regs := fun i hi => by
    refine (Group.getD_setGs k n ws (n + i)).trans ?_
    rw [if_pos ⟨Nat.le_add_right n i, by omega⟩, Nat.add_sub_cancel_left]
  others := fun j hj => by
    refine (Group.getD_setGs k n ws j).trans ?_
    rw [if_neg (by omega), harch]
  arch := by
    rw [Group.setGs_eq]
    generalize putWords k.arch.g n ws.zipIdx = regs
    rw [harch]
    rfl
  ready := ⟨rfl, rfl, rfl, rfl, rfl⟩

theorem Ctx.answer_answers {c : Ctx} {ws : List Word} (hk : s.group? c.g.id = some k) (harch : k.arch = g.arch) :
    ∃ h, (c.answer ws s).group? c.g.id = some h ∧ Answered g h c.dreg ws :=
  ⟨_, State.group?_onGroup (fun _ => rfl) hk, Group.answered_setGs harch⟩

/-! ## The word of a barrier (09 R203) -/

/-- The fields of a barrier word fit their columns. -/
structure BarWord.Fits (b : BarWord) : Prop where
  expect : b.expect < 2 ^ 16
  arrived : b.arrived < 2 ^ 16
  phase : b.phase < 2 ^ 32
  pendLow : -(2 ^ 39 : Int) ≤ b.pend
  pendHigh : b.pend < 2 ^ 39

theorem Team.barWord_fits (tm : Team) (off : Nat) : (tm.barWord off).Fits := by
  refine ⟨Nat.mod_lt _ (by decide), Nat.mod_lt _ (by decide), Nat.mod_lt _ (by decide), ?_, ?_⟩
  all_goals
    simp only [Team.barWord, signedOf]
    split <;> omega

/-- A word whose fields fit is read as it was written. -/
theorem Team.barWord_write {tm : Team} {off : Nat} {b : BarWord} (hwf : Memory.wf tm.mem = true) (hb : b.Fits) :
    Team.barWord { tm with mem := tm.mem.write off b.bytes } off = b := by
  obtain ⟨expect, arrived, phase, pend⟩ := b
  obtain ⟨hexpect, harrived, hphase, hlow, hhigh⟩ := hb
  simp only at hexpect harrived hphase hlow hhigh
  have hvalue : Memory.value (tm.mem.write off (BarWord.bytes ⟨expect, arrived, phase, pend⟩)) off 16 =
      expect + arrived * 2 ^ 16 + phase * 2 ^ 32 + wrap pend 40 * 2 ^ 64 + 2 ^ 104 := by
    refine (Memory.value_write hwf off 16 _).trans (Nat.mod_eq_of_lt ?_)
    have hwrap : wrap pend 40 < 2 ^ 40 := by unfold wrap; omega
    norm_num at hwrap ⊢
    omega
  have hpend : signedOf ((expect + arrived * 2 ^ 16 + phase * 2 ^ 32 + wrap pend 40 * 2 ^ 64 + 2 ^ 104) / 2 ^ 64) 40 = pend := by
    have hwrap : (wrap pend 40 : Int) = pend % 2 ^ 40 := wrap_cast pend 40
    have hmod : (expect + arrived * 2 ^ 16 + phase * 2 ^ 32 + wrap pend 40 * 2 ^ 64 + 2 ^ 104) / 2 ^ 64 % 2 ^ 40 = wrap pend 40 := by
      have hlt : wrap pend 40 < 2 ^ 40 := by unfold wrap; omega
      norm_num at hlt ⊢
      omega
    simp only [signedOf, hmod]
    split <;> omega
  simp only [Team.barWord, hvalue, hpend, bits, BarWord.mk.injEq, and_true]
  norm_num
  omega

/-- The word of a barrier that is cleared. -/
theorem Team.barWord_zero {tm : Team} {off : Nat} (hwf : Memory.wf tm.mem = true) :
    Team.barWord { tm with mem := tm.mem.write off (bytesOf 16 0) } off = ⟨0, 0, 0, 0⟩ := by
  have hvalue : Memory.value (tm.mem.write off (bytesOf 16 0)) off 16 = 0 := Memory.value_write hwf off 16 0
  simp only [Team.barWord, hvalue]
  rfl

theorem BarWord.bytes_length (b : BarWord) : b.bytes.length = 16 := bytesOf_length 16 _

/-! ## Tags (09 R201) -/

theorem Team.isBarrier_untagged {tm : Team} {off : Nat} {m : Memory} :
    Team.isBarrier { tm with mem := m, tags := tm.tags.filter (·.1 != off / 16) } off = false := by
  have hnone : (tm.tags.filter (·.1 != off / 16)).find? (·.1 == off / 16) = Option.none := by
    rw [List.find?_eq_none]
    intro x hx
    have := List.of_mem_filter hx
    simpa using this
  simp [Team.isBarrier, Team.tagAt, hnone]

theorem Team.isBarrier_tagged {tm : Team} {off : Nat} (h : tm.tagged off = false) :
    Team.isBarrier { tm with tags := tm.tags ++ [(off / 16, .barrier)] } off = true := by
  have hnone : tm.tags.find? (·.1 == off / 16) = Option.none := by
    rw [List.find?_eq_none]
    simpa [Team.tagged] using h
  simp [Team.isBarrier, Team.tagAt, List.find?_append, hnone]

/-! ## Work on one team -/

/-- Work on one team: only that team changes, the waits of groups, and what loads on their way read. -/
structure TeamWork (s t : State) (id : Nat) : Prop where
  rest : t = { s with teams := t.teams, groups := t.groups, deliveries := t.deliveries }
  others : ∀ j, j ≠ id → t.team? j = s.team? j
  groups : ∀ j k, s.group? j = some k → ∃ h, t.group? j = some h ∧ h = { k with wait := h.wait, keptWait := h.keptWait }

theorem TeamWork.refl {id : Nat} : TeamWork s s id := ⟨rfl, fun _ _ => rfl, fun _ k hk => ⟨k, hk, rfl⟩⟩

theorem TeamWork.trans {id : Nat} (h : TeamWork s t id) (w : TeamWork t u id) : TeamWork s u id where
  rest := w.rest.trans (by rw [h.rest])
  others := fun j hj => (w.others j hj).trans (h.others j hj)
  groups := fun j k hk => by
    obtain ⟨x, hx, ex⟩ := h.groups j k hk
    obtain ⟨y, hy, ey⟩ := w.groups j x hx
    exact ⟨y, hy, ey.trans (by rw [ex])⟩

theorem TeamWork.mem {id : Nat} (h : TeamWork s t id) : t.mem = s.mem := by rw [h.rest]

theorem TeamWork.stores {id : Nat} (h : TeamWork s t id) : t.stores = s.stores := by rw [h.rest]

theorem State.team?_onTeam_ne {id j : Nat} {f : Team → Team} (hf : ∀ x, (f x).id = x.id) (hne : j ≠ id) :
    (s.onTeam id f).team? j = s.team? j := by
  refine (find?_updateWhere (fun x : Team => x.id == j) (fun x => x.id == id) f (fun x => by rw [hf]) s.teams).trans ?_
  change Option.map _ (s.team? j) = s.team? j
  cases hj : s.team? j with
  | none => rfl
  | some tm =>
    have hid : tm.id = j := by simpa using List.find?_some (p := fun x : Team => x.id == j) hj
    have hother : ¬ (tm.id == id) = true := by simpa [hid] using hne
    rw [Option.map_some, if_neg hother]

theorem teamWork_onTeam {id : Nat} {f : Team → Team} (hf : ∀ x, (f x).id = x.id) : TeamWork s (s.onTeam id f) id :=
  ⟨rfl, fun _ hj => State.team?_onTeam_ne hf hj, fun _ k hk => ⟨k, hk, rfl⟩⟩

/-- A group whose waits on objects of one kind are answered (09 R195). -/
def Group.latched (g : Group) (p : WaitObj → Bool) (f : Wait → List (Nat × Word)) : Group :=
  let one := fun (w : Wait) => if w.result.isNone && p w.obj then { w with result := some (f w) } else w
  { g with wait := g.wait.map one, keptWait := g.keptWait.map one }

theorem teamWork_latch {id team : Nat} {p : WaitObj → Bool} {f : Wait → List (Nat × Word)} :
    TeamWork s (s.latch team p f) id := by
  refine ⟨rfl, fun _ _ => rfl, fun j k hk => ?_⟩
  have hfind := find?_updateWhere (fun x : Group => x.id == j) (fun x => x.team == team) (fun x => x.latched p f)
    (fun _ => rfl) s.groups
  rw [show s.groups.find? (fun x => x.id == j) = some k from hk, Option.map_some] at hfind
  refine ⟨_, hfind, ?_⟩
  split <;> rfl

/-- The team of a barrier whose word is written. -/
def Team.withBar (tm : Team) (off : Nat) (b : BarWord) : Team := { tm with mem := tm.mem.write off b.bytes }

theorem Team.withBar_wf {tm : Team} {off : Nat} {b : BarWord} (hwf : Memory.wf tm.mem = true) :
    Memory.wf (tm.withBar off b).mem = true := Memory.write_wf hwf off b.bytes

theorem Team.withBar_barWord {tm : Team} {off : Nat} {b : BarWord} (hwf : Memory.wf tm.mem = true) (hb : b.Fits) :
    (tm.withBar off b).barWord off = b := Team.barWord_write hwf hb

theorem Team.withBar_isBarrier (tm : Team) (off : Nat) (b : BarWord) : (tm.withBar off b).isBarrier off = tm.isBarrier off :=
  rfl

theorem Team.withBar_outside {tm : Team} {off : Nat} {b : BarWord} (hwf : Memory.wf tm.mem = true) {o : Nat}
    (ho : o < off ∨ off + 16 ≤ o) : (tm.withBar off b).mem.get o = tm.mem.get o :=
  Memory.get_write_outside hwf off b.bytes (by rw [BarWord.bytes_length]; exact ho)

/-- The team of a barrier that is clobbered (09 R207). -/
def Team.clobbered (tm : Team) (off : Nat) (ovf : Bool) : Team :=
  { tm with
    mem := tm.mem.write off (bytesOf 16 (if ovf then 2 ^ 105 else 0))
    tags := tm.tags.filter (·.1 != off / 16) }

theorem teamWork_putBar {id off : Nat} {b : BarWord} : TeamWork s (s.putBar id off b) id :=
  teamWork_onTeam fun _ => rfl

theorem State.team?_putBar {id off : Nat} {b : BarWord} {tm : Team} (h : s.team? id = some tm) :
    (s.putBar id off b).team? id = some (tm.withBar off b) :=
  State.team?_onTeam (fun _ => rfl) h

theorem teamWork_clobber {id off : Nat} {ovf : Bool} : TeamWork s (s.clobber id off ovf) id :=
  (teamWork_onTeam (f := fun tm => tm.clobbered off ovf) fun _ => rfl).trans teamWork_latch

theorem State.team?_clobber {id off : Nat} {ovf : Bool} {tm : Team} (h : s.team? id = some tm) :
    (s.clobber id off ovf).team? id = some (tm.clobbered off ovf) :=
  State.team?_onTeam (f := fun tm => tm.clobbered off ovf) (fun _ => rfl) h

/-- A word after Complete (09 R204). -/
def BarWord.completed (b : BarWord) : BarWord :=
  if b.expect ≠ 0 ∧ b.arrived = b.expect ∧ b.pend = 0 then { b with phase := (b.phase + 1) % 2 ^ 32, arrived := 0 } else b

theorem BarWord.Fits.completed {b : BarWord} (h : b.Fits) : b.completed.Fits := by
  unfold BarWord.completed
  split
  · exact ⟨h.expect, Nat.two_pow_pos 16, Nat.mod_lt _ (Nat.two_pow_pos 32), h.pendLow, h.pendHigh⟩
  · exact h

theorem teamWork_barComplete {id off : Nat} : TeamWork s (s.barComplete id off) id := by
  unfold State.barComplete
  split
  · exact .refl
  · dsimp only
    split
    · exact teamWork_putBar.trans teamWork_latch
    · exact .refl

theorem State.team?_latch {team id : Nat} {p : WaitObj → Bool} {f : Wait → List (Nat × Word)} :
    (s.latch team p f).team? id = s.team? id := rfl

/-- The condition of Complete (09 R204). -/
def BarWord.full (b : BarWord) : Prop := b.expect ≠ 0 ∧ b.arrived = b.expect ∧ b.pend = 0

theorem BarWord.completed_full {b : BarWord} (h : b.full) :
    b.completed = { b with phase := (b.phase + 1) % 2 ^ 32, arrived := 0 } := if_pos h

theorem BarWord.completed_open {b : BarWord} (h : ¬ b.full) : b.completed = b := if_neg h

theorem State.team?_barComplete_full {id off : Nat} {tm : Team} (h : s.team? id = some tm) (hfull : (tm.barWord off).full) :
    (s.barComplete id off).team? id = some (tm.withBar off (tm.barWord off).completed) := by
  unfold State.barComplete
  rw [h, BarWord.completed_full hfull]
  refine (congrArg (fun x : State => x.team? id) (if_pos hfull)).trans ?_
  exact State.team?_latch.trans (State.team?_putBar h)

theorem State.barComplete_open {id off : Nat} {tm : Team} (h : s.team? id = some tm) (hopen : ¬ (tm.barWord off).full) :
    s.barComplete id off = s := by
  unfold State.barComplete
  rw [h]
  exact if_neg hopen

/-- A word that fits, written and then completed: what the team then holds. -/
theorem State.team?_putBar_barComplete {id off : Nat} {b : BarWord} {tm : Team} (h : s.team? id = some tm)
    (hwf : Memory.wf tm.mem = true) (hb : b.Fits) :
    ∃ v, ((s.putBar id off b).barComplete id off).team? id = some v ∧ v.barWord off = b.completed ∧
      v.isBarrier off = tm.isBarrier off ∧ ∀ o, o < off ∨ off + 16 ≤ o → v.mem.get o = tm.mem.get o := by
  have hput := State.team?_putBar (off := off) (b := b) h
  have hword : (tm.withBar off b).barWord off = b := Team.withBar_barWord hwf hb
  by_cases hfull : b.full
  · have hdone := State.team?_barComplete_full (off := off) hput (by rw [hword]; exact hfull)
    rw [hword] at hdone
    refine ⟨_, hdone, Team.withBar_barWord (Team.withBar_wf hwf) hb.completed, ?_, fun o ho => ?_⟩
    · rw [Team.withBar_isBarrier, Team.withBar_isBarrier]
    · rw [Team.withBar_outside (Team.withBar_wf hwf) ho, Team.withBar_outside hwf ho]
  · rw [State.barComplete_open hput (by rw [hword]; exact hfull), BarWord.completed_open hfull]
    exact ⟨_, hput, hword, Team.withBar_isBarrier tm off b, fun o ho => Team.withBar_outside hwf ho⟩

end Sys2Proof.Machine

/-! # Synchronisation: the barrier instructions (09 R202 to R207) -/

namespace Sys2Proof.Machine

open Sys2Proof.Claims

set_option Elab.async false
variable {s t u : State} {g k : Group} {c : Ctx}

/-! ## What comes before the access to the word -/

theorem Group.sansXl_pc (h : k.sansXl = g.sansXl) : k.arch.pc = g.arch.pc := congrArg (fun x => x.arch.pc) h

theorem Group.sansXl_g (h : k.sansXl = g.sansXl) : k.arch.g = g.arch.g := congrArg (fun x => x.arch.g) h

/-- The group of an instruction after work of the memory. -/
theorem MemoryWork.group?_some {id : Nat} (w : MemoryWork s t) (hg : s.group? id = some g) :
    ∃ k, t.group? id = some k ∧ k.sansXl = g.sansXl ∧ (s.reductions = [] → k = g) := by
  obtain ⟨k, hk, hsans⟩ := w.toKeepsPrograms.group?_some hg
  refine ⟨k, hk, hsans, fun hnone => ?_⟩
  have hsame : t.group? id = s.group? id := congrArg (fun l : List Group => l.find? fun x : Group => x.id == id) (w.still hnone).1
  exact Option.some.inj (hk.symm.trans (hsame.trans hg))

theorem teamWork_ownWrite {id off n : Nat} : TeamWork s (s.ownWrite g off n) id := by
  unfold State.ownWrite
  fun_cases State.takeLoads
  · exact .refl
  · exact ⟨rfl, fun _ _ => rfl, fun _ k hk => ⟨k, hk, rfl⟩⟩

theorem State.team?_ownWrite {id off n : Nat} : (s.ownWrite g off n).team? id = s.team? id := by
  unfold State.ownWrite
  fun_cases State.takeLoads <;> rfl

theorem updateWhere_none {α : Type} {p : α → Bool} {f : α → α} {l : List α} (h : ∀ x ∈ l, p x = false) :
    updateWhere p f l = l := by
  refine (List.map_congr_left fun x hx => ?_).trans (List.map_id l)
  rw [h x hx]
  rfl

/-- Without loads of the group on their way, none of them reads early. -/
theorem State.ownWrite_quiet {off n : Nat} (h : quiet s g) : s.ownWrite g off n = s := by
  obtain ⟨-, hloads, -⟩ := h
  unfold State.ownWrite
  fun_cases State.takeLoads
  · rfl
  · refine congrArg (fun l => { s with deliveries := l }) (updateWhere_none fun d hd => ?_)
    show (d.gid == g.id && _ && _) = false
    simp [hloads d hd]

theorem State.settleLine_quiet {team off : Nat} (hstores : s.stores = [])
    (htiles : ∀ d ∈ s.deliveries, d.product.lands off 16 = false) : s.settleLine team off = s := by
  have hnone : (s.deliveries.filter fun d => d.product.lands off 16) = [] := by
    simpa [List.filter_eq_nil_iff] using htiles
  unfold State.settleLine
  rw [hnone, List.foldl_nil]
  dsimp only
  rw [hstores]
  rfl

theorem State.freeze_quiet {below : Nat} (h : ∀ d ∈ s.deliveries, d.gid ≠ g.id) : s.freeze g below = s := by
  have hnone : ∀ d ∈ s.deliveries, (d.gid == g.id && decide (d.id < below) && !d.product.reads.isEmpty) = false := by
    intro d hd
    simp [h d hd]
  have hfilter : (s.deliveries.filter fun d => d.gid == g.id && decide (d.id < below) && !d.product.reads.isEmpty) = [] := by
    simpa [List.filter_eq_nil_iff] using hnone
  unfold State.freeze
  dsimp only
  rw [hfilter]
  unfold State.clearLoads
  rw [List.foldl_nil, updateWhere_none hnone]

theorem State.landTiles_quiet {below : Nat} (h : ∀ d ∈ s.deliveries, d.gid ≠ g.id) : s.landTiles g below = s := by
  have hfilter : (s.deliveries.filter fun d => d.gid == g.id && decide (d.id < below)) = [] := by
    rw [List.filter_eq_nil_iff]
    intro d hd
    simp [h d hd]
  unfold State.landTiles
  rw [hfilter, List.foldl_nil]

theorem State.endReds_quiet {gid below : Nat} (h : ∀ x ∈ s.reductions, x.gid ≠ gid) : s.endReds gid below = s := by
  have hfilter : (s.reductions.filter fun r => r.gid == gid && decide (r.id < below)) = [] := by
    rw [List.filter_eq_nil_iff]
    intro d hd
    simp [h d hd]
  unfold State.endReds
  rw [hfilter, List.foldl_nil]

theorem State.finishOthers_quiet {below : Nat} (h : quiet s g) : s.finishOthers g below = s := by
  obtain ⟨-, hloads, hreds⟩ := h
  unfold State.finishOthers
  rw [State.landTiles_quiet hloads, State.freeze_quiet hloads, State.endReds_quiet hreds]

/-- Carousel commands that enter their order change their clusters and themselves. -/
theorem State.enterCarousels_rest {gid : Nat} : s.enterCarousels gid =
    { s with clusters := (s.enterCarousels gid).clusters, cmds := (s.enterCarousels gid).cmds } := by
  unfold State.enterCarousels
  dsimp only
  generalize s.cmds.filter _ = l
  induction l generalizing s with
  | nil => rfl
  | cons x l ih =>
    rw [List.foldl_cons, ih]
    unfold State.putCluster State.putCmd
    split <;> rfl

/-- With nothing of the group on its way, a release writes nothing. -/
theorem State.release_quiet {scope : Nat} (h : quiet s g) : s.release g scope = s.enterCarousels g.id := by
  have hrest := State.enterCarousels_rest (s := s) (gid := g.id)
  have hquiet : quiet (s.enterCarousels g.id) g := by
    unfold quiet
    rw [hrest]
    exact h
  have hoverlay : (s.enterCarousels g.id).overlay g (s.enterCarousels g.id).nextId = [] := by
    unfold State.overlay
    rw [hquiet.1]
    rfl
  unfold State.release
  dsimp only
  rw [State.finishOthers_quiet hquiet, hoverlay]
  rfl

/-! ## Results of the group -/

theorem TeamWork.group?_advance {id gid : Nat} (w : TeamWork s t id) (hg : s.group? gid = some g) :
    ∃ h, (t.onGroup gid Group.advance).group? gid = some h ∧ h.arch = (at' g (g.arch.pc + 4)).arch ∧ h.phase = .ready := by
  obtain ⟨k, hk, ek⟩ := w.groups gid g hg
  refine ⟨k.advance, State.group?_onGroup (fun _ => rfl) hk, ?_, rfl⟩
  rw [ek]
  rfl

/-- Its answer, in a state that differs in what draws its free values. -/
theorem TeamWork.group?_answer {id n : Nat} {ws : List Word} (w : TeamWork s t id) (hg : s.group? c.g.id = some g) :
    ∃ h, (c.answer ws { t with draw := n }).group? c.g.id = some h ∧ Answered g h c.dreg ws := by
  obtain ⟨k, hk, ek⟩ := w.groups c.g.id g hg
  exact Ctx.answer_answers (s := { t with draw := n }) hk (by rw [ek])

/-! ## Cleared words (09 R207) -/

theorem Team.clobbered_isBarrier (tm : Team) (off : Nat) (ovf : Bool) : (tm.clobbered off ovf).isBarrier off = false := by
  unfold Team.clobbered
  exact Team.isBarrier_untagged

theorem Team.clobbered_barWord {tm : Team} {off : Nat} (hwf : Memory.wf tm.mem = true) :
    (tm.clobbered off false).barWord off = ⟨0, 0, 0, 0⟩ := Team.barWord_zero hwf

theorem Team.clobbered_value {tm : Team} {off : Nat} (hwf : Memory.wf tm.mem = true) :
    (tm.clobbered off true).mem.value off 16 = 2 ^ 105 := by
  have hvalue : (tm.mem.write off (bytesOf 16 (2 ^ 105))).value off 16 = 2 ^ 105 % 2 ^ (8 * 16) :=
    Memory.value_write hwf off 16 (2 ^ 105)
  have hmod : 2 ^ 105 % 2 ^ (8 * 16) = 2 ^ 105 := by norm_num
  rw [hmod] at hvalue
  unfold Team.clobbered
  rw [if_pos rfl]
  exact hvalue

theorem Team.clobbered_outside {tm : Team} {off : Nat} {ovf : Bool} (hwf : Memory.wf tm.mem = true) {o : Nat}
    (ho : o < off ∨ off + 16 ≤ o) : (tm.clobbered off ovf).mem.get o = tm.mem.get o :=
  Memory.get_write_outside hwf off _ (by rw [bytesOf_length]; exact ho)

/-! ## BAR.INIT and BAR.INVAL -/

theorem goodOffset_id (h : goodOffset s c) : c.tm.id = c.g.team := by
  simpa using List.find?_some (p := fun x : Team => x.id == c.g.team) h.1

theorem team?_of_goodOffset (h : goodOffset s c) : s.team? c.tm.id = some c.tm := by
  rw [goodOffset_id h]
  exact h.1

theorem Ctx.onBarrier_tagged {f : Form} {go : Nat → State → State} (h : goodOffset s c) (htag : c.tm.tagged (offA c) = true) :
    c.onBarrier f true go s = parkedOnWord s c f 0x08 := by
  have hcheck := barCheck_good h
  unfold offA at hcheck htag
  simp only [Ctx.onBarrier, hcheck, htag, Bool.and_self, if_true]
  rfl

theorem Ctx.onBarrier_untagged {f : Form} {go : Nat → State → State} (h : goodOffset s c) (htag : c.tm.tagged (offA c) = false) :
    c.onBarrier f true go s = go (offA c) (s.ownWrite c.g (offA c) 16) := by
  have hcheck := barCheck_good h
  unfold offA at hcheck htag
  simp only [Ctx.onBarrier, hcheck, htag, Bool.and_false, Bool.false_eq_true, if_false]
  rfl

theorem Ctx.onBarrier_fault {f : Form} {init : Bool} {go : Nat → State → State} {sub : Nat}
    (h : barCheck c.tm (offA c) = some sub) : c.onBarrier f init go s = parkedOnWord s c f sub := by
  unfold offA at h
  simp only [Ctx.onBarrier, h]
  rfl

/-- A tag is added to a line of a team. -/
def Team.withTag (tm : Team) (off : Nat) : Team := { tm with tags := tm.tags ++ [(off / 16, .barrier)] }

theorem Team.withTag_isBarrier {tm : Team} {off : Nat} (h : tm.tagged off = false) : (tm.withTag off).isBarrier off = true := by
  unfold Team.withTag
  exact Team.isBarrier_tagged h

theorem Team.withBar_tagged (tm : Team) (off : Nat) (b : BarWord) : (tm.withBar off b).tagged off = tm.tagged off := rfl

theorem Team.withTag_barWord (tm : Team) (off : Nat) : (tm.withTag off).barWord off = tm.barWord off := rfl

theorem Team.withTag_mem (tm : Team) (off : Nat) : (tm.withTag off).mem = tm.mem := rfl

theorem Team.newBar_rest (tm : Team) (off : Nat) (b : BarWord) : (tm.withBar off b).withTag off =
    { tm with mem := ((tm.withBar off b).withTag off).mem, tags := ((tm.withBar off b).withTag off).tags } := rfl

/-- The word of a new barrier and its tag. -/
def State.newBar (s : State) (id off expect : Nat) : State :=
  (s.putBar id off ⟨expect, 0, 0, 0⟩).onTeam id fun tm => tm.withTag off

theorem teamWork_newBar {id off expect : Nat} : TeamWork s (s.newBar id off expect) id :=
  teamWork_putBar.trans (teamWork_onTeam fun _ => rfl)

theorem State.team?_newBar {id off expect : Nat} {tm : Team} (h : s.team? id = some tm) :
    (s.newBar id off expect).team? id = some ((tm.withBar off ⟨expect, 0, 0, 0⟩).withTag off) :=
  State.team?_onTeam (f := fun tm => tm.withTag off) (fun _ => rfl) (State.team?_putBar h)

theorem barWord_fits_new {n : Nat} : BarWord.Fits ⟨n % 65536, 0, 0, 0⟩ :=
  ⟨Nat.mod_lt _ (by decide), Nat.two_pow_pos 16, Nat.two_pow_pos 32, neg_nonpos.2 (by positivity), by positivity⟩

/-- BAR.INIT past its checks. -/
theorem exec_barInit {a b : BitVec 8} (hruns : Runs s g (barInitForm a b)) (hgood : goodOffset s (s.ctxOf (barInitForm a b) g))
    (htag : (s.ctxOf (barInitForm a b) g).tm.tagged (offA (s.ctxOf (barInitForm a b) g)) = false) :
    let c := s.ctxOf (barInitForm a b) g
    exec (.barInit a b) s = .next ((((s.ownWrite g (offA c) 16).settleLine c.tm.id (offA c)).newBar c.tm.id (offA c)
      ((c.read c.b 0).toNat % 65536)).onGroup g.id Group.advance) :=
  (State.issue_runs _ hruns).trans (congrArg _ (Ctx.onBarrier_untagged hgood htag))

/-- What a team is after its new barrier. -/
theorem Team.newBar_claim {v : Team} {n : Nat} (hwf : Memory.wf v.mem = true) (htag : v.tagged (offA c) = false) :
    let u := (v.withBar (offA c) ⟨n % 65536, 0, 0, 0⟩).withTag (offA c)
    u.isBarrier (offA c) = true ∧ u.barWord (offA c) = ⟨n % 65536, 0, 0, 0⟩ ∧ outsideWord c u v ∧
      u = { v with mem := u.mem, tags := u.tags } :=
  ⟨Team.withTag_isBarrier ((Team.withBar_tagged _ _ _).trans htag),
    (Team.withTag_barWord _ _).trans (Team.withBar_barWord hwf barWord_fits_new),
    fun _ ho => (congrArg (Memory.get · _) (Team.withTag_mem _ _)).trans (Team.withBar_outside hwf ho), Team.newBar_rest _ _ _⟩

theorem State.team?_onGroup {id j : Nat} {f : Group → Group} : (s.onGroup id f).team? j = s.team? j := rfl

theorem State.mem_onGroup {id : Nat} {f : Group → Group} : (s.onGroup id f).mem = s.mem := rfl

theorem newBar_onGroup_claim {q : State} {n : Nat} (hw : MemoryWork s q) (hq : q.canonical) (hteam : s.team? c.tm.id = some c.tm)
    (hg : s.group? g.id = some g) (htag : c.tm.tagged (offA c) = false) :
    let t := (q.newBar c.tm.id (offA c) (n % 65536)).onGroup g.id Group.advance
    ∃ u v h, q.team? c.tm.id = some v ∧ t.team? c.tm.id = some u ∧
      u.isBarrier (offA c) = true ∧ u.barWord (offA c) = ⟨n % 65536, 0, 0, 0⟩ ∧ outsideWord c u v ∧
      u = { v with mem := u.mem, tags := u.tags } ∧ (∀ j, j ≠ c.tm.id → t.team? j = q.team? j) ∧ t.mem = q.mem ∧
      (q = s → v = c.tm ∧ t.mem = s.mem) ∧
      t.group? g.id = some h ∧ h.arch.pc = g.arch.pc + 4 ∧ h.arch.g = g.arch.g ∧ h.phase = .ready ∧
      (s.reductions = [] → h = at' g (g.arch.pc + 4)) := by
  intro t
  obtain ⟨v, hv, hsans⟩ := hw.toKeepsPrograms.team?_some hteam
  have htags : v.tags = c.tm.tags := congrArg (fun x => x.tags) hsans
  have hvtag : v.tagged (offA c) = false := by
    unfold Team.tagged at htag ⊢
    rw [htags]
    exact htag
  obtain ⟨k, hk, hkg, hstill⟩ := hw.group?_some hg
  have hnew := teamWork_newBar (s := q) (id := c.tm.id) (off := offA c) (expect := n % 65536)
  obtain ⟨hbar, hword, houtside, hrest⟩ := Team.newBar_claim (c := c) (n := n) (hq.team? hv) hvtag
  have hpc : k.arch.pc + 4 = g.arch.pc + 4 := congrArg (· + 4) (Group.sansXl_pc hkg)
  have hregs : k.arch.g = g.arch.g := Group.sansXl_g hkg
  have hmem : t.mem = q.mem := State.mem_onGroup.trans hnew.mem
  refine ⟨(v.withBar (offA c) ⟨n % 65536, 0, 0, 0⟩).withTag (offA c), v, k.advance, hv,
    State.team?_onGroup.trans (State.team?_newBar hv), hbar, hword, houtside, hrest,
    fun j hj => State.team?_onGroup.trans (hnew.others j hj), hmem, fun hsame => ?_,
    State.group?_onGroup (fun _ => rfl) hk, hpc, hregs, rfl, fun hnone => ?_⟩
  · rw [hsame] at hv
    exact ⟨Option.some.inj (hv.symm.trans hteam), hmem.trans (congrArg State.mem hsame)⟩
  · rw [hstill hnone]
    rfl

theorem barrierStartEnd_init {a b : BitVec 8} (hruns : Runs s g (barInitForm a b)) (hcan : s.canonical)
    (hgood : goodOffset s (s.ctxOf (barInitForm a b) g))
    (htag : (s.ctxOf (barInitForm a b) g).tm.tagged (offA (s.ctxOf (barInitForm a b) g)) = false) :
    let c := s.ctxOf (barInitForm a b) g
    let q := (s.ownWrite g (offA c) 16).settleLine c.tm.id (offA c)
    ∃ t u v h, exec (.barInit a b) s = .next t ∧ q.team? c.tm.id = some v ∧ t.team? c.tm.id = some u ∧
      u.isBarrier (offA c) = true ∧ u.barWord (offA c) = ⟨(c.read c.b 0).toNat % 65536, 0, 0, 0⟩ ∧ outsideWord c u v ∧
      u = { v with mem := u.mem, tags := u.tags } ∧ (∀ j, j ≠ c.tm.id → t.team? j = q.team? j) ∧ t.mem = q.mem ∧
      (quiet s g → (∀ d ∈ s.deliveries, d.product.lands (offA c) 16 = false) → v = c.tm ∧ t.mem = s.mem) ∧
      t.group? g.id = some h ∧ h.arch.pc = g.arch.pc + 4 ∧ h.arch.g = g.arch.g ∧ h.phase = .ready ∧
      (s.reductions = [] → h = at' g (g.arch.pc + 4)) := by
  intro c q
  obtain ⟨u, v, h, hv, hu, hbar, hword, houtside, hrest, hothers, hmem, hsame, hgroup⟩ :=
    newBar_onGroup_claim (n := (c.read c.b 0).toNat) (memoryWork_ownWrite.trans memoryWork_settleLine : MemoryWork s q)
      hcan.ownWrite.settleLine (team?_of_goodOffset hgood) hruns.group? htag
  refine ⟨_, u, v, h, exec_barInit hruns hgood htag, hv, hu, hbar, hword, houtside, hrest, hothers, hmem,
    fun hquiet htiles => hsame ?_, hgroup⟩
  simp only [q]
  rw [State.ownWrite_quiet hquiet, State.settleLine_quiet hquiet.1 htiles]

/-- A barrier that ends: its word is cleared, or it was none. -/
def State.endBar (s : State) (tm : Team) (off : Nat) : State := if tm.isBarrier off then s.clobber tm.id off false else s

theorem teamWork_endBar {tm : Team} {off : Nat} : TeamWork s (s.endBar tm off) tm.id := by
  unfold State.endBar
  split
  · exact teamWork_clobber
  · exact .refl

theorem barrierStartEnd_inval {a : BitVec 8} (hruns : Runs s g (barInvalForm a)) (hcan : s.canonical)
    (hgood : goodOffset s (s.ctxOf (barInvalForm a) g)) :
    let c := s.ctxOf (barInvalForm a) g
    ∃ t u h, exec (.barInval a) s = .next t ∧ t.team? c.tm.id = some u ∧ u.isBarrier (offA c) = false ∧
      (c.tm.isBarrier (offA c) = true → u.barWord (offA c) = ⟨0, 0, 0, 0⟩) ∧ outsideWord c u c.tm ∧
      (∀ j, j ≠ c.tm.id → t.team? j = s.team? j) ∧
      (c.tm.isBarrier (offA c) = false → u = c.tm) ∧ t.mem = s.mem ∧ t.stores = s.stores ∧ t.group? g.id = some h ∧
      h.arch = (at' g (g.arch.pc + 4)).arch ∧ h.phase = .ready := by
  intro c
  have hteam := team?_of_goodOffset hgood
  have hwf : Memory.wf c.tm.mem = true := hcan.team? hteam
  have hexec : exec (.barInval a) s = .next (((s.ownWrite g (offA c) 16).endBar c.tm (offA c)).onGroup g.id Group.advance) :=
    (State.issue_runs _ hruns).trans (congrArg _ (Ctx.onBarrier_good hgood))
  have hwork : TeamWork s ((s.ownWrite g (offA c) 16).endBar c.tm (offA c)) c.tm.id :=
    teamWork_ownWrite.trans teamWork_endBar
  obtain ⟨h, hh, harch, hready⟩ := hwork.group?_advance hruns.group?
  have hown : (s.ownWrite g (offA c) 16).team? c.tm.id = some c.tm := State.team?_ownWrite.trans hteam
  cases hbar : c.tm.isBarrier (offA c) with
  | true =>
    have hcleared : ((s.ownWrite g (offA c) 16).endBar c.tm (offA c)).team? c.tm.id = some (c.tm.clobbered (offA c) false) := by
      unfold State.endBar
      rw [if_pos hbar]
      exact State.team?_clobber hown
    exact ⟨_, _, h, hexec, hcleared, Team.clobbered_isBarrier _ _ _, fun _ => Team.clobbered_barWord hwf,
      fun _ ho => Team.clobbered_outside hwf ho, hwork.others, fun hno => (nomatch hno), hwork.mem, hwork.stores, hh, harch, hready⟩
  | false =>
    have hsame : ((s.ownWrite g (offA c) 16).endBar c.tm (offA c)).team? c.tm.id = some c.tm := by
      unfold State.endBar
      rw [if_neg (by rw [hbar]; exact Bool.false_ne_true)]
      exact hown
    exact ⟨_, _, h, hexec, hsame, hbar, fun hno => (nomatch hno), fun _ _ => rfl, hwork.others, fun _ => rfl, hwork.mem,
      hwork.stores, hh, harch, hready⟩

theorem barrierStartEnd : Claims.BarrierStartEnd :=
  ⟨fun _ _ _ _ hruns hcan hgood =>
    ⟨fun htag => (State.issue_runs _ hruns).trans (congrArg _ (Ctx.onBarrier_tagged hgood htag)),
      fun htag => barrierStartEnd_init hruns hcan hgood htag⟩,
    fun _ _ _ hruns hcan hgood => barrierStartEnd_inval hruns hcan hgood⟩

/-! ## BAR.ARRIVE -/

theorem State.arrive_counts {id off : Nat} {tm : Team} (h : s.team? id = some tm) (hbar : tm.isBarrier off = true)
    (hlt : (tm.barWord off).arrived ≠ (tm.barWord off).expect) :
    s.arrive id off = ((s.putBar id off { tm.barWord off with arrived := (tm.barWord off).arrived + 1 }).barComplete id off,
      Status.done, wordOf (tm.barWord off).phase) := by
  unfold State.arrive
  simp only [h, hbar, Bool.not_true, Bool.false_eq_true, if_false, hlt]

theorem State.arrive_over {id off : Nat} {tm : Team} (h : s.team? id = some tm) (hbar : tm.isBarrier off = true)
    (hfull : (tm.barWord off).arrived = (tm.barWord off).expect) :
    s.arrive id off = (s.clobber id off false, Status.clobbered, 0) := by
  unfold State.arrive
  simp only [h, hbar, Bool.not_true, Bool.false_eq_true, if_false, hfull, if_true]

theorem State.arrive_none {id off : Nat} {tm : Team} (h : s.team? id = some tm) (hbar : tm.isBarrier off = false) :
    s.arrive id off = (s, Status.clobbered, 0) := by
  unfold State.arrive
  simp only [h, hbar, Bool.not_false, if_true]

theorem BarWord.Fits.arrive {b : BarWord} (h : b.Fits) (hlt : b.arrived < b.expect) :
    ({ b with arrived := b.arrived + 1 } : BarWord).Fits :=
  ⟨h.expect, Nat.lt_of_le_of_lt hlt h.expect, h.phase, h.pendLow, h.pendHigh⟩

theorem arrivedWord_completed {b : BarWord} (hlt : b.arrived < b.expect) :
    ({ b with arrived := b.arrived + 1 } : BarWord).completed = arrivedWord b := by
  unfold BarWord.completed arrivedWord
  have hne : b.expect ≠ 0 := Nat.ne_zero_of_lt hlt
  by_cases hfull : b.arrived + 1 = b.expect ∧ b.pend = 0
  · rw [if_pos hfull, if_pos ⟨hne, hfull.1, hfull.2⟩]
    exact congrArg (BarWord.mk b.expect 0 _) hfull.2
  · rw [if_neg hfull, if_neg fun h => hfull ⟨h.2.1, h.2.2⟩]

/-- The answer of BAR.ARRIVE to what its arrival gives. -/
def Ctx.arriveAnswer (c : Ctx) (x : State × Nat × Word) : State :=
  match x with
  | (s, st, token) =>
    c.answer [statusWord st, if st = Status.clobbered then Config.word s.draw else token] { s with draw := s.draw + 1 }

theorem exec_barArrive (d a : BitVec 8) (s : State) : exec (.barArrive d a) s = s.issue (barArriveForm d a) fun c s =>
    c.onBarrier (barArriveForm d a) false (fun off s => c.arriveAnswer ((s.release c.g 1).arrive c.tm.id off)) s := rfl

theorem Ctx.arriveAnswer_teams {st : Nat} {token : Word} : (c.arriveAnswer (t, st, token)).teams = t.teams := rfl

theorem Ctx.arriveAnswer_mem {st : Nat} {token : Word} : (c.arriveAnswer (t, st, token)).mem = t.mem := rfl

theorem Ctx.team?_arriveAnswer {st j : Nat} {token : Word} : (c.arriveAnswer (t, st, token)).team? j = t.team? j := rfl

theorem TeamWork.group?_arriveAnswer {id st : Nat} {token : Word} (w : TeamWork s t id) (hk : s.group? c.g.id = some k) :
    ∃ h, (c.arriveAnswer (t, st, token)).group? c.g.id = some h ∧
      Answered k h c.dreg [statusWord st, if st = Status.clobbered then Config.word t.draw else token] := w.group?_answer hk

theorem arrive_counts_claim {u : Team} (hu : s.team? c.tm.id = some u) (hk : s.group? c.g.id = some k) (hwf : Memory.wf u.mem = true)
    (hbar : u.isBarrier (offA c) = true) (hlt : (u.barWord (offA c)).arrived < (u.barWord (offA c)).expect) :
    ∃ t v h, c.arriveAnswer (s.arrive c.tm.id (offA c)) = t ∧ t.team? c.tm.id = some v ∧
      v.barWord (offA c) = arrivedWord (u.barWord (offA c)) ∧ v.isBarrier (offA c) = true ∧ outsideWord c v u ∧ t.mem = s.mem ∧
      (∀ j, j ≠ c.tm.id → t.team? j = s.team? j) ∧ t.group? c.g.id = some h ∧
      Answered k h c.dreg [0, wordOf (u.barWord (offA c)).phase] := by
  rw [State.arrive_counts hu hbar (Nat.ne_of_lt hlt)]
  have hfits := (Team.barWord_fits u (offA c)).arrive hlt
  obtain ⟨v, hv, hword, htag, houtside⟩ := State.team?_putBar_barComplete (off := offA c) hu hwf hfits
  have hwork := (teamWork_putBar (s := s) (id := c.tm.id) (off := offA c)
    (b := { u.barWord (offA c) with arrived := (u.barWord (offA c)).arrived + 1 })).trans (teamWork_barComplete (off := offA c))
  obtain ⟨h, hh, hanswer⟩ := hwork.group?_arriveAnswer (c := c) (st := Status.done) (token := wordOf (u.barWord (offA c)).phase) hk
  exact ⟨_, v, h, rfl, Ctx.team?_arriveAnswer.trans hv, hword.trans (arrivedWord_completed hlt), htag.trans hbar, houtside,
    Ctx.arriveAnswer_mem.trans hwork.mem, fun j hj => Ctx.team?_arriveAnswer.trans (hwork.others j hj), hh, hanswer⟩

theorem arrive_over_claim {u : Team} (hu : s.team? c.tm.id = some u) (hk : s.group? c.g.id = some k) (hwf : Memory.wf u.mem = true)
    (hbar : u.isBarrier (offA c) = true) (hfull : (u.barWord (offA c)).arrived = (u.barWord (offA c)).expect) :
    ∃ t v h x, c.arriveAnswer (s.arrive c.tm.id (offA c)) = t ∧ t.team? c.tm.id = some v ∧ v.barWord (offA c) = ⟨0, 0, 0, 0⟩ ∧
      v.isBarrier (offA c) = false ∧ outsideWord c v u ∧ t.mem = s.mem ∧ (∀ j, j ≠ c.tm.id → t.team? j = s.team? j) ∧
      t.group? c.g.id = some h ∧ Answered k h c.dreg [2, x] := by
  rw [State.arrive_over hu hbar hfull]
  have hwork : TeamWork s (s.clobber c.tm.id (offA c) false) c.tm.id := teamWork_clobber
  obtain ⟨h, hh, hanswer⟩ := hwork.group?_arriveAnswer (c := c) (st := Status.clobbered) (token := 0) hk
  exact ⟨_, _, h, _, rfl, Ctx.team?_arriveAnswer.trans (State.team?_clobber hu), Team.clobbered_barWord hwf,
    Team.clobbered_isBarrier _ _ _, fun _ ho => Team.clobbered_outside hwf ho, Ctx.arriveAnswer_mem.trans hwork.mem,
    fun j hj => Ctx.team?_arriveAnswer.trans (hwork.others j hj), hh, hanswer⟩

theorem arrive_none_claim {u : Team} (hu : s.team? c.tm.id = some u) (hk : s.group? c.g.id = some k)
    (hbar : u.isBarrier (offA c) = false) :
    ∃ t h x, c.arriveAnswer (s.arrive c.tm.id (offA c)) = t ∧ t.teams = s.teams ∧ t.mem = s.mem ∧ t.group? c.g.id = some h ∧
      Answered k h c.dreg [2, x] := by
  rw [State.arrive_none hu hbar]
  obtain ⟨h, hh, hanswer⟩ :=
    (TeamWork.refl (s := s) (id := c.tm.id)).group?_arriveAnswer (c := c) (st := Status.clobbered) (token := 0) hk
  exact ⟨_, h, _, rfl, Ctx.arriveAnswer_teams, Ctx.arriveAnswer_mem, hh, hanswer⟩

theorem barrierArrivals : Claims.BarrierArrivals := by
  intro d a s g hruns hcan c hgood r
  have hexec : exec (.barArrive d a) s = .next (c.arriveAnswer (r.arrive c.tm.id (offA c))) :=
    (exec_barArrive d a s).trans ((State.issue_runs _ hruns).trans (congrArg _ (Ctx.onBarrier_good hgood)))
  refine ⟨fun hquiet => ?_, fun u k hu hk => ?_⟩
  · have hr : r = s.enterCarousels g.id := by
      simp only [r]
      rw [State.ownWrite_quiet hquiet, State.release_quiet hquiet]
    rw [hr, State.enterCarousels_rest]
    exact ⟨rfl, rfl⟩
  have hwf : Memory.wf u.mem = true := (hcan.ownWrite.release).team? hu
  rw [hexec]
  refine ⟨fun hbar hlt => ?_, fun hbar hfull => ?_, fun hbar => ?_⟩
  · obtain ⟨t, v, h, ht, hclaim⟩ := arrive_counts_claim hu hk hwf hbar hlt
    exact ⟨t, v, h, congrArg _ ht, hclaim⟩
  · obtain ⟨t, v, h, x, ht, hclaim⟩ := arrive_over_claim hu hk hwf hbar hfull
    exact ⟨t, v, h, x, congrArg _ ht, hclaim⟩
  · obtain ⟨t, h, x, ht, hclaim⟩ := arrive_none_claim hu hk hbar
    exact ⟨t, h, x, congrArg _ ht, hclaim⟩

/-! ## BAR.EXPECT -/

theorem State.barPend_none {id off : Nat} {tm : Team} {n : Int} (h : s.team? id = some tm) (hbar : tm.isBarrier off = false) :
    s.barPend id off n = s := by
  unfold State.barPend
  simp only [h, hbar, Bool.not_false, if_true]

theorem State.barPend_over {id off : Nat} {tm : Team} {n : Int} (h : s.team? id = some tm) (hbar : tm.isBarrier off = true)
    (hover : 2 ^ 39 ≤ (tm.barWord off).pend + n) : s.barPend id off n = s.clobber id off true := by
  unfold State.barPend
  simp only [h, hbar, Bool.not_true, Bool.false_eq_true, if_false]
  exact if_pos (.inr hover)

theorem State.barPend_adds {id off : Nat} {tm : Team} {n : Int} (h : s.team? id = some tm) (hbar : tm.isBarrier off = true)
    (hlow : -(2 ^ 39 : Int) ≤ (tm.barWord off).pend + n) (hhigh : (tm.barWord off).pend + n < 2 ^ 39) :
    s.barPend id off n = (s.putBar id off { tm.barWord off with pend := (tm.barWord off).pend + n }).barComplete id off := by
  unfold State.barPend
  simp only [h, hbar, Bool.not_true, Bool.false_eq_true, if_false]
  exact if_neg fun hout => hout.elim (not_lt.2 hlow) (not_le.2 hhigh)

theorem teamWork_barPend {id off : Nat} {n : Int} : TeamWork s (s.barPend id off n) id := by
  unfold State.barPend
  split
  · exact .refl
  · split
    · exact .refl
    · dsimp only
      split
      · exact teamWork_clobber
      · exact teamWork_putBar.trans teamWork_barComplete

theorem pendedWord_completed {b : BarWord} {n : Int} : ({ b with pend := b.pend + n } : BarWord).completed = pendedWord b n := by
  unfold BarWord.completed pendedWord
  by_cases hfull : b.expect ≠ 0 ∧ b.arrived = b.expect ∧ b.pend + n = 0
  · rw [if_pos hfull, if_pos hfull]
    exact congrArg (BarWord.mk b.expect 0 _) hfull.2.2
  · rw [if_neg hfull, if_neg hfull]

/-- What the team of BAR.EXPECT is afterwards. -/
theorem State.team?_barPend {tm : Team} {id off : Nat} {n : Int} (h : s.team? id = some tm) (hwf : Memory.wf tm.mem = true) (hn : 0 ≤ n) :
    ∃ u, (s.barPend id off n).team? id = some u ∧ (∀ o, o < off ∨ off + 16 ≤ o → u.mem.get o = tm.mem.get o) ∧
      (tm.isBarrier off = false → u = tm) ∧
      (tm.isBarrier off = true → (tm.barWord off).pend + n < 2 ^ 39 →
        u.barWord off = pendedWord (tm.barWord off) n ∧ u.isBarrier off = true) ∧
      (tm.isBarrier off = true → 2 ^ 39 ≤ (tm.barWord off).pend + n → u.isBarrier off = false ∧ u.mem.value off 16 = 2 ^ 105) := by
  have hfits := Team.barWord_fits tm off
  cases hbar : tm.isBarrier off with
  | false =>
    rw [State.barPend_none h hbar]
    exact ⟨tm, h, fun _ _ => rfl, fun _ => rfl, fun hno => (nomatch hno), fun hno => nomatch hno⟩
  | true =>
    by_cases hover : 2 ^ 39 ≤ (tm.barWord off).pend + n
    · rw [State.barPend_over h hbar hover]
      exact ⟨_, State.team?_clobber h, fun _ ho => Team.clobbered_outside hwf ho, fun hno => (nomatch hno),
        fun _ hlt => absurd hover (not_le.2 hlt), fun _ _ => ⟨Team.clobbered_isBarrier _ _ _, Team.clobbered_value hwf⟩⟩
    · have hhigh := not_le.1 hover
      have hlow : -(2 ^ 39 : Int) ≤ (tm.barWord off).pend + n := le_trans hfits.pendLow (le_add_of_nonneg_right hn)
      rw [State.barPend_adds h hbar hlow hhigh]
      obtain ⟨v, hv, hword, htag, houtside⟩ := State.team?_putBar_barComplete (off := off) h hwf
        (b := { tm.barWord off with pend := (tm.barWord off).pend + n }) ⟨hfits.expect, hfits.arrived, hfits.phase, hlow, hhigh⟩
      exact ⟨v, hv, houtside, fun hno => (nomatch hno), fun _ _ => ⟨hword.trans pendedWord_completed, htag.trans hbar⟩,
        fun _ hle => absurd hle hover⟩

theorem barrierExpect : Claims.BarrierExpect := by
  intro a b s g hruns hcan c hgood w n
  have hteam := team?_of_goodOffset hgood
  have hown : (s.ownWrite g (offA c) 16).team? c.tm.id = some c.tm := State.team?_ownWrite.trans hteam
  have hexec : exec (.barExpect a b) s =
      .next (((s.ownWrite g (offA c) 16).barPend c.tm.id (offA c) n).onGroup g.id Group.advance) :=
    (State.issue_runs _ hruns).trans (congrArg _ (Ctx.onBarrier_good hgood))
  have hwork : TeamWork s ((s.ownWrite g (offA c) 16).barPend c.tm.id (offA c) n) c.tm.id :=
    teamWork_ownWrite.trans teamWork_barPend
  obtain ⟨h, hh, harch, hready⟩ := hwork.group?_advance hruns.group?
  obtain ⟨u, hu, houtside, hnone, hadds, hover⟩ := State.team?_barPend (off := offA c) (n := n) hown
    (hcan.team? hteam) (Int.natCast_nonneg _)
  exact ⟨_, u, h, hexec, hu, hwork.mem, hwork.stores, houtside, hwork.others, hh, harch, hready, hnone, hadds, hover⟩

/-! ## Faults of the offset -/

/-- Every barrier instruction first checks the offset of its word. -/
theorem exec_barriers {d a b : BitVec 8} {e : Instr × Form} (he : e ∈ barriers d a b) :
    ∃ (init : Bool) (go : Ctx → Nat → State → State), ∀ s, exec e.1 s = s.issue e.2 fun c s => c.onBarrier e.2 init (go c) s := by
  simp only [barriers, List.mem_cons, List.not_mem_nil, or_false] at he
  obtain rfl | rfl | rfl | rfl := he
  · exact ⟨_, _, fun _ => rfl⟩
  · exact ⟨_, _, fun _ => rfl⟩
  · exact ⟨_, _, fun _ => rfl⟩
  · exact ⟨_, _, fun _ => rfl⟩

theorem barrierFaults : Claims.BarrierFaults := by
  intro d a b e he s g hruns c
  obtain ⟨init, go, hexec⟩ := exec_barriers he
  have hparks : ∀ sub, barCheck c.tm (offA c) = some sub → exec e.1 s = .next (parkedOnWord s c e.2 sub) := fun sub hsub =>
    (hexec s).trans ((State.issue_runs _ hruns).trans (congrArg _ (Ctx.onBarrier_fault hsub)))
  refine ⟨fun hodd => hparks _ (if_pos hodd), fun haligned hpast => hparks _ ?_⟩
  rw [barCheck, if_neg (not_not.2 haligned), if_pos hpast]

/-- Settles O28: every barrier instruction works on the word and the tag of its line through the same few operations of the
team (`TeamWork`), whose effect on that word is known by reading back what they write. -/
theorem barriers : Obligations.Barriers := ⟨barrierStartEnd, barrierArrivals, barrierExpect, barrierFaults⟩

end Sys2Proof.Machine

/-! # Synchronisation: CLOSE, ACQ and REL (09 R196, R199) -/

namespace Sys2Proof.Machine

open Sys2Proof.Claims

set_option Elab.async false
variable {s t u : State} {g k : Group} {c : Ctx}

/-! ## CLOSE -/

/-- A group whose open commands are put in a batch (09 R196). -/
def Group.closed (g : Group) (b : Batch) : Group :=
  let all := g.batches ++ [b]
  { g with batches := all.drop (all.length - 64), opens := [], nextBatch := nextNumber g.nextBatch }

theorem nextNumber_eq (n : Word) : nextNumber n = if n = 0xFFFFFFFF then 1 else n + 1 := by
  unfold nextNumber
  exact if_congr (by bv_omega) rfl rfl

theorem Group.closed_last (g : Group) (b : Batch) : (g.closed b).batches.getLast? = some b := by
  simp only [Group.closed, List.getLast?_drop, List.length_append, List.length_singleton, List.getLast?_append, List.getLast?_singleton]
  rw [if_neg (by omega)]
  rfl

theorem closeBody_full (h : 64 ≤ (unreported c.g).length) : closeBody c s = c.answer [0] s := if_pos h

theorem closeBody_room (h : (unreported c.g).length < 64) : closeBody c s =
    c.answer [c.g.nextBatch] (s.onGroup c.g.id fun k =>
      { k with batches := (c.g.closed ⟨c.g.nextBatch, c.g.opens, false⟩).batches, opens := [], nextBatch := nextNumber k.nextBatch }) :=
  if_neg (Nat.not_le.2 h)

/-- An answer in registers leaves the group's batches as they are. -/
theorem Group.setGs_advance_batches (k : Group) (n : Nat) (ws : List Word) :
    (k.setGs n ws).advance.opens = k.opens ∧ (k.setGs n ws).advance.batches = k.batches ∧
      (k.setGs n ws).advance.nextBatch = k.nextBatch := by
  rw [Group.setGs_eq]
  exact ⟨rfl, rfl, rfl⟩

theorem closeBatches : Claims.CloseBatches := by
  intro d s g hruns c
  have hexec : exec (.close d) s = .next (closeBody c s) := State.issue_runs _ hruns
  have hg : s.group? c.g.id = some g := hruns.group?
  by_cases hroom : (unreported g).length < 64
  · rw [hexec, closeBody_room (c := c) hroom]
    have hclosed := State.group?_onGroup (f := fun k : Group => { k with
      batches := (c.g.closed ⟨c.g.nextBatch, c.g.opens, false⟩).batches, opens := [], nextBatch := nextNumber k.nextBatch })
      (fun _ => rfl) hg
    have hans := State.group?_onGroup (f := fun k : Group => (k.setGs c.dreg [c.g.nextBatch]).advance) (fun _ => rfl) hclosed
    obtain ⟨hopens, hbatches, hnext⟩ := Group.setGs_advance_batches (g.closed ⟨g.nextBatch, g.opens, false⟩) c.dreg [g.nextBatch]
    refine ⟨_, _, rfl, hans, ⟨fun _ => rfl, fun _ => rfl⟩, fun _ => ⟨Group.answered_setGs rfl, hopens, ?_, ?_⟩,
      fun hfull => absurd hroom (Nat.not_lt.2 hfull)⟩
    · exact (congrArg List.getLast? hbatches).trans (Group.closed_last g _)
    · exact hnext.trans (nextNumber_eq g.nextBatch)
  · have hfull : 64 ≤ (unreported g).length := Nat.not_lt.1 hroom
    rw [hexec, closeBody_full (c := c) hfull]
    have hans := State.group?_onGroup (f := fun k : Group => (k.setGs c.dreg [0]).advance) (fun _ => rfl) hg
    obtain ⟨hopens, hbatches, -⟩ := Group.setGs_advance_batches g c.dreg [0]
    exact ⟨_, _, rfl, hans, ⟨fun _ => rfl, fun _ => rfl⟩, fun h => absurd h hroom,
      fun _ => ⟨Group.answered_setGs rfl, hopens, hbatches⟩⟩

/-! ## ACQ and REL -/

/-- The group's stores at a scope at least as wide. -/
def State.raised (s : State) (gid scope : Nat) : State :=
  { s with stores := updateWhere (fun e => e.gid == gid) (fun e => { e with scope := max e.scope scope }) s.stores }

/-- REL once the stores of others that its group sees are performed, and its own take its scope. -/
def State.relRaised (s : State) (g : Group) (scope : Nat) : State :=
  let s := s.enterCarousels g.id
  (s.performAll scope ((s.overlay g s.nextId).filter (·.gid != g.id))).raised g.id scope

/-- What REL does to stores, before its group's later ones come after it. -/
def State.relStores (s : State) (g : Group) (scope : Nat) : State :=
  let s := s.relRaised g scope
  s.performAll scope (s.stores.filter fun e => e.gid == g.id && e.seenAt.isSome)

/-- REL: its stores, and then its floor. -/
theorem State.rel_eq {scope : Nat} : s.rel g scope =
    (s.relStores g scope).onGroup g.id fun k => { k with relFloor := (s.relStores g scope).nextId } := rfl

theorem memoryWork_raised {gid scope : Nat} : MemoryWork s (s.raised gid scope) :=
  .of_eq (hs := keepsScopes_updateWhere fun _ => ⟨rfl, Nat.le_max_left _ _⟩)

theorem State.raised_scope {gid scope : Nat} {e : PendingStore} (he : e ∈ (s.raised gid scope).stores) (hgid : e.gid = gid) :
    scope ≤ e.scope := by
  obtain ⟨x, -, rfl⟩ := List.mem_map.1 he
  by_cases hx : (x.gid == gid) = true
  · rw [if_pos hx]
    exact Nat.le_max_right _ _
  · rw [if_neg hx] at hgid
    exact absurd (beq_iff_eq.2 hgid) hx

theorem memoryWork_relRaised {scope : Nat} : MemoryWork s (s.relRaised g scope) :=
  (memoryWork_enterCarousels.trans memoryWork_performAll).trans memoryWork_raised

theorem memoryWork_relStores {scope : Nat} : MemoryWork s (s.relStores g scope) := memoryWork_relRaised.trans memoryWork_performAll

/-- After REL the group's stores on their way take at least its scope. -/
theorem State.relStores_scope {scope : Nat} (hnone : s.reductions = []) :
    ∀ e ∈ (s.relStores g scope).stores, e.gid = g.id → scope ≤ e.scope := by
  intro e he hgid
  obtain ⟨-, hraised, -⟩ := (memoryWork_relRaised (s := s) (g := g) (scope := scope)).still hnone
  obtain ⟨-, -, hkeeps⟩ := memoryWork_performAll.still hraised
  obtain ⟨x, hx, hxgid, hle⟩ := hkeeps e he
  exact (State.raised_scope hx (hxgid.trans hgid)).trans hle

theorem acquire_claim (hruns : Runs s g acqForm) : ∃ t, exec .acq s = .next t ∧ SameMemory s t ∧ t.stores = s.stores ∧
    t.group? g.id = some { at' g (g.arch.pc + 4) with acqFloor := s.nextId } :=
  ⟨_, State.issue_runs _ hruns, ⟨fun _ => rfl, fun _ => rfl⟩, rfl, State.group?_onGroup (fun _ => rfl) hruns.group?⟩

theorem release_claim (hruns : Runs s g relForm) :
    ∃ t h, exec .rel s = .next t ∧ t.group? g.id = some h ∧ h.relFloor = t.nextId ∧ h.arch.pc = g.arch.pc + 4 ∧
      h.arch.g = g.arch.g ∧ h.phase = .ready ∧ (s.reductions = [] → h = { at' g (g.arch.pc + 4) with relFloor := t.nextId } ∧
        ∀ e ∈ t.stores, e.gid = g.id → modeScope (s.ctxOf relForm g).mode ≤ e.scope) := by
  obtain ⟨k, hk, hsans, hstill⟩ := (memoryWork_relStores (s := s) (g := g) (scope := modeScope (s.ctxOf relForm g).mode)).group?_some
    hruns.group?
  have hpc : k.arch.pc + 4 = g.arch.pc + 4 := congrArg (· + 4) (Group.sansXl_pc hsans)
  have hregs : k.arch.g = g.arch.g := Group.sansXl_g hsans
  have hfloor := State.group?_onGroup (f := fun k : Group => { k with
    relFloor := (s.relStores g (modeScope (s.ctxOf relForm g).mode)).nextId }) (fun _ => rfl) hk
  refine ⟨_, _, State.issue_runs _ hruns, State.group?_onGroup (f := Group.advance) (fun _ => rfl) hfloor, rfl,
    hpc, hregs, rfl, fun hnone => ⟨?_, State.relStores_scope hnone⟩⟩
  rw [hstill hnone]
  rfl

/-- Settles O29: CLOSE by its two cases, ACQ directly, and REL since work of the memory keeps its group's program and, with no
reduction in flight, narrows no store's scope. -/
theorem batchesAndOrder : Obligations.BatchesAndOrder :=
  ⟨closeBatches, fun _ _ hruns => acquire_claim hruns, fun _ _ hruns => release_claim hruns⟩

end Sys2Proof.Machine

/-! # Synchronisation: queues (09 R209 to R211) -/

namespace Sys2Proof.Machine

open Sys2Proof.Claims

set_option Elab.async false
variable {s t u : State} {g k : Group} {c : Ctx} {tm : Team} {q : QueueDecl} {h : QueueHeader}

/-! ## The queue of a team -/

theorem Memory.value_lt (m : Memory) (a n : Nat) : m.value a n < 256 ^ n := by
  have hlt := ofBytes_lt (m.read a n)
  rwa [Memory.read_length] at hlt

/-- Bytes that stay give the same value. -/
theorem Memory.value_write_outside {m : Memory} (hwf : Memory.wf m = true) {a b n : Nat} {bs : List Byte}
    (hout : b + n ≤ a ∨ a + bs.length ≤ b) : (m.write a bs).value b n = m.value b n := by
  unfold Memory.value
  rw [Memory.read_eq (Memory.write_wf hwf a bs), Memory.read_eq hwf]
  refine congrArg ofBytes (List.map_congr_left fun i hi => Memory.get_write_outside hwf a bs ?_)
  have := List.mem_range.1 hi
  omega

theorem State.openQueue_some {id n : Nat} (hteam : s.team? id = some tm) (hopen : s.openQueue id n = some (q, h)) :
    h = tm.header q := by
  simp only [State.openQueue, hteam] at hopen
  split at hopen
  · exact nomatch hopen
  · split at hopen
    · obtain ⟨rfl, rfl⟩ := Prod.mk.inj (Option.some.inj hopen)
      rfl
    · exact nomatch hopen

theorem teamWork_putHeader {id hdr off : Nat} {bs : List Byte} : TeamWork s (s.putHeader id hdr off bs) id :=
  teamWork_onTeam fun _ => rfl

theorem State.team?_putHeader {id hdr off : Nat} {bs : List Byte} (hteam : s.team? id = some tm) :
    (s.putHeader id hdr off bs).team? id = some { tm with mem := tm.mem.write (hdr + off) bs } :=
  State.team?_onTeam (f := fun tm => { tm with mem := tm.mem.write (hdr + off) bs }) (fun _ => rfl) hteam

/-! ## QCREDIT -/

/-- The SENDER word of the i-th oldest held entry. -/
def heldSender (tm : Team) (h : QueueHeader) (i : Nat) : Nat :=
  tm.mem.value (h.ring + 32 * ((h.head + 2 ^ 32 - h.held + i) % 2 ^ 32 % h.slots) + 0x10) 4

/-- The permits that go back are those of the held entries whose senders are found, in order. -/
theorem State.returnPermits_eq {n : Nat} : ∃ k ps, s.returnPermits tm q h n = { s with nextId := k, permits := s.permits ++ ps } ∧
    ps.map (fun p => (p.team, p.entry)) = (List.range n).filterMap (fun i =>
      (s.senderTeam tm q.num (heldSender tm h i)).map fun v => (v.id, bits (heldSender tm h i) 12 4)) := by
  unfold State.returnPermits
  generalize List.range n = l
  induction l generalizing s with
  | nil => exact ⟨s.nextId, [], by rw [List.append_nil]; rfl, rfl⟩
  | cons i l ih =>
    cases hsender : s.senderTeam tm q.num (heldSender tm h i) with
    | none =>
      obtain ⟨k, ps, hfold, hps⟩ := ih (s := s)
      refine ⟨k, ps, ?_, ?_⟩
      · rw [List.foldl_cons]
        unfold heldSender at hsender
        simp only [hsender]
        exact hfold
      · rw [List.filterMap_cons, hsender, hps]
        rfl
    | some v =>
      obtain ⟨k, ps, hfold, hps⟩ := ih (s := { s with
        nextId := s.nextId + 1, permits := s.permits ++ [⟨s.nextId, v.id, bits (heldSender tm h i) 12 4⟩] })
      refine ⟨k, ⟨s.nextId, v.id, bits (heldSender tm h i) 12 4⟩ :: ps, ?_, ?_⟩
      · rw [List.foldl_cons]
        unfold heldSender at hsender hfold ⊢
        simp only [hsender]
        rw [hfold, List.append_assoc]
        rfl
      · rw [List.filterMap_cons, hsender, List.map_cons, hps]
        rfl

/-- QCREDIT on an open queue, past the permits that go back. -/
def Ctx.credited (c : Ctx) (q : QueueDecl) (h : QueueHeader) (n : Nat) (s : State) : State :=
  ((s.returnPermits c.tm q h n).ownWrite c.g q.hdr 32).putHeader c.tm.id q.hdr 0x10 (bytesOf 4 (h.held - n))

theorem exec_qcredit (d a b : BitVec 8) (s : State) : exec (.qcredit d a b) s = s.issue (qcreditForm d a b) fun c s =>
    match s.openQueue c.tm.id (c.read c.a 0).toNat with
    | none => c.answer [0] s
    | some (q, h) => c.answer [wordOf (min (c.read c.b 0).toNat h.held)] (c.credited q h (min (c.read c.b 0).toNat h.held) s) := rfl

theorem Ctx.answer_mem {ws : List Word} : (c.answer ws s).mem = s.mem := rfl

theorem Ctx.answer_permits {ws : List Word} : (c.answer ws s).permits = s.permits := rfl

theorem Ctx.team?_answer {ws : List Word} {j : Nat} : (c.answer ws s).team? j = s.team? j := rfl

theorem credited_claim {n : Nat} (hteam : s.team? c.tm.id = some c.tm) (hg : s.group? c.g.id = some g) (hwf : Memory.wf c.tm.mem = true)
    (hh : h = c.tm.header q) :
    ∃ t u k ps, c.answer [wordOf n] (c.credited q h n s) = t ∧ t.team? c.tm.id = some u ∧ (u.header q).held = h.held - n ∧
      (∀ o, o < q.hdr + 0x10 ∨ q.hdr + 0x14 ≤ o → u.mem.get o = c.tm.mem.get o) ∧ t.mem = s.mem ∧
      t.permits = s.permits ++ ps ∧
      ps.map (fun p => (p.team, p.entry)) = (List.range n).filterMap (fun i =>
        (s.senderTeam c.tm q.num (heldSender c.tm h i)).map fun v => (v.id, bits (heldSender c.tm h i) 12 4)) ∧
      ((∀ i, i < n → (s.senderTeam c.tm q.num (heldSender c.tm h i)).isSome = true) → ps.length = n) ∧
      t.group? c.g.id = some k ∧ Answered g k c.dreg [wordOf n] := by
  obtain ⟨id, ps, hreturn, hps⟩ := State.returnPermits_eq (s := s) (tm := c.tm) (q := q) (h := h) (n := n)
  have hwork : TeamWork (s.returnPermits c.tm q h n) (c.credited q h n s) c.tm.id := teamWork_ownWrite.trans teamWork_putHeader
  have hteam' : (s.returnPermits c.tm q h n).team? c.tm.id = some c.tm := by
    rw [hreturn]
    exact hteam
  have hg' : (s.returnPermits c.tm q h n).group? c.g.id = some g := by
    rw [hreturn]
    exact hg
  have hcredited : (c.credited q h n s).team? c.tm.id =
      some { c.tm with mem := c.tm.mem.write (q.hdr + 0x10) (bytesOf 4 (h.held - n)) } :=
    State.team?_putHeader (State.team?_ownWrite.trans hteam')
  obtain ⟨k, hk, ek⟩ := hwork.groups c.g.id g hg'
  obtain ⟨x, hx, hanswer⟩ := Ctx.answer_answers (c := c) (g := g) (ws := [wordOf n]) hk (by rw [ek])
  have hheld : h.held < 256 ^ 4 := by
    rw [hh]
    exact Memory.value_lt _ _ _
  refine ⟨_, _, x, ps, rfl, Ctx.team?_answer.trans hcredited, ?_, fun o ho => ?_, ?_, ?_, hps, fun hall => ?_, hx, hanswer⟩
  · refine (Memory.value_write hwf (q.hdr + 0x10) 4 (h.held - n)).trans (Nat.mod_eq_of_lt ?_)
    exact Nat.lt_of_le_of_lt (Nat.sub_le _ _) hheld
  · exact Memory.get_write_outside hwf _ _ (by rw [bytesOf_length]; exact ho)
  · exact Ctx.answer_mem.trans (hwork.mem.trans (by rw [hreturn]))
  · refine Ctx.answer_permits.trans ?_
    rw [hwork.rest, hreturn]
  · have hlen := congrArg List.length hps
    rw [List.length_map] at hlen
    rw [hlen, List.filterMap_length_eq_length.2, List.length_range]
    intro i hi
    rw [Option.isSome_map]
    exact hall i (List.mem_range.1 hi)

theorem queueCredit : Claims.QueueCredit := by
  intro d a b s g hruns hcan c hteam
  have hid : c.tm.id = g.team := by simpa using List.find?_some (p := fun x : Team => x.id == g.team) hteam
  rw [← hid] at hteam
  have hexec := (exec_qcredit d a b s).trans (State.issue_runs _ hruns)
  rw [hexec]
  refine ⟨fun hnone => ?_, fun q h hopen => ?_⟩
  · obtain ⟨k, hk, hanswer⟩ := Ctx.answer_answers (c := c) (ws := [0]) hruns.group? rfl
    refine ⟨c.answer [0] s, k, congrArg _ ?_, rfl, rfl, hk, hanswer⟩
    simp only [c] at hnone ⊢
    rw [hnone]
  · obtain ⟨t, u, k, ps, ht, hclaim⟩ := credited_claim (c := c) (n := min (c.read c.b 0).toNat h.held) hteam hruns.group?
      (hcan.team? hteam) (State.openQueue_some hteam hopen)
    refine ⟨t, u, k, ps, congrArg _ (Eq.trans ?_ ht), hclaim⟩
    simp only [c] at hopen ⊢
    rw [hopen]

end Sys2Proof.Machine

/-! # Synchronisation: the objects of QSEND and QRECV (09 R209, R210) -/

namespace Sys2Proof.Machine

open Sys2Proof.Claims

set_option Elab.async false
variable {s t u : State} {g k : Group} {w : Wait} {tm : Team} {q : QueueDecl} {h : QueueHeader} {e : SendEntry}

theorem State.teamOf_eq (hteam : s.team? g.team = some tm) : s.teamOf g = tm := by
  unfold State.teamOf
  rw [hteam]
  rfl

/-! ## QSEND -/

theorem State.satisfied_send {entry : Word} {msg : List Word} (hw : open' w (.send entry msg)) :
    s.satisfied g w = s.trySend g w entry msg := by
  obtain ⟨hobj, hresult⟩ := hw
  simp only [State.satisfied, hresult, hobj]

/-- The result of a send that is LOST. -/
def lostSend (s : State) (w : Wait) (n : Nat) : Option (State × List (Nat × Word)) :=
  some (s, [(w.dst, 5), (w.dst + 1, wordOf n)])

theorem State.trySend_far {entry : Word} {msg : List Word} (hfar : 16 ≤ entry.toNat) : s.trySend g w entry msg = lostSend s w 0 := by
  simp only [State.trySend, if_neg (Nat.not_lt.2 hfar)]
  rfl

theorem State.trySend_missing {entry : Word} {msg : List Word} (hteam : s.team? g.team = some tm)
    (hnone : tm.sends[entry.toNat]? = none) : s.trySend g w entry msg = lostSend s w 0 := by
  simp only [State.trySend, State.teamOf_eq hteam, hnone, ite_self]
  rfl

section
variable {entry : Word} {msg : List Word} (hteam : s.team? g.team = some tm) (he : tm.sends[entry.toNat]? = some e)
  (hnear : entry.toNat < 16)
include hteam he hnear

theorem State.trySend_undeclared (hdecl : e.declared = false) : s.trySend g w entry msg = lostSend s w 0 := by
  simp only [State.trySend, State.teamOf_eq hteam, if_pos hnear, he, hdecl, Bool.not_false, if_true]
  rfl

theorem State.trySend_noTarget (hdecl : e.declared = true) (hnone : s.targetTeam tm e.mix = none) :
    s.trySend g w entry msg = lostSend s w e.permits := by
  simp only [State.trySend, State.teamOf_eq hteam, if_pos hnear, he, hdecl, Bool.not_true, Bool.false_eq_true, if_false, hnone]
  rfl

theorem State.trySend_away {t : Team} (hdecl : e.declared = true) (htarget : s.targetTeam tm e.mix = some t)
    (hgone : t.holds = false ∨ s.openQueue t.id e.queue = none) : s.trySend g w entry msg = lostSend s w e.permits := by
  have hnone : (if t.holds = true then s.openQueue t.id e.queue else none) = none := by
    obtain hfalse | hclosed := hgone
    · rw [hfalse]
      rfl
    · rw [hclosed, ite_self]
  simp only [State.trySend, State.teamOf_eq hteam, if_pos hnear, he, hdecl, Bool.not_true, Bool.false_eq_true, if_false, htarget,
    hnone]
  rfl

/-- The state after a message is sent. -/
def State.sent (s : State) (g : Group) (id : Nat) (entry : Word) (e : SendEntry) (dest : Nat) (msg : List Word) : State :=
  let s := s.release g 2
  let s := s.onTeam id fun t => { t with sends := t.sends.set entry.toNat { e with permits := e.permits - 1 } }
  let sender := wordOf (entry.toNat * 2 ^ 12 + s.coreOf g % 512)
  { s with nextId := s.nextId + 1, appends := s.appends ++ [⟨s.nextId, g.id, dest, e.queue, msg, sender, id, entry.toNat⟩] }

theorem State.trySend_open {t : Team} {x : QueueDecl × QueueHeader} (hdecl : e.declared = true)
    (htarget : s.targetTeam tm e.mix = some t) (hholds : t.holds = true) (hopen : s.openQueue t.id e.queue = some x) :
    s.trySend g w entry msg = if e.permits = 0 then none else
      some (s.sent g tm.id entry e t.id msg, [(w.dst, 0), (w.dst + 1, wordOf (e.permits - 1))]) := by
  obtain ⟨declared, mix, queue, permits⟩ := e
  obtain rfl : declared = true := hdecl
  dsimp only at htarget hopen
  simp only [State.trySend, State.teamOf_eq hteam, if_pos hnear, he, Bool.not_true, Bool.false_eq_true, if_false, htarget,
    hholds, if_true, hopen]
  rfl

omit hnear in
/-- A release changes no team but its memory, and sends nothing: the message and the permit are the only changes. -/
theorem State.sent_claim {dest : Nat} : ∃ a,
    (s.sent g tm.id entry e dest msg).appends = s.appends ++ [a] ∧ a.msg = msg ∧ a.team = dest ∧
    a.queue = e.queue ∧ a.gid = g.id ∧ ∃ v, (s.sent g tm.id entry e dest msg).team? tm.id = some v ∧
      v.sends[entry.toNat]? = some { e with permits := e.permits - 1 } := by
  have hwork : MemoryWork s (s.release g 2) := memoryWork_release
  have hid : tm.id = g.team := by simpa using List.find?_some (p := fun x : Team => x.id == g.team) hteam
  rw [← hid] at hteam
  obtain ⟨v, hv, hsans⟩ := hwork.toKeepsPrograms.team?_some hteam
  have hsends : v.sends = tm.sends := congrArg (fun x => x.sends) hsans
  have hset := State.team?_onTeam (f := fun t : Team => { t with sends := t.sends.set entry.toNat { e with permits := e.permits - 1 } })
    (fun _ => rfl) hv
  have happends := hwork.toKeepsPrograms.appends
  refine ⟨_, congrArg (· ++ [_]) happends, rfl, rfl, rfl, rfl, _, hset, ?_⟩
  have hlt : entry.toNat < v.sends.length := by
    rw [hsends]
    exact (List.getElem?_eq_some_iff.1 he).1
  exact List.getElem?_set_self hlt

end

/-! ## QRECV -/

theorem State.satisfied_receive {queue : Word} (hw : open' w (.receive queue)) : s.satisfied g w = s.tryReceive g w queue := by
  obtain ⟨hobj, hresult⟩ := hw
  simp only [State.satisfied, hresult, hobj]

theorem State.earlierReceivers_none {queue : Word}
    (hnone : ∀ k ∈ s.groups, k.id ≠ g.id → k.team = g.team → k.receives queue = none) : s.earlierReceivers g w queue = [] := by
  have hmap : (s.groups.filterMap fun h =>
      if h.team = g.team ∧ h.id ≠ g.id then ((h.receives queue).filter fun v => decide (v.began < w.began)).map fun v => (h, v)
      else none) = [] := by
    rw [List.filterMap_eq_nil_iff]
    intro k hk
    split
    next hother =>
      rw [hnone k hk hother.2 hother.1]
      rfl
    next => rfl
  unfold State.earlierReceivers
  rw [hmap]
  rfl

theorem State.tryReceive_closed {queue : Word} (hnone : s.openQueue g.team queue.toNat = none) :
    s.tryReceive g w queue = some (s, [(w.dst, 5)]) := by
  unfold State.tryReceive
  rw [hnone]
  rfl

/-- A queue between its ends, as 32-bit numbers, is empty where they are the same. -/
theorem queueLength_zero {head tail : Nat} (hhead : head < 256 ^ 4) (htail : tail < 256 ^ 4) :
    (tail + 2 ^ 32 - head) % 2 ^ 32 ≤ 0 ↔ head = tail := by
  norm_num at hhead htail ⊢
  omega

section
variable {queue : Word} (hteam : s.team? g.team = some tm) (hopen : s.openQueue g.team queue.toNat = some (q, h))
include hteam hopen

theorem State.tryReceive_empty (hempty : h.head = h.tail) : s.tryReceive g w queue = none := by
  have hh := State.openQueue_some hteam hopen
  have hhead : h.head < 256 ^ 4 := by rw [hh]; exact Memory.value_lt _ _ _
  have htail : h.tail < 256 ^ 4 := by rw [hh]; exact Memory.value_lt _ _ _
  unfold State.tryReceive
  rw [hopen]
  exact if_pos (((queueLength_zero hhead htail).2 hempty).trans (Nat.zero_le _))

theorem State.tryReceive_first (hfilled : h.head ≠ h.tail)
    (hnone : ∀ k ∈ s.groups, k.id ≠ g.id → k.team = g.team → k.receives queue = none) :
    s.tryReceive g w queue = some (s.takeEntry g w queue) := by
  have hh := State.openQueue_some hteam hopen
  have hhead : h.head < 256 ^ 4 := by rw [hh]; exact Memory.value_lt _ _ _
  have htail : h.tail < 256 ^ 4 := by rw [hh]; exact Memory.value_lt _ _ _
  unfold State.tryReceive
  rw [hopen, State.earlierReceivers_none hnone]
  exact if_neg fun hle => hfilled ((queueLength_zero hhead htail).1 hle)

/-- The queue after its entry at HEAD is taken. -/
def State.takenEntry (s : State) (g : Group) (q : QueueDecl) (h : QueueHeader) : State :=
  ((s.ownWrite g q.hdr 32).putHeader g.team q.hdr 0x08 (bytesOf 4 (h.head + 1))).putHeader g.team q.hdr 0x10 (bytesOf 4 (h.held + 1))

theorem State.takeEntry_eq : s.takeEntry g w queue = (s.takenEntry g q h,
    let at' := h.ring + 32 * (h.head % h.slots)
    [(w.dst, 0), (w.dst + 1, wordOf (tm.mem.value (at' + 16) 4)), (w.dst + 2, wordOf (tm.mem.value at' 4)),
      (w.dst + 3, wordOf (tm.mem.value (at' + 4) 4)), (w.dst + 4, wordOf (tm.mem.value (at' + 8) 4)),
      (w.dst + 5, wordOf (tm.mem.value (at' + 12) 4))]) := by
  have hmem : s.teamMem g.team = tm.mem := by
    unfold State.teamMem
    rw [hteam]
  unfold State.takeEntry
  rw [hopen, hmem]
  rfl

omit hopen in
theorem State.takenEntry_header (hwf : Memory.wf tm.mem = true) :
    ((s.takenEntry g q h).teamMem g.team).value (q.hdr + 0x08) 4 = (h.head + 1) % 2 ^ 32 ∧
      ((s.takenEntry g q h).teamMem g.team).value (q.hdr + 0x10) 4 = (h.held + 1) % 2 ^ 32 := by
  have htaken : (s.takenEntry g q h).team? g.team = some { tm with
      mem := (tm.mem.write (q.hdr + 0x08) (bytesOf 4 (h.head + 1))).write (q.hdr + 0x10) (bytesOf 4 (h.held + 1)) } :=
    State.team?_putHeader (State.team?_putHeader (State.team?_ownWrite.trans hteam))
  have hmem : (s.takenEntry g q h).teamMem g.team =
      (tm.mem.write (q.hdr + 0x08) (bytesOf 4 (h.head + 1))).write (q.hdr + 0x10) (bytesOf 4 (h.held + 1)) := by
    unfold State.teamMem
    rw [htaken]
  have hwf' := Memory.write_wf hwf (q.hdr + 0x08) (bytesOf 4 (h.head + 1))
  rw [hmem]
  refine ⟨?_, Memory.value_write hwf' (q.hdr + 0x10) 4 (h.held + 1)⟩
  rw [Memory.value_write_outside hwf' (.inl (by omega))]
  exact Memory.value_write hwf (q.hdr + 0x08) 4 (h.head + 1)

end

theorem queueObjects : Claims.QueueObjects := by
  intro s g w tm hteam
  have hid : tm.id = g.team := by simpa using List.find?_some (p := fun x : Team => x.id == g.team) hteam
  refine ⟨fun entry msg hw => ?_, fun queue hw => ?_⟩
  · rw [State.satisfied_send hw]
    refine ⟨State.trySend_far, State.trySend_missing hteam, fun e he hnear => ⟨State.trySend_undeclared hteam he hnear,
      State.trySend_noTarget hteam he hnear, fun t => State.trySend_away hteam he hnear⟩, ?_⟩
    intro e t x he hnear hdecl htarget hholds hopen
    rw [State.trySend_open hteam he hnear hdecl htarget hholds hopen]
    refine ⟨fun hzero => if_pos hzero, fun hsome => ?_⟩
    obtain ⟨a, ha⟩ := State.sent_claim (g := g) (msg := msg) hteam he (dest := t.id)
    exact ⟨_, a, if_neg (Nat.ne_of_gt hsome), ha⟩
  · rw [State.satisfied_receive hw, hid]
    refine ⟨State.tryReceive_closed, fun q h hopen => ⟨State.tryReceive_empty hteam hopen, fun hfilled hnone => ?_⟩⟩
    rw [State.tryReceive_first hteam hopen hfilled hnone, State.takeEntry_eq hteam hopen]
    exact ⟨_, _, rfl, rfl, State.takenEntry_header hteam⟩

/-- Settles O30: QCREDIT by induction on the entries whose permits go back; QSEND and QRECV by the cases of their checks, where a
release leaves the teams but for their memory. -/
theorem queues : Obligations.Queues := ⟨queueCredit, queueObjects⟩

end Sys2Proof.Machine

/-! # Synchronisation: translations beside requests in flight

A translation neither reads nor writes the requests that are in flight, nor the next identifier: it does the same in a state
that differs in these (07 R152 to R160). -/

namespace Sys2Proof.Machine

open Sys2Proof.Claims

set_option Elab.async false
variable {s : State} {n : Nat} {rs : List Reduction}

/-- A state with another next identifier and other requests in flight. -/
def State.beside (s : State) (n : Nat) (rs : List Reduction) : State := { s with nextId := n, reductions := rs }

/-- The same step beside other requests: the same result, and the same state but for these. -/
def Beside {α : Type} (n : Nat) (rs : List Reduction) (a b : State × α) : Prop := b = (a.1.beside n rs, a.2)

/-! ## What a translation reads -/

@[simp] theorem State.beside_mem : (s.beside n rs).mem = s.mem := rfl

@[simp] theorem State.beside_walk {ctx va : Nat} : (s.beside n rs).walk ctx va = s.walk ctx va := rfl

@[simp] theorem State.beside_leafFault {l : Leaf} {priv : Nat} {need : Need} :
    (s.beside n rs).leafFault l priv need = s.leafFault l priv need := rfl

@[simp] theorem State.beside_emergencyHit {core priv va : Nat} {need : Need} :
    (s.beside n rs).emergencyHit core priv va need = s.emergencyHit core priv va need := rfl

@[simp] theorem State.beside_coreRec {core : Nat} : (s.beside n rs).coreRec core = s.coreRec core := rfl

@[simp] theorem State.beside_dieRec {die : Nat} : (s.beside n rs).dieRec die = s.dieRec die := rfl

@[simp] theorem State.beside_routeLost {pa : Nat} : (s.beside n rs).routeLost pa = s.routeLost pa := rfl

@[simp] theorem State.beside_teamOf {g : Group} : (s.beside n rs).teamOf g = s.teamOf g := rfl

@[simp] theorem State.beside_coreOf {g : Group} : (s.beside n rs).coreOf g = s.coreOf g := rfl

/-! ## What a translation changes -/

theorem State.beside_ite {p : Prop} {_ : Decidable p} {x y x' y' : State} (hx : x' = x.beside n rs) (hy : y' = y.beside n rs) :
    (if p then x' else y') = (if p then x else y).beside n rs := by
  rw [hx, hy, apply_ite (State.beside · n rs)]

@[simp] theorem State.beside_used {ctx va level frame : Nat} :
    (s.beside n rs).used ctx va level frame = (s.used ctx va level frame).beside n rs := rfl

@[simp] theorem State.beside_fetchSidecar {pte : Nat} : (s.beside n rs).fetchSidecar pte = (s.fetchSidecar pte).beside n rs := by
  unfold State.fetchSidecar
  dsimp only
  exact State.beside_ite rfl rfl

@[simp] theorem State.beside_markLeaf {l : Leaf} {write : Bool} :
    (s.beside n rs).markLeaf l write = (s.markLeaf l write).beside n rs := by
  unfold State.markLeaf
  dsimp only
  exact State.beside_ite rfl rfl

@[simp] theorem State.beside_zeroFill {ctx va : Nat} {l : Leaf} :
    (s.beside n rs).zeroFill ctx va l = (s.zeroFill ctx va l).beside n rs := by
  unfold State.zeroFill
  dsimp only
  exact State.beside_ite rfl rfl

@[simp] theorem State.beside_putCore {c : Core} : (s.beside n rs).putCore c = (s.putCore c).beside n rs := by
  unfold State.putCore
  exact State.beside_ite rfl rfl

@[simp] theorem State.beside_putDie {d : Die} : (s.beside n rs).putDie d = (s.putDie d).beside n rs := by
  unfold State.putDie
  exact State.beside_ite rfl rfl

/-! ## Translations -/

section
variable {known : Stale} {ctx core priv va w : Nat} {need : Need}

/-- Whether an access uses a translation that differs from its leaf: what its issue has decided, or a free choice (07 R153, R159). -/
def State.staleUse (s : State) (known : Stale) (stale : Option TlbEntry) : State × Stale × Option TlbEntry :=
  match stale with
  | none => (s, known, none)
  | some e =>
    match known.find? (·.1 == e) with
    | some x => (s, known, if x.2 then some e else none)
    | none => ({ s with draw := s.draw + 1 }, (e, Config.chance s.draw) :: known, if Config.chance s.draw then some e else none)

/-- A translation through a leaf that a walk found. -/
def State.translateLeaf (s : State) (known : Stale) (ctx core priv va : Nat) (need : Need) (l : Leaf) :
    State × Stale × Except MFault Hit :=
  match s.leafFault l priv need with
  | some f => (s.markLeaf l false, known, .error f)
  | none =>
    let s := s.markLeaf l need.writes
    let s := if need = Need.write then s.zeroFill ctx va { l with pte := s.mem.value l.addr 8 } else s
    let pte := s.mem.value l.addr 8
    let e : TlbEntry := ⟨ctx, va / pageSize l.level, l.level, dwordOf pte⟩
    let c := s.coreRec core
    let d := s.dieRec (dieOfCore core)
    let s := s.putCore { c with tlb := keepTlb 1024 e c.tlb }
    let s := s.putDie { d with tlb := keepTlb 12288 e d.tlb }
    ((s.used ctx va l.level (Pte.frame pte)).fetchSidecar pte, known, .ok ⟨Pte.frame pte + va % pageSize l.level, pte, l.level⟩)

/-- A translation once it is known which entry, if any, decides in the place of the leaf. -/
def State.translateUse (s : State) (known : Stale) (use : Option TlbEntry) (ctx core priv va : Nat) (need : Need)
    (now : Except MFault Leaf) : State × Stale × Except MFault Hit :=
  match use.filter fun e => !(need.writes && (!Pte.d e.pte.toNat || Pte.z e.pte.toNat)) with
  | some e =>
    let l : Leaf := ⟨e.pte.toNat, 0, e.pgsz⟩
    match s.leafFault l priv need with
    | some f => (s, known, .error f)
    | none => ((s.used ctx va l.level (Pte.frame l.pte)).fetchSidecar l.pte, known,
        .ok ⟨Pte.frame l.pte + va % pageSize l.level, l.pte, l.level⟩)
  | none =>
    match now with
    | .error f => (s, known, .error f)
    | .ok l => s.translateLeaf known ctx core priv va need l

theorem State.translateOn_eq : s.translateOn known ctx core priv va need =
    match s.emergencyHit core priv va need with
    | some r => (s, known, r)
    | none =>
      if 2 ^ 52 ≤ va then (s, known, .error (.plain 0x05))
      else
        let now := s.walk ctx va
        match s.staleUse known (staleEntry ((s.coreRec core).tlb ++ (s.dieRec (dieOfCore core)).tlb) ctx va now) with
        | (s, known, use) => s.translateUse known use ctx core priv va need now := rfl

theorem beside_translateLeaf {l : Leaf} :
    Beside n rs (s.translateLeaf known ctx core priv va need l) ((s.beside n rs).translateLeaf known ctx core priv va need l) := by
  unfold State.translateLeaf
  simp only [State.beside_leafFault, State.beside_markLeaf]
  split
  · rfl
  · by_cases hwrite : need = Need.write
    · simp only [hwrite, if_true, State.beside_mem, State.beside_zeroFill, State.beside_coreRec, State.beside_dieRec,
        State.beside_putCore, State.beside_putDie, State.beside_used, State.beside_fetchSidecar]
      rfl
    · simp only [hwrite, if_false, State.beside_mem, State.beside_coreRec, State.beside_dieRec,
        State.beside_putCore, State.beside_putDie, State.beside_used, State.beside_fetchSidecar]
      rfl

theorem beside_translateUse {use : Option TlbEntry} {now : Except MFault Leaf} :
    Beside n rs (s.translateUse known use ctx core priv va need now)
      ((s.beside n rs).translateUse known use ctx core priv va need now) := by
  unfold State.translateUse
  simp only [State.beside_leafFault, State.beside_used, State.beside_fetchSidecar]
  split
  · split <;> rfl
  · split
    · rfl
    · exact beside_translateLeaf

theorem beside_staleUse {stale : Option TlbEntry} : Beside n rs (s.staleUse known stale) ((s.beside n rs).staleUse known stale) := by
  cases stale with
  | none => rfl
  | some e =>
    unfold State.staleUse
    dsimp only
    split <;> rfl

theorem beside_translateOn :
    Beside n rs (s.translateOn known ctx core priv va need) ((s.beside n rs).translateOn known ctx core priv va need) := by
  rw [State.translateOn_eq, State.translateOn_eq, State.beside_emergencyHit, State.beside_walk, State.beside_coreRec,
    State.beside_dieRec]
  split
  · rfl
  · split
    · rfl
    · dsimp only
      rw [show (s.beside n rs).staleUse known _ = _ from beside_staleUse]
      exact beside_translateUse

theorem beside_throughFrame {x : XReg} {off : Word} :
    Beside n rs (s.throughFrame ctx x off need) ((s.beside n rs).throughFrame ctx x off need) := by
  unfold State.throughFrame
  simp only [State.beside_routeLost, State.beside_walk]
  by_cases hlost : s.routeLost (x.frame.toNat + off.toNat) = true
  · simp only [hlost, if_true]
    rfl
  · simp only [hlost, Bool.false_eq_true, if_false]
    by_cases hfill : need = Need.write ∧ Pte.z x.pte.toNat = true
    · simp only [hfill, and_self, if_true]
      cases s.walk ctx (x.va off) with
      | ok l =>
        simp only [State.beside_zeroFill, State.beside_used, State.beside_fetchSidecar]
        rfl
      | error f => simp only [State.beside_used, State.beside_fetchSidecar]; rfl
    · simp only [hfill, if_false, State.beside_used, State.beside_fetchSidecar]
      rfl

theorem beside_translateXl {g : Group} {x : XReg} {off : Word} :
    Beside n rs (s.translateXl known g x off w need) ((s.beside n rs).translateXl known g x off w need) := by
  unfold State.translateXl
  simp only [State.beside_teamOf, State.beside_coreOf]
  split
  · rw [show (s.beside n rs).throughFrame _ x off need = _ from beside_throughFrame]
    rfl
  · exact beside_translateOn

theorem beside_translateOnce {memo : Memo} {g : Group} {t : Target7} :
    Beside n rs (s.translateOnce memo g t w need) ((s.beside n rs).translateOnce memo g t w need) := by
  unfold State.translateOnce
  split
  · rfl
  · rfl
  · obtain ⟨team, addr, via⟩ := t
    cases via with
    | none =>
      dsimp only
      rw [State.beside_teamOf, State.beside_coreOf, show (s.beside n rs).translateOn memo.stale _ _ _ addr need = _ from beside_translateOn]
      generalize s.translateOn memo.stale _ _ _ addr need = r
      obtain ⟨s, known, f | h⟩ := r <;> rfl
    | some v =>
      dsimp only
      rw [show (s.beside n rs).translateXl memo.stale g v.1 v.2 w need = _ from beside_translateXl]
      generalize s.translateXl memo.stale g v.1 v.2 w need = r
      obtain ⟨s, known, f | h⟩ := r <;> rfl

theorem beside_spot {memo : Memo} {g : Group} {t : Target7} {align : Bool} :
    Beside n rs (s.spot memo g t w need align) ((s.beside n rs).spot memo g t w need align) := by
  unfold State.spot
  rw [State.beside_teamOf]
  dsimp only
  split
  · rfl
  · split
    · rfl
    · split
      · split
        · rfl
        · split <;> rfl
      · rw [show (s.beside n rs).translateOnce memo g t w need = _ from beside_translateOnce]
        generalize s.translateOnce memo g t w need = r
        obtain ⟨s, memo, f | h⟩ := r <;> rfl

end

end Sys2Proof.Machine

/-! # Synchronisation: reductions (09 R187 to R189) -/

namespace Sys2Proof.Machine

open Sys2Proof.Claims

set_option Elab.async false
variable {s t : State} {g : Group} {c : Ctx} {op : RedOp} {w : Nat}

/-! ## The requests of a reduction -/

theorem mem_distinct {α : Type} [BEq α] [LawfulBEq α] {x : α} {l : List α} : x ∈ distinct l ↔ x ∈ l := by
  have hfold : ∀ (l acc : List α),
      x ∈ l.foldl (fun acc x => if acc.contains x then acc else acc ++ [x]) acc ↔ x ∈ acc ∨ x ∈ l := by
    intro l
    induction l with
    | nil => simp
    | cons y l ih =>
      intro acc
      rw [List.foldl_cons, ih, List.mem_cons]
      split
      next hin =>
        have hy : y ∈ acc := List.contains_iff_mem.1 hin
        constructor
        · exact fun h => h.elim .inl fun h => .inr (.inr h)
        · rintro (h | rfl | h)
          · exact .inl h
          · exact .inl hy
          · exact .inr h
      next => simp only [List.mem_append, List.mem_singleton, or_assoc]
  exact (hfold l []).trans (by simp)

/-- The requests of a reduction: for each address, the threads that name it. -/
def redRequests (c : Ctx) (x : BitVec 3) : List RedRequest :=
  (distinct ((threadsOf c.active).map (globalTarget x c))).map fun a =>
    ⟨a, (threadsOf c.active).filter fun i => (globalTarget x c i).addr == a.addr⟩

theorem redTargets_eq (c : Ctx) (x : BitVec 3) : redTargets c x = (redRequests c x).map fun q => (0, q.target) := by
  rw [redTargets, redRequests, List.map_map]
  rfl

theorem redRequests_lowest {x : BitVec 3} {q : RedRequest} (hq : q ∈ redRequests c x) : q.lowest < 64 := by
  obtain ⟨a, -, rfl⟩ := List.mem_map.1 hq
  unfold RedRequest.lowest
  dsimp only
  generalize hl : (threadsOf c.active).filter _ = l
  cases l with
  | nil => exact Nat.succ_pos 63
  | cons i l =>
    have hi : i ∈ threadsOf c.active := List.mem_of_mem_filter (hl ▸ List.mem_cons_self)
    exact inMask_lt (mem_threadsOf.1 hi)

/-- The operands of a request, combined in ascending order of its threads. -/
def Ctx.redSum (c : Ctx) (op : RedOp) (w : Nat) (q : RedRequest) : Nat :=
  let xs := q.threads.map fun i => c.readBits c.d (8 * w) i
  (xs.drop 1).foldl (op.combine c.itype c.ffmt) (xs.headD 0)

theorem redRequests_sum {x : BitVec 3} {q : RedRequest} (hq : q ∈ redRequests c x) :
    c.redSum op (c.accessBytes op.float) q = redOperand c x op q.target.addr := by
  obtain ⟨a, -, rfl⟩ := List.mem_map.1 hq
  unfold Ctx.redSum redOperand redAddrs
  rw [List.filter_map, List.map_map]
  rfl

/-! ## Sending -/

/-- The request that leaves the aggregator once its checks are done. -/
def Ctx.requestOf (c : Ctx) (op : RedOp) (w : Nat) (q : RedRequest) (out : Except MFault Spot) (s : State) : Reduction :=
  let found := redOutcome out
  { id := s.nextId, gid := c.g.id, ctx := c.tm.ctx, va := dwordOf q.target.addr, fault := found.1, loc := found.2.1
    cp := found.2.2.1, dom := found.2.2.2, operand := dwordOf (c.redSum op w q), pc := c.g.arch.pc, op := op.code
    ty := if op.float then 0x80 + modeFtype c.mode else modeItype c.mode, width := w
    scope := modeScope c.mode, use := modeUse c.mode, who := wordOf (s.whoOf c.g) }

/-- A state after one more request is sent. -/
def State.request (s : State) (r : Reduction) : State := { s with nextId := s.nextId + 1, reductions := s.reductions ++ [r] }

theorem Ctx.sendRequest_eq {memo : Memo} {q : RedRequest} : c.sendRequest op w memo q s =
    match s.spot memo c.g q.target w .write false with
    | (s, memo, out) => (s.request (c.requestOf op w q out s), memo) := by
  unfold Ctx.sendRequest
  generalize s.spot memo c.g q.target w .write false = r
  obtain ⟨t, memo, m | p⟩ := r <;> rfl

/-- One step of the accesses of an instruction. -/
def tryOne (g : Group) (w : Nat) (need : Need) (align : Bool) (acc : State × Memo × List (Tried Spot)) (x : Nat × Target7) :
    State × Memo × List (Tried Spot) :=
  match acc.1.spot acc.2.1 g x.2 w need align with
  | (s, memo, out) => (s, memo, acc.2.2 ++ [⟨x.1, x.2.addr, out⟩])

theorem State.tryAll_eq {targets : List (Nat × Target7)} {need : Need} {align : Bool} : s.tryAll g targets w need align =
    ((targets.foldl (tryOne g w need align) (s, Memo.none, [])).1, (targets.foldl (tryOne g w need align) (s, Memo.none, [])).2.2) :=
  rfl

theorem State.beside_reserved {n ctx : Nat} {rs : List Reduction} (h : t.contexts = s.contexts) :
    (t.beside n rs).reserved ctx = (s.beside n rs).reserved ctx := by
  unfold State.reserved State.context? State.beside
  dsimp only
  rw [h]

theorem State.reserved_request {n m ctx : Nat} {rs : List Reduction} {r : Reduction} :
    (s.beside m (rs ++ [r])).reserved ctx ≤ (s.beside n rs).reserved ctx + 1 := by
  have hle : ((rs ++ [r]).filter (·.ctx == ctx)).length ≤ (rs.filter (·.ctx == ctx)).length + 1 := by
    rw [List.filter_append, List.length_append]
    exact Nat.add_le_add_left (List.length_filter_le _ [r]) _
  exact Nat.add_le_add_left hle _

/-- What a request shows of itself, and what the accesses of its instruction show. -/
def Reduction.shown (r : Reduction) : DWord × DWord × Option Nat × Loc × Nat × Nat :=
  (r.va, r.operand, r.fault, r.loc, r.cp, r.dom)

def redShown (c : Ctx) (x : BitVec 3) (op : RedOp) (y : Tried Spot) : DWord × DWord × Option Nat × Loc × Nat × Nat :=
  (dwordOf y.addr, dwordOf (redOperand c x op y.addr), redOutcome y.out)

/-- Requests sent one after another: each does what the access of its address does beside the requests before it. -/
theorem Ctx.sendRequests_beside {x : BitVec 3} (l : List RedRequest) : ∀ (s : State) (memo : Memo) (n : Nat) (rs : List Reduction)
    (acc : List (Tried Spot)), (∀ q ∈ l, q.lowest < 64 ∧ c.redSum op w q = redOperand c x op q.target.addr) →
    (s.beside n rs).reserved c.tm.ctx + l.length ≤ 256 →
    ∃ new tail, c.sendRequests op w 64 memo l (s.beside n rs) =
        (((l.map fun q => (0, q.target)).foldl (tryOne c.g w .write false) (s, memo, acc)).1.beside (n + new.length) (rs ++ new), []) ∧
      ((l.map fun q => (0, q.target)).foldl (tryOne c.g w .write false) (s, memo, acc)).2.2 = acc ++ tail ∧
      new.map Reduction.shown = tail.map (redShown c x op) ∧
      ∀ r ∈ new, r.gid = c.g.id ∧ r.ctx = c.tm.ctx ∧ r.op = op.code ∧ r.width = w := by
  induction l with
  | nil =>
    intro s memo n rs acc _ _
    refine ⟨[], [], ?_, (List.append_nil _).symm, rfl, fun r hr => nomatch hr⟩
    rw [List.append_nil]
    rfl
  | cons q l ih =>
    intro s memo n rs acc hall hroom
    obtain ⟨hlow, hsum⟩ := hall q List.mem_cons_self
    rw [List.length_cons] at hroom
    have hsend : c.sendRequest op w memo q (s.beside n rs) =
        ((s.spot memo c.g q.target w .write false).1.beside (n + 1) (rs ++ [c.requestOf op w q
          (s.spot memo c.g q.target w .write false).2.2 ((s.spot memo c.g q.target w .write false).1.beside n rs)]),
          (s.spot memo c.g q.target w .write false).2.1) := by
      rw [Ctx.sendRequest_eq, show (s.beside n rs).spot memo c.g q.target w .write false = _ from beside_spot]
      rfl
    have hcontexts : (s.spot memo c.g q.target w .write false).1.contexts = s.contexts := by rw [translated_spot.rest]
    generalize hspot : s.spot memo c.g q.target w .write false = found at hsend hcontexts
    obtain ⟨t, memo', out⟩ := found
    dsimp only at hsend hcontexts
    generalize hr : c.requestOf op w q out (t.beside n rs) = r at hsend
    have hroom' : (t.beside (n + 1) (rs ++ [r])).reserved c.tm.ctx + l.length ≤ 256 := by
      have hle := State.reserved_request (s := t) (n := n) (m := n + 1) (rs := rs) (r := r) (ctx := c.tm.ctx)
      rw [State.beside_reserved hcontexts (n := n)] at hle
      omega
    obtain ⟨new, tail, hrest, hacc, hshown, hfields⟩ := ih t memo' (n + 1) (rs ++ [r]) (acc ++ [⟨0, q.target.addr, out⟩])
      (fun q hq => hall q (List.mem_cons_of_mem _ hq)) hroom'
    have hstep : tryOne c.g w .write false (s, memo, acc) (0, q.target) = (t, memo', acc ++ [⟨0, q.target.addr, out⟩]) := by
      unfold tryOne
      rw [hspot]
    refine ⟨r :: new, ⟨0, q.target.addr, out⟩ :: tail, ?_, ?_, ?_, ?_⟩
    · unfold Ctx.sendRequests
      rw [if_neg (by omega), hsend]
      dsimp only
      rw [hrest, List.map_cons, List.foldl_cons, hstep, List.append_assoc, List.length_cons, Nat.add_assoc, Nat.add_comm 1]
      rfl
    · rw [List.map_cons, List.foldl_cons, hstep, hacc, List.append_assoc]
      rfl
    · rw [List.map_cons, List.map_cons, hshown, ← hr]
      refine congrArg (· :: _) ?_
      unfold redShown
      rw [← hsum]
      rfl
    · intro y hy
      obtain rfl | hy := List.mem_cons.1 hy
      · rw [← hr]
        exact ⟨rfl, rfl, rfl, rfl⟩
      · exact hfields y hy

/-! ## RED -/

/-- A reduction whose addresses are all good, with room in the log for its requests, sends them all. -/
theorem redBody_sends {f : Form} {x : BitVec 3} (hstop : c.g.stopAt = none)
    (hgood : ∀ y ∈ redTargets c x, y.2.addr < 2 ^ 52 ∧ y.2.addr % c.accessBytes op.float = 0)
    (hsent : c.sendRequests op (c.accessBytes op.float) 64 Memo.none (redRequests c x)
      (s.atomicReady c.g (modeUse c.mode == 4)) = (t, [])) :
    redBody f op x.toNat c s = t.onGroup c.g.id Group.advance := by
  have hbad : ((threadsOf c.active).map fun i => (i, globalTarget x c i)).filterMap (fun y =>
      if 2 ^ 52 ≤ y.2.addr then some (y.1, y.2.addr, MFault.plain 0x05)
      else if y.2.addr % c.accessBytes op.float ≠ 0 then some (y.1, y.2.addr, MFault.plain 0x06) else none) = [] := by
    rw [List.filterMap_eq_nil_iff]
    intro y hy
    obtain ⟨i, hi, rfl⟩ := List.mem_map.1 hy
    have hin : (0, globalTarget x c i) ∈ redTargets c x :=
      List.mem_map.2 ⟨_, mem_distinct.2 (List.mem_map.2 ⟨i, hi, rfl⟩), rfl⟩
    obtain ⟨hlt, haligned⟩ := hgood _ hin
    rw [if_neg (Nat.not_le.2 hlt), if_neg (not_not.2 haligned)]
  have hreqs : ((distinct (((threadsOf c.active).map fun i => (i, globalTarget x c i)).map (·.2))).map fun a =>
      (⟨a, (((threadsOf c.active).map fun i => (i, globalTarget x c i)).filter (·.2.addr == a.addr)).map (·.1)⟩ : RedRequest)) =
      redRequests c x := by
    rw [redRequests, List.map_map]
    refine List.map_congr_left fun a _ => congrArg (RedRequest.mk a) ?_
    rw [List.filter_map, List.map_map]
    exact List.map_id _
  have hredStop : ∀ l, c.redStop l = 64 := fun l => by
    unfold Ctx.redStop
    rw [hstop]
  unfold redBody
  unfold globalTarget at hbad hreqs
  dsimp only
  rw [hbad, hreqs, hredStop, hsent]
  rfl

theorem exec_reds {e : (BitVec 8 → BitVec 3 → BitVec 8 → Instr) × Nat × RedOp} (he : e ∈ reds) (d : BitVec 8) (x : BitVec 3)
    (o : BitVec 8) (s : State) : exec (e.1 d x o) s =
      s.issue (redForm e.2.1 (if e.2.2.float then .one else .typed) d x o)
        (redBody (redForm e.2.1 (if e.2.2.float then .one else .typed) d x o) e.2.2 x.toNat)
        (late := if e.2.2.float then fun _ => none else atomLate false) := by
  simp only [reds, List.mem_cons, List.not_mem_nil, or_false] at he
  obtain rfl | rfl | rfl | rfl := he
  · rfl
  · rfl
  · rfl
  · rfl

theorem reductionsSend : Claims.ReductionsSend := by
  intro e he d x o s g f hruns c w hgood s1 q hroom
  rw [redTargets_eq, List.length_map] at hroom
  obtain ⟨new, tail, hsent, htail, hshown, hfields⟩ := Ctx.sendRequests_beside (c := c) (op := e.2.2) (w := w) (x := x)
    (redRequests c x) s1 Memo.none s1.nextId s1.reductions []
    (fun q hq => ⟨redRequests_lowest hq, redRequests_sum hq⟩) hroom
  have hq : q = (((redRequests c x).map fun q => (0, q.target)).foldl (tryOne g w .write false) (s1, Memo.none, [])).map id Prod.snd := by
    simp only [q]
    rw [redTargets_eq, State.tryAll_eq]
    rfl
  have hid : q.1.nextId = s1.nextId := by
    simp only [q]
    rw [translated_tryAll.rest]
  have hreds : q.1.reductions = s1.reductions := by
    simp only [q]
    rw [translated_tryAll.rest]
  refine ⟨new, ?_, ?_, hfields⟩
  · rw [exec_reds he, State.issue_runs _ hruns, redBody_sends (c := c) hruns.whole hgood hsent, hid, hreds, hq]
    rfl
  · rw [hq]
    exact hshown.trans (congrArg _ htail.symm)

/-! ## The end of a request -/

theorem State.settleStores_none {upTo dom n : Nat} {l : Loc} (h : s.stores = []) : s.settleStores g upTo dom l n = s := by
  unfold State.settleStores State.overlay
  dsimp only
  rw [h]
  rfl

theorem State.view_none {upTo n : Nat} {l : Loc} (h : s.stores = []) : s.view g upTo l n = s.bytesAt l n := by
  unfold State.view State.overlay
  dsimp only
  rw [h]
  rfl

/-- Loads that take their values early are all that a store to a place changes beside the place. -/
theorem State.takeLoads_rest {gid id n : Nat} {l : Loc} :
    s.takeLoads gid id l n = { s with deliveries := (s.takeLoads gid id l n).deliveries } := by
  fun_cases State.takeLoads <;> rfl

/-- A write at the point of coherence in memory. -/
theorem State.putCoherent_memory {id cp dom a : Nat} {bs : List Byte} (hdom : dom ≠ 2) :
    (s.putCoherent g id cp dom (.phys a) bs).mem = s.mem.write (s.homePa a) bs ∧
      s.putCoherent g id cp dom (.phys a) bs = { s with
        mem := (s.putCoherent g id cp dom (.phys a) bs).mem, past := (s.putCoherent g id cp dom (.phys a) bs).past
        cores := (s.putCoherent g id cp dom (.phys a) bs).cores
        deliveries := (s.putCoherent g id cp dom (.phys a) bs).deliveries } := by
  unfold State.putCoherent
  dsimp only
  rw [if_neg hdom, State.takeLoads_rest]
  exact ⟨rfl, rfl⟩

theorem State.id_of_reduction {k : Nat} {r : Reduction} (h : s.reductions.find? (·.id == k) = some r) : r.id = k := by
  simpa using List.find?_some h

theorem exec_reductionEnds {k : Nat} {r : Reduction} (h : s.reductions.find? (·.id == k) = some r) (hend : s.mayEnd r = true) :
    exec (.reductionRequestEnds k) s = .next (s.endReduction r) := by
  change Host.Outcome.next (match s.reductions.find? (·.id == k) with
    | none => s
    | some r => if s.mayEnd r then s.endReduction r else s) = _
  rw [h]
  exact congrArg _ (if_pos hend)

/-- A request leaves those in flight. -/
def State.dropReduction (s : State) (r : Reduction) : State := { s with reductions := s.reductions.filter (·.id != r.id) }

theorem State.endReduction_eq {r : Reduction} (hfault : r.fault = none) : s.endReduction r =
    let g := (s.dropReduction r).reductionGroup r
    let t := (s.dropReduction r).settleStores g r.id r.dom r.loc r.width
    t.putCoherent g r.id r.cp r.dom r.loc (bytesOf r.width ((RedOp.ofCode r.op).combine (itypeOf r.ty) (FFormat.ofCode (r.ty % 16))
      (ofBytes (t.view g r.id r.loc r.width)) (r.operand.toNat % 2 ^ (8 * r.width)))) := by
  unfold State.endReduction
  rw [hfault]
  rfl

/-- A request that is performed: one write, of its operand combined with what is there. -/
theorem State.endReduction_performs {r : Reduction} (hstores : s.stores = []) (hfault : r.fault = none) :
    s.endReduction r = (s.dropReduction r).putCoherent ((s.dropReduction r).reductionGroup r) r.id r.cp
      r.dom r.loc (bytesOf r.width ((RedOp.ofCode r.op).combine (itypeOf r.ty) (FFormat.ofCode (r.ty % 16))
        (ofBytes (s.bytesAt r.loc r.width)) (r.operand.toNat % 2 ^ (8 * r.width)))) := by
  have hdropped : (s.dropReduction r).stores = [] := hstores
  rw [State.endReduction_eq hfault]
  dsimp only
  rw [State.settleStores_none hdropped, State.view_none hdropped]
  rfl

theorem State.endReduction_logs {r : Reduction} {m : Nat} (hfault : r.fault = some m) : s.endReduction r = s.logReduction r m := by
  unfold State.endReduction
  rw [hfault]

/-- A faulting request takes the lowest free entry of its context's log. -/
theorem State.logReduction_takes {r : Reduction} {m : Nat} {x : Context} (hctx : s.context? r.ctx = some x) :
    (s.logReduction r m).context? r.ctx = some { x with rlog := x.rlog ++ [freeEntry x.rlog] } ∧
      (s.logReduction r m).reductions = s.reductions.filter (·.id != r.id) := by
  have hctx' : (s.dropReduction r).context? r.ctx = some x := hctx
  have hlog : s.logReduction r m = ((s.dropReduction r).writeVa r.ctx (r.who.toNat % 512) 1
      (x.ctxSave.toNat + 32 * freeEntry x.rlog) (r.entry m)).1.onContext r.ctx fun y =>
        { y with rlog := y.rlog ++ [freeEntry x.rlog] } := by
    unfold State.logReduction
    change (match (s.dropReduction r).context? r.ctx with | none => _ | some c => _) = _
    rw [hctx']
    rfl
  rw [hlog, translated_writeVa.rest]
  refine ⟨?_, rfl⟩
  have hfind := find?_updateWhere (fun y : Context => y.num == r.ctx) (fun y => y.num == r.ctx)
    (fun y => { y with rlog := y.rlog ++ [freeEntry x.rlog] }) (fun _ => rfl) s.contexts
  have hx : (x.num == r.ctx) = true := List.find?_some (p := fun y : Context => y.num == r.ctx) hctx
  refine hfind.trans ?_
  rw [show s.contexts.find? (fun y => y.num == r.ctx) = some x from hctx, Option.map_some, if_pos hx]

theorem reductionsEnd : Claims.ReductionsEnd := by
  intro k s r hfind hstores hend op w
  have hid := State.id_of_reduction hfind
  rw [exec_reductionEnds hfind hend]
  refine ⟨fun hfault hdom a hloc => ⟨_, rfl, ?_⟩, fun m x hfault hctx => ?_⟩
  · rw [State.endReduction_performs hstores hfault, hloc, hid]
    obtain ⟨hmem, hrest⟩ := State.putCoherent_memory (s := s.dropReduction r) (g := (s.dropReduction r).reductionGroup r) (id := k)
      (cp := r.cp) (a := a) (bs := bytesOf r.width ((RedOp.ofCode r.op).combine (itypeOf r.ty) (FFormat.ofCode (r.ty % 16))
        (ofBytes (s.bytesAt (.phys a) r.width)) (r.operand.toNat % 2 ^ (8 * r.width)))) hdom
    refine ⟨hmem, ?_, ?_, ?_, ?_⟩
    · rw [hrest]
      rfl
    · rw [hrest]
      rfl
    · rw [hrest]
      exact hstores
    · rw [hrest, ← hid]
      rfl
  · rw [State.endReduction_logs hfault]
    obtain ⟨hlogged, hreds⟩ := State.logReduction_takes (m := m) hctx
    exact ⟨_, _, rfl, hlogged, rfl, hid ▸ hreds⟩

/-- Settles O27: the requests of one issue are sent by induction on their list, each beside those before it; a request's end is one
write, or one entry of the log. -/
theorem reductions : Obligations.Reductions := ⟨reductionsSend, reductionsEnd⟩

end Sys2Proof.Machine

/-! # Synchronisation: atomics (09 R179 to R185) -/

namespace Sys2Proof.Machine

open Sys2Proof.Claims

set_option Elab.async false
variable {s t : State} {g k : Group} {c : Ctx} {op : AtomOp} {w : Nat}

/-! ## The threads of an address in order -/

/-- The steps of the aggregator's loop over threads, each with its words. -/
theorem access_loop {ty : IType} {fails : Nat → Bool} {sem : Nat → List (List Word) → List (List Word) × Nat}
    (hnil : ∀ v, sem v [] = ([], v))
    (hcons : ∀ v i ws l, sem v (ws :: l) = ((op.step ty w (fails i) v ws).2 :: (sem (op.step ty w (fails i) v ws).1 l).1,
      (sem (op.step ty w (fails i) v ws).1 l).2))
    (ops : Nat → List Word) (ths : List Nat) : ∀ (v : Nat) (acc : List (Nat × List Word)),
    (ths.map fun i => (i, ops i)).foldl (fun (acc : Nat × List (Nat × List Word)) x =>
      ((op.step ty w (fails x.1) acc.1 x.2).1, acc.2 ++ [(x.1, (op.step ty w (fails x.1) acc.1 x.2).2)])) (v, acc) =
      ((sem v (ths.map ops)).2, acc ++ ths.zip (sem v (ths.map ops)).1) := by
  induction ths with
  | nil =>
    intro v acc
    rw [List.map_nil, List.map_nil, List.foldl_nil, hnil, List.zip_nil_left, List.append_nil]
  | cons i ths ih =>
    intro v acc
    rw [List.map_cons, List.map_cons, List.foldl_cons, ih, hcons v i, List.zip_cons_cons, List.append_assoc]
    rfl

/-- Old values in thread order, and the last value: what the claim of an operation says of an access without spurious failures. -/
def AccessGives (op : AtomOp) (sem : Ctx → Nat → List (List Word) → List (List Word) × Nat) : Prop :=
  ∀ (c : Ctx) (v : Nat) (ops : Nat → List Word) (ths : List Nat),
    op.access c.itype c.ffmt (op.width c) v v (fun _ => false) (ths.map fun i => (i, ops i)) =
      ((sem c v (ths.map ops)).2, ths.zip (sem c v (ths.map ops)).1)

theorem accessGives_int (f : IType → Nat → Nat → Nat) : AccessGives (.int f) fun c v ops =>
    let r := series (f c.itype) v (ops.map fun ws => atomOperand (intWidth c) ws 0)
    (r.1.map (atomWords (intWidth c)), r.2) := by
  intro c v ops ths
  have hloop := access_loop (op := .int f) (w := intWidth c) (ty := c.itype) (fails := fun _ => false)
    (sem := fun v ops =>
      let r := series (f c.itype) v (ops.map fun ws => atomOperand (intWidth c) ws 0)
      (r.1.map (atomWords (intWidth c)), r.2)) (fun _ => rfl) (fun _ _ _ _ => rfl) ops ths v []
  exact Prod.ext (congrArg Prod.fst hloop) (congrArg Prod.snd hloop)

theorem accessGives_cas : AccessGives .cas fun c v ops =>
    swaps (intWidth c) v (ops.map fun ws => (atomOperand (intWidth c) ws 0, atomOperand (intWidth c) ws 1)) := by
  intro c v ops ths
  have hloop := access_loop (op := .cas) (w := intWidth c) (ty := c.itype) (fails := fun _ => false)
    (sem := fun v ops => swaps (intWidth c) v (ops.map fun ws => (atomOperand (intWidth c) ws 0, atomOperand (intWidth c) ws 1)))
    (fun _ => rfl) (fun v _ ws l => by simp only [List.map_cons, swaps, AtomOp.step, and_true]) ops ths v []
  exact Prod.ext (congrArg Prod.fst hloop) (congrArg Prod.snd hloop)

/-- The running sums of the model are those of the claim. -/
theorem faddSeries_eq_sums (fmt : FFormat) (v : Nat) (xs : List Nat) : ∀ p, faddSeries fmt v p xs = sums fmt v p xs := by
  induction xs with
  | nil => intro p; cases p <;> rfl
  | cons x xs ih =>
    intro p
    cases p with
    | none =>
      rw [faddSeries, ih]
      rfl
    | some y =>
      rw [faddSeries, ih]
      rfl

theorem accessGives_fadd : AccessGives .fadd fun c v ops =>
    let r := sums c.ffmt v none (ops.map fun ws => atomOperand (floatWidth c) ws 0)
    (r.1.map (atomWords (floatWidth c)), r.2) := by
  intro c v ops ths
  unfold AtomOp.access
  dsimp only
  rw [faddSeries_eq_sums, List.map_map, List.map_map]
  refine Prod.ext rfl ?_
  dsimp only
  rw [List.zip_map_left, List.map_map, List.zip_map_right]
  rfl

/-! ## The access in memory -/

theorem State.homePa_home (pa : Nat) : s.homePa (s.homePa pa) = s.homePa pa := by
  unfold State.homePa
  by_cases h : 0x800000000000 ≤ pa ∧ bits pa 40 7 = s.config.package
  · rw [if_pos h]
    exact if_neg fun hback => absurd hback.1 (by omega)
  · rw [if_neg h, if_neg h]

theorem State.takeLoads_quiet {gid id n : Nat} {l : Loc} (h : ∀ d ∈ s.deliveries, d.gid ≠ gid) : s.takeLoads gid id l n = s := by
  fun_cases State.takeLoads
  · rfl
  · refine congrArg (fun l => { s with deliveries := l }) (updateWhere_none fun d hd => ?_)
    show (d.gid == gid && _ && _) = false
    simp [h d hd]

theorem State.atomicReady_quiet {spec : Bool} (h : quiet s g) : s.atomicReady g spec = s := by
  have hordered : s.orderedBefore g = s := by
    unfold State.orderedBefore
    dsimp only
    rw [State.finishOthers_quiet h, h.1]
    rfl
  unfold State.atomicReady
  rw [State.freeze_quiet h.2.1, ite_self, hordered]

theorem State.settledValue_quiet {p : Spot} (hstores : s.stores = []) (hreds : s.reductions = []) :
    s.settledValue g p w = (s, ofBytes (s.bytesAt p.loc w)) := by
  have hway : s.clearWay g.id s.nextId p.loc w = s := by
    unfold State.clearWay State.redTouches
    rw [hreds]
    rfl
  unfold State.settledValue
  dsimp only
  rw [hway, State.settleStores_none hstores, State.view_none hstores]

/-- A request of a mode that draws nothing. -/
theorem State.atomRequest_quiet {exch : Bool} {p : Spot} {threads : List (Nat × List Word)} (hstores : s.stores = [])
    (hreds : s.reductions = []) (huse : modeUse c.mode < 3) :
    s.atomRequest c op exch p threads =
      (s.putAtomic c.g p (bytesOf (op.width c) (op.access c.itype c.ffmt (op.width c) (ofBytes (s.bytesAt p.loc (op.width c)))
        (ofBytes (s.bytesAt p.loc (op.width c))) (fun _ => false) threads).1),
       (op.access c.itype c.ffmt (op.width c) (ofBytes (s.bytesAt p.loc (op.width c)))
        (ofBytes (s.bytesAt p.loc (op.width c))) (fun _ => false) threads).2) := by
  have hquantum : (modeUse c.mode == 3) = false := beq_eq_false_iff_ne.2 (by omega)
  have hspec : (modeUse c.mode == 4) = false := beq_eq_false_iff_ne.2 (by omega)
  have hdraw : ¬ (modeUse c.mode = 3 ∨ modeUse c.mode = 4) := by omega
  unfold State.atomRequest
  dsimp only
  rw [State.settledValue_quiet hstores hreds]
  dsimp only
  rw [if_neg hdraw]
  simp only [quantumApplies, hquantum, hspec, Bool.false_and, Bool.false_eq_true, if_false]

/-- The state after an atomic's write to memory. -/
theorem State.putAtomic_memory {p : Spot} {a : Nat} {bs : List Byte} (hloc : p.loc = .phys a) (hdom : Pte.dom p.hit.pte ≠ 2)
    (hloads : ∀ d ∈ s.deliveries, d.gid ≠ g.id) :
    ∃ past cores, s.putAtomic g p bs = { s with
      nextId := s.nextId + 1, mem := s.mem.write (s.homePa a) bs, past := past, cores := cores } := by
  unfold State.putAtomic State.putCoherent
  dsimp only
  rw [State.takeLoads_quiet (s := { s with nextId := s.nextId + 1 }) hloads, if_neg hdom, hloc]
  exact ⟨_, _, rfl⟩

/-! ## Results on their way -/

/-- The result of a thread starts on its way, where it has a destination. -/
def Ctx.sendResult (c : Ctx) (fenced : Bool) (s : State) (r : Nat × List Word) : State :=
  match c.resultWrites r.1 r.2 with
  | [] => s
  | ws => s.issueProduct c.g fenced (.values ws)

/-- The products of results. -/
def Ctx.resultProduct (c : Ctx) (r : Nat × List Word) : Option Product :=
  if c.resultWrites r.1 r.2 = [] then none else some (.values (c.resultWrites r.1 r.2))

theorem Ctx.sendResults_eq {fenced : Bool} (l : List (Nat × List Word)) : ∀ s : State, ∃ id new,
    l.foldl (c.sendResult fenced) s = { s with nextId := id, deliveries := s.deliveries ++ new } ∧
      new.map (·.product) = l.filterMap c.resultProduct := by
  induction l with
  | nil => exact fun s => ⟨s.nextId, [], by rw [List.append_nil]; rfl, rfl⟩
  | cons r l ih =>
    intro s
    rw [List.foldl_cons, List.filterMap_cons]
    unfold Ctx.sendResult Ctx.resultProduct
    cases hws : c.resultWrites r.1 r.2 with
    | nil =>
      rw [if_pos rfl]
      exact ih s
    | cons y ws =>
      obtain ⟨id, new, hfold, hnew⟩ := ih (s.issueProduct c.g fenced (.values (y :: ws)))
      rw [if_neg (List.cons_ne_nil y ws)]
      refine ⟨id, ⟨s.nextId, c.g.id, c.g.super, fenced, c.g.acqFloor, .values (y :: ws)⟩ :: new, ?_, ?_⟩
      · refine hfold.trans ?_
        unfold State.issueProduct
        dsimp only
        rw [List.append_assoc]
        rfl
      · rw [List.map_cons, hnew]
        rfl

/-! ## Destinations -/

/-- A destination register becomes empty in the threads of an instruction. -/
def Group.emptied (c : Ctx) (o : Operand) (g : Group) : Group :=
  match o with
  | .t j => g.onArch (·.onT j (Ranked.markEmpty c.width c.active))
  | .g j => g.onArch (·.setFull j false)
  | _ => g

/-- What the program of a group has besides its t and g copies. -/
def Group.keptByResults (g : Group) : Nat × DWord × List Ranked × DWord := (g.id, g.arch.pc, g.arch.p, g.arch.mode)

theorem Group.emptied_keeps {o : Operand} : (g.emptied c o).keptByResults = g.keptByResults := by
  cases o <;> rfl

/-- Destinations that become empty leave the rest of the program. -/
theorem Group.markEmpty_keeps {o : Operand} {n : Nat} : (g.markEmpty c o n).keptByResults = g.keptByResults := by
  change ((List.range n).foldl (fun g k => g.emptied c (o.above k)) g).keptByResults = _
  generalize List.range n = l
  induction l generalizing g with
  | nil => rfl
  | cons i l ih => exact ih.trans Group.emptied_keeps

/-! ## Threads, addresses and places -/

section
variable {memo : Memo} {need : Need} {align : Bool}

/-- An access of global memory goes to the home of its physical address. -/
theorem State.spot_global {x : Target7} {p : Spot} (hx : x.team = false) (h : (s.spot memo g x w need align).2.2 = .ok p) :
    p.loc = .phys (s.homePa p.hit.pa) := by
  have hconfig : (s.translateOnce memo g x w need).1.config = s.config := by rw [translated_translateOnce.rest]
  unfold State.spot at h
  dsimp only at h
  split at h
  · exact nomatch h
  · split at h
    · exact nomatch h
    · rw [if_neg (by rw [hx]; exact Bool.false_ne_true)] at h
      split at h
      · exact nomatch h
      next t memo' hit heq =>
        rw [heq] at hconfig
        obtain rfl : (⟨.phys (t.homePa hit.pa), hit⟩ : Spot) = p := Except.ok.inj h
        unfold State.homePa
        rw [show t.config = s.config from hconfig]

/-- The accesses of an instruction: those of its threads in order, each that passes at its home. -/
theorem State.tryAll_global (targets : List (Nat × Target7)) (hglobal : ∀ x ∈ targets, x.2.team = false) :
    (s.tryAll g targets w need align).2.map (·.thread) = targets.map (·.1) ∧
      ∀ y ∈ (s.tryAll g targets w need align).2, ∀ p, y.out = .ok p → p.loc = .phys (s.homePa p.hit.pa) := by
  have hfold : ∀ (l : List (Nat × Target7)) (acc : State × Memo × List (Tried Spot)), (∀ x ∈ l, x.2.team = false) →
      acc.1.config = s.config → (∀ y ∈ acc.2.2, ∀ p, y.out = .ok p → p.loc = .phys (s.homePa p.hit.pa)) →
      (l.foldl (tryOne g w need align) acc).2.2.map (·.thread) = acc.2.2.map (·.thread) ++ l.map (·.1) ∧
        ∀ y ∈ (l.foldl (tryOne g w need align) acc).2.2, ∀ p, y.out = .ok p → p.loc = .phys (s.homePa p.hit.pa) := by
    intro l
    induction l with
    | nil => exact fun acc _ _ hacc => ⟨(List.append_nil _).symm, hacc⟩
    | cons x l ih =>
      intro acc hl hconfig hacc
      have hstep : (tryOne g w need align acc x).1.config = s.config := by
        refine Eq.trans ?_ hconfig
        unfold tryOne
        dsimp only
        rw [translated_spot.rest]
      obtain ⟨hthreads, hspots⟩ := ih (tryOne g w need align acc x) (fun y hy => hl y (List.mem_cons_of_mem _ hy)) hstep
        (fun y hy p hp => by
          obtain hy | hy := List.mem_append.1 hy
          · exact hacc y hy p hp
          · obtain rfl := List.mem_singleton.1 hy
            have hloc := State.spot_global (hl x List.mem_cons_self) hp
            unfold State.homePa at hloc ⊢
            rwa [hconfig] at hloc)
      refine ⟨?_, hspots⟩
      rw [List.foldl_cons, hthreads]
      unfold tryOne
      dsimp only
      rw [List.map_append, List.append_assoc]
      rfl
  exact hfold targets (s, Memo.none, []) hglobal rfl fun y hy => nomatch hy

end

theorem mem_passes {α : Type} {l : List (Tried α)} {i a : Nat} {v : α} (h : (i, a, v) ∈ passes l) :
    ∃ y ∈ l, y.thread = i ∧ y.out = .ok v := by
  obtain ⟨y, hy, heq⟩ := List.mem_filterMap.1 h
  refine ⟨y, hy, ?_⟩
  split at heq
  · exact nomatch heq
  next v' hout =>
    obtain ⟨hi, -, rfl⟩ : y.thread = i ∧ y.addr = a ∧ v' = v := by simpa using heq
    exact ⟨hi, hout⟩

/-- A request's place is that of one of the accesses, and its threads are theirs. -/
theorem mem_byAddress {l : List (Nat × Nat × Spot)} {p : Spot} {ths : List Nat} (h : (p, ths) ∈ byAddress l) :
    (∃ i a, (i, a, p) ∈ l) ∧ ∀ i ∈ ths, ∃ a q, (i, a, q) ∈ l := by
  obtain ⟨a, -, heq⟩ := List.mem_filterMap.1 h
  split at heq
  · exact nomatch heq
  next y ys hfilter =>
    obtain ⟨rfl, rfl⟩ := Prod.mk.inj (Option.some.inj heq)
    have hin : ∀ z ∈ y :: ys, z ∈ l := fun z hz => List.mem_of_mem_filter (hfilter ▸ hz)
    refine ⟨⟨y.1, y.2.1, hin y List.mem_cons_self⟩, fun i hi => ?_⟩
    obtain ⟨z, hz, rfl⟩ := List.mem_map.1 (show i ∈ (y :: ys).map (·.1) from hi)
    exact ⟨z.2.1, z.2.2, hin z hz⟩

/-! ## ATOM -/

/-- The operands that an atomic holds for its threads. -/
def heldWords (c : Ctx) (n : Nat) (threads : List Nat) (i : Nat) : List Word :=
  (((threads.map fun i => (i, c.atomHeld n i)).find? (·.1 == i)).map (·.2)).getD []

theorem heldWords_eq {n i : Nat} {threads : List Nat} (hi : i ∈ threads) : heldWords c n threads i = c.atomHeld n i := by
  unfold heldWords
  rw [List.find?_map]
  cases hfind : threads.find? ((fun x : Nat × List Word => x.1 == i) ∘ fun i => (i, c.atomHeld n i)) with
  | none =>
    rw [List.find?_eq_none] at hfind
    exact absurd (beq_self_eq_true i) (hfind i hi)
  | some j =>
    have hj : (j == i) = true := List.find?_some (p := fun j => j == i) hfind
    obtain rfl := beq_iff_eq.1 hj
    rfl

/-- The part of an atomic after its accesses are tried. -/
def Ctx.atomRun (c : Ctx) (op : AtomOp) (exch : Bool) (s : State) (l : List (Spot × List Nat)) : State :=
  l.foldl (fun s x =>
    let r := s.atomRequest c op exch x.1 (x.2.map fun i => (i, heldWords c (op.regs c) (atomThreads c) i))
    r.2.foldl (c.sendResult (modeUse c.mode != 2)) r.1) s

/-- The accesses of an atomic. -/
def Ctx.atomTried (c : Ctx) (op : AtomOp) (x : BitVec 3) (s : State) : State × List (Tried Spot) :=
  s.tryAll c.g ((atomThreads c).map fun i => (i, globalTarget x c i)) (op.width c) .write true

theorem atomBody_done {f : Form} {exch : Bool} {x : BitVec 3} (hgood : failures (c.atomTried op x s).2 = []) :
    atomBody f op exch x.toNat c s =
      (c.atomRun op exch (((c.atomTried op x s).1.onGroup c.g.id fun g => g.markEmpty c c.d (op.regs c)).atomicReady c.g
        (modeUse c.mode == 4)) (byAddress (passes (c.atomTried op x s).2))).onGroup c.g.id Group.advance := by
  have hfinish : ∀ (k : MemKind) (addrs : List (Nat × DWord)) (held : List (Nat × List Word)) (first : Nat) (u : State),
      c.finishMem f k (c.atomTried op x s).2 addrs held first u = u.onGroup c.g.id Group.advance := fun k addrs held first u => by
    unfold Ctx.finishMem
    rw [hgood]
  unfold atomBody
  dsimp only
  exact hfinish _ _ _ _ _

end Sys2Proof.Machine

/-! # Synchronisation: atomics complete (09 R179 to R183) -/

namespace Sys2Proof.Machine

open Sys2Proof.Claims

set_option Elab.async false
variable {s t : State} {g k : Group} {c : Ctx} {op : AtomOp} {sem : Ctx → Nat → List (List Word) → List (List Word) × Nat}

/-- One request of an atomic, with nothing on its way before it: the value is replaced, and the results are on their way. -/
theorem Ctx.atomRun_single {exch : Bool} {p : Spot} {ths : List Nat} {a : Nat} (hgives : AccessGives op sem) (hquiet : quiet s c.g)
    (hreds : s.reductions = []) (huse : modeUse c.mode < 3) (hloc : p.loc = .phys a) (hdom : Pte.dom p.hit.pte ≠ 2)
    (hths : ∀ i ∈ ths, i ∈ atomThreads c) :
    let out := sem c (s.mem.value (s.homePa a) (op.width c)) (ths.map (c.atomHeld (op.regs c)))
    ∃ id past cores new, c.atomRun op exch s [(p, ths)] = { s with
        nextId := id, mem := s.mem.write (s.homePa a) (bytesOf (op.width c) out.2), past := past, cores := cores
        deliveries := s.deliveries ++ new } ∧
      new.map (·.product) = (ths.zip out.1).filterMap c.resultProduct := by
  intro out
  have hheld : (ths.map fun i => (i, heldWords c (op.regs c) (atomThreads c) i)) = ths.map fun i => (i, c.atomHeld (op.regs c) i) :=
    List.map_congr_left fun i hi => by rw [heldWords_eq (hths i hi)]
  have hvalue : ofBytes (s.bytesAt p.loc (op.width c)) = s.mem.value (s.homePa a) (op.width c) := by
    rw [hloc]
    rfl
  have hrequest := State.atomRequest_quiet (op := op) (exch := exch) (p := p)
    (threads := ths.map fun i => (i, c.atomHeld (op.regs c) i)) hquiet.1 hreds huse
  rw [hvalue, hgives] at hrequest
  obtain ⟨past, cores, hput⟩ := State.putAtomic_memory (g := c.g) (bs := bytesOf (op.width c) out.2) hloc hdom hquiet.2.1
  obtain ⟨id, new, hsent, hnew⟩ := Ctx.sendResults_eq (c := c) (fenced := modeUse c.mode != 2) (ths.zip out.1)
    (s.putAtomic c.g p (bytesOf (op.width c) out.2))
  refine ⟨id, past, cores, new, ?_, hnew⟩
  unfold Ctx.atomRun
  rw [List.foldl_cons, List.foldl_nil, hheld, hrequest]
  refine hsent.trans ?_
  rw [hput]

/-- The state in which an atomic makes its access: past its translations, with its destinations empty. -/
def Ctx.atomStart (c : Ctx) (op : AtomOp) (x : BitVec 3) (s : State) : State :=
  (c.atomTried op x s).1.onGroup c.g.id fun g => g.markEmpty c c.d (op.regs c)

theorem Ctx.atomStart_rest {x : BitVec 3} : c.atomStart op x s = { (c.atomTried op x s).1 with groups := (c.atomStart op x s).groups } :=
  rfl

theorem Ctx.atomTried_rest {x : BitVec 3} : Translated s (c.atomTried op x s).1 := translated_tryAll

/-- The group past an atomic's start. -/
theorem Ctx.group?_atomStart {x : BitVec 3} (hg : s.group? c.g.id = some g) :
    ∃ k, (c.atomStart op x s).group? c.g.id = some k ∧ k.keptByResults = g.keptByResults := by
  obtain ⟨k, hk, hsans⟩ := (Ctx.atomTried_rest (c := c) (op := op) (x := x)).keepsPrograms.group?_some hg
  have hid : ∀ k : Group, (k.markEmpty c c.d (op.regs c)).id = k.id := fun k => congrArg Prod.fst Group.markEmpty_keeps
  have hsame : k.sansXl.keptByResults = g.sansXl.keptByResults := by rw [hsans]
  exact ⟨_, State.group?_onGroup hid hk, Group.markEmpty_keeps.trans hsame⟩

theorem globalTarget_team {x : BitVec 3} {i : Nat} : (globalTarget x c i).team = false := by
  unfold globalTarget Ctx.xlTarget
  split <;> rfl

/-- The requests of an atomic go to the homes of their addresses, for threads of the atomic. -/
theorem Ctx.atomTried_request {x : BitVec 3} {p : Spot} {ths : List Nat} (h : (p, ths) ∈ byAddress (passes (c.atomTried op x s).2)) :
    p.loc = .phys ((c.atomTried op x s).1.homePa p.hit.pa) ∧ ∀ i ∈ ths, i ∈ atomThreads c := by
  obtain ⟨hthreads, hspots⟩ := State.tryAll_global (s := s) (g := c.g) (w := op.width c) (need := .write) (align := true)
    ((atomThreads c).map fun i => (i, globalTarget x c i)) (by
      intro y hy
      obtain ⟨i, -, rfl⟩ := List.mem_map.1 hy
      exact globalTarget_team)
  have hconfig : (c.atomTried op x s).1.config = s.config := by rw [Ctx.atomTried_rest.rest]
  obtain ⟨⟨i, a, hp⟩, hths⟩ := mem_byAddress h
  refine ⟨?_, fun i hi => ?_⟩
  · obtain ⟨y, hy, -, hout⟩ := mem_passes hp
    have hloc := hspots y hy p hout
    unfold State.homePa at hloc ⊢
    rwa [hconfig]
  · obtain ⟨a, q, hq⟩ := hths i hi
    obtain ⟨y, hy, hthread, -⟩ := mem_passes hq
    have hin : y.thread ∈ (c.atomTried op x s).2.map (·.thread) := List.mem_map_of_mem hy
    rw [show (c.atomTried op x s).2.map (·.thread) = _ from hthreads, List.map_map, hthread] at hin
    obtain ⟨j, hj, rfl⟩ := List.mem_map.1 hin
    exact hj

/-- An atomic whose threads name one address, with nothing on its way before it. -/
theorem atomBody_single {f : Form} {exch : Bool} {x : BitVec 3} {p : Spot} {ths : List Nat}
    (hgood : failures (c.atomTried op x s).2 = []) (hquiet : quiet (c.atomStart op x s) c.g)
    (hone : byAddress (passes (c.atomTried op x s).2) = [(p, ths)]) :
    atomBody f op exch x.toNat c s = (c.atomRun op exch (c.atomStart op x s) [(p, ths)]).onGroup c.g.id Group.advance := by
  rw [atomBody_done hgood, hone]
  change (c.atomRun op exch ((c.atomStart op x s).atomicReady c.g _) _).onGroup _ _ = _
  rw [State.atomicReady_quiet hquiet]

theorem Ctx.atomStart_quiet {x : BitVec 3} (hstores : s.stores = []) (hreds : s.reductions = [])
    (hloads : ∀ d ∈ s.deliveries, d.gid ≠ c.g.id) : quiet (c.atomStart op x s) c.g ∧ (c.atomStart op x s).reductions = [] ∧
      (c.atomStart op x s).deliveries = s.deliveries := by
  rw [Ctx.atomStart_rest, Ctx.atomTried_rest.rest]
  exact ⟨⟨hstores, hloads, fun y hy => by rw [hreds] at hy; exact nomatch hy⟩, hreds, rfl⟩

/-- What an atomic of an operation that gives old values and a new one does, past its checks. -/
theorem atomCompletes {i : Instr} {f : Form} {late : Ctx → Option Nat} {x : BitVec 3} {exch : Bool}
    (hexec : ∀ s, exec i s = s.issue f (atomBody f op exch x.toNat) (late := late)) (hgives : AccessGives op sem) :
    AtomCompletes i f late op.width op.regs x sem := by
  intro s g hruns c r hgood hstores hreds hloads huse p ths hone hdom out
  have hreq : (p, ths) ∈ byAddress (passes (c.atomTried op x s).2) := by
    rw [show byAddress (passes (c.atomTried op x s).2) = _ from hone]
    exact List.mem_singleton.2 rfl
  obtain ⟨hloc, hths⟩ := Ctx.atomTried_request hreq
  obtain ⟨hquiet, hreds', hdeliveries⟩ := Ctx.atomStart_quiet (c := c) (op := op) (x := x) hstores hreds hloads
  obtain ⟨id, past, cores, new, hrun, hnew⟩ := Ctx.atomRun_single (exch := exch) hgives hquiet hreds' huse hloc hdom hths
  have hhome : (c.atomStart op x s).homePa ((c.atomTried op x s).1.homePa p.hit.pa) = (c.atomTried op x s).1.homePa p.hit.pa :=
    State.homePa_home p.hit.pa
  rw [hhome] at hrun hnew
  obtain ⟨k, hk, hkept⟩ := Ctx.group?_atomStart (c := c) (op := op) (x := x) hruns.group?
  obtain ⟨-, hpc, hp, hmode⟩ : k.id = g.id ∧ k.arch.pc = g.arch.pc ∧ k.arch.p = g.arch.p ∧ k.arch.mode = g.arch.mode := by
    simpa only [Group.keptByResults, Prod.mk.injEq] using hkept
  have hdone : exec i s = .next ((c.atomRun op exch (c.atomStart op x s) [(p, ths)]).onGroup c.g.id Group.advance) := by
    rw [hexec, State.issue_runs _ hruns, atomBody_single hgood hquiet hone]
  rw [hrun] at hdone
  exact ⟨_, k.advance, new, hdone, rfl, rfl, hquiet.1, State.group?_onGroup (fun _ => rfl) hk, congrArg (· + 4) hpc, rfl, hp, hmode,
    congrArg (· ++ new) hdeliveries, hnew⟩

/-- Every integer atomic is one operation of the aggregator (09 R181, R182). -/
theorem exec_intAtomics {e : (BitVec 8 → BitVec 3 → BitVec 8 → Instr) × Nat × (IType → Nat → Nat → Nat)}
    (he : e ∈ intAtomics) (d : BitVec 8) (x : BitVec 3) (o : BitVec 8) : ∃ exch, ∀ s, exec (e.1 d x o) s =
      s.issue (atomForm e.2.1 .typed d x o) (atomBody (atomForm e.2.1 .typed d x o) (.int e.2.2) exch x.toNat)
        (late := atomLate false) := by
  simp only [intAtomics, List.mem_cons, List.not_mem_nil, or_false] at he
  obtain rfl | rfl | rfl | rfl | rfl | rfl | rfl := he
  · exact ⟨_, fun _ => rfl⟩
  · exact ⟨_, fun _ => rfl⟩
  · exact ⟨_, fun _ => rfl⟩
  · exact ⟨_, fun _ => rfl⟩
  · exact ⟨_, fun _ => rfl⟩
  · exact ⟨_, fun _ => rfl⟩
  · exact ⟨_, fun _ => rfl⟩

theorem AtomOp.int_width (f : IType → Nat → Nat → Nat) : (AtomOp.int f).width = intWidth := rfl

theorem AtomOp.int_regs (f : IType → Nat → Nat → Nat) : (AtomOp.int f).regs = fun c => regsFor (intWidth c) := rfl

theorem AtomOp.cas_width : AtomOp.cas.width = intWidth := rfl

theorem AtomOp.cas_regs : AtomOp.cas.regs = fun c => 2 * regsFor (intWidth c) := rfl

theorem AtomOp.fadd_width : AtomOp.fadd.width = floatWidth := rfl

theorem AtomOp.fadd_regs : AtomOp.fadd.regs = fun _ => 1 := rfl

theorem exec_atomCas (d : BitVec 8) (x : BitVec 3) (o : BitVec 8) (s : State) : exec (.atomCas d x o) s =
    s.issue (atomForm 0x87 .twoTyped d x o) (atomBody (atomForm 0x87 .twoTyped d x o) .cas false x.toNat) (late := atomLate false) :=
  rfl

theorem exec_atomFadd (d : BitVec 8) (x : BitVec 3) (o : BitVec 8) (s : State) : exec (.atomFadd d x o) s =
    s.issue (atomForm 0x88 .one d x o) (atomBody (atomForm 0x88 .one d x o) .fadd false x.toNat) (late := fun _ => none) := rfl

/-- Settles O26: by induction on the threads of the address the access gives old values in thread order and the last value; what
comes before it does nothing where no access is on its way, and after it there are one write and the results. -/
theorem atomicsComplete : Obligations.AtomicsComplete := by
  refine ⟨fun e he d x o => ?_, fun d x o => ?_, fun d x o => ?_⟩
  · obtain ⟨exch, hexec⟩ := exec_intAtomics he d x o
    have hint := atomCompletes hexec (accessGives_int e.2.2)
    rwa [AtomOp.int_width, AtomOp.int_regs] at hint
  · have hcas := atomCompletes (exec_atomCas d x o) accessGives_cas
    rwa [AtomOp.cas_width, AtomOp.cas_regs] at hcas
  · have hfadd := atomCompletes (exec_atomFadd d x o) accessGives_fadd
    rwa [AtomOp.fadd_width, AtomOp.fadd_regs] at hfadd

end Sys2Proof.Machine
